-- ==== Sys2Proof/Word.lean ====
section
/-! DEFINITION. The words of the machine: register, instruction, vector and predicate widths (01 R8, 02 R46). -/

namespace Sys2Proof

/-- A scalar register or an address (01 R8). -/
abbrev Word := BitVec 64

/-- The smallest addressable unit (00 R3). -/
abbrev Byte := BitVec 8

/-- An instruction word (02 R46). -/
abbrev IWord := BitVec 128

/-- A vector register: 512 bytes (01 R8). -/
abbrev VReg := BitVec 4096

/-- A predicate register: one bit for each byte position of a vector register (01 R8). -/
abbrev PReg := BitVec 512

end Sys2Proof
end

