-- ==== Sys2Proof/Config.lean ====
section
/-! DEFINITION. What the manual leaves open: the free values, each an opaque constant without a body (log 8). -/

namespace Sys2Proof.Config

/-- A 64-bit word nothing in the manual fixes, one for each value of the counter `State.free`. -/
opaque freeWord : Nat → Word

/-- What decides how a frame is coded (14 R389): the standard, the quantiser, whether it is a key frame, its size. -/
structure Coding where
  hevc : Bool
  quant : Nat
  key : Bool
  width : Nat
  height : Nat
  deriving DecidableEq, Repr

/-- The temporal unit or picture that an encoder makes of a frame's samples: the standards fix its form, and the manual
does not say which of the codings they allow it is (14 R389, log 15). -/
opaque encodedFrame (c : Coding) (samples : List (BitVec 10)) (draw : Nat) : List Byte

/-- The picture a decoder makes of an access unit (14 R391, log 15), by draw: its size and pitch, whether its samples have
10 bits or 8, and the word of each sample. -/
opaque decodedWidth : Nat → BitVec 16
opaque decodedHeight : Nat → BitVec 16
opaque decodedPitch : Nat → BitVec 32
opaque decodedDeep : Nat → Bool
opaque decodedWord : Nat → Nat → BitVec 16

/-- Whether an access unit is inside the profiles of 14 R391 and well formed. -/
opaque decodeOk : List Byte → Bool

/-- What sensor `k` reads at an update that the environment gives no readings for, by draw (19 R453, log 71). -/
opaque reading (draw k : Nat) : BitVec 16

/-- The products of the Kozal (00). -/
inductive Product | kz3600C | kz3600P | kz3600M
  deriving DecidableEq, Repr, Inhabited

/-- Which of them this device is. -/
opaque product : Product

/-- The requests the SPDM responder serves (20 R487). -/
inductive SpdmRequest
  | getVersion | getCapabilities | negotiateAlgorithms | getDigests | getCertificate | challenge | getMeasurements
  deriving DecidableEq, Repr

/-- A signature algorithm, and whether it is offered as an extended one (20 R487). -/
inductive Signature | slhDsaSha2_128s (extended : Bool)
  deriving DecidableEq, Repr

/-- The boot ROM and the fused configuration, as they are measured (20 R487). -/
opaque bootRom : List Byte
opaque fuses : List Byte

/-- The body of the responder's answer: the message that SPDM 1.3 makes of the request, the algorithm offered, what is measured
and the exchanges before it, newest first (20 R487, log 108). -/
opaque spdmBody (k : SpdmRequest) (request : List Byte) (alg : Signature) (measured : List (List Byte))
    (before : List (List Byte × List Byte)) : List Byte

/-- How many core cycles after its issue the default policy lets the answer of a load, an atomic or another operation of
variable latency arrive; DESIGN CHOICE (log 5): the manual fixes no such time, only that one passes. -/
def answerDelay : Nat := 4

/-- How many core cycles after its issue an instruction of variable latency has read its source registers; DESIGN CHOICE
(log 17): the manual says only that it reads them at some time after its issue (01 R23, R26). -/
def readDelay : Nat := 2

end Sys2Proof.Config
end

