-- ==== Sys2Proof/Syntax.lean ====
section
/-! DEFINITION. The instructions and events of the Kozal: one constructor of `Instr` for each row of the table.
A row that a word encodes carries the fields of its format (02 R48 to R54); a row that is a step of another agent
carries what identifies that step. -/

namespace Sys2Proof

/-- The two slices of a strand (01 R11). -/
inductive Slice | a | e
  deriving DecidableEq, Repr

/-- The two kinds of core that run Jolet (01 R9, 02 R62). -/
inductive CoreKind | tile | headstock
  deriving DecidableEq, Repr

/-- Element types (04 R111, R113). Code 0 also stands for "no type" on an instruction that takes none (02 R57). -/
inductive Ty
  | s64 | s32 | z32 | s16 | z16 | s8 | z8 | f32 | bf16 | f16 | e4m3 | e5m2 | qc4 | z64
  deriving DecidableEq, Repr

/-- Designators (02 R55). -/
inductive Desig
  | x (n : Fin 64) | v (n : Fin 64) | p (n : Fin 8) | lq | xq
  deriving DecidableEq, Repr

/-- Scheduling fields of every word (02 R46, 01 R22 to R25). -/
structure Sched where
  stall : BitVec 4
  wait : BitVec 6
  wsb : Option (Fin 6)
  rsb : Option (Fin 6)
  reuse : BitVec 3
  psafe : Bool
  yield : Bool
  deriving DecidableEq, Repr

/-- Predicate selection of every word (01 R21). -/
structure Gate where
  pred : Fin 8
  pneg : Bool
  deriving DecidableEq, Repr

/-- Branch conditions of BCC (02 R50). -/
inductive Cond | eq | ne | lt | ge | ltz | gez
  deriving DecidableEq, Repr

/-- Cache hints (02 R51). -/
inductive CacheHint | default | nt | na
  deriving DecidableEq, Repr

/-- Address modes (02 R51). -/
inductive AMode | disp | index | scaled
  deriving DecidableEq, Repr

/-- Orderings (02 R51). -/
inductive MemOrd | relaxed | acq | rel | ar
  deriving DecidableEq, Repr

/-- Scopes (02 R51, 08 R248). -/
inductive Scope | strand | tile | clus | dev | dom
  deriving DecidableEq, Repr

/-- Rounding modes (02 R54). -/
inductive RM | rne | rz | ru | rd
  deriving DecidableEq, Repr

/-- Source modifiers (02 R58); `seg` is log2 of the segment in lanes, 1 to 7. -/
inductive SrcMod
  | none
  | rot (seg : BitVec 3) (d : BitVec 7)
  | bfly (seg : BitVec 3) (d : BitVec 7)
  | bcast (seg : BitVec 3) (d : BitVec 7)
  deriving DecidableEq, Repr

/-- Format S (02 R48, R49). -/
structure FormS where
  sch : Sched
  gate : Gate
  slice : Slice
  ty : Ty
  d : Desig
  a : Desig
  b : Desig
  c : Desig
  aux : BitVec 4
  cond : Cond
  zx : Bool
  imm : Bool
  imm32 : BitVec 32
  deriving DecidableEq, Repr

/-- Format M (02 R48, R51). -/
structure FormM where
  sch : Sched
  gate : Gate
  slice : Slice
  ty : Ty
  d : Desig
  a : Desig
  b : Desig
  c : Desig
  ch : CacheHint
  amode : AMode
  nr : Bool
  ord : MemOrd
  scope : Scope
  imm32 : BitVec 32
  deriving DecidableEq, Repr

/-- Format V (02 R48, R54). -/
structure FormV where
  sch : Sched
  gate : Gate
  ty : Ty
  d : Desig
  a : Desig
  b : Desig
  c : Desig
  moda : SrcMod
  modb : SrcMod
  imm16 : BitVec 16
  ty2 : Ty
  opx : BitVec 4
  cx : Bool
  bx : Bool
  sat : Bool
  ftz : Bool
  rm : RM
  deriving DecidableEq, Repr

/-- Format E (02 R48, R52). -/
structure FormE where
  sch : Sched
  gate : Gate
  slice : Slice
  ty : Ty
  d : Desig
  a : Desig
  b : Desig
  c : Desig
  aux : BitVec 4
  quiet : Bool
  token : BitVec 4
  deriving DecidableEq, Repr

/-- Format Q (02 R48, R53). -/
structure FormQ where
  sch : Sched
  gate : Gate
  d : Desig
  a : Desig
  b : Desig
  c : Desig
  aux : BitVec 4
  nb : Bool
  scope : Scope
  deriving DecidableEq, Repr

/-- The two engines of a tile (11 R297). -/
inductive Engine | ce | me
  deriving DecidableEq, Repr

/-- The tree a group of merged atomics was built in; a leaf is the number of a request in flight (08 R262). -/
inductive MergeTree
  | leaf (req : Nat)
  | node (l r : MergeTree)
  deriving DecidableEq, Repr

/-- An input as a decode engine or the host delivers it (14 R392). -/
structure StreamInput where
  error : Bool
  pts : Word
  source : Byte
  addr : Word
  width : BitVec 16
  height : BitVec 16
  pitch : BitVec 32
  deriving DecidableEq, Repr

/-- Whose fault a gathered fault is (07 R239, AGENTS bits 0 to 5). -/
inductive FaultAgent | copy | matrix | sequence | stream | video | host
  deriving DecidableEq, Repr

/-- What an arriving fabric request asks of this device (20 R490). -/
inductive FabricOp
  | read (size : Nat)
  | write (data : List Byte)
  | atomic (opc : BitVec 10) (ty : Ty) (o c : Word)
  deriving DecidableEq, Repr

/-- The host's answer to a page request: Success, and the R and W of the translation it then completes with; or another
(20 R465). -/
inductive PriAnswer
  | success (r w : Bool)
  | failure
  deriving DecidableEq, Repr

/-- A fabric request from another device (20 R490): PASID, level of the issuer, offset in this device. -/
structure FabricReq where
  src : Nat
  pasid : BitVec 20
  user : Bool
  off : BitVec 40
  op : FabricOp
  deriving DecidableEq, Repr

/-- A flit for the collective aperture (20 R492): sixteen words, and how many flits a merged one holds. -/
structure Flit where
  src : Nat
  pasid : BitVec 20
  user : Bool
  off : BitVec 40
  words : List (BitVec 32)
  count : Nat
  deriving DecidableEq, Repr

/-- What the boot ROM finds when it verifies the image it is offered (20 R486, R466 BOOT). -/
inductive BootImage
  | absent
  | badSignature
  | oldVersion
  | good (entry : Word) (loc : Nat) (bytes : List Byte)
  deriving DecidableEq, Repr

/-- One constructor for each row of the table. -/
inductive Instr
  -- class 0, integer (03 R78)
  | add (f : FormS) | sub (f : FormS) | mul (f : FormS) | mulh (f : FormS) | mulhz (f : FormS) | muladd (f : FormS)
  | div (f : FormS) | divz (f : FormS) | rem (f : FormS) | remz (f : FormS)
  | and (f : FormS) | or (f : FormS) | xor (f : FormS) | andn (f : FormS) | orn (f : FormS)
  | sll (f : FormS) | srl (f : FormS) | sra (f : FormS) | ror (f : FormS)
  | min (f : FormS) | max (f : FormS) | minz (f : FormS) | maxz (f : FormS)
  | clz (f : FormS) | ctz (f : FormS) | popc (f : FormS)
  | bext (f : FormS) | bins (f : FormS) | sext (f : FormS) | zext (f : FormS)
  | slt (f : FormS) | sltz (f : FormS) | seq (f : FormS) | sel (f : FormS)
  | movi (f : FormS) | movhi (f : FormS) | lea (f : FormS)
  -- class 0, scalar FP32 (03 R85)
  | sfadd (f : FormS) | sfmul (f : FormS) | sffma (f : FormS) | sfcmp (f : FormS) | sfcvt (f : FormS)
  | sfmin (f : FormS) | sfmax (f : FormS)
  -- class 1 (03 R89)
  | nop (f : FormS) | br (f : FormS) | bcc (f : FormS) | bri (f : FormS) | call (f : FormS) | calli (f : FormS)
  | ret (f : FormS) | loopReg (f : FormS) | loopImm (f : FormS) | loopx (f : FormS)
  | ipref (f : FormS) | ipin (f : FormS) | iunpin (f : FormS) | fencei (f : FormS)
  | end_ (f : FormS) | trap (f : FormS) | xret (f : FormS) | krd (f : FormS) | kwr (f : FormS)
  | talertWrite (f : FormS) | intpendClear (f : FormS) | thrWrite (f : FormS)
  | sleep (f : FormS) | sleepRecheck (sid : Nat) | sleepTimeout (sid : Nat)
  | wake (f : FormS) | barrier (f : FormS) | spawn (f : FormS) | cancel (f : FormS)
  -- class 2 (09 R272)
  | ld (f : FormM) | ldq (f : FormM) | loadDataReturn (sid : Nat) (req : Nat)
  | st (f : FormM) | sta (f : FormM) | std (f : FormM) | storePair (sid : Nat)
  | vldq (f : FormM) | vsta (f : FormM) | vstd (f : FormM)
  | movq (f : FormM) | bqpush (f : FormM) | bqpop (f : FormM) | crosswaitDetect (sid : Nat)
  | qmark (f : FormM) | fence (f : FormM) | cinv (f : FormM) | cwb (f : FormM) | cpref (f : FormM)
  | aadd (f : FormM) | amax (f : FormM) | amin (f : FormM) | amaxz (f : FormM) | aminz (f : FormM)
  | aand (f : FormM) | aor (f : FormM) | axor (f : FormM) | axchg (f : FormM) | acas (f : FormM)
  | afadd (f : FormM) | afmax (f : FormM)
  | atomicGroupPerform (t : MergeTree) | atomicResponse (sid : Nat) (req : Nat)
  | spalloc (f : FormM) | sptopRelease (f : FormM) | spfloorStore (f : FormM)
  -- class 3 (06 R181)
  | vadd (f : FormV) | vsub (f : FormV) | vmul (f : FormV) | vfma (f : FormV) | vfms (f : FormV) | vfnma (f : FormV)
  | vdiv (f : FormV) | vsqrt (f : FormV) | vrcp (f : FormV) | vrsq (f : FormV) | vexp2 (f : FormV) | vlog2 (f : FormV)
  | vmin (f : FormV) | vmax (f : FormV) | vabs (f : FormV) | vneg (f : FormV) | vclamp (f : FormV)
  | vcmp (f : FormV) | vsel (f : FormV) | vand (f : FormV) | vor (f : FormV) | vxor (f : FormV)
  | vshl (f : FormV) | vshr (f : FormV) | vsar (f : FormV) | vcvt (f : FormV) | vqnt (f : FormV) | vqntQc4 (f : FormV)
  | vred (f : FormV) | vscan (f : FormV) | vperm (f : FormV) | vmov (f : FormV)
  | vmovxExtract (f : FormV) | vmovxInsert (f : FormV) | vext (f : FormV) | viota (f : FormV)
  | vmasklen (f : FormV) | vpopc (f : FormV) | vcmprs (f : FormV)
  | vdefer (f : FormV) | vdrain (f : FormV) | vdqstat (f : FormV)
  | pand (f : FormV) | por (f : FormV) | pxor (f : FormV) | pnot (f : FormV) | pfirst (f : FormV)
  | pfromx (f : FormV) | ptox (f : FormV)
  -- class 4 (12 R322)
  | cp (f : FormE) | cp2d (f : FormE) | cpg (f : FormE) | cps (f : FormE) | cpx (f : FormE) | cpz (f : FormE)
  | cpmm (f : FormE) | cpfill (f : FormE) | cpcomb (f : FormE)
  | mfmt (f : FormE) | mm (f : FormE) | mmt (f : FormE) | accz (f : FormE) | accwr (f : FormE) | accld (f : FormE)
  | tkgive (f : FormE) | tktake (f : FormE)
  | semwait (f : FormE) | semsig (f : FormE) | semset (f : FormE) | semrd (f : FormE)
  | cwait (f : FormE) | cpoll (f : FormE) | turn (f : FormE)
  | engineCommandStart (tile : Nat) (e : Engine) | mePanelFold (tile : Nat)
  | operandLineArrive (tile : Nat) (line : Nat) | engineCommandComplete (tile : Nat) (e : Engine)
  -- class 5 (13 R357)
  | bnew (f : FormQ) | brsv (f : FormQ) | cowCopyLand (copy : Nat)
  | bcmt (f : FormQ) | bvoid (f : FormQ) | bfell (f : FormQ) | bwait (f : FormQ) | bwaitTimeout (sid : Nat)
  | bfork (f : FormQ) | bhold (f : FormQ) | brel (f : FormQ) | baddr (f : FormQ) | bstat (f : FormQ)
  | bretire (f : FormQ) | bpinPin (f : FormQ) | bpinUnpin (f : FormQ)
  | tmload (f : FormQ) | tmlock (f : FormQ) | tmunlk (f : FormQ) | tminv (f : FormQ)
  -- class 6 (14 R400)
  | shead (f : FormQ) | stake (f : FormQ) | unpick (f : FormQ) | sframe (f : FormQ) | sfrpop (f : FormQ)
  | srung (f : FormQ) | sevt (f : FormQ) | sevtAttach (f : FormQ)
  | feedpop (f : FormQ) | feedwait (f : FormQ) | feedwaitTimeout (sid : Nat) | feedpush (f : FormQ)
  -- a word outside the opcode map (02 R61)
  | unallocatedOpcode (w : IWord)
  -- the scheduler and the loom (05), traps and pre-emption (16)
  | yieldMarkExpire (sid : Nat) | launchReady (lid : Nat) | placeGang | slackRecompute | classifyWindowEnd (lid : Nat)
  | preemptRequest | preemptStop (sid : Nat) | enginePreemptStop (tile : Nat) (e : Engine)
  | taskSave (tile : Nat) | taskRestore (lid : Nat) (gang : Nat) | preemptNosafe (lid : Nat) (gang : Nat)
  | watchdogStall (sid : Nat) | throttleLevelApply (lid : Nat) (gang : Nat)
  | taskComplete (tile : Nat) | stopPointPass (sid : Nat) | resultWrite (sid : Nat) (req : Nat)
  | faultWindowClose | headstockInterrupt | rollback (sid : Nat) | taskReexec (lid : Nat) (task : Nat)
  -- streams and video (14)
  | stepStart (stream : Nat) | stepEnd (stream : Nat) | encoderTake (enc : Nat) | encoderRecordEmit (enc : Nat)
  | decodeComplete (dec : Nat)
  -- the host's queues and their commands (20 R471 to R480)
  | ringFetch (q : Nat) | packetAccept (q : Nat)
  | launch (cmd : Nat) | close (cmd : Nat) | hostCancel (cmd : Nat) | feed (cmd : Nat)
  | feedcfgCreate (cmd : Nat) | feedcfgDestroy (cmd : Nat)
  | streamCreate (cmd : Nat) | streamUpdate (cmd : Nat) | streamDestroy (cmd : Nat)
  | jobstart (cmd : Nat) | take (cmd : Nat) | decode (cmd : Nat) | input (cmd : Nat) | inval (cmd : Nat)
  | hostFence (cmd : Nat) | signal (cmd : Nat) | firmwareCommand (cmd : Nat) | commandTerminal (cmd : Nat)
  -- what comes from outside the machine, or from its firmware's hands (07, 16, 17, 19, 20)
  | inputArrive (stream : Nat) (inp : StreamInput)
  | gatheredFault (pasid : BitVec 20) (page : Word) (sub : Byte) (agent : FaultAgent)
  | fresRetry (pasid : BitVec 20) (page : Word) | fresFail (pasid : BitVec 20) (page : Word) | flack (buf : Bool)
  | cancelAccept (level : Nat) (id : Nat) | powerLimitChange (above : Bool) | sensorUpdate (readings : List (BitVec 16))
  | tileFailure (tile : Nat) | hbmChannelFailure (base : Nat) (len : Nat) | headstockRestart
  | doorbell (q : Nat) (tail : Word)
  | qresume (q : Nat) | jackWrite (v : Word) | wincfgWrite (c : Nat) (v : Word)
  | dbdropRead | rasctlRead | registerWrite (off : Nat) (v : Word) (host : Bool)
  | hostBar2Access (off : Nat) (write : Option Word)
  | atsInvalidation (pasid : BitVec 20) (addr : Word) (len : Nat)
  | priResponse (pasid : BitVec 20) (page : Word) (ans : PriAnswer)
  | coldReset | warmReset | functionLevelReset | boot (image : BootImage) | spdmRequest (req : List Byte)
  | fabricRequest (r : FabricReq) | fabricStoreAck (id : Nat) | collectiveFlit (f : Flit) | portFailure (port : Nat)
  | powerLoss
  deriving DecidableEq, Repr

end Sys2Proof
end

