-- ==== Sys2Proof/Decode.lean ====
section
/-! DEFINITION. Decoding and encoding of instruction words (02 R46 to R63), and the tables of fields each opcode
takes (03 R78, R84, R85, R89; 09 R272, R273; 06 R181, R182; 12 R322, R331; 13 R357; 14 R400). The order of the checks
is that of 02 R63. -/

namespace Sys2Proof

/-- Subcodes of cause ILL (01 R34). -/
inductive IllSub | opc | mbz | slice | mod | type | desig | sched | pred | nounit | sreg
  deriving DecidableEq, Repr

namespace Decode

/-- The fields of a word, bit for bit (02 R46). -/
structure Raw where
  stall : BitVec 4
  wait : BitVec 6
  wsb : BitVec 3
  rsb : BitVec 3
  reuse : BitVec 3
  ax : BitVec 1
  psafe : BitVec 1
  yield : BitVec 1
  pred : BitVec 3
  pneg : BitVec 1
  opc : BitVec 10
  type : BitVec 4
  d : BitVec 8
  a : BitVec 8
  b : BitVec 8
  c : BitVec 8
  fx : BitVec 12
  modb : BitVec 12
  imm : BitVec 32
  deriving DecidableEq, Repr

/-- The fields of a word. -/
def unpack (w : IWord) : Raw where
  stall := w.extractLsb' 0 4
  wait := w.extractLsb' 4 6
  wsb := w.extractLsb' 10 3
  rsb := w.extractLsb' 13 3
  reuse := w.extractLsb' 16 3
  ax := w.extractLsb' 19 1
  psafe := w.extractLsb' 20 1
  yield := w.extractLsb' 21 1
  pred := w.extractLsb' 22 3
  pneg := w.extractLsb' 25 1
  opc := w.extractLsb' 26 10
  type := w.extractLsb' 36 4
  d := w.extractLsb' 40 8
  a := w.extractLsb' 48 8
  b := w.extractLsb' 56 8
  c := w.extractLsb' 64 8
  fx := w.extractLsb' 72 12
  modb := w.extractLsb' 84 12
  imm := w.extractLsb' 96 32

/-- The word of its fields. -/
def pack (r : Raw) : IWord :=
  r.imm ++ r.modb ++ r.fx ++ r.c ++ r.b ++ r.a ++ r.d ++ r.type ++ r.opc ++ r.pneg ++ r.pred ++ r.yield ++
    r.psafe ++ r.ax ++ r.reuse ++ r.rsb ++ r.wsb ++ r.wait ++ r.stall

/-! ### Field codes -/

/-- Type codes (04 R111, R113, R125). -/
def tyCode : Ty → BitVec 4
  | .s64 => 0x0 | .s32 => 0x1 | .z32 => 0x2 | .s16 => 0x3 | .z16 => 0x4 | .s8 => 0x5 | .z8 => 0x6
  | .f32 => 0x7 | .bf16 => 0x8 | .f16 => 0x9 | .e4m3 => 0xA | .e5m2 => 0xB | .qc4 => 0xC | .z64 => 0xD

/-- The type of a code; the codes 0xE and 0xF are refused before this is read (02 R46). -/
def tyOf (c : BitVec 4) : Ty :=
  match c.toNat with
  | 0 => .s64 | 1 => .s32 | 2 => .z32 | 3 => .s16 | 4 => .z16 | 5 => .s8 | 6 => .z8
  | 7 => .f32 | 8 => .bf16 | 9 => .f16 | 10 => .e4m3 | 11 => .e5m2 | 12 => .qc4 | 13 => .z64 | _ => .s64

/-- Designator codes (02 R55). -/
def desigCode : Desig → BitVec 8
  | .x n => BitVec.ofNat 8 n.val
  | .v n => BitVec.ofNat 8 (0x40 + n.val)
  | .p n => BitVec.ofNat 8 (0x80 + n.val)
  | .lq => 0x90
  | .xq => 0x91

/-- The designator of a code; reserved codes are refused before this is read (02 R56). -/
def desigOf (c : BitVec 8) : Desig :=
  let n := c.toNat
  if n < 0x40 then .x (Fin.ofNat 64 n)
  else if n < 0x80 then .v (Fin.ofNat 64 n)
  else if n < 0x88 then .p (Fin.ofNat 8 n)
  else if n = 0x90 then .lq
  else if n = 0x91 then .xq
  else .x 0

/-- Scoreboard codes: 0 none, k + 1 for scoreboard k (02 R46). -/
def sbCode : Option (Fin 6) → BitVec 3
  | none => 0
  | some k => BitVec.ofNat 3 (k.val + 1)

def sbOf (c : BitVec 3) : Option (Fin 6) :=
  match c.toNat with
  | 0 => none | 1 => some 0 | 2 => some 1 | 3 => some 2 | 4 => some 3 | 5 => some 4 | 6 => some 5 | _ => none

def condCode : Cond → BitVec 4
  | .eq => 0 | .ne => 1 | .lt => 2 | .ge => 3 | .ltz => 4 | .gez => 5

/-- 02 R50. -/
def condOf (c : BitVec 4) : Cond :=
  match c.toNat with
  | 1 => .ne | 2 => .lt | 3 => .ge | 4 => .ltz | 5 => .gez | _ => .eq

def chCode : CacheHint → BitVec 3
  | .default => 0 | .nt => 1 | .na => 2

def chOf (c : BitVec 3) : CacheHint :=
  match c.toNat with
  | 1 => .nt | 2 => .na | _ => .default

def amodeCode : AMode → BitVec 2
  | .disp => 0 | .index => 1 | .scaled => 2

def amodeOf (c : BitVec 2) : AMode :=
  match c.toNat with
  | 1 => .index | 2 => .scaled | _ => .disp

def ordCode : MemOrd → BitVec 2
  | .relaxed => 0 | .acq => 1 | .rel => 2 | .ar => 3

def ordOf (c : BitVec 2) : MemOrd :=
  match c.toNat with
  | 1 => .acq | 2 => .rel | 3 => .ar | _ => .relaxed

def scopeCode : Scope → BitVec 3
  | .strand => 0 | .tile => 1 | .clus => 2 | .dev => 3 | .dom => 4

/-- 02 R51. -/
def scopeOf (c : BitVec 3) : Scope :=
  match c.toNat with
  | 1 => .tile | 2 => .clus | 3 => .dev | 4 => .dom | _ => .strand

def rmCode : RM → BitVec 2
  | .rne => 0 | .rz => 1 | .ru => 2 | .rd => 3

def rmOf (c : BitVec 2) : RM :=
  match c.toNat with
  | 1 => .rz | 2 => .ru | 3 => .rd | _ => .rne

/-- Source modifiers (02 R58). -/
def modCode : SrcMod → BitVec 12
  | .none => 0
  | .rot s d => (1 : BitVec 2) ++ s ++ d
  | .bfly s d => (2 : BitVec 2) ++ s ++ d
  | .bcast s d => (3 : BitVec 2) ++ s ++ d

def modOf (c : BitVec 12) : SrcMod :=
  match (c.extractLsb' 10 2).toNat with
  | 1 => .rot (c.extractLsb' 7 3) (c.extractLsb' 0 7)
  | 2 => .bfly (c.extractLsb' 7 3) (c.extractLsb' 0 7)
  | 3 => .bcast (c.extractLsb' 7 3) (c.extractLsb' 0 7)
  | _ => .none

/-- The segment of a modifier in lanes: 2 to the power of its code (02 R58). -/
def segOf (s : BitVec 3) : Nat := 2 ^ s.toNat

/-- The modifier values 02 R58 allows. -/
def modLegal (c : BitVec 12) : Bool :=
  let seg := c.extractLsb' 7 3
  let d := (c.extractLsb' 0 7).toNat
  match (c.extractLsb' 10 2).toNat with
  | 0 => c == 0
  | 1 => seg != 0
  | 2 => seg != 0 && decide (d < segOf seg) && [1, 2, 4, 8, 16, 32, 64].contains d
  | _ => seg != 0 && decide (d < segOf seg)

def bit (b : Bool) : BitVec 1 := BitVec.ofBool b

def flag (b : BitVec 1) : Bool := b == 1

/-- 02 R49 to R54: bits [83:72] and [127:96] of each format, as fields. -/
def fxBit (r : Raw) (n : Nat) : Bool := r.fx.getLsbD n
def fxAux (r : Raw) : BitVec 4 := r.fx.extractLsb' 8 4
def fxCond (r : Raw) : BitVec 4 := r.fx.extractLsb' 4 4
def fxCh (r : Raw) : BitVec 3 := r.fx.extractLsb' 8 3
def fxAmode (r : Raw) : BitVec 2 := r.fx.extractLsb' 6 2
def fxOrd (r : Raw) : BitVec 2 := r.fx.extractLsb' 3 2
def fxScope (r : Raw) : BitVec 3 := r.fx.extractLsb' 0 3
def fxToken (r : Raw) : BitVec 4 := r.fx.extractLsb' 0 4
def vImm16 (r : Raw) : BitVec 16 := r.imm.extractLsb' 16 16
def vTy2 (r : Raw) : BitVec 4 := r.imm.extractLsb' 12 4
def vOpx (r : Raw) : BitVec 4 := r.imm.extractLsb' 8 4
def vCx (r : Raw) : Bool := r.imm.getLsbD 5
def vBx (r : Raw) : Bool := r.imm.getLsbD 4
def vSat (r : Raw) : Bool := r.imm.getLsbD 3
def vFtz (r : Raw) : Bool := r.imm.getLsbD 2
def vRm (r : Raw) : BitVec 2 := r.imm.extractLsb' 0 2

/-! ### Forms and words -/

def schedOf (r : Raw) : Sched where
  stall := r.stall
  wait := r.wait
  wsb := sbOf r.wsb
  rsb := sbOf r.rsb
  reuse := r.reuse
  psafe := flag r.psafe
  yield := flag r.yield

def gateOf (r : Raw) : Gate where
  pred := Fin.ofNat 8 r.pred.toNat
  pneg := flag r.pneg

def sliceOf (r : Raw) : Slice := if flag r.ax then .a else .e

def formS (r : Raw) : FormS where
  sch := schedOf r
  gate := gateOf r
  slice := sliceOf r
  ty := tyOf r.type
  d := desigOf r.d
  a := desigOf r.a
  b := desigOf r.b
  c := desigOf r.c
  aux := fxAux r
  cond := condOf (fxCond r)
  zx := fxBit r 1
  imm := fxBit r 0
  imm32 := r.imm

def formM (r : Raw) : FormM where
  sch := schedOf r
  gate := gateOf r
  slice := sliceOf r
  ty := tyOf r.type
  d := desigOf r.d
  a := desigOf r.a
  b := desigOf r.b
  c := desigOf r.c
  ch := chOf (fxCh r)
  amode := amodeOf (fxAmode r)
  nr := fxBit r 5
  ord := ordOf (fxOrd r)
  scope := scopeOf (fxScope r)
  imm32 := r.imm

def formV (r : Raw) : FormV where
  sch := schedOf r
  gate := gateOf r
  ty := tyOf r.type
  d := desigOf r.d
  a := desigOf r.a
  b := desigOf r.b
  c := desigOf r.c
  moda := modOf r.fx
  modb := modOf r.modb
  imm16 := vImm16 r
  ty2 := tyOf (vTy2 r)
  opx := vOpx r
  cx := vCx r
  bx := vBx r
  sat := vSat r
  ftz := vFtz r
  rm := rmOf (vRm r)

def formE (r : Raw) : FormE where
  sch := schedOf r
  gate := gateOf r
  slice := sliceOf r
  ty := tyOf r.type
  d := desigOf r.d
  a := desigOf r.a
  b := desigOf r.b
  c := desigOf r.c
  aux := fxAux r
  quiet := fxBit r 4
  token := fxToken r

def formQ (r : Raw) : FormQ where
  sch := schedOf r
  gate := gateOf r
  d := desigOf r.d
  a := desigOf r.a
  b := desigOf r.b
  c := desigOf r.c
  aux := fxAux r
  nb := fxBit r 3
  scope := scopeOf (fxScope r)

/-- The fields every format shares. -/
def rawBase (s : Sched) (g : Gate) (sl : Slice) (opc : BitVec 10) (t : Ty) (d a b c : Desig)
    (fx modb : BitVec 12) (imm : BitVec 32) : Raw where
  stall := s.stall
  wait := s.wait
  wsb := sbCode s.wsb
  rsb := sbCode s.rsb
  reuse := s.reuse
  ax := bit (sl == .a)
  psafe := bit s.psafe
  yield := bit s.yield
  pred := BitVec.ofNat 3 g.pred.val
  pneg := bit g.pneg
  opc := opc
  type := tyCode t
  d := desigCode d
  a := desigCode a
  b := desigCode b
  c := desigCode c
  fx := fx
  modb := modb
  imm := imm

def rawS (opc : BitVec 10) (f : FormS) : Raw :=
  rawBase f.sch f.gate f.slice opc f.ty f.d f.a f.b f.c
    (f.aux ++ condCode f.cond ++ (0 : BitVec 2) ++ bit f.zx ++ bit f.imm) 0 f.imm32

def rawM (opc : BitVec 10) (f : FormM) : Raw :=
  rawBase f.sch f.gate f.slice opc f.ty f.d f.a f.b f.c
    ((0 : BitVec 1) ++ chCode f.ch ++ amodeCode f.amode ++ bit f.nr ++ ordCode f.ord ++ scopeCode f.scope) 0 f.imm32

def rawV (opc : BitVec 10) (f : FormV) : Raw :=
  rawBase f.sch f.gate .e opc f.ty f.d f.a f.b f.c (modCode f.moda) (modCode f.modb)
    (f.imm16 ++ tyCode f.ty2 ++ f.opx ++ (0 : BitVec 2) ++ bit f.cx ++ bit f.bx ++ bit f.sat ++ bit f.ftz ++
      rmCode f.rm)

def rawE (opc : BitVec 10) (f : FormE) : Raw :=
  rawBase f.sch f.gate f.slice opc f.ty f.d f.a f.b f.c (f.aux ++ (0 : BitVec 3) ++ bit f.quiet ++ f.token) 0 0

def rawQ (opc : BitVec 10) (f : FormQ) : Raw :=
  rawBase f.sch f.gate .a opc .s64 f.d f.a f.b f.c
    (f.aux ++ (0 : BitVec 4) ++ bit f.nb ++ scopeCode f.scope) 0 0

/-! ### What a position accepts -/

/-- The kinds of operand position (03 R78, 09 R272, 06 R181, 12 R322). -/
inductive Pos
  | none              -- unused: the field holds 0x00
  | src               -- a scalar register of the slice; on E also lq and xq
  | srcReg            -- a scalar register of the slice
  | dst               -- a scalar register of the slice, written
  | ident             -- x1 to x31: the completion identifier of a command
  | group (n : Nat)   -- n consecutive access-slice registers
  | xbc               -- x32 to x63 or xq (class 3 scalar, ACCWR, ACCLD)
  | vec               -- v0 to v63 or lq, with a source modifier in class 3
  | vecNoMod          -- v0 to v63 or lq, without a modifier
  | vdst              -- v0 to v63, written
  | vrange (n : Nat)  -- n consecutive vector registers
  | vdstOrX           -- VRED: v0 to v63 or x32 to x63, written
  | preg              -- p0 to p7
  deriving DecidableEq, Repr

/-- The class of a designator code (02 R55). -/
def isX (c : BitVec 8) : Bool := decide (c.toNat < 0x40)
def isXA (c : BitVec 8) : Bool := decide (c.toNat < 0x20)
def isXE (c : BitVec 8) : Bool := isX c && !isXA c
def isV (c : BitVec 8) : Bool := decide (0x40 ≤ c.toNat) && decide (c.toNat < 0x80)
def isP (c : BitVec 8) : Bool := decide (0x80 ≤ c.toNat) && decide (c.toNat < 0x88)
def isQ (c : BitVec 8) : Bool := c == 0x90 || c == 0x91

/-- Whether the position takes the code (02 R55, R56); slice ownership is checked apart. -/
def posAccepts (access : Bool) (c : BitVec 8) : Pos → Bool
  | .none => true
  | .src => isX c || (!access && isQ c)
  | .srcReg | .dst | .ident => isX c
  | .group n => isX c && decide (c.toNat + n ≤ 32)
  | .xbc => isX c || c == 0x91
  | .vec | .vecNoMod => isV c || c == 0x90
  | .vdst => isV c
  | .vrange n => isV c && decide (c.toNat + n ≤ 0x80)
  | .vdstOrX => isV c || isX c
  | .preg => isP c

/-- A used designator (02 R47, R56). -/
def posUsed : Pos → Bool
  | .none => false
  | _ => true

/-- Whether the position takes a modifier (02 R58, 06 R180). -/
def posMod : Pos → Bool
  | .vec => true
  | _ => false

/-- The slices an opcode runs on (02 R60). -/
inductive SliceRule | byRegs | only (s : Slice)
  deriving DecidableEq, Repr

/-- What a row of the opcode map asks of a word, and the instruction it stands for. -/
structure Row where
  opc : BitVec 10
  slice : SliceRule
  head : Bool                        -- present on the headstock (02 R62)
  types : List Ty                    -- accepted types; empty: TYPE is 0x0
  types2 : List Ty                   -- accepted second types; empty: TYPE2 is 0x0
  d : Raw → Pos
  a : Raw → Pos
  b : Raw → Pos
  c : Raw → Pos
  ctl : Raw → Bool                   -- control bits, AUX, immediates inside what the entry defines
  build : Raw → Instr

def typeOk (ts : List Ty) (c : BitVec 4) : Bool :=
  if ts.isEmpty then c == 0 else ts.any (fun t => tyCode t == c)

/-! ### Class 0 and 1 (03 R78, R84, R85, R89) -/

def tI4 : List Ty := [.s64, .z64, .s32, .z32]
def tS2 : List Ty := [.s64, .s32]
def tZ2 : List Ty := [.z64, .z32]
def tI8 : List Ty := [.s64, .z64, .s32, .z32, .s16, .z16, .s8, .z8]

/-- The b position of an instruction that takes an immediate (02 R49). -/
def posB (r : Raw) : Pos := if fxBit r 0 then .none else .src

/-- FX12 of format S: reserved bits and COND zero, ZX only with IMM, IMM32 only with IMM (02 R49, 03 R75). -/
def ctlImm (r : Raw) : Bool :=
  fxCond r == 0 && r.fx.extractLsb' 2 2 == 0 && (fxBit r 0 || (!fxBit r 1 && r.imm == 0))

def ctlNoImm (r : Raw) : Bool := r.fx.extractLsb' 0 8 == 0 && r.imm == 0

def no : Raw → Pos := fun _ => .none
def src : Raw → Pos := fun _ => .src
def dst : Raw → Pos := fun _ => .dst

/-- Class 0 integer: d, a, b with an immediate. -/
def rowI (opc : BitVec 10) (ts : List Ty) (mk : FormS → Instr) : Row :=
  { opc, slice := .byRegs, head := true, types := ts, types2 := [], d := dst, a := src, b := posB, c := no,
    ctl := fun r => ctlImm r && fxAux r == 0, build := fun r => mk (formS r) }

/-- Class 0 integer: d, a. -/
def rowI2 (opc : BitVec 10) (ts : List Ty) (mk : FormS → Instr) : Row :=
  { opc, slice := .byRegs, head := true, types := ts, types2 := [], d := dst, a := src, b := no, c := no,
    ctl := fun r => ctlNoImm r && fxAux r == 0, build := fun r => mk (formS r) }

/-- Class 0 integer: d, a, b, c with an immediate. -/
def rowI4 (opc : BitVec 10) (ts : List Ty) (mk : FormS → Instr) : Row :=
  { rowI opc ts mk with c := src }

/-- Scalar FP32 (03 R85). -/
def rowF (opc : BitVec 10) (c : Raw → Pos) (auxMax : Nat) (mk : FormS → Instr) : Row :=
  { opc, slice := .only .e, head := true, types := [.f32], types2 := [], d := dst, a := src, b := posB, c,
    ctl := fun r => ctlImm r && !fxBit r 1 && decide ((fxAux r).toNat ≤ auxMax), build := fun r => mk (formS r) }

/-- Class 1 (03 R89). -/
def rowC (opc : BitVec 10) (d a b c : Raw → Pos) (ctl : Raw → Bool) (build : Raw → Instr) : Row :=
  { opc, slice := .only .a, head := true, types := [], types2 := [], d, a, b, c, ctl, build }

def ctlZero (r : Raw) : Bool := r.fx == 0 && r.imm == 0
def ctlTarget (r : Raw) : Bool := r.fx == 0
def ctlAux (n : Nat) (r : Raw) : Bool := ctlNoImm r && decide ((fxAux r).toNat ≤ n)

def mkLoop (r : Raw) : Instr := if fxBit r 0 then .loopImm (formS r) else .loopReg (formS r)

/-- KWR of a headstock control register is its own row of the table (19 R456 to R459). -/
def mkKwr (r : Raw) : Instr :=
  match (r.imm.extractLsb' 0 12).toNat with
  | 0xF00 => .thrWrite (formS r)
  | 0xF01 => .talertWrite (formS r)
  | 0xF02 => .intpendClear (formS r)
  | _ => .kwr (formS r)

def rowsInt : List Row :=
  [ rowI 0x000 tI4 .add, rowI 0x001 tI4 .sub, rowI 0x002 tI4 .mul, rowI 0x003 tS2 .mulh, rowI 0x004 tZ2 .mulhz,
    rowI4 0x005 tI4 .muladd, rowI 0x006 tS2 .div, rowI 0x007 tZ2 .divz, rowI 0x008 tS2 .rem, rowI 0x009 tZ2 .remz,
    rowI 0x00A tI4 .and, rowI 0x00B tI4 .or, rowI 0x00C tI4 .xor, rowI 0x00D tI4 .andn, rowI 0x00E tI4 .orn,
    rowI 0x00F tI4 .sll, rowI 0x010 tI4 .srl, rowI 0x011 tI4 .sra, rowI 0x012 tI4 .ror ]

def rowsInt2 : List Row :=
  [ rowI 0x013 tS2 .min, rowI 0x014 tS2 .max, rowI 0x015 tZ2 .minz, rowI 0x016 tZ2 .maxz,
    rowI2 0x017 tI4 .clz, rowI2 0x018 tI4 .ctz, rowI2 0x019 tI4 .popc, rowI 0x01A [.s64, .z64] .bext,
    rowI4 0x01B [.s64, .z64] .bins, rowI2 0x01C [.s32, .s16, .s8] .sext, rowI2 0x01D [.z32, .z16, .z8] .zext,
    rowI 0x01E tS2 .slt, rowI 0x01F tZ2 .sltz, rowI 0x020 tI4 .seq, rowI4 0x021 tI4 .sel,
    { rowI 0x022 tI4 .movi with a := no },
    { rowI 0x023 [.s64, .z64] .movhi with
        b := no, ctl := fun r => ctlImm r && fxAux r == 0 && fxBit r 0 && !fxBit r 1 },
    { rowI 0x024 [.s64] .lea with
        b := src, ctl := fun r => r.fx.extractLsb' 0 8 == 0 && decide ((fxAux r).toNat ≤ 6) } ]

def rowsFp : List Row :=
  [ rowF 0x040 no 0 .sfadd, rowF 0x041 no 0 .sfmul, rowF 0x042 src 0 .sffma, rowF 0x043 no 3 .sfcmp,
    { rowF 0x044 no 5 .sfcvt with b := no, ctl := fun r => ctlNoImm r && decide ((fxAux r).toNat ≤ 5) },
    rowF 0x045 no 0 .sfmin, rowF 0x046 no 0 .sfmax ]

def rowsCtl : List Row :=
  [ rowC 0x080 no no no no ctlZero (fun r => .nop (formS r)),
    rowC 0x081 no no no no ctlTarget (fun r => .br (formS r)),
    rowC 0x082 no src src no
      (fun r => fxAux r == 0 && decide ((fxCond r).toNat ≤ 5) && r.fx.extractLsb' 0 4 == 0) (fun r => .bcc (formS r)),
    rowC 0x083 no src no no ctlZero (fun r => .bri (formS r)),
    rowC 0x084 no no no no ctlTarget (fun r => .call (formS r)),
    rowC 0x085 no src no no ctlZero (fun r => .calli (formS r)),
    rowC 0x086 no no no no ctlZero (fun r => .ret (formS r)),
    rowC 0x087 no (fun r => if fxBit r 0 then .none else .src) no no
      (fun r => r.fx.extractLsb' 1 11 == 0 && r.imm.extractLsb' 0 16 != 0 &&
        (fxBit r 0 || r.imm.extractLsb' 16 16 == 0)) mkLoop,
    rowC 0x088 no no no no (fun r => r.fx.extractLsb' 0 8 == 0 && decide ((fxAux r).toNat ≤ 3))
      (fun r => .loopx (formS r)),
    rowC 0x089 no src src no (ctlAux 1) (fun r => .ipref (formS r)),
    rowC 0x08A dst src src no (ctlAux 1) (fun r => .ipin (formS r)),
    rowC 0x08B no src src no (ctlAux 1) (fun r => .iunpin (formS r)) ]

def rowsSys : List Row :=
  [ rowC 0x08C no no no no ctlZero (fun r => .fencei (formS r)),
    rowC 0x08D no no no no ctlZero (fun r => .end_ (formS r)),
    rowC 0x08E no no no no ctlTarget (fun r => .trap (formS r)),
    rowC 0x08F no no no no ctlZero (fun r => .xret (formS r)),
    rowC 0x090 dst no no no (fun r => r.fx == 0 && r.imm.extractLsb' 12 20 == 0) (fun r => .krd (formS r)),
    rowC 0x091 no src no no (fun r => r.fx == 0 && r.imm.extractLsb' 12 20 == 0) mkKwr,
    rowC 0x092 dst src src src ctlZero (fun r => .sleep (formS r)),
    rowC 0x093 no src no no (ctlAux 2) (fun r => .wake (formS r)),
    rowC 0x094 no no no no (fun r => r.fx == 0 && r.imm.extractLsb' 6 26 == 0) (fun r => .barrier (formS r)),
    rowC 0x095 dst src src no ctlZero (fun r => .spawn (formS r)),
    rowC 0x096 dst src no no (ctlAux 4) (fun r => .cancel (formS r)) ]

/-! ### Class 2 (09 R272, R273, R286) -/

/-- The index of a memory access: used with AMODE 1 and 2. -/
def posIdx (r : Raw) : Pos := if fxAmode r == 1 || fxAmode r == 2 then .src else .none

def ctlM (ch amode : Nat) (nr : Bool) (ords : List Nat) (scopes : List Nat) (disp : Bool) (r : Raw) : Bool :=
  !fxBit r 11 && decide ((fxCh r).toNat ≤ ch) && decide ((fxAmode r).toNat ≤ amode) && (nr || !fxBit r 5) &&
    ords.contains (fxOrd r).toNat && scopes.contains (fxScope r).toNat && (disp || r.imm == 0)

def ctlLdSt (ords : List Nat) (r : Raw) : Bool :=
  ctlM 2 2 false ords [0, 1, 2, 3, 4] true r && (fxOrd r != 0 || fxScope r == 0)

def rowM (opc : BitVec 10) (sl : Slice) (head : Bool) (ts : List Ty) (d a b c : Raw → Pos) (ctl : Raw → Bool)
    (mk : FormM → Instr) : Row :=
  { opc, slice := .only sl, head, types := ts, types2 := [], d, a, b, c, ctl, build := fun r => mk (formM r) }

def rowA (opc : BitVec 10) (ts : List Ty) (c : Raw → Pos) (mk : FormM → Instr) : Row :=
  rowM opc .a true ts (fun r => if fxBit r 5 then .none else .dst) src src c
    (ctlM 0 0 true [0, 1, 2, 3] [0, 1, 2, 3, 4] true) mk

def ctlM0 : Raw → Bool := ctlM 0 0 false [0] [0] false
def tZV : List Ty := [.z8, .z16, .z32]

def rowsMem : List Row :=
  [ rowM 0x100 .a true tI8 dst src posIdx no (ctlLdSt [0, 1]) .ld,
    rowM 0x101 .a true tI8 no src posIdx no (ctlLdSt [0, 1]) .ldq,
    rowM 0x102 .a true tI8 no src posIdx src (ctlLdSt [0, 2]) .st,
    rowM 0x103 .a true tI8 no src posIdx no (ctlLdSt [0, 2]) .sta,
    rowM 0x104 .e true tI8 no no no src ctlM0 .std,
    rowM 0x105 .a false tZV no src posIdx src (ctlM 2 2 false [0] [0] true) .vldq,
    rowM 0x106 .a false tZV no src posIdx src (ctlM 2 2 false [0] [0] true) .vsta,
    rowM 0x107 .e false [] no no no (fun _ => .vecNoMod) ctlM0 .vstd,
    rowM 0x108 .a true [] no src no no ctlM0 .movq,
    rowM 0x109 .e true [] no src no no ctlM0 .bqpush,
    rowM 0x10A .a true [] dst no no no ctlM0 .bqpop,
    rowM 0x10B .a true [] no no no no ctlM0 .qmark,
    rowM 0x10C .a true [] no no no no (ctlM 0 0 false [1, 2, 3] [0, 1, 2, 3, 4] false) .fence,
    rowM 0x10D .a true [] no src no src (ctlM 0 0 false [0] [2, 3, 4] true) .cinv,
    rowM 0x10E .a true [] no src no src (ctlM 0 0 false [0] [2, 3, 4] true) .cwb,
    rowM 0x10F .a true [] no src no src (ctlM 2 0 false [0] [0] true) .cpref ]

def rowsAtomic : List Row :=
  [ rowA 0x120 tI4 no .aadd, rowA 0x121 tS2 no .amax, rowA 0x122 tS2 no .amin, rowA 0x123 tZ2 no .amaxz,
    rowA 0x124 tZ2 no .aminz, rowA 0x125 tI4 no .aand, rowA 0x126 tI4 no .aor, rowA 0x127 tI4 no .axor,
    rowA 0x128 tI4 no .axchg, rowA 0x129 tI4 src .acas, rowA 0x12A [.f32] no .afadd, rowA 0x12B [.f32] no .afmax ]

/-! ### Class 3 (06 R181, R182) -/

def tF : List Ty := [.f32, .bf16, .f16]
def tIv : List Ty := [.s32, .z32, .s16, .z16, .s8, .z8]
def tFI : List Ty := tF ++ tIv
def tW : List Ty := tFI ++ [.e4m3, .e5m2]

def isF (r : Raw) : Bool := typeOk tF r.type

/-- The width of a vector element in bytes (04 R111, R113). -/
def widthOf (c : BitVec 4) : Nat :=
  match c.toNat with
  | 0 | 13 => 8
  | 1 | 2 | 7 => 4
  | 3 | 4 | 8 | 9 => 2
  | _ => 1

def vec : Raw → Pos := fun _ => .vec
def vdst : Raw → Pos := fun _ => .vdst
def preg : Raw → Pos := fun _ => .preg
def xbc : Raw → Pos := fun _ => .xbc
def vecOrB (r : Raw) : Pos := if vBx r then .xbc else .vec
def vecOrC (r : Raw) : Pos := if vCx r then .xbc else .vecNoMod

/-- Which FX32 fields may be nonzero (06 R181, R182). -/
structure CtlV where
  bx : Raw → Bool := fun r => !vBx r
  cx : Bool := false
  sat : Raw → Bool := fun _ => false
  ftz : Raw → Bool := fun _ => false
  rm : Raw → Bool := fun _ => false
  opx : Raw → Bool := fun r => vOpx r == 0
  imm : Raw → Bool := fun r => vImm16 r == 0

def ctlVok (k : CtlV) (r : Raw) : Bool :=
  r.imm.extractLsb' 6 2 == 0 && k.bx r && (k.cx || !vCx r) && (k.sat r || !vSat r) && (k.ftz r || !vFtz r) &&
    (k.rm r || vRm r == 0) && k.opx r && k.imm r

def rowV (opc : BitVec 10) (ts ts2 : List Ty) (d a b c : Raw → Pos) (k : CtlV) (mk : FormV → Instr) : Row :=
  { opc, slice := .only .e, head := false, types := ts, types2 := ts2, d, a, b, c, ctl := ctlVok k,
    build := fun r => mk (formV r) }

def anyBit : Raw → Bool := fun _ => true
def bxSet (r : Raw) : Bool := vBx r
def notF (r : Raw) : Bool := !isF r
def opx0 (r : Raw) : Bool := vOpx r == 0
def opxLe (n : Nat) (r : Raw) : Bool := decide ((vOpx r).toNat ≤ n)
def immLt (n : Raw → Nat) (r : Raw) : Bool := decide ((vImm16 r).toNat < n r)
def elems (r : Raw) : Nat := 512 / widthOf r.type

/-- Parts of a conversion: the ratio of the two widths (06 R193). -/
def ratio (r : Raw) : Nat :=
  Nat.max (widthOf r.type) (widthOf (vTy2 r)) / Nat.min (widthOf r.type) (widthOf (vTy2 r))

def kArith : CtlV := { bx := anyBit, sat := notF, ftz := isF, rm := isF }
def kUnary : CtlV := { ftz := anyBit, rm := anyBit }
def kMinMax : CtlV := { bx := anyBit, ftz := isF }
def kShift (sat : Raw → Bool) : CtlV :=
  { bx := fun r => opx0 r || !vBx r, sat, opx := opxLe 1,
    imm := fun r => if opx0 r then vImm16 r == 0 else decide ((vImm16 r).toNat < 8 * widthOf r.type) }
def kRed (imm : Raw → Bool) : CtlV :=
  { sat := fun r => notF r && opx0 r, ftz := isF, rm := fun r => isF r && opx0 r,
    opx := fun r => if isF r then opxLe 2 r else opxLe 5 r, imm }

/-- VSHL, VSHR, VSAR: b is used with OPX 0. A word with a reserved OPX of 2 or more has the positions of OPX 1, on VMOVX too:
DESIGN CHOICE (log 106), R181 gives positions for 0 and 1 alone. -/
def posShift (r : Raw) : Pos := if opx0 r then vecOrB r else .none

/-- VQNT: `.qc4` takes a range of registers (06 R195). -/
def posQnt (r : Raw) : Pos :=
  if r.type == 0xC then (if vTy2 r == 0x7 then .vrange 4 else .vrange 2) else .vec

def mkQnt (f : FormV) : Instr :=
  match f.ty with
  | .qc4 => .vqntQc4 f
  | _ => .vqnt f

def mkMovx (f : FormV) : Instr := if f.opx == 0 then .vmovxExtract f else .vmovxInsert f

def rowsVec : List Row :=
  [ rowV 0x180 tFI [] vdst vec vecOrB no kArith .vadd, rowV 0x181 tFI [] vdst vec vecOrB no kArith .vsub,
    rowV 0x182 tFI [] vdst vec vecOrB no kArith .vmul,
    rowV 0x183 tFI [] vdst vec vecOrB vecOrC { kArith with cx := true } .vfma,
    rowV 0x184 tFI [] vdst vec vecOrB vecOrC { kArith with cx := true } .vfms,
    rowV 0x185 tFI [] vdst vec vecOrB vecOrC { kArith with cx := true } .vfnma,
    rowV 0x186 tF [] vdst vec vecOrB no { bx := anyBit, ftz := anyBit, rm := anyBit } .vdiv,
    rowV 0x187 tF [] vdst vec no no kUnary .vsqrt, rowV 0x188 tF [] vdst vec no no kUnary .vrcp,
    rowV 0x189 tF [] vdst vec no no kUnary .vrsq, rowV 0x18A tF [] vdst vec no no kUnary .vexp2,
    rowV 0x18B tF [] vdst vec no no kUnary .vlog2,
    rowV 0x18C tFI [] vdst vec vecOrB no kMinMax .vmin, rowV 0x18D tFI [] vdst vec vecOrB no kMinMax .vmax,
    rowV 0x18E tFI [] vdst vec no no { sat := notF, ftz := isF } .vabs,
    rowV 0x18F tFI [] vdst vec no no { sat := notF, ftz := isF } .vneg ]

/-- The rest of the element operations (06 R181). DESIGN CHOICE (log 97): at a used position that R181 marks neither
V/S nor "BX = 1" the entry's class stands whatever BX or CX holds, so a set bit is R182's MBZ (step 9) and not
R56's DESIG. -/
def rowsVec2 : List Row :=
  [ rowV 0x190 tFI [] vdst vec vecOrB vecOrC { kMinMax with cx := true } .vclamp,
    rowV 0x191 tFI [] preg vec vecOrB no
      { kMinMax with opx := fun r => if isF r then opxLe 7 r else opxLe 5 r } .vcmp,
    rowV 0x192 tW [] vdst vec vecOrB preg { bx := anyBit } .vsel,
    rowV 0x193 tW [] vdst vec vecOrB no { bx := anyBit } .vand,
    rowV 0x194 tW [] vdst vec vecOrB no { bx := anyBit } .vor,
    rowV 0x195 tW [] vdst vec vecOrB no { bx := anyBit } .vxor,
    rowV 0x196 tIv [] vdst vec posShift no (kShift anyBit) .vshl,
    rowV 0x197 tIv [] vdst vec posShift no (kShift (fun _ => false)) .vshr,
    rowV 0x198 tIv [] vdst vec posShift no (kShift (fun _ => false)) .vsar,
    rowV 0x199 tW tW vdst vec no no { sat := anyBit, ftz := anyBit, rm := anyBit, imm := immLt ratio } .vcvt,
    rowV 0x19A [.e4m3, .e5m2, .s8, .z8, .s16, .z16, .bf16, .f16, .qc4] tF vdst posQnt xbc preg
      { bx := bxSet, ftz := anyBit, rm := fun r => r.type != 0xC,
        imm := fun r => if r.type == 0xC then vImm16 r == 0 else immLt ratio r } mkQnt,
    rowV 0x19B tFI [] (fun _ => .vdstOrX) vec no no (kRed (fun r => vImm16 r == 0)) .vred,
    rowV 0x19C tFI [] vdst vec no no (kRed (immLt (fun _ => 2))) .vscan,
    rowV 0x19D tW [] vdst vec vec no { imm := immLt (fun _ => 512) } .vperm,
    rowV 0x19E tW [] vdst no vecOrB no { bx := anyBit } .vmov,
    rowV 0x19F tW [] (fun r => if opx0 r then .dst else .vdst) (fun r => if opx0 r then .vec else .none)
      (fun r => if opx0 r then .none else .xbc) no
      { bx := fun r => vBx r != opx0 r, opx := opxLe 1, imm := immLt elems } mkMovx ]

def rowsVec3 : List Row :=
  [ rowV 0x1A0 tW [] vdst vec vec no { imm := fun r => decide ((vImm16 r).toNat ≤ elems r) } .vext,
    rowV 0x1A1 tIv [] vdst no (fun r => if vBx r then .xbc else .none) no { bx := anyBit, imm := anyBit } .viota,
    rowV 0x1A2 tW [] preg xbc xbc no { bx := bxSet } .vmasklen,
    rowV 0x1A3 tW [] dst preg no no {} .vpopc,
    rowV 0x1A4 tW [] vdst vec no preg {} .vcmprs,
    rowV 0x1A5 [] [] dst (fun r => .vrange ((vOpx r).toNat + 1)) no no { opx := opxLe 3, imm := anyBit } .vdefer,
    rowV 0x1A6 [] [] (fun r => .vrange ((vOpx r).toNat + 2)) no no no { opx := opxLe 3 } .vdrain,
    rowV 0x1A7 [] [] dst no no no { opx := opxLe 1 } .vdqstat,
    rowV 0x1B0 [] [] preg preg preg no {} .pand, rowV 0x1B1 [] [] preg preg preg no {} .por,
    rowV 0x1B2 [] [] preg preg preg no {} .pxor, rowV 0x1B3 [] [] preg preg no no {} .pnot,
    rowV 0x1B4 tW [] preg preg no no {} .pfirst,
    rowV 0x1B5 [] [] preg xbc no no
      { opx := opxLe 1, imm := fun r => if opx0 r then vImm16 r == 0 else immLt (fun _ => 8) r } .pfromx,
    rowV 0x1B6 [] [] dst preg no no { imm := immLt (fun _ => 8) } .ptox ]

/-! ### Class 4 (12 R322, R331) -/

/-- D of a command: the completion identifier, unless QUIET. -/
def posId (r : Raw) : Pos := if fxBit r 4 then .none else .ident

def ctlE (aux : List Nat) (tokens : List Nat) (r : Raw) : Bool :=
  r.fx.extractLsb' 5 3 == 0 && aux.contains (fxAux r).toNat && tokens.contains (fxToken r).toNat && r.imm == 0

/-- A command: QUIET = 0 asks for x1 to x31 in D. -/
def ctlCmd (aux : List Nat) (r : Raw) : Bool :=
  ctlE aux [0, 1, 2, 3, 4, 5, 6, 7, 8, 9, 10, 11, 12, 13, 14, 15] r && (fxBit r 4 || r.d != 0)

def ctlPlain (aux : List Nat) (r : Raw) : Bool := ctlE aux [0] r && !fxBit r 4

def grp (n : Nat) : Raw → Pos := fun _ => .group n

def rowE (opc : BitVec 10) (sl : Slice) (head : Bool) (ts : List Ty) (d a b c : Raw → Pos) (ctl : Raw → Bool)
    (mk : FormE → Instr) : Row :=
  { opc, slice := .only sl, head, types := ts, types2 := [], d, a, b, c, ctl, build := fun r => mk (formE r) }

/-- DSIZE and ESIZE of CPX and CPZ: neither is 3 (12 R331). -/
def auxKerf : List Nat := [0, 1, 2, 4, 5, 6, 8, 9, 10]

def rowsEngine : List Row :=
  [ rowE 0x200 .a false [] posId (grp 1) (grp 1) (grp 1) (ctlCmd [0]) .cp,
    rowE 0x201 .a false [] posId (grp 2) (grp 2) (grp 1) (ctlCmd [0]) .cp2d,
    rowE 0x202 .a false [] posId (grp 1) (grp 1) (grp 2) (ctlCmd [0, 1, 2, 3, 4, 5, 6]) .cpg,
    rowE 0x203 .a false [] posId (grp 1) (grp 1) (grp 2) (ctlCmd [0, 1, 2, 3, 4, 5, 6]) .cps,
    rowE 0x204 .a false [] posId (grp 1) (grp 1) (grp 1) (ctlCmd auxKerf) .cpx,
    rowE 0x205 .a false [] posId (grp 1) (grp 1) (grp 2) (ctlCmd auxKerf) .cpz,
    rowE 0x206 .a false [] posId (grp 1) (grp 1) (grp 3) (ctlCmd [0]) .cpmm,
    rowE 0x207 .a false [] posId (grp 1) (grp 1) (grp 1) (ctlCmd [0, 1, 2, 3]) .cpfill,
    rowE 0x208 .a false [.f32, .bf16, .s32] posId (grp 1) (grp 1) (grp 1) (ctlCmd [0, 1]) .cpcomb,
    rowE 0x210 .a false [] no (grp 1) no no (ctlPlain [0]) .mfmt,
    rowE 0x211 .a false [] posId (grp 1) (grp 1) (grp 1) (ctlCmd [0]) .mm,
    rowE 0x212 .a false [] posId (grp 1) (grp 1) (grp 1) (ctlCmd [0]) .mmt,
    rowE 0x213 .a false [] posId (grp 1) (grp 1) no (ctlCmd [0]) .accz,
    rowE 0x214 .e false [] no (fun _ => .vecNoMod) xbc no (ctlPlain [0, 2]) .accwr,
    rowE 0x215 .e false [] vdst xbc no no (ctlPlain [0, 1, 2]) .accld ]

def rowsSync : List Row :=
  [ rowE 0x220 .e false [] no no no no (fun r => ctlE [0] [4, 8, 12] r && !fxBit r 4) .tkgive,
    rowE 0x221 .e false [] no no no no (fun r => ctlE [0] [1, 2, 3] r && !fxBit r 4) .tktake,
    rowE 0x222 .a true [] no src src no (ctlPlain [0]) .semwait,
    rowE 0x223 .a true [] no src src no (ctlPlain [0]) .semsig,
    rowE 0x224 .a true [] no src src no (ctlPlain [0]) .semset,
    rowE 0x225 .a true [] dst src no no (ctlPlain [0]) .semrd,
    rowE 0x226 .a false [] no src no no (ctlPlain [0]) .cwait,
    rowE 0x227 .a false [] dst src no no (ctlPlain [0]) .cpoll,
    rowE 0x228 .a false [] no no no no (ctlPlain [0]) .turn ]

/-! ### Class 5 and 6 (13 R357, 14 R400) -/

def ctlQ (aux : List Nat) (scopes : Nat) (nb : Raw → Bool) (r : Raw) : Bool :=
  r.fx.extractLsb' 4 4 == 0 && aux.contains (fxAux r).toNat && decide ((fxScope r).toNat ≤ scopes) &&
    (nb r || !fxBit r 3) && r.imm == 0

def never : Raw → Bool := fun _ => false

def rowQ (opc : BitVec 10) (head : Bool) (d a b c : Raw → Pos) (ctl : Raw → Bool) (build : Raw → Instr) : Row :=
  { opc, slice := .only .a, head, types := [], types2 := [], d, a, b, c, ctl, build }

def auxIs (ns : List Nat) (r : Raw) : Pos := if ns.contains (fxAux r).toNat then .src else .none

def rowsBolt : List Row :=
  [ rowQ 0x280 true dst no src no (ctlQ [0] 0 never) (fun r => .bnew (formQ r)),
    rowQ 0x281 true dst src src no (ctlQ [0] 0 never) (fun r => .brsv (formQ r)),
    rowQ 0x282 true dst src src src (ctlQ [0] 4 never) (fun r => .bcmt (formQ r)),
    rowQ 0x283 true dst src src src (ctlQ [0] 4 never) (fun r => .bvoid (formQ r)),
    rowQ 0x284 true dst src no no (ctlQ [0] 4 never) (fun r => .bfell (formQ r)),
    rowQ 0x285 true dst src src src (ctlQ [0] 4 never) (fun r => .bwait (formQ r)),
    rowQ 0x286 true dst src src no (ctlQ [0] 0 never) (fun r => .bfork (formQ r)),
    rowQ 0x287 true no src no no (ctlQ [0] 0 never) (fun r => .bhold (formQ r)),
    rowQ 0x288 true dst src no no (ctlQ [0] 0 never) (fun r => .brel (formQ r)),
    rowQ 0x289 true dst src src no (ctlQ [0] 0 never) (fun r => .baddr (formQ r)),
    rowQ 0x28A true dst src (auxIs [5]) no (ctlQ [0, 1, 2, 3, 4, 5, 6] 0 never) (fun r => .bstat (formQ r)),
    rowQ 0x28B true dst src src no (ctlQ [0] 0 never) (fun r => .bretire (formQ r)),
    rowQ 0x28C true no src src no (ctlQ [0, 1] 0 never)
      (fun r => if fxAux r == 0 then .bpinPin (formQ r) else .bpinUnpin (formQ r)),
    rowQ 0x290 false dst src src no (ctlQ [0, 1] 0 never) (fun r => .tmload (formQ r)),
    rowQ 0x291 false no src src no (ctlQ [0] 0 never) (fun r => .tmlock (formQ r)),
    rowQ 0x292 false no src src no (ctlQ [0] 0 never) (fun r => .tmunlk (formQ r)),
    rowQ 0x293 false no (auxIs [0, 1]) (auxIs [0]) no (ctlQ [0, 1, 2] 0 never) (fun r => .tminv (formQ r)) ]

def rowsStream : List Row :=
  [ rowQ 0x300 true dst src (auxIs [0, 1]) no (ctlQ [0, 1, 2, 3, 4, 5] 0 never) (fun r => .shead (formQ r)),
    rowQ 0x301 true dst src src no (ctlQ [0] 0 never) (fun r => .stake (formQ r)),
    rowQ 0x302 true dst src no no (ctlQ [0] 0 never) (fun r => .unpick (formQ r)),
    rowQ 0x303 true dst src src no (ctlQ [0, 1] 0 anyBit) (fun r => .sframe (formQ r)),
    rowQ 0x304 true dst src src no (ctlQ [0] 0 anyBit) (fun r => .sfrpop (formQ r)),
    rowQ 0x305 true dst src (auxIs [1]) no (ctlQ [0, 1] 0 never) (fun r => .srung (formQ r)),
    rowQ 0x306 true dst src no no (ctlQ [0, 1] 0 (fun r => fxAux r == 0))
      (fun r => if fxAux r == 0 then .sevt (formQ r) else .sevtAttach (formQ r)),
    rowQ 0x310 true dst src src no (ctlQ [0] 0 never) (fun r => .feedpop (formQ r)),
    rowQ 0x311 true dst src no src (ctlQ [0] 0 never) (fun r => .feedwait (formQ r)),
    rowQ 0x312 true dst src src no (ctlQ [0] 0 anyBit) (fun r => .feedpush (formQ r)) ]

/-- The opcode map (02 R60). -/
def rows : List Row :=
  rowsInt ++ rowsInt2 ++ rowsFp ++ rowsCtl ++ rowsSys ++ rowsMem ++ rowsAtomic ++ rowsVec ++ rowsVec2 ++ rowsVec3 ++
    rowsEngine ++ rowsSync ++ rowsBolt ++ rowsStream

/-- The row of an opcode; `none` for the unallocated ones (02 R61). -/
def rowOf (opc : BitVec 10) : Option Row := rows.find? (fun e => e.opc == opc)

/-- The special registers of a core (01 R42). -/
def sregExists (core : CoreKind) (i : Nat) : Bool :=
  decide (i ≤ 4) || (decide (8 ≤ i) && decide (i ≤ 11)) || (decide (0x10 ≤ i) && decide (i ≤ 0x12)) ||
    (decide (0x20 ≤ i) && decide (i ≤ 0x25)) || i == 0x30 || (decide (0x38 ≤ i) && decide (i ≤ 0x40)) ||
    (decide (0x44 ≤ i) && decide (i ≤ 0x48)) || i == 0x50 || i == 0x51 ||
    (core == .headstock && ((decide (0xF00 ≤ i) && decide (i ≤ 0xF03)) || (decide (0xF20 ≤ i) && decide (i ≤ 0xF3F))))

/-- The index a KRD or KWR names. -/
def sregIdx (r : Raw) : Nat := (r.imm.extractLsb' 0 12).toNat

def isKrdKwr (r : Raw) : Bool := r.opc == 0x090 || r.opc == 0x091

/-- The positions of a word: designator code and what the row says of it, in the order D, A, B, C. -/
def positions (e : Row) (r : Raw) : List (BitVec 8 × Pos) := [(r.d, e.d r), (r.a, e.a r), (r.b, e.b r), (r.c, e.c r)]

/-- Step 2: unit or register absent on the headstock (02 R56, R62).
DESIGN CHOICE (log 96): a word whose AX disagrees with its one-slice opcode. An E-slice instruction in R62's last
sentence is a word with AX = 0 whose opcode is not one of the access slice only, so STD with AX = 1 and a
predicate, and BR with AX = 0 and one, are left to step 3 and report SLICE. -/
def absent (core : CoreKind) (e : Row) (r : Raw) : Bool :=
  core == .headstock &&
    (!e.head || (positions e r).any (fun q => posUsed q.2 && (isV q.1 || (isP q.1 && q.1 != 0x87))) ||
      (!flag r.ax && r.pred != 7 && e.slice != .only .a))

/-- Step 3: AX against the opcode, then registers of the other slice (01 R11). -/
def wrongSlice (e : Row) (r : Raw) : Bool :=
  (match e.slice with
    | .byRegs => false
    | .only s => sliceOf r != s) ||
  (positions e r).any (fun q => posUsed q.2 &&
    (if flag r.ax then isXE q.1 || isV q.1 || isP q.1 else isXA q.1))

/-- Step 6: TYPE, then TYPE2 (02 R54, R57); only VCVT and VQNT take a second type. -/
def wrongType (e : Row) (r : Raw) : Bool :=
  !typeOk e.types r.type || (!e.types2.isEmpty && !typeOk e.types2 (vTy2 r))

/-- Step 8: MODA and MODB in format V (02 R58). -/
def wrongMod (e : Row) (r : Raw) : Bool :=
  r.opc.extractLsb' 7 3 == 3 &&
    (!modLegal r.fx || (r.fx != 0 && !posMod (e.a r)) || !modLegal r.modb || (r.modb != 0 && !posMod (e.b r)))

/-- Step 9: unused designators, control fields (02 R47). -/
def wrongMbz (e : Row) (r : Raw) : Bool :=
  (positions e r).any (fun q => !posUsed q.2 && q.1 != 0) || !e.ctl r ||
    (if r.opc.extractLsb' 7 3 == 3 then e.types2.isEmpty && vTy2 r != 0 else r.modb != 0)

/-- The first check that fails, after the opcode's own (02 R63). -/
def firstIll (core : CoreKind) (e : Row) (r : Raw) : Option IllSub :=
  if absent core e r then some .nounit
  else if wrongSlice e r then some .slice
  else if r.wsb == 7 || r.rsb == 7 then some .sched
  else if flag r.ax && (r.pred != 7 || flag r.pneg) then some .pred
  else if wrongType e r then some .type
  else if (positions e r).any (fun q => !posAccepts (flag r.ax) q.1 q.2) then some .desig
  else if wrongMod e r then some .mod
  else if wrongMbz e r then some .mbz
  else if isKrdKwr r && !sregExists core (sregIdx r) then some .sreg
  else none

/-- All the checks of a word's fields (02 R63). -/
def illOf (core : CoreKind) (r : Raw) : Option IllSub :=
  match rowOf r.opc with
  | none => some .opc
  | some e => firstIll core e r

/-! ### The words of instructions -/

/-- The fields of an instruction's word; a step of another agent has no word. -/
def rawOf : Instr → Option Raw
  | .add f => some (rawS 0x000 f)
  | .sub f => some (rawS 0x001 f)
  | .mul f => some (rawS 0x002 f)
  | .mulh f => some (rawS 0x003 f)
  | .mulhz f => some (rawS 0x004 f)
  | .muladd f => some (rawS 0x005 f)
  | .div f => some (rawS 0x006 f)
  | .divz f => some (rawS 0x007 f)
  | .rem f => some (rawS 0x008 f)
  | .remz f => some (rawS 0x009 f)
  | .and f => some (rawS 0x00A f)
  | .or f => some (rawS 0x00B f)
  | .xor f => some (rawS 0x00C f)
  | .andn f => some (rawS 0x00D f)
  | .orn f => some (rawS 0x00E f)
  | .sll f => some (rawS 0x00F f)
  | .srl f => some (rawS 0x010 f)
  | .sra f => some (rawS 0x011 f)
  | .ror f => some (rawS 0x012 f)
  | .min f => some (rawS 0x013 f)
  | .max f => some (rawS 0x014 f)
  | .minz f => some (rawS 0x015 f)
  | .maxz f => some (rawS 0x016 f)
  | .clz f => some (rawS 0x017 f)
  | .ctz f => some (rawS 0x018 f)
  | .popc f => some (rawS 0x019 f)
  | .bext f => some (rawS 0x01A f)
  | .bins f => some (rawS 0x01B f)
  | .sext f => some (rawS 0x01C f)
  | .zext f => some (rawS 0x01D f)
  | .slt f => some (rawS 0x01E f)
  | .sltz f => some (rawS 0x01F f)
  | .seq f => some (rawS 0x020 f)
  | .sel f => some (rawS 0x021 f)
  | .movi f => some (rawS 0x022 f)
  | .movhi f => some (rawS 0x023 f)
  | .lea f => some (rawS 0x024 f)
  | .sfadd f => some (rawS 0x040 f)
  | .sfmul f => some (rawS 0x041 f)
  | .sffma f => some (rawS 0x042 f)
  | .sfcmp f => some (rawS 0x043 f)
  | .sfcvt f => some (rawS 0x044 f)
  | .sfmin f => some (rawS 0x045 f)
  | .sfmax f => some (rawS 0x046 f)
  | .nop f => some (rawS 0x080 f)
  | .br f => some (rawS 0x081 f)
  | .bcc f => some (rawS 0x082 f)
  | .bri f => some (rawS 0x083 f)
  | .call f => some (rawS 0x084 f)
  | .calli f => some (rawS 0x085 f)
  | .ret f => some (rawS 0x086 f)
  | .loopReg f => some (rawS 0x087 f)
  | .loopImm f => some (rawS 0x087 f)
  | .loopx f => some (rawS 0x088 f)
  | .ipref f => some (rawS 0x089 f)
  | .ipin f => some (rawS 0x08A f)
  | .iunpin f => some (rawS 0x08B f)
  | .fencei f => some (rawS 0x08C f)
  | .end_ f => some (rawS 0x08D f)
  | .trap f => some (rawS 0x08E f)
  | .xret f => some (rawS 0x08F f)
  | .krd f => some (rawS 0x090 f)
  | .kwr f => some (rawS 0x091 f)
  | .talertWrite f => some (rawS 0x091 f)
  | .intpendClear f => some (rawS 0x091 f)
  | .thrWrite f => some (rawS 0x091 f)
  | .sleep f => some (rawS 0x092 f)
  | .wake f => some (rawS 0x093 f)
  | .barrier f => some (rawS 0x094 f)
  | .spawn f => some (rawS 0x095 f)
  | .cancel f => some (rawS 0x096 f)
  | .ld f => some (rawM 0x100 f)
  | .ldq f => some (rawM 0x101 f)
  | .st f => some (rawM 0x102 f)
  | .sta f => some (rawM 0x103 f)
  | .std f => some (rawM 0x104 f)
  | .vldq f => some (rawM 0x105 f)
  | .vsta f => some (rawM 0x106 f)
  | .vstd f => some (rawM 0x107 f)
  | .movq f => some (rawM 0x108 f)
  | .bqpush f => some (rawM 0x109 f)
  | .bqpop f => some (rawM 0x10A f)
  | .qmark f => some (rawM 0x10B f)
  | .fence f => some (rawM 0x10C f)
  | .cinv f => some (rawM 0x10D f)
  | .cwb f => some (rawM 0x10E f)
  | .cpref f => some (rawM 0x10F f)
  | .aadd f => some (rawM 0x120 f)
  | .amax f => some (rawM 0x121 f)
  | .amin f => some (rawM 0x122 f)
  | .amaxz f => some (rawM 0x123 f)
  | .aminz f => some (rawM 0x124 f)
  | .aand f => some (rawM 0x125 f)
  | .aor f => some (rawM 0x126 f)
  | .axor f => some (rawM 0x127 f)
  | .axchg f => some (rawM 0x128 f)
  | .acas f => some (rawM 0x129 f)
  | .afadd f => some (rawM 0x12A f)
  | .afmax f => some (rawM 0x12B f)
  | .spalloc f => some (rawM 0x120 f)
  | .sptopRelease f => some (rawM 0x102 f)
  | .spfloorStore f => some (rawM 0x102 f)
  | .vadd f => some (rawV 0x180 f)
  | .vsub f => some (rawV 0x181 f)
  | .vmul f => some (rawV 0x182 f)
  | .vfma f => some (rawV 0x183 f)
  | .vfms f => some (rawV 0x184 f)
  | .vfnma f => some (rawV 0x185 f)
  | .vdiv f => some (rawV 0x186 f)
  | .vsqrt f => some (rawV 0x187 f)
  | .vrcp f => some (rawV 0x188 f)
  | .vrsq f => some (rawV 0x189 f)
  | .vexp2 f => some (rawV 0x18A f)
  | .vlog2 f => some (rawV 0x18B f)
  | .vmin f => some (rawV 0x18C f)
  | .vmax f => some (rawV 0x18D f)
  | .vabs f => some (rawV 0x18E f)
  | .vneg f => some (rawV 0x18F f)
  | .vclamp f => some (rawV 0x190 f)
  | .vcmp f => some (rawV 0x191 f)
  | .vsel f => some (rawV 0x192 f)
  | .vand f => some (rawV 0x193 f)
  | .vor f => some (rawV 0x194 f)
  | .vxor f => some (rawV 0x195 f)
  | .vshl f => some (rawV 0x196 f)
  | .vshr f => some (rawV 0x197 f)
  | .vsar f => some (rawV 0x198 f)
  | .vcvt f => some (rawV 0x199 f)
  | .vqnt f => some (rawV 0x19A f)
  | .vqntQc4 f => some (rawV 0x19A f)
  | .vred f => some (rawV 0x19B f)
  | .vscan f => some (rawV 0x19C f)
  | .vperm f => some (rawV 0x19D f)
  | .vmov f => some (rawV 0x19E f)
  | .vmovxExtract f => some (rawV 0x19F f)
  | .vmovxInsert f => some (rawV 0x19F f)
  | .vext f => some (rawV 0x1A0 f)
  | .viota f => some (rawV 0x1A1 f)
  | .vmasklen f => some (rawV 0x1A2 f)
  | .vpopc f => some (rawV 0x1A3 f)
  | .vcmprs f => some (rawV 0x1A4 f)
  | .vdefer f => some (rawV 0x1A5 f)
  | .vdrain f => some (rawV 0x1A6 f)
  | .vdqstat f => some (rawV 0x1A7 f)
  | .pand f => some (rawV 0x1B0 f)
  | .por f => some (rawV 0x1B1 f)
  | .pxor f => some (rawV 0x1B2 f)
  | .pnot f => some (rawV 0x1B3 f)
  | .pfirst f => some (rawV 0x1B4 f)
  | .pfromx f => some (rawV 0x1B5 f)
  | .ptox f => some (rawV 0x1B6 f)
  | .cp f => some (rawE 0x200 f)
  | .cp2d f => some (rawE 0x201 f)
  | .cpg f => some (rawE 0x202 f)
  | .cps f => some (rawE 0x203 f)
  | .cpx f => some (rawE 0x204 f)
  | .cpz f => some (rawE 0x205 f)
  | .cpmm f => some (rawE 0x206 f)
  | .cpfill f => some (rawE 0x207 f)
  | .cpcomb f => some (rawE 0x208 f)
  | .mfmt f => some (rawE 0x210 f)
  | .mm f => some (rawE 0x211 f)
  | .mmt f => some (rawE 0x212 f)
  | .accz f => some (rawE 0x213 f)
  | .accwr f => some (rawE 0x214 f)
  | .accld f => some (rawE 0x215 f)
  | .tkgive f => some (rawE 0x220 f)
  | .tktake f => some (rawE 0x221 f)
  | .semwait f => some (rawE 0x222 f)
  | .semsig f => some (rawE 0x223 f)
  | .semset f => some (rawE 0x224 f)
  | .semrd f => some (rawE 0x225 f)
  | .cwait f => some (rawE 0x226 f)
  | .cpoll f => some (rawE 0x227 f)
  | .turn f => some (rawE 0x228 f)
  | .bnew f => some (rawQ 0x280 f)
  | .brsv f => some (rawQ 0x281 f)
  | .bcmt f => some (rawQ 0x282 f)
  | .bvoid f => some (rawQ 0x283 f)
  | .bfell f => some (rawQ 0x284 f)
  | .bwait f => some (rawQ 0x285 f)
  | .bfork f => some (rawQ 0x286 f)
  | .bhold f => some (rawQ 0x287 f)
  | .brel f => some (rawQ 0x288 f)
  | .baddr f => some (rawQ 0x289 f)
  | .bstat f => some (rawQ 0x28A f)
  | .bretire f => some (rawQ 0x28B f)
  | .bpinPin f => some (rawQ 0x28C f)
  | .bpinUnpin f => some (rawQ 0x28C f)
  | .tmload f => some (rawQ 0x290 f)
  | .tmlock f => some (rawQ 0x291 f)
  | .tmunlk f => some (rawQ 0x292 f)
  | .tminv f => some (rawQ 0x293 f)
  | .shead f => some (rawQ 0x300 f)
  | .stake f => some (rawQ 0x301 f)
  | .unpick f => some (rawQ 0x302 f)
  | .sframe f => some (rawQ 0x303 f)
  | .sfrpop f => some (rawQ 0x304 f)
  | .srung f => some (rawQ 0x305 f)
  | .sevt f => some (rawQ 0x306 f)
  | .sevtAttach f => some (rawQ 0x306 f)
  | .feedpop f => some (rawQ 0x310 f)
  | .feedwait f => some (rawQ 0x311 f)
  | .feedpush f => some (rawQ 0x312 f)
  | .unallocatedOpcode w => some (unpack w)
  | .sleepRecheck _ | .sleepTimeout _ | .loadDataReturn _ _ | .storePair _ | .crosswaitDetect _
  | .atomicGroupPerform _ | .atomicResponse _ _ | .engineCommandStart _ _ | .mePanelFold _
  | .operandLineArrive _ _ | .engineCommandComplete _ _ | .cowCopyLand _ | .bwaitTimeout _ | .feedwaitTimeout _
  | .yieldMarkExpire _ | .launchReady _ | .placeGang | .slackRecompute | .classifyWindowEnd _ | .preemptRequest
  | .preemptStop _ | .enginePreemptStop _ _ | .taskSave _ | .taskRestore _ _ | .preemptNosafe _ _
  | .watchdogStall _ | .throttleLevelApply _ _ | .taskComplete _ | .stopPointPass _ | .resultWrite _ _
  | .faultWindowClose | .headstockInterrupt | .rollback _ | .taskReexec _ _ | .stepStart _ | .stepEnd _
  | .encoderTake _ | .encoderRecordEmit _ | .decodeComplete _ | .ringFetch _ | .packetAccept _ | .launch _
  | .close _ | .hostCancel _ | .feed _ | .feedcfgCreate _ | .feedcfgDestroy _ | .streamCreate _
  | .streamUpdate _ | .streamDestroy _ | .jobstart _ | .take _ | .decode _ | .input _ | .inval _ | .hostFence _
  | .signal _ | .firmwareCommand _ | .commandTerminal _ | .inputArrive _ _ | .gatheredFault _ _ _ _
  | .fresRetry _ _ | .fresFail _ _ | .flack _ | .cancelAccept _ _ | .powerLimitChange _ | .sensorUpdate _
  | .tileFailure _ | .hbmChannelFailure _ _ | .headstockRestart | .doorbell _ _ | .qresume _ | .jackWrite _
  | .wincfgWrite _ _ | .dbdropRead | .rasctlRead | .registerWrite _ _ _ | .hostBar2Access _ _
  | .atsInvalidation _ _ _ | .priResponse _ _ _ | .coldReset | .warmReset | .functionLevelReset | .boot _
  | .spdmRequest _ | .fabricRequest _ | .fabricStoreAck _ | .collectiveFlit _ | .portFailure _ | .powerLoss =>
    none

/-- Rows of the table that share an opcode are told apart by the field the table's row names: IMM of LOOP, the index
of KWR, TYPE of VQNT, OPX of VMOVX, AUX of BPIN and SEVT. -/
def variantOk : Instr → Bool
  | .loopReg f => !f.imm
  | .loopImm f => f.imm
  | .kwr f => ! [0xF00, 0xF01, 0xF02].contains (f.imm32.extractLsb' 0 12).toNat
  | .thrWrite f => (f.imm32.extractLsb' 0 12).toNat == 0xF00
  | .talertWrite f => (f.imm32.extractLsb' 0 12).toNat == 0xF01
  | .intpendClear f => (f.imm32.extractLsb' 0 12).toNat == 0xF02
  | .vqnt f => f.ty != .qc4
  | .vqntQc4 f => f.ty == .qc4
  | .vmovxExtract f => f.opx == 0
  | .vmovxInsert f => f.opx != 0
  | .bpinPin f => f.aux == 0
  | .bpinUnpin f => f.aux != 0
  | .sevt f => f.aux == 0
  | .sevtAttach f => f.aux != 0
  | _ => true

/-- The allocator's three rows are AADD and ST at an address of its port (07 R218 to R221): their words decode to
`aadd` and `st`. -/
def sharesWord : Instr → Bool
  | .spalloc _ | .sptopRelease _ | .spfloorStore _ => true
  | _ => false

end Decode

open Decode

/-- Decoding, total on any word: an unallocated opcode is the event of that name (02 R61), every other malformed word
is rejected by its subcode. -/
def decode (core : CoreKind) (w : IWord) : Except IllSub Instr :=
  let r := unpack w
  match rowOf r.opc with
  | none => .ok (.unallocatedOpcode w)
  | some e =>
    match firstIll core e r with
    | some sub => .error sub
    | none => .ok (e.build r)

/-- The word of an instruction that has one of its own. -/
def encode (i : Instr) : Option IWord :=
  match i with
  | .unallocatedOpcode w => some w
  | i => if sharesWord i then none else (rawOf i).map pack

/-- The word's 16 bytes, byte 0 first (02 R46). -/
def wordBytes (w : IWord) : List Byte := (List.range 16).map fun i => w.extractLsb' (8 * i) 8

/-- The word of 16 bytes. -/
def wordOfBytes (bs : List Byte) : IWord :=
  BitVec.ofNat 128 (bs.foldr (fun b n => b.toNat + 256 * n) 0)

/-- Decoding from memory bytes: the instruction and what follows it; a short list holds no instruction. -/
def decodeBytes (core : CoreKind) (bs : List Byte) : Option (Except IllSub Instr × List Byte) :=
  if bs.length < 16 then none else some (decode core (wordOfBytes (bs.take 16)), bs.drop 16)

/-- The host's reading: the instruction whose bits are `w`, bits above `nbits` zero, on a tile; a word a tile refuses
is read as the headstock reads it. -/
def decodeTableWord (nbits w : Nat) : Option Instr :=
  let word : IWord := BitVec.ofNat 128 (w % 2 ^ nbits)
  match decodeBytes .tile (wordBytes word) with
  | some (.ok i, _) => some i
  | _ =>
    match decodeBytes .headstock (wordBytes word) with
    | some (.ok i, _) => some i
    | _ => none

end Sys2Proof
end

