-- ==== Sys2Proof/WellFormed.lean ====
section
/-! DEFINITION. The well-formed instructions: the fields of the word pass every check of 02 R63. -/

namespace Sys2Proof

open Decode

/-- Why an instruction's word is refused on a core, if it is (02 R63). -/
def illFormed (core : CoreKind) (i : Instr) : Option IllSub :=
  match rawOf i with
  | some r => illOf core r
  | none => none

/-- An instruction a core of this kind may run: its word passes the checks, and its row of the table is the one its
fields select. The word of `unallocatedOpcode` is one whose opcode no row has; a step of another agent has no word
to check. -/
def WellFormed (core : CoreKind) (i : Instr) : Prop :=
  match i with
  | .unallocatedOpcode w => rowOf (unpack w).opc = none
  | i => illFormed core i = none ∧ variantOk i = true

end Sys2Proof
end

