-- ==== Sys2Proof/Machine/State.lean ====
section
/-! DEFINITION. The state of the machine, plain data, and the state after reset. Every piece cites the rule of the
manual that names it; the values at reset that no rule gives are those of log 1 and log 2. -/

namespace Sys2Proof.Machine

/-- Why the machine as a whole cannot go on. -/
inductive Fault
  /-- Raised by `exec` of an instruction when no strand is in focus, or the strand in focus does not exist: no core
  fetched the word. Safe: no such state is reached by `step`. -/
  | noStrand
  deriving DecidableEq, Repr

/-- Why an instruction has no meaning here. -/
inductive Refusal
  /-- Raised by an arm of `exec` that has no meaning yet. Safe: nothing is claimed of it. -/
  | notModelled (mnemonic : String)
  deriving DecidableEq, Repr

/-- A finite map by number, its keys strictly rising. -/
abbrev FMap (α : Type) := List (Nat × α)

/-! ### A strand -/

/-- A poison mark of a register or queue entry: the address it reports, and whether an atomic response set it
(08 R263, 09 R276). -/
structure Mark where
  addr : BitVec 56
  atomic : Bool
  deriving DecidableEq, Repr

/-- What an address names (07 R232). -/
inductive Space | general | fabric | window | spad | port | device
  deriving DecidableEq, Repr

/-- A run of bytes inside one page or window: the device virtual address, the location in the memory map of log 3, the
length, and what decides how it is cached (07 R223). -/
structure Part where
  va : Nat
  loc : Nat
  len : Nat
  space : Space
  nc : Bool
  deriving DecidableEq, Repr

/-- An entry of the load queue; `data` is absent until the load's data has arrived (01 R15, R16). -/
structure LqEnt where
  seq : Nat
  req : Nat
  size : Nat
  data : Option VReg
  mark : Option Mark
  deriving DecidableEq, Repr

/-- An entry of the store address queue (01 R15, 09 R280, 16 R428). -/
structure SaqEnt where
  seq : Nat
  addr : Word
  size : Nat
  parts : List Part
  ch : CacheHint
  ord : MemOrd
  scope : Scope
  pl : Bool
  deriving DecidableEq, Repr

/-- An entry of the store data queue (01 R15, R18). -/
structure SdqEnt where
  seq : Nat
  size : Nat
  data : VReg
  mark : Option Mark
  annul : Bool
  deriving DecidableEq, Repr

/-- An entry of XQ or BQ (01 R15, R18). -/
structure QEnt where
  seq : Nat
  data : Word
  mark : Option Mark
  annul : Bool
  deriving DecidableEq, Repr

/-- A hardware loop level (03 R94): active, start, end, remaining count. -/
structure Loop where
  active : Bool
  start : Word
  stop : Word
  count : BitVec 32
  deriving DecidableEq, Repr

/-- A result still to be written, as the interlocks see it (01 R23, R26): the registers, when a fixed-latency result
may be read (`none`: a variable-latency producer, written by its own event), and the scoreboard it holds. -/
structure Pend where
  req : Nat
  seq : Nat
  slice : Slice
  regs : List Desig
  ready : Option Nat
  wsb : Option (Fin 6)
  since : Nat
  deriving DecidableEq, Repr

/-- Source registers an issued instruction has still to read (01 R23, R26): when it has read them, and the scoreboard
its RSB holds until then (log 17). -/
structure PendRead where
  seq : Nat
  slice : Slice
  regs : List Desig
  done : Nat
  rsb : Option (Fin 6)
  deriving DecidableEq, Repr

/-- Where the data of a load in flight goes. -/
inductive LoadDst | reg (d : Desig) | lq
  deriving DecidableEq, Repr

/-- A load performed whose data has not arrived (09 R277, R278): its value was read when it was performed. -/
structure Flight where
  req : Nat
  seq : Nat
  dst : LoadDst
  data : VReg
  mark : Option Mark
  acq : Option Scope
  since : Nat
  deriving DecidableEq, Repr

/-- An atomic on its way to its home slice, or performed and waiting for its response (08 R262, 09 R286 to R289). -/
structure AtomFlight where
  req : Nat
  seq : Nat
  opc : BitVec 10
  ty : Ty
  part : Part
  operand : Word
  swap : Word
  d : Option Desig
  acq : Option Scope
  performed : Bool
  result : Word
  mark : Option Mark
  since : Nat
  deriving DecidableEq, Repr

/-- A record of the bobbin (06 R205). -/
structure BobRec where
  words : List (BitVec 32)
  lane : BitVec 16
  tag : BitVec 16
  count : BitVec 8
  deriving DecidableEq, Repr

/-- What a slice waits for (05 R153, 16 R418). -/
inductive WaitWhy
  | interlock                     -- pending bit, scoreboard or STALL count (01 R22 to R26)
  | lqEmpty | xqEmpty | bqEmpty   -- a pop (01 R15)
  | lqData                        -- a pop of an LQ entry whose data has not arrived (01 R16)
  | lqFull | saqFull | sdqFull | xqFull | bqFull
  | limit                         -- 01 R14
  | older                         -- older instructions or accesses of the strand
  | behind                        -- a word of E not yet issued (01 R30)
  | data                          -- an older queued store whose data E has still to push (01 R19; 08 R253)
  | ready                         -- nothing any more: it has issued, and may complete (05 R153)
  | acquire                       -- an acquire not yet complete (08 R256)
  | sleep (line : Nat)            -- 03 R104: the 128-byte line slept on
  | barrier (n : Nat)             -- 03 R107
  | semaphore (name : Nat)        -- 11 R315
  | completion                    -- CWAIT (11 R301)
  | token                         -- TKTAKE, TKGIVE (11 R302)
  | engine                        -- queue entry or completion slot (11 R296, R300)
  | home                          -- a response of a sequence, stream or feed unit (13 R358, 14 R401)
  | bwait | feedwait | stream     -- BWAIT, FEEDWAIT, waiting class 6 (13 R365, 14 R401)
  | gathered                      -- a request of the instruction waits on a gathered fault (16 R432)
  | fabric                        -- the answer of another device (07 R233)
  deriving DecidableEq, Repr

/-- A slice's wait: for what, the cycle it began, its timeout, its instruction and that instruction's address, and
whether the instruction began to take effect when it came to wait (an arrival, a place in a queue of waiters). -/
structure Wait where
  why : WaitWhy
  since : Nat
  deadline : Option Nat
  instr : Instr
  pc : Word
  entered : Bool := false
  deriving DecidableEq, Repr

/-- An entry of the sequence log (13 R361, 17 R441): the bolt operation, its operands, its result, and what its
replay needs. -/
structure SeqEnt where
  opc : BitVec 10
  fx12 : BitVec 12
  a : Word
  b : Word
  c : Word
  resp : Word
  deriving DecidableEq, Repr

/-- A held report (16 R415, R416); of a load, with its program-order number (01 R31). -/
structure Report where
  val : Word
  engine : Option Engine := none
  both : Bool := false
  issue : BitVec 32 := 0
  load : Option Nat := none
  deriving DecidableEq, Repr

/-- What carries parity and is kept in the operand log (17 R435): a register; under `lq` and `xq` the oldest entry of LQ and
XQ; the oldest entry of BQ, of SAQ, of SDQ; the oldest record of the bobbin. -/
inductive Logged | reg (d : Desig) | bq | saq | sdq | bobbin
  deriving DecidableEq, Repr

/-- The access slice as it stood before a word of the execute slice was passed (01 R30, log 6). -/
structure ASnap where
  pc : Word
  x : Vector Word 64
  marks : List (Nat × Mark)
  loops : Vector Loop 4
  perf0 : Word
  stallA : Nat
  oplog : List (Logged × VReg)
  deriving DecidableEq, Repr

/-- What a word that a trap may still take back has counted: wrong hints, with HLAST after and before them (01 R28), the
HFIX a read of HCTL cleared (01 R29), L1 misses (01 R45). -/
structure Young where
  seq : Nat
  hints : Nat
  misses : Nat
  last : Nat
  prior : Nat
  cleared : Nat
  deriving DecidableEq, Repr

/-- A store performed while an older word of E has still to issue: its number, where it wrote, what stood there before,
and the halves of a queued one (01 R17, R31; log 9). -/
structure Early where
  seq : Nat
  ch : CacheHint
  parts : List Part
  old : List Byte
  bad : Bool
  saq : Option SaqEnt
  sdq : Option SdqEnt
  deriving DecidableEq, Repr

/-- A word of the execute slice that A has passed and E has not issued (01 R14). -/
structure EwEnt where
  instr : Instr
  pc : Word
  seq : Nat
  snap : ASnap
  deriving DecidableEq, Repr

/-- A turn snapshot (17 R439, R440): what a rollback restores. -/
structure Snap where
  x : Vector Word 64
  v : Vector VReg 64
  p : Vector PReg 8
  marks : List (Nat × Mark)
  loops : Vector Loop 4
  hctl : Word
  fq : List Word
  bobbin : List BobRec
  fifo : Vector Nat 6
  deriving DecidableEq, Repr

/-- A context and a 128 KiB page that a request waits on (07 R237, R238). -/
abbrev PagePair := BitVec 20 × Nat

/-- What became of a request that met a gathered fault (16 R433): it runs, it waits on the pair of the fault, or that
pair was resolved as failed; with the fault's XLATE subcode and address (11 R309). -/
inductive FaultWait
  | none
  | on (p : PagePair) (sub : BitVec 8) (va : Nat)
  | failed (sub : BitVec 8) (va : Nat)
  deriving DecidableEq, Repr

def FaultWait.isFailed : FaultWait → Bool
  | .failed _ _ => true
  | _ => false

def FaultWait.failedAt : FaultWait → Option Nat
  | .failed _ va => some va
  | _ => Option.none

/-- Why a strand issues nothing (16 R421, 05 R170). -/
inductive RunState | running | stopped
  deriving DecidableEq, Repr

/-- A wrong hint (01 R27): subcode, position (0 a, 1 b, 2 c, 3 destination), the designator reported, and whether no
field names the register. -/
structure Hint where
  sub : BitVec 8
  pos : Nat
  code : BitVec 8
  extra : Bool
  deriving DecidableEq, Repr

/-- The state of a strand (01 R8). A strand that is not running has no record. -/
structure Strand where
  pc : Word
  x : Vector Word 64
  v : Vector VReg 64
  p : Vector PReg 8
  marks : List (Nat × Mark)            -- poison marks of x registers, by number (08 R263, 16 R428)
  lq : List LqEnt
  saq : List SaqEnt
  sdq : List SdqEnt
  xq : List QEnt
  bq : List QEnt
  sbA : Vector Nat 6                   -- scoreboards of the access slice (01 R23)
  sbE : Vector Nat 6
  reuseA : Vector (Option Desig) 3     -- reuse entries, whose value is the register's own (01 R25)
  reuseE : Vector (Option Desig) 3
  pend : List Pend
  reads : List PendRead
  loads : List Flight
  atoms : List AtomFlight
  stallA : Nat                         -- cycle from which the slice may issue again (01 R22)
  stallE : Nat
  hintA : Bool                         -- the waiting instruction's wrong hints are counted already (01 R28)
  hintE : Bool
  hintHeld : Option (Word × List Hint) -- wrong hints found under CHK = 1 at the instruction there (01 R28)
  stampA : Option Nat                  -- cycle in which the candidate became ready (05 R153)
  stampE : Option Nat
  waitA : Option Wait
  waitE : Option Wait
  seq : Nat                            -- program-order number of the next word
  qmark : Nat                          -- number of the youngest QMARK issued (08 R253)
  ewin : List EwEnt                    -- words passed to E and not issued, oldest first (01 R14)
  loops : Vector Loop 4
  xpc : Word
  xcause : Word
  xval : Word
  xvec : Word
  xstat : Word
  xscr : Vector Word 4
  sbase : Word
  slimit : Word
  hctl : Word
  perf : Vector Word 8
  cePidx : Word
  mePidx : Word
  fq : List Word                       -- format queue (11 R307)
  bobbin : List BobRec                 -- deferral queue (06 R205)
  turn : BitVec 32                     -- turn number (11 R316)
  turnPc : Word
  snap : Option Snap                   -- turn snapshot, when valid (17 R439)
  rolled : Bool                        -- the turn has been rolled back (17 R438)
  rollback : Option (BitVec 8 × BitVec 8 × BitVec 56)  -- a rollback is due: its trigger (17 R438, R442)
  seqlog : List SeqEnt                 -- sequence log (13 R361, 17 R441)
  seqFull : Bool                       -- the turn performed more than the log holds (17 R441)
  replaying : Bool                     -- a repeated turn replays the log
  seqNext : Nat                        -- the entry the next one is matched against
  relog : List SeqEnt                  -- responses a re-executed strand has still to replay (17 R447)
  issue : BitVec 32                    -- issue number of the next engine command (11 R310)
  guardRep : Option Report
  engRep : Option Report
  divRep : Option Report
  watchdog : Bool                      -- a held WATCHDOG report (16 R418)
  quiet : Nat                          -- cycle since which no slice issued and one was in a counted wait (16 R418)
  yielding : Option Nat                -- cycle the yield mark was set (05 R154)
  barPend : FMap Nat                   -- barriers the strand has arrived at and not left, with the phase (16 R422)
  stop : Option Nat                    -- cycle of arrival at a stop point (16 R421)
  passed : Bool                        -- the present word was passed as a stop point (16 R421)
  run : RunState
  recheck : Bool                       -- a SLEEP is to check its word again (03 R104)
  oplog : List (Logged × VReg)         -- operand log: the last 64 writes of registers and queues (17 R435)
  badRegs : List Logged                -- what of these fails its parity (17 R435)
  checker : Option (BitVec 8)          -- the checker will disagree with the next command: DIVERGE subcode (17 R436)
  next : Option Word                   -- where the instruction being issued transfers control
  answer : Option Word                 -- what a unit has answered the waiting instruction (14 R393, 20 R474)
  held : Option (List Byte)            -- what a waiting FEEDPUSH or SFRAME loaded at issue (14 R406, R409)
  home : FaultWait                     -- the gathered fault a home-path request waits on (07 R237)
  bqPopped : List (Nat × QEnt)         -- BQ entries A popped while E was behind, with the number of the popping word
  young : List Young                   -- what words counted that a trap may still take back
  early : List Early                   -- stores performed while an older word of E has still to issue, oldest first
  deriving DecidableEq, Repr

/-! ### A tile -/

/-- A completion slot (11 R300, 16 R429). -/
inductive SlotState | complete | pending | failed
  deriving DecidableEq, Repr

inductive SlotUnit | ce | me | sequence | other | both
  deriving DecidableEq, Repr

structure Slot where
  gen : BitVec 8
  state : SlotState
  issuer : BitVec 8
  unit : SlotUnit
  issue : BitVec 32
  deriving DecidableEq, Repr

/-- A queued engine command (11 R296, 16 R429): the parameters captured at issue, how far it has come, and the order
of issue. `opc` 0x206 in the ME queue is the follow-on of a CPMM. -/
structure Cmd where
  opc : BitVec 10
  ty : Ty
  aux : BitVec 4
  token : BitVec 4
  quiet : Bool
  issuer : Nat                         -- strand of the tile, 0 to 7
  user : Bool                          -- level of the issuer, for translation
  slot : Nat
  phase : Nat                          -- 0 not started, 1 in progress, 2 pushes pending (11 R320)
  index : Nat                          -- units completed (11 R321)
  turn : BitVec 32
  order : Nat
  fmt : Word
  params : List Word
  issue : BitVec 32
  error : Option (BitVec 8 × Word)     -- first observed error, subcode and value (11 R309)
  disowned : Bool                      -- its strand has ended, and another runs under its number (11 R310, R317)
  waiting : FaultWait                  -- gathered fault it waits on (16 R432)
  copied : Bool                        -- CPMM follow-on: its copy part is complete (12 R333)
  spills : Option Nat                  -- CPZ: slots of the spill buffer taken; none: to be counted again (12 R331)
  deriving DecidableEq, Repr

/-- A line of the L1 data cache (07 R223, R224): bytes, which of them are held, which are written, poisoned sectors,
and whether it is the first to be evicted. The key is the location divided by 128. -/
structure L1Line where
  data : BitVec 1024
  present : BitVec 128
  written : BitVec 128
  poison : BitVec 4
  early : Bool
  va : Nat
  pasid : BitVec 20
  fabric : Bool
  deriving DecidableEq, Repr

/-- A translation held in a TLB (07 R236). -/
structure TlbEnt where
  pasid : BitVec 20
  base : Nat
  size : Nat
  frame : Nat
  pte : Word
  pteLoc : Nat
  deriving DecidableEq, Repr

/-- A line of the tile instruction cache (03 R98, R100). -/
structure ILine where
  pasid : BitVec 20
  va : Nat
  data : BitVec 1024
  poison : BitVec 4
  deriving DecidableEq, Repr

/-- An entry of the translation memory (13 R355). -/
structure TmEnt where
  handle : BitVec 24
  slog : Nat
  base : BitVec 32
  va : Word
  limit : Nat
  lock : Bool
  deriving DecidableEq, Repr

/-- A task on its tile (05 R150): its place in the hierarchy, its context, its partition. -/
structure Task where
  launch : Nat
  index : Nat
  gang : Nat
  pasid : BitVec 20
  part : BitVec 32
  stack : Nat
  entry : Word
  args : Word
  handler : Word
  barmask : Word
  top : Nat                            -- allocator (07 R218)
  floor : Nat
  guards : List Nat                    -- guard granules, ascending
  slots : Vector Slot 256
  lastSlot : Nat
  ceq : List Cmd
  meq : List Cmd
  fifo : Vector Nat 6                  -- TF_CM, TF_MC, TF_CV, TF_VC, TF_MV, TF_VM (11 R302)
  order : Nat
  acc : FMap (BitVec 64)               -- accumulator pairs that are not (+0, +0) (04 R132, 07 R215)
  oplines : List (Nat × Nat)           -- operand lines requested and arrived: order of the command, line (11 R311)
  kept : List Cmd                      -- CE commands kept for rollback (11 R317)
  tm : List TmEnt                      -- translation memory (13 R355)
  l1 : FMap L1Line
  ipins : List Nat                     -- instruction lines pinned at the tile, virtual (03 R98)
  l2pins : List Nat
  placed : Nat                         -- cycle of the placement
  preReq : Option Nat                  -- cycle of a pending pre-emption request (16 R421)
  nosafe : Bool                        -- NOSAFE reported for it (16 R419)
  engStop : Nat                        -- engines stopped for the pre-emption, as bits: CE 1, ME 2
  failedBy : Option Nat                -- a cause ends the task as failed (05 R172)
  cancelled : Bool                     -- a cancellation is accepted, not yet finished (05 R170)
  tried : List Nat                     -- strands that were started at least once
  ending : FaultWait                   -- its end waits for the pages its translation memory releases (13 R355)
  deriving DecidableEq, Repr

/-- A tile: the strands running on it by number 0 to 7, its caches, its service state (17 R446). -/
structure Tile where
  task : Option Task
  tlb : List TlbEnt
  icache : List ILine
  failed : Bool
  failing : Bool                       -- the Kozal has declared it failed, and the loom has not yet acted (17 R446)
  shadow : Option Nat                  -- the tile this one shadows in lockstep (17 R444)
  diverged : Option Nat                -- cycle of its last rollback for a checker mismatch (17 R446)
  throttle : Nat
  deriving DecidableEq, Repr

/-! ### A cluster and the device -/

/-- A waiter of a semaphore: the strand and the count it asks for (11 R315). -/
structure SemWaiter where
  sid : Nat
  n : BitVec 32
  granted : Bool
  deriving DecidableEq, Repr

structure Sem where
  v : BitVec 32
  waiters : List SemWaiter
  deriving DecidableEq, Repr

/-- A cluster (07 R227, 11 R313): semaphores that are not zero and unwaited, its TLB, its window. -/
structure Cluster where
  win : Nat
  sems : FMap Sem
  tlb : List TlbEnt
  deriving DecidableEq, Repr

/-- The current phase of a barrier: its number and the strands that have arrived (05 R158). A strand of a gang has the
key 8 i + k, for strand k of the task with index i; a headstock strand its number. -/
structure Barrier where
  phase : Nat
  arrived : List Nat
  deriving DecidableEq, Repr

/-- The headstock's own registers (05 R169, 19 R453 to R457). -/
structure Headstock where
  level : BitVec 3
  talertHi : BitVec 8
  talertLo : BitVec 8
  talertLine : Bool
  intpend : BitVec 32
  intmask : BitVec 32
  tsen : Vector (BitVec 16) 32
  barriers : FMap Barrier
  icache : List ILine
  failed : Bool                        -- its firmware failed and awaits HEADSTOCK_RESTART (20 R480)
  sensed : Option Nat                  -- cycle of the last sensor update (19 R453)
  deriving DecidableEq, Repr

/-! ### The loom (05 R137 to R176) -/

inductive Terminal | completed | cancelled | failed
  deriving DecidableEq, Repr

/-- The levels above a launch (05 R137). -/
inductive Level | graph | step | job
  deriving DecidableEq, Repr

/-- A task that holds no tile: not yet placed, saved, or terminal (05 R156, 16 R424). -/
inductive TaskPhase
  | unplaced
  | running (tile : Nat)
  | saved (slot : Nat)
  | done (t : Terminal)
  deriving DecidableEq, Repr

structure TaskRec where
  phase : TaskPhase
  placedOnce : Bool
  cancelled : Bool                     -- a cancellation is accepted, not yet finished
  ran : Nat                            -- cycles it held a tile before its last save (05 R161)
  kept : List Cmd                      -- its kept copy commands, while it is saved (11 R317)
  queued : List Cmd × List Cmd         -- its CE and ME queues, while it is saved, for what the image has no place for (log 83)
  tm : List TmEnt                      -- its translation memory's page references, while it is saved (13 R355)
  phases : FMap Nat                    -- phases of its gang's barriers when it was saved (16 R427, log 83)
  replay : FMap (List SeqEnt)          -- responses each of its strands has still to replay, until it starts (17 R447)
  snapOk : Bool                        -- its input snapshot is whole, and no log of it has overflowed (17 R447)
  deriving DecidableEq, Repr

/-- A gang that holds tiles of a cluster, or whose tasks are saved (05 R156 to R158, R168). -/
structure Gang where
  cluster : Option Nat                 -- none: pre-empted
  barriers : FMap Barrier              -- phases that are not the first, or that strands have arrived at
  saved : List Nat                     -- strands that were running when their task was saved (05 R158)
  placedAt : Nat
  preReq : Option Nat                  -- cycle of the pre-emption request
  level : Nat
  powerLevel : Nat
  wait : FaultWait                     -- a gathered fault that its restore waits on (16 R430, R432)
  deriving DecidableEq, Repr

/-- A launch (05 R141 to R144, R160 to R162). -/
structure Launch where
  pasid : BitVec 20
  descAddr : Word
  desc : Option (List Byte)            -- the descriptor as the loom read it; no bytes when it could not
  checked : Bool                       -- it has passed the checks of 05 R142
  entry : Word
  args : Word
  part : BitVec 32
  tasks : Nat
  stack : Nat
  gangSize : Nat
  cls : Nat
  clsOver : Option Nat                 -- class byte of the command (20 R474)
  failstop : Bool
  restart : Bool
  barmask : Word
  deadline : Word
  cost : Word
  handler : Word
  doneAddr : Word
  snapAddr : Word
  relogs : FMap (List Byte)            -- logs of a restartable task's home-path responses, by strand, in the layout of 17 R441 (17 R447)
  recs : FMap TaskRec                  -- tasks that were placed, or are terminal
  gangs : FMap Gang
  nextGang : Nat                       -- lowest gang never placed (05 R173)
  deps : List Nat
  ready : Bool
  accepted : Nat                       -- order of acceptance
  cmd : Nat                            -- number of its host command, 0 when a step made it
  graph : Nat                          -- its graph, by the loom's number
  cancelled : Bool
  rest : Bool                          -- FAILSTOP has cancelled the other tasks (05 R172)
  code : BitVec 32
  terminal : Option Terminal
  endCyc : Nat                         -- CYCLE when it became terminal (05 R143)
  recordDue : Bool                     -- its record waits for a host page (05 R143; 20 R465)
  slack : Option Int                   -- none: +infinity (05 R160)
  streamSlack : Option Int
  doneSum : Nat                        -- durations of completed tasks, and how many (05 R161)
  doneCount : Nat
  firstPlaced : Option Nat
  classified : Option Bool             -- some true: compute-bound (05 R162)
  classEnded : Bool
  mb : Nat
  byteCount : Nat
  deriving DecidableEq, Repr

/-- A graph, step or job (05 R137, R138, R140; 20 R474). Children and parents go by the loom's numbers. -/
structure Object where
  level : Level
  id : Nat
  pasid : BitVec 20
  parent : Option Nat
  children : List Nat
  closed : Bool
  cancelled : Bool
  terminal : Option Terminal
  endCyc : Nat                         -- CYCLE when it became terminal (14 R383)
  stream : Option Nat                  -- of a job whose steps a stream starts (20 R474)
  cmd : Nat                            -- number of the JOBSTART command of such a job
  deriving DecidableEq, Repr

/-- A loaded image: where its code lies, its entry words and its partition word (05 R142, R147; 20 R474). -/
structure Image where
  pasid : BitVec 20
  entries : List Word
  part : BitVec 32
  deriving DecidableEq, Repr

/-- What a task that has lost its tile leaves to be released: the stream events of one that has become terminal, and the
page references of its translation memory (13 R355, 14 R408). -/
structure Orphan where
  pasid : BitVec 20
  task : Option Word
  tm : List TmEnt
  wait : FaultWait
  deriving DecidableEq, Repr

structure Loom where
  launches : FMap Launch
  objects : FMap Object                -- by number; identifiers are fields
  images : List Image
  nextLaunch : Nat
  serial : Nat
  slots : List (BitVec 20 × Nat)       -- save slots in use, by context (16 R425)
  reserved : Option (Nat × Nat × Nat)  -- a cluster and the launch and gang it is kept for (05 R164)
  orphans : List Orphan
  swept : Nat                          -- cycle of the last recomputation of every slack (05 R161)
  deriving DecidableEq, Repr

/-! ### Device registers and the fault window -/

/-- The registers of the device register block that hold state of their own (20 R466; 16 R417, R432; 17 R449). -/
structure DevRegs where
  boot : BitVec 8
  lastrst : BitVec 2
  ready : Bool
  qtroot : Word
  dbdrop : BitVec 32
  jbase0 : Word
  jbase1 : Word
  jsize : BitVec 5
  jput : Word
  jack : Word
  jevbase : Word
  hwbase : Word
  qpasid : FMap (BitVec 20)            -- registers that are not 0
  wdint : BitVec 32
  flbase0 : Word
  flbase1 : Word
  rasbase : Word
  rassize : BitVec 16
  rasdrop : BitVec 16
  rasput : BitVec 16
  rasget : BitVec 16
  deriving DecidableEq, Repr

/-! ### Bolts, streams, feeds and codecs -/

/-- A copy on first append in flight (13 R363): its context and bolt, the pool pages it copies between, how many bytes,
the strand and its task (launch and index), the completion slot it holds (none on the headstock). On the headstock the
entry stays until the waiting BRSV has taken its outcome: the first slot, and whether the copy landed. -/
structure Cow where
  pasid : BitVec 20
  handle : Nat
  src : Nat
  dst : Nat
  len : Nat
  sid : Nat
  task : Nat × Nat
  slot : Option (Nat × BitVec 8)
  first : Nat
  landed : Option Bool
  wait : FaultWait
  deriving DecidableEq, Repr

/-- An operation that waits at its home and whose strand has ended; it is still performed whole (13 R358). -/
structure LateOp where
  opc : BitVec 10
  aux : BitVec 4
  a : Word
  b : Word
  c : Word
  pasid : BitVec 20
  wait : FaultWait
  deriving DecidableEq, Repr

/-- What the sequence units know of a context's bolt area: the RECBASE they checked, the verdict, and where in memory the
RECBASE stands (20 R469). -/
structure BoltArea where
  base : Nat
  ok : Bool
  loc : Nat
  deriving DecidableEq, Repr

/-- An entry of a head set (14 R379). -/
structure HeadEnt where
  h : Nat
  q : Nat
  kind : Byte
  deriving DecidableEq, Repr

/-- What the encoder remembers of a stream (14 R387, R390): the last descriptor it took (BOLT, STEP, SUB), the size of
the last coded frame, whether the last record was dropped for its size, frames since the last key frame, the set
generation of the last record. -/
structure Coding where
  last : Option (Nat × Nat × Nat)
  size : Option (Nat × Nat)
  oversize : Bool
  sinceKey : Nat
  gen : Option Nat
  deriving DecidableEq, Repr

/-- An operation of a stream that waits before it is complete, and holds every later one (14 R393, R501): an input with
the command that delivered it; an UNPICK, and the strand it answers. -/
inductive StreamOp
  | input (i : StreamInput) (cmd : Option Nat)
  | unpick (sid : Option Nat)
  deriving DecidableEq, Repr

/-- A live stream (14 R376 to R401): its control block as the image the manual lays out (R377), where the host keeps its
image of it, the unit's copy of the head set (R501), its events, its pending LATE, its job and the job's template. -/
structure Stream where
  img : List Byte
  home : Word
  heads : List HeadEnt
  events : List Word
  late : Option (BitVec 32)
  coding : Coding
  job : Option Nat
  template : List Word
  firstId : Nat
  clsOver : Option Nat
  step : Option Nat                    -- the step that runs, by the loom's number
  stepRung : Nat
  stepIndex : Nat
  backDue : Bool                       -- a write-back waits (14 R501)
  writeBack : FaultWait
  inbox : List StreamOp                -- operations not complete, oldest first; the first waits as `unpick` says
  unpick : FaultWait
  lost : List Nat                      -- addresses of its writes whose faults were resolved as failed (14 R501)
  deriving DecidableEq, Repr

/-- A feed (14 R398). -/
structure Feed where
  ring : Word
  size : Nat
  put : Nat
  get : Nat
  pasid : BitVec 20
  deriving DecidableEq, Repr

/-- A take of an encoder not yet recorded (14 R387, R390): the stream, the descriptor, and what was in force. -/
structure Take where
  stream : Nat
  desc : List Byte
  rung : Nat
  setgen : Nat
  frame : Nat                          -- number of the free value its coding rests on
  readDone : Bool                      -- its pixel frame has been read
  payload : List Byte                  -- its coding, once the frame has been read
  key : Bool                           -- it is coded as a key frame
  dropped : Bool                       -- its record is a DROPPED one: void, unreadable or too large
  oversize : Bool
  wait : FaultWait
  since : Nat                          -- cycle of the take
  deriving DecidableEq, Repr

/-- An access unit handed to a decoder (14 R391). -/
structure DecodeJob where
  stream : Nat
  addr : Word
  len : Nat
  pts : Word
  out : Word
  pasid : BitVec 20
  cmd : Nat
  wait : FaultWait
  deriving DecidableEq, Repr

/-- The stream unit, the feed unit and the video engines. -/
structure StreamUnit where
  streams : FMap Stream
  feeds : FMap Feed
  encoders : FMap (List Take)          -- takes of each engine, oldest first
  decoders : FMap DecodeJob
  deriving DecidableEq, Repr

/-! ### The host's side (20 R462 to R488) -/

/-- A queue as the fetcher has walked to it (20 R471, R472): its context, its QCB, whether its tables are absent, the
last doorbell that found them so, the pair its ring fetch waits on. -/
structure HostQueue where
  pasid : BitVec 20
  qcb : Nat
  absent : Bool
  tail : Nat
  wait : FaultWait
  deriving DecidableEq, Repr

/-- A fetch context: the queue it serves, the packets it has read and their indices (20 R473). -/
structure FetchCtx where
  q : Nat
  got : List (Nat × List Byte)
  deriving DecidableEq, Repr

/-- An accepted command (20 R474 to R481). Its number is its journal SEQ plus one. -/
structure HostCmd where
  q : Nat
  pasid : BitVec 20
  ring : Nat
  packet : List Byte
  obj : Word
  started : Bool
  done : Option (Terminal × BitVec 32)
  written : Bool                       -- its journal entry holds the terminal state
  acc : Nat                            -- CYCLE at acceptance
  vec : Nat                            -- VEC of its queue, at acceptance (20 R472)
  progress : Nat                       -- records appended by a FEED of more than its feed holds
  held : List Byte                     -- and those still to be appended
  wait : FaultWait
  deriving DecidableEq, Repr

/-- A firmware image the boot ROM has verified (20 R486). -/
structure Firmware where
  entry : Word
  loc : Nat
  bytes : List Byte
  deriving DecidableEq, Repr

structure HostUnit where
  queues : FMap HostQueue
  ctxs : List FetchCtx
  cmds : FMap HostCmd
  served : Nat                         -- queue served last, for round robin
  msix : List Nat                      -- vectors of the messages sent, newest first
  doe : List (List Byte × List Byte)   -- requests to the SPDM responder and its answers, newest first
  firmware : Option Firmware
  resetDue : Bool                      -- RSTCTL.WARM was written
  off : Bool                           -- module power is lost (07 R230)
  barLog : Nat                         -- log2 of the size of BAR2 in GiB, as the host has set it (20 R462; log 118)
  deriving DecidableEq, Repr

/-- One pair of a gathering window (07 R238, R239). -/
structure FaultPair where
  pasid : BitVec 20
  page : Word
  cause : Byte
  agents : Byte
  hits : BitVec 16
  deriving DecidableEq, Repr

/-- A store to another device not yet acknowledged (08 R259). -/
structure FabStore where
  id : Nat
  tile : Nat
  deriving DecidableEq, Repr

/-- An access to another device that its target refuses (07 R233): a page of that device, reads or writes, the level they
carry, and the XLATE subcode the target answers. -/
structure FabRefusal where
  dev : Nat
  page : Nat
  write : Bool
  user : Bool
  sub : BitVec 8
  deriving DecidableEq, Repr

/-- A host page of 128 KiB that ATS reports present, with the R and W of its completions (20 R465). -/
structure HostPage where
  pasid : BitVec 20
  page : Nat
  r : Bool
  w : Bool
  deriving DecidableEq, Repr

/-- What the machine knows of the world behind its ports: the other devices and the host (20 R465, R489; log 13). -/
structure Outside where
  devNum : Nat                         -- DEV of this device (01 R42)
  reach : List Nat                     -- devices the domain can reach, beside this one
  ports : BitVec 12                    -- working ports
  fab : List FabStore
  refused : List FabRefusal            -- accesses that their target devices refuse
  hostPages : List HostPage
  priOut : List (BitVec 20 × Nat)      -- page requests not answered, oldest first; at most 256 are outstanding (20 R462)
  priFail : List (BitVec 20 × Nat)     -- page requests answered with a failure
  deriving DecidableEq, Repr

/-- The gathering window and the two list buffers (07 R238, 16 R432). -/
structure FaultUnit where
  pairs : List FaultPair               -- of the open window, ascending by context and page
  outside : List FaultPair             -- faults that found the window full (16 R432)
  opened : Option Nat
  seq : BitVec 32
  busy0 : Bool
  busy1 : Bool
  deriving DecidableEq, Repr

/-! ### The whole machine -/

/-- Which agent moves next, when the environment says so (log 4): a row of the table that is no word, a slice of a
strand, the copy engine of a tile, the eviction of an L1 line, the passing of a control cycle, a write by another
device or the host, a soft error in a sector of memory (07 R231) or of an L1 line (07 R226), an answer that another device will give from now
on, or no more (07 R233), the loading of an image (05 R142; log 7), a stream's write-back or input that waited and may go on (14 R501), a register or queue entry whose parity fails (17 R435), a checker
mismatch at the strand's next command or a lockstep mismatch at its next access or command (17 R437, R445), the host's
choice of BAR2's size (20 R462). -/
inductive Turn
  | ev (i : Instr)
  | issue (sid : Nat) (sl : Slice)
  | ceMove (tile : Nat)
  | evict (tile : Nat) (line : Nat)
  | tick
  | foreignWrite (loc : Nat) (bytes : List Byte)
  | softError (sector : Nat)
  | lineError (tile line sector : Nat)
  | refuse (r : FabRefusal) (holds : Bool)
  | imageLoad (im : Image)
  | redo (stream : Nat)
  | parity (sid : Nat) (d : Logged)
  | mismatch (sid : Nat) (sub : BitVec 8)
  | bar2Size (log : Nat)
  deriving DecidableEq, Repr

/-- Where the instruction now executed stands: at the strand's PC, or at the head of the window of words passed to E. -/
inductive Place | fetch | window
  deriving DecidableEq, Repr

/-- The strand whose instruction is executed. -/
structure Focus where
  sid : Nat
  place : Place
  deriving DecidableEq, Repr

/-- The state of the machine. Strand `k` of tile `t` has number `8 t + k`, headstock strand `k` number `1536 + k`. -/
structure State where
  strands : FMap Strand
  tiles : FMap Tile                    -- a tile not listed is `Tile.idle`
  clusters : FMap Cluster              -- a cluster not listed is `Cluster.cleared`
  mem : List Host.Cell                 -- every memory of the device, by location (log 3); unlisted reads 0 (log 2)
  poison : List Nat                    -- poisoned 32-byte sectors, ascending (07 R231)
  cycle : Nat
  head : Headstock
  dev : DevRegs
  faults : FaultUnit
  out : Outside
  loom : Loom
  cows : FMap Cow
  late : List LateOp
  areas : FMap BoltArea                -- by context
  su : StreamUnit
  host : HostUnit
  req : Nat                            -- number of the next request in flight
  agenda : List Turn
  unit : Nat                           -- whose turn it is in this cycle: a tile, or 192 for the headstock (log 5)
  free : Nat                           -- free values drawn so far (log 8)
  focus : Option Focus
  deriving DecidableEq, Repr

def Tile.idle : Tile :=
  { task := none, tlb := [], icache := [], failed := false, failing := false, shadow := none, diverged := none, throttle := 0 }

def Cluster.cleared : Cluster := { win := 0, sems := [], tlb := [] }

def Headstock.reset : Headstock :=
  { level := 0, talertHi := 0x7F, talertLo := 0x80, talertLine := false, intpend := 0, intmask := 0,
    tsen := Vector.replicate 32 0, barriers := [], icache := [],
    failed := false, sensed := none }

def Loom.reset : Loom :=
  { launches := [], objects := [], images := [], nextLaunch := 1, serial := 1, slots := [], reserved := none, orphans := [], swept := 0 }

def DevRegs.reset : DevRegs :=
  { boot := 0, lastrst := 0, ready := false, qtroot := 0, dbdrop := 0, jbase0 := 0, jbase1 := 0, jsize := 0, jput := 0,
    jack := 0, jevbase := 0, hwbase := 0, qpasid := [], wdint := 0x01000000, flbase0 := 0, flbase1 := 0, rasbase := 0,
    rassize := 0, rasdrop := 0, rasput := 0, rasget := 0 }

def FaultUnit.reset : FaultUnit := { pairs := [], outside := [], opened := none, seq := 0, busy0 := false, busy1 := false }

def Outside.reset : Outside :=
  { devNum := 0, reach := [], ports := 0xFFF, fab := [], refused := [], hostPages := [], priOut := [], priFail := [] }

def StreamUnit.reset : StreamUnit := { streams := [], feeds := [], encoders := [], decoders := [] }

def HostUnit.reset : HostUnit :=
  { queues := [], ctxs := [], cmds := [], served := 0, msix := [], doe := [], firmware := none, resetDue := false, off := false, barLog := 9 }

/-- The machine right after a cold reset (20 R485): no strand runs until the boot ROM has started one (20 R486). -/
def State.reset : State :=
  { strands := [], tiles := [], clusters := [], mem := [], poison := [], cycle := 0, head := Headstock.reset,
    dev := DevRegs.reset, faults := FaultUnit.reset, out := Outside.reset,
    loom := Loom.reset, cows := [], late := [], areas := [], su := StreamUnit.reset, host := HostUnit.reset, req := 0, agenda := [], unit := 0, free := 0, focus := none }

end Sys2Proof.Machine
end

