-- ==== Sys2Proof/Machine/Map.lean ====
section
/-! DEFINITION. Finite maps by number, and lists of numbers in ascending order: the canonical forms of State. -/

namespace Sys2Proof.Machine

namespace FMap

/-- The value of a key. -/
def get? {α : Type} : FMap α → Nat → Option α
  | [], _ => none
  | (k, v) :: m, a => if k = a then some v else get? m a

/-- The map with a key set, in ascending order of keys. -/
def set {α : Type} : FMap α → Nat → α → FMap α
  | [], a, x => [(a, x)]
  | (k, v) :: m, a, x =>
    if a < k then (a, x) :: (k, v) :: m
    else if a = k then (a, x) :: m
    else (k, v) :: set m a x

/-- The map without a key. -/
def erase {α : Type} : FMap α → Nat → FMap α
  | [], _ => []
  | (k, v) :: m, a => if k = a then erase m a else (k, v) :: erase m a

/-- The map with one value changed, when the key has one. -/
def update {α : Type} (m : FMap α) (a : Nat) (f : α → α) : FMap α :=
  match m.get? a with
  | some x => m.set a (f x)
  | none => m

/-- Keys strictly rising. -/
def sorted {α : Type} : FMap α → Bool
  | [] => true
  | [_] => true
  | (k, _) :: (l, w) :: m => decide (k < l) && sorted ((l, w) :: m)

end FMap

namespace NatSet

/-- A number added to an ascending list without repeats. -/
def insert : List Nat → Nat → List Nat
  | [], a => [a]
  | k :: m, a => if a < k then a :: k :: m else if a = k then k :: m else k :: insert m a

def erase (m : List Nat) (a : Nat) : List Nat := m.filter (· != a)

end NatSet

/-- Bytes of a number, least significant first (00 R3). -/
def leBytes : Nat → Nat → List Byte
  | 0, _ => []
  | n + 1, v => BitVec.ofNat 8 v :: leBytes n (v / 256)

/-- The number of bytes, least significant first (00 R3). -/
def leNat : List Byte → Nat
  | [] => 0
  | b :: bs => b.toNat + 256 * leNat bs

/-- A slice of a list of bytes, padded with zeros. -/
def takeBytes (bs : List Byte) (off n : Nat) : List Byte :=
  let t := (bs.drop off).take n
  t ++ List.replicate (n - t.length) 0

/-- A little-endian field of a record. -/
def field (bs : List Byte) (off n : Nat) : Nat := leNat (takeBytes bs off n)

/-- A record with a field overwritten. -/
def setField (bs : List Byte) (off n v : Nat) : List Byte :=
  takeBytes bs 0 off ++ leBytes n v ++ bs.drop (off + n)

/-- `a` rounded up to a multiple of `n`. -/
def roundUp (a n : Nat) : Nat := (a + n - 1) / n * n

/-- A field of a word as a number: `n` bits from bit `i`. -/
def bits (w : Word) (i n : Nat) : Nat := (w.toNat >>> i) % 2 ^ n

/-- A word with bit `i` set to `b`. -/
def putBit (w : Word) (i : Nat) (b : Bool) : Word :=
  if b then w ||| (1#64 <<< i) else w &&& ~~~(1#64 <<< i)

end Sys2Proof.Machine
end

