-- ==== Sys2Proof/Machine/Mem.lean ====
section
/-! DEFINITION. Memory as one list of bytes by location (log 3), poisoned sectors (07 R231), and the locations of the
address space: first tier, second tier, cluster windows, scratchpads, the host's memory, other devices. -/

namespace Sys2Proof.Machine

/-- What an unlisted location reads as (log 2). -/
def memDefault : Byte := 0

/-- First location of each kind of storage (log 3). -/
def tier1Base : Nat := 1 * 2 ^ 56
def windowBase : Nat := 2 * 2 ^ 56
def spadBase : Nat := 3 * 2 ^ 56
def deviceBase : Nat := 4 * 2 ^ 56
def hostBase : Nat := 2 ^ 72

/-- Sizes (07 R229): 384 GB of first-tier memory, 1 TB of second-tier memory, decimal (00 R3). -/
def tier0Size : Nat := 384000000000
def tier1Size : Nat := 1000000000000

def windowLoc (cluster off : Nat) : Nat := windowBase + cluster * 0x4000000 + off
def spadLoc (tile off : Nat) : Nat := spadBase + tile * 0x1000000 + off
def deviceLoc (dev off : Nat) : Nat := deviceBase + dev * 2 ^ 40 + off

namespace Memory

/-- One byte. -/
def read : List Host.Cell → Nat → Byte
  | [], _ => memDefault
  | (k, v) :: m, a => if k = a then v else read m a

/-- The memory with one byte written, in canonical form. -/
def write : List Host.Cell → Nat → Byte → List Host.Cell
  | [], a, b => if b = memDefault then [] else [(a, b)]
  | (k, v) :: m, a, b =>
    if a < k then (if b = memDefault then (k, v) :: m else (a, b) :: (k, v) :: m)
    else if a = k then (if b = memDefault then m else (a, b) :: m)
    else (k, v) :: write m a b

/-- `n` bytes from location `a`. -/
def readN (m : List Host.Cell) (a : Nat) : Nat → List Byte
  | 0 => []
  | n + 1 => read m a :: readN m (a + 1) n

/-- Bytes written from location `a` on. -/
def writeN (m : List Host.Cell) (a : Nat) : List Byte → List Host.Cell
  | [] => m
  | b :: bs => writeN (write m a b) (a + 1) bs

/-- Every location of `[lo, lo + n)` dropped: it reads as an unlisted one. -/
def clear (m : List Host.Cell) (lo n : Nat) : List Host.Cell :=
  m.filter fun c => c.1 < lo || lo + n ≤ c.1

/-- Locations strictly rising above `lo`, no byte that an unlisted location reads as. -/
def wfFrom : Nat → List Host.Cell → Bool
  | _, [] => true
  | lo, (k, v) :: m => decide (lo ≤ k) && v != memDefault && wfFrom (k + 1) m

/-- The canonical form of memory. -/
def wf (m : List Host.Cell) : Bool := wfFrom 0 m

end Memory

/-- The 32-byte sectors of a range (07 R231). -/
def sectorsOf (a n : Nat) : List Nat :=
  if n = 0 then [] else (List.range ((a + n - 1) / 32 - a / 32 + 1)).map (a / 32 + ·)

/-- Whether a range holds a poisoned sector. -/
def isPoisoned (p : List Nat) (a n : Nat) : Bool := (sectorsOf a n).any p.contains

/-- Poison after a write of `n` bytes at `a`: a write of poisoned data poisons its sectors, any other write clears
those it fills whole (07 R231). -/
def poisonAfter (p : List Nat) (a n : Nat) (bad : Bool) : List Nat :=
  if bad then (sectorsOf a n).foldl NatSet.insert p
  else (sectorsOf a n).foldl (fun q k => if a ≤ 32 * k ∧ 32 * k + 32 ≤ a + n then NatSet.erase q k else q) p

/-- A verdict on a bolt area stands after a write of `n` bytes at `a` that leaves memory `m`: the write does not touch
RECBASE, or leaves a good area's RECBASE as it was (20 R469). -/
def BoltArea.stands (m : List Host.Cell) (a n : Nat) (r : BoltArea) : Bool :=
  decide (r.loc + 8 ≤ a) || decide (a + n ≤ r.loc) || (r.ok && leNat (Memory.readN m r.loc 8) == r.base)

namespace State

def readLoc (s : State) (a n : Nat) : List Byte := Memory.readN s.mem a n

/-- Bytes written at a location, with their poison. -/
def writeLoc (s : State) (a : Nat) (bs : List Byte) (bad : Bool := false) : State :=
  let m := Memory.writeN s.mem a bs
  { s with mem := m, poison := poisonAfter s.poison a bs.length bad, areas := s.areas.filter fun q => q.2.stands m a bs.length }

def readLocNat (s : State) (a n : Nat) : Nat := leNat (s.readLoc a n)

def writeLocNat (s : State) (a n v : Nat) : State := s.writeLoc a (leBytes n v)

/-- The bytes of a range cleared, poison included. -/
def clearLoc (s : State) (a n : Nat) : State :=
  { s with mem := Memory.clear s.mem a n, poison := s.poison.filter fun k => 32 * k + 32 ≤ a || a + n ≤ 32 * k }

end State

end Sys2Proof.Machine
end

