-- ==== Sys2Proof/Machine/Ops.lean ====
section
/-! DEFINITION. The operations every family shares: the strand in focus, registers, queues' common part, error records,
taking a trap (01 R35, R36) and returning from one (01 R38), and the outcomes of a meaning. -/

namespace Sys2Proof.Machine

/-- The reports a strand can hold (16 R416). -/
inductive ReportKind | diverge | guard | engine
  deriving DecidableEq, Repr

/-- Why an instruction does not take effect now: it raises a cause (01 R34), a held report is delivered at it, with the
report's XVAL (16 R415), or its slice waits. -/
inductive Halt
  | trap (cause sub : BitVec 8) (val : BitVec 56)
  /-- A cause met after walks that have set A bits (07 R235): the state they leave. -/
  | walked (s : State) (cause sub : BitVec 8) (val : BitVec 56)
  | report (kind : ReportKind) (val : Word)
  | wait (why : WaitWhy) (deadline : Option Nat)
  /-- A late input, delivered as cause STREAM, subcode LATE (14 R397): the stream and XVAL. -/
  | late (stream : Nat) (val : BitVec 56)
  /-- A wait that keeps what the instruction has done so far. -/
  | hold (s : State) (why : WaitWhy) (deadline : Option Nat)
  deriving DecidableEq, Repr

abbrev Res (α : Type) := Except Halt α

/-- A meaning inside the issue of its instruction. -/
abbrev Body := State → Res State

abbrev Answer := Host.Outcome State Fault Refusal

def stall (why : WaitWhy) : Halt := .wait why none

/-! ### Causes (01 R34) -/

def illCode : IllSub → BitVec 8
  | .opc => 1 | .mbz => 2 | .slice => 3 | .mod => 4 | .type => 5 | .desig => 6 | .sched => 7 | .pred => 8
  | .nounit => 9 | .sreg => 10

def illTrap (sub : IllSub) (v : BitVec 56 := 0) : Halt := .trap 0x01 (illCode sub) v
def stackTrap (sub : BitVec 8) (a : Word) : Halt := .trap 0x03 sub (a.setWidth 56)
def alignTrap (sub : BitVec 8) (a : Word) : Halt := .trap 0x04 sub (a.setWidth 56)
def xlateTrap (sub : BitVec 8) (a : Word) : Halt := .trap 0x05 sub (a.setWidth 56)
def dataTrap (m : Mark) : Halt := .trap 0x07 (if m.atomic then 2 else 1) m.addr
def queueTrap (sub : BitVec 8) : Halt := .trap 0x0B sub 0
def privInsn : Halt := .trap 0x0D 2 0
def privSreg (i : Nat) : Halt := .trap 0x0D 1 (BitVec.ofNat 56 i)
def engineTrap (sub : BitVec 8) (v : Word) : Halt := .trap 0x0E sub (v.setWidth 56)
def boltTrap (sub : BitVec 8) (v : BitVec 56 := 0) : Halt := .trap 0x09 sub v

def ReportKind.cause : ReportKind → BitVec 8
  | .diverge => 0x0F | .guard => 0x06 | .engine => 0x0E

/-- A check that must hold. -/
def need (b : Bool) (h : Halt) : Res Unit := if b then .ok () else .error h

/-! ### Strands, tiles, clusters -/

def isHead (sid : Nat) : Bool := decide (1536 ≤ sid)
def tileOf (sid : Nat) : Nat := sid / 8
def clusterOf (sid : Nat) : Nat := sid / 64
def numberOf (sid : Nat) : Nat := sid % 8
def coreOf (sid : Nat) : CoreKind := if isHead sid then .headstock else .tile

namespace State

def strand? (s : State) (sid : Nat) : Option Strand := s.strands.get? sid
def setStrand (s : State) (sid : Nat) (t : Strand) : State := { s with strands := s.strands.set sid t }
def dropStrand (s : State) (sid : Nat) : State := { s with strands := s.strands.erase sid }
def updStrand (s : State) (sid : Nat) (f : Strand → Strand) : State := { s with strands := s.strands.update sid f }

def tile (s : State) (t : Nat) : Tile := (s.tiles.get? t).getD Tile.idle
def setTile (s : State) (t : Nat) (x : Tile) : State := { s with tiles := s.tiles.set t x }
def updTile (s : State) (t : Nat) (f : Tile → Tile) : State := s.setTile t (f (s.tile t))
def task? (s : State) (t : Nat) : Option Task := (s.tile t).task
def updTask (s : State) (t : Nat) (f : Task → Task) : State :=
  s.updTile t fun x => { x with task := x.task.map f }

def cluster (s : State) (c : Nat) : Cluster := (s.clusters.get? c).getD Cluster.cleared
def setCluster (s : State) (c : Nat) (x : Cluster) : State := { s with clusters := s.clusters.set c x }

/-- The strand in focus. -/
def sid (s : State) : Nat := match s.focus with
  | some f => f.sid
  | none => 0

def core (s : State) : CoreKind := coreOf s.sid

/-- The context of a strand: its task's, or context 0 on the headstock (log 12). -/
def pasidOf (s : State) (sid : Nat) : BitVec 20 :=
  if isHead sid then 0 else match s.task? (tileOf sid) with
    | some t => t.pasid
    | none => 0

/-- A fresh request number. -/
def freshReq (s : State) : Nat × State := (s.req, { s with req := s.req + 1 })

end State

/-- An action on the strand in focus. -/
def onStrand (f : Strand → Res Strand) : Body := fun s =>
  match s.strand? s.sid with
  | some t => do
    let t' ← f t
    .ok (s.setStrand s.sid t')
  | none => .ok s

/-- The strand in focus, as an argument. -/
def withStrand {α : Type} (dflt : α) (s : State) (f : Strand → α) : α :=
  match s.strand? s.sid with
  | some t => f t
  | none => dflt

/-! ### Registers (01 R8) -/

namespace Strand

/-- A scalar register: x0 and x32 read zero. -/
def getX (t : Strand) (n : Fin 64) : Word := if n = 0 ∨ n = 32 then 0 else t.x[n]

/-- The value of an access-slice scalar designator; any other designator is refused by the decoder and reads zero. -/
def xa (t : Strand) : Desig → Word
  | .x n => t.getX n
  | _ => 0

/-- The slice that owns a scalar register (01 R11). -/
def sliceOfX (n : Fin 64) : Slice := if n.val < 32 then .a else .e

/-- Reuse entries without those that name a register (01 R25). -/
def dropReuse (r : Vector (Option Desig) 3) (d : Desig) : Vector (Option Desig) 3 :=
  r.map fun e => if e = some d then none else e

/-- A register is written: no reuse entry names it any more, and its parity is good (01 R25, 17 R435). -/
def invalidate (t : Strand) (d : Desig) : Strand :=
  { t with reuseA := dropReuse t.reuseA d, reuseE := dropReuse t.reuseE d, badRegs := t.badRegs.filter (· != .reg d) }

/-- A write of a scalar register: discarded at x0 and x32; it clears the register's mark (08 R263). -/
def setX (t : Strand) (n : Fin 64) (w : Word) (m : Option Mark := none) : Strand :=
  if n = 0 ∨ n = 32 then t
  else
    let others := t.marks.filter (fun q => q.1 != n.val)
    ({ t with x := t.x.set n w,
              marks := match m with
                | some k => FMap.set others n.val k
                | none => others,
              oplog := ((Logged.reg (.x n), w.setWidth 4096) :: t.oplog).take 64 }).invalidate (.x n)

/-- A write of a queue or the bobbin enters the operand log (17 R435). -/
def logged (t : Strand) (k : Logged) (v : VReg) : Strand := { t with oplog := ((k, v) :: t.oplog).take 64 }

def getV (t : Strand) (n : Fin 64) : VReg := t.v[n]

def setV (t : Strand) (n : Fin 64) (w : VReg) : Strand := 
  ({ t with v := t.v.set n w, oplog := ((Logged.reg (.v n), w) :: t.oplog).take 64 }).invalidate (.v n)

/-- A predicate register: p7 reads all ones. -/
def getP (t : Strand) (n : Fin 8) : PReg := if n = 7 then BitVec.allOnes 512 else t.p[n]

/-- A write of a predicate register: discarded at p7. -/
def setP (t : Strand) (n : Fin 8) (w : PReg) : Strand :=
  if n = 7 then t
  else ({ t with p := t.p.set n w, oplog := ((Logged.reg (.p n), w.setWidth 4096) :: t.oplog).take 64 }).invalidate (.p n)

def mark? (t : Strand) (n : Fin 64) : Option Mark := FMap.get? t.marks n.val

/-- XSTAT fields (01 R39). -/
def pl (t : Strand) : Bool := t.xstat.getLsbD 2
def ppl (t : Strand) : Bool := t.xstat.getLsbD 3
def inh (t : Strand) : Bool := t.xstat.getLsbD 4
def pinh (t : Strand) : Bool := t.xstat.getLsbD 5
def qf (t : Strand) : Bool := t.xstat.getLsbD 7
/-- HCTL.CHK (01 R29). -/
def chk (t : Strand) : Bool := t.hctl.getLsbD 0

def addPerf (t : Strand) (k : Fin 8) (n : Nat := 1) : Strand :=
  { t with perf := t.perf.set k (t.perf[k] + BitVec.ofNat 64 n) }

def noReuse (t : Strand) : Strand :=
  { t with reuseA := Vector.replicate 3 none, reuseE := Vector.replicate 3 none }

/-- Active loop levels, which are the outermost ones (03 R94). -/
def depth (t : Strand) : Nat := (t.loops.toList.takeWhile (·.active)).length

/-- The strand without a report it held. -/
def dropReport (t : Strand) : ReportKind → Strand
  | .diverge => { t with divRep := none }
  | .guard => { t with guardRep := none }
  | .engine => { t with engRep := none }

def queuesEmpty (t : Strand) : Bool := t.lq.isEmpty && t.saq.isEmpty && t.sdq.isEmpty && t.xq.isEmpty && t.bq.isEmpty

end Strand

def Loop.off : Loop := { active := false, start := 0, stop := 0, count := 0 }

/-- The state a strand starts in (01 R9): everything zero or empty but PC, x1, SBASE, SLIMIT, XVEC and the level. -/
def Strand.start (pc sbase slimit xvec xstat : Word) : Strand :=
  { pc, x := (Vector.replicate 64 (0 : Word)).set 1 slimit, v := Vector.replicate 64 0, p := Vector.replicate 8 0, marks := [],
    lq := [], saq := [], sdq := [], xq := [], bq := [], sbA := Vector.replicate 6 0, sbE := Vector.replicate 6 0,
    reuseA := Vector.replicate 3 none, reuseE := Vector.replicate 3 none, pend := [], reads := [], loads := [], atoms := [],
    stallA := 0, stallE := 0, hintA := false, hintE := false, hintHeld := none, stampA := none, stampE := none, waitA := none,
    waitE := none, seq := 0, qmark := 0, ewin := [], loops := Vector.replicate 4 Loop.off, xpc := 0, xcause := 0, xval := 0, xvec,
    xstat, xscr := Vector.replicate 4 0, sbase, slimit, hctl := 0, perf := Vector.replicate 8 0, cePidx := 0, mePidx := 0,
    fq := [], bobbin := [], turn := 0, turnPc := pc, snap := none, rolled := false, rollback := none, seqlog := [], seqFull := false, replaying := false,
    seqNext := 0, relog := [],
    issue := 0, guardRep := none, engRep := none, divRep := none, watchdog := false, quiet := 0, yielding := none,
    barPend := [], stop := none, passed := false, run := .running, recheck := false, oplog := [], badRegs := [], checker := none,
    next := none, answer := none, held := none, home := .none, bqPopped := [], young := [], early := [] }

/-! ### Streams, as every part of the machine sees them -/

namespace State

def stream? (s : State) (n : Nat) : Option Stream := FMap.get? s.su.streams n
def setStream (s : State) (n : Nat) (t : Stream) : State := { s with su := { s.su with streams := FMap.set s.su.streams n t } }
def updStream (s : State) (n : Nat) (f : Stream → Stream) : State :=
  { s with su := { s.su with streams := FMap.update s.su.streams n f } }

/-- A pending LATE is no longer pending. -/
def dropLate (s : State) (n : Nat) : State := s.updStream n fun t => { t with late := none }

end State

/-! ### The headstock's interrupts and error records -/

namespace State

/-- INTPEND bit `k` set (19 R456). -/
def raiseInt (s : State) (k : Nat) : State :=
  { s with head := { s.head with intpend := s.head.intpend ||| (1#32 <<< k) } }

end State

/-- What an error record says beside its time (17 R449). -/
structure RasRec where
  type : Nat
  sid : Nat := 0
  mask : Nat := 0
  loc : Nat := 0xFFFF
  pasid : BitVec 20 := 0
  taskid : Word := 0
  addr : Word := 0
  xpc : Word := 0
  xcause : Word := 0
  xval : Word := 0
  deriving DecidableEq, Repr

def RasRec.bytes (r : RasRec) (cycle : Nat) : List Byte :=
  leBytes 1 r.type ++ leBytes 1 r.sid ++ leBytes 1 r.mask ++ leBytes 1 0 ++ leBytes 2 r.loc ++ leBytes 2 0 ++
    leBytes 4 r.pasid.toNat ++ leBytes 4 0 ++ leBytes 8 r.taskid.toNat ++ leBytes 8 r.addr.toNat ++
    leBytes 8 r.xpc.toNat ++ leBytes 8 r.xcause.toNat ++ leBytes 8 r.xval.toNat ++ leBytes 8 cycle

/-- An error record appended to the RAS ring, or dropped when the ring is full or disabled (17 R449). -/
def State.ras (s : State) (r : RasRec) : State :=
  let d := s.dev
  if d.rassize = 0 ∨ d.rassize ≤ d.rasput - d.rasget then
    { s with dev := { d with rasdrop := if d.rasdrop = 0xFFFF then d.rasdrop else d.rasdrop + 1 } }
  else
    let a := d.rasbase.toNat + 64 * (d.rasput.toNat % d.rassize.toNat)
    ({ (s.writeLoc a (r.bytes s.cycle)) with dev := { d with rasput := d.rasput + 1 } }).raiseInt 3

/-- TASKID of the task on a tile (05 R150). -/
def Task.id (t : Task) : Word := BitVec.ofNat 64 (t.launch * 2 ^ 32 + t.index)

/-- The fields of an error record that say which strand it concerns. -/
def State.rasFor (s : State) (sid : Nat) (r : RasRec) : RasRec :=
  if isHead sid then { r with sid := numberOf sid }
  else { r with sid := numberOf sid, loc := tileOf sid, pasid := s.pasidOf sid,
                taskid := match s.task? (tileOf sid) with
                  | some t => t.id
                  | none => 0 }

/-! ### Ending a task's work (05 R170, R172) -/

/-- The strands of a tile. -/
def strandIds (t : Nat) : List Nat := (List.range 8).map (8 * t + ·)

def State.running (s : State) (t : Nat) : List Nat := (strandIds t).filter fun i => (s.strand? i).isSome

/-! Semaphores (11 R313 to R315) -/

def Sem.clear : Sem := { v := 0, waiters := [] }

/-- The oldest waiters are granted while the count reaches what they ask for. -/
def grantWaiters (v : BitVec 32) : List SemWaiter → BitVec 32 × List SemWaiter
  | [] => (v, [])
  | w :: ws =>
    if w.granted then
      let r := grantWaiters v ws
      (r.1, w :: r.2)
    else if w.n ≤ v then
      let r := grantWaiters (v - w.n) ws
      (r.1, { w with granted := true } :: r.2)
    else (v, w :: ws)

def Sem.grant (m : Sem) : Sem := { v := (grantWaiters m.v m.waiters).1, waiters := (grantWaiters m.v m.waiters).2 }

/-- The count after an addition: it saturates. -/
def satAdd (a b : BitVec 32) : BitVec 32 := BitVec.ofNat 32 (Nat.min 0xFFFFFFFF (a.toNat + b.toNat))

/-- A strand no longer waits. A SEMWAIT that has been granted has had its effect, v less n, in the semaphore's serial
order (11 R315), and gives nothing back; `over` says that its strand will not go on from it. -/
def Sem.leave (m : Sem) (sid : Nat) (over_ : Bool) : Sem :=
  if m.waiters.any (fun w => w.sid == sid && (over_ || !w.granted)) then
    Sem.grant { v := m.v, waiters := m.waiters.filter fun w => w.sid != sid || (w.granted && !over_) }
  else m

/-- A strand leaves every semaphore it waits at (11 R315). -/
def State.leaveSems (s : State) (sid : Nat) (over_ : Bool := false) : State :=
  { s with clusters := s.clusters.map fun c =>
      (c.1, { c.2 with sems := c.2.sems.map fun q => (q.1, q.2.leave sid over_) }) }

/-- The strand's SEMWAIT has been granted: the instruction is complete but for its own retirement. -/
def State.semGranted (s : State) (sid : Nat) : Bool :=
  s.clusters.any fun c => c.2.sems.any fun q => q.2.waiters.any fun w => w.sid == sid && w.granted

/-- The home-path instructions that change a bolt: opcode and operands (13 R357). A TMLOAD is not among them: what it adds
to its task's translation memory ends with the task. -/
def boltChange : Instr → Option (BitVec 10 × FormQ)
  | .bnew f => some (0x280, f)
  | .brsv f => some (0x281, f)
  | .bcmt f => some (0x282, f)
  | .bvoid f => some (0x283, f)
  | .bfork f => some (0x286, f)
  | .bhold f => some (0x287, f)
  | .brel f => some (0x288, f)
  | .bretire f => some (0x28B, f)
  | .bpinPin f => some (0x28C, f)
  | .bpinUnpin f => some (0x28C, f)
  | _ => none

/-- The operation a strand has sent to its home, where it waits (13 R358); a headstock BRSV whose run is reserved waits for
its copy alone. -/
def State.atHome (s : State) (sid : Nat) : Option LateOp := do
  let t ← s.strand? sid
  let w ← t.waitA
  let q ← boltChange w.instr
  if (w.why = .home ∨ w.why = .gathered) ∧ !(s.cows.any fun c => c.2.sid == sid && c.2.slot.isNone) then
    some { opc := q.1, aux := q.2.aux, a := t.xa q.2.a, b := t.xa q.2.b, c := t.xa q.2.c, pasid := s.pasidOf sid, wait := t.home }
  else none

/-- A strand ends: what it has sent to a unit is performed all the same, and answers nobody (13 R358, 14 R401). -/
def State.leaveUnits (s : State) (sid : Nat) : State :=
  { s with
    late := s.late ++ (s.atHome sid).toList
    cows := s.cows.filterMap fun q =>
      if q.2.sid = sid ∧ q.2.slot = none then
        (if q.2.landed.isSome then none else some (q.1, { q.2 with slot := some (0, 0), task := (0, 0) }))
      else some q
    su := { s.su with streams := s.su.streams.map fun q => (q.1, { q.2 with inbox := q.2.inbox.map fun o =>
      match o with
      | .unpick (some k) => if k = sid then .unpick none else o
      | o => o }) } }

/-- A strand goes with what it waits for (11 R315). -/
def State.lose (s : State) (sid : Nat) : State := ((s.leaveUnits sid).leaveSems sid true).dropStrand sid

/-- The strands and engines of a tile's task stop, as a cancellation stops them: queued entries, loop levels and
unstarted commands are lost with them, their slots are never signalled, the token FIFOs are emptied (05 R170). -/
def State.haltTask (s : State) (t : Nat) : State :=
  let s := (strandIds t).foldl State.lose s
  s.updTask t fun k => { k with ceq := [], meq := [], fifo := Vector.replicate 6 0, oplines := [] }

/-- A task is to end as FAILED by a cause (05 R172): no strand of it issues, and the loom ends it at TASK_COMPLETE. -/
def State.failTask (s : State) (t : Nat) (code : Nat) : State :=
  s.updTask t fun k => if k.failedBy.isSome then k else { k with failedBy := some code }

/-! ### Taking a trap and returning from one -/

/-- What entering the handler does to the strand itself (01 R35): the address of the instruction is saved, the cause
and value are recorded, the level and the hold bit are saved and set, the queues are frozen, the reuse entries are
invalidated, and the handler is next. -/
def Strand.enter (t : Strand) (pc : Word) (cause sub : BitVec 8) (val : BitVec 56) : Strand :=
  let x0 := putBit t.xstat 3 t.pl
  let x1 := putBit x0 2 true
  let x2 := putBit x1 5 t.inh
  let x3 := putBit x2 4 true
  ({ t with xpc := pc, xcause := cause.setWidth 64, xval := sub ++ val, xstat := putBit x3 7 true,
            hctl := if cause = 0x02 then putBit t.hctl 0 false else t.hctl,
            pc := t.xvec, hintHeld := if cause = 0x02 then t.hintHeld else none, hintA := false, hintE := false, stampA := none, stampE := none, waitA := none, waitE := none,
            passed := false,
            stop := none, stallA := 0, stallE := 0, next := none, answer := none, held := none }).noReuse

/-- Failed headstock firmware is restarted from its verified image (20 R480); the strands stop first (01 R10). -/
def State.headFailed (s : State) : State :=
  let s := (List.range 4).foldl (fun s k => s.lose (1536 + k)) s
  { s with head := { s.head with failed := true } }

/-- Taking a trap on the strand `sid`, whose record is `t`, at the instruction at `pc` (01 R35). While INH is set, or
with no handler, it is a double trap: the strand stops with XPC, XCAUSE and XVAL unchanged, its task ends FAILED, and
the headstock is told (01 R10, R36, 16 R420). -/
def takeTrap (s : State) (sid : Nat) (t : Strand) (pc : Word) (cause sub : BitVec 8) (val : BitVec 56) : State :=
  if t.inh = true ∨ t.xvec = 0 then
    let r := s.rasFor sid { type := 0x07, xpc := pc, xcause := cause.setWidth 64, xval := sub ++ val }
    if isHead sid then (s.ras r).headFailed
    else ((s.ras r).lose sid).failTask (tileOf sid) (0x100 + cause.toNat)
  else (s.leaveSems sid).setStrand sid (t.enter pc cause sub val)

/-- Returning from a handler (01 R38). -/
def Strand.leave (t : Strand) : Strand :=
  let x0 := putBit t.xstat 2 t.ppl
  let x1 := putBit x0 4 t.pinh
  ({ t with xstat := putBit x1 7 false, pc := t.xpc, hintHeld := t.hintHeld.filter (·.1 == t.xpc) }).noReuse

end Sys2Proof.Machine
end

