-- ==== Sys2Proof/Machine/Operands.lean ====
section
/-! DEFINITION. Operand forms: which registers a word's fields name (02 R55, R181, R323), immediates and branch targets
(02 R48, R49, 03 R74), effective addresses (02 R51), pops of the slice queues (01 R15, R16), source modifiers (02 R58,
R59) and the result latencies the entries give. -/

namespace Sys2Proof.Machine

open Decode

/-! ### The registers of a word -/

/-- The registers a field names: one, or a group or range of consecutive ones (06 R181, 12 R323). -/
def regsOf (c : BitVec 8) : Pos → List Desig
  | .none => []
  | .group n => (List.range n).map fun k => .x (Fin.ofNat 64 (c.toNat + k))
  | .vrange n => (List.range n).map fun k => .v (Fin.ofNat 64 (c.toNat + k))
  | _ => match desigOf c with
    | .lq | .xq => []
    | d => [d]

/-- What a word reads and writes, by position (01 R27, R28). No field names the registers `extra`, which it reads, and
`hid`, which it writes. -/
structure Use where
  a : List Desig
  b : List Desig
  c : List Desig
  d : List Desig
  extra : List Desig
  hid : List Desig
  reusable : Vector (Option Desig) 3   -- the register, or the first of a group, read at a, b, c (01 R25)
  codes : Vector (BitVec 8) 3
  deriving DecidableEq, Repr

/-- Position c of VQNT is the flag predicate, which it writes (06 R194). -/
def writesC (opc : BitVec 10) : Bool := opc == 0x19A

/-- Instructions that use x1 without naming it: CALL, CALLI and RET (03 R92). -/
def usesSp (opc : BitVec 10) : Bool := opc == 0x084 || opc == 0x085 || opc == 0x086

def single (c : BitVec 8) (q : Pos) : Option Desig :=
  match q with
  | .none => none
  | _ => match desigOf c with
    | .lq | .xq => none
    | d => some d

def useOf (r : Raw) : Use :=
  match rowOf r.opc with
  | none => { a := [], b := [], c := [], d := [], extra := [], hid := [], reusable := Vector.replicate 3 none,
              codes := Vector.replicate 3 0 }
  | some e =>
    let c := if writesC r.opc then [] else regsOf r.c (e.c r)
    { a := regsOf r.a (e.a r), b := regsOf r.b (e.b r), c,
      d := regsOf r.d (e.d r) ++ (if writesC r.opc then regsOf r.c (e.c r) else []),
      extra := (if flag r.ax then [] else [Desig.p (Fin.ofNat 8 r.pred.toNat)]) ++ (if usesSp r.opc then [.x 1] else []),
      hid := if usesSp r.opc then [.x 1] else [],
      reusable := #v[single r.a (e.a r), single r.b (e.b r), if writesC r.opc then none else single r.c (e.c r)],
      codes := #v[r.a, r.b, r.c] }

/-- Whether a word pops lq or xq. -/
def popsQueue (r : Raw) : Bool :=
  !flag r.ax && (match rowOf r.opc with
    | none => false
    | some e => [(r.a, e.a r), (r.b, e.b r), (r.c, e.c r)].any fun q => posUsed q.2 && isQ q.1)

/-- How often a word of E names a queue as a source: 0x90 is lq, 0x91 xq (01 R16). -/
def qpopsOf (i : Instr) (code : BitVec 8) : Nat := match rawOf i with
  | none => 0
  | some r => match rowOf r.opc with
    | none => 0
    | some e => if flag r.ax then 0
      else ([(r.a, e.a r), (r.b, e.b r), (r.c, e.c r)].filter fun q => posUsed q.2 && q.1 == code).length

/-! ### Result latencies (03 R76, R78, R84, R89; 06 R183; 09 R272; 12 R322; 13 R358) -/

/-- The latency of a result: fixed, in control cycles, or variable. A pop issues once its data has arrived, so that only
class 3 counts it as of variable latency (01 R22, 03 R76, 06 R183). -/
inductive Lat | fixed (n : Nat) | var
  deriving DecidableEq, Repr

def isFType (r : Raw) : Bool := typeOk tF r.type

def latOf (r : Raw) : Lat :=
  if popsQueue r && decide (0x180 ≤ r.opc.toNat) then .var else
  match r.opc.toNat with
  | 0x002 | 0x003 | 0x004 | 0x005 => .fixed 3
  | 0x006 | 0x007 | 0x008 | 0x009 => .var
  | 0x040 | 0x041 | 0x042 | 0x044 => .fixed 4
  | 0x043 | 0x045 | 0x046 => .fixed 2
  | 0x090 => .fixed 2
  | 0x08A | 0x092 | 0x095 | 0x096 => .var
  | 0x180 | 0x181 => if isFType r then .fixed 4 else .fixed 2
  | 0x182 | 0x183 | 0x184 | 0x185 => if isFType r then .fixed 4 else .fixed 3
  | 0x186 | 0x187 | 0x188 | 0x189 | 0x18A | 0x18B => .var
  | 0x199 | 0x19D | 0x1A4 | 0x1A5 => .fixed 4
  | 0x19A => if r.type = 0xC then .var else .fixed 6
  | 0x19B | 0x19C | 0x1A6 => .var
  | 0x18C | 0x18D | 0x18E | 0x18F | 0x190 | 0x191 | 0x192 | 0x193 | 0x194 | 0x195 | 0x196 | 0x197 | 0x198 => .fixed 2
  | 0x19E | 0x19F | 0x1A0 | 0x1A1 | 0x1A2 | 0x1A3 | 0x1A7 | 0x1B6 => .fixed 2
  | 0x215 => .var
  | 0x225 | 0x227 => .var
  | 0x289 => .fixed 4
  | n =>
    if 0x200 ≤ n ∧ n < 0x280 then .fixed 2
    else if 0x100 ≤ n ∧ n < 0x180 then .var
    else if 0x280 ≤ n then .var
    else .fixed 1

/-! ### Immediates and targets -/

/-- Extension of IMM32 to 64 bits (02 R49). -/
def immVal (f : FormS) : Word := if f.zx then f.imm32.setWidth 64 else f.imm32.signExtend 64

/-- A branch target (02 R48): PC + 16 x IMM32, modulo 2^64. -/
def branchTarget (pc : Word) (imm32 : BitVec 32) : Word := pc + (imm32.signExtend 64 <<< 4)

/-- An address is canonical when bits [63:56] are zero (03 R90). -/
def canonical (a : Word) : Bool := a.extractLsb' 56 8 == 0

/-! ### Access-slice operands -/

namespace Strand

def markOf (t : Strand) : Desig → Option Mark
  | .x n => t.mark? n
  | _ => none

/-- A write to a destination designator. -/
def putD (t : Strand) (d : Desig) (w : Word) (m : Option Mark := none) : Strand :=
  match d with
  | .x n => t.setX n w m
  | _ => t

end Strand

/-- The registers must carry no poison mark: the first that does raises DATA (08 R263, 09 R276). -/
def noMarks (t : Strand) (ds : List Desig) : Res Unit :=
  match ds.findSome? t.markOf with
  | some m => .error (dataTrap m)
  | none => .ok ()

/-- The designator of the register `k` places after a group's first (12 R323). -/
def Desig.plus (d : Desig) (k : Nat) : Desig :=
  match d with
  | .x n => .x (Fin.ofNat 64 (n.val + k))
  | .v n => .v (Fin.ofNat 64 (n.val + k))
  | d => d

/-- Effective address of format M (02 R51): `sh` is log2 of the access size, 9 for vector rows (09 R274). -/
def effAddr (t : Strand) (f : FormM) (sh : Nat) : Word :=
  let base := t.xa f.a + f.imm32.signExtend 64
  match f.amode with
  | .disp => base
  | .index => base + t.xa f.b
  | .scaled => base + (t.xa f.b <<< sh)

/-- The address of an atomic (02 R51): AMODE is 0, B holds the operand. -/
def atomAddr (t : Strand) (f : FormM) : Word := t.xa f.a + f.imm32.signExtend 64

/-! ### Pops (01 R15, R16, R37) -/

/-- An operand value as it was read, with the mark it carried and the strand after its pop. -/
structure Read (α : Type) where
  val : α
  mark : Option Mark
  rest : Strand

def frozen (t : Strand) : Res Unit := need (!t.qf) (queueTrap 2)

/-- DATA on a register operand ranks above QUEUE FROZEN (01 R33): a frozen word that executes looks at its registers first. -/
def frozenMarks (t : Strand) (on : Bool) (ds : List Desig) : Res Unit := if t.qf && on then noMarks t ds else .ok ()

def popLq (t : Strand) : Res (Read VReg) := do
  frozen t
  match t.lq with
  | [] => .error (stall .lqEmpty)
  | e :: q =>
    match e.data with
    | none => .error (stall .lqData)
    | some v => .ok { val := v, mark := e.mark, rest := { t with lq := q } }

def popXq (t : Strand) : Res (Read Word) := do
  frozen t
  match t.xq with
  | [] => .error (stall .xqEmpty)
  | e :: q => .ok { val := e.data, mark := e.mark, rest := { t with xq := q } }

/-- A scalar source of the execute slice: bytes 0 to 7 of an lq entry, an xq entry, or a register (01 R16). -/
def readScalar (t : Strand) (d : Desig) : Res (Read Word) :=
  match d with
  | .lq => do
    let r ← popLq t
    .ok { val := r.val.setWidth 64, mark := r.mark, rest := r.rest }
  | .xq => popXq t
  | .x n => .ok { val := t.getX n, mark := t.mark? n, rest := t }
  | _ => .ok { val := 0, mark := none, rest := t }

/-- A vector source: a vector register or an lq entry, zero-extended (01 R16). -/
def readVector (t : Strand) (d : Desig) : Res (Read VReg) :=
  match d with
  | .lq => popLq t
  | .v n => .ok { val := t.getV n, mark := none, rest := t }
  | _ => .ok { val := 0, mark := none, rest := t }

/-! ### Source modifiers (02 R58, R59) -/

/-- 32-bit lane `l` of a vector. -/
def lane (v : VReg) (l : Nat) : BitVec 32 := v.extractLsb' (32 * l) 32

/-- The vector of 128 lanes. -/
def ofLanes (f : Nat → BitVec 32) : VReg :=
  BitVec.ofNat 4096 ((List.range 128).foldr (fun l acc => (f l).toNat + 2 ^ 32 * acc) 0)

/-- The source lane of result lane `i` (02 R59). -/
def modLane (m : SrcMod) (i : Nat) : Nat :=
  let seg (s : BitVec 3) := segOf s
  match m with
  | .none => i
  | .rot s d => i - i % seg s + (i % seg s + d.toNat) % seg s
  | .bfly s d => i - i % seg s + ((i % seg s) ^^^ d.toNat)
  | .bcast s d => i - i % seg s + d.toNat

def applyMod (m : SrcMod) (v : VReg) : VReg :=
  match m with
  | .none => v
  | m => ofLanes fun i => lane v (modLane m i)

/-- The governing predicate after PNEG (01 R21, 06 R178). -/
def govern (t : Strand) (g : Gate) : PReg := if g.pneg then ~~~(t.getP g.pred) else t.getP g.pred

/-- A scalar instruction, and one gated as a whole, runs when bit 0 is 1 (01 R21, 06 R178). -/
def gateOn (t : Strand) (g : Gate) : Bool := (govern t g).getLsbD 0

/-- Negated p7: a no-op (01 R18, 06 R178). -/
def gateNever (g : Gate) : Bool := g.pneg && g.pred == 7

end Sys2Proof.Machine
end

