-- ==== Sys2Proof/Machine/Flags.lean ====
section
/-! DEFINITION. The flags an issue sets: the wrong hints of 01 R27 and R28, as HCTL and PERF4 count them or as cause HINT
reports them. -/

namespace Sys2Proof.Machine

open Decode

/-- XVAL of cause HINT (01 R28). -/
def Hint.val (h : Hint) : BitVec 56 :=
  BitVec.ofNat 56 (h.code.toNat + (if h.extra then 2 ^ 10 else 2 ^ 8 * h.pos))

/-- A register waits for a fixed-latency result. -/
def pendFixed (t : Strand) (cycle : Nat) (d : Desig) : Bool :=
  t.pend.any fun p => p.regs.contains d && (match p.ready with
    | some c => decide (cycle < c)
    | none => false)

/-- A register waits for a variable-latency result. -/
def pendVar (t : Strand) (d : Desig) : Bool := t.pend.any fun p => p.regs.contains d && p.ready.isNone

/-- A register is still to be read by an older instruction of variable latency (01 R26). -/
def pendRead (t : Strand) (d : Desig) : Bool := t.reads.any (·.regs.contains d)

/-- RSB hint of a register the instruction writes (01 R27). -/
def dstHints (t : Strand) (pos : Nat) (d : Desig) (extra : Bool := false) : List Hint :=
  if pendRead t d then [{ sub := 3, pos, code := desigCode d, extra }] else []

/-- STALL and WSB hints of one source register (01 R27). -/
def srcHints (t : Strand) (cycle pos : Nat) (extra : Bool) (d : Desig) : List Hint :=
  let h (sub : BitVec 8) : Hint := { sub, pos, code := desigCode d, extra }
  (if pendFixed t cycle d then [h 1] else []) ++ (if pendVar t d then [h 2] else [])

/-- REUSE and REUSEX hints of one position (01 R25, R27). -/
def reuseHints (r : Raw) (u : Use) (reuse : Vector (Option Desig) 3) (j : Fin 3) : List Hint :=
  if r.reuse.getLsbD j.val then
    match u.reusable[j] with
    | none => [{ sub := 5, pos := j.val, code := u.codes[j], extra := false }]
    | some d => if reuse[j] = some d then [] else [{ sub := 4, pos := j.val, code := desigCode d, extra := false }]
  else []

/-- The wrong hints at one operand position, by ascending register: a reuse entry names the first of a group. -/
def posHints (t : Strand) (cycle : Nat) (r : Raw) (u : Use) (j : Fin 3) (regs : List Desig) : List Hint :=
  let reuse := if flag r.ax then t.reuseA else t.reuseE
  regs.take 1 |>.flatMap (srcHints t cycle j.val false) |>.append (reuseHints r u reuse j)
    |>.append ((regs.drop 1).flatMap (srcHints t cycle j.val false))

/-- The wrong hints of an instruction, in the order of 01 R28. -/
def hints (t : Strand) (cycle : Nat) (r : Raw) (u : Use) : List Hint :=
  posHints t cycle r u 0 u.a ++ posHints t cycle r u 1 u.b ++ posHints t cycle r u 2 u.c ++
    (if writesC r.opc then (u.d.drop 1).flatMap (dstHints t 2) ++ (u.d.take 1).flatMap (dstHints t 3)
      else u.d.flatMap (dstHints t 3)) ++ (u.extra.flatMap (srcHints t cycle 0 true)) ++
    u.hid.flatMap (dstHints t 0 · true)

/-- HCTL and PERF4 after corrected wrong hints (01 R28, R29): HFIX saturates, HLAST is the last one's subcode. -/
def countHints (t : Strand) (hs : List Hint) : Strand :=
  match hs.getLast? with
  | none => t
  | some l =>
    let fix := Nat.min 0xFFFF (bits t.hctl 16 16 + hs.length)
    let w := BitVec.ofNat 64 (fix * 2 ^ 16 + (l.sub.toNat % 16) * 2 ^ 4 + bits t.hctl 0 1)
    { t with hctl := w, perf := t.perf.set 4 (t.perf[4] + BitVec.ofNat 64 hs.length) }

end Sys2Proof.Machine
end

