-- ==== Sys2Proof/Machine/Access.lean ====
section
/-! DEFINITION. Addresses: the map of 07 R232, page tables and TLBs (07 R234 to R236), host memory (20 R465), fabric
windows (07 R233, 20 R490), and the checks of 09 R274. -/

namespace Sys2Proof.Machine

/-- Who makes an access: its tile (192 for the headstock, 193 for a unit of the device), its strand if it is one, its
context and level; and whether the tile's L1 serves its loads, as it does a strand's but not an engine's. -/
structure Agent where
  tile : Nat
  sid : Option Nat
  pasid : BitVec 20
  user : Bool
  l1 : Bool := false
  deriving DecidableEq, Repr

def Agent.head (a : Agent) : Bool := a.tile == 192

/-- An agent that stands on no tile. -/
def Agent.off (a : Agent) : Bool := decide (192 ≤ a.tile)

/-- What an access does, as permissions see it (07 R236); a probe asks for R or W and writes nothing (09 R285). -/
inductive Acc | fetch | load | store | atomic | probe
  deriving DecidableEq, Repr

/-- The outcome of a translation: an entry, a fault with its XLATE subcode, or a page request sent to the host whose
answer is awaited. -/
inductive Xlate | ok (e : TlbEnt) | fault (sub : BitVec 8) | pri
  deriving DecidableEq, Repr

/-! ### Context control blocks (20 R468, R470) -/

/-- First location of the CCB of a context, when the PASID table has a valid, resident entry for it. -/
def ccbOf (s : State) (pasid : BitVec 20) : Option Nat :=
  let loc := s.dev.qtroot.toNat + 8 * pasid.toNat
  let e : Word := BitVec.ofNat 64 (s.readLocNat loc 8)
  if e.getLsbD 0 && e.getLsbD 1 && bits e 52 12 == 0 && bits e 3 3 == 0 then some (bits e 6 46 * 64) else none

/-- The A bit of an entry a walk used (20 R470, 07 R235). -/
def setA (s : State) (loc : Nat) : State :=
  s.writeLoc loc [(s.readLoc loc 1).headD 0 ||| 4]

/-- The A bit of a context's PASID table entry. -/
def useCcb (s : State) (pasid : BitVec 20) : State := setA s (s.dev.qtroot.toNat + 8 * pasid.toNat)

/-- A CCB with every reserved field zero (20 R468). -/
def ccbValid (s : State) (ccb : Nat) : Bool :=
  s.readLocNat (ccb + 0x24) 4 / 4 == 0 && (s.readLoc (ccb + 0x3C) 196).all (· == 0) &&
    s.readLocNat (ccb + 0x28) 8 % 2 ^ 40 == 0

def ccbField (s : State) (pasid : BitVec 20) (off n : Nat) : Nat :=
  match ccbOf s pasid with
  | some c => if ccbValid s c then s.readLocNat (c + off) n else 0
  | none => 0

def ccbPtroot (s : State) (p : BitVec 20) : Nat := ccbField s p 0x00 8
def ccbQtab (s : State) (p : BitVec 20) : Nat := ccbField s p 0x08 8
def ccbRecbase (s : State) (p : BitVec 20) : Nat := ccbField s p 0x10 8
def ccbSavebase (s : State) (p : BitVec 20) : Nat := ccbField s p 0x18 8
def ccbNsave (s : State) (p : BitVec 20) : Nat := ccbField s p 0x20 4
def ccbLockstep (s : State) (p : BitVec 20) : Bool := ccbField s p 0x24 4 % 2 == 1
def ccbDomain (s : State) (p : BitVec 20) : Bool := ccbField s p 0x24 4 / 2 % 2 == 1
def ccbHosttop (s : State) (p : BitVec 20) : Nat := ccbField s p 0x28 8
def ccbCbt (s : State) (p : BitVec 20) : Nat := ccbField s p 0x30 8
def ccbNcb (s : State) (p : BitVec 20) : Nat := ccbField s p 0x38 4

/-! ### Page tables (07 R234, R235) -/

/-- The levels of a walk: level number, lowest VA bit indexed, index bits. -/
def walkLevels : List (Nat × Nat × Nat) := [(4, 47, 9), (3, 38, 9), (2, 29, 9), (1, 23, 6), (0, 17, 6)]

def pteV (e : Word) : Bool := e.getLsbD 0
def pteL (e : Word) : Bool := e.getLsbD 1
def pteA (e : Word) : Bool := e.getLsbD 2
def pteD (e : Word) : Bool := e.getLsbD 3
def pteTier (e : Word) : Bool := e.getLsbD 57
def pteNc (e : Word) : Bool := e.getLsbD 58
def pteU (e : Word) : Bool := e.getLsbD 59
def pteR (e : Word) : Bool := e.getLsbD 60
def pteW (e : Word) : Bool := e.getLsbD 61
def pteX (e : Word) : Bool := e.getLsbD 62

/-- FRAME as a physical address. -/
def pteFrame (e : Word) : Nat := bits e 9 43 * 512

/-- The device register window that only the headstock may map (20 R466). -/
def regBase : Nat := 0x10000000000
def regSize : Nat := 0x4000000

def isRegFrame (e : Word) : Bool := pteTier e && decide (regBase ≤ pteFrame e) && decide (pteFrame e < regBase + regSize)

/-- Whether a leaf's page lies inside its tier (07 R235), or in the headstock's register window (20 R466). -/
def leafInside (e : Word) (size : Nat) (head : Bool) : Bool :=
  if head && isRegFrame e then pteNc e && decide (pteFrame e + size ≤ regBase + regSize)
  else decide (pteFrame e + size ≤ if pteTier e then tier1Size else tier0Size)

/-- A valid, well-formed entry at a level (07 R235). -/
def pteOk (e : Word) (level lowBit : Nat) (head : Bool) : Bool :=
  pteV e && !e.getLsbD 63 && bits e 52 5 == 0 && bits e 4 5 == 0 &&
    (if pteL e then
      decide (level ≤ 2) && pteFrame e % 2 ^ lowBit == 0 && leafInside e (2 ^ lowBit) head
    else
      level != 0 && bits e 57 6 == 0 && bits e 2 2 == 0 && pteFrame e % (if 3 ≤ level then 4096 else 512) == 0)

/-- A walk from a table (07 R234): the leaf's entry, with its A bit set. -/
def walkFrom (s : State) (pasid : BitVec 20) (va table : Nat) (head : Bool) : List (Nat × Nat × Nat) → Option TlbEnt
  | [] => none
  | (level, low, nbits) :: rest =>
    let loc := table + 8 * (va / 2 ^ low % 2 ^ nbits)
    let e : Word := BitVec.ofNat 64 (s.readLocNat loc 8)
    if tier0Size ≤ loc then none
    else if pteOk e level low head then
      if pteL e then
        some { pasid, base := va / 2 ^ low * 2 ^ low, size := 2 ^ low,
               frame := (if pteTier e then tier1Base else 0) + pteFrame e, pte := e, pteLoc := loc }
      else walkFrom s pasid va (pteFrame e) head rest
    else none

/-! ### TLBs (07 R236) -/

def TlbEnt.covers (e : TlbEnt) (pasid : BitVec 20) (va : Nat) : Bool :=
  e.pasid == pasid && decide (e.base ≤ va) && decide (va < e.base + e.size)

def tlbFind (l : List TlbEnt) (pasid : BitVec 20) (va : Nat) : Option TlbEnt := l.find? (·.covers pasid va)

/-- An entry added, newest first; the oldest leaves a full TLB (log 11). -/
def tlbAdd (l : List TlbEnt) (cap : Nat) (e : TlbEnt) : List TlbEnt :=
  (e :: l.filter fun f => !(f.pasid == e.pasid && f.base == e.base)).take cap

/-- An entry with D = 0 does not serve a write, whatever its permissions: the write walks again (07 R236). -/
def tlbServes (e : TlbEnt) (acc : Acc) : Bool :=
  match acc with
  | .store | .atomic => pteD e.pte
  | _ => true

/-- The checks of an entry, in the order of 07 R236. -/
def permFault (e : Word) (user : Bool) (acc : Acc) : Option (BitVec 8) :=
  if !pteU e && user then some 4
  else match acc with
    | .fetch => if pteX e then none else some 3
    | .load => if pteR e then none else some 1
    | .store => if pteW e then none else some 2
    | .atomic => if !pteW e then some 2 else if !pteR e then some 1 else none
    | .probe => if pteR e || pteW e then none else some 1

def isWrite : Acc → Bool
  | .store | .atomic => true
  | _ => false

/-- The TLBs an agent's translations are kept in; the headstock keeps none. -/
def State.tlbHit (s : State) (a : Agent) (va : Nat) : Option TlbEnt :=
  if a.off then none
  else match tlbFind (s.tile a.tile).tlb a.pasid va with
    | some e => some e
    | none => tlbFind (s.cluster (a.tile / 8)).tlb a.pasid va

def State.tlbFill (s : State) (a : Agent) (e : TlbEnt) : State :=
  if a.off then s
  else
    let s := s.updTile a.tile fun t => { t with tlb := tlbAdd t.tlb 256 e }
    s.setCluster (a.tile / 8) { s.cluster (a.tile / 8) with tlb := tlbAdd (s.cluster (a.tile / 8)).tlb 8192 e }

/-- A page of host memory as ATS gives it, a leaf: R and W of the completion, U = 1, NC = 1 (20 R465). -/
def hostPte (h : HostPage) : Word := putBit (putBit 0x0C0000000000000F 60 h.r) 61 h.w

/-- Where the pages of a context's host memory lie in the map of log 3. -/
def hostLoc (pasid : BitVec 20) (va : Nat) : Nat := hostBase + pasid.toNat * 2 ^ 56 + va

/-- Translation by a walk, or by ATS below HOSTTOP (07 R235, R236; 20 R465). -/
def walk (s : State) (a : Agent) (va : Nat) (acc : Acc) : Xlate × State :=
  match ccbOf s a.pasid with
  | none => (.fault 1, s)
  | some c =>
    let s := useCcb s a.pasid
    if !ccbValid s c then (.fault 1, s)
    else if va < ccbHosttop s a.pasid then
      let page := va / 2 ^ 17
      match s.out.hostPages.find? fun h => h.pasid == a.pasid && h.page == page with
      | some h =>
        let e : TlbEnt := { pasid := a.pasid, base := page * 2 ^ 17, size := 2 ^ 17,
                            frame := hostLoc a.pasid (page * 2 ^ 17), pte := hostPte h, pteLoc := 0 }
        (.ok e, s.tlbFill a e)
      | none =>
      if s.out.priFail.contains (a.pasid, page) then
        (.fault 1, { s with out := { s.out with priFail := s.out.priFail.filter (· != (a.pasid, page)) } })
      else if s.out.priOut.contains (a.pasid, page) then (.pri, s)
      else (.pri, { s with out := { s.out with priOut := s.out.priOut ++ [(a.pasid, page)] } })
    else
      match walkFrom s a.pasid va (ccbPtroot s a.pasid) a.head walkLevels with
      | none => (.fault 1, s)
      | some e =>
        let dirty := isWrite acc && pteW e.pte && (permFault e.pte a.user acc).isNone
        let pte := e.pte ||| 4 ||| (if dirty then 8 else 0)
        let s := s.writeLoc e.pteLoc [(s.readLoc e.pteLoc 1).headD 0 ||| 4 ||| (if dirty then 8 else 0)]
        let e := { e with pte }
        (.ok e, s.tlbFill a e)

/-- Translation of a general-memory address, its permissions checked (07 R236). -/
def translate (s : State) (a : Agent) (va : Nat) (acc : Acc) : Xlate × State :=
  let r := match s.tlbHit a va with
    | some e => if tlbServes e acc then (Xlate.ok e, s) else walk s a va acc
    | none => walk s a va acc
  match r.1 with
  | .ok e => match permFault e.pte a.user acc with
    | some sub => (.fault sub, r.2)
    | none => r
  | _ => r

/-! ### The address map (07 R232) -/

/-- One 64 KiB chunk at most: every boundary of a page or window is a multiple of it. -/
def chunkEnd (a : Nat) : Nat := a / 0x10000 * 0x10000 + 0x10000

/-- The task's scratchpad in bytes. -/
def spadBytes (s : State) (tile : Nat) : Nat := match s.task? tile with
  | some t => (t.part.extractLsb' 16 8).toNat * 0x10000
  | none => 0

/-- What the piece [va, va + len) inside one chunk names, or the XLATE subcode and the address of the fault. -/
inductive Where | part (p : Part) | bad (sub : BitVec 8) (va : Nat) | pri
  deriving DecidableEq, Repr

/-- A piece of the scratchpad window: `port` accesses are told apart by the caller (07 R216, R221). -/
def spadPart (s : State) (a : Agent) (va len : Nat) : Where :=
  let o := va - 0x00FFF00000000000
  if a.off then .bad 5 va
  else if o < spadBytes s a.tile then .part { va, loc := spadLoc a.tile o, len, space := .spad, nc := true }
  else if 0x800000 ≤ o ∧ o < 0x810000 then .part { va, loc := o, len, space := .port, nc := true }
  else .bad 5 va

/-- A piece of a cluster shared window (07 R227). -/
def windowPart (s : State) (va len : Nat) : Where :=
  let o := va - 0x00FFE00000000000
  let c := o / 0x4000000
  let w := o % 0x4000000
  if w < (s.cluster c).win * 0x400000 then .part { va, loc := windowLoc c w, len, space := .window, nc := true }
  else .bad 5 va

/-- The line of the tile's L1 that holds every byte of a load from the fabric window, in the load's context: such a load
is not checked again (07 R233). -/
def fabricHeld (s : State) (a : Agent) (va len : Nat) (acc : Acc) : Option Part :=
  if acc ≠ .load ∨ a.off ∨ !a.l1 then none
  else match s.task? a.tile with
    | none => none
    | some t => match t.l1.find? (fun q => q.2.fabric && q.2.pasid == a.pasid && q.2.va == va / 128 * 128) with
      | none => none
      | some q =>
        if va % 128 + len ≤ 128 ∧ (List.range len).all (fun k => q.2.present.getLsbD (va % 128 + k)) then
          some { va, loc := 128 * q.1 + va % 128, len, space := .fabric, nc := false }
        else none

/-- The subcode with which another device refuses a read, or a write, of a page of it. -/
def refuses (s : State) (a : Agent) (n off : Nat) (write : Bool) : Option (BitVec 8) :=
  (s.out.refused.find? fun r => r.dev == n && r.page == off / 2 ^ 17 && r.write == write && r.user == a.user).map (·.sub)

/-- What another device answers to an access of a page of it (07 R233): the subcode it refuses with. An atomic writes and
reads (07 R236, 09 R290); a probe is refused where both are (09 R285). -/
def refusal (s : State) (a : Agent) (n off : Nat) (acc : Acc) : Option (BitVec 8) :=
  let w := refuses s a n off true
  let r := refuses s a n off false
  match acc with
  | .load | .fetch => r
  | .store => w
  | .atomic => w <|> r
  | .probe => if w.isSome then r else none

/-- A piece of the fabric window (07 R233, 20 R490): bit 39 of the offset is the collective aperture. DESIGN CHOICE (log 105):
NC in another device's tables does not keep its lines out of the L1; NC in this device's own does. -/
def fabricPart (s : State) (a : Agent) (va len : Nat) (acc : Acc) : Where × State :=
  let n := va / 2 ^ 40 % 2 ^ 11
  let off := va % 2 ^ 40
  if va / 2 ^ 51 % 2 = 1 then (.bad 5 va, s)
  else if acc = .fetch then (.bad 3 va, s)
  else if 1151 < n then (.bad 6 va, s)
  else match fabricHeld s a va len acc with
  | some p => (.part p, s)
  | none =>
  if n ≠ s.out.devNum then
    if s.out.ports = 0 ∨ !s.out.reach.contains n then (.bad 6 va, s)
    else match refusal s a n off acc with
      | some sub => (.bad sub va, s)
      | none => (.part { va, loc := deviceLoc n off, len, space := .fabric, nc := false }, s)
  else if 2 ^ 39 ≤ off then (.part { va, loc := deviceLoc n off, len, space := .fabric, nc := false }, s)
  else if !ccbDomain s a.pasid || decide (off < ccbHosttop s a.pasid) then (.bad 1 va, s)
  else
    match translate s a off acc with
    | (.ok e, s) => (.part { va, loc := e.frame + (off - e.base), len, space := .fabric, nc := pteNc e.pte }, s)
    | (.fault sub, s) => (.bad sub va, s)
    | (.pri, s) => (.bad 1 va, s)

/-- A piece of an access inside one chunk (07 R232). -/
def locate (s : State) (a : Agent) (va len : Nat) (acc : Acc) : Where × State :=
  if 2 ^ 56 ≤ va then (.bad 5 va, s)
  else if va / 2 ^ 52 = 8 then fabricPart s a va len acc
  else if va < 0x00FF000000000000 then
    match translate s a va acc with
    | (.ok e, s) =>
      (.part { va, loc := e.frame + (va - e.base), len, space := if a.head && isRegFrame e.pte then .device else .general,
               nc := pteNc e.pte }, s)
    | (.fault sub, s) => (.bad sub va, s)
    | (.pri, s) => (.pri, s)
  else if 0x00FFE00000000000 ≤ va ∧ va < 0x00FFE00060000000 then
    if acc = .fetch then (.bad 3 va, s) else (windowPart s va len, s)
  else if 0x00FFF00000000000 ≤ va ∧ va < 0x00FFF00000810000 then
    if acc = .fetch then (.bad 3 va, s) else (spadPart s a va len, s)
  else (.bad 5 va, s)

/-- A cause of XLATE after walks. -/
def walkedXlate (s : State) (sub : BitVec 8) (va : Nat) : Halt :=
  .walked s 0x05 sub ((BitVec.ofNat 64 va : Word).setWidth 56)

/-- Where the piece of an access at `va` ends: chunks, and in the fabric window lines, so that each is held by the L1 or
is not. -/
def pieceEnd (va : Nat) : Nat := if va / 2 ^ 52 = 8 then va / 128 * 128 + 128 else chunkEnd va

/-- The collective aperture (20 R490): bit 39 of a fabric offset. -/
def Part.aperture (p : Part) : Bool :=
  p.space == .fabric && decide (deviceBase ≤ p.loc) && decide (p.loc < deviceBase + 2 ^ 52) && decide (2 ^ 39 ≤ p.loc % 2 ^ 40)

/-- A piece that no access of this shape reaches: the allocator port beside other bytes (07 R221), the collective
aperture in anything but flits (20 R492). -/
def misfit (p : Part) (alone flits : Bool) : Bool := (p.space == .port && !alone) || (p.aperture && !flits)

/-- The pieces of an access, in ascending address order; the first that fails decides (09 R274). The fuel bounds the
number of pieces; `whole` is the length of the access. -/
def pieces (s : State) (a : Agent) (acc : Acc) (flits : Bool) (whole : Nat) : Nat → Nat → Nat → Res (List Part × State)
  | 0, _, _ => .ok ([], s)
  | fuel + 1, va, len =>
    if len = 0 then .ok ([], s)
    else
      let n := Nat.min len (pieceEnd va - va)
      match locate s a va n acc with
      | (.part p, s) =>
        if misfit p (n == whole) flits then .error (walkedXlate s 5 va)
        else do
          let r ← pieces s a acc flits whole fuel (va + n) (len - n)
          .ok (p :: r.1, r.2)
      | (.bad sub at_, s) => .error (walkedXlate s sub at_)
      | (.pri, s) => .error (.hold s .gathered none)

/-- A strand's access to `len` bytes at `ea`: windows and translation (09 R274). An access to the allocator port stands
alone (07 R221). -/
def accessParts (s : State) (a : Agent) (acc : Acc) (ea : Word) (len : Nat) (flits : Bool := false) : Res (List Part × State) :=
  pieces s a acc flits len (len / 128 + 3) ea.toNat len

/-- A unit of the device acting for a context (07 R237). -/
def unitAgent (pasid : BitVec 20) (user : Bool) : Agent := { tile := 193, sid := none, pasid, user }

def agentOf (s : State) (sid : Nat) (t : Strand) : Agent :=
  { tile := if isHead sid then 192 else tileOf sid, sid := some sid, pasid := s.pasidOf sid, user := !t.pl, l1 := true }

/-- The port accepts only whole 8-byte accesses of the kinds 07 R221 names: anything else is NOWINDOW there. -/
def noPort (ps : List Part) : Res Unit :=
  match ps.find? (·.space = .port) with
  | some p => .error (xlateTrap 5 (BitVec.ofNat 64 p.va))
  | none => .ok ()

/-! ### The stack check (01 R40) -/

/-- The first byte of [ea, ea + len) outside the stack. Addresses are modulo 2^64. -/
def stackBad (t : Strand) (ea : Word) (len : Nat) : Option (BitVec 8 × Word) :=
  (List.range len).findSome? fun k =>
    let x := ea + BitVec.ofNat 64 k
    if x < t.sbase then some (1, x) else if t.slimit ≤ x then some (2, x) else none

/-- The task's scratchpad holds the whole stack (01 R40). -/
def stackWindowOk (s : State) (sid : Nat) (t : Strand) : Bool :=
  let lo := 0x00FFF00000000000
  !isHead sid && decide (t.sbase < t.slimit) && decide (lo ≤ t.sbase.toNat) &&
    decide (t.slimit.toNat ≤ lo + spadBytes s (tileOf sid))

/-- An access through x1 lies inside the stack (01 R40). -/
def checkStack (s : State) (sid : Nat) (t : Strand) (ea : Word) (len : Nat) : Res Unit :=
  if len = 0 then .ok ()
  else if !stackWindowOk s sid t then .error (stackTrap 3 ea)
  else match stackBad t ea len with
    | some (sub, x) => .error (stackTrap sub x)
    | none => .ok ()

/-- The stack check applies when the base designator is x1. -/
def checkBase (s : State) (sid : Nat) (t : Strand) (base : Desig) (ea : Word) (len : Nat) : Res Unit :=
  if base = .x 1 then checkStack s sid t ea len else .ok ()

end Sys2Proof.Machine
end

