-- ==== Sys2Proof/Machine/Lines.lean ====
section
/-! DEFINITION. The storage behind an access: the tile's L1 with its written masks (07 R223 to R226), the scratchpad with
its guard granules (07 R222), write-back and invalidation (08 R259, R265, R266). -/

namespace Sys2Proof.Machine

/-! ### Bytes of a line -/

def lineByte (d : BitVec 1024) (k : Nat) : Byte := d.extractLsb' (8 * k) 8

def lineBytes (d : BitVec 1024) (o n : Nat) : List Byte := (List.range n).map fun k => lineByte d (o + k)

/-- The mask of `n` bytes from byte `o`. -/
def byteMask (o n : Nat) : BitVec 128 := BitVec.ofNat 128 ((2 ^ n - 1) * 2 ^ o)

def putBytes (d : BitVec 1024) (o : Nat) (bs : List Byte) : BitVec 1024 :=
  (d &&& ~~~(BitVec.ofNat 1024 ((2 ^ (8 * bs.length) - 1) * 2 ^ (8 * o)))) ||| BitVec.ofNat 1024 (leNat bs * 2 ^ (8 * o))

/-- Bytes `f k` for each `k` below `n`. -/
def bytesOf (n : Nat) (f : Nat → Byte) : List Byte := (List.range n).map f

/-- The sectors of a line that a run of bytes touches, as a mask. -/
def sectorMask (o n : Nat) : BitVec 4 := BitVec.ofNat 4 ((2 ^ ((o + n - 1) / 32 + 1) - 1) - (2 ^ (o / 32) - 1))

/-- Poison of a line's sectors after a write (07 R231). -/
def linePoison (p : BitVec 4) (o n : Nat) (bad : Bool) : BitVec 4 :=
  if bad then p ||| sectorMask o n
  else BitVec.ofNat 4 ((List.range 4).foldr (fun k acc =>
    2 * acc + (if p.getLsbD k && !(decide (o ≤ 32 * k) && decide (32 * k + 32 ≤ o + n)) then 1 else 0)) 0)

/-! ### Lines of the L1 -/

/-- What the L1 may hold (07 R223): general memory that is not NC, and the fabric window. -/
def Part.cacheable (p : Part) : Bool := !p.nc && (p.space == .general || p.space == .fabric) && !p.aperture

/-- Only whole flits reach the collective aperture (20 R492): any other access is answered NOWINDOW. -/
def noAperture (ps : List Part) : Res Unit :=
  match ps.find? (·.aperture) with
  | some p => .error (xlateTrap 5 (BitVec.ofNat 64 p.va))
  | none => .ok ()

namespace State

def line? (s : State) (tile k : Nat) : Option L1Line :=
  match s.task? tile with
  | some t => FMap.get? t.l1 k
  | none => none

def setLine (s : State) (tile k : Nat) (l : L1Line) : State := s.updTask tile fun t => { t with l1 := FMap.set t.l1 k l }
def dropLine (s : State) (tile k : Nat) : State := s.updTask tile fun t => { t with l1 := FMap.erase t.l1 k }

/-- Poison of the four sectors of the line at `128 * k`. -/
def memPoison (s : State) (k : Nat) : BitVec 4 :=
  BitVec.ofNat 4 ((List.range 4).foldr (fun j acc => 2 * acc + (if s.poison.contains (4 * k + j) then 1 else 0)) 0)

/-- The bytes of a line's written mask stored in memory, poison with them (07 R224, R226). -/
def writeBackLine (s : State) (tile k : Nat) : State :=
  match s.line? tile k with
  | none => s
  | some l =>
    let mem := (List.range 128).foldl
      (fun m j => if l.written.getLsbD j then Memory.write m (128 * k + j) (lineByte l.data j) else m) s.mem
    let poison := (List.range 4).foldl (fun p j =>
      let w := l.written.extractLsb' (32 * j) 32
      if w = 0 then p
      else if l.poison.getLsbD j then NatSet.insert p (4 * k + j)
      else if w = BitVec.allOnes 32 then NatSet.erase p (4 * k + j)
      else p) s.poison
    { s with mem, poison }.setLine tile k { l with written := 0 }

/-- A line written back and no longer held. -/
def flushLine (s : State) (tile k : Nat) : State := (s.writeBackLine tile k).dropLine tile k

/-- An uncorrectable error in a sector of a line poisons the bytes written there; any other line is fetched again
(07 R226). -/
def spoilLine (s : State) (tile k sector : Nat) : State :=
  match s.line? tile k with
  | none => s
  | some l =>
    if l.written.extractLsb' (32 * (sector % 4)) 32 = 0 then
      if l.written = 0 then s.dropLine tile k
      else s.setLine tile k { l with present := l.present &&& ~~~(byteMask (32 * (sector % 4)) 32) }
    else s.setLine tile k { l with poison := l.poison ||| (1#4 <<< (sector % 4)) }

def lineKeys (s : State) (tile : Nat) : List Nat :=
  match s.task? tile with
  | some t => t.l1.map (·.1)
  | none => []

/-- Every written byte of the tile's L1 stored in memory (08 R259). -/
def writeBackAll (s : State) (tile : Nat) : State := (s.lineKeys tile).foldl (fun s k => s.writeBackLine tile k) s

/-- Every line written back, then dropped (08 R259). -/
def flushAll (s : State) (tile : Nat) : State :=
  (s.writeBackAll tile).updTask tile fun t => { t with l1 := [] }

/-- The line that leaves a set of more than 16 ways (07 R223, R224; log 16): the first marked for early eviction, or
else the first of the set. -/
def victim (ls : FMap L1Line) (k : Nat) : Option Nat :=
  let same := ls.filter fun q => q.1 % 512 == k % 512
  if same.length ≤ 16 then none
  else match same.find? (fun q => q.2.early && q.1 != k) with
    | some q => some q.1
    | none => (same.find? fun q => q.1 != k).map (·.1)

def evictFor (s : State) (tile k : Nat) : State :=
  match s.task? tile with
  | none => s
  | some t => match victim t.l1 k with
    | some v => s.flushLine tile v
    | none => s

/-- Bytes moved for a tile's launch between cluster SRAM and the memories beyond it, until its class is decided
(05 R162). -/
def countMoved (s : State) (tile n : Nat) : State :=
  match s.task? tile with
  | none => s
  | some k => { s with loom := { s.loom with launches := FMap.update s.loom.launches k.launch fun l =>
      if l.classEnded then l else { l with byteCount := l.byteCount + n } } }

/-- An array cycle in which a tile's matrix engine computed (05 R162). -/
def countFold (s : State) (tile : Nat) : State :=
  match s.task? tile with
  | none => s
  | some k => { s with loom := { s.loom with launches := FMap.update s.loom.launches k.launch fun l =>
      if l.classEnded then l else { l with mb := l.mb + 1 } } }

/-- The line's bytes from memory under those of its written mask (07 R224). -/
def fetchLine (s : State) (tile k : Nat) (p : Part) (early : Bool) : State :=
  let s := s.countMoved tile 128
  let got := BitVec.ofNat 1024 (s.readLocNat (128 * k) 128)
  let pois := s.memPoison k
  let pasid := match s.task? tile with
    | some t => t.pasid
    | none => 0
  match s.line? tile k with
  | none =>
    (s.setLine tile k { data := got, present := BitVec.allOnes 128, written := 0, poison := pois, early,
                        va := p.va - (p.loc - 128 * k), pasid, fabric := p.space == .fabric }).evictFor tile k
  | some l =>
    let data := BitVec.ofNat 1024 (leNat (bytesOf 128 fun j => if l.written.getLsbD j then lineByte l.data j else lineByte got j))
    let mine (j : Nat) : BitVec 32 := l.written.extractLsb' (32 * j) 32
    let keep := BitVec.ofNat 4 ((List.range 4).foldr (fun j acc =>
      2 * acc + (if (l.poison.getLsbD j && mine j != 0) || (pois.getLsbD j && mine j != BitVec.allOnes 32) then 1 else 0)) 0)
    s.setLine tile k { l with data, present := BitVec.allOnes 128, poison := keep }

end State

/-- What a read brings: its bytes, whether a poisoned sector was among them, whether it missed the L1. -/
structure Got where
  bytes : List Byte
  bad : Bool
  missed : Bool

/-- A part cut at the boundaries of 128-byte lines. -/
def lineCuts (p : Part) : Nat → List Part
  | 0 => []
  | fuel + 1 =>
    let n := 128 - p.loc % 128
    if p.len ≤ n then (if p.len = 0 then [] else [p])
    else { p with len := n } :: lineCuts { p with va := p.va + n, loc := p.loc + n, len := p.len - n } fuel

def cuts (p : Part) : List Part := lineCuts p (p.len / 128 + 2)

namespace State

/-- A read of bytes inside one line of the L1 (07 R224). -/
def loadLine (s : State) (tile : Nat) (ch : CacheHint) (p : Part) : Got × State :=
  let k := p.loc / 128
  let o := p.loc % 128
  let m := byteMask o p.len
  let ans (s : State) (missed : Bool) : Got × State :=
    match s.line? tile k with
    | some l => ({ bytes := lineBytes l.data o p.len, bad := l.poison &&& sectorMask o p.len != 0, missed }, s)
    | none => ({ bytes := s.readLoc p.loc p.len, bad := isPoisoned s.poison p.loc p.len, missed }, s)
  match s.line? tile k with
  | some l => if l.present &&& m = m then ans s false else ans (s.fetchLine tile k p (ch == .nt)) true
  | none => if ch = .na then ans s true else ans (s.fetchLine tile k p (ch == .nt)) true

/-- Guard granules of the task (07 R222). -/
def guardAt (s : State) (tile : Nat) (o : Nat) : Bool :=
  match s.task? tile with
  | some t => t.guards.contains (o / 256)
  | none => false

/-- The lowest guard byte of a scratchpad part. -/
def firstGuard (s : State) (tile : Nat) (p : Part) : Option Nat :=
  let o := p.loc - spadLoc tile 0
  (List.range p.len).findSome? fun k => if s.guardAt tile (o + k) then some (o + k) else none

/-- A GUARD report for a strand: it keeps the first (07 R222, 16 R415). -/
def guardReport (s : State) (sid : Nat) (sub : BitVec 8) (off : Nat) (engine : Option Engine := none)
    (load : Option Nat := none) : State :=
  s.updStrand sid fun t => match t.guardRep with
    | some _ => t
    | none =>
      let val := BitVec.ofNat 64 (sub.toNat * 2 ^ 56 + (off / 16 % 32) * 2 ^ 32 + off)
      { t with guardRep := some { val, engine, load } }

/-- A scratchpad read: guard bytes read zero and are reported to `sid` (07 R222). -/
def spadRead (s : State) (tile sid : Nat) (sub : BitVec 8) (p : Part) (e : Option Engine := none) : Got × State :=
  let o := p.loc - spadLoc tile 0
  let raw := s.readLoc p.loc p.len
  match s.firstGuard tile p with
  | none => ({ bytes := raw, bad := isPoisoned s.poison p.loc p.len, missed := false }, s)
  | some g =>
    ({ bytes := (raw.zipIdx).map fun q => if s.guardAt tile (o + q.2) then 0 else q.1,
       bad := isPoisoned s.poison p.loc p.len, missed := false },
     s.guardReport sid sub g e (if e.isNone then (s.strand? sid).map (·.seq) else none))

/-- A range cut at the boundaries of guard granules: the distance of each piece from the start, and its length. -/
def granules (o n : Nat) : List (Nat × Nat) :=
  (List.range ((o + n - 1) / 256 - o / 256 + 1)).map fun k =>
    let a := Nat.max o ((o / 256 + k) * 256)
    (a - o, Nat.min (o + n) ((o / 256 + k + 1) * 256) - a)

/-- A scratchpad write: guard bytes are left as they are and reported (07 R222). -/
def spadWrite (s : State) (tile sid : Nat) (sub : BitVec 8) (p : Part) (bs : List Byte) (bad : Bool)
    (e : Option Engine := none) : State :=
  let o := p.loc - spadLoc tile 0
  match s.firstGuard tile p with
  | none => s.writeLoc p.loc bs bad
  | some g =>
    let s := s.guardReport sid sub g e
    (granules o bs.length).foldl (fun s q =>
      if s.guardAt tile (o + q.1) then s else s.writeLoc (p.loc + q.1) (takeBytes bs q.1 q.2) bad) s

/-- Bytes written into a present copy of a line (07 R224): memory has them, so they are not written there again from here. -/
def touchLine (s : State) (tile : Nat) (loc : Nat) (bs : List Byte) (bad : Bool) : State :=
  let k := loc / 128
  let o := loc % 128
  match s.line? tile k with
  | none => s
  | some l => s.setLine tile k { l with data := putBytes l.data o bs, present := l.present ||| byteMask o bs.length,
                                        written := l.written &&& ~~~(byteMask o bs.length),
                                        poison := linePoison l.poison o bs.length bad }

/-- A write of bytes inside one line of the L1 (07 R224): written through with .na and to the fabric window, and else
held under the written mask. -/
def storeLine (s : State) (tile : Nat) (ch : CacheHint) (p : Part) (bs : List Byte) (bad : Bool) : Bool × State :=
  let k := p.loc / 128
  let o := p.loc % 128
  if ch = .na ∨ p.space = .fabric then
    ((s.line? tile k).isNone && p.space != .fabric, (s.writeLoc p.loc bs bad).touchLine tile p.loc bs bad)
  else
    let pasid := match s.task? tile with
      | some t => t.pasid
      | none => 0
    let missed := (s.line? tile k).isNone
    let l := (s.line? tile k).getD { data := 0, present := 0, written := 0, poison := 0, early := ch == .nt,
                                     va := p.va - o, pasid, fabric := false }
    (missed, (s.setLine tile k { l with
      data := putBytes l.data o bs, present := l.present ||| byteMask o bs.length,
      written := l.written ||| byteMask o bs.length, poison := linePoison l.poison o bs.length bad }).evictFor tile k)

/-- The strands of a tile that sleep on a line written now check their word again (03 R104). -/
def rouse (s : State) (tile : Nat) (line : Nat) : State :=
  { s with strands := s.strands.map fun q =>
      if tileOf q.1 = tile then
        match q.2.waitA with
        | some w => if w.why = .sleep line then (q.1, { q.2 with recheck := true }) else q
        | none => q
      else q }

def roused (s : State) (tile loc n : Nat) : State :=
  if n = 0 then s
  else ((List.range ((loc + n - 1) / 128 - loc / 128 + 1)).map (loc / 128 + ·)).foldl (fun s k => s.rouse tile k) s

/-- A store reaches another device, which will acknowledge it (07 R233, 08 R259). -/
def sendStore (s : State) (tile : Nat) (p : Part) : State :=
  if p.space = .fabric then
    { s with req := s.req + 1, out := { s.out with fab := s.out.fab ++ [{ id := s.req, tile }] } }
  else s

end State

/-- A read by a strand of tile `tile` (192: the headstock) of one part. -/
def loadPart (s : State) (tile sid : Nat) (ch : CacheHint) (p : Part) : Got × State :=
  if p.space = .spad then s.spadRead tile sid 1 p
  else if p.cacheable && tile != 192 then
    (cuts p).foldl (fun acc q =>
      let r := acc.2.loadLine tile ch q
      ({ bytes := acc.1.bytes ++ r.1.bytes, bad := acc.1.bad || r.1.bad, missed := acc.1.missed || r.1.missed }, r.2))
      ({ bytes := [], bad := false, missed := false }, s)
  else ({ bytes := s.readLoc p.loc p.len, bad := isPoisoned s.poison p.loc p.len, missed := false }, s)

/-- A write by a strand of one part. -/
def storePart (s : State) (tile sid : Nat) (ch : CacheHint) (p : Part) (bs : List Byte) (bad : Bool) : Bool × State :=
  let r :=
    if p.space = .spad then (false, s.spadWrite tile sid 2 p bs bad)
    else if p.cacheable && tile != 192 then
      (cuts p).foldl (fun acc q =>
        let r := acc.2.storeLine tile ch q (takeBytes bs (q.loc - p.loc) q.len) bad
        (acc.1 || r.1, r.2)) (false, s)
    else (false, s.writeLoc p.loc bs bad)
  (r.1, (r.2.sendStore tile p).roused tile p.loc p.len)

/-- PERF5: an access that missed counts once (01 R45). -/
def State.countMiss (s : State) (sid : Nat) (missed : Bool) : State :=
  if missed then s.updStrand sid (·.addPerf 5) else s

/-- A whole read by a strand, its parts in ascending address order. -/
def loadParts (s : State) (tile sid : Nat) (ch : CacheHint) (ps : List Part) : Got × State :=
  let r := ps.foldl (fun acc p =>
    let r := loadPart acc.2 tile sid ch p
    ({ bytes := acc.1.bytes ++ r.1.bytes, bad := acc.1.bad || r.1.bad, missed := acc.1.missed || r.1.missed : Got }, r.2))
    ({ bytes := [], bad := false, missed := false : Got }, s)
  (r.1, r.2.countMiss sid r.1.missed)

/-- The writes of parts, the bytes in order. -/
def storeEach (tile sid : Nat) (ch : CacheHint) (bad : Bool) : List Part → List Byte → Bool × State → Bool × State
  | [], _, acc => acc
  | p :: ps, bs, acc =>
    let r := storePart acc.2 tile sid ch p (takeBytes bs 0 p.len) bad
    storeEach tile sid ch bad ps (bs.drop p.len) (acc.1 || r.1, r.2)

/-- A whole write by a strand. -/
def storeParts (s : State) (tile sid : Nat) (ch : CacheHint) (ps : List Part) (bs : List Byte) (bad : Bool) : State :=
  let r := storeEach tile sid ch bad ps bs (false, s)
  r.2.countMiss sid r.1

end Sys2Proof.Machine
end

