-- ==== Sys2Proof/Machine/Issue.lean ====
section
/-! DEFINITION. How an instruction issues, waits, takes effect and retires: the scheduling fields (01 R22 to R28), the
window of words passed to E (01 R14, log 6), precise traps (01 R30 to R32), the loop test (03 R95). Every meaning of a
word is one call of `issue`. -/

namespace Sys2Proof.Machine

open Decode

/-- What an instruction asks of the instructions before it (log 6): nothing beyond its operands, because a trap of an
older word can take its effects back; that no older word of E can still trap; that every older instruction of both
slices has completed. -/
inductive Order | ahead | normal | drain
  deriving DecidableEq, Repr

/-! ### Results that are due -/

def lowerSb (t : Strand) (sl : Slice) (k : Option (Fin 6)) : Strand :=
  match k, sl with
  | none, _ => t
  | some k, .a => { t with sbA := t.sbA.set k (t.sbA[k] - 1) }
  | some k, .e => { t with sbE := t.sbE.set k (t.sbE[k] - 1) }

def raiseSb (t : Strand) (sl : Slice) (k : Option (Fin 6)) : Strand :=
  match k, sl with
  | none, _ => t
  | some k, .a => { t with sbA := t.sbA.set k (t.sbA[k] + 1) }
  | some k, .e => { t with sbE := t.sbE.set k (t.sbE[k] + 1) }

/-- Whether a fixed-latency result has been written by this cycle. -/
def Pend.due (p : Pend) (cycle : Nat) : Bool :=
  match p.ready with
  | some c => decide (c ≤ cycle)
  | none => false

/-- Results written: their registers are no longer pending, their scoreboards fall (01 R23). -/
def clearPend (t : Strand) (gone : Pend → Bool) : Strand :=
  let out := t.pend.filter gone
  out.foldl (fun t p => lowerSb t p.slice p.wsb) { t with pend := t.pend.filter (!gone ·) }

/-- Source registers read: they may be overwritten, and the scoreboards held for them fall (01 R23, R26). -/
def clearReads (t : Strand) (gone : PendRead → Bool) : Strand :=
  let out := t.reads.filter gone
  out.foldl (fun t p => lowerSb t p.slice p.rsb) { t with reads := t.reads.filter (!gone ·) }

/-- The strand with every fixed-latency result and every register read of this cycle done. -/
def settle (cycle : Nat) (t : Strand) : Strand :=
  clearReads (clearPend t (Pend.due · cycle)) fun p => decide (p.done ≤ cycle)

/-! ### Conditions of issue -/

def sbOfSlice (t : Strand) (sl : Slice) : Vector Nat 6 := match sl with
  | .a => t.sbA
  | .e => t.sbE

def stallOf (t : Strand) (sl : Slice) : Nat := match sl with
  | .a => t.stallA
  | .e => t.stallE

/-- The scoreboards that an instruction would raise by WSB and RSB have room (01 R23). -/
def sbRoom (sb : Vector Nat 6) (w r : Option (Fin 6)) : Bool :=
  (List.finRange 6).all fun k => decide (sb[k] + (if w = some k then 1 else 0) + (if r = some k then 1 else 0) ≤ 15)

/-- STALL, WAIT and full scoreboards (01 R22 to R24). -/
def timingOk (t : Strand) (cycle : Nat) (sl : Slice) (r : Raw) : Bool :=
  let sb := sbOfSlice t sl
  decide (stallOf t sl ≤ cycle) &&
    ((List.finRange 6).all fun k => !r.wait.getLsbD k.val || sb[k] == 0) &&
    sbRoom sb (sbOf r.wsb) (sbOf r.rsb)

/-- No source or destination is pending, and no destination is still to be read (01 R26). -/
def interlockOk (t : Strand) (cycle : Nat) (u : Use) : Bool :=
  (u.a ++ u.b ++ u.c ++ u.extra).all (fun d => !pendFixed t cycle d && !pendVar t d) &&
    (u.d ++ u.hid).all fun d => !pendVar t d && !pendRead t d

/-- Words of the window that push SDQ, and that push BQ. -/
def pushesSdq (e : EwEnt) : Bool := match e.instr with
  | .std _ | .vstd _ => true
  | _ => false

def pushesBq (e : EwEnt) : Bool := match e.instr with
  | .bqpush _ => true
  | _ => false

/-- The number of the oldest data half of a queued store, in SDQ or still owed by E. -/
def firstData (t : Strand) : Option Nat := match t.sdq with
  | d :: _ => some d.seq
  | [] => (t.ewin.find? pushesSdq).map (·.seq)

/-- A queued store not yet performed both of whose halves are older than number `q` (08 R247). -/
def storesBefore (t : Strand) (q : Nat) : Bool := match t.saq, firstData t with
  | a :: _, some d => decide (a.seq < q) && decide (d < q)
  | _, _ => false

def olderStores (t : Strand) : Bool := storesBefore t t.seq

/-- The oldest queued store cannot be performed before the oldest word of E not issued: its data comes from E, or a
half of it is younger than that word (01 R31). -/
def storesBehind (t : Strand) : Bool := match t.ewin, t.saq, firstData t with
  | e :: _, a :: _, some d => decide (e.seq ≤ Nat.max a.seq d)
  | _, _, _ => false

/-- What an access waits for that older queued stores hold. -/
def storesWhy (t : Strand) : WaitWhy := if storesBehind t then .data else .older

/-- Every older instruction of both slices has completed, its results written and its registers read (01 R30, R32). -/
def drained (t : Strand) : Bool :=
  t.ewin.isEmpty && t.loads.isEmpty && t.atoms.isEmpty && t.pend.isEmpty && t.reads.isEmpty && (t.saq.isEmpty || t.sdq.isEmpty)

/-- Every instruction older than number `q` has completed, its results written and its registers read (01 R30, R32). -/
def drainedBefore (t : Strand) (q : Nat) : Bool :=
  t.ewin.all (fun e => decide (q ≤ e.seq)) && t.loads.all (fun l => decide (q ≤ l.seq)) &&
    t.atoms.all (fun l => decide (q ≤ l.seq)) && t.pend.all (fun p => decide (q ≤ p.seq)) &&
    t.reads.all (fun p => decide (q ≤ p.seq)) &&
    (match t.saq, t.sdq with
      | a :: _, d :: _ => decide (q ≤ a.seq) || decide (q ≤ d.seq)
      | _, _ => true)

/-- A word of E that can raise no cause any more: it pops no queue that could hold a marked entry, its fields are in
order, and it is no accumulator access. -/
def trapFree (t : Strand) (core : CoreKind) (i : Instr) : Bool :=
  !t.chk && !t.qf && (illFormed core i).isNone && (match rawOf i with
    | some r => !popsQueue r && r.opc != 0x214 && r.opc != 0x215
    | none => false)

/-- SDQ and SAQ are full (01 R15). A pair has left both queues when it meets (01 R17), performed or not. -/
def sdqFull (t : Strand) : Bool := decide (t.saq.length + 32 ≤ t.sdq.length)
def saqFull (t : Strand) : Bool := decide (t.sdq.length + 32 ≤ t.saq.length)

/-- The words of the window find room in SDQ and BQ, so none of them can end in a CROSSWAIT (01 R19). -/
def roomForE (t : Strand) : Bool :=
  decide (t.sdq.length + (t.ewin.filter pushesSdq).length ≤ t.saq.length + 32) &&
    decide (t.bq.length + (t.ewin.filter pushesBq).length ≤ 8)

/-- LQ or XQ holds fewer entries than a word of E pops (01 R16). -/
def shortE (t : Strand) (i : Instr) : Bool := decide (t.lq.length < qpopsOf i 0x90) || decide (t.xq.length < qpopsOf i 0x91)

/-- E waits at a queue that only a younger word of A can relieve, or for a token that a younger command may push
(16 R421): A goes on then, whatever E may still meet (log 6). -/
def stuckE (t : Strand) : Bool := match t.waitE with
  | none => false
  | some w => match w.why with
    | .lqEmpty | .lqData | .xqEmpty => shortE t w.instr
    | .sdqFull => sdqFull t
    | .bqFull => decide (8 ≤ t.bq.length)
    | .token => true
    | _ => false

/-- Whether the order an instruction asks for is met, at PC. -/
def orderOk (t : Strand) (core : CoreKind) : Order → Bool
  | .ahead => true
  | .normal => t.ewin.isEmpty || stuckE t || (roomForE t && t.ewin.all fun e => trapFree t core e.instr)
  | .drain => drained t

/-- A word of A that waits for the words of E before it, or for something else older. -/
def olderWhy (t : Strand) : WaitWhy := if t.ewin.isEmpty then .older else .behind

/-- A may be at most 64 words ahead of the oldest word of E not issued (01 R14). -/
def limitOk (t : Strand) : Bool := match t.ewin with
  | [] => true
  | e :: _ => decide (t.seq + 1 - e.seq ≤ 64)

/-! ### Waiting -/

/-- The slice's wait, begun now unless the instruction already waits for the same. An instruction that has issued keeps
the cycle of its issue, and the timeout counted from it, whatever it waits for next (03 R104, 13 R365). -/
def waitMark (old : Option Wait) (cycle : Nat) (why : WaitWhy) (dl : Option Nat) (i : Instr) (pc : Word)
    (entered : Bool := false) : Wait :=
  match old with
  | some w =>
    if w.instr = i ∧ w.pc = pc then
      if w.entered then { w with why, deadline := w.deadline <|> dl }
      else if w.why = why then { w with entered }
      else { why, since := cycle, deadline := dl, instr := i, pc, entered }
    else { why, since := cycle, deadline := dl, instr := i, pc, entered }
  | none => { why, since := cycle, deadline := dl, instr := i, pc, entered }

def setWait (t : Strand) (sl : Slice) (w : Wait) : Strand := match sl with
  | .a => { t with waitA := some w }
  | .e => { t with waitE := some w }

def waitOf (t : Strand) : Slice → Option Wait
  | .a => t.waitA
  | .e => t.waitE

/-- The slice waits in an instruction that has issued. -/
def hasEntered (t : Strand) (sl : Slice) : Bool := (waitOf t sl).any (·.entered)

/-- The cycle in which the instruction at PC issued: an earlier one, when it has issued and waits (03 R104, 13 R365). -/
def issuedAt (t : Strand) (cycle : Nat) : Nat := match t.waitA with
  | some w => if w.entered && w.pc == t.pc then w.since else cycle
  | none => cycle

/-- The timeout of the instruction at PC has passed. -/
def Wait.ended (w : Wait) (cycle : Nat) : Bool := match w.deadline with
  | some d => decide (d ≤ cycle)
  | none => false

def timedOut (t : Strand) (cycle : Nat) : Bool := t.waitA.any fun w => w.entered && w.pc == t.pc && w.ended cycle

/-- The stamp of a slice whose instruction has issued and waits is gone: it gets another when it is ready again (05 R153). -/
def unstamp (t : Strand) : Slice → Strand
  | .a => { t with stampA := none }
  | .e => { t with stampE := none }

/-! ### Retiring -/

/-- The reuse entries after the operands have been read (01 R25). -/
def readReuse (t : Strand) (sl : Slice) (u : Use) : Strand :=
  let upd (old : Vector (Option Desig) 3) : Vector (Option Desig) 3 :=
    Vector.ofFn fun j => match u.reusable[j] with
      | some d => some d
      | none => old[j]
  match sl with
  | .a => { t with reuseA := upd t.reuseA }
  | .e => { t with reuseE := upd t.reuseE }

/-- A register that a write reaches (01 R8). -/
def written : Desig → Bool
  | .x n => n != 0 && n != 32
  | .p n => n != 7
  | .v _ => true
  | _ => false

/-- The results of an instruction become pending, for its latency or until their own event, and hold the scoreboard of
its WSB; one without results holds it for a cycle (01 R23, R26). -/
def addResults (t : Strand) (req seq cycle : Nat) (sl : Slice) (r : Raw) (regs : List Desig) : Strand :=
  if regs.isEmpty && (sbOf r.wsb).isNone then t
  else
    let ready := if regs.isEmpty then some (cycle + 1) else match latOf r with
      | .fixed n => some (cycle + n)
      | .var => none
    raiseSb { t with pend := t.pend ++ [{ req, seq, slice := sl, regs, ready, wsb := sbOf r.wsb, since := cycle }] } sl (sbOf r.wsb)

/-- The registers an instruction of variable latency has still to read, and the scoreboard its RSB holds until it has
read them; any other has read its registers one cycle after its issue (01 R23, R26; log 17). -/
def addReads (t : Strand) (seq cycle : Nat) (sl : Slice) (r : Raw) (regs srcs : List Desig) : Strand :=
  let late := !regs.isEmpty && latOf r == .var
  if !late && (sbOf r.rsb).isNone then t
  else raiseSb { t with reads := t.reads ++ [{ seq, slice := sl, regs := if late then srcs else [],
                                               done := cycle + (if late then Config.readDelay else 1), rsb := sbOf r.rsb }] } sl (sbOf r.rsb)

/-- What the interlocks and scoreboards keep of an instruction from its issue (01 R23, R26). -/
def addPend (t : Strand) (req seq cycle : Nat) (sl : Slice) (r : Raw) (u : Use) : Strand :=
  let regs := (u.d ++ u.hid).filter written
  addReads (addResults t req seq cycle sl r regs) seq cycle sl r regs ((u.a ++ u.b ++ u.c ++ u.extra).filter written)

/-- E instructions that run or not as a whole by bit 0 of their predicate (01 R21, 06 R178, 12 R341). -/
def wholeGated (r : Raw) : Bool :=
  decide (r.opc.toNat < 0x080) || r.opc == 0x1A3 || r.opc == 0x1A4 || r.opc == 0x1A6 || r.opc == 0x1A7 || r.opc == 0x1B6 ||
    r.opc == 0x215 || (r.opc == 0x19A && r.type == 0xC) || (r.opc == 0x19F && vOpx r == 0)

/-- VRED, VSCAN, VDEFER and PFIRST have a result whatever the predicate selects (06 R178). -/
def alwaysWrites (opc : BitVec 10) : Bool := opc == 0x19B || opc == 0x19C || opc == 0x1A5 || opc == 0x1B4

/-- The distance of the predicate bits an E instruction looks at: its element, or every bit. -/
def gateStep (r : Raw) : Nat :=
  if 0x180 ≤ r.opc.toNat ∧ r.opc.toNat < 0x1B0 then widthOf r.type else 1

/-- Whether the word executes, so that it has results (01 R18, R21): what negated p7, a gate, or a predicate that is
false for every element holds off has none. -/
def executes (t : Strand) (r : Raw) : Bool :=
  let p := t.getP (Fin.ofNat 8 r.pred.toNat)
  flag r.ax ||
    (!(flag r.pneg && r.pred == 7) &&
      (alwaysWrites r.opc ||
        (if wholeGated r then p.getLsbD 0 != flag r.pneg
         else (List.range (512 / gateStep r)).any fun i => p.getLsbD (i * gateStep r) != flag r.pneg)))

/-- The results are written at once: no home-path response is ever pending (13 R358). -/
def isHomePath (core : CoreKind) (r : Raw) : Bool :=
  decide (0x280 ≤ r.opc.toNat) && (r.opc != 0x289 || core == .headstock)

/-- Deactivates the loop levels from `k` on. -/
def cutLoops (l : Vector Loop 4) (k : Nat) : Vector Loop 4 :=
  Vector.ofFn fun j => if k ≤ j.val then Loop.off else l[j]

/-- The innermost active level whose end is `e`. -/
def loopAt (t : Strand) (e : Word) : Option (Fin 4) :=
  (List.finRange 4).reverse.find? fun k => decide (k.val < t.depth) && t.loops[k].stop == e

/-- The iteration test at the word `e` (03 R95); at most four levels end at one word. -/
def loopTest : Nat → Strand → Word → Strand
  | 0, t, _ => t
  | fuel + 1, t, e =>
    match loopAt t e with
    | none => t
    | some k =>
      let l := cutLoops t.loops (k.val + 1)
      if t.loops[k].count ≤ 1 then
        let t' := { t with loops := cutLoops l k.val }
        if k.val ≠ 0 ∧ loopAt t' e = some (Fin.ofNat 4 (k.val - 1)) then loopTest fuel t' e else t'
      else { t with loops := l.set k { t.loops[k] with count := t.loops[k].count - 1 }, pc := t.loops[k].start }

/-- PC after the word at PC: the transfer's target, or the next word with the iteration test. -/
def advance (t : Strand) : Strand :=
  match t.next with
  | some a => { t with pc := a, next := none }
  | none => loopTest 4 { t with pc := t.pc + 16 } t.pc

/-- The yield mark: set by a word with YIELD, cleared by the next issue (05 R154). -/
def yieldMark (cycle : Nat) (r : Raw) : Option Nat := if flag r.yield then some cycle else none

def stallCycles (r : Raw) : Nat := Nat.max r.stall.toNat 1

/-- What retiring does to the slice's own record. An instruction that issued before it could complete has set or cleared
the yield mark at its issue. -/
def retireSlice (t : Strand) (cycle : Nat) (sl : Slice) (r : Raw) : Strand :=
  let t := { t with yielding := if hasEntered t sl then t.yielding else yieldMark cycle r, quiet := cycle, watchdog := false }
  match sl with
  | .a => { (t.addPerf 0) with stallA := cycle + stallCycles r, hintA := false, waitA := none, stampA := none }
  | .e => { (t.addPerf 1) with stallE := cycle + stallCycles r, hintE := false, waitE := none, stampE := none }

/-- What words older than the oldest one not yet issued did is not taken back any more. -/
def trim (t : Strand) : Strand :=
  let base := match t.ewin with
    | [] => t.seq
    | e :: _ => e.seq
  { t with bqPopped := t.bqPopped.filter (base ≤ ·.1), young := t.young.filter (base ≤ ·.seq),
           early := t.early.filter (base ≤ ·.seq) }

/-- The instruction at PC has taken effect: the next word is at PC, and no stop point has been reached there yet. -/
def retireFetch (t : Strand) (cycle : Nat) (sl : Slice) (r : Raw) : Strand :=
  let t := advance (retireSlice t cycle sl r)
  trim { t with seq := t.seq + 1, waitA := none, passed := false, stop := none }

/-- A wait for the words of E ends when one of them has issued: the access slice looks again. -/
def lookAgain (t : Strand) : Strand := match t.waitA with
  | some w => if w.why = .behind ∨ w.why = .data then { t with waitA := none } else t
  | none => t

/-- The word at the head of E's window has taken effect. -/
def retireWindow (t : Strand) (cycle : Nat) (r : Raw) : Strand :=
  trim (lookAgain { (retireSlice t cycle .e r) with ewin := t.ewin.drop 1 })

/-! ### Passing a word to E, and taking A back -/

/-- The access slice as it stands at PC. -/
def snapA (t : Strand) : ASnap :=
  { pc := t.pc, x := t.x, marks := t.marks, loops := t.loops, perf0 := t.perf[0], stallA := t.stallA, oplog := t.oplog }

/-- A register as a load older than the words passed to E leaves it, when its data comes after they were passed. -/
def ASnap.put (a : ASnap) (n : Fin 64) (w : Word) (m : Option Mark) : ASnap :=
  let others := a.marks.filter (·.1 != n.val)
  { a with x := a.x.set n w, oplog := ((Logged.reg (.x n), w.setWidth 4096) :: a.oplog).take 64,
           marks := match m with
             | some k => FMap.set others n.val k
             | none => others }

/-- The result of the word with number `seq` of A comes to the snapshots of the words younger than it (01 R30). -/
def Strand.backfill (t : Strand) (seq : Nat) (d : Desig) (w : Word) (m : Option Mark) : Strand := match d with
  | .x n => if n = 0 then t
            else { t with ewin := t.ewin.map fun e => if seq < e.seq then { e with snap := e.snap.put n w m } else e }
  | _ => t

/-- The word at PC waits in E, and A goes on. -/
def passToE (t : Strand) (i : Instr) : Strand :=
  let e : EwEnt := { instr := i, pc := t.pc, seq := t.seq, snap := snapA t }
  let t := advance { t with next := none, ewin := t.ewin ++ [e], passed := false, stop := none }
  { t with seq := t.seq + 1, waitA := none }

/-- A register of the access slice. -/
def ofA : Logged → Bool
  | .reg (.x n) => decide (n.val < 32)
  | _ => false

/-- Wrong hints and misses that words from number `q` on have counted are no longer counted: they count again when the
words issue again (01 R28, R30, R45). HFIX at its top stays there. -/
def uncount (t : Strand) (q : Nat) : Strand :=
  match t.young.filter (q ≤ ·.seq) with
  | [] => t
  | y :: ys =>
    let out := y :: ys
    let kept := t.young.filter fun y => decide (y.seq < q)
    let hs := out.foldl (fun n y => n + y.hints) 0
    let ms := out.foldl (fun n y => n + y.misses) 0
    let fix := bits t.hctl 16 16
    let fix := if fix = 0xFFFF then fix else Nat.min 0xFFFF (fix + out.foldl (fun n y => n + y.cleared) 0) - hs
    let last := match out.find? (·.hints != 0), kept.reverse.find? (·.hints != 0) with
      | none, _ => bits t.hctl 4 4
      | some _, some k => k.last
      | some f, none => f.prior
    { t with hctl := BitVec.ofNat 64 (fix * 2 ^ 16 + last % 16 * 2 ^ 4 + bits t.hctl 0 1)
             perf := (t.perf.set 4 (t.perf[4] - BitVec.ofNat 64 hs)).set 5 (t.perf[5] - BitVec.ofNat 64 ms)
             young := kept }

/-- Stores that words from number `q` on performed. -/
def undone (t : Strand) (q : Nat) : List Early := t.early.filter (q ≤ ·.seq)

/-- Stores taken back, the youngest first: what stood there stands there again (01 R31). -/
def State.unstore (s : State) (sid : Nat) (es : List Early) : State :=
  es.foldr (fun e s => storeParts s (if isHead sid then 192 else tileOf sid) sid e.ch e.parts e.old e.bad) s

/-- A store is about to be performed while E has an older word to issue: what stands there is kept. -/
def State.noteStore (s : State) (sid : Nat) (t : Strand) (seq : Nat) (ch : CacheHint) (ps : List Part)
    (saq : Option SaqEnt := none) (sdq : Option SdqEnt := none) : State :=
  if t.ewin.isEmpty then s
  else
    let old := (loadParts s (if isHead sid then 192 else tileOf sid) sid .na ps).1
    s.updStrand sid fun q => { q with early := q.early ++ [{ seq, ch, parts := ps, old := old.bytes, bad := old.bad, saq, sdq }] }

/-- Everything the words from number `q` on did is taken back: A's registers and loops, the entries they pushed, the BQ
entries they popped, the loads they issued, what they counted and reported (01 R30, R31). Of the operand log, A's writes
go back and E's stay (17 R435). -/
def undoFrom (t : Strand) (e : EwEnt) : Strand :=
  let q := e.seq
  let t := uncount (clearReads (clearPend t fun p => decide (q ≤ p.seq)) fun p => decide (q ≤ p.seq)) q
  { t with
    pc := e.snap.pc
    x := Vector.ofFn fun n => if n.val < 32 then e.snap.x[n] else t.x[n]
    marks := e.snap.marks.filter (·.1 < 32) ++ t.marks.filter (32 ≤ ·.1)
    loops := e.snap.loops
    perf := t.perf.set 0 e.snap.perf0
    stallA := e.snap.stallA
    seq := q
    ewin := []
    lq := t.lq.filter (·.seq < q)
    saq := (undone t q).filterMap (·.saq) ++ t.saq |>.filter (·.seq < q)
    sdq := (undone t q).filterMap (·.sdq) ++ t.sdq |>.filter (·.seq < q)
    early := []
    xq := t.xq.filter (·.seq < q)
    bq := ((t.bqPopped.filter (q ≤ ·.1)).map (·.2)) ++ t.bq.filter (·.seq < q)
    bqPopped := []
    young := []
    oplog := (t.oplog.filter (!ofA ·.1) ++ e.snap.oplog.filter (ofA ·.1)).take 64
    guardRep := t.guardRep.filter fun g => g.load.all (· < q)
    qmark := Nat.min t.qmark q
    loads := t.loads.filter (·.seq < q)
    atoms := t.atoms.filter (·.seq < q)
    waitA := none
    hintA := false }

/-! ### Issue -/

/-- The number of the instruction in focus: of the word at PC, or of the oldest word E has not issued. -/
def seqOf (t : Strand) : Place → Nat
  | .fetch => t.seq
  | .window => match t.ewin with
    | e :: _ => e.seq
    | [] => t.seq

/-- The address of the instruction in focus. -/
def pcOf (t : Strand) : Place → Word
  | .fetch => t.pc
  | .window => match t.ewin with
    | e :: _ => e.pc
    | [] => t.pc

/-- The wrong hints found at the instruction at `pc` before a trap could be taken on it (01 R28). -/
def heldHints (t : Strand) (pc : Word) : List Hint := match t.hintHeld with
  | some (a, hs) => if a = pc then hs else []
  | none => []

/-- The wrong hints kept for the instruction at `pc`, which does not issue yet. -/
def keepHints (t : Strand) (pc : Word) (hs : List Hint) : Strand :=
  if hs.isEmpty then t else { t with hintHeld := some (pc, hs) }

/-- Wrong hints of the word numbered `n` at `pc` counted (01 R28), and noted while a trap may still take them back. -/
def noteHints (t : Strand) (pc : Word) (n : Nat) (hs : List Hint) : Strand :=
  let u := { (countHints t hs) with hintHeld := t.hintHeld.filter (·.1 != pc) }
  if hs.isEmpty then u
  else { u with young := t.young ++ [{ seq := n, hints := hs.length, misses := 0, last := bits u.hctl 4 4, prior := bits t.hctl 4 4,
                                       cleared := 0 }] }

/-- The conditions that hold an instruction before its own checks: its cause, or its wait. The wrong hints of an
instruction are found once: those of an instruction that trapped are counted when it issues after XRET (01 R28). -/
def before (s : State) (t : Strand) (place : Place) (sl : Slice) (r : Raw) (u : Use) (order : Order) (priv : Option Halt) :
    Strand × Option Halt :=
  if !timingOk t s.cycle sl r then (t, some (stall .interlock))
  else
    let pc := pcOf t place
    let old := heldHints t pc
    let hs := if old.isEmpty then hints t s.cycle r u else old
    let counted := match sl with
      | .a => t.hintA
      | .e => t.hintE
    match priv with
    | some h => (if counted then t else keepHints t pc hs, some h)
    | none =>
      if t.chk && !counted && !hs.isEmpty then
        match hs with
        | h :: _ => (keepHints t pc hs, some (.trap 0x02 h.sub h.val))
        | [] => (t, none)
      else
        let t := if counted then t else noteHints t pc (seqOf t place) hs
        let t := match sl with
          | .a => { t with hintA := true }
          | .e => { t with hintE := true }
        if !interlockOk t s.cycle u then (t, some (stall .interlock))
        else if sl == .a && !limitOk t then (t, some (stall .limit))
        else if sl == .a && !orderOk t s.core order then (t, some (stall (olderWhy t)))
        else (t, none)

/-- An eligible strand meets a consumed uncorrectable error (17 R438): a DATA cause on load or atomic data rolls the
turn back. Here: whether it may. -/
def eligible (s : State) (sid : Nat) (t : Strand) : Bool :=
  t.snap.isSome && !t.rolled && !t.seqFull && !isHead sid && (match s.task? (tileOf sid) with
    | none => false
    | some k =>
      decide (2 * (k.part.extractLsb' 28 4).toNat ≤ (k.part.extractLsb' 0 8).toNat) &&
        (match s.loom.launches.get? k.launch with
          | some l => l.restart
          | none => false))

/-- A cause or a rollback at the instruction in focus, once every older instruction has completed; until then the slice
waits (01 R30). A DATA cause on an eligible strand marks the strand for the rollback of 17 R438 instead. -/
def deliver (s : State) (sid : Nat) (t : Strand) (place : Place) (sl : Slice) (i : Instr) (c sub : BitVec 8)
    (v : BitVec 56) (taken : Strand → Strand := id) (first : State → State := id) : State :=
  let q := seqOf t place
  if !drainedBefore t q || (place == .fetch && !t.ewin.isEmpty) then
    s.setStrand sid (setWait t sl (waitMark (match sl with
      | .a => t.waitA
      | .e => t.waitE) s.cycle (if place == .fetch then olderWhy t else .older) none i (pcOf t place)))
  else
    let t1 := match place, t.ewin with
      | .window, e :: _ => undoFrom t e
      | _, _ => uncount t q
    let s := match place with
      | .window => s.unstore sid (undone t q)
      | .fetch => s
    if c = 0x07 ∧ sub ≠ 3 ∧ eligible s sid t1 then
      s.setStrand sid { t1 with rollback := some (c, sub, v), waitA := none, waitE := none }
    else
      let s := if c = 0x07 ∨ c = 0x0E ∧ sub = 0x11 then
          s.ras (s.rasFor sid { type := 0x09, addr := v.setWidth 64, xpc := t1.pc, xcause := c.setWidth 64, xval := sub ++ v })
        else s
      takeTrap (first s) sid (taken t1) t1.pc c sub v

/-! ### Register-file parity (17 R435) -/

/-- A record of the bobbin as one value. -/
def BobRec.value (b : BobRec) : VReg :=
  BitVec.ofNat 4096 (b.words.foldr (fun w acc => w.toNat + 2 ^ 32 * acc) 0 * 2 ^ 64 + b.lane.toNat * 2 ^ 32 + b.tag.toNat * 2 ^ 8 + b.count.toNat)

/-- The value at the head of a queue or the bobbin; a register stands in the log under its own name. -/
def headValue (t : Strand) : Logged → Option VReg
  | .reg .lq => t.lq.head?.bind (·.data)
  | .reg .xq => t.xq.head?.map (·.data.setWidth 4096)
  | .bq => t.bq.head?.map (·.data.setWidth 4096)
  | .bobbin => t.bobbin.head?.map (·.value)
  | .saq => t.saq.head?.map fun a => a.addr.setWidth 4096
  | .sdq => t.sdq.head?.map (·.data)
  | .reg _ => none

/-- The log's entry of the most recent write of a register, or of the oldest entry of a queue. -/
def logEntry (t : Strand) (k : Logged) : Option (Logged × VReg) :=
  t.oplog.find? fun w => w.1 == k && ((headValue t k).isNone || headValue t k == some w.2)

/-- What a word reads that carries parity: its registers, LQ and XQ where it names them, BQ at BQPOP, the bobbin at
VDRAIN. -/
def loggedReads (r : Raw) (u : Use) : List Logged :=
  (u.a ++ u.b ++ u.c ++ u.extra).map .reg ++
    (match rowOf r.opc with
      | some e => (([(r.a, e.a r), (r.b, e.b r), (r.c, e.c r)].filter fun q => posUsed q.2 && isQ q.1 && !flag r.ax).map fun q =>
          .reg (desigOf q.1))
      | none => []) ++
    (if r.opc = 0x10A then [.bq] else []) ++ (if r.opc = 0x1A6 then [.bobbin] else [])

/-- A register set to a value of the operand log. -/
def restoreReg (t : Strand) (d : Logged) (v : VReg) : Strand :=
  match d with
  | .reg (.x n) => { t with x := t.x.set n (v.setWidth 64) }
  | .reg (.v n) => { t with v := t.v.set n v }
  | .reg (.p n) => { t with p := t.p.set n (v.setWidth 512) }
  | _ => t

/-- A value read whose parity fails and that no log holds. -/
def lostReg (t : Strand) (ks : List Logged) : Option Logged :=
  t.badRegs.find? fun k => ks.contains k && (logEntry t k).isNone

/-- An instruction that reads a lost register: the causes that rank above DATA on an operand are found first (01 R33). -/
def lostTrap (s : State) (sid : Nat) (t : Strand) (place : Place) (sl : Slice) (i : Instr) (found : Res State) : State :=
  match found with
  | .error (.walked s2 c sub v) => deliver s2 sid t place sl i c sub v
  | .error (.trap c sub v) =>
    if c = 0x01 ∨ c = 0x0D ∨ c = 0x03 ∨ c = 0x04 ∨ c = 0x05 then deliver s sid t place sl i c sub v
    else deliver s sid t place sl i 0x07 1 0
  | _ => deliver s sid t place sl i 0x07 1 0

/-- What is read with bad parity, rewritten from the operand log, and how many there were. -/
def repairRegs (t : Strand) (ks : List Logged) : Strand × Nat :=
  t.badRegs.foldl (fun acc d =>
    if ks.contains d then
      match logEntry acc.1 d with
      | some w => ({ (restoreReg acc.1 d w.2) with badRegs := acc.1.badRegs.filter (· != d) }, acc.2 + 1)
      | none => acc
    else acc) (t, 0)

/-- A RAS record of type RFREPLAY for each repaired register. -/
def State.rasReplay (s : State) (sid : Nat) (pc : Word) : Nat → State
  | 0 => s
  | n + 1 => (s.ras (s.rasFor sid { type := 0x01, xpc := pc })).rasReplay sid pc n

/-- An instruction that issues before it can complete sets or clears the yield mark now (05 R154). -/
def issuedNow (t : Strand) (cycle : Nat) (i : Instr) : Strand :=
  { t with yielding := (rawOf i).bind (yieldMark cycle), quiet := cycle }

/-- The slice waits: the word at PC that belongs to E is passed to it, so that A goes on (01 R14). -/
def waitAt (s : State) (sid : Nat) (t : Strand) (place : Place) (sl : Slice) (i : Instr) (why : WaitWhy)
    (dl : Option Nat) (entered : Bool := false) : State :=
  let old := match sl with
    | .a => t.waitA
    | .e => t.waitE
  let w := waitMark old s.cycle why dl i (pcOf t place) entered
  let t := if entered then unstamp (if hasEntered t sl then t else issuedNow t s.cycle i) sl else t
  match place, sl with
  | .fetch, .e =>
    if limitOk t then s.setStrand sid (setWait (passToE t i) .e w)
    else s.setStrand sid (setWait t .a (waitMark t.waitA s.cycle .limit none i t.pc))
  | _, _ => s.setStrand sid (setWait t sl w)

/-- The state in which a body runs, on the strand as the conditions of issue left it: the operands' reuse entries are
read, and the request counter is past the number of this instruction. -/
def started (s : State) (f : Focus) (r : Raw) (t : Strand) : State :=
  { (s.setStrand f.sid (readReuse { t with next := none } (sliceOf r) (useOf r))) with req := s.req + 1 }

/-- A word that leaves no result to wait for: it was held off as a whole, or its response is written at once. -/
def noUse : Use :=
  { a := [], b := [], c := [], d := [], extra := [], hid := [], reusable := Vector.replicate 3 none, codes := Vector.replicate 3 0 }

/-- L1 misses of a word of A while E is behind, noted as those a trap of an older word takes back (01 R45). -/
def noteMisses (t t2 : Strand) (f : Focus) : Strand :=
  let n := (t2.perf[5] - t.perf[5]).toNat
  if f.place == .fetch && !t2.ewin.isEmpty && n != 0 then
    { t2 with young := t2.young ++ [{ seq := t.seq, hints := 0, misses := n, last := 0, prior := 0, cleared := 0 }] }
  else t2

/-- The state after an instruction whose body gave `s2`: its results are pending for their latency, and it has retired. -/
def finished (s : State) (f : Focus) (r : Raw) (t : Strand) (s2 : State) : State :=
  match s2.strand? f.sid with
  | none => s2
  | some t2 =>
    let u := if isHomePath s.core r || !executes t r then noUse else useOf r
    let t3 := addPend (noteMisses t t2 f) s.req (seqOf t f.place) s.cycle (sliceOf r) r u
    s2.setStrand f.sid (match f.place with
      | .fetch => retireFetch t3 s.cycle (sliceOf r) r
      | .window => retireWindow t3 s.cycle r)

/-- The issue of one word: its checks, its body, its retirement. The body runs on the state whose request counter is
already past the number of this instruction. -/
def issue (i : Instr) (order : Order) (priv : State → Strand → Option Halt) (body : Body) (s : State) : Answer :=
  match s.focus, s.strand? s.sid with
  | some f, some t0 =>
    let sid := f.sid
    match rawOf i with
    | none => .next s
    | some r =>
      let sl := sliceOf r
      let t := settle s.cycle t0
      match illFormed s.core i with
      | some sub =>
        let v : BitVec 56 := if sub = .sreg then BitVec.ofNat 56 (sregIdx r) else 0
        .next (deliver s sid t f.place sl i 0x01 (illCode sub) v)
      | none =>
        let u := useOf r
        match before s t f.place sl r u order (priv s t) with
        | (t, some (.trap c sub v)) => .next (deliver s sid t f.place sl i c sub v)
        | (t, some (.wait why dl)) => .next (waitAt s sid t f.place sl i why dl)
        | (t, some _) => .next (s.setStrand sid t)
        | (t, none) =>
         match lostReg t (loggedReads r u) with
         | some _ => .next (lostTrap s sid t f.place sl i (body (started s f r t)))
         | none =>
          let fixed := repairRegs t (loggedReads r u)
          let t := fixed.1
          let s := s.rasReplay sid (pcOf t f.place) fixed.2
          match body (started s f r t) with
          | .error (.trap c sub v) => .next (deliver s sid t f.place sl i c sub v)
          | .error (.walked s2 c sub v) => .next (deliver s2 sid t f.place sl i c sub v)
          | .error (.report k w) =>
            .next (deliver s sid t f.place sl i (k.cause) (BitVec.ofNat 8 (bits w 56 8)) (w.setWidth 56) (·.dropReport k))
          | .error (.late n v) => .next (deliver s sid t f.place sl i 0x0A 4 v id (·.dropLate n))
          | .error (.wait why dl) => .next (waitAt s sid t f.place sl i why dl)
          | .error (.hold s2 why dl) => .next (waitAt s2 sid ((s2.strand? sid).getD t) f.place sl i why dl true)
          | .ok s2 => .next (finished s f r t s2)
  | _, _ => .fault .noStrand

/-- No check of privilege before the hints. -/
def anyLevel : State → Strand → Option Halt := fun _ _ => none

end Sys2Proof.Machine
end

