-- ==== Sys2Proof/Machine/Number.lean ====
section
/-! DEFINITION. Number formats and exact arithmetic (04): element types, rounding, conversions, QC4, the matrix cell's
window sum, accumulator folds. Every finite value is exact: a sign, a natural significand and a power of two. -/

namespace Sys2Proof.Machine

/-! ### Integer types (04 R111, R112) -/

/-- Width of an element in bytes (04 R111, R113). -/
def Ty.bytes : Ty → Nat
  | .s64 | .z64 => 8
  | .s32 | .z32 | .f32 => 4
  | .s16 | .z16 | .bf16 | .f16 => 2
  | _ => 1

/-- Width of an element in bits. -/
def Ty.width (t : Ty) : Nat := 8 * Ty.bytes t

def Ty.signed : Ty → Bool
  | .s64 | .s32 | .s16 | .s8 => true
  | _ => false

def Ty.isFloat : Ty → Bool
  | .f32 | .bf16 | .f16 | .e4m3 | .e5m2 => true
  | _ => false

def Ty.minInt (t : Ty) : Int := if Ty.signed t then -(2 ^ (Ty.width t - 1) : Nat) else 0
def Ty.maxInt (t : Ty) : Int := if Ty.signed t then (2 ^ (Ty.width t - 1) : Nat) - 1 else (2 ^ Ty.width t : Nat) - 1

/-- The integer a pattern of the type's width stands for. -/
def Ty.toInt (t : Ty) (v : Nat) : Int :=
  if Ty.signed t ∧ 2 ^ (Ty.width t - 1) ≤ v then (v : Int) - (2 ^ Ty.width t : Nat) else v

/-- The low bits of an integer, as a pattern of `n` bits. -/
def wrapInt (n : Nat) (i : Int) : Nat := (i % (2 ^ n : Nat)).toNat

/-- Fit (04 R112): the low bits, or the value clamped to the type's range. -/
def Ty.fit (t : Ty) (sat : Bool) (i : Int) : Nat :=
  wrapInt (Ty.width t) (if sat then max (Ty.minInt t) (min (Ty.maxInt t) i) else i)

/-! ### Floating-point formats (04 R113, R114) -/

/-- A format: fraction bits, exponent bits, bias, and how it codes what is not finite. -/
structure Fmt where
  frac : Nat
  ebits : Nat
  bias : Nat
  hasInf : Bool
  deriving DecidableEq, Repr

def fmtF32 : Fmt := ⟨23, 8, 127, true⟩
def fmtBf16 : Fmt := ⟨7, 8, 127, true⟩
def fmtF16 : Fmt := ⟨10, 5, 15, true⟩
def fmtE4m3 : Fmt := ⟨3, 4, 7, false⟩
def fmtE5m2 : Fmt := ⟨2, 5, 15, true⟩

def Ty.fmt : Ty → Fmt
  | .bf16 => fmtBf16
  | .f16 => fmtF16
  | .e4m3 => fmtE4m3
  | .e5m2 => fmtE5m2
  | _ => fmtF32

namespace Fmt

def bitsOf (F : Fmt) : Nat := 1 + F.ebits + F.frac
/-- Significand bits. -/
def p (F : Fmt) : Nat := F.frac + 1
/-- Exponent of the smallest normal. -/
def emin (F : Fmt) : Int := 1 - (F.bias : Int)
/-- Exponent of the spacing of subnormals. -/
def qmin (F : Fmt) : Int := F.emin - F.frac
/-- Code of the largest finite magnitude. -/
def maxCode (F : Fmt) : Nat := if F.hasInf then (2 ^ F.ebits - 1) * 2 ^ F.frac - 1 else 2 ^ (F.ebits + F.frac) - 2
def infCode (F : Fmt) : Nat := (2 ^ F.ebits - 1) * 2 ^ F.frac
/-- The canonical NaN (04 R115). -/
def nanCode (F : Fmt) : Nat := if F.hasInf then F.infCode + 2 ^ (F.frac - 1) else 2 ^ (F.ebits + F.frac) - 1
def signBit (F : Fmt) : Nat := 2 ^ (F.ebits + F.frac)

end Fmt

/-- A value: NaN, an infinity, or (-1)^neg x m x 2^e. -/
inductive FVal
  | nan
  | inf (neg : Bool)
  | fin (neg : Bool) (m : Nat) (e : Int)
  deriving DecidableEq, Repr

/-- The value of a code (04 R113, R114). -/
def Fmt.value (F : Fmt) (code : Nat) : FVal :=
  let neg := decide (F.signBit ≤ code % (2 * F.signBit))
  let mag := code % F.signBit
  let e := mag / 2 ^ F.frac
  let f := mag % 2 ^ F.frac
  if F.maxCode < mag then
    if F.hasInf ∧ f = 0 then .inf neg else .nan
  else if e = 0 then .fin neg f F.qmin
  else .fin neg (2 ^ F.frac + f) (F.qmin + e - 1)

/-- A subnormal becomes a zero of its sign under FTZ (04 R119). -/
def Fmt.flush (F : Fmt) (ftz : Bool) (v : FVal) : FVal :=
  match v with
  | .fin neg m e => if ftz ∧ e = F.qmin ∧ m < 2 ^ F.frac then .fin neg 0 0 else v
  | v => v

def zeroVal (neg : Bool) : FVal := .fin neg 0 0

/-- A significand shifted to the spacing 2^q: the quotient, whether the rest is above, at or below a half, nonzero. -/
structure Cut where
  n : Nat
  half : Bool
  more : Bool

def cut (m : Nat) (sh : Int) : Cut :=
  if sh ≤ 0 then { n := m * 2 ^ (-sh).toNat, half := false, more := false }
  else
    let k := sh.toNat
    let r := m % 2 ^ k
    { n := m / 2 ^ k, half := decide (2 ^ (k - 1) ≤ r), more := decide (r % 2 ^ (k - 1) ≠ 0) }

def roundsUp (rm : RM) (neg : Bool) (c : Cut) : Bool :=
  match rm with
  | .rne => c.half && (c.more || c.n % 2 == 1)
  | .rz => false
  | .ru => (c.half || c.more) && !neg
  | .rd => (c.half || c.more) && neg

/-- Overflow (04 R118): infinity or the largest finite value; a format without infinity has its NaN. -/
def Fmt.overflow (F : Fmt) (neg : Bool) (rm : RM) (sat : Bool) : Nat :=
  let s := if neg then F.signBit else 0
  let toMax := sat || (match rm with
    | .rne => false
    | .rz => true
    | .ru => neg
    | .rd => !neg)
  if toMax then s + F.maxCode else if F.hasInf then s + F.infCode else F.nanCode

/-- RoundTo with the exponent unbounded: the magnitude as n x 2^q (04 R117). -/
def Fmt.roundMag (F : Fmt) (neg : Bool) (m : Nat) (e : Int) (rm : RM) : Nat × Int :=
  let q := max ((m.log2 : Int) + e) F.emin - F.frac
  let c := cut m (q - e)
  (if roundsUp rm neg c then c.n + 1 else c.n, q)

/-- The code a rounded magnitude would have were the exponent unbounded. -/
def Fmt.magCode (F : Fmt) (n : Nat) (q : Int) : Nat := (q - F.qmin).toNat * 2 ^ F.frac + n

/-- RoundTo (04 R117), with R118 on overflow and R119 under FTZ: the code of the format. -/
def Fmt.encode (F : Fmt) (v : FVal) (rm : RM := .rne) (sat : Bool := false) (ftz : Bool := false) : Nat :=
  match v with
  | .nan => F.nanCode
  | .inf neg => if F.hasInf then (if neg then F.signBit else 0) + F.infCode else F.nanCode
  | .fin neg m e =>
    let s := if neg then F.signBit else 0
    if m = 0 then s
    else
      let r := F.roundMag neg m e rm
      let code := F.magCode r.1 r.2
      if F.maxCode < code then F.overflow neg rm sat
      else if ftz ∧ code < 2 ^ F.frac then s
      else s + code

/-! ### Arithmetic on values (04 R115, R116) -/

namespace FVal

def isNan : FVal → Bool
  | .nan => true
  | _ => false

def neg : FVal → FVal
  | .nan => .nan
  | .inf n => .inf !n
  | .fin n m e => .fin (!n) m e

def sgn : FVal → Bool
  | .nan => false
  | .inf n => n
  | .fin n _ _ => n

def isZero : FVal → Bool
  | .fin _ m _ => m == 0
  | _ => false

/-- The signed significand at exponent `e0`, at or below the value's own. -/
def scaled (neg : Bool) (m : Nat) (e e0 : Int) : Int :=
  let k : Int := (m * 2 ^ (e - e0).toNat : Nat)
  if neg then -k else k

def ofInt (i : Int) (e : Int) (zeroNeg : Bool) : FVal :=
  if i = 0 then .fin zeroNeg 0 0 else .fin (decide (i < 0)) i.natAbs e

/-- The exact sum; an exact zero sum has the sign 04 R116 gives. -/
def add (a b : FVal) (rm : RM) : FVal :=
  match a, b with
  | .nan, _ => .nan
  | _, .nan => .nan
  | .inf x, .inf y => if x = y then .inf x else .nan
  | .inf x, _ => .inf x
  | _, .inf y => .inf y
  | .fin n1 m1 e1, .fin n2 m2 e2 =>
    let e := min e1 e2
    ofInt (scaled n1 m1 e1 e + scaled n2 m2 e2 e) e (if n1 = n2 then n1 else decide (rm = .rd))

def sub (a b : FVal) (rm : RM) : FVal := add a b.neg rm

/-- The exact product. -/
def mul (a b : FVal) : FVal :=
  match a, b with
  | .nan, _ => .nan
  | _, .nan => .nan
  | .inf x, .inf y => .inf (x != y)
  | .inf x, .fin y m _ => if m = 0 then .nan else .inf (x != y)
  | .fin x m _, .inf y => if m = 0 then .nan else .inf (x != y)
  | .fin n1 m1 e1, .fin n2 m2 e2 => .fin (n1 != n2) (m1 * m2) (e1 + e2)

/-- A quotient of magnitudes with a last bit that says whether anything is left. -/
def quot (a b k : Nat) : Nat := 2 * (a * 2 ^ k / b) + (if a * 2 ^ k % b = 0 then 0 else 1)

/-- The quotient, exact or with the sticky bit below every format's rounding point. -/
def div (a b : FVal) : FVal :=
  match a, b with
  | .nan, _ => .nan
  | _, .nan => .nan
  | .inf _, .inf _ => .nan
  | .inf x, .fin y _ _ => .inf (x != y)
  | .fin x _ _, .inf y => .fin (x != y) 0 0
  | .fin n1 m1 e1, .fin n2 m2 e2 =>
    if m2 = 0 then (if m1 = 0 then .nan else .inf (n1 != n2))
    else if m1 = 0 then .fin (n1 != n2) 0 0
    else .fin (n1 != n2) (quot m1 m2 64) (e1 - e2 - 65)

end FVal

/-- The integer square root of a number below 4^fuel, by its bits from the top. -/
def isqrtBits : Nat → Nat → Nat → Nat
  | 0, _, r => r
  | k + 1, n, r => isqrtBits k n (if (r + 2 ^ k) * (r + 2 ^ k) ≤ n then r + 2 ^ k else r)

def isqrt (n : Nat) : Nat := isqrtBits (n.log2 / 2 + 1) n 0

namespace FVal

/-- The square root, exact or with a sticky bit. -/
def sqrt (a : FVal) : FVal :=
  match a with
  | .nan => .nan
  | .inf false => .inf false
  | .inf true => .nan
  | .fin neg m e =>
    if m = 0 then .fin neg 0 0
    else if neg then .nan
    else
      let k : Nat := if e % 2 = 0 then 64 else 65
      let x := m * 2 ^ k
      let r := isqrt x
      .fin false (2 * r + (if r * r = x then 0 else 1)) ((e - k) / 2 - 1)

/-- The reciprocal square root. -/
def rsqrt (a : FVal) : FVal :=
  match a with
  | .nan => .nan
  | .inf false => .fin false 0 0
  | .inf true => .nan
  | .fin neg m e =>
    if m = 0 then .inf neg
    else if neg then .nan
    else
      let k : Nat := if e % 2 = 0 then 0 else 1
      let x := m * 2 ^ k
      let r := isqrt (2 ^ 256 / x)
      .fin false (2 * r + (if r * r * x = 2 ^ 256 then 0 else 1)) (-128 - (e - k) / 2 - 1)

end FVal

/-! ### Base-two exponential and logarithm (06 R188; log 14) -/

/-- Fraction bits of the fixed-point numbers below. -/
def fixBits : Nat := 320

/-- ln 2 in fixed point, as the sum of 1 / (k 2^k). -/
def ln2Sum : Nat → Nat
  | 0 => 0
  | k + 1 => ln2Sum k + 2 ^ fixBits / ((k + 1) * 2 ^ (k + 1))

def ln2Fix : Nat := ln2Sum 340

/-- The sum of x^k / k! in fixed point: the term before, its index, the terms left. -/
def expSum : Nat → Nat → Nat → Nat → Nat
  | 0, _, _, _ => 0
  | fuel + 1, term, k, x => term + expSum fuel (term * x / (2 ^ fixBits * (k + 1))) (k + 1) x

/-- 2^f for a fraction in fixed point. -/
def exp2Fix (f : Nat) : Nat := expSum 90 (2 ^ fixBits) 0 (f * ln2Fix / 2 ^ fixBits)

/-- Bits of log2 of a fixed-point number in [1, 2), by squaring. -/
def log2Bits : Nat → Nat → Nat → Nat
  | 0, _, acc => acc
  | k + 1, y, acc =>
    let z := y * y / 2 ^ fixBits
    if 2 ^ (fixBits + 1) ≤ z then log2Bits k (z / 2) (2 * acc + 1) else log2Bits k z (2 * acc)

namespace FVal

/-- 2 to the power of a value, exact or with a sticky bit. -/
def exp2 (a : FVal) : FVal :=
  match a with
  | .nan => .nan
  | .inf false => .inf false
  | .inf true => .fin false 0 0
  | .fin neg m e =>
    if m = 0 then .fin false 1 0
    else if 12 ≤ (m.log2 : Int) + e then .fin false 1 (if neg then -5000 else 5000)
    else
      let i := scaled neg m e (min e 0)
      let d := (min e 0).natAbs
      let n := i / (2 ^ d : Nat)
      let f := (i % (2 ^ d : Nat)).toNat
      if f = 0 then .fin false 1 n
      else .fin false (2 * exp2Fix (f * 2 ^ fixBits / 2 ^ d) + 1) (n - fixBits - 1)

/-- log2 of a value, exact or with a sticky bit. -/
def log2 (a : FVal) : FVal :=
  match a with
  | .nan => .nan
  | .inf false => .inf false
  | .inf true => .nan
  | .fin neg m e =>
    if m = 0 then .inf true
    else if neg then .nan
    else
      let l := (m.log2 : Int) + e
      if m = 2 ^ m.log2 then ofInt l 0 false
      else
        let y := m * 2 ^ fixBits / 2 ^ m.log2
        let i := l * (2 ^ 150 : Nat) + log2Bits 150 y 0
        if 0 ≤ i then .fin false (2 * i.natAbs + 1) (-151) else .fin true (2 * (i.natAbs - 1) + 1) (-151)

/-- Numeric order; zeros are equal. -/
def cmp (a b : FVal) : Int :=
  match a, b with
  | .inf x, .inf y => if x = y then 0 else if x then -1 else 1
  | .inf x, _ => if x then -1 else 1
  | _, .inf y => if y then 1 else -1
  | .fin n1 m1 e1, .fin n2 m2 e2 =>
    let e := min e1 e2
    scaled n1 m1 e1 e - scaled n2 m2 e2 e
  | _, _ => 0

/-- Equal numbers. -/
def eqv (a b : FVal) : Bool := !a.isNan && !b.isNan && cmp a b == 0
def lt (a b : FVal) : Bool := !a.isNan && !b.isNan && decide (cmp a b < 0)
def le (a b : FVal) : Bool := !a.isNan && !b.isNan && decide (cmp a b ≤ 0)

/-- The order of minimum and maximum: -0 below +0 (06 R186). -/
def ltMin (a b : FVal) : Bool := lt a b || (eqv a b && a.sgn && !b.sgn)

/-- A finite value rounded to an integer (04 R121). -/
def roundInt (neg : Bool) (m : Nat) (e : Int) (rm : RM) : Int :=
  let c := cut m (-e)
  let n : Int := if roundsUp rm neg c then c.n + 1 else c.n
  if neg then -n else n

/-- Conversion to an integer type, clamped, NaN to 0 (04 R121). -/
def toIntTy (v : FVal) (t : Ty) (rm : RM) : Int :=
  match v with
  | .nan => 0
  | .inf n => if n then Ty.minInt t else Ty.maxInt t
  | .fin n m e => max (Ty.minInt t) (min (Ty.maxInt t) (roundInt n m e rm))

end FVal

/-! ### binary32 operations -/

def f32Val (w : BitVec 32) : FVal := fmtF32.value w.toNat
def f32Of (v : FVal) (rm : RM := .rne) : BitVec 32 := BitVec.ofNat 32 (fmtF32.encode v rm)

def f32Add (a b : BitVec 32) : BitVec 32 := f32Of ((f32Val a).add (f32Val b) .rne)
def f32Sub (a b : BitVec 32) : BitVec 32 := f32Of ((f32Val a).sub (f32Val b) .rne)
def f32Mul (a b : BitVec 32) : BitVec 32 := f32Of ((f32Val a).mul (f32Val b))
def f32Fma (a b c : BitVec 32) : BitVec 32 := f32Of (((f32Val a).mul (f32Val b)).add (f32Val c) .rne)

/-- The smaller or larger of two values; one NaN gives the other (03 R86, 06 R186, 09 R286). -/
def pickMin (a b : FVal) : FVal :=
  if a.isNan then b else if b.isNan then a else if FVal.ltMin b a then b else a
def pickMax (a b : FVal) : FVal :=
  if a.isNan then b else if b.isNan then a else if FVal.ltMin a b then b else a

def f32Min (a b : BitVec 32) : BitVec 32 := f32Of (pickMin (f32Val a) (f32Val b))
def f32Max (a b : BitVec 32) : BitVec 32 := f32Of (pickMax (f32Val a) (f32Val b))

def f32IsFinite (a : BitVec 32) : Bool := match f32Val a with
  | .fin _ _ _ => true
  | _ => false

/-! ### QC4 (04 R123 to R127) -/

/-- The levels times 256: every one is exact. -/
def qc4Levels : List Int :=
  [-256, -184, -136, -100, -70, -44, -21, 0, 20, 41, 64, 89, 117, 150, 192, 256]

def qc4Level (i : Nat) : Int := qc4Levels.getD i 0

def qc4LevelVal (i : Nat) : FVal := FVal.ofInt (qc4Level i) (-8) false

/-- A block scale: significand and exponent (04 R124). -/
def scaleParts (c : Nat) : Nat × Int := if c / 16 = 0 then (c, -18) else (16 + c % 16, (c / 16 : Nat) - 15 - 4)

def scaleVal (c : Nat) : FVal := .fin false (scaleParts c).1 (scaleParts c).2

/-- DecodeQC4 of one element (04 R126). -/
def decodeQc4 (code scale : Nat) (super : BitVec 32) : FVal :=
  if scale = 0x1FF then .nan
  else f32Val (f32Mul (f32Of ((qc4LevelVal code).mul (scaleVal scale))) super)

/-- Fields of a super-block of 288 bytes as one number (04 R125). -/
def qc4Code (blk : Nat) (i : Nat) : Nat := (blk >>> (4 * i)) % 16
def qc4Scale (blk : Nat) (j : Nat) : Nat := (blk >>> (8 * 256 + 9 * j)) % 512
def qc4Super (blk : Nat) : BitVec 32 := BitVec.ofNat 32 (blk >>> (8 * 274))

/-! ### The matrix cell (04 R128 to R133) -/

/-- The lowest bit of the 48-bit window of finite products. -/
def windowExp (ps : List FVal) : Option Int :=
  ps.foldl (fun acc p => match p with
    | .fin _ m e => if m = 0 then acc else
        let l := (m.log2 : Int) + e
        some (match acc with
          | none => l
          | some a => max a l)
    | _ => acc) none

/-- A magnitude truncated to a multiple of 2^w, and whether bits were lost. -/
def truncTo (m : Nat) (e w : Int) : Nat × Bool :=
  let c := cut m (w - e)
  (c.n, c.half || c.more)

/-- The window sum of finite products (04 R129). -/
def windowSum (ps : List FVal) : BitVec 32 :=
  match windowExp ps with
  | none => if ps.all (·.sgn) then 0x80000000 else 0
  | some top =>
    let w := top - 47
    let parts := ps.map fun p => match p with
      | .fin neg m e =>
        let r := truncTo m e w
        ((if neg then -(r.1 : Int) else (r.1 : Int)), r.2)
      | _ => (0, false)
    let sum := parts.foldl (fun a p => a + p.1) (0 : Int)
    let sticky := parts.any (·.2)
    if sum = 0 then 0
    else
      let m := sum.natAbs
      let u := max ((m.log2 : Int) + w - 23) (-149)
      let c := cut m (u - w)
      let up := c.half && (c.more || sticky || c.n % 2 == 1)
      let n := if up then c.n + 1 else c.n
      f32Of (.fin (decide (sum < 0)) n u)

/-- The value a cell's products give in one array cycle (04 R128). -/
def cellValue (ps : List FVal) : BitVec 32 :=
  if ps.any (·.isNan) || (ps.contains (.inf false) && ps.contains (.inf true)) then 0x7FC00000
  else if ps.contains (.inf false) then 0x7F800000
  else if ps.contains (.inf true) then 0xFF800000
  else windowSum ps

/-- A cell's value of a QC4 block against FP8 activations (04 R131). -/
def cellQc4 (ps : List FVal) (scale : Nat) (super : BitVec 32) : BitVec 32 :=
  if scale = 0x1FF then 0x7FC00000
  else f32Mul (f32Of ((f32Val (cellValue ps)).mul (scaleVal scale))) super

/-- An accumulator pair folded with a cycle's value (04 R132); s is the low word of the pair. DESIGN CHOICE (log 100): a pair
that ACCWR wrote with c a NaN and s finite is folded as the pseudocode folds it, and s stays finite. -/
def accFold (pair : BitVec 64) (y : BitVec 32) : BitVec 64 :=
  let s := pair.setWidth 32
  let c := pair.extractLsb' 32 32
  let t := f32Add s y
  if f32IsFinite t then
    let z := f32Sub t s
    let e := f32Add (f32Sub s (f32Sub t z)) (f32Sub y z)
    f32Add c e ++ t
  else t ++ t

/-- The combined reading of a pair (04 R133). -/
def accSum (pair : BitVec 64) : BitVec 32 :=
  let s := pair.setWidth 32
  let c := pair.extractLsb' 32 32
  match f32Val s, f32Val c with
  | .inf a, .inf b => if a = b then s else 0x7FC00000
  | _, _ => f32Add s c

end Sys2Proof.Machine
end

