-- ==== Sys2Proof/Machine/Scalar.lean ====
section
/-! DEFINITION. Class 0: the integer instructions, constants and addresses, scalar FP32 (03 R74 to R88). -/

namespace Sys2Proof.Machine

/-! ### Operands and results -/

/-- The first mark among the operands of an instruction that consumes them raises DATA (08 R263, 09 R276). -/
def noMark (ms : List (Option Mark)) : Res Unit :=
  match ms.findSome? id with
  | some m => .error (dataTrap m)
  | none => .ok ()

/-- A class 0 instruction: operands in the order a, b, c, then the result, when the predicate's bit 0 says so
(03 R74, R77; 01 R16, R18, R21). -/
def runS (f : FormS) (op : Word → Word → Word → Word) : Body := onStrand fun t => do
  frozenMarks t (gateOn t f.gate) (f.a :: (if f.imm then [f.c] else [f.b, f.c]))
  let a ← readScalar t f.a
  let b ← if f.imm then .ok { val := immVal f, mark := none, rest := a.rest } else readScalar a.rest f.b
  let c ← readScalar b.rest f.c
  if gateOn t f.gate then do
    noMark [a.mark, b.mark, c.mark]
    .ok (c.rest.putD f.d (op a.val b.val c.val))
  else .ok c.rest

/-- Op (03 R74): the low W bits, as an integer of the type. -/
def opInt (ty : Ty) (x : Word) : Int := Ty.toInt ty (x.toNat % 2 ^ Ty.width ty)

/-- Res (03 R74): W bits kept and extended. -/
def resWord (ty : Ty) (v : Int) : Word := BitVec.ofInt 64 (Ty.toInt ty (wrapInt (Ty.width ty) v))

/-- The low W bits of an operand. -/
def low (ty : Ty) (x : Word) : Nat := x.toNat % 2 ^ Ty.width ty

def flagWord (b : Bool) : Word := if b then 1 else 0

/-! ### Integer operations (03 R79 to R84) -/

def addOp (ty : Ty) (a b _c : Word) : Word := resWord ty (opInt ty a + opInt ty b)
def subOp (ty : Ty) (a b _c : Word) : Word := resWord ty (opInt ty a - opInt ty b)
def mulOp (ty : Ty) (a b _c : Word) : Word := resWord ty (opInt ty a * opInt ty b)
def muladdOp (ty : Ty) (a b c : Word) : Word := resWord ty (opInt ty a * opInt ty b + opInt ty c)
/-- The upper W bits of the product (03 R79). -/
def mulhOp (ty : Ty) (a b _c : Word) : Word := resWord ty (opInt ty a * opInt ty b / (2 ^ Ty.width ty : Nat))

/-- 03 R80: a zero divisor gives all ones; the quotient rounds toward zero. -/
def divOp (ty : Ty) (a b _c : Word) : Word :=
  if opInt ty b = 0 then resWord ty (2 ^ 64 - 1) else resWord ty (Int.tdiv (opInt ty a) (opInt ty b))

/-- 03 R80: a zero divisor leaves the dividend; the remainder has the sign of the dividend. -/
def remOp (ty : Ty) (a b _c : Word) : Word :=
  if opInt ty b = 0 then resWord ty (opInt ty a) else resWord ty (Int.tmod (opInt ty a) (opInt ty b))

/-- A bitwise operation on the low W bits. -/
def bitOp (op : Nat → Nat → Nat) (ty : Ty) (a b _c : Word) : Word := resWord ty (op (low ty a) (low ty b))

def notLow (ty : Ty) (n : Nat) : Nat := 2 ^ Ty.width ty - 1 - n

def andOp (ty : Ty) : Word → Word → Word → Word := bitOp (· &&& ·) ty
def orOp (ty : Ty) : Word → Word → Word → Word := bitOp (· ||| ·) ty
def xorOp (ty : Ty) : Word → Word → Word → Word := bitOp (· ^^^ ·) ty
def andnOp (ty : Ty) : Word → Word → Word → Word := bitOp (fun a b => a &&& notLow ty b) ty
def ornOp (ty : Ty) : Word → Word → Word → Word := bitOp (fun a b => a ||| notLow ty b) ty

/-- The shift count: the low log2(W) bits of b (03 R81). -/
def shiftCount (ty : Ty) (b : Word) : Nat := b.toNat % Ty.width ty

def sllOp (ty : Ty) (a b _c : Word) : Word := resWord ty (low ty a * 2 ^ shiftCount ty b : Nat)
def srlOp (ty : Ty) (a b _c : Word) : Word := resWord ty (low ty a / 2 ^ shiftCount ty b : Nat)
/-- Arithmetic, whatever the type's sign (03 R81). -/
def sraOp (ty : Ty) (a b _c : Word) : Word :=
  let w := Ty.width ty
  let i : Int := if 2 ^ (w - 1) ≤ low ty a then (low ty a : Int) - (2 ^ w : Nat) else low ty a
  resWord ty (i / (2 ^ shiftCount ty b : Nat))
def rorOp (ty : Ty) (a b _c : Word) : Word :=
  let w := Ty.width ty
  let k := shiftCount ty b
  resWord ty (low ty a / 2 ^ k + low ty a * 2 ^ (w - k) % 2 ^ w : Nat)

def minOp (ty : Ty) (a b _c : Word) : Word := resWord ty (min (opInt ty a) (opInt ty b))
def maxOp (ty : Ty) (a b _c : Word) : Word := resWord ty (max (opInt ty a) (opInt ty b))

/-- Zero bits above the highest one of `n`, in `w` bits. -/
def leadingZeros (w n : Nat) : Nat := if n = 0 then w else w - 1 - n.log2

/-- Zero bits below the lowest one. -/
def trailingZeros : Nat → Nat → Nat
  | 0, _ => 0
  | w + 1, n => if n % 2 = 1 then 0 else 1 + trailingZeros w (n / 2)

/-- One bits of the low `w` bits. -/
def popCount : Nat → Nat → Nat
  | 0, _ => 0
  | w + 1, n => n % 2 + popCount w (n / 2)

def clzOp (ty : Ty) (a _b _c : Word) : Word := BitVec.ofNat 64 (leadingZeros (Ty.width ty) (low ty a))
def ctzOp (ty : Ty) (a _b _c : Word) : Word := BitVec.ofNat 64 (trailingZeros (Ty.width ty) (low ty a))
def popcOp (ty : Ty) (a _b _c : Word) : Word := BitVec.ofNat 64 (popCount (Ty.width ty) (low ty a))

/-- Field position and length of BEXT and BINS (03 R83). -/
def fieldPos (b : Word) : Nat := bits b 0 6
def fieldLen (b : Word) : Nat := Nat.min (bits b 6 7) 64

def bextOp (ty : Ty) (a b _c : Word) : Word :=
  let len := fieldLen b
  let f := a.toNat / 2 ^ fieldPos b % 2 ^ len
  if len = 0 then 0
  else if ty = .s64 ∧ 2 ^ (len - 1) ≤ f then BitVec.ofInt 64 ((f : Int) - (2 ^ len : Nat))
  else BitVec.ofNat 64 f

def binsOp (_ty : Ty) (a b c : Word) : Word :=
  let pos := fieldPos b
  let len := Nat.min (fieldLen b) (64 - pos)
  let mask : Word := BitVec.ofNat 64 ((2 ^ len - 1) * 2 ^ pos)
  (c &&& ~~~mask) ||| ((a <<< pos) &&& mask)

/-- SEXT and ZEXT: the low w bits extended as the type says (03 R83). -/
def extOp (ty : Ty) (a _b _c : Word) : Word := BitVec.ofInt 64 (opInt ty a)

def sltOp (ty : Ty) (a b _c : Word) : Word := flagWord (decide (opInt ty a < opInt ty b))
def seqOp (ty : Ty) (a b _c : Word) : Word := flagWord (decide (opInt ty a = opInt ty b))
def selOp (ty : Ty) (a b c : Word) : Word := if c ≠ 0 then resWord ty (opInt ty a) else resWord ty (opInt ty b)

def moviOp (ty : Ty) (_a b _c : Word) : Word := resWord ty (opInt ty b)
def movhiOp (imm : BitVec 32) (a _b _c : Word) : Word := imm ++ (a.setWidth 32 : BitVec 32)
def leaOp (sh : BitVec 4) (disp : BitVec 32) (a b _c : Word) : Word := a + (b <<< sh.toNat) + disp.signExtend 64

/-! ### Scalar FP32 operations (03 R85 to R88) -/

def f32In (w : Word) : BitVec 32 := w.setWidth 32

def sfaddOp (a b _c : Word) : Word := (f32Add (f32In a) (f32In b)).setWidth 64
def sfmulOp (a b _c : Word) : Word := (f32Mul (f32In a) (f32In b)).setWidth 64
def sffmaOp (a b c : Word) : Word := (f32Fma (f32In a) (f32In b) (f32In c)).setWidth 64
def sfminOp (a b _c : Word) : Word := (f32Min (f32In a) (f32In b)).setWidth 64
def sfmaxOp (a b _c : Word) : Word := (f32Max (f32In a) (f32In b)).setWidth 64

/-- 03 R87. -/
def sfcmpOp (aux : BitVec 4) (a b _c : Word) : Word :=
  let x := f32Val (f32In a)
  let y := f32Val (f32In b)
  flagWord (match aux.toNat with
    | 0 => FVal.eqv x y
    | 1 => FVal.lt x y
    | 2 => FVal.le x y
    | _ => x.isNan || y.isNan)

/-- 03 R88. -/
def sfcvtOp (aux : BitVec 4) (a _b _c : Word) : Word :=
  let v := f32Val (f32In a)
  match aux.toNat with
  | 0 => (f32Of (FVal.ofInt a.toInt 0 false)).setWidth 64
  | 1 => (f32Of (FVal.ofInt a.toNat 0 false)).setWidth 64
  | 2 => BitVec.ofInt 64 (v.toIntTy .s64 .rz)
  | 3 => BitVec.ofInt 64 (v.toIntTy .z64 .rz)
  | 4 => BitVec.ofInt 64 (v.toIntTy .s64 .rne)
  | _ => BitVec.ofInt 64 (v.toIntTy .z64 .rne)

/-! ### Meanings -/

/-- A class 0 instruction issues ahead of E when it is A's: a trap of an older word takes its register back. -/
def execS (i : Instr) (f : FormS) (op : Word → Word → Word → Word) (s : State) : Answer :=
  issue i .ahead anyLevel (runS f op) s

def execAdd (f : FormS) (s : State) : Answer := execS (.add f) f (addOp f.ty) s
def execSub (f : FormS) (s : State) : Answer := execS (.sub f) f (subOp f.ty) s
def execMul (f : FormS) (s : State) : Answer := execS (.mul f) f (mulOp f.ty) s
def execMulh (f : FormS) (s : State) : Answer := execS (.mulh f) f (mulhOp f.ty) s
def execMulhz (f : FormS) (s : State) : Answer := execS (.mulhz f) f (mulhOp f.ty) s
def execMuladd (f : FormS) (s : State) : Answer := execS (.muladd f) f (muladdOp f.ty) s
def execDiv (f : FormS) (s : State) : Answer := execS (.div f) f (divOp f.ty) s
def execDivz (f : FormS) (s : State) : Answer := execS (.divz f) f (divOp f.ty) s
def execRem (f : FormS) (s : State) : Answer := execS (.rem f) f (remOp f.ty) s
def execRemz (f : FormS) (s : State) : Answer := execS (.remz f) f (remOp f.ty) s
def execAnd (f : FormS) (s : State) : Answer := execS (.and f) f (andOp f.ty) s
def execOr (f : FormS) (s : State) : Answer := execS (.or f) f (orOp f.ty) s
def execXor (f : FormS) (s : State) : Answer := execS (.xor f) f (xorOp f.ty) s
def execAndn (f : FormS) (s : State) : Answer := execS (.andn f) f (andnOp f.ty) s
def execOrn (f : FormS) (s : State) : Answer := execS (.orn f) f (ornOp f.ty) s
def execSll (f : FormS) (s : State) : Answer := execS (.sll f) f (sllOp f.ty) s
def execSrl (f : FormS) (s : State) : Answer := execS (.srl f) f (srlOp f.ty) s
def execSra (f : FormS) (s : State) : Answer := execS (.sra f) f (sraOp f.ty) s
def execRor (f : FormS) (s : State) : Answer := execS (.ror f) f (rorOp f.ty) s
def execMin (f : FormS) (s : State) : Answer := execS (.min f) f (minOp f.ty) s
def execMax (f : FormS) (s : State) : Answer := execS (.max f) f (maxOp f.ty) s
def execMinz (f : FormS) (s : State) : Answer := execS (.minz f) f (minOp f.ty) s
def execMaxz (f : FormS) (s : State) : Answer := execS (.maxz f) f (maxOp f.ty) s
def execClz (f : FormS) (s : State) : Answer := execS (.clz f) f (clzOp f.ty) s
def execCtz (f : FormS) (s : State) : Answer := execS (.ctz f) f (ctzOp f.ty) s
def execPopc (f : FormS) (s : State) : Answer := execS (.popc f) f (popcOp f.ty) s
def execBext (f : FormS) (s : State) : Answer := execS (.bext f) f (bextOp f.ty) s
def execBins (f : FormS) (s : State) : Answer := execS (.bins f) f (binsOp f.ty) s
def execSext (f : FormS) (s : State) : Answer := execS (.sext f) f (extOp f.ty) s
def execZext (f : FormS) (s : State) : Answer := execS (.zext f) f (extOp f.ty) s
def execSlt (f : FormS) (s : State) : Answer := execS (.slt f) f (sltOp f.ty) s
def execSltz (f : FormS) (s : State) : Answer := execS (.sltz f) f (sltOp f.ty) s
def execSeq (f : FormS) (s : State) : Answer := execS (.seq f) f (seqOp f.ty) s
def execSel (f : FormS) (s : State) : Answer := execS (.sel f) f (selOp f.ty) s
def execMovi (f : FormS) (s : State) : Answer := execS (.movi f) f (moviOp f.ty) s
def execMovhi (f : FormS) (s : State) : Answer := execS (.movhi f) f (movhiOp f.imm32) s
def execLea (f : FormS) (s : State) : Answer := execS (.lea f) f (leaOp f.aux f.imm32) s
def execSfadd (f : FormS) (s : State) : Answer := execS (.sfadd f) f sfaddOp s
def execSfmul (f : FormS) (s : State) : Answer := execS (.sfmul f) f sfmulOp s
def execSffma (f : FormS) (s : State) : Answer := execS (.sffma f) f sffmaOp s
def execSfcmp (f : FormS) (s : State) : Answer := execS (.sfcmp f) f (sfcmpOp f.aux) s
def execSfcvt (f : FormS) (s : State) : Answer := execS (.sfcvt f) f (sfcvtOp f.aux) s
def execSfmin (f : FormS) (s : State) : Answer := execS (.sfmin f) f sfminOp s
def execSfmax (f : FormS) (s : State) : Answer := execS (.sfmax f) f sfmaxOp s

end Sys2Proof.Machine
end

