-- ==== Sys2Proof/Machine/Cache.lean ====
section
/-! DEFINITION. What releases and acquires do to a tile's L1, and what an access of the access slice waits for (08 R252 to
R259). -/

namespace Sys2Proof.Machine

/-! ### Releases and acquires (08 R255, R256, R259) -/

def wide : Scope → Bool
  | .strand | .tile => false
  | _ => true

/-- The L1 step of a release. -/
def State.releaseL1 (s : State) (tile : Nat) (sc : Scope) : State := if wide sc && tile != 192 then s.writeBackAll tile else s

/-- The L1 step of an acquire. -/
def State.acquireL1 (s : State) (tile : Nat) (sc : Scope) : State := if wide sc && tile != 192 then s.flushAll tile else s

/-- An acquire at a scope wider than the tile reads at the visibility point of its scope: the tile's copies of the lines
it reads are written back and dropped first (08 R225, R248; log 16). -/
def State.freshen (s : State) (tile : Nat) (sc : Scope) (ps : List Part) : State :=
  if wide sc && tile != 192 then (ps.filter (·.cacheable)).foldl (fun s p => s.flushLine tile (p.loc / 128)) s else s

/-- At .dom a release waits for the acknowledgements of older stores to other devices (08 R259). -/
def State.acked (s : State) (tile : Nat) (sc : Scope) : Bool := sc != .dom || s.out.fab.all (·.tile != tile)

/-- The tile whose strands the strand belongs to, 192 for the headstock. -/
def unitOf (sid : Nat) : Nat := if isHead sid then 192 else tileOf sid

/-! ### What an access of the access slice waits for -/

def isTktake (e : EwEnt) : Bool := match e.instr with
  | .tktake _ => true
  | _ => false

/-- An acquire of the strand has not completed (08 R256): a load or atomic with .acq, or a TKTAKE of the window. -/
def acquiring (t : Strand) : Bool :=
  t.loads.any (·.acq.isSome) || t.atoms.any (·.acq.isSome) || t.ewin.any isTktake

/-- A load waits for an acquire, and for what an older QMARK orders it after (08 R253). -/
def loadReady (t : Strand) : Res Unit :=
  if acquiring t then .error (stall .acquire)
  else do
    need (!storesBefore t t.qmark) (stall (storesWhy t))
    need (t.atoms.all fun a => a.performed || decide (t.qmark ≤ a.seq)) (stall .older)

/-- A load overlaps an older atomic of its strand that is not performed (08 R252). -/
def meetsAtom (t : Strand) (ps : List Part) : Bool :=
  t.atoms.any fun a => !a.performed && ps.any fun p => decide (p.loc < a.part.loc + a.part.len) && decide (a.part.loc < p.loc + p.len)

/-- A load that reads a device register changes state at once: it waits for the older words of E (01 R31). -/
def sideEffect (ps : List Part) : Bool := ps.any (·.space == .device)

/-- A load of these parts may be performed now (08 R252, R253, R256; 01 R31). -/
def loadFree (t : Strand) (ps : List Part) : Res Unit := do
  loadReady t
  need (!meetsAtom t ps) (stall .older)
  need (!sideEffect ps || t.ewin.isEmpty) (stall .behind)

/-- A direct store waits for an acquire, for every older queued store (08 R247) and every older atomic (08 R250). -/
def storeReady (t : Strand) : Res Unit :=
  if acquiring t then .error (stall .acquire)
  else do
    need (!olderStores t) (stall (storesWhy t))
    need (t.atoms.all (·.performed)) (stall .older)

/-- A release at a scope waits for every older access, and at .dom for acknowledgements (08 R255, R259). -/
def releaseReady (s : State) (tile : Nat) (t : Strand) (sc : Scope) : Res Unit := do
  need (!olderStores t) (stall (storesWhy t))
  need (t.atoms.all (·.performed) && s.acked tile sc) (stall .older)

/-! ### Lines of an engine command (08 R265, R266) -/

/-- The location keys of the lines that a range of locations holds. -/
def keysOf (loc n : Nat) : List Nat := if n = 0 then [] else (List.range ((loc + n - 1) / 128 - loc / 128 + 1)).map (loc / 128 + ·)

end Sys2Proof.Machine
end

