-- ==== Sys2Proof/Machine/Fetch.lean ====
section
/-! DEFINITION. Instruction fetch: translation, the tile's instruction cache and its pins (03 R90, R98 to R100; log 10). -/

namespace Sys2Proof.Machine

/-- What a fetch brings: a word, a fetch cause (01 R33), or a wait for the host's answer (20 R465). -/
inductive Fetched | word (w : IWord) | bad (cause sub : BitVec 8) (va : Nat) | wait
  deriving DecidableEq, Repr

/-- Lines of 128 bytes that the instruction cache of a core holds (00 R2): 128 KiB. -/
def icacheLines : Nat := 1024

/-- 128 bytes from a location as the tile sees them: what the L1 holds lies over memory (03 R100). -/
def viewLine (s : State) (tile loc : Nat) : List Byte :=
  match s.line? tile (loc / 128) with
  | some l => bytesOf 128 fun j => if l.present.getLsbD j then lineByte l.data j else Memory.read s.mem (loc / 128 * 128 + j)
  | none => s.readLoc (loc / 128 * 128) 128

/-- Poison of the four sectors as the tile sees them. -/
def viewPoison (s : State) (tile loc : Nat) : BitVec 4 :=
  match s.line? tile (loc / 128) with
  | some l => l.poison ||| s.memPoison (loc / 128)
  | none => s.memPoison (loc / 128)

def icacheOf (s : State) (tile : Nat) : List ILine := if tile = 192 then s.head.icache else (s.tile tile).icache

def setIcache (s : State) (tile : Nat) (l : List ILine) : State :=
  if tile = 192 then { s with head := { s.head with icache := l } } else s.updTile tile fun t => { t with icache := l }

def ilineFind (l : List ILine) (pasid : BitVec 20) (va : Nat) : Option ILine :=
  l.find? fun e => e.pasid == pasid && e.va == va

def pinsOf (s : State) (tile : Nat) : List Nat := match s.task? tile with
  | some t => t.ipins
  | none => []

/-- Lines that stay: the newest, and every pinned one (03 R98; log 10). -/
def trimLines (pins : List Nat) : Nat → List ILine → List ILine
  | _, [] => []
  | 0, e :: l => if pins.contains e.va then e :: trimLines pins 0 l else trimLines pins 0 l
  | n + 1, e :: l => e :: trimLines pins n l

/-- A line brought into the instruction cache. -/
def loadIline (s : State) (tile : Nat) (pasid : BitVec 20) (va loc : Nat) : State :=
  let e : ILine := { pasid, va, data := BitVec.ofNat 1024 (leNat (viewLine s tile loc)), poison := viewPoison s tile loc }
  setIcache s tile (trimLines (pinsOf s tile) icacheLines
    (e :: (icacheOf s tile).filter fun f => !(f.pasid == pasid && f.va == va)))

/-- Where the 16 bytes at an address lie, for a fetch (07 R232, R236). -/
def fetchPart (s : State) (a : Agent) (va : Nat) : Where × State := locate s a va 16 .fetch

/-- The word at an address (03 R90): its fetch causes are XLATE and DATA FETCH. -/
def fetchWord (s : State) (a : Agent) (pc : Word) : Fetched × State :=
  match fetchPart s a pc.toNat with
  | (.pri, s) => (.wait, s)
  | (.bad sub at_, s) => (.bad 0x05 sub at_, s)
  | (.part p, s) =>
    let va := pc.toNat / 128 * 128
    let s := if (ilineFind (icacheOf s a.tile) a.pasid va).isSome then s
             else loadIline s a.tile a.pasid va (p.loc / 128 * 128)
    match ilineFind (icacheOf s a.tile) a.pasid va with
    | none => (.wait, s)
    | some e =>
      let o := pc.toNat % 128
      if e.poison.getLsbD (o / 32) then
        (.bad 0x07 3 pc.toNat, setIcache s a.tile ((icacheOf s a.tile).filter fun f => !(f.pasid == a.pasid && f.va == va)))
      else (.word (e.data.extractLsb' (8 * o) 128), s)

/-! ### Lines of a range (03 R98) -/

/-- Number of 128-byte lines that hold a byte of `n` bytes from `a`. -/
def lineCount (a n : Nat) : Nat := if n = 0 then 0 else (a + n - 1) / 128 - a / 128 + 1

/-- The location of a line whose page an instruction fetch may use; absent where the line is skipped (03 R98). DESIGN CHOICE
(log 98): a line on a supervisor page, at user level, is one that a fetch may not use, and is skipped too. -/
def ilineLoc (s : State) (a : Agent) (va : Nat) : Option Nat × State :=
  if 2 ^ 56 ≤ va then (none, s)
  else match locate s a va 16 .fetch with
    | (.part p, s) => (some p.loc, s)
    | (_, s) => (none, s)

/-- IPREF of one line. -/
def prefLine (a : Agent) (lvl : BitVec 4) (s : State) (va : Nat) : State :=
  match ilineLoc s a va with
  | (some loc, s) =>
    if lvl = 0 ∧ (ilineFind (icacheOf s a.tile) a.pasid va).isNone then loadIline s a.tile a.pasid va loc else s
  | (none, s) => s

/-- Lines pinned at the L2 slices by every task of a cluster. -/
def clusterPins (s : State) (c : Nat) : Nat :=
  (List.range 8).foldl (fun n k => n + (match s.task? (8 * c + k) with
    | some t => t.l2pins.length
    | none => 0)) 0

/-- IPIN of one line: whether it is pinned now (03 R99). DESIGN CHOICE (log 99): on the headstock, whose strands have no task
to own a pin, no line is pinned. -/
def pinLine (a : Agent) (lvl : BitVec 4) (s : State) (va : Nat) : Bool × State :=
  match ilineLoc s a va with
  | (none, s) => (false, s)
  | (some loc, s) =>
    match s.task? a.tile with
    | none => (false, s)
    | some t =>
      if lvl = 0 then
        if t.ipins.contains va then (true, s)
        else if t.ipins.length < 512 then
          let s := s.updTask a.tile fun k => { k with ipins := NatSet.insert k.ipins va }
          (true, if (ilineFind (icacheOf s a.tile) a.pasid va).isSome then s else loadIline s a.tile a.pasid va loc)
        else (false, s)
      else if t.l2pins.contains va then (true, s)
      else if clusterPins s (a.tile / 8) < 16384 then
        (true, s.updTask a.tile fun k => { k with l2pins := NatSet.insert k.l2pins va })
      else (false, s)

/-- IUNPIN of one line. -/
def unpinLine (tile : Nat) (lvl : BitVec 4) (s : State) (va : Nat) : State :=
  s.updTask tile fun t => if lvl = 0 then { t with ipins := NatSet.erase t.ipins va } else { t with l2pins := NatSet.erase t.l2pins va }

/-- The lines of a range, in ascending order. -/
def rangeLines (a n : Nat) : List Nat := (List.range (lineCount a n)).map fun k => (a / 128 + k) * 128

/-- Every word fetched so far is dropped, pinned lines too: they are fetched again (03 R100). -/
def State.dropFetched (s : State) (tile : Nat) (pasid : BitVec 20) : State :=
  setIcache s tile ((icacheOf s tile).filter (·.pasid != pasid))

end Sys2Proof.Machine
end

