-- ==== Sys2Proof/Machine/Control.lean ====
section
/-! DEFINITION. Class 1, control transfer, hardware loops, instruction prefetch and pinning (03 R89 to R100). -/

namespace Sys2Proof.Machine

/-- An action on the strand in focus that sees the state. -/
def withFocus (f : State → Strand → Res State) : Body := fun s =>
  match s.strand? s.sid with
  | some t => f s t
  | none => .ok s

/-- The target of a control transfer (03 R90). -/
def checkTarget (a : Word) : Res Unit := do
  need (a.extractLsb' 0 4 == 0) (alignTrap 2 a)
  need (canonical a) (xlateTrap 5 a)

/-- Control passes to `a`. -/
def Strand.goto (t : Strand) (a : Word) : Strand := { t with next := some a }

def execNop (f : FormS) (s : State) : Answer := issue (.nop f) .ahead anyLevel (onStrand fun t => .ok t) s

/-- 03 R91. -/
def execBr (f : FormS) (s : State) : Answer :=
  issue (.br f) .ahead anyLevel (onStrand fun t => do
    let a := branchTarget t.pc f.imm32
    checkTarget a
    .ok (t.goto a)) s

def condHolds (c : Cond) (a b : Word) : Bool :=
  match c with
  | .eq => a == b
  | .ne => a != b
  | .lt => decide (a.toInt < b.toInt)
  | .ge => decide (b.toInt ≤ a.toInt)
  | .ltz => decide (a.toNat < b.toNat)
  | .gez => decide (b.toNat ≤ a.toNat)

/-- 03 R91, 02 R50. -/
def execBcc (f : FormS) (s : State) : Answer :=
  issue (.bcc f) .ahead anyLevel (onStrand fun t => do
    let a := branchTarget t.pc f.imm32
    if condHolds f.cond (t.xa f.a) (t.xa f.b) then
      checkTarget a
      noMarks t [f.a, f.b]
      .ok (t.goto a)
    else do
      noMarks t [f.a, f.b]
      .ok t) s

/-- 03 R92. -/
def execBri (f : FormS) (s : State) : Answer :=
  issue (.bri f) .ahead anyLevel (onStrand fun t => do
    let a := t.xa f.a
    checkTarget a
    noMarks t [f.a]
    .ok (t.goto a)) s

/-- The parts of a return record, which the stack check has placed in the scratchpad (01 R40). -/
def recordPart (sid : Nat) (a : Word) : Part :=
  { va := a.toNat, loc := spadLoc (tileOf sid) (a.toNat - 0x00FFF00000000000), len := 16, space := .spad, nc := true }

/-- What CALL and CALLI do with their target (03 R92). -/
def callTo (marks : List Desig) (target : Strand → Word) : Body := withFocus fun s t => do
  let sp := t.getX 1
  let a := target t
  checkStack s s.sid t (sp - 16) 16
  need (sp.extractLsb' 0 4 == 0) (alignTrap 1 (sp - 16))
  checkTarget a
  noMarks t (.x 1 :: marks)
  storeReady t
  let bytes := leBytes 8 (t.pc + 16).toNat ++ leBytes 8 t.depth
  let s := s.noteStore s.sid t t.seq .default [recordPart s.sid (sp - 16)]
  let s := storeParts s (tileOf s.sid) s.sid .default [recordPart s.sid (sp - 16)] bytes false
  .ok (s.updStrand s.sid fun t => (t.setX 1 (sp - 16)).goto a)

def execCall (f : FormS) (s : State) : Answer :=
  issue (.call f) .normal anyLevel (callTo [] fun t => branchTarget t.pc f.imm32) s

def execCalli (f : FormS) (s : State) : Answer :=
  issue (.calli f) .normal anyLevel (callTo [f.a] fun t => t.xa f.a) s

/-- 03 R92: the record is read as LD reads (03 R93); a poisoned one raises DATA LOAD and changes nothing. -/
def execRet (f : FormS) (s : State) : Answer :=
  issue (.ret f) .ahead anyLevel (withFocus fun s t => do
    let sp := t.getX 1
    checkStack s s.sid t sp 16
    need (sp.extractLsb' 0 4 == 0) (alignTrap 1 sp)
    loadFree t [recordPart s.sid sp]
    let r := loadParts s (tileOf s.sid) s.sid .default [recordPart s.sid sp]
    let a : Word := BitVec.ofNat 64 (field r.1.bytes 0 8)
    let depth := field r.1.bytes 8 8 % 8
    checkTarget a
    noMarks t [.x 1]
    need (!r.1.bad) (.trap 0x07 1 (sp.setWidth 56))
    .ok (r.2.updStrand s.sid fun t => { ((t.setX 1 (sp + 16)).goto a) with loops := cutLoops t.loops depth })) s

/-! ### Hardware loops (03 R94, R96) -/

/-- LOOP with its trip count and body length. -/
def loopEnter (t : Strand) (count : BitVec 32) (n : Nat) : Res Strand := do
  if count = 0 then .ok (t.goto (t.pc + BitVec.ofNat 64 (16 * (n + 1))))
  else
    let d := t.depth
    need (decide (d < 4)) (illTrap .nounit)
    let l : Loop := { active := true, start := t.pc + 16, stop := t.pc + BitVec.ofNat 64 (16 * n), count }
    .ok { t with loops := t.loops.set (Fin.ofNat 4 d) l }

/-- Body length, in IMM32[15:0]. -/
def bodyLen (imm32 : BitVec 32) : Nat := (imm32.extractLsb' 0 16).toNat

/-- A fifth level is cause ILL, which ranks above the hints (01 R33). The count decides; while it is pending and a wrong
hint would trap, the word waits for it, and else the body finds the level. -/
def loopLevel (count : Strand → BitVec 32) (src : List Desig) : State → Strand → Option Halt := fun s t =>
  if t.depth < 4 then none
  else if src.any fun d => pendFixed t s.cycle d || pendVar t d then (if t.chk then some (stall .interlock) else none)
  else if count t = 0 then none
  else some (illTrap .nounit)

/-- The trip counts of the two forms (03 R94). -/
def loopCount (f : FormS) (t : Strand) : BitVec 32 := (t.xa f.a).setWidth 32
def loopCountImm (f : FormS) (_ : Strand) : BitVec 32 := (f.imm32.extractLsb' 16 16).toNat

def execLoopReg (f : FormS) (s : State) : Answer :=
  issue (.loopReg f) .ahead (loopLevel (loopCount f) [f.a]) (onStrand fun t => do
    let t' ← loopEnter t (loopCount f t) (bodyLen f.imm32)
    noMarks t [f.a]
    .ok t') s

def execLoopImm (f : FormS) (s : State) : Answer :=
  issue (.loopImm f) .ahead (loopLevel (loopCountImm f) []) (onStrand fun t =>
    loopEnter t (loopCountImm f t) (bodyLen f.imm32)) s

def execLoopx (f : FormS) (s : State) : Answer :=
  issue (.loopx f) .ahead anyLevel (onStrand fun t => do
    let a := branchTarget t.pc f.imm32
    checkTarget a
    let k := (f.aux.extractLsb' 0 2).toNat + 1
    .ok { (t.goto a) with loops := cutLoops t.loops (t.depth - k) }) s

/-! ### Instruction prefetch and pinning (03 R98, R99) -/

/-- The lines of the range of IPREF, IPIN and IUNPIN. -/
def insnLines (t : Strand) (f : FormS) : List Nat := rangeLines (t.xa f.a).toNat (bits (t.xa f.b) 0 32)

def execIpref (f : FormS) (s : State) : Answer :=
  issue (.ipref f) .ahead anyLevel (withFocus fun s t => do
    noMarks t [f.a, f.b]
    .ok ((insnLines t f).foldl (prefLine (agentOf s s.sid t) f.aux) s)) s

def execIpin (f : FormS) (s : State) : Answer :=
  issue (.ipin f) .normal anyLevel (withFocus fun s t => do
    noMarks t [f.a, f.b]
    let r := (insnLines t f).foldl (fun acc va =>
      let p := pinLine (agentOf s s.sid t) f.aux acc.2 va
      (acc.1 + (if p.1 then 0 else 1), p.2)) (0, s)
    .ok (r.2.updStrand s.sid fun t => t.putD f.d (BitVec.ofNat 64 r.1))) s

def execIunpin (f : FormS) (s : State) : Answer :=
  issue (.iunpin f) .normal anyLevel (withFocus fun s t => do
    noMarks t [f.a, f.b]
    .ok ((insnLines t f).foldl (unpinLine (unitOf s.sid) f.aux) s)) s

/-- 03 R100. -/
def execFencei (f : FormS) (s : State) : Answer :=
  issue (.fencei f) .drain anyLevel (withFocus fun s _ => .ok (s.dropFetched (unitOf s.sid) (s.pasidOf s.sid))) s

/-! ### Ending a strand's instruction stream by trap (03 R102) -/

def execTrap (f : FormS) (s : State) : Answer :=
  issue (.trap f) .ahead anyLevel (onStrand fun _ => .error (.trap 0x0C 0 (f.imm32.setWidth 56))) s

end Sys2Proof.Machine
end

