-- ==== Sys2Proof/Machine/Loom.lean ====
section
/-! DEFINITION. The loom's records: launches, graphs, steps and jobs, their terminal states and completion records
(05 R137 to R144), gangs and their barriers (05 R156 to R159), cancellation (05 R170, R171). -/

namespace Sys2Proof.Machine

namespace State

def launch? (s : State) (lid : Nat) : Option Launch := FMap.get? s.loom.launches lid
def setLaunch (s : State) (lid : Nat) (l : Launch) : State :=
  { s with loom := { s.loom with launches := FMap.set s.loom.launches lid l } }
def updLaunch (s : State) (lid : Nat) (f : Launch → Launch) : State :=
  { s with loom := { s.loom with launches := FMap.update s.loom.launches lid f } }
def object? (s : State) (n : Nat) : Option Object := FMap.get? s.loom.objects n
def setObject (s : State) (n : Nat) (o : Object) : State :=
  { s with loom := { s.loom with objects := FMap.set s.loom.objects n o } }
def updObject (s : State) (n : Nat) (f : Object → Object) : State :=
  { s with loom := { s.loom with objects := FMap.update s.loom.objects n f } }

end State

/-- A task that was never placed. -/
def TaskRec.fresh : TaskRec :=
  { phase := .unplaced, placedOnce := false, cancelled := false, ran := 0, kept := [], queued := ([], []), tm := [], phases := [], replay := [], snapOk := true }

def Launch.taskRec (l : Launch) (i : Nat) : TaskRec := (FMap.get? l.recs i).getD TaskRec.fresh
def Launch.setRec (l : Launch) (i : Nat) (r : TaskRec) : Launch := { l with recs := FMap.set l.recs i r }
def Launch.updRec (l : Launch) (i : Nat) (f : TaskRec → TaskRec) : Launch := l.setRec i (f (l.taskRec i))
def Launch.updGang (l : Launch) (g : Nat) (f : Gang → Gang) : Launch := { l with gangs := FMap.update l.gangs g f }

/-- The strands of a task that holds no tile are no longer among its gang's (05 R159). -/
def Launch.forgetSaved (l : Launch) (i : Nat) : Launch :=
  l.updGang (i / l.gangSize) fun k => { k with saved := k.saved.filter (· / 8 != i) }

def isDone (r : TaskRec) : Bool := match r.phase with
  | .done _ => true
  | _ => false

/-! ### Building objects (05 R137, R140; 20 R474) -/

/-- A launch as it is accepted: its descriptor is not yet read. -/
def Launch.new (pasid : BitVec 20) (desc : Word) (deps : List Nat) (clsOver : Option Nat) (accepted cmd graph : Nat)
    (streamSlack : Option Int) : Launch :=
  { pasid, descAddr := desc, desc := none, checked := false, entry := 0, args := 0, part := 0, tasks := 0, stack := 0, gangSize := 0, cls := 0,
    clsOver, failstop := false, restart := false, barmask := 0, deadline := 0, cost := 0, handler := 0, doneAddr := 0,
    snapAddr := 0, relogs := [], recs := [], gangs := [], nextGang := 0, deps, ready := false, accepted, cmd, graph, cancelled := false,
    rest := false, code := 0, terminal := none, endCyc := 0, recordDue := false, slack := none, streamSlack, doneSum := 0, doneCount := 0,
    firstPlaced := none, classified := none, classEnded := false, mb := 0, byteCount := 0 }

/-- Launch `lid` added to its graph. -/
def State.addLaunch (s : State) (lid : Nat) (pasid : BitVec 20) (desc : Word) (deps : List Nat) (clsOver : Option Nat)
    (cmd graph : Nat) (streamSlack : Option Int) : State :=
  let l := Launch.new pasid desc deps clsOver s.loom.serial cmd graph streamSlack
  let s := (s.updObject graph fun o => { o with children := o.children ++ [lid] }).setLaunch lid l
  { s with loom := { s.loom with serial := s.loom.serial + 1 } }

/-- LAUNCHIDs run from 1 to 0xFFFF_FFFF (05 R137), and begin again after the last (log 84). -/
def lidAfter (n : Nat) : Nat := if 0xFFFFFFFF ≤ n then 1 else n + 1

/-- The first LAUNCHID from `n` on that no launch carries that is not terminal. The fuel bounds how many are passed. -/
def State.freeLid (s : State) : Nat → Nat → Nat
  | 0, n => n
  | fuel + 1, n => match s.launch? n with
    | some l => if l.terminal.isSome then n else s.freeLid fuel (lidAfter n)
    | none => n

/-- A LAUNCHID assigned. -/
def State.takeLid (s : State) : Nat × State :=
  let n := s.freeLid s.loom.launches.length s.loom.nextLaunch
  (n, { s with loom := { s.loom with nextLaunch := lidAfter n } })

/-- A launch added to its graph under a new LAUNCHID. -/
def State.newLaunch (s : State) (pasid : BitVec 20) (desc : Word) (deps : List Nat) (clsOver : Option Nat) (cmd graph : Nat)
    (streamSlack : Option Int) : Nat × State :=
  let r := s.takeLid
  (r.1, r.2.addLaunch r.1 pasid desc deps clsOver cmd graph streamSlack)

/-- An object added to its parent: its number. -/
def State.newObject (s : State) (o : Object) : Nat × State :=
  let n := s.loom.serial
  let s := { s with loom := { s.loom with objects := FMap.set s.loom.objects n o, serial := n + 1 } }
  (n, match o.parent with
    | some p => s.updObject p fun q => { q with children := q.children ++ [n] }
    | none => s)

def Object.new (level : Level) (id : Nat) (pasid : BitVec 20) (parent : Option Nat) (closed : Bool) : Object :=
  { level, id, pasid, parent, children := [], closed, cancelled := false, terminal := none, endCyc := 0, stream := none, cmd := 0 }

/-- The object of a level with an identifier in a context that is not terminal. -/
def State.liveObject (s : State) (level : Level) (id : Nat) (pasid : BitVec 20) : Option Nat :=
  (s.loom.objects.reverse.find? fun q => q.2.level == level && q.2.id == id && q.2.pasid == pasid && q.2.terminal.isNone).map
    (·.1)

/-- The object with an identifier, created when it does not exist. -/
def State.ensureObject (s : State) (level : Level) (id : Nat) (pasid : BitVec 20) (parent : Option Nat) : Nat × State :=
  match s.liveObject level id pasid with
  | some n => (n, s)
  | none => s.newObject (Object.new level id pasid parent false)

/-! ### Gangs and barriers (05 R156 to R159) -/

/-- The tiles that hold a task for which `p` holds. -/
def State.tilesWhere (s : State) (p : Task → Bool) : List Nat :=
  (s.tiles.filter fun q => match q.2.task with
    | some t => p t
    | none => false).map (·.1)

def State.gangTiles (s : State) (lid g : Nat) : List Nat := s.tilesWhere fun t => t.launch == lid && t.gang == g

/-- The running strands of a gang, by key; strands of saved tasks are among them (05 R158). -/
def State.gangRunning (s : State) (lid g : Nat) : List Nat :=
  (match s.launch? lid with
    | some l => match FMap.get? l.gangs g with
      | some k => k.saved
      | none => []
    | none => []) ++
  (s.gangTiles lid g).flatMap fun tile => match s.task? tile with
    | some t => (s.running tile).map fun sid => 8 * t.index + numberOf sid
    | none => []

def Barrier.fresh : Barrier := { phase := 0, arrived := [] }

/-- A phase at which every running strand has arrived completes (05 R158). -/
def settleBarrier (run : List Nat) (b : Barrier) : Barrier :=
  let arrived := b.arrived.filter run.contains
  if !arrived.isEmpty && run.all arrived.contains then { phase := b.phase + 1, arrived := [] } else { b with arrived }

/-- Every barrier of a gang looked at again after a strand ended (05 R159). -/
def State.settleGang (s : State) (lid g : Nat) : State :=
  let run := s.gangRunning lid g
  s.updLaunch lid fun l => l.updGang g fun k => { k with barriers := k.barriers.map fun q => (q.1, settleBarrier run q.2) }

/-- The tasks of a gang. -/
def members (l : Launch) (g : Nat) : List Nat := (List.range l.gangSize).map (g * l.gangSize + ·)

/-- The members that are still to run. -/
def openMembers (l : Launch) (g : Nat) : List Nat := (members l g).filter fun i => !isDone (l.taskRec i)

/-- A member of a gang has left its tile, or has become terminal without one. A gang whose last task is terminal holds
nothing any more; one that holds no tile is to be placed again, and holds no barrier until then (05 R156, R157, R174). -/
def State.closeGang (s : State) (lid g : Nat) : State :=
  match s.launch? lid with
  | none => s
  | some l =>
    if (openMembers l g).isEmpty then s.setLaunch lid { l with gangs := FMap.erase l.gangs g }
    else if (s.gangTiles lid g).isEmpty then
      (s.updLaunch lid fun l => l.updGang g fun k => { k with cluster := none, preReq := none }).settleGang lid g
    else s.settleGang lid g

/-- A strand arrives at barrier `n` of its gang (05 R157, R158). -/
def State.arrive (s : State) (lid g n key : Nat) : State :=
  let run := s.gangRunning lid g
  s.updLaunch lid fun l => l.updGang g fun k =>
    let b := (FMap.get? k.barriers n).getD Barrier.fresh
    { k with barriers := FMap.set k.barriers n (settleBarrier run { b with arrived := NatSet.insert b.arrived key }) }

/-- The phase of barrier `n` that is not yet complete. -/
def State.phaseOf (s : State) (lid g n : Nat) : Nat :=
  match s.launch? lid with
  | none => 0
  | some l => match FMap.get? l.gangs g with
    | none => 0
    | some k => ((FMap.get? k.barriers n).getD Barrier.fresh).phase

/-- A strand withdraws its arrival (16 R418). -/
def State.withdraw (s : State) (lid g n key : Nat) : State :=
  s.updLaunch lid fun l => l.updGang g fun k =>
    { k with barriers := FMap.update k.barriers n fun b => { b with arrived := NatSet.erase b.arrived key } }

/-- What a strand that ends has not replayed of its task's log waits for the strand's next start (17 R447). -/
def State.keepReplay (s : State) (sid : Nat) : State :=
  match s.strand? sid, s.task? (tileOf sid) with
  | some t, some k =>
    if t.relog.isEmpty then s
    else s.updLaunch k.launch fun l => l.updRec k.index fun r => { r with replay := FMap.set r.replay (numberOf sid) t.relog }
  | _, _ => s

/-- A strand stops for good: its queues, loops, format queue and bobbin are lost, it leaves every semaphore, and it no
longer counts towards the barriers of its gang (03 R101, 05 R159). -/
def State.endStrand (s : State) (sid : Nat) : State :=
  if isHead sid then s.dropStrand sid
  else
   let s := (s.keepReplay sid).lose sid
   match s.task? (tileOf sid) with
    | some t => s.settleGang t.launch t.gang
    | none => s

/-! ### Terminal states (05 R138) -/

def countDone (l : Launch) (t : Terminal) : Nat := (l.recs.filter fun q => q.2.phase == .done t).length

/-- Every task of the launch is terminal. A task that was never placed counts as cancelled once its launch is
cancelled, or FAILSTOP has cancelled the rest. -/
def Launch.ended (l : Launch) : Bool :=
  if l.cancelled || l.rest then l.recs.all fun q => isDone q.2 || q.2.phase == .unplaced
  else (l.recs.filter fun q => isDone q.2).length == l.tasks

def Launch.outcome (l : Launch) : Terminal :=
  if l.cancelled then .cancelled
  else if countDone l .failed ≠ 0 then .failed
  else if countDone l .cancelled ≠ 0 || l.rest then .cancelled
  else .completed

def termCode : Terminal → Nat
  | .completed => 1 | .cancelled => 2 | .failed => 3

/-- The completion record (05 R143). -/
def recordBytes (l : Launch) : List Byte :=
  let nd := countDone l .completed
  let nf := countDone l .failed
  leBytes 4 (match l.terminal with
    | some t => termCode t
    | none => 0) ++ leBytes 4 l.code.toNat ++ leBytes 4 nd ++ leBytes 4 (l.tasks - nd - nf) ++ leBytes 4 nf ++ leBytes 4 0 ++
    leBytes 8 l.endCyc

/-- The descriptor's fields (05 R141). Records of tasks it does not have are dropped (log 84). -/
def Launch.fill (l : Launch) (b : List Byte) : Launch :=
  { l with
    desc := some b
    entry := BitVec.ofNat 64 (field b 0x00 8), args := BitVec.ofNat 64 (field b 0x08 8), part := BitVec.ofNat 32 (field b 0x10 4),
    tasks := field b 0x14 4, stack := field b 0x18 4, gangSize := field b 0x1C 1, cls := l.clsOver.getD (field b 0x1D 1),
    failstop := field b 0x1E 1 % 2 == 1, restart := field b 0x1E 1 / 2 % 2 == 1, barmask := BitVec.ofNat 64 (field b 0x20 8),
    deadline := BitVec.ofNat 64 (field b 0x28 8), cost := BitVec.ofNat 64 (field b 0x30 8),
    handler := BitVec.ofNat 64 (field b 0x38 8), doneAddr := BitVec.ofNat 64 (field b 0x40 8),
    snapAddr := BitVec.ofNat 64 (field b 0x48 8), recs := l.recs.filter fun q => decide (q.1 < field b 0x14 4) }

/-- The loom reads a launch's descriptor, once. A host page not yet present leaves it unread (20 R465). -/
def State.readDesc (s : State) (lid : Nat) : State :=
  match s.launch? lid with
  | none => s
  | some l =>
    if l.desc.isSome then s
    else match accessParts s (unitAgent l.pasid false) .load l.descAddr 128 with
      | .ok r => r.2.setLaunch lid (l.fill (r.1.flatMap fun p => r.2.readLoc p.loc p.len))
      | .error (.walked s _ _ _) => s.setLaunch lid { l with desc := some [] }
      | .error (.hold s _ _) => s
      | .error _ => s

/-- The report of a completion record that was not written: XCAUSE and XLATE or ALIGN subcode (05 R143). -/
def State.rasDone (s : State) (lid : Nat) (l : Launch) (cause : Word) (sub : BitVec 8) : State :=
  s.ras { type := 0x0A, taskid := BitVec.ofNat 64 (lid * 2 ^ 32), addr := l.doneAddr, xcause := cause, pasid := l.pasid,
          xval := BitVec.ofNat 64 (sub.toNat * 2 ^ 56 + l.doneAddr.toNat % 2 ^ 56) }

/-- The record's store is a request of the loom; a fault on it fails at once (05 R143). While a host page that it or the
descriptor lies on is not yet present, it waits (20 R465). -/
def State.writeRecord (s : State) (lid : Nat) : State :=
  let s := (s.readDesc lid).updLaunch lid fun l => { l with recordDue := l.desc.isNone }
  match s.launch? lid with
  | none => s
  | some l =>
    if l.recordDue ∨ l.doneAddr = 0 then s
    else if l.doneAddr.extractLsb' 0 5 ≠ 0 then s.rasDone lid l 4 1
    else match accessParts s (unitAgent l.pasid false) .store l.doneAddr 32 with
      | .ok r => r.1.foldl (fun s p => s.writeLoc p.loc (takeBytes (recordBytes l) (p.va - l.doneAddr.toNat) p.len)) r.2
      | .error (.walked s _ sub _) => s.rasDone lid l 5 sub
      | .error (.hold s _ _) => s.updLaunch lid fun l => { l with recordDue := true }
      | .error _ => s.rasDone lid l 5 1

/-- Whether an object's children have all reached a terminal state, and which of these occur. -/
def State.childStates (s : State) (o : Object) : List (Option Terminal) :=
  o.children.map fun c => match o.level with
    | .graph => (s.launch? c).bind (·.terminal)
    | _ => (s.object? c).bind (·.terminal)

def Object.outcome (o : Object) (cs : List (Option Terminal)) : Terminal :=
  if o.cancelled then .cancelled
  else if cs.contains (some .failed) then .failed
  else if cs.contains (some .cancelled) then .cancelled
  else .completed

/-- An object whose children are all terminal, and that takes no more of them, becomes terminal, and so on upward
(05 R138; 20 R474 CLOSE). -/
def State.settleObject (s : State) : Nat → Nat → State
  | 0, _ => s
  | fuel + 1, n =>
    match s.object? n with
    | none => s
    | some o =>
      let cs := s.childStates o
      if o.terminal.isSome || !(o.closed || o.cancelled) || !cs.all (·.isSome) then s
      else
        let s := s.setObject n { o with terminal := some (o.outcome cs), endCyc := s.cycle }
        match o.parent with
        | some p => s.settleObject fuel p
        | none => s

/-- A launch becomes terminal (05 R138). A launch of a host command leaves its record to the command's own end
(20 R475). -/
def State.finishLaunch (s : State) (lid : Nat) (t : Terminal) (code : BitVec 32) : State :=
  let s := (s.readDesc lid).updLaunch lid fun l => { l with terminal := some t, code, gangs := [], endCyc := s.cycle }
  match s.launch? lid with
  | none => s
  | some l => (if l.cmd = 0 then s.writeRecord lid else s).settleObject 3 l.graph

/-- A launch whose tasks are all terminal becomes terminal. -/
def State.settleLaunch (s : State) (lid : Nat) : State :=
  match s.launch? lid with
  | none => s
  | some l =>
    if l.terminal.isSome || !l.ended then s
    else s.finishLaunch lid l.outcome (if l.outcome = .failed then l.code else 0)

/-! ### Cancellation (05 R170, R171) -/

/-- What a cancellation names. -/
inductive Target | task (lid i : Nat) | launch (lid : Nat) | object (n : Nat)
  deriving DecidableEq, Repr

/-- The newest object of a level with an identifier, in a context or, for firmware, in any: where identifiers of two
contexts agree, a strand names its own (log 85). -/
def State.findObject (s : State) (level : Level) (id : Nat) (pasid : Option (BitVec 20)) : Option Nat :=
  (s.loom.objects.reverse.find? fun q => q.2.level == level && q.2.id == id && id != 0 &&
    (match pasid with
      | some p => q.2.pasid == p
      | none => true)).map (·.1)

/-- The object a level and an identifier name (05 R137). DESIGN CHOICE (logs 84 and 85): TASKIDs and LAUNCHIDs are the
device's and name their object whatever its context; and while a launch's descriptor is unread, so that its task count is
not known, every index names a task of it. -/
def State.target (s : State) (level id : Nat) (pasid : Option (BitVec 20)) : Option Target :=
  match level with
  | 0 => match s.launch? (id / 2 ^ 32) with
    | some l => if l.desc.isNone || decide (id % 2 ^ 32 < l.tasks) then some (.task (id / 2 ^ 32) (id % 2 ^ 32)) else none
    | none => none
  | 1 => if (s.launch? id).isSome then some (.launch id) else none
  | 2 => (s.findObject .graph id pasid).map .object
  | 3 => (s.findObject .step id pasid).map .object
  | 4 => (s.findObject .job id pasid).map .object
  | _ => none

/-- The object of a level that contains a task (03 R109). -/
def State.container (s : State) (level : Nat) (t : Task) : Option Target :=
  let up (n : Nat) : Option Nat := (s.object? n).bind (·.parent)
  match level with
  | 0 => some (.task t.launch t.index)
  | 1 => some (.launch t.launch)
  | 2 => (s.launch? t.launch).map fun l => .object l.graph
  | 3 => ((s.launch? t.launch).bind fun l => up l.graph).map .object
  | 4 => (((s.launch? t.launch).bind fun l => up l.graph).bind up).map .object
  | _ => none

/-- The terminal state of an object, once it has one. A task that was never placed is CANCELLED from the moment its
launch's cancellation is accepted (05 R170, R171). -/
def State.terminalOf (s : State) : Target → Option Terminal
  | .task lid i => (s.launch? lid).bind fun l => match (l.taskRec i).phase with
    | .done t => some t
    | .unplaced => if l.cancelled || l.rest then some .cancelled else l.terminal
    | _ => l.terminal
  | .launch lid => (s.launch? lid).bind (·.terminal)
  | .object n => (s.object? n).bind (·.terminal)

/-- A task without a tile leaves what it still holds elsewhere to be released: its stream events, when `task` names it, and
page references. -/
def State.orphan (s : State) (pasid : BitVec 20) (task : Option Word) (tm : List TmEnt) : State :=
  { s with loom := { s.loom with orphans := s.loom.orphans ++ [{ pasid, task, tm, wait := .none }] } }

/-- TASKID of a task (05 R150). -/
def taskId (lid i : Nat) : Word := BitVec.ofNat 64 (lid * 2 ^ 32 + i)

/-- A task's record once it is terminal. -/
def TaskRec.over_ (r : TaskRec) (t : Terminal) : TaskRec :=
  { r with phase := .done t, kept := [], queued := ([], []), tm := [], phases := [], replay := [] }

/-- A task's cancellation is accepted: a task that holds a tile is marked, any other becomes CANCELLED at once; the
slot of a saved one is free (05 R170). -/
def State.markTask (s : State) (lid i : Nat) : State :=
  match s.launch? lid with
  | none => s
  | some l =>
    let r := l.taskRec i
    match r.phase with
    | .running tile =>
      (s.updLaunch lid fun l => l.setRec i { r with cancelled := true }).updTask tile fun t =>
        if t.launch = lid ∧ t.index = i then { t with cancelled := true } else t
    | .saved slot =>
      let s := (s.updLaunch lid fun l => (l.setRec i (r.over_ .cancelled)).forgetSaved i).orphan l.pasid (some (taskId lid i)) r.tm
      let s := s.closeGang lid (i / l.gangSize)
      { s with loom := { s.loom with slots := s.loom.slots.filter (· != (l.pasid, slot)) } }
    | .unplaced =>
      let s := s.updLaunch lid fun l => (l.setRec i (r.over_ .cancelled)).forgetSaved i
      (if r.placedOnce then s.orphan l.pasid (some (taskId lid i)) [] else s).closeGang lid (i / l.gangSize)
    | .done _ => s

/-- A launch's cancellation: every task that has a record is marked; the others count as cancelled. -/
def State.markLaunch (s : State) (lid : Nat) : State :=
  match s.launch? lid with
  | none => s
  | some l =>
    if l.terminal.isSome then s
    else
      let s := s.updLaunch lid fun l => { l with cancelled := true }
      ((l.recs.map (·.1)).foldl (fun s i => s.markTask lid i) s).settleLaunch lid

/-- An object's cancellation, with every descendant. -/
def State.markObject (s : State) : Nat → Nat → State
  | 0, _ => s
  | fuel + 1, n =>
    match s.object? n with
    | none => s
    | some o =>
      if o.terminal.isSome then s
      else
        let s := s.setObject n { o with cancelled := true }
        let s := o.children.foldl (fun s c => match o.level with
          | .graph => s.markLaunch c
          | _ => State.markObject s fuel c) s
        s.settleObject 3 n

/-- The loom accepts a cancellation (05 R170). -/
def State.acceptCancel (s : State) : Target → State
  | .task lid i => (s.markTask lid i).settleLaunch lid
  | .launch lid => s.markLaunch lid
  | .object n => s.markObject 3 n

/-- Whether a cancelled target has a task on a tile: the tiles where it stops. -/
def State.targetTiles (s : State) : Target → List Nat
  | .task lid i => s.tilesWhere fun t => t.launch == lid && t.index == i
  | .launch lid => s.tilesWhere fun t => t.launch == lid
  | .object n => s.tilesWhere fun t =>
      let up (k : Nat) : Option Nat := (s.object? k).bind (·.parent)
      match (s.launch? t.launch).map (·.graph) with
      | none => false
      | some g => g == n || up g == some n || ((up g).bind up) == some n

/-- CANCEL's answer and effect, for a target that was found or not (03 R109, 05 R171). -/
def State.cancel (s : State) : Option Target → Nat × State
  | none => (2, s)
  | some t => if (s.terminalOf t).isSome then (1, s) else (0, s.acceptCancel t)

end Sys2Proof.Machine
end

