-- ==== Sys2Proof/Machine/Queues.lean ====
section
/-! DEFINITION. The host's hardware queues: the walk to a queue control block (20 R470, R471), the fields and states of
one (20 R472), doorbells and QRESUME. -/

namespace Sys2Proof.Machine

/-! ### Queue control blocks -/

def qcbRing (s : State) (c : Nat) : Nat := s.readLocNat c 8
def qcbSize (s : State) (c : Nat) : Nat := s.readLocNat (c + 0x08) 4
def qcbState (s : State) (c : Nat) : Nat := s.readLocNat (c + 0x0C) 1
def qcbClass (s : State) (c : Nat) : Nat := s.readLocNat (c + 0x0D) 1
def qcbVec (s : State) (c : Nat) : Nat := s.readLocNat (c + 0x0E) 2
def qcbHead (s : State) (c : Nat) : Nat := s.readLocNat (c + 0x10) 8
def qcbTail (s : State) (c : Nat) : Nat := s.readLocNat (c + 0x18) 8

/-- States of a queue (20 R472). -/
def qIdle : Nat := 0
def qRun : Nat := 1
def qFetchFault : Nat := 2
def qStopped : Nat := 4

def setQcbState (s : State) (c st : Nat) : State := s.writeLocNat (c + 0x0C) 1 st

/-- A queue stops with an error code. -/
def stopQcb (s : State) (c err : Nat) : State := (setQcbState s c qStopped).writeLocNat (c + 0x20) 4 err

/-- A power of two from 16 to 65,536. -/
def ringSizeOk (n : Nat) : Bool := (List.range 13).any fun k => n == 2 ^ (k + 4)

/-- A QCB within the limits of 20 R472. -/
def qcbOk (s : State) (c : Nat) : Bool :=
  qcbRing s c % 64 == 0 && ringSizeOk (qcbSize s c) && decide (qcbState s c ≤ 4) && decide (qcbClass s c ≤ 7) &&
    (s.readLoc (c + 0x24) 28).all (· == 0)

/-! ### The walk (20 R470, R471) -/

/-- One step of the walk: the structure an entry points to, absent, or ignored. -/
inductive Entry | at (loc : Nat) | absent | ignored
  deriving DecidableEq, Repr

def entryOf (s : State) (loc : Nat) : Entry :=
  let e : Word := BitVec.ofNat 64 (s.readLocNat loc 8)
  if !e.getLsbD 0 || bits e 52 12 != 0 || bits e 3 3 != 0 then .ignored
  else if e.getLsbD 1 then .at (bits e 6 46 * 64) else .absent

/-- The entry with its A bit set, when it is valid. -/
def useEntry (s : State) (loc : Nat) : State := if entryOf s loc = .ignored then s else setA s loc

def queuePasid (s : State) (q : Nat) : BitVec 20 := (FMap.get? s.dev.qpasid q).getD 0

/-- The walk of queue `q`: its QCB, absent, or ignored. -/
def walkQueue (s : State) (q : Nat) : Entry × State :=
  let loc := s.dev.qtroot.toNat + 8 * (queuePasid s q).toNat
  match entryOf s loc with
  | .ignored => (.ignored, s)
  | .absent => (.absent, useEntry s loc)
  | .at ccb =>
    let s := useEntry s loc
    if !ccbValid s ccb then (.ignored, s)
    else
      let loc2 := s.readLocNat (ccb + 0x08) 8 + 8 * q
      (entryOf s loc2, useEntry s loc2)

namespace State

def queue? (s : State) (q : Nat) : Option HostQueue := FMap.get? s.host.queues q
def setQueue (s : State) (q : Nat) (h : HostQueue) : State :=
  { s with host := { s.host with queues := FMap.set s.host.queues q h } }
def updQueue (s : State) (q : Nat) (f : HostQueue → HostQueue) : State :=
  { s with host := { s.host with queues := FMap.update s.host.queues q f } }
def dropQueue (s : State) (q : Nat) : State :=
  { s with host := { s.host with queues := FMap.erase s.host.queues q, ctxs := s.host.ctxs.filter (·.q != q) } }

/-- The fetch context of a queue is free again, its unaccepted packets forgotten. -/
def freeCtx (s : State) (q : Nat) : State := { s with host := { s.host with ctxs := s.host.ctxs.filter (·.q != q) } }

/-- A doorbell that was ignored (20 R466, R471): the count saturates. -/
def dropDoorbell (s : State) : State :=
  { s with dev := { s.dev with dbdrop := if s.dev.dbdrop = 0xFFFFFFFF then s.dev.dbdrop else s.dev.dbdrop + 1 } }

/-- A queue stops with an error, and its context serves it no more. -/
def stopQueue (s : State) (q c err : Nat) : State := (stopQcb s c err).freeCtx q

end State

/-! ### Doorbells (20 R472) -/

/-- A doorbell of a queue whose QCB is at `c`. -/
def ringQcb (s : State) (q c tail : Nat) : State :=
  if qcbState s c = qStopped then s.dropDoorbell
  else if !qcbOk s c then s.stopQueue q c 4
  else
    let h := qcbHead s c
    let s := s.writeLocNat (c + 0x18) 8 tail
    if h ≤ tail ∧ tail ≤ h + qcbSize s c then
      if qcbState s c = qFetchFault then s else setQcbState s c (if h < tail then qRun else qIdle)
    else s.stopQueue q c 1

/-- The walk of a doorbell, and what it does then. -/
def walkAndRing (s : State) (q tail : Nat) : State :=
  match walkQueue s q with
  | (.ignored, s) => (s.dropQueue q).dropDoorbell
  | (.absent, s) =>
    (s.setQueue q { pasid := queuePasid s q, qcb := 0, absent := true, tail, wait := .none }).raiseInt 2
  | (.at c, s) => ringQcb (s.setQueue q { pasid := queuePasid s q, qcb := c, absent := false, tail, wait := .none }) q c tail

/-- A doorbell of queue `q`: the walk is kept until a doorbell finds the queue idle; at a stopped one it changes nothing
(20 R471, R472). -/
def ringDoorbell (s : State) (q tail : Nat) : State :=
  match s.queue? q with
  | none => walkAndRing s q tail
  | some h =>
    if h.absent then s.setQueue q { h with tail }
    else if qcbState s h.qcb = qIdle then walkAndRing s q tail
    else ringQcb s q h.qcb tail

/-- QRESUME (20 R472): a queue in FETCH_FAULT runs again; an absent one is walked again, its last doorbell with it. -/
def resumeQueue (s : State) (q : Nat) : State :=
  match s.queue? q with
  | none => s
  | some h =>
    if h.absent then walkAndRing s q h.tail
    else if qcbState s h.qcb = qFetchFault then (setQcbState s h.qcb qRun).setQueue q { h with wait := .none }
    else s

/-! ### Rows of the table -/

/-- 20 R471, R472: an 8-byte write of the new TAIL to the doorbell page of queue `q`. -/
def execDoorbell (q : Nat) (tail : Word) (s : State) : Answer :=
  .next (if q < 8192 then ringDoorbell s q tail.toNat else s)

/-- 20 R472. -/
def execQresume (q : Nat) (s : State) : Answer := .next (if q < 8192 then resumeQueue s q else s)

end Sys2Proof.Machine
end

