-- ==== Sys2Proof/Machine/Faults.lean ====
section
/-! DEFINITION. Accesses by agents that are not strands, and their gathered faults: the window, its list, its resolution
(07 R237 to R239, 16 R432, R433; 20 R465). -/

namespace Sys2Proof.Machine

/-- Number of the 128 KiB page of an address. -/
def pageOf (va : Nat) : Nat := va / 2 ^ 17

/-! ### The gathering window (07 R238, R239) -/

/-- The place of a pair in the list: by context, then by page. -/
def pairKey (p : FaultPair) : Nat := p.pasid.toNat * 2 ^ 64 + p.page.toNat

def mergePair (old new : FaultPair) : FaultPair :=
  { old with cause := if new.cause < old.cause then new.cause else old.cause, agents := old.agents ||| new.agents,
             hits := if old.hits = 0xFFFF then old.hits else old.hits + 1 }

/-- A pair added to a list in order, or merged with its record. -/
def addPair : List FaultPair → FaultPair → List FaultPair
  | [], p => [p]
  | q :: l, p =>
    if pairKey p < pairKey q then p :: q :: l
    else if pairKey p = pairKey q then mergePair q p :: l
    else q :: addPair l p

def hasPair (l : List FaultPair) (p : FaultPair) : Bool := l.any fun q => pairKey q == pairKey p

def agentBit : FaultAgent → Byte
  | .copy => 1 | .matrix => 2 | .sequence => 4 | .stream => 8 | .video => 16 | .host => 32

/-- A gathered fault arrives: it joins the open window, opens one, or waits outside a full one (16 R432). -/
def State.gather (s : State) (pasid : BitVec 20) (va : Nat) (sub : Byte) (agent : FaultAgent) : State :=
  let p : FaultPair := { pasid, page := BitVec.ofNat 64 (pageOf va * 2 ^ 17), cause := sub, agents := agentBit agent, hits := 1 }
  let f := s.faults
  let f := match f.opened with
    | none => { f with opened := some s.cycle, pairs := [p] }
    | some _ =>
      if hasPair f.pairs p || decide (f.pairs.length < 4096) then { f with pairs := addPair f.pairs p }
      else { f with outside := addPair f.outside p }
  { s with faults := f }

/-- Whether a subcode is one that is gathered (07 R239). -/
def gathers (sub : BitVec 8) : Bool := sub == 1 || sub == 2 || sub == 4 || sub == 6

/-- 07 R237: a fault met by an agent that is not a strand. -/
def execGatheredFault (pasid : BitVec 20) (page : Word) (sub : Byte) (agent : FaultAgent) (s : State) : Answer :=
  .next (if gathers sub then s.gather pasid page.toNat sub agent else s)

/-- The list of a window (07 R239). -/
def pairBytes (p : FaultPair) : List Byte :=
  leBytes 8 p.page.toNat ++ leBytes 4 p.pasid.toNat ++ [p.cause, p.agents] ++ leBytes 2 p.hits.toNat

def listBytes (f : FaultUnit) (cycle : Nat) : List Byte :=
  leBytes 4 f.pairs.length ++ leBytes 4 f.seq.toNat ++ leBytes 8 cycle ++ f.pairs.flatMap pairBytes

def FaultUnit.bufBusy (f : FaultUnit) : Bool := if f.seq.getLsbD 0 then f.busy1 else f.busy0

/-- A window is due to close 3,200 cycles after it opened, or when it is full; not while its buffer is busy. -/
def windowDue (s : State) : Bool := match s.faults.opened with
  | none => false
  | some c => !s.faults.bufBusy && (decide (c + 3200 ≤ s.cycle) || decide (4096 ≤ s.faults.pairs.length))

/-- The window closes: its list is written, FAULTLIST raised; what waited outside opens the next one, which holds at most
4,096 pairs (07 R238, 16 R432). -/
def State.closeWindow (s : State) : State :=
  let f := s.faults
  let base := (if f.seq.getLsbD 0 then s.dev.flbase1 else s.dev.flbase0).toNat
  let s := s.writeLoc base (listBytes f s.cycle)
  ({ s with faults := { pairs := f.outside.take 4096, outside := f.outside.drop 4096, opened := if f.outside.isEmpty then none else some s.cycle,
                        seq := f.seq + 1, busy0 := f.busy0 || !f.seq.getLsbD 0, busy1 := f.busy1 || f.seq.getLsbD 0 } }).raiseInt 1

/-- 07 R238. -/
def execFaultWindowClose (s : State) : Answer := .next (if windowDue s then s.closeWindow else s)

/-- 16 R432: a buffer is released. -/
def State.releaseList (s : State) (buf : Bool) : State :=
  { s with faults := if buf then { s.faults with busy1 := false } else { s.faults with busy0 := false } }

def execFlack (buf : Bool) (s : State) : Answer := .next (s.releaseList buf)

/-! ### Resolution (16 R433) -/

/-- A wait whose pair is resolved: the request goes on, or fails with the fault it met. -/
def FaultWait.resolve (p : PagePair) (fail : Bool) (w : FaultWait) : FaultWait := match w with
  | .on q sub va => if q = p then (if fail then .failed sub va else .none) else w
  | w => w

/-- A request waits on the pair. -/
def FaultWait.isOn (w : FaultWait) (p : PagePair) : Bool := match w with
  | .on q _ _ => q == p
  | _ => false

/-- Every waiting request of the device but the host queues' fetches. -/
def State.resolveUnits (s : State) (p : PagePair) (fail : Bool) : State :=
  let r := FaultWait.resolve p fail
  let cmds (l : List Cmd) : List Cmd := l.map fun c => { c with waiting := r c.waiting }
  { s with
    tiles := s.tiles.map fun q => (q.1, { q.2 with task := q.2.task.map fun t => { t with ceq := cmds t.ceq, meq := cmds t.meq, ending := r t.ending } })
    loom := { s.loom with
      orphans := s.loom.orphans.map fun o => { o with wait := r o.wait }
      launches := s.loom.launches.map fun q => (q.1, { q.2 with gangs := q.2.gangs.map fun g => (g.1, { g.2 with wait := r g.2.wait }) }) }
    cows := s.cows.map fun q => (q.1, { q.2 with wait := r q.2.wait })
    late := s.late.map fun o => { o with wait := r o.wait }
    su := { s.su with
      streams := s.su.streams.map fun q => (q.1, { q.2 with writeBack := r q.2.writeBack, unpick := r q.2.unpick })
      encoders := s.su.encoders.map fun q => (q.1, q.2.map fun k => { k with wait := r k.wait })
      decoders := s.su.decoders.map fun q => (q.1, { q.2 with wait := r q.2.wait }) }
    host := { s.host with cmds := s.host.cmds.map fun q => (q.1, { q.2 with wait := r q.2.wait }) } }

/-- The queues whose ring fetch waits on a pair. -/
def State.waitingQueues (s : State) (p : PagePair) : List Nat :=
  (s.host.queues.filter fun q => q.2.wait.isOn p).map (·.1)

/-- A queue's fetch goes on, or ends it (20 R472). -/
def State.resolveQueue (s : State) (fail : Bool) (q : Nat) : State :=
  match s.queue? q with
  | none => s
  | some h =>
    let s := s.setQueue q { h with wait := .none }
    if fail then s.stopQueue q h.qcb 3
    else if qcbState s h.qcb = qFetchFault then setQcbState s h.qcb qRun
    else s

/-- What waits at a home for a pair: the instructions of strands whose request met a gathered fault (13 R354). -/
def State.resolveStrands (s : State) (p : PagePair) (fail : Bool) : State :=
  { s with strands := s.strands.map fun q => (q.1, { q.2 with home := FaultWait.resolve p fail q.2.home }) }

/-- A pair is resolved: for another translation, or as failed. -/
def State.resolvePair (s : State) (p : PagePair) (fail : Bool) : State :=
  (s.waitingQueues p).foldl (fun s q => s.resolveQueue fail q) ((s.resolveUnits p fail).resolveStrands p fail)

def execFresRetry (pasid : BitVec 20) (page : Word) (s : State) : Answer := .next (s.resolvePair (pasid, pageOf page.toNat) false)

def execFresFail (pasid : BitVec 20) (page : Word) (s : State) : Answer := .next (s.resolvePair (pasid, pageOf page.toNat) true)

/-! ### A unit's access -/

/-- What a unit's access meets: its parts; a fault, with its subcode and address; a page request to the host. -/
inductive UnitGot | parts (ps : List Part) | fault (sub : BitVec 8) (va : Nat) | pri (va : Nat)
  deriving DecidableEq, Repr

/-- The pieces of a unit's access, in ascending address order. The fuel bounds their number. -/
def unitPieces (s : State) (a : Agent) (acc : Acc) : Nat → Nat → Nat → List Part → UnitGot × State
  | 0, _, _, ps => (.parts ps.reverse, s)
  | fuel + 1, va, len, ps =>
    if len = 0 then (.parts ps.reverse, s)
    else
      let n := Nat.min len (chunkEnd va - va)
      match locate s a va n acc with
      | (.part p, s) => unitPieces s a acc fuel (va + n) (len - n) (p :: ps)
      | (.bad sub at_, s) => (.fault sub at_, s)
      | (.pri, s) => (.pri va, s)

def unitAccess (s : State) (a : Agent) (acc : Acc) (va len : Nat) : UnitGot × State :=
  unitPieces s a acc (len / 0x10000 + 3) va len []

/-- The result of a unit's access after a fault has been gathered: parts to use, a wait, or a failure that waits for no
resolution (an address of no kind). -/
inductive UnitRes | ok (ps : List Part) | wait (w : FaultWait) | fail (sub : BitVec 8) (va : Nat)
  deriving DecidableEq, Repr

/-- A unit's access: a fault joins the gathering window once, and the request waits on its pair (07 R237). A request
whose pair was resolved as failed fails with the fault it met, whatever the page is by now (16 R433). -/
def unitReach (s : State) (a : Agent) (agent : FaultAgent) (w : FaultWait) (acc : Acc) (va len : Nat) : UnitRes × State :=
  match w with
  | .on p sub at_ => (.wait (.on p sub at_), s)
  | .failed sub at_ => (.fail sub at_, s)
  | .none =>
    match unitAccess s a acc va len with
    | (.parts ps, s) => (.ok ps, s)
    | (.fault sub at_, s) =>
      if !gathers sub then (.fail sub at_, s)
      else (.wait (.on (a.pasid, pageOf at_) sub at_), s.gather a.pasid at_ sub agent)
    | (.pri at_, s) => (.wait (.on (a.pasid, pageOf at_) 1 at_), s)

/-- Bytes a unit reads, past the L1s; whether a poisoned sector was among them. -/
def readParts (s : State) (ps : List Part) : List Byte × Bool :=
  (ps.flatMap fun p => s.readLoc p.loc p.len, ps.any fun p => isPoisoned s.poison p.loc p.len)

/-- Bytes a unit writes, in order over the parts. -/
def writeParts (s : State) : List Part → List Byte → Bool → State
  | [], _, _ => s
  | p :: ps, bs, bad => writeParts ((s.writeLoc p.loc (takeBytes bs 0 p.len) bad)) ps (bs.drop p.len) bad

end Sys2Proof.Machine
end

