-- ==== Sys2Proof/Machine/Registers.lean ====
section
/-! DEFINITION. The device's register space as BAR0 lays it out (20 R463, R466, R467, R488; 16 R417, R432, R433;
17 R449): one read and one write, for the host and for the headstock. -/

namespace Sys2Proof.Machine

/-! ### The journal's registers (20 R476, R478) -/

/-- Bytes of one HBM stack (20 R488). -/
def stkBytes : Nat := 48000000000

def jsizeOk (n : Nat) : Bool := decide (12 ≤ n) && decide (n ≤ 20)

/-- The journal is configured and recording (20 R478). -/
def jrnOk (s : State) : Bool :=
  jsizeOk s.dev.jsize.toNat && s.dev.boot != 4 && s.dev.jbase0.toNat / stkBytes != s.dev.jbase1.toNat / stkBytes

def statusReg (s : State) : Word :=
  BitVec.ofNat 64 (s.dev.boot.toNat * 2 ^ 24 + s.dev.lastrst.toNat * 2 ^ 16 + (if jrnOk s then 2 else 0) +
    (if s.dev.ready then 1 else 0))

def rasctl (d : DevRegs) : Word :=
  BitVec.ofNat 64 (d.rassize.toNat * 2 ^ 48 + d.rasdrop.toNat * 2 ^ 32 + d.rasput.toNat * 2 ^ 16 + d.rasget.toNat)

/-! ### The capability list (20 R488) -/

/-- Bodies, from offset 0x100 on, as 8-byte words: memory, journal, Psizen, video, collectives. -/
def capBody (s : State) (k : Nat) : List Nat :=
  match k with
  | 2 => [stkBytes, tier0Size, tier1Size]
  | 3 => [20]
  | 4 => [12, s.out.devNum, s.out.reach.length + 1]
  | 5 => [32, 8]
  | 6 => [0x1E]
  | _ => []

def capBodyOff (s : State) (k : Nat) : Nat := if (capBody s k).isEmpty then 0 else 0x100 + 0x40 * k

/-- Entry `k`, from 1 to 7. -/
def capEntry (s : State) (k : Nat) : List Byte :=
  leBytes 2 k ++ leBytes 1 1 ++ leBytes 1 0 ++ leBytes 4 (if k < 7 then 16 * k else 0) ++ leBytes 8 (capBodyOff s k)

def capBytes (s : State) : List Byte :=
  takeBytes ((List.range 7).flatMap fun k => capEntry s (k + 1)) 0 0x100 ++
    (List.range 8).flatMap fun k => takeBytes ((capBody s k).flatMap fun v => leBytes 8 v) 0 0x40

/-! ### Reading and writing -/

/-- A field of bits `lo` to `hi` of a value, in place. -/
def keepBits (v : Word) (lo hi : Nat) : Word := BitVec.ofNat 64 (bits v lo (hi + 1 - lo) * 2 ^ lo)

/-- What stands in the register block at an offset that is a multiple of 8, and the state after the read: DBDROP and
RASDROP are cleared by one (20 R466, 17 R449). -/
def readReg (s : State) (off : Nat) : Word × State :=
  if 0x10000 ≤ off ∧ off < 0x20000 then ((queuePasid s ((off - 0x10000) / 8)).setWidth 64, s)
  else if 0xA0 ≤ off ∧ off < 0x160 then (BitVec.ofNat 64 (s.cluster ((off - 0xA0) / 8)).win, s)
  else match off with
    | 0x00 => (statusReg s, s)
    | 0x10 => (s.dev.qtroot, s)
    | 0x18 => (s.dev.dbdrop.setWidth 64, { s with dev := { s.dev with dbdrop := 0 } })
    | 0x20 => (s.dev.wdint.setWidth 64, s)
    | 0x28 => (s.dev.flbase0, s)
    | 0x30 => (s.dev.flbase1, s)
    | 0x48 => (s.dev.rasbase, s)
    | 0x50 => (rasctl s.dev, { s with dev := { s.dev with rasdrop := 0 } })
    | 0x58 => (s.dev.jbase0, s)
    | 0x60 => (s.dev.jbase1, s)
    | 0x68 => (s.dev.jsize.setWidth 64, s)
    | 0x70 => (s.dev.jput, s)
    | 0x78 => (s.dev.jack, s)
    | 0x80 => (s.dev.jevbase, s)
    | 0x88 => (s.dev.hwbase, s)
    | _ => (0, s)

/-- A task is placed in a cluster. -/
def clusterBusy (s : State) (c : Nat) : Bool := (List.range 8).any fun k => (s.task? (8 * c + k)).isSome

/-- WINCFG (20 R467): a change leaves the window's contents undefined. -/
def writeWincfg (s : State) (c : Nat) (v : Word) : State :=
  let w := bits v 0 4
  if c < 24 ∧ w ≤ 8 ∧ !clusterBusy s c then
    let s1 := if w = (s.cluster c).win then s else s.clearLoc (windowLoc c 0) 0x4000000
    s1.setCluster c { s1.cluster c with win := w }
  else s

/-- JACK: a value below the current one is discarded. -/
def writeJack (s : State) (v : Word) : State := if v < s.dev.jack then s else { s with dev := { s.dev with jack := v } }

/-- FRES (16 R433): actions 1 and 2; any other is ignored. -/
def writeFres (s : State) (v : Word) : State :=
  let pair : PagePair := (BitVec.ofNat 20 (bits v 42 20), bits v 0 39)
  match bits v 62 2 with
  | 1 => s.resolvePair pair false
  | 2 => s.resolvePair pair true
  | _ => s

/-- Registers that only the headstock writes (20 R467). -/
def headOnly (off : Nat) : Bool :=
  off == 0x10 || off == 0x58 || off == 0x60 || off == 0x68 || off == 0x80 || (decide (0xA0 ≤ off) && decide (off < 0x160))

/-- A write at an offset of the register block that is a multiple of 8. -/
def writeReg (s : State) (off : Nat) (v : Word) (host : Bool) : State :=
  let d := s.dev
  let dev (d : DevRegs) : State := { s with dev := d }
  if host && headOnly off then s
  else if 0x10000 ≤ off ∧ off < 0x20000 then
    let q := (off - 0x10000) / 8
    let p : BitVec 20 := v.setWidth 20
    dev { d with qpasid := if p = 0 then FMap.erase d.qpasid q else FMap.set d.qpasid q p }
  else if 0xA0 ≤ off ∧ off < 0x160 then writeWincfg s ((off - 0xA0) / 8) v
  else match off with
    | 0x08 => if v.getLsbD 0 then { s with host := { s.host with resetDue := true } } else s
    | 0x10 => dev { d with qtroot := keepBits v 23 51 }
    | 0x20 => dev { d with wdint := if bits v 0 32 < 0x10000 then 0x10000 else v.setWidth 32 }
    | 0x28 => dev { d with flbase0 := keepBits v 4 55 }
    | 0x30 => dev { d with flbase1 := keepBits v 4 55 }
    | 0x38 => s.releaseList (v.getLsbD 0)
    | 0x40 => writeFres s v
    | 0x48 => dev { d with rasbase := keepBits v 6 55 }
    | 0x50 => dev { d with rassize := v.extractLsb' 48 16, rasget := v.extractLsb' 0 16 }
    | 0x58 => dev { d with jbase0 := keepBits v 7 51 }
    | 0x60 => dev { d with jbase1 := keepBits v 7 51 }
    | 0x68 => dev { d with jsize := v.setWidth 5 }
    | 0x78 => writeJack s v
    | 0x80 => dev { d with jevbase := keepBits v 16 51 }
    | 0x88 => dev { d with hwbase := keepBits v 30 51 }
    | 0x90 => resumeQueue s (bits v 0 13)
    | _ => s

/-- Where BAR0 storage that is not a register lies in the map of log 3: the headstock's second-tier addresses of it
(20 R466). -/
def barLoc (off : Nat) : Nat := tier1Base + regBase + off

/-- The MSI-X table and PBA (20 R463). -/
def isMsix (off : Nat) : Bool := decide (0x80000 ≤ off) && decide (off < 0x91000)

/-- Eight bytes of BAR0 at a multiple of 8; what no row names reads zero (20 R463). -/
def readBar (s : State) (off : Nat) : Word × State :=
  if off % 8 ≠ 0 then (0, s)
  else if off < 0x1000 then (BitVec.ofNat 64 (field (capBytes s) off 8), s)
  else if isMsix off then (BitVec.ofNat 64 (s.readLocNat (barLoc off) 8), s)
  else if 0x100000 ≤ off ∧ off < 0x120000 then readReg s (off - 0x100000)
  else (0, s)

/-- A write of eight bytes of BAR0. A doorbell is a write by the host (20 R472). -/
def writeBar (s : State) (off : Nat) (v : Word) (host : Bool) : State :=
  if off % 8 ≠ 0 then s
  else if isMsix off then s.writeLocNat (barLoc off) 8 v.toNat
  else if 0x100000 ≤ off ∧ off < 0x120000 then writeReg s (off - 0x100000) v host
  else if 0x2000000 ≤ off ∧ off < 0x4000000 ∧ host then ringDoorbell s ((off - 0x2000000) / 0x1000) v.toNat
  else s

/-- The bytes of a strand's load and the state after it: a device register answers whole 8-byte loads, and zero to any
other (20 R466, R463). -/
def fetchParts (s : State) (tile sid : Nat) (ch : CacheHint) (ps : List Part) : Got × State :=
  match ps with
  | [p] =>
    if p.space = .device then
      let r := if p.len = 8 then readBar s (p.loc - barLoc 0) else (0, s)
      ({ bytes := leBytes p.len r.1.toNat, bad := false, missed := false }, r.2)
    else loadParts s tile sid ch ps
  | _ =>
    if ps.any (·.space == .device) then
      ({ bytes := List.replicate (ps.foldl (fun n p => n + p.len) 0) 0, bad := false, missed := false }, s)
    else loadParts s tile sid ch ps

/-! ### Rows of the table -/

/-- 20 R466. -/
def execRegisterWrite (off : Nat) (v : Word) (host : Bool) (s : State) : Answer := .next (writeBar s off v host)

/-- 20 R466. -/
def execJackWrite (v : Word) (s : State) : Answer := .next (writeJack s v)

/-- 20 R467. -/
def execWincfgWrite (c : Nat) (v : Word) (s : State) : Answer := .next (writeWincfg s c v)

/-- 20 R466: reading DBDROP clears it. -/
def execDbdropRead (s : State) : Answer := .next (readReg s 0x18).2

/-- 17 R449: reading RASCTL clears RASDROP. -/
def execRasctlRead (s : State) : Answer := .next (readReg s 0x50).2

end Sys2Proof.Machine
end

