-- ==== Sys2Proof/Machine/Sync.lean ====
section
/-! DEFINITION. Semaphores (11 R313 to R315, 12 R343), and the collective buffers whose folds signal them (20 R490 to
R493). -/

namespace Sys2Proof.Machine

/-! ### Semaphores -/

namespace State

def sem (s : State) (c k : Nat) : Sem := (FMap.get? (s.cluster c).sems k).getD Sem.clear

/-- A semaphore set; one at zero that nobody waits at is not listed. -/
def setSem (s : State) (c k : Nat) (m : Sem) : State :=
  let cl := s.cluster c
  s.setCluster c { cl with sems := if m = Sem.clear then FMap.erase cl.sems k else FMap.set cl.sems k m }

/-- SEMSIG's effect on the counter. -/
def semAdd (s : State) (c k : Nat) (n : BitVec 32) : State :=
  let m := s.sem c k
  s.setSem c k (Sem.grant { m with v := satAdd m.v n })

/-- SEMSET's effect on the counter. -/
def semSet (s : State) (c k : Nat) (n : BitVec 32) : State :=
  let m := s.sem c k
  s.setSem c k (Sem.grant { m with v := n })

end State

/-- A semaphore name (11 R314). -/
def semOk (a : Word) : Bool := bits a 13 51 == 0 && decide (bits a 8 5 < 24)
def semCluster (a : Word) : Nat := bits a 8 5
def semIndex (a : Word) : Nat := bits a 0 8

/-- The checks all four make: marks, then the name. -/
def semChecks (t : Strand) (ds : List Desig) (name : Word) : Res Unit := do
  noMarks t ds
  need (semOk name) (engineTrap 0x06 name)

/-- FENCE.rel.dev before SEMSIG and SEMSET. -/
def semRelease (s : State) (t : Strand) : Res State := do
  if acquiring t then .error (stall .acquire)
  releaseReady s (unitOf s.sid) t .dev
  .ok (s.releaseL1 (unitOf s.sid) .dev)

/-- 11 R314. -/
def execSemsig (f : FormE) (s : State) : Answer :=
  issue (.semsig f) .normal anyLevel (withFocus fun s t => do
    semChecks t [f.a, f.b] (t.xa f.a)
    let s ← semRelease s t
    .ok (s.semAdd (semCluster (t.xa f.a)) (semIndex (t.xa f.a)) ((t.xa f.b).setWidth 32))) s

/-- 11 R314. -/
def execSemset (f : FormE) (s : State) : Answer :=
  issue (.semset f) .normal anyLevel (withFocus fun s t => do
    semChecks t [f.a, f.b] (t.xa f.a)
    let s ← semRelease s t
    .ok (s.semSet (semCluster (t.xa f.a)) (semIndex (t.xa f.a)) ((t.xa f.b).setWidth 32))) s

/-- 11 R314: relaxed. -/
def execSemrd (f : FormE) (s : State) : Answer :=
  issue (.semrd f) .normal anyLevel (withFocus fun s t => do
    semChecks t [f.a] (t.xa f.a)
    if acquiring t then .error (stall .acquire)
    .ok (s.updStrand s.sid fun t => t.putD f.d ((s.sem (semCluster (t.xa f.a)) (semIndex (t.xa f.a))).v.setWidth 64))) s

/-- The name a wait at a semaphore is known by. -/
def semName (a : Word) : Nat := bits a 0 13

/-- The FENCE.acq.dev that follows a SEMWAIT's read: every older load and atomic is complete (08 R258). -/
def fenceReady (t : Strand) : Bool := t.loads.isEmpty && t.atoms.isEmpty

/-- 11 R314, R315: the strand joins the waiters once, and completes when it is granted and the fence after it is passed. -/
def execSemwait (f : FormE) (s : State) : Answer :=
  issue (.semwait f) .normal anyLevel (withFocus fun s t => do
    let a := t.xa f.a
    semChecks t [f.a, f.b] a
    if acquiring t then .error (stall .acquire)
    let n : BitVec 32 := (t.xa f.b).setWidth 32
    let tile := unitOf s.sid
    if n = 0 then do
      need (fenceReady t) (stall .older)
      .ok (s.acquireL1 tile .dev)
    else
      let c := semCluster a
      let k := semIndex a
      let m := s.sem c k
      let m := if m.waiters.any (·.sid == s.sid) then m
               else Sem.grant { m with waiters := m.waiters ++ [{ sid := s.sid, n, granted := false }] }
      if fenceReady t && m.waiters.any fun w => w.sid == s.sid && w.granted then
        .ok ((s.setSem c k { m with waiters := m.waiters.filter (·.sid != s.sid) }).acquireL1 tile .dev)
      else .error (.hold (s.setSem c k m) (.semaphore (semName a)) none)) s

/-! ### Collective buffers (20 R491) -/

/-- An entry of the collective buffer table. -/
structure Coll where
  loc : Nat
  base : Nat
  size : Nat
  op : Nat
  first : Nat
  ndev : Nat
  expect : Nat
  sem : Word
  count : Nat
  deriving DecidableEq, Repr

/-- The range of a buffer lies in general memory, or wholly in one cluster shared window below its WIN. -/
def collPlace (s : State) (base size : Nat) : Bool :=
  let top := base + size
  (decide (top ≤ 0x0080000000000000)) || (decide (0x0090000000000000 ≤ base) && decide (top ≤ 0x00FF000000000000)) ||
    (decide (0x00FFE00000000000 ≤ base) && decide (base < 0x00FFE00060000000) &&
      (let o := base - 0x00FFE00000000000
       decide (o % 0x4000000 + size ≤ (s.cluster (o / 0x4000000)).win * 0x400000)))

/-- Buffer `b` of a context, when its entry is valid; none of a context that does not exist or takes no fabric
accesses (20 R490). -/
def collOf (s : State) (pasid : BitVec 20) (b : Nat) : Option Coll :=
  if ccbCbt s pasid = 0 ∨ ccbNcb s pasid ≤ b then none
  else
    let l := ccbCbt s pasid + 32 * b
    let c : Coll := { loc := l, base := s.readLocNat l 8, size := s.readLocNat (l + 0x08) 4, op := s.readLocNat (l + 0x0C) 1,
                      first := s.readLocNat (l + 0x10) 2, ndev := s.readLocNat (l + 0x12) 2,
                      expect := s.readLocNat (l + 0x14) 4, sem := BitVec.ofNat 64 (s.readLocNat (l + 0x18) 4),
                      count := s.readLocNat (l + 0x1C) 4 }
    if c.base % 64 = 0 ∧ c.size % 64 = 0 ∧ 1 ≤ c.op ∧ c.op ≤ 4 ∧ collPlace s c.base c.size ∧ (c.expect = 0 ∨ semOk c.sem) then some c
    else none

/-- The context takes fabric accesses (20 R490). -/
def fabricContext (s : State) (pasid : BitVec 20) : Bool := (ccbOf s pasid).isSome && ccbDomain s pasid

/-- The aperture's answer to `len` bytes at an offset (20 R490, R492): the buffer and where the bytes land, or the
XLATE subcode it answers with. -/
def aperture (s : State) (pasid : BitVec 20) (user : Bool) (off len : Nat) : Except (BitVec 8) (Coll × List Part) × State :=
  if !fabricContext s pasid then (.error 1, s)
  else match collOf s pasid (off / 2 ^ 30 % 2 ^ 9) with
    | none => (.error 5, s)
    | some c =>
      let o := off % 2 ^ 30
      if o % 64 ≠ 0 ∨ len % 64 ≠ 0 ∨ c.size < o + len ∨ (c.op = 1 ∧ !(decide (c.first ≤ s.out.devNum) && decide (s.out.devNum < c.first + c.ndev))) then
        (.error 5, s)
      else if c.base + o < Nat.min (ccbHosttop s pasid) 0x00FF000000000000 then (.error 1, s)
      else match unitAccess s (unitAgent pasid user) (if c.op = 1 then .store else .atomic) (c.base + o) len with
        | (.parts ps, s) => (.ok (c, ps), s)
        | (.fault sub _, s) => (.error sub, s)
        | (.pri _, s) => (.error 1, s)

/-! ### Folding (20 R492, R493) -/

def f32IsNan (w : BitVec 32) : Bool := (f32Val w).isNan

/-- The weight of a record in Msv: 2 to the exact difference, rounded once. -/
def msvWeight (m r : BitVec 32) : BitVec 32 :=
  if (f32Val r).eqv (f32Val m) then 0x3F800000
  else if r = 0xFF800000 then 0
  else f32Of (((f32Val r).sub (f32Val m) .rne).exp2)

def msvTerm (a w : BitVec 32) : BitVec 32 := if (f32Val a).isZero then 0 else f32Mul w a

/-- Msv of two records of sixteen words: m, s, v0 to v13. -/
def msv (r1 r2 : List (BitVec 32)) : List (BitVec 32) :=
  if (r1 ++ r2).any f32IsNan then List.replicate 16 0x7FC00000
  else
    let m := f32Max (r1.headD 0) (r2.headD 0)
    if m = 0xFF800000 then m :: List.replicate 15 0
    else
      let a1 := msvWeight m (r1.headD 0)
      let a2 := msvWeight m (r2.headD 0)
      m :: (List.range 15).map fun k => f32Add (msvTerm a1 (r1.getD (k + 1) 0)) (msvTerm a2 (r2.getD (k + 1) 0))

/-- Comb of a buffer's flit with an arriving one. -/
def combFlit (op : Nat) (old new : List (BitVec 32)) : List (BitVec 32) :=
  match op with
  | 1 => new
  | 2 => (List.range 16).map fun k => f32Add (old.getD k 0) (new.getD k 0)
  | 3 => (List.range 16).map fun k => f32Max (old.getD k 0) (new.getD k 0)
  | _ => msv old new

def flitWords (bs : List Byte) : List (BitVec 32) := (List.range 16).map fun k => BitVec.ofNat 32 (field bs (4 * k) 4)
def flitBytes (ws : List (BitVec 32)) : List Byte := (List.range 16).flatMap fun k => leBytes 4 (ws.getD k 0).toNat

/-- The count after `n` more flits, and the signals it makes. -/
def countFlits (s : State) (c : Coll) (n : Nat) : State :=
  let total := (s.readLocNat (c.loc + 0x1C) 4 + n) % 2 ^ 32
  if c.expect = 0 then s.writeLocNat (c.loc + 0x1C) 4 total
  else (s.writeLocNat (c.loc + 0x1C) 4 (total % c.expect)).semAdd (semCluster c.sem) (semIndex c.sem)
      (BitVec.ofNat 32 (total / c.expect))

/-- One flit lands: it is written or folded at its place, and counted (20 R492). -/
def landFlit (s : State) (c : Coll) (ps : List Part) (ws : List (BitVec 32)) (n : Nat) (bad : Bool) : State :=
  let old := readParts s ps
  let new := combFlit c.op (flitWords old.1) ws
  countFlits (writeParts s ps (flitBytes new) (bad || (c.op != 1 && old.2))) c n

/-- Flits of a run of bytes that this device's own agents write to its aperture, one after the other. The fuel bounds
their number. -/
def landBytes (s : State) (pasid : BitVec 20) (user : Bool) : Nat → Nat → List Byte → Bool → State
  | 0, _, _, _ => s
  | fuel + 1, off, bs, bad =>
    if bs.isEmpty then s
    else match aperture s pasid user off 64 with
      | (.ok (c, ps), s) => landBytes (landFlit s c ps (flitWords (takeBytes bs 0 64)) 1 bad) pasid user fuel (off + 64) (bs.drop 64) bad
      | (.error _, s) => s

end Sys2Proof.Machine
end

