-- ==== Sys2Proof/Machine/MemInsn.lean ====
section
/-! DEFINITION. Class 2: loads, stores, slice transfers, ordering, cache maintenance, atomics, the allocator port
(09 R272 to R291; 01 R15 to R20; 07 R218 to R224; 08 R247 to R264). -/

namespace Sys2Proof.Machine

/-- log2 of the access size of a scalar type. -/
def sizeLog (ty : Ty) : Nat := match Ty.bytes ty with
  | 1 => 0 | 2 => 1 | 4 => 2 | _ => 3

/-- The number of the request the instruction in focus makes. -/
def State.own (s : State) : Nat := s.req - 1

/-- The program-order number of the instruction in focus. -/
def State.number (s : State) (t : Strand) : Nat := match s.focus with
  | some f => seqOf t f.place
  | none => t.seq

/-! ### The checker core and lockstep (17 R436, R437, R444 to R446) -/

/-- What the checker or the shadow says of an access, command or request about to leave the tile. -/
inductive Verdict | pass | rollback (sub : BitVec 8) | diverge (sub : BitVec 8)
  deriving DecidableEq, Repr

/-- The verdict on an engine command or a home-path request. -/
def verdict (s : State) (sid : Nat) (t : Strand) : Verdict :=
  match t.checker with
  | none => .pass
  | some sub => if eligible s sid t then .rollback sub else .diverge sub

/-- The verdict on a store or an atomic: the checker does not look at them, the shadow does (17 R436, R444). -/
def accessVerdict (s : State) (sid : Nat) (t : Strand) : Verdict :=
  if t.checker = some 2 then verdict s sid t else .pass

/-- The value of a DIVERGE report or trigger: the opcode, or the primary's place. -/
def divergeVal (sid : Nat) (sub : BitVec 8) (opc : BitVec 10) : Nat :=
  if sub = 2 then tileOf sid else opc.toNat

/-- A second checker mismatch within 65,536 cycles after the rollback for a first declares the tile failed (17 R446). -/
def State.noteMismatch (s : State) (sid : Nat) (sub : BitVec 8) : State :=
  if sub = 1 ∧ ((s.tile (tileOf sid)).diverged.any fun c => decide (s.cycle < c + 65536)) then
    s.updTile (tileOf sid) fun x => { x with failing := true }
  else s

/-- The strand is to be rolled back instead of issuing the command or making the access. -/
def divergeRollback (s : State) (sid : Nat) (sub : BitVec 8) (opc : BitVec 10) : State :=
  (s.noteMismatch sid sub).updStrand sid fun t =>
    { t with checker := none, rollback := some (0x0F, sub, BitVec.ofNat 56 (divergeVal sid sub opc)) }

/-- The strand holds a DIVERGE report: it keeps the first. -/
def divergeReport (s : State) (sid : Nat) (sub : BitVec 8) (opc : BitVec 10) : State :=
  let val : Word := BitVec.ofNat 64 (sub.toNat * 2 ^ 56 + divergeVal sid sub opc)
  let pc := ((s.strand? sid).map (·.pc)).getD 0
  ((s.noteMismatch sid sub).ras (s.rasFor sid { type := 0x03, xpc := pc, xcause := 0x0F, xval := val })).updStrand sid fun t =>
    { t with checker := none,
             divRep := match t.divRep with
               | some r => some r
               | none => some { val } }

/-- A store or atomic about to leave the tile: it leaves, with `go`; or the strand is rolled back instead; or it does not
leave, `stay` takes the place of its effect, and a DIVERGE report is held (17 R444, R445; log 86). -/
def leaveTile (s : State) (t : Strand) (opc : BitVec 10) (go : Res State) (stay : State → State) : Res State :=
  match accessVerdict s s.sid t with
  | .pass => go
  | .rollback sub => .error (.hold (divergeRollback s s.sid sub opc) .older none)
  | .diverge sub => .ok (divergeReport (stay s) s.sid sub opc)

/-! ### The allocator port (07 R218 to R221) -/

def partStrands (p : BitVec 32) : Nat := (p.extractLsb' 28 4).toNat
def partGuard (p : BitVec 32) : Nat := (p.extractLsb' 24 4).toNat
def partSpad (p : BitVec 32) : Nat := (p.extractLsb' 16 8).toNat
def partAcc (p : BitVec 32) : Nat := (p.extractLsb' 8 8).toNat
def partRf (p : BitVec 32) : Nat := (p.extractLsb' 0 8).toNat

def spadVa : Nat := 0x00FFF00000000000

/-- SPALLOC (07 R219): the base returned, and the task after it. -/
def Task.alloc (t : Task) (n : Word) : Word × Task :=
  let g := partGuard t.part
  if bits n 32 32 ≠ 0 ∨ bits n 0 32 = 0 then (BitVec.allOnes 64, t)
  else
    let size := roundUp (bits n 0 32) 256
    if t.floor < t.top + size + g * 256 then (BitVec.allOnes 64, t)
    else
      (BitVec.ofNat 64 (spadVa + t.top),
       { t with guards := (List.range g).foldl (fun l k => NatSet.insert l ((t.top + size) / 256 + k)) t.guards,
                top := t.top + size + g * 256 })

/-- A store to SPTOP (07 R220). -/
def Task.release (t : Task) (v : Word) : Task :=
  let u := (v - BitVec.ofNat 64 spadVa).toNat
  if u % 256 = 0 ∧ partGuard t.part * 256 ≤ u ∧ u ≤ t.top then
    { t with top := u, guards := t.guards.filter fun g => g * 256 < u }
  else t

/-- What SPTOP and SPFLOOR read as. -/
def portRead (s : State) (tile off : Nat) : Word := match s.task? tile with
  | some t => BitVec.ofNat 64 (spadVa + (if off = 8 then t.top else t.floor))
  | none => 0

/-- The one part of an access that lies in the port, as an offset from 0x80_0000. -/
def portOf (ps : List Part) : Option Nat := match ps with
  | [p] => if p.space = .port then some (p.loc - 0x800000) else none
  | _ => none

/-- Port accesses of width 8 at SPTOP or SPFLOOR. -/
def portOk (off w : Nat) : Bool := w == 8 && (off == 8 || off == 16)

/-! ### Loads (09 R276 to R278) -/

/-- The value a scalar load gives (09 R277). -/
def loadValue (ty : Ty) (bs : List Byte) : Word := resWord ty (leNat bs : Nat)

/-- A load performed: it is in flight until its data arrives. -/
def startLoad (s : State) (t : Strand) (f : FormM) (ps : List Part) (ea : Word) (dst : LoadDst) (shape : List Byte → VReg) :
    Res State := do
  loadFree t ps
  let tile := unitOf s.sid
  let g := fetchParts (if f.ord = .acq then s.freshen tile f.scope ps else s) tile s.sid f.ch ps
  let mark : Option Mark := if g.1.bad then some { addr := ea.setWidth 56, atomic := false } else none
  let fl : Flight := { req := s.own, seq := t.seq, dst, data := shape g.1.bytes, mark,
                       acq := if f.ord = .acq then some f.scope else none, since := s.cycle }
  .ok (g.2.updStrand s.sid fun t => { t with loads := t.loads ++ [fl] })

/-- Who makes a memory access: a load with .acq at a scope wider than the tile misses the L1 (08 R225, log 16). -/
def readerOf (s : State) (t : Strand) (f : FormM) : Agent :=
  { agentOf s s.sid t with l1 := !(f.ord == .acq && wide f.scope) }

/-- The checks of a scalar access (09 R274): stack, translation, marks. -/
def scalarParts (s : State) (t : Strand) (f : FormM) (acc : Acc) (ea : Word) (w : Nat) : Res (List Part × State) := do
  checkBase s s.sid t f.a ea w
  let r ← accessParts s (readerOf s t f) acc ea w
  noAperture r.1
  .ok r

def execLd (f : FormM) (s : State) : Answer :=
  issue (.ld f) .ahead anyLevel (withFocus fun s t => do
    let w := Ty.bytes f.ty
    let ea := effAddr t f (sizeLog f.ty)
    let r ← scalarParts s t f .load ea w
    match portOf r.1 with
    | some off =>
      need (portOk off w) (xlateTrap 5 ea)
      noMarks t [f.a, f.b]
      loadReady t
      let v := portRead r.2 (tileOf s.sid) off
      .ok (r.2.updStrand s.sid fun t => { t with loads := t.loads ++
        [{ req := s.own, seq := t.seq, dst := .reg f.d, data := v.setWidth 4096, mark := none,
           acq := if f.ord = .acq then some f.scope else none, since := s.cycle }] })
    | none =>
      noPort r.1
      noMarks t [f.a, f.b]
      startLoad r.2 t f r.1 ea (.reg f.d) fun bs => (loadValue f.ty bs).setWidth 4096) s

/-- Room in LQ, once the queue is not frozen. -/
def lqRoom (t : Strand) : Res Unit := do
  frozen t
  need (decide (t.lq.length < 32)) (stall .lqFull)

/-- An entry allocated in LQ, its data still to come unless given. -/
def pushLq (s : State) (size : Nat) (data : Option VReg) : State :=
  s.updStrand s.sid fun t => { t with lq := t.lq ++ [{ seq := t.seq, req := s.own, size, data, mark := none }] }

def execLdq (f : FormM) (s : State) : Answer :=
  issue (.ldq f) .ahead anyLevel (withFocus fun s t => do
    let w := Ty.bytes f.ty
    let ea := effAddr t f (sizeLog f.ty)
    let r ← scalarParts s t f .load ea w
    noPort r.1
    noMarks t [f.a, f.b]
    lqRoom t
    let s2 ← startLoad r.2 t f r.1 ea .lq fun bs => (loadValue f.ty bs).setWidth 4096
    .ok (pushLq s2 8 none)) s

/-- Bytes of a vector access (09 R278). -/
def vecLen (t : Strand) (f : FormM) : Nat :=
  let n := if f.c = .x 0 then 512 else Nat.min (t.xa f.c).toNat 512
  n - n % Ty.bytes f.ty

/-- The address of a vector access is a multiple of its type's width (09 R275). -/
def vecAligned (f : FormM) (ea : Word) : Res Unit := need (ea.toNat % Ty.bytes f.ty == 0) (alignTrap 1 ea)

def vecValue (bs : List Byte) : VReg := BitVec.ofNat 4096 (leNat bs)

def execVldq (f : FormM) (s : State) : Answer :=
  issue (.vldq f) .ahead anyLevel (withFocus fun s t => do
    let n := vecLen t f
    let ea := effAddr t f 9
    if n = 0 then
      noMarks t [f.a, f.b, f.c]
      lqRoom t
      .ok (pushLq s 512 (some 0))
    else
      checkBase s s.sid t f.a ea n
      vecAligned f ea
      let r ← accessParts s (readerOf s t f) .load ea n
      noAperture r.1
      noPort r.1
      noMarks t [f.a, f.b, f.c]
      lqRoom t
      let s2 ← startLoad r.2 t f r.1 ea .lq vecValue
      .ok (pushLq s2 512 none)) s

/-- Data arrives (09 R276, R277): the register or the LQ entry is filled, with its mark; an acquire completes. -/
def Strand.arrive (t : Strand) (l : Flight) : Strand :=
  let t := { t with loads := t.loads.filter (·.req != l.req) }
  let t := match l.dst with
    | .reg d => t.putD d (l.data.setWidth 64) l.mark
    | .lq => Strand.logged { t with lq := t.lq.map fun e => if e.req = l.req then { e with data := some l.data, mark := l.mark } else e }
        (.reg .lq) l.data
  let t := match l.dst with
    | .reg d => t.backfill l.seq d (l.data.setWidth 64) l.mark
    | .lq => t
  clearPend t fun p => p.req == l.req

def execLoadDataReturn (sid : Nat) (req : Nat) (s : State) : Answer :=
  match s.strand? sid with
  | none => .next s
  | some t =>
    match t.loads.find? (·.req == req) with
    | none => .next s
    | some l =>
      let s := s.setStrand sid (t.arrive l)
      .next (match l.acq with
        | some sc => s.acquireL1 (unitOf sid) sc
        | none => s)

/-- 01 R23: a variable-latency result that is no load's or atomic's is written. -/
def execResultWrite (sid : Nat) (req : Nat) (s : State) : Answer :=
  match s.strand? sid with
  | none => .next s
  | some t =>
    if t.loads.any (·.req == req) || t.atoms.any (·.req == req) then .next s
    else .next (s.setStrand sid (clearPend t fun p => p.req == req && p.ready.isNone))

/-! ### Stores (09 R279 to R281) -/

/-- A release orders what it must before the store (08 R255, R259). -/
def relReady (s : State) (t : Strand) (o : MemOrd) (sc : Scope) : Res State :=
  match o with
  | .rel | .ar => do
    releaseReady s (unitOf s.sid) t sc
    .ok (s.releaseL1 (unitOf s.sid) sc)
  | _ => .ok s

/-- A store that carries a release reaches the visibility point of its scope (08 R248, R255). -/
def publish (s : State) (o : MemOrd) (sc : Scope) : State := match o with
  | .rel | .ar => s.releaseL1 (unitOf s.sid) sc
  | _ => s

/-- A store to a device register (20 R463): eight bytes at a multiple of 8; any other is discarded. -/
def storeDevice (s : State) (ps : List Part) (v : Word) : State := match ps with
  | [p] => if p.len = 8 then writeBar s (p.loc - barLoc 0) v false else s
  | _ => s

def storeBody (f : FormM) : Body := withFocus fun s t => do
  let w := Ty.bytes f.ty
  let ea := effAddr t f (sizeLog f.ty)
  let r ← scalarParts s t f .store ea w
  let v := t.xa f.c
  match portOf r.1 with
  | some off =>
    need (portOk off w) (xlateTrap 5 ea)
    noMarks t [f.a, f.b]
    storeReady t
    let s ← relReady r.2 t f.ord f.scope
    .ok (if off = 8 then s.updTask (tileOf s.sid) (·.release v) else s)
  | none =>
    noPort r.1
    noMarks t [f.a, f.b]
    storeReady t
    let s ← relReady r.2 t f.ord f.scope
    leaveTile s t 0x102 (.ok (if r.1.any (·.space == .device) then storeDevice s r.1 v
    else publish (storeParts (s.noteStore s.sid t t.seq f.ch r.1) (unitOf s.sid) s.sid f.ch r.1 (leBytes w v.toNat) (t.markOf f.c).isSome) f.ord f.scope)) id

def execSt (f : FormM) (s : State) : Answer := issue (.st f) .normal anyLevel (storeBody f) s

/-- A store to SPTOP (07 R220). -/
def execSptopRelease (f : FormM) (s : State) : Answer := issue (.sptopRelease f) .normal anyLevel (storeBody f) s

/-- A store to SPFLOOR (07 R221). -/
def execSpfloorStore (f : FormM) (s : State) : Answer := issue (.spfloorStore f) .normal anyLevel (storeBody f) s

def saqRoom (t : Strand) : Res Unit := do
  frozen t
  need (!saqFull t) (stall .saqFull)

def pushSaq (s : State) (t : Strand) (f : FormM) (ea : Word) (size : Nat) (parts : List Part) : State :=
  s.updStrand s.sid fun q => Strand.logged { q with saq := q.saq ++
    [{ seq := t.seq, addr := ea, size, parts, ch := f.ch, ord := f.ord, scope := f.scope, pl := t.pl }] } .saq (ea.setWidth 4096)

def execSta (f : FormM) (s : State) : Answer :=
  issue (.sta f) .ahead anyLevel (withFocus fun s t => do
    let w := Ty.bytes f.ty
    let ea := effAddr t f (sizeLog f.ty)
    let r ← scalarParts s t f .store ea w
    noPort r.1
    noMarks t [f.a, f.b]
    saqRoom t
    .ok (pushSaq r.2 t f ea w r.1)) s

/-- A vector store to the collective aperture holds whole flits, and this device checks its own (20 R492). -/
def checkAperture (s : State) (pasid : BitVec 20) (user : Bool) : List Part → Res State
  | [] => .ok s
  | p :: ps =>
    if p.aperture then
      if p.va % 64 ≠ 0 ∨ p.len % 64 ≠ 0 then .error (xlateTrap 5 (BitVec.ofNat 64 p.va))
      else if (p.loc - deviceBase) / 2 ^ 40 ≠ s.out.devNum then checkAperture s pasid user ps
      else match aperture s pasid user (p.loc % 2 ^ 40) p.len with
        | (.ok _, s) => checkAperture s pasid user ps
        | (.error sub, _) => .error (xlateTrap sub (BitVec.ofNat 64 p.va))
    else checkAperture s pasid user ps

def execVsta (f : FormM) (s : State) : Answer :=
  issue (.vsta f) .ahead anyLevel (withFocus fun s t => do
    let n := vecLen t f
    let ea := effAddr t f 9
    if n = 0 then
      noMarks t [f.a, f.b, f.c]
      saqRoom t
      .ok (pushSaq s t f ea 0 [])
    else
      checkBase s s.sid t f.a ea n
      vecAligned f ea
      let r ← accessParts s (agentOf s s.sid t) .store ea n true
      let s ← checkAperture r.2 (s.pasidOf s.sid) (!t.pl) r.1
      noPort r.1
      noMarks t [f.a, f.b, f.c]
      saqRoom t
      .ok (pushSaq s t f ea n r.1)) s

def sdqRoom (t : Strand) : Res Unit := do
  frozen t
  need (!sdqFull t) (stall .sdqFull)

def pushSdq (s : State) (t : Strand) (e : SdqEnt) : State := s.setStrand s.sid (Strand.logged { t with sdq := t.sdq ++ [e] } .sdq e.data)

def execStd (f : FormM) (s : State) : Answer :=
  issue (.std f) .normal anyLevel (withFocus fun s t => do
    sdqRoom t
    let seq := s.number t
    let r ← readScalar t f.c
    let v := r.val.toNat % 2 ^ Ty.width f.ty
    .ok (pushSdq s r.rest (if gateOn t f.gate then { seq, size := 8, data := BitVec.ofNat 4096 v, mark := r.mark, annul := false }
      else { seq, size := 8, data := 0, mark := none, annul := true }))) s

/-- A predicate that is true in some lane (01 R18, R21). -/
def anyLane (t : Strand) (g : Gate) : Bool := (List.range 128).any fun l => (govern t g).getLsbD (4 * l)

/-- The 512 bytes are pushed whole, or an annulled entry when the predicate is false in every lane (01 R18). A marked
entry of LQ raises DATA: DEDUCED (log 81): only ST and STD carry a mark to memory (08 R263). -/
def execVstd (f : FormM) (s : State) : Answer :=
  issue (.vstd f) .normal anyLevel (withFocus fun s t => do
    sdqRoom t
    let seq := s.number t
    let r ← readVector t f.c
    if anyLane t f.gate then
      match r.mark with
      | some m => .error (dataTrap m)
      | none => .ok (pushSdq s r.rest { seq, size := 512, data := r.val, mark := none, annul := false })
    else .ok (pushSdq s r.rest { seq, size := 512, data := 0, mark := none, annul := true })) s

/-- The leading bytes of a data half. -/
def dataBytes (d : VReg) (n : Nat) : List Byte := leBytes n d.toNat

/-- A part of this device's own collective aperture. -/
def ownAperture (s : State) (p : Part) : Bool := p.aperture && (p.loc - deviceBase) / 2 ^ 40 == s.out.devNum

/-- The bytes of a store with the parts they go to. -/
def partBytes : List Part → List Byte → List (Part × List Byte)
  | [], _ => []
  | p :: ps, bs => (p, takeBytes bs 0 p.len) :: partBytes ps (bs.drop p.len)

/-- A store some of whose parts lie in this device's own collective aperture: those bytes land in its buffers as flits, the
others are stored (20 R492). -/
def storeFlits (s : State) (sid : Nat) (a : SaqEnt) (bs : List Byte) (bad : Bool) : State :=
  let qs := partBytes a.parts bs
  let plain := qs.filter fun q => !ownAperture s q.1
  let s1 := storeParts s (unitOf sid) sid a.ch (plain.map (·.1)) (plain.flatMap (·.2)) bad
  (qs.filter fun q => ownAperture s q.1).foldl
    (fun s q => landBytes s (s.pasidOf sid) (!a.pl) (q.1.len / 64) (q.1.loc % 2 ^ 40) q.2 bad) s1

/-- A queued store performed (01 R17, 09 R280, R281). Flits written to the collective aperture of this device land in
its buffers; those for another device leave for it. -/
def performStore (s : State) (sid : Nat) (a : SaqEnt) (d : SdqEnt) : State :=
  if d.annul || a.size == 0 then s
  else
    let bs := dataBytes d.data a.size
    if a.parts.any (·.space == .device) then storeDevice s a.parts (d.data.setWidth 64)
    else if a.parts.any (ownAperture s) then storeFlits s sid a bs d.mark.isSome
    else storeParts s (unitOf sid) sid a.ch a.parts bs d.mark.isSome

/-- A pair whose store can be taken back: it writes plain bytes, and nobody is told of it. -/
def canUndo (s : State) (sid : Nat) (t : Strand) (a : SaqEnt) (d : SdqEnt) : Bool :=
  d.annul || (a.ord != .rel && t.checker != some 2 && a.parts.all fun p => !p.aperture && match p.space with
    | .general | .window | .fabric => true
    | .spad => (s.firstGuard (unitOf sid) p).isNone
    | .port | .device => false)

/-- E waits on a queue that only a younger word of A can relieve. -/
def blockedE (t : Strand) : Bool := stuckE t && (match t.waitE with
  | some w => w.why != .token
  | none => false)

/-- A pair is performed when it meets, once no older access holds it (08 R250, R255, R256) and every older word of E has
issued, so that none can trap before it (01 R17, R30, R31). While such a word waits for what only A can bring, a pair that
can be taken back is performed (log 9). -/
def pairReady (s : State) (sid : Nat) (t : Strand) (a : SaqEnt) (d : SdqEnt) : Bool :=
  let y := Nat.max a.seq d.seq
  (t.ewin.all (fun e => decide (y ≤ e.seq)) ||
    (blockedE t && canUndo s sid t a d && t.ewin.all fun e => decide (y ≤ e.seq) || !isTktake e)) &&
    t.loads.all (fun l => l.acq.isNone || decide (y ≤ l.seq)) &&
    t.atoms.all (fun q => (q.performed && q.acq.isNone) || decide (y ≤ q.seq)) &&
    (a.ord != .rel || s.acked (unitOf sid) a.scope)

/-- The oldest instruction not yet completed, where a cause of a queued store is taken. -/
def oldestPlace (t : Strand) : Place × Slice × Instr := match t.ewin with
  | e :: _ => (.window, .e, e.instr)
  | [] => (.fetch, .a, (t.waitA.map (·.instr)).getD (.unallocatedOpcode 0))

/-- A half of a queued store fails its parity and no log holds it: the pair is gone, and DATA is taken, or the turn rolled
back, at the oldest instruction not yet completed (17 R435; log 103). -/
def lostPair (s : State) (sid : Nat) (t : Strand) (saq : List SaqEnt) (sdq : List SdqEnt) : State :=
  let t := { t with saq, sdq, badRegs := t.badRegs.filter fun k => k != .saq && k != .sdq }
  let o := oldestPlace t
  if drainedBefore t (seqOf t o.1) then deliver (s.setStrand sid t) sid t o.1 o.2.1 o.2.2 0x07 1 0 else s

/-- 01 R17. -/
def execStorePair (sid : Nat) (s : State) : Answer :=
  match s.strand? sid with
  | none => .next s
  | some t0 =>
    match t0.saq, t0.sdq with
    | a :: saq, d :: sdq =>
      if !pairReady s sid t0 a d then .next s
      else if (lostReg t0 [.saq, .sdq]).isSome then .next (lostPair s sid (settle s.cycle t0) saq sdq)
      else
        let fixed := repairRegs t0 [.saq, .sdq]
        let t := fixed.1
        let s := (s.setStrand sid t).rasReplay sid t.pc fixed.2
        let out (s : State) : State := if a.ord = .rel ∧ !d.annul then s.releaseL1 (unitOf sid) a.scope else s
        let popped : State := s.updStrand sid fun t => { t with saq, sdq }
        .next (match (if d.annul || a.size == 0 then .pass else accessVerdict s sid t) with
          | .pass =>
            let ps := if d.annul then [] else a.parts
            let kept := popped.noteStore sid t (Nat.max a.seq d.seq) a.ch ps (some a) (some d)
            out (performStore (out kept) sid a d)
          | .rollback sub => divergeRollback popped sid sub 0x103
          | .diverge sub => divergeReport popped sid sub 0x103)
    | _, _ => .next s

/-! ### Slice transfers (09 R282) -/

def execMovq (f : FormM) (s : State) : Answer :=
  issue (.movq f) .ahead anyLevel (withFocus fun s t => do
    frozen t
    need (decide (t.xq.length < 16)) (stall .xqFull)
    .ok (s.setStrand s.sid (Strand.logged { t with xq := t.xq ++ [{ seq := t.seq, data := t.xa f.a, mark := t.markOf f.a, annul := false }] }
      (.reg .xq) ((t.xa f.a).setWidth 4096)))) s

def execBqpush (f : FormM) (s : State) : Answer :=
  issue (.bqpush f) .normal anyLevel (withFocus fun s t => do
    frozen t
    need (decide (t.bq.length < 8)) (stall .bqFull)
    let seq := s.number t
    let r ← readScalar t f.a
    let e : QEnt := if gateOn t f.gate then { seq, data := r.val, mark := r.mark, annul := false }
      else { seq, data := 0, mark := none, annul := true }
    .ok (s.setStrand s.sid (Strand.logged { r.rest with bq := r.rest.bq ++ [e] } .bq (e.data.setWidth 4096)))) s

def execBqpop (f : FormM) (s : State) : Answer :=
  issue (.bqpop f) .ahead anyLevel (withFocus fun s t => do
    frozen t
    match t.bq with
    | [] => .error (stall .bqEmpty)
    | e :: q => .ok (s.setStrand s.sid (({ t with bq := q, bqPopped := t.bqPopped ++ [(t.seq, e)] }).putD f.d e.data e.mark))) s

/-! ### CROSSWAIT (01 R19) -/

/-- A waits on a queue, on the limit, or for a queued store whose data E has still to push, and still must. -/
def stuckA (t : Strand) : Bool := match t.waitA with
  | none => false
  | some w => match w.why with
    | .lqFull => decide (32 ≤ t.lq.length)
    | .saqFull => saqFull t
    | .xqFull => decide (16 ≤ t.xq.length)
    | .bqEmpty => t.bq.isEmpty
    | .limit => !limitOk t
    | .data => storesBehind t
    | _ => false

/-- A waits on a queue that no word of E before it will relieve: E has issued them all, and it receives no word that A has
not seen (01 R12). The wait cannot end (09 R282; log 88). -/
def aloneA (t : Strand) : Bool := t.ewin.isEmpty && (match t.waitA with
  | some w => w.why == .lqFull || w.why == .saqFull || w.why == .xqFull || w.why == .bqEmpty
  | none => false)

/-- Each slice waits on what only the other can relieve. Nothing in flight can: no load fills a queue that is empty or
empties one that is full, and pairs have left theirs. A load that QMARK holds for store data of E waits on E in the same
way (08 R253; log 88). -/
def crossWait (t : Strand) : Bool := stuckA t && (blockedE t || aloneA t)

def execCrosswaitDetect (sid : Nat) (s : State) : Answer :=
  match s.strand? sid with
  | none => .next s
  | some t =>
    let t := settle s.cycle t
    if !crossWait t then .next s
    else match t.ewin, t.waitA with
      | e :: _, _ => .next (if drainedBefore t e.seq then deliver s sid t .window .e e.instr 0x0B 1 0 else s)
      | [], some w => .next (if drainedBefore t t.seq then deliver s sid t .fetch .a w.instr 0x0B 1 0 else s)
      | [], none => .next s

/-! ### Ordering (09 R283, R284) -/

def execQmark (f : FormM) (s : State) : Answer :=
  issue (.qmark f) .ahead anyLevel (withFocus fun s t => .ok (s.setStrand s.sid { t with qmark := t.seq })) s

def execFence (f : FormM) (s : State) : Answer :=
  issue (.fence f) .normal anyLevel (withFocus fun s t => do
    if acquiring t then .error (stall .acquire)
    need (t.loads.isEmpty && t.atoms.isEmpty) (stall .older)
    let s ← relReady s t f.ord f.scope
    .ok (match f.ord with
      | .acq | .ar => s.acquireL1 (unitOf s.sid) f.scope
      | _ => s)) s

/-! ### Cache maintenance (09 R285) -/

/-- The location of a line that the three act on: general memory or fabric window, its page translated with R or W. -/
def lineProbe (s : State) (a : Agent) (va : Nat) : Option Part × State :=
  if 2 ^ 56 ≤ va then (none, s)
  else if va / 2 ^ 52 = 8 then
    match fabricPart s a va 1 .probe with
    | (.part p, s) => (some p, s)
    | (_, s) => (none, s)
  else if 0x00FF000000000000 ≤ va then (none, s)
  else
    match translate s a va .probe with
    | (.ok e, s) =>
      if a.head && isRegFrame e.pte then (none, s)
      else (some { va, loc := e.frame + (va - e.base), len := 1, space := .general, nc := pteNc e.pte }, s)
    | (_, s) => (none, s)

/-- Length of the range: xc[31:0], or 1. -/
def rangeLen (t : Strand) (f : FormM) : Nat := if f.c = .x 0 then 1 else bits (t.xa f.c) 0 32

/-- An action on every line of the range that qualifies, in ascending order. -/
def eachLine (a : Agent) (act : State → Part → State) (s : State) (va : Nat) : State :=
  match lineProbe s a va with
  | (some p, s) => if p.cacheable && !a.head then act s p else s
  | (none, s) => s

/-- The body of CINV and CWB. -/
def maintain (f : FormM) (act : State → Part → State) : Body := withFocus fun s t => do
  noMarks t [f.a, f.c]
  if acquiring t then .error (stall .acquire)
  releaseReady s (unitOf s.sid) t f.scope
  let ea := (t.xa f.a + f.imm32.signExtend 64).toNat
  .ok ((rangeLines ea (rangeLen t f)).foldl (eachLine (agentOf s s.sid t) act) s)

def execCinv (f : FormM) (s : State) : Answer :=
  issue (.cinv f) .normal anyLevel (maintain f fun s p => s.flushLine (unitOf s.sid) (p.loc / 128)) s

def execCwb (f : FormM) (s : State) : Answer :=
  issue (.cwb f) .normal anyLevel (maintain f fun s p => s.writeBackLine (unitOf s.sid) (p.loc / 128)) s

def execCpref (f : FormM) (s : State) : Answer :=
  issue (.cpref f) .ahead anyLevel (withFocus fun s t => do
    noMarks t [f.a, f.c]
    let ea := (t.xa f.a + f.imm32.signExtend 64).toNat
    let tile := unitOf s.sid
    .ok ((rangeLines ea (rangeLen t f)).foldl (eachLine (agentOf s s.sid t) fun s p =>
      if f.ch = .na ∨ (s.line? tile (p.loc / 128)).isSome then s
      else s.fetchLine tile (p.loc / 128) p (f.ch == .nt)) s)) s

/-! ### Atomics (09 R286 to R290, 08 R261 to R264) -/

/-- Apply and Comb on W bits (09 R286). -/
def applyAtom (opc : BitVec 10) (ty : Ty) (v o : Nat) : Nat :=
  let m := 2 ^ Ty.width ty
  match opc.toNat with
  | 0x120 => (v + o) % m
  | 0x121 => if Ty.toInt ty v < Ty.toInt ty o then o else v
  | 0x122 => if Ty.toInt ty o < Ty.toInt ty v then o else v
  | 0x123 => Nat.max v o
  | 0x124 => Nat.min v o
  | 0x125 => v &&& o
  | 0x126 => v ||| o
  | 0x127 => v ^^^ o
  | 0x12A => (f32Add (BitVec.ofNat 32 v) (BitVec.ofNat 32 o)).toNat
  | 0x12B => (f32Max (BitVec.ofNat 32 v) (BitVec.ofNat 32 o)).toNat
  | _ => o

/-- Routers merge all but AXCHG and ACAS (08 R262). -/
def merges (opc : BitVec 10) : Bool := opc != 0x128 && opc != 0x129

/-- The f32 type is returned zero-extended (09 R286). -/
def resTy : Ty → Ty
  | .f32 => .z32
  | t => t

/-- What an atomic returns that the manual gives no value for: a free value of its type (logs 82 and 86). -/
def freeResult (s : State) (ty : Ty) : Word := resWord (resTy ty) ((Config.freeWord s.free).toNat % 2 ^ Ty.width ty : Nat)

/-- The next free value is another. -/
def State.drawn (s : State) : State := { s with free := s.free + 1 }

/-- An atomic's issue. -/
def atomBody (opc : BitVec 10) (f : FormM) : Body := withFocus fun s t => do
  let w := Ty.bytes f.ty
  let ea := atomAddr t f
  checkBase s s.sid t f.a ea w
  need (ea.toNat % w == 0) (alignTrap 3 ea)
  let r ← accessParts s (agentOf s s.sid t) .atomic ea w
  noAperture r.1
  let o := (t.xa f.b).toNat % 2 ^ Ty.width f.ty
  match r.1 with
  | [p] =>
    if p.space = .port then do
      need (opc == 0x120 && w == 8 && !f.nr && p.loc == 0x800000) (xlateTrap 5 ea)
      noMarks t [f.a, f.b]
      storeReady t
      let s ← relReady r.2 t f.ord f.scope
      match s.task? (tileOf s.sid) with
      | none => .ok s
      | some k =>
        let res := k.alloc (t.xa f.b)
        let s := s.updTask (tileOf s.sid) fun _ => res.2
        .ok ((s.updStrand s.sid fun t => t.putD f.d res.1).acquireL1 (unitOf s.sid) (if f.ord = .acq ∨ f.ord = .ar then f.scope else .strand))
    else do
      noMarks t (if opc = 0x129 then [f.a, f.b, f.c] else [f.a, f.b])
      if acquiring t then .error (stall .acquire)
      need (!olderStores t) (stall (storesWhy t))
      let s ← relReady r.2 t f.ord f.scope
      let s := if p.cacheable && !isHead s.sid then s.flushLine (tileOf s.sid) (p.loc / 128) else s
      let fl : AtomFlight := { req := s.own, seq := t.seq, opc, ty := f.ty, part := p, operand := BitVec.ofNat 64 o,
                               swap := t.xa f.c, d := if f.nr then none else some f.d,
                               acq := if f.ord = .acq ∨ f.ord = .ar then some f.scope else none,
                               performed := false, result := 0, mark := none, since := s.cycle }
      leaveTile s t opc (.ok (s.updStrand s.sid fun t => { t with atoms := t.atoms ++ [fl] })) fun s =>
        if f.nr then s else (s.updStrand s.sid fun t => t.putD f.d (freeResult s f.ty)).drawn
  | _ => .ok r.2

def execAadd (f : FormM) (s : State) : Answer := issue (.aadd f) .normal anyLevel (atomBody 0x120 f) s
def execAmax (f : FormM) (s : State) : Answer := issue (.amax f) .normal anyLevel (atomBody 0x121 f) s
def execAmin (f : FormM) (s : State) : Answer := issue (.amin f) .normal anyLevel (atomBody 0x122 f) s
def execAmaxz (f : FormM) (s : State) : Answer := issue (.amaxz f) .normal anyLevel (atomBody 0x123 f) s
def execAminz (f : FormM) (s : State) : Answer := issue (.aminz f) .normal anyLevel (atomBody 0x124 f) s
def execAand (f : FormM) (s : State) : Answer := issue (.aand f) .normal anyLevel (atomBody 0x125 f) s
def execAor (f : FormM) (s : State) : Answer := issue (.aor f) .normal anyLevel (atomBody 0x126 f) s
def execAxor (f : FormM) (s : State) : Answer := issue (.axor f) .normal anyLevel (atomBody 0x127 f) s
def execAxchg (f : FormM) (s : State) : Answer := issue (.axchg f) .normal anyLevel (atomBody 0x128 f) s
def execAcas (f : FormM) (s : State) : Answer := issue (.acas f) .normal anyLevel (atomBody 0x129 f) s
def execAfadd (f : FormM) (s : State) : Answer := issue (.afadd f) .normal anyLevel (atomBody 0x12A f) s
def execAfmax (f : FormM) (s : State) : Answer := issue (.afmax f) .normal anyLevel (atomBody 0x12B f) s

/-- A returning AADD at SPALLOC (07 R219). -/
def execSpalloc (f : FormM) (s : State) : Answer := issue (.spalloc f) .normal anyLevel (atomBody 0x120 f) s

/-! ### At the home (08 R262, R263) -/

def treeLeaves : MergeTree → List Nat
  | .leaf q => [q]
  | .node l r => treeLeaves l ++ treeLeaves r

/-- The atomic in flight with a request number, and its strand. -/
def State.atom? (s : State) (q : Nat) : Option (Nat × AtomFlight) :=
  s.strands.findSome? fun e => (e.2.atoms.find? (·.req == q)).map fun a => (e.1, a)

/-- The combination of the operands in the tree. -/
def combine (s : State) (opc : BitVec 10) (ty : Ty) : MergeTree → Nat
  | .leaf q => match s.atom? q with
    | some (_, a) => a.operand.toNat
    | none => 0
  | .node l r => applyAtom opc ty (combine s opc ty l) (combine s opc ty r)

/-- A group may be performed: its requests wait, ask for the same, are merged only where routers merge, and no older
atomic of one of their strands still waits outside the requests before it. -/
def groupOk (s : State) : List Nat → List Nat → Option AtomFlight → Bool
  | _, [], _ => true
  | done, q :: qs, first =>
    match s.atom? q with
    | none => false
    | some (sid, a) =>
      !a.performed && !done.contains q &&
        (match s.strand? sid with
          | some t => t.atoms.all fun b => b.performed || decide (a.seq ≤ b.seq) || done.contains b.req
          | none => false) &&
        (match first with
          | none => true
          | some b => a.opc == b.opc && a.ty == b.ty && a.part.loc == b.part.loc && merges a.opc && a.part.space != .spad) &&
        groupOk s (q :: done) qs (some a)

/-- One context for the whole group (08 R262). -/
def sameContext (s : State) (qs : List Nat) : Bool :=
  match qs.filterMap fun q => (s.atom? q).map fun e => s.pasidOf e.1 with
  | [] => true
  | p :: ps => ps.all (· == p)

def setAtom (s : State) (q : Nat) (f : AtomFlight → AtomFlight) : State :=
  match s.atom? q with
  | some (sid, _) => s.updStrand sid fun t => { t with atoms := t.atoms.map fun a => if a.req = q then f a else a }
  | none => s

/-- What each requester receives, in merge order. -/
def giveResults (s : State) (opc : BitVec 10) (ty : Ty) : Nat → List Nat → State
  | _, [] => s
  | p, q :: qs =>
    let o := match s.atom? q with
      | some (_, a) => a.operand.toNat
      | none => 0
    giveResults (setAtom s q fun a => { a with performed := true, result := resWord ty (p : Nat) }) opc ty (applyAtom opc ty p o) qs

/-- A read half that met poison: marks for those that return, a record for each that does not (08 R263, 17 R449). -/
def poisonResults (s : State) (qs : List Nat) : State :=
  qs.foldl (fun s q => match s.atom? q with
    | none => s
    | some (sid, a) =>
      let mark : Mark := { addr := BitVec.ofNat 56 a.part.va, atomic := true }
      let s := setAtom s q fun a => { a with performed := true, mark := some mark }
      if a.d.isSome then s else s.ras (s.rasFor sid { type := 0x04, addr := BitVec.ofNat 64 a.part.va })) s

/-- The new value: ACAS writes only on equality (09 R287). -/
def newValue (a : AtomFlight) (v c : Nat) : Nat :=
  if a.opc = 0x129 then (if v = a.operand.toNat then a.swap.toNat % 2 ^ Ty.width a.ty else v)
  else applyAtom a.opc a.ty v c

/-- The copies that the requesters' tiles fetched since the issue leave their L1s: a line present is written back and
invalidated (07 R223). -/
def freshenGroup (s : State) (p : Part) (qs : List Nat) : State :=
  if p.cacheable then
    qs.foldl (fun s q => match s.atom? q with
      | some (sid, _) => if isHead sid then s else s.flushLine (tileOf sid) (p.loc / 128)
      | none => s) s
  else s

/-- Each requester of an atomic on a page of the device's registers receives a free value of its type (log 82). -/
def giveFree (s : State) (ty : Ty) (qs : List Nat) : State :=
  qs.foldl (fun s q => (setAtom s q fun a => { a with performed := true, result := freeResult s ty }).drawn) s

/-- A group performed at its home as one step (08 R262, R263; 07 R222). DESIGN CHOICE (log 82): an atomic on a page of the
device's registers changes none of them, and what it returns is free. -/
def performGroup (s : State) (t : MergeTree) (sid : Nat) (a : AtomFlight) : State :=
  let p := a.part
  let qs := treeLeaves t
  let s := freshenGroup s p qs
  let guard := if p.space = .spad then s.firstGuard (unitOf sid) p else none
  match guard with
  | some g =>
    qs.foldl (fun s q => setAtom s q fun a => { a with performed := true, result := 0 }) (s.guardReport sid 2 g)
  | none =>
    if p.space = .device then giveFree s a.ty qs
    else if isPoisoned s.poison p.loc p.len then poisonResults s qs
    else
      let v := s.readLocNat p.loc p.len
      let c := combine s a.opc a.ty t
      let s := giveResults s a.opc (resTy a.ty) v qs
      let s := s.writeLoc p.loc (leBytes p.len (newValue a v c))
      qs.foldl (fun s q => match s.atom? q with
        | some (sid, _) => s.roused (unitOf sid) p.loc p.len
        | none => s) s

/-- 08 R262. -/
def execAtomicGroupPerform (t : MergeTree) (s : State) : Answer :=
  let qs := treeLeaves t
  match qs.head?.bind s.atom? with
  | none => .next s
  | some (sid, a) => if groupOk s [] qs none && sameContext s qs then .next (performGroup s t sid a) else .next s

/-- 09 R286, R289: the response writes the destination; an acquire completes. -/
def execAtomicResponse (sid : Nat) (req : Nat) (s : State) : Answer :=
  match s.strand? sid with
  | none => .next s
  | some t =>
    match t.atoms.find? (·.req == req) with
    | none => .next s
    | some a =>
      if !a.performed then .next s
      else
        let t := { t with atoms := t.atoms.filter (·.req != req) }
        let t := match a.d with
          | some d => (t.putD d a.result a.mark).backfill a.seq d a.result a.mark
          | none => t
        let s := s.setStrand sid (clearPend t fun p => p.req == req)
        .next (match a.acq with
          | some sc => s.acquireL1 (unitOf sid) sc
          | none => s)

end Sys2Proof.Machine
end

