-- ==== Sys2Proof/Machine/System.lean ====
section
/-! DEFINITION. Class 1, ending and returning, special registers, waiting and barriers, work control (03 R101 to R110;
01 R38 to R45; 19 R453 to R456). -/

namespace Sys2Proof.Machine

/-! ### Reports (16 R415, R416) -/

/-- The report delivered first at BARRIER and END: DIVERGE, then GUARD, then ENGINE; none while INH is set. -/
def heldReport (t : Strand) : Res Unit :=
  if t.inh then .ok ()
  else match t.divRep, t.guardRep, t.engRep with
    | some r, _, _ => .error (.report .diverge r.val)
    | none, some r, _ => .error (.report .guard r.val)
    | none, none, some r => .error (.report .engine r.val)
    | none, none, none => .ok ()

/-- 03 R101. -/
def execEnd (f : FormS) (s : State) : Answer :=
  issue (.end_ f) .drain anyLevel (withFocus fun s t => do
    heldReport t
    need t.queuesEmpty (queueTrap 3)
    .ok (s.endStrand s.sid)) s

/-- XRET at user level (01 R38). -/
def supervisorOnly : State → Strand → Option Halt := fun _ t => if t.pl then none else some privInsn

/-- 01 R38. A GUARD report held when XRET returns to user level is taken at once, with XPC at the instruction returned
to (07 R222). -/
def execXret (f : FormS) (s : State) : Answer :=
  issue (.xret f) .drain supervisorOnly (withFocus fun s t => do
    checkTarget t.xpc
    let r := t.leave
    match r.guardRep with
    | some g =>
      if !r.pl && !r.inh then
        let s := takeTrap s s.sid (r.dropReport .guard) r.pc 0x06 (BitVec.ofNat 8 (bits g.val 56 8)) (g.val.setWidth 56)
        .ok (s.updStrand s.sid fun q => q.goto q.pc)
      else .ok (s.setStrand s.sid (r.goto r.pc))
    | none => .ok (s.setStrand s.sid (r.goto r.pc))) s

/-! ### Headstock registers (05 R169, 19 R453 to R456) -/

def bytes4 (a b c d : BitVec 8) : BitVec 32 := a ++ b ++ c ++ d

/-- The largest reading, as a signed 8.8 number, and the lowest sensor that holds it. -/
def hottest (ts : List (BitVec 16)) : BitVec 16 × Nat :=
  (ts.zipIdx).foldl (fun best q => if best.1.toInt < q.1.toInt then q else best) (ts.headD 0, 0)

def Headstock.above (h : Headstock) : Bool := decide (h.talertHi.toInt * 256 ≤ (hottest h.tsen.toList).1.toInt)
def Headstock.below (h : Headstock) : Bool := decide ((hottest h.tsen.toList).1.toInt < h.talertLo.toInt * 256)

/-- TALERT (19 R454). -/
def Headstock.talert (h : Headstock) : BitVec 32 :=
  let m := hottest h.tsen.toList
  let low : BitVec 8 := BitVec.ofNat 8 ((if h.talertLine then 128 else 0) + (if h.above then 64 else 0) +
    (if h.below then 32 else 0) + m.2)
  bytes4 h.talertHi h.talertLo (m.1.extractLsb' 8 8) low

/-- THR (05 R169): INFORCE is the highest level applied to any gang. -/
def State.thr (s : State) : BitVec 32 :=
  let inforce := s.tiles.foldl (fun n q => if q.2.task.isSome then Nat.max n q.2.throttle else n) 0
  BitVec.ofNat 32 (inforce * 2 ^ 16 + s.head.level.toNat)

def State.setHead (s : State) (h : Headstock) : State := { s with head := h }

/-- A write of THR: LEVEL, which the loom applies to every gang (05 R167, R168). -/
def State.writeThr (s : State) (w : Word) : State := s.setHead { s.head with level := w.setWidth 3 }

/-- A write of TALERT: both comparisons count as false before it (19 R455). -/
def State.writeTalert (s : State) (w : Word) : State :=
  let h := { s.head with talertHi := w.extractLsb' 24 8, talertLo := w.extractLsb' 16 8, talertLine := w.getLsbD 7 }
  let s := s.setHead h
  if h.above || h.below then s.raiseInt 0 else s

/-- INTPEND is write-one-to-clear (19 R456). -/
def State.clearInt (s : State) (w : Word) : State :=
  s.setHead { s.head with intpend := s.head.intpend &&& ~~~(w.setWidth 32 &&& 0x1F) }

/-! ### Special registers (01 R39, R42 to R45) -/

/-- Readable at user level (01 R42). -/
def userReads (i : Nat) : Bool :=
  i == 0x004 || (decide (0x010 ≤ i) && decide (i ≤ 0x012)) || (decide (0x020 ≤ i) && decide (i < 0xF00))

/-- Writable at supervisor level. -/
def supervisorWrites (i : Nat) : Bool :=
  decide (i ≤ 0x012) || (decide (0x038 ≤ i) && decide (i ≤ 0x03F)) || (decide (0x044 ≤ i) && decide (i ≤ 0x047)) ||
    i == 0x050 || i == 0x051 || (decide (0xF00 ≤ i) && decide (i ≤ 0xF03))

def sregOf (f : FormS) : Nat := (f.imm32.extractLsb' 0 12).toNat

def readLevel (f : FormS) : State → Strand → Option Halt := fun _ t =>
  if t.pl || userReads (sregOf f) then none else some (privSreg (sregOf f))

def writeLevel (f : FormS) : State → Strand → Option Halt := fun _ t =>
  if (t.pl && supervisorWrites (sregOf f)) || sregOf f == 0x012 then none else some (privSreg (sregOf f))

/-- A register that describes the strand's task; the headstock's strands have none, and what they read is not in the
manual: a free value (log 8). -/
def ofTask (s : State) (sid : Nat) (f : Task → Nat) (w : Nat) : Word × State :=
  match (if isHead sid then none else s.task? (tileOf sid)) with
  | some t => (BitVec.ofNat 64 (f t), s)
  | none => (BitVec.ofNat 64 ((Config.freeWord s.free).toNat % 2 ^ w), { s with free := s.free + 1 })

/-- HFIX cleared by its read, which a trap of an older word takes back (01 R29, R30). -/
def clearFix (t : Strand) : Strand :=
  { t with hctl := t.hctl &&& ~~~(0xFFFF0000 : Word)
           young := t.young ++ [{ seq := t.seq, hints := 0, misses := 0, last := 0, prior := 0, cleared := bits t.hctl 16 16 }] }

/-- The value KRD reads, and the state after the read (01 R42, R43, R45; HFIX is cleared by it, 01 R29). -/
def readSreg (s : State) (sid : Nat) (t : Strand) (i : Nat) : Word × State :=
  if 0x008 ≤ i ∧ i ≤ 0x00B then (t.xscr[Fin.ofNat 4 (i - 0x008)], s)
  else if 0x038 ≤ i ∧ i ≤ 0x03F then (t.perf[Fin.ofNat 8 (i - 0x038)], s)
  else if 0x044 ≤ i ∧ i ≤ 0x047 then
    let l := t.loops[Fin.ofNat 4 (i - 0x044)]
    (if l.active then l.count.setWidth 64 else 0, s)
  else if 0xF20 ≤ i ∧ i ≤ 0xF3F then (s.head.tsen[Fin.ofNat 32 (i - 0xF20)].setWidth 64, s)
  else match i with
    | 0x000 => (t.xpc, s)
    | 0x001 => (t.xcause, s)
    | 0x002 => (t.xval, s)
    | 0x003 => (t.xvec, s)
    | 0x004 => (t.xstat, s)
    | 0x010 => (t.sbase, s)
    | 0x011 => (t.slimit, s)
    | 0x012 => (t.hctl, s.setStrand sid (clearFix t))
    | 0x020 => (BitVec.ofNat 64 (numberOf sid), s)
    | 0x021 => ofTask s sid (fun _ => tileOf sid % 8) 64
    | 0x022 => ofTask s sid (fun _ => clusterOf sid) 64
    | 0x023 => (BitVec.ofNat 64 s.out.devNum, s)
    | 0x024 => ofTask s sid (fun k => k.id.toNat) 64
    | 0x025 => ofTask s sid (fun k => k.launch) 64
    | 0x030 => (BitVec.ofNat 64 s.cycle, s)
    | 0x040 => ofTask s sid (fun k => k.part.toNat) 32
    | 0x048 => (BitVec.ofNat 64 t.bobbin.length, s)
    | 0x050 => (t.cePidx, s)
    | 0x051 => (t.mePidx, s)
    | 0xF00 => (s.thr.setWidth 64, s)
    | 0xF01 => (s.head.talert.setWidth 64, s)
    | 0xF02 => (s.head.intpend.setWidth 64, s)
    | 0xF03 => (s.head.intmask.setWidth 64, s)
    | _ => (0, s)

/-- Bits of XSTAT that KWR writes: PINH, INH, PPL (01 R39). -/
def xstatMask : Word := 0x38

/-- KWR of CE_PIDX or ME_PIDX writes PHASE, 3 stored as 0, and INDEX (11 R320). -/
def pidxWrite (old w : Word) : Word :=
  (old &&& 0x01FF000000000000) ||| (w &&& 0x0000FFFFFFFFFFFF) ||| (if bits w 62 2 = 3 then 0 else w &&& 0xC000000000000000)

/-- The strand after KWR of one of its own registers (01 R39, R42 to R45). -/
def Strand.writeSreg (t : Strand) (i : Nat) (w : Word) : Strand :=
  if 0x008 ≤ i ∧ i ≤ 0x00B then { t with xscr := t.xscr.set (Fin.ofNat 4 (i - 0x008)) w }
  else if 0x038 ≤ i ∧ i ≤ 0x03F then { t with perf := t.perf.set (Fin.ofNat 8 (i - 0x038)) w }
  else if 0x044 ≤ i ∧ i ≤ 0x047 then
    let l := t.loops[Fin.ofNat 4 (i - 0x044)]
    if l.active then { t with loops := t.loops.set (Fin.ofNat 4 (i - 0x044)) { l with count := w.setWidth 32 } } else t
  else match i with
    | 0x000 => { t with xpc := w }
    | 0x001 => { t with xcause := w &&& 0xFF }
    | 0x002 => { t with xval := w }
    | 0x003 => { t with xvec := w &&& ~~~15 }
    | 0x004 => { t with xstat := (t.xstat &&& ~~~xstatMask) ||| (w &&& xstatMask) }
    | 0x010 => { t with sbase := w &&& ~~~15 }
    | 0x011 => { t with slimit := w &&& ~~~15 }
    | 0x012 => { t with hctl := (t.hctl &&& ~~~1) ||| (w &&& 1) }
    | 0x050 => { t with cePidx := pidxWrite t.cePidx w }
    | 0x051 => { t with mePidx := pidxWrite t.mePidx w }
    | _ => t

/-- KWR of a register. -/
def State.writeSreg (s : State) (sid i : Nat) (w : Word) : State :=
  match i with
  | 0xF00 => s.writeThr w
  | 0xF01 => s.writeTalert w
  | 0xF02 => s.clearInt w
  | 0xF03 => s.setHead { s.head with intmask := w.setWidth 32 &&& 0x1F }
  | _ => s.updStrand sid (·.writeSreg i w)

/-- 03 R103. -/
def execKrd (f : FormS) (s : State) : Answer :=
  issue (.krd f) .normal (readLevel f) (withFocus fun s t =>
    let r := readSreg s s.sid t (sregOf f)
    .ok (r.2.updStrand s.sid fun t => t.putD f.d r.1)) s

/-- The body of KWR. -/
def kwrBody (f : FormS) : Body := withFocus fun s t => do
  noMarks t [f.a]
  .ok (s.writeSreg s.sid (sregOf f) (t.xa f.a))

/-- 03 R103. -/
def execKwr (f : FormS) (s : State) : Answer := issue (.kwr f) .drain (writeLevel f) (kwrBody f) s

/-- KWR to TALERT (19 R455). -/
def execTalertWrite (f : FormS) (s : State) : Answer := issue (.talertWrite f) .drain (writeLevel f) (kwrBody f) s

/-- KWR to INTPEND (19 R456). -/
def execIntpendClear (f : FormS) (s : State) : Answer := issue (.intpendClear f) .drain (writeLevel f) (kwrBody f) s

/-- KWR to THR (05 R169). -/
def execThrWrite (f : FormS) (s : State) : Answer := issue (.thrWrite f) .drain (writeLevel f) (kwrBody f) s

/-! ### SLEEP and WAKE (03 R104 to R106) -/

/-- One check of SLEEP: it completes with 0 when the word differs, with 1 when the time is up, and else sleeps on. -/
def sleepBody (f : FormS) (timeUp : Bool) : Body := withFocus fun s t => do
  let ea := t.xa f.a
  checkBase s s.sid t f.a ea 8
  need (ea.extractLsb' 0 3 == 0) (alignTrap 1 ea)
  let tile := unitOf s.sid
  let r ← accessParts s { agentOf s s.sid t with l1 := false } .load ea 8
  noPort r.1
  noMarks t [f.a, f.b, f.c]
  loadFree t r.1
  let g := fetchParts (r.2.freshen tile .dev r.1) tile s.sid .default r.1
  need (!g.1.bad) (.trap 0x07 1 (ea.setWidth 56))
  if (BitVec.ofNat 64 (leNat g.1.bytes) : Word) ≠ t.xa f.b then
    .ok ((g.2.acquireL1 tile .dev).updStrand s.sid fun t => { (t.putD f.d 0) with recheck := false })
  else if timeUp then .ok ((g.2.acquireL1 tile .dev).updStrand s.sid fun t => { (t.putD f.d 1) with recheck := false })
  else
    let line := (r.1.headD { va := 0, loc := 0, len := 0, space := .general, nc := true }).loc / 128
    .error (.hold (g.2.updStrand s.sid fun t => { t with recheck := false }) (.sleep line)
      (if t.xa f.c = 0 then none else some (s.cycle + (t.xa f.c).toNat)))

def execSleep (f : FormS) (s : State) : Answer := issue (.sleep f) .normal anyLevel (sleepBody f false) s

/-- The strand's SLEEP, when its access slice waits in one. -/
def sleeping (s : State) (sid : Nat) : Option (FormS × Wait) :=
  match (s.strand? sid).bind (·.waitA) with
  | some w => match w.why, w.instr with
    | .sleep _, .sleep f => some (f, w)
    | _, _ => none
  | none => none

def State.at (s : State) (sid : Nat) (place : Place := .fetch) : State := { s with focus := some { sid, place } }

/-- A recheck of a sleeping strand's word. -/
def execSleepRecheck (sid : Nat) (s : State) : Answer :=
  match sleeping s sid with
  | some (f, _) => issue (.sleep f) .normal anyLevel (sleepBody f false) (s.at sid)
  | none => .next s

/-- The timeout of a SLEEP passes. -/
def execSleepTimeout (sid : Nat) (s : State) : Answer :=
  match sleeping s sid with
  | some (f, w) => if w.ended s.cycle then issue (.sleep f) .normal anyLevel (sleepBody f true) (s.at sid) else .next s
  | none => .next s

/-- Whether a strand lies within the scope of a WAKE. -/
def wakeReach (by_ sid : Nat) (sc : BitVec 4) : Bool :=
  if sc = 0 then unitOf by_ == unitOf sid
  else if sc = 1 then (if isHead by_ then isHead sid else !isHead sid && clusterOf by_ == clusterOf sid)
  else true

def wakeScope (sc : BitVec 4) : Scope := if sc = 0 then .tile else if sc = 1 then .clus else .dev

/-- The address a strand sleeps on. -/
def sleepAddr (t : Strand) : Option Word :=
  match t.waitA with
  | some w => match w.why, w.instr with
    | .sleep _, .sleep f => some (t.xa f.a)
    | _, _ => none
  | none => none

/-- A strand as a WAKE of a line leaves it. -/
def wokenBy (by_ : Nat) (sc : BitVec 4) (line : Nat) (q : Nat × Strand) : Nat × Strand :=
  match sleepAddr q.2 with
  | some a => if wakeReach by_ q.1 sc && a.toNat / 128 == line then (q.1, { q.2 with recheck := true }) else q
  | none => q

def execWake (f : FormS) (s : State) : Answer :=
  issue (.wake f) .normal anyLevel (withFocus fun s t => do
    noMarks t [f.a]
    if acquiring t then .error (stall .acquire)
    releaseReady s (unitOf s.sid) t (wakeScope f.aux)
    let s := s.releaseL1 (unitOf s.sid) (wakeScope f.aux)
    let line := (t.xa f.a).toNat / 128
    .ok { s with strands := s.strands.map (wokenBy s.sid f.aux line) }) s

/-! ### BARRIER (03 R107, 05 R157, R158) -/

def barrierNo (f : FormS) : Nat := (f.imm32.extractLsb' 0 6).toNat

/-- A barrier not given to the strand's gang (03 R107). -/
def barrierLevel (f : FormS) : State → Strand → Option Halt := fun s _ =>
  if isHead s.sid then (if barrierNo f ≤ 3 then none else some privInsn)
  else match (s.task? (tileOf s.sid)) with
    | some t => if t.barmask.getLsbD (barrierNo f) then none else some privInsn
    | none => some privInsn

/-- The phase of a barrier as the strand sees it. -/
def strandPhase (s : State) (sid n : Nat) : Nat :=
  if isHead sid then ((FMap.get? s.head.barriers n).getD Barrier.fresh).phase
  else match s.task? (tileOf sid) with
    | some t => s.phaseOf t.launch t.gang n
    | none => 0

/-- The strand arrives. On the headstock all four strands must. -/
def strandArrives (s : State) (sid n : Nat) : State :=
  if isHead sid then
    let b := (FMap.get? s.head.barriers n).getD Barrier.fresh
    let b := settleBarrier [0, 1, 2, 3] { b with arrived := NatSet.insert b.arrived (numberOf sid) }
    s.setHead { s.head with barriers := FMap.set s.head.barriers n b }
  else match s.task? (tileOf sid) with
    | some t => s.arrive t.launch t.gang n (8 * t.index + numberOf sid)
    | none => s

/-- A BARRIER completes: an acquire, and the arrival is no longer held. -/
def leaveBarrier (s : State) (n : Nat) : State :=
  (s.acquireL1 (unitOf s.sid) .clus).updStrand s.sid fun t => { t with barPend := FMap.erase t.barPend n }

/-- Reports are delivered before the strand arrives, and not while it waits (03 R107, 16 R415). -/
def barrierBody (n : Nat) : Body := withFocus fun s t =>
  match FMap.get? t.barPend n with
  | some ph => if ph < strandPhase s s.sid n then .ok (leaveBarrier s n) else .error (stall (.barrier n))
  | none => do
    heldReport t
    let ph := strandPhase s s.sid n
    let s := strandArrives (s.releaseL1 (unitOf s.sid) .clus) s.sid n
    if ph < strandPhase s s.sid n then .ok (leaveBarrier s n)
    else .error (.hold (s.updStrand s.sid fun t => { t with barPend := FMap.set t.barPend n ph }) (.barrier n) none)

def execBarrier (f : FormS) (s : State) : Answer :=
  issue (.barrier f) .drain (barrierLevel f) (barrierBody (barrierNo f)) s

/-! ### SPAWN and CANCEL (03 R108, R109) -/

/-- Stack range of strand `k` (05 R149). -/
def stackTop (t : Task) (k : Nat) : Nat :=
  0x00FFF00000000000 + (t.part.extractLsb' 16 8).toNat * 0x10000 - k * t.stack

/-- Logged responses that strand `n` of a task is to replay (17 R447). -/
def replayFor (s : State) (k : Task) (n : Nat) : List SeqEnt := match s.launch? k.launch with
  | some l => (FMap.get? (l.taskRec k.index).replay n).getD []
  | none => []

/-- The queued commands of the strand that had number `n` before (11 R310, R317). -/
def disown (n : Nat) (l : List Cmd) : List Cmd := l.map fun c => if c.issuer = n then { c with disowned := true } else c

/-- A strand of a task starts (01 R9, 05 R149 to R151). Commands kept for a rollback of the strand that had its number
before are no longer kept, and those it left queued are not this strand's (11 R317). -/
def State.startStrand (s : State) (tile : Nat) (k : Task) (n : Nat) (pc x2 : Word) : State :=
  let top := stackTop k n
  let relog := replayFor s k n
  let s := if relog.isEmpty then s
    else s.updLaunch k.launch fun l => l.updRec k.index fun r => { r with replay := FMap.erase r.replay n }
  let t := Strand.start pc (BitVec.ofNat 64 (top - k.stack)) (BitVec.ofNat 64 top) k.handler 0
  (s.setStrand (8 * tile + n) { (t.setX 2 x2) with oplog := [], quiet := s.cycle, relog }).updTask tile
    fun k => { k with tried := NatSet.insert k.tried n, kept := k.kept.filter (·.issuer != n), ceq := disown n k.ceq,
                      meq := disown n k.meq }

/-- A headstock strand starts, at supervisor level (01 R9). -/
def State.startHead (s : State) (n : Nat) (pc x2 xvec : Word) : State :=
  s.setStrand (1536 + n) { ((Strand.start pc 0 0 xvec 4).setX 2 x2) with oplog := [], quiet := s.cycle }

def noStrandFree : Word := BitVec.allOnes 64

/-- The lowest strand number that is not running. -/
def freeStrand (s : State) (base count : Nat) : Option Nat :=
  (List.range count).find? fun k => (s.strand? (base + k)).isNone

def execSpawn (f : FormS) (s : State) : Answer :=
  issue (.spawn f) .drain anyLevel (withFocus fun s t => do
    let pc := t.xa f.a
    checkTarget pc
    noMarks t [f.a, f.b]
    let sid := s.sid
    if isHead sid then
      match freeStrand s 1536 4 with
      | some n => .ok ((s.startHead n pc (t.xa f.b) t.xvec).updStrand sid fun t => t.putD f.d (BitVec.ofNat 64 n))
      | none => .ok (s.updStrand sid fun t => t.putD f.d noStrandFree)
    else match s.task? (tileOf sid) with
      | none => .ok (s.updStrand sid fun t => t.putD f.d noStrandFree)
      | some k => match freeStrand s (8 * tileOf sid) (k.part.extractLsb' 28 4).toNat with
        | some n => .ok ((s.startStrand (tileOf sid) k n pc (t.xa f.b)).updStrand sid fun t =>
            t.putD f.d (BitVec.ofNat 64 n))
        | none => .ok (s.updStrand sid fun t => t.putD f.d noStrandFree)) s

/-- The identifier form of CANCEL at user level (03 R109). A register still to be written is waited for: PRIV ranks above a
wrong hint on it (01 R33). -/
def cancelLevel (f : FormS) : State → Strand → Option Halt := fun _ t =>
  if t.pl then none
  else if pendVar t f.a then some (stall .interlock)
  else if t.xa f.a == 0 then none else some privInsn

/-- What CANCEL names. -/
def cancelTarget (s : State) (sid : Nat) (level : Nat) (a : Word) : Option Target :=
  if a = 0 then
    if isHead sid then none else (s.task? (tileOf sid)).bind fun t => s.container level t
  else s.target level a.toNat (if isHead sid then none else some (s.pasidOf sid))

def execCancel (f : FormS) (s : State) : Answer :=
  issue (.cancel f) .drain (cancelLevel f) (withFocus fun s t => do
    noMarks t [f.a]
    let sid := s.sid
    let tgt := cancelTarget s sid f.aux.toNat (t.xa f.a)
    let holds := match tgt with
      | some g => !isHead sid && (s.targetTiles g).contains (tileOf sid)
      | none => false
    let r := s.cancel tgt
    if holds then .ok (r.2.endStrand sid)
    else .ok (r.2.updStrand sid fun t => t.putD f.d (BitVec.ofNat 64 r.1))) s

end Sys2Proof.Machine
end

