-- ==== Sys2Proof/Machine/Vector.lean ====
section
/-! DEFINITION. Class 3: the vector unit, the predicates and the bobbin (06 R177 to R212). Elements are taken as their
codes, numbers below 2 to their width. -/

namespace Sys2Proof.Machine

/-! ### Elements (06 R177, R178) -/

/-- Numbers of `cw` bits packed one above the other. -/
def packChunks (cw n : Nat) (f : Nat → Nat) : Nat := (List.range n).foldr (fun i acc => f i + 2 ^ cw * acc) 0

/-- Elements of a register, by the width of the type in bytes. -/
def elemCount (w : Nat) : Nat := 512 / w

/-- Element `i` of a register. -/
def elem (w : Nat) (v : VReg) (i : Nat) : Nat := (v.toNat >>> (8 * w * i)) % 2 ^ (8 * w)

def ofElems (w : Nat) (f : Nat → Nat) : VReg := BitVec.ofNat 4096 (packChunks (8 * w) (elemCount w) f)

/-- The predicate bit of element `i` (06 R178). -/
def active (w : Nat) (g : PReg) (i : Nat) : Bool := g.getLsbD (i * w)

/-- Active elements computed, the others kept. -/
def mergeV (w : Nat) (g : PReg) (old : VReg) (f : Nat → Nat) : VReg :=
  ofElems w fun i => if active w g i then f i else elem w old i

/-- The bits of the elements `wr` selects, set to `f`; the others kept. -/
def mergeP (w : Nat) (wr : Nat → Bool) (old : PReg) (f : Nat → Bool) : PReg :=
  BitVec.ofNat 512 (packChunks w (elemCount w) fun i =>
    if wr i then (if f i then 2 ^ w - 1 else 0) else (old.toNat >>> (w * i)) % 2 ^ w)

/-! ### Operands (06 R179, R180) -/

/-- A vector operand: a vector, or a scalar given to every element. -/
inductive VArg | vec (v : VReg) | word (w : Word)
  deriving DecidableEq, Repr

def VArg.elem (w : Nat) : VArg → Nat → Nat
  | .vec v, i => Machine.elem w v i
  | .word x, _ => x.toNat % 2 ^ (8 * w)

/-- The operand of a scalar position as a word. -/
def VArg.scalar : VArg → Word
  | .word x => x
  | .vec _ => 0

/-- A class 3 source: a vector register or lq entry with its modifier, a scalar register or xq entry, or a predicate,
which has its own reading. -/
def readV (t : Strand) (d : Desig) (m : SrcMod) : Res (Read VArg) :=
  match d with
  | .x _ | .xq => do
    let r ← readScalar t d
    .ok { val := .word r.val, mark := r.mark, rest := r.rest }
  | .p _ => .ok { val := .word 0, mark := none, rest := t }
  | d => do
    let r ← readVector t d
    .ok { val := .vec (applyMod m r.val), mark := r.mark, rest := r.rest }

/-- The operands of a class 3 instruction, read in the order a, b, c. -/
structure VIn where
  a : VArg
  b : VArg
  c : VArg
  deriving DecidableEq, Repr

/-- A class 3 instruction: its pops, then, unless it does not execute, its result. `consumes` says whether its
predicate lets it consume what it popped (01 R18); when it does not, the instruction still has its result if `always`. -/
def runV (f : FormV) (consumes : PReg → Bool) (always : Bool) (res : PReg → VIn → Strand → Strand) : Body :=
  onStrand fun t => do
    frozenMarks t (!gateNever f.gate && consumes (govern t f.gate)) [f.a, f.b, f.c]
    let a ← readV t f.a f.moda
    let b ← readV a.rest f.b f.modb
    let c ← readV b.rest f.c .none
    if gateNever f.gate then .ok c.rest
    else if consumes (govern t f.gate) then do
      noMark [a.mark, b.mark, c.mark]
      .ok (res (govern t f.gate) { a := a.val, b := b.val, c := c.val } c.rest)
    else if always then .ok (res (govern t f.gate) { a := a.val, b := b.val, c := c.val } c.rest)
    else .ok c.rest

/-- Some element is active. -/
def anyActive (w : Nat) (g : PReg) : Bool := (List.range (elemCount w)).any (active w g)

/-- An instruction that computes and writes active elements of a vector destination (06 R178). -/
def runElems (f : FormV) (op : Nat → Nat → Nat → Nat) : Body :=
  let w := Ty.bytes f.ty
  runV f (anyActive w) false fun g q t => match f.d with
    | .v n => t.setV n (mergeV w g (t.getV n) fun i => op (q.a.elem w i) (q.b.elem w i) (q.c.elem w i))
    | _ => t

/-- An instruction that computes destination elements from whole operands, by index. -/
def runIndexed (f : FormV) (op : VIn → Nat → Nat) : Body :=
  let w := Ty.bytes f.ty
  runV f (anyActive w) false fun g q t => match f.d with
    | .v n => t.setV n (mergeV w g (t.getV n) (op q))
    | _ => t

/-- An instruction that writes the bits of active elements of a predicate. -/
def runCompare (f : FormV) (op : VIn → Nat → Bool) : Body :=
  let w := Ty.bytes f.ty
  runV f (anyActive w) false fun g q t => match f.d with
    | .p n => t.setP n (mergeP w (active w g) (t.getP n) (op q))
    | _ => t

/-- An instruction gated as a whole by bit 0 (06 R178). -/
def runWhole (f : FormV) (res : VIn → Strand → Strand) : Body :=
  runV f (fun g => g.getLsbD 0) false fun _ q t => res q t

/-- A predicate instruction, written bit by bit where the governing predicate is 1 (06 R210, R212). -/
def runBits (f : FormV) (op : VIn → Strand → PReg) : Body :=
  runV f (fun g => g != 0) false fun g q t => match f.d with
    | .p n => t.setP n ((op q t &&& g) ||| (t.getP n &&& ~~~g))
    | _ => t

def predOf (t : Strand) : Desig → PReg
  | .p n => t.getP n
  | _ => 0

/-! ### Element operations (06 R185 to R191) -/

/-- The value of an input code under FTZ (06 R179, 04 R119). -/
def inVal (ty : Ty) (ftz : Bool) (n : Nat) : FVal := (Ty.fmt ty).flush ftz ((Ty.fmt ty).value n)

/-- An input code under FTZ: a subnormal becomes a zero of its sign. -/
def flushCode (F : Fmt) (ftz : Bool) (n : Nat) : Nat :=
  if ftz ∧ n % F.signBit < 2 ^ F.frac then n - n % F.signBit else n

/-- One exact value, rounded once or fitted (06 R185). -/
def arith (f : FormV) (fv : FVal → FVal → FVal → FVal) (iv : Int → Int → Int → Int) (a b c : Nat) : Nat :=
  if Ty.isFloat f.ty then
    (Ty.fmt f.ty).encode (fv (inVal f.ty f.ftz a) (inVal f.ty f.ftz b) (inVal f.ty f.ftz c)) f.rm false f.ftz
  else Ty.fit f.ty f.sat (iv (Ty.toInt f.ty a) (Ty.toInt f.ty b) (Ty.toInt f.ty c))

def vaddEl (f : FormV) : Nat → Nat → Nat → Nat := arith f (fun a b _ => a.add b f.rm) fun a b _ => a + b
def vsubEl (f : FormV) : Nat → Nat → Nat → Nat := arith f (fun a b _ => a.sub b f.rm) fun a b _ => a - b
def vmulEl (f : FormV) : Nat → Nat → Nat → Nat := arith f (fun a b _ => a.mul b) fun a b _ => a * b
def vfmaEl (f : FormV) : Nat → Nat → Nat → Nat := arith f (fun a b c => (a.mul b).add c f.rm) fun a b c => a * b + c
def vfmsEl (f : FormV) : Nat → Nat → Nat → Nat := arith f (fun a b c => (a.mul b).sub c f.rm) fun a b c => a * b - c
def vfnmaEl (f : FormV) : Nat → Nat → Nat → Nat := arith f (fun a b c => c.sub (a.mul b) f.rm) fun a b c => c - a * b

/-- A correctly rounded function of 06 R188. -/
def funcEl (f : FormV) (fv : FVal → FVal → FVal) : Nat → Nat → Nat → Nat := arith f (fun a b _ => fv a b) fun a _ _ => a

def vdivEl (f : FormV) : Nat → Nat → Nat → Nat := funcEl f FVal.div
def vsqrtEl (f : FormV) : Nat → Nat → Nat → Nat := funcEl f fun a _ => a.sqrt
def vrcpEl (f : FormV) : Nat → Nat → Nat → Nat := funcEl f fun a _ => FVal.div (.fin false 1 0) a
def vrsqEl (f : FormV) : Nat → Nat → Nat → Nat := funcEl f fun a _ => a.rsqrt
def vexp2El (f : FormV) : Nat → Nat → Nat → Nat := funcEl f fun a _ => a.exp2
def vlog2El (f : FormV) : Nat → Nat → Nat → Nat := funcEl f fun a _ => a.log2

/-- The smaller of two codes of a type, every bit kept (06 R186). -/
def minCode (ty : Ty) (ftz : Bool) (a b : Nat) : Nat :=
  if Ty.isFloat ty then
    let F := Ty.fmt ty
    let x := F.value (flushCode F ftz a)
    let y := F.value (flushCode F ftz b)
    if x.isNan then (if y.isNan then F.nanCode else flushCode F ftz b)
    else if y.isNan then flushCode F ftz a
    else if FVal.ltMin y x then flushCode F ftz b else flushCode F ftz a
  else if Ty.toInt ty b < Ty.toInt ty a then b else a

/-- The larger of two codes (06 R186). -/
def maxCodeOf (ty : Ty) (ftz : Bool) (a b : Nat) : Nat :=
  if Ty.isFloat ty then
    let F := Ty.fmt ty
    let x := F.value (flushCode F ftz a)
    let y := F.value (flushCode F ftz b)
    if x.isNan then (if y.isNan then F.nanCode else flushCode F ftz b)
    else if y.isNan then flushCode F ftz a
    else if FVal.ltMin x y then flushCode F ftz b else flushCode F ftz a
  else if Ty.toInt ty a < Ty.toInt ty b then b else a

def vminEl (f : FormV) (a b _c : Nat) : Nat := minCode f.ty f.ftz a b
def vmaxEl (f : FormV) (a b _c : Nat) : Nat := maxCodeOf f.ty f.ftz a b
def vclampEl (f : FormV) (a b c : Nat) : Nat := minCode f.ty f.ftz (maxCodeOf f.ty f.ftz a b) c

/-- 06 R187. -/
def vabsEl (f : FormV) (a _b _c : Nat) : Nat :=
  if Ty.isFloat f.ty then flushCode (Ty.fmt f.ty) f.ftz a % (Ty.fmt f.ty).signBit
  else Ty.fit f.ty f.sat (Ty.toInt f.ty a).natAbs

def vnegEl (f : FormV) (a _b _c : Nat) : Nat :=
  if Ty.isFloat f.ty then flushCode (Ty.fmt f.ty) f.ftz a ^^^ (Ty.fmt f.ty).signBit
  else Ty.fit f.ty f.sat (-(Ty.toInt f.ty a))

/-- The shift count of 06 R190. -/
def vShift (f : FormV) (b : Nat) : Nat := if f.opx = 1 then f.imm16.toNat else b % Ty.width f.ty

def vshlEl (f : FormV) (a b _c : Nat) : Nat := Ty.fit f.ty f.sat (Ty.toInt f.ty a * (2 ^ vShift f b : Nat))
def vshrEl (f : FormV) (a b _c : Nat) : Nat := a / 2 ^ vShift f b
def vsarEl (f : FormV) (a b _c : Nat) : Nat :=
  let w := Ty.width f.ty
  let i : Int := if 2 ^ (w - 1) ≤ a then (a : Int) - (2 ^ w : Nat) else a
  wrapInt w (i / (2 ^ vShift f b : Nat))

/-- The comparison OPX names (06 R191). -/
def compare (f : FormV) (a b : Nat) : Bool :=
  if Ty.isFloat f.ty then
    let x := inVal f.ty f.ftz a
    let y := inVal f.ty f.ftz b
    match f.opx.toNat with
    | 0 => FVal.eqv x y
    | 1 => !FVal.eqv x y
    | 2 => FVal.lt x y
    | 3 => FVal.le x y
    | 4 => FVal.lt y x
    | 5 => FVal.le y x
    | 6 => x.isNan || y.isNan
    | _ => !x.isNan && !y.isNan
  else
    let x := Ty.toInt f.ty a
    let y := Ty.toInt f.ty b
    match f.opx.toNat with
    | 0 => decide (x = y)
    | 1 => decide (x ≠ y)
    | 2 => decide (x < y)
    | 3 => decide (x ≤ y)
    | 4 => decide (y < x)
    | _ => decide (y ≤ x)

/-! ### Conversions (06 R193, 04 R120 to R122) -/

/-- Cvt from the type `src` to the type `dst`. -/
def cvt (dst src : Ty) (rm : RM) (sat ftz : Bool) (n : Nat) : Nat :=
  if Ty.isFloat src then
    let v := inVal src ftz n
    if Ty.isFloat dst then
      let F := Ty.fmt dst
      match v with
      | .inf neg => if sat ∧ Ty.bytes dst = 1 then (if neg then F.signBit else 0) + F.maxCode else F.encode v rm sat ftz
      | v => F.encode v rm sat ftz
    else wrapInt (Ty.width dst) (v.toIntTy dst rm)
  else if Ty.isFloat dst then (Ty.fmt dst).encode (FVal.ofInt (Ty.toInt src n) 0 false) rm sat ftz
  else Ty.fit dst sat (Ty.toInt src n)

/-- The source element of destination element `i` of part `k`, when the element is in the part (06 R193). -/
def cvtSource (wd ws k i : Nat) : Option Nat :=
  if ws ≤ wd then some (k * (512 / wd) + i)
  else if k * (512 / ws) ≤ i ∧ i < (k + 1) * (512 / ws) then some (i - k * (512 / ws)) else none

/-- The conversion written on active elements of the part. -/
def runCvt (f : FormV) : Body :=
  let wd := Ty.bytes f.ty
  let ws := Ty.bytes f.ty2
  runV f (anyActive wd) false fun g q t => match f.d with
    | .v n =>
      let old := t.getV n
      t.setV n (mergeV wd g old fun i => match cvtSource wd ws f.imm16.toNat i with
        | some j => cvt f.ty f.ty2 f.rm f.sat f.ftz (q.a.elem ws j)
        | none => elem wd old i)
    | _ => t

/-! ### Quantisation (06 R194, R195) -/

/-- VQNT of one element: the code and its flag. -/
def quantise (dst src : Ty) (rm : RM) (ftz : Bool) (s : FVal) (n : Nat) : Nat × Bool :=
  let F := Ty.fmt dst
  match (inVal src ftz n).mul s with
  | .nan => if Ty.isFloat dst then (F.nanCode, false) else (0, true)
  | .inf neg =>
    if Ty.isFloat dst then ((if neg then F.signBit else 0) + F.maxCode, true)
    else (wrapInt (Ty.width dst) (if neg then Ty.minInt dst else Ty.maxInt dst), true)
  | .fin neg m e =>
    if Ty.isFloat dst then
      let r := F.roundMag neg m e rm
      (F.encode (.fin neg m e) rm true ftz, decide (m ≠ 0) && decide (F.maxCode < F.magCode r.1 r.2))
    else
      let i := FVal.roundInt neg m e rm
      (wrapInt (Ty.width dst) (max (Ty.minInt dst) (min (Ty.maxInt dst) i)),
        decide (i < Ty.minInt dst) || decide (Ty.maxInt dst < i))

/-- The .f32 value of b[31:0], flushed under FTZ. -/
def scaleIn (f : FormV) (q : VIn) : FVal := inVal .f32 f.ftz (q.b.scalar.toNat % 2 ^ 32)

/-- VQNT for every target but .qc4: codes to d, flags to pc. -/
def runQnt (f : FormV) : Body :=
  let wd := Ty.bytes f.ty
  let ws := Ty.bytes f.ty2
  runV f (anyActive wd) false fun g q t =>
    let r (i : Nat) : Option (Nat × Bool) :=
      (cvtSource wd ws f.imm16.toNat i).map fun j => quantise f.ty f.ty2 f.rm f.ftz (scaleIn f q) (q.a.elem ws j)
    let t1 := match f.d with
      | .v n => t.setV n (mergeV wd g (t.getV n) fun i => match r i with
          | some p => p.1
          | none => elem wd (t.getV n) i)
      | _ => t
    match f.c with
    | .p n => t1.setP n (mergeP wd (fun i => active wd g i && (r i).isSome) (t.getP n) fun i => match r i with
        | some p => p.2
        | none => false)
    | _ => t1

/-- The magnitude of a value. -/
def FVal.abs : FVal → FVal
  | .fin _ m e => .fin false m e
  | .inf _ => .inf false
  | .nan => .nan

/-- The scale of a block whose largest magnitude is `top`, for the super-scale magnitude `s` (06 R195). -/
def qc4ScaleFor (top s : FVal) : Nat :=
  ((List.range 0x1FF).find? fun c => FVal.le top ((scaleVal c).mul s)).getD 0x1FE

/-- The index of 04 R127 for `x` divided by the nonzero finite `d`, and whether it clamped. -/
def qc4Index (x d : FVal) : Nat × Bool :=
  match x, d with
  | .fin n1 m1 e1, .fin n2 m2 e2 =>
    let e := min e1 e2
    let num := FVal.scaled (n1 != n2) m1 e1 e * 512
    let den := FVal.scaled false m2 e2 e
    let above (i : Nat) : Bool :=
      let mid := (qc4Level i + qc4Level (i + 1)) * den
      decide (mid < num) || (decide (mid = num) && decide (i < 7))
    (((List.range 15).filter above).length, decide (512 * den < num) || decide (num < -512 * den))
  | .inf n1, d => if n1 = d.sgn then (15, true) else (0, true)
  | _, _ => (7, false)

/-- One block: its scale, and the code and flag of each element. -/
def qc4Block (xs : List FVal) (s : FVal) : Nat × List (Nat × Bool) :=
  let valid := match s with
    | .fin _ m _ => decide (m ≠ 0)
    | _ => false
  if !valid || xs.any (·.isNan) then (0x1FF, xs.map fun _ => (7, false))
  else
    let top := xs.foldl (fun a x => if FVal.lt a x.abs then x.abs else a) (zeroVal false)
    let c := qc4ScaleFor top s.abs
    (c, xs.map fun x => if (scaleParts c).1 = 0 then (7, false) else qc4Index x (s.mul (scaleVal c)))

/-- Elements of a range of registers, as values. -/
def rangeVals (f : FormV) (t : Strand) : List FVal :=
  let w := Ty.bytes f.ty2
  match f.a with
  | .v n => (List.range (if w = 4 then 4 else 2)).flatMap fun k =>
      (List.range (elemCount w)).map fun i => inVal f.ty2 f.ftz (elem w (t.getV (Fin.ofNat 64 (n.val + k))) i)
  | _ => []

/-- The super-scale bits as used and stored: a subnormal is flushed under FTZ (06 R195). -/
def superBits (f : FormV) (q : VIn) : Nat := flushCode fmtF32 f.ftz (q.b.scalar.toNat % 2 ^ 32)

def runQc4 (f : FormV) : Body := runWhole f fun q t =>
  let xs := rangeVals f t
  let blocks := (List.range 16).map fun j => qc4Block ((xs.drop (32 * j)).take 32) (fmtF32.value (superBits f q))
  let els := blocks.flatMap (·.2)
  let codes := packChunks 4 512 fun i => (els.getD i (7, false)).1
  let scales := packChunks 9 16 fun j => (blocks.getD j (0x1FF, [])).1
  let img := codes + 2 ^ (8 * 256) * scales + 2 ^ (8 * 274) * superBits f q
  let t1 := match f.d with
    | .v n => t.setV n (BitVec.ofNat 4096 img)
    | _ => t
  match f.c with
  | .p n => t1.setP n (BitVec.ofNat 512 (packChunks 1 512 fun i => if (els.getD i (7, false)).2 then 1 else 0))
  | _ => t1

/-! ### Reductions and scans (04 R134, 06 R196, R197) -/

/-- The operator OPX names, on codes, rounded at every step. -/
def combineCode (f : FormV) (a b : Nat) : Nat :=
  match f.opx.toNat with
  | 0 => vaddEl f a b 0
  | 1 => minCode f.ty f.ftz a b
  | 2 => maxCodeOf f.ty f.ftz a b
  | 3 => a &&& b
  | 4 => a ||| b
  | _ => a ^^^ b

def identityCode (f : FormV) : Nat :=
  if Ty.isFloat f.ty then
    let F := Ty.fmt f.ty
    match f.opx.toNat with
    | 0 => if f.rm = .rd then 0 else F.signBit
    | 1 => F.infCode
    | _ => F.signBit + F.infCode
  else match f.opx.toNat with
    | 1 => wrapInt (Ty.width f.ty) (Ty.maxInt f.ty)
    | 2 => wrapInt (Ty.width f.ty) (Ty.minInt f.ty)
    | 3 => 2 ^ Ty.width f.ty - 1
    | _ => 0

/-- x(i): active elements, flushed before use (06 R179), and the identity for the others. -/
def scanInputs (f : FormV) (g : PReg) (a : VArg) : List Nat :=
  let w := Ty.bytes f.ty
  let use (n : Nat) : Nat := if Ty.isFloat f.ty then flushCode (Ty.fmt f.ty) f.ftz n else n
  (List.range (elemCount w)).map fun i => if active w g i then use (a.elem w i) else identityCode f

/-- One step of the scan at distance `d`. -/
def scanStep (op : Nat → Nat → Nat) (d : Nat) (y : List Nat) : List Nat := y.take d ++ List.zipWith op y (y.drop d)

def scanList (op : Nat → Nat → Nat) (steps : Nat) (x : List Nat) : List Nat :=
  (List.range steps).foldl (fun y k => scanStep op (2 ^ k) y) x

/-- Pairs combined, left to right. -/
def pairUp (op : Nat → Nat → Nat) : List Nat → List Nat
  | a :: b :: r => op a b :: pairUp op r
  | r => r

/-- The balanced tree over element indices. -/
def treeList (op : Nat → Nat → Nat) : Nat → List Nat → List Nat
  | 0, x => x
  | n + 1, x => treeList op n (pairUp op x)

def scanSteps (ty : Ty) : Nat := (elemCount (Ty.bytes ty)).log2

/-- The result of a reduction as a scalar (06 R196). -/
def codeWord (ty : Ty) (n : Nat) : Word := BitVec.ofInt 64 (Ty.toInt ty n)

def runRed (f : FormV) : Body :=
  let w := Ty.bytes f.ty
  runV f (anyActive w) true fun g q t =>
    let r := (treeList (combineCode f) (scanSteps f.ty) (scanInputs f g q.a)).getD 0 0
    match f.d with
    | .v n => t.setV n (BitVec.ofNat 4096 r)
    | .x n => t.setX n (codeWord f.ty r)
    | _ => t

def runScan (f : FormV) : Body :=
  let w := Ty.bytes f.ty
  runV f (anyActive w) true fun g q t =>
    let y := scanList (combineCode f) (scanSteps f.ty) (scanInputs f g q.a)
    let y := if f.imm16 = 1 then identityCode f :: y else y
    match f.d with
    | .v n => t.setV n (ofElems w fun i => y.getD i 0)
    | _ => t

/-! ### Moving elements (06 R198 to R204) -/

def vpermEl (f : FormV) (q : VIn) (i : Nat) : Nat :=
  let w := Ty.bytes f.ty
  let j := q.b.elem w i + f.imm16.toNat
  if j < elemCount w then q.a.elem w j else 0

def vextEl (f : FormV) (q : VIn) (i : Nat) : Nat :=
  let w := Ty.bytes f.ty
  let j := i + f.imm16.toNat
  if j < elemCount w then q.a.elem w j else q.b.elem w (j - elemCount w)

def viotaEl (f : FormV) (q : VIn) (i : Nat) : Nat :=
  Ty.fit f.ty false (f.imm16.toNat + q.b.elem (Ty.bytes f.ty) i + i : Nat)

/-- Elements of a predicate: VPOPC's count (06 R203). -/
def countP (w : Nat) (p : PReg) : Nat := ((List.range (elemCount w)).filter (active w p)).length

/-- 06 R204. -/
def compress (w : Nat) (p : PReg) (a : VArg) : VReg :=
  let l := ((List.range (elemCount w)).filter (active w p)).map (a.elem w)
  ofElems w fun i => l.getD i 0

/-! ### The bobbin (06 R205 to R209) -/

/-- The register `k` places after the first of a range. -/
def rangeReg (d : Desig) (k : Nat) : Fin 64 :=
  match d with
  | .v n => Fin.ofNat 64 (n.val + k)
  | _ => 0

def runDefer (f : FormV) : Body := runV f (fun _ => false) true fun g _ t =>
  let lanes := (List.range 128).filter fun l => g.getLsbD (4 * l)
  let n := f.opx.toNat + 1
  if 1024 < t.bobbin.length + lanes.length then t.putD f.d (BitVec.allOnes 64)
  else
    let rec_ (l : Nat) : BobRec :=
      { words := (List.range 4).map fun j => if j < n then lane (t.getV (rangeReg f.a j)) l else 0,
        lane := BitVec.ofNat 16 l, tag := f.imm16, count := BitVec.ofNat 8 n }
    ((lanes.map rec_).foldl (fun (t : Strand) b => t.logged .bobbin b.value) { t with bobbin := t.bobbin ++ lanes.map rec_ }).putD f.d (BitVec.ofNat 64 lanes.length)

/-- The record drained to lane `l`, when there is one. -/
def drainLane (rs : List BobRec) (n j l : Nat) : BitVec 32 :=
  match rs[l]? with
  | some r => if j < n then r.words.getD j 0 else r.tag ++ r.lane
  | none => if j < n then 0 else 0xFFFFFFFF

def runDrain (f : FormV) : Body := runWhole f fun _ t =>
  let n := f.opx.toNat + 1
  let rs := t.bobbin.take 128
  (List.range (n + 1)).foldl (fun t j => t.setV (rangeReg f.d j) (ofLanes (drainLane rs n j)))
    { t with bobbin := t.bobbin.drop 128 }

/-! ### Predicates (06 R210 to R212) -/

def firstActive (w : Nat) (g p : PReg) : Option Nat := (List.range (elemCount w)).find? fun i => active w (g &&& p) i

def runFirst (f : FormV) : Body :=
  let w := Ty.bytes f.ty
  runV f (fun _ => false) true fun g _ t => match f.d with
    | .p n => t.setP n (mergeP w (fun _ => true) 0 fun i => decide (some i = firstActive w g (predOf t f.a)))
    | _ => t

/-- PFROMX: every bit from a ≠ 0, or a chunk of 64 bits; a bit outside the chunk keeps its value. -/
def fromX (f : FormV) (q : VIn) (t : Strand) : PReg :=
  if f.opx = 0 then (if q.a.scalar = 0 then 0 else BitVec.allOnes 512)
  else
    let sh := 64 * f.imm16.toNat
    (predOf t f.d &&& ~~~((BitVec.allOnes 64).setWidth 512 <<< sh)) ||| (q.a.scalar.setWidth 512 <<< sh)

def toX (f : FormV) (t : Strand) : Word := (predOf t f.a).extractLsb' (64 * f.imm16.toNat) 64

/-! ### Meanings -/

def execV (i : Instr) (body : Body) (s : State) : Answer := issue i .normal anyLevel body s

def execVadd (f : FormV) (s : State) : Answer := execV (.vadd f) (runElems f (vaddEl f)) s
def execVsub (f : FormV) (s : State) : Answer := execV (.vsub f) (runElems f (vsubEl f)) s
def execVmul (f : FormV) (s : State) : Answer := execV (.vmul f) (runElems f (vmulEl f)) s
def execVfma (f : FormV) (s : State) : Answer := execV (.vfma f) (runElems f (vfmaEl f)) s
def execVfms (f : FormV) (s : State) : Answer := execV (.vfms f) (runElems f (vfmsEl f)) s
def execVfnma (f : FormV) (s : State) : Answer := execV (.vfnma f) (runElems f (vfnmaEl f)) s
def execVdiv (f : FormV) (s : State) : Answer := execV (.vdiv f) (runElems f (vdivEl f)) s
def execVsqrt (f : FormV) (s : State) : Answer := execV (.vsqrt f) (runElems f (vsqrtEl f)) s
def execVrcp (f : FormV) (s : State) : Answer := execV (.vrcp f) (runElems f (vrcpEl f)) s
def execVrsq (f : FormV) (s : State) : Answer := execV (.vrsq f) (runElems f (vrsqEl f)) s
def execVexp2 (f : FormV) (s : State) : Answer := execV (.vexp2 f) (runElems f (vexp2El f)) s
def execVlog2 (f : FormV) (s : State) : Answer := execV (.vlog2 f) (runElems f (vlog2El f)) s
def execVmin (f : FormV) (s : State) : Answer := execV (.vmin f) (runElems f (vminEl f)) s
def execVmax (f : FormV) (s : State) : Answer := execV (.vmax f) (runElems f (vmaxEl f)) s
def execVabs (f : FormV) (s : State) : Answer := execV (.vabs f) (runElems f (vabsEl f)) s
def execVneg (f : FormV) (s : State) : Answer := execV (.vneg f) (runElems f (vnegEl f)) s
def execVclamp (f : FormV) (s : State) : Answer := execV (.vclamp f) (runElems f (vclampEl f)) s

def execVcmp (f : FormV) (s : State) : Answer :=
  execV (.vcmp f) (runCompare f fun q i => compare f (q.a.elem (Ty.bytes f.ty) i) (q.b.elem (Ty.bytes f.ty) i)) s

/-- 06 R192. -/
def execVsel (f : FormV) (s : State) : Answer :=
  let w := Ty.bytes f.ty
  execV (.vsel f) (runV f (anyActive w) false fun g q t => match f.d with
    | .v n => t.setV n (mergeV w g (t.getV n) fun i =>
        if active w (predOf t f.c) i then q.a.elem w i else q.b.elem w i)
    | _ => t) s

def execVand (f : FormV) (s : State) : Answer := execV (.vand f) (runElems f fun a b _ => a &&& b) s
def execVor (f : FormV) (s : State) : Answer := execV (.vor f) (runElems f fun a b _ => a ||| b) s
def execVxor (f : FormV) (s : State) : Answer := execV (.vxor f) (runElems f fun a b _ => a ^^^ b) s
def execVshl (f : FormV) (s : State) : Answer := execV (.vshl f) (runElems f (vshlEl f)) s
def execVshr (f : FormV) (s : State) : Answer := execV (.vshr f) (runElems f (vshrEl f)) s
def execVsar (f : FormV) (s : State) : Answer := execV (.vsar f) (runElems f (vsarEl f)) s
def execVcvt (f : FormV) (s : State) : Answer := execV (.vcvt f) (runCvt f) s
def execVqnt (f : FormV) (s : State) : Answer := execV (.vqnt f) (runQnt f) s
def execVqntQc4 (f : FormV) (s : State) : Answer := execV (.vqntQc4 f) (runQc4 f) s
def execVred (f : FormV) (s : State) : Answer := execV (.vred f) (runRed f) s
def execVscan (f : FormV) (s : State) : Answer := execV (.vscan f) (runScan f) s
def execVperm (f : FormV) (s : State) : Answer := execV (.vperm f) (runIndexed f (vpermEl f)) s
def execVmov (f : FormV) (s : State) : Answer := execV (.vmov f) (runElems f fun _ b _ => b) s

/-- 06 R200: one element to a scalar. -/
def execVmovxExtract (f : FormV) (s : State) : Answer :=
  execV (.vmovxExtract f)
    (runWhole f fun q t => t.putD f.d (codeWord f.ty (q.a.elem (Ty.bytes f.ty) f.imm16.toNat))) s

/-- 06 R200: one element from a scalar, when it is active. -/
def execVmovxInsert (f : FormV) (s : State) : Answer :=
  let w := Ty.bytes f.ty
  execV (.vmovxInsert f) (runV f (anyActive w) false fun g q t => match f.d with
    | .v n => t.setV n (ofElems w fun i =>
        if i = f.imm16.toNat && active w g i then q.b.elem w i else elem w (t.getV n) i)
    | _ => t) s

def execVext (f : FormV) (s : State) : Answer := execV (.vext f) (runIndexed f (vextEl f)) s
def execViota (f : FormV) (s : State) : Answer := execV (.viota f) (runIndexed f (viotaEl f)) s

/-- 06 R202. -/
def execVmasklen (f : FormV) (s : State) : Answer :=
  execV (.vmasklen f) (runCompare f fun q i => decide (q.b.scalar.toNat + i < q.a.scalar.toNat)) s

def execVpopc (f : FormV) (s : State) : Answer :=
  execV (.vpopc f) (runWhole f fun _ t =>
    t.putD f.d (BitVec.ofNat 64 (countP (Ty.bytes f.ty) (predOf t f.a)))) s

def execVcmprs (f : FormV) (s : State) : Answer :=
  execV (.vcmprs f) (runWhole f fun q t => match f.d with
    | .v n => t.setV n (compress (Ty.bytes f.ty) (predOf t f.c) q.a)
    | _ => t) s

def execVdefer (f : FormV) (s : State) : Answer := execV (.vdefer f) (runDefer f) s
def execVdrain (f : FormV) (s : State) : Answer := execV (.vdrain f) (runDrain f) s

/-- 06 R209. -/
def execVdqstat (f : FormV) (s : State) : Answer :=
  execV (.vdqstat f) (runWhole f fun _ t =>
    t.putD f.d (BitVec.ofNat 64 (if f.opx = 0 then t.bobbin.length else 1024 - t.bobbin.length))) s

def execPand (f : FormV) (s : State) : Answer :=
  execV (.pand f) (runBits f fun _ t => predOf t f.a &&& predOf t f.b) s
def execPor (f : FormV) (s : State) : Answer :=
  execV (.por f) (runBits f fun _ t => predOf t f.a ||| predOf t f.b) s
def execPxor (f : FormV) (s : State) : Answer :=
  execV (.pxor f) (runBits f fun _ t => predOf t f.a ^^^ predOf t f.b) s
def execPnot (f : FormV) (s : State) : Answer := execV (.pnot f) (runBits f fun _ t => ~~~(predOf t f.a)) s
def execPfirst (f : FormV) (s : State) : Answer := execV (.pfirst f) (runFirst f) s
def execPfromx (f : FormV) (s : State) : Answer := execV (.pfromx f) (runBits f (fromX f)) s
def execPtox (f : FormV) (s : State) : Answer :=
  execV (.ptox f) (runWhole f fun _ t => t.putD f.d (toX f t)) s

end Sys2Proof.Machine
end

