-- ==== Sys2Proof/Machine/Engine.lean ====
section
/-! DEFINITION. The asynchronous engines' common part (11 R296 to R310, 12 R322 to R327): queues, completion slots,
token FIFOs, ranges and their checks, the checker core at a command's issue (17 R436, R437). -/

namespace Sys2Proof.Machine

/-! ### Completion slots (11 R300) -/

/-- The slot the next allocation takes: the first, cyclically after the last one allocated, that is not pending. -/
def Task.freeSlot (k : Task) : Option Nat :=
  ((List.range 256).map fun j => (k.lastSlot + 1 + j) % 256).find? fun n =>
    k.slots[Fin.ofNat 256 n].state != .pending

def Task.slot (k : Task) (n : Nat) : Slot := k.slots[Fin.ofNat 256 n]

def Task.setSlot (k : Task) (n : Nat) (q : Slot) : Task :=
  { k with slots := k.slots.set (Fin.ofNat 256 n) q }

/-- A slot taken: its generation grows by one, and it is pending. -/
def Task.takeSlot (k : Task) (n : Nat) (issuer : Nat) (unit : SlotUnit) (issue : BitVec 32) : Task :=
  { (k.setSlot n { gen := (k.slot n).gen + 1, state := .pending, issuer := BitVec.ofNat 8 issuer, unit, issue }) with
    lastSlot := n }

/-- The identifier of a slot as it stands. -/
def Task.slotId (k : Task) (n : Nat) : Word := BitVec.ofNat 64 ((k.slot n).gen.toNat * 256 + n)

/-- A slot's operation is over. -/
def Task.endSlot (k : Task) (n : Nat) (failed : Bool) : Task :=
  k.setSlot n { k.slot n with state := if failed then .failed else .complete }

/-! ### Token FIFOs (02 R52, 11 R302): CM, MC, CV, VC, MV, VM -/

/-- The FIFOs a command pops: those of the engine's row that its bits 0 and 1 name. -/
def popsOf (e : Engine) (token : BitVec 4) : List (Fin 6) :=
  match e with
  | .ce => (if token.getLsbD 0 then [1] else []) ++ (if token.getLsbD 1 then [3] else [])
  | .me => (if token.getLsbD 0 then [0] else []) ++ (if token.getLsbD 1 then [5] else [])

/-- The FIFOs a command pushes: bits 2 and 3. -/
def pushesOf (e : Engine) (token : BitVec 4) : List (Fin 6) :=
  match e with
  | .ce => (if token.getLsbD 2 then [0] else []) ++ (if token.getLsbD 3 then [2] else [])
  | .me => (if token.getLsbD 2 then [1] else []) ++ (if token.getLsbD 3 then [4] else [])

def takeTokens (token : BitVec 4) : List (Fin 6) :=
  (if token.getLsbD 0 then [2] else []) ++ (if token.getLsbD 1 then [4] else [])

def giveTokens (token : BitVec 4) : List (Fin 6) :=
  (if token.getLsbD 2 then [3] else []) ++ (if token.getLsbD 3 then [5] else [])

def canPop (f : Vector Nat 6) (l : List (Fin 6)) : Bool := l.all fun k => f[k] != 0
def canPush (f : Vector Nat 6) (l : List (Fin 6)) : Bool := l.all fun k => decide (f[k] < 15)
def popAll (f : Vector Nat 6) (l : List (Fin 6)) : Vector Nat 6 := l.foldl (fun (f : Vector Nat 6) (k : Fin 6) => f.set k (f[k] - 1)) f
def pushAll (f : Vector Nat 6) (l : List (Fin 6)) : Vector Nat 6 := l.foldl (fun (f : Vector Nat 6) (k : Fin 6) => f.set k (f[k] + 1)) f

/-! ### Kinds of address (07 R232, 12 R325) -/

/-- The kind of an address, as a copy command's ranges are checked; `fabric` holds the device number. -/
inductive AKind | spad | win (c : Nat) | general | fabric (n : Nat) | none
  deriving DecidableEq, Repr

/-- The kind of an address and the first address after it of another kind. -/
def kindAt (a : Nat) : AKind × Nat :=
  if 2 ^ 56 ≤ a then (.none, 0)
  else if a / 2 ^ 52 = 8 then
    if a / 2 ^ 51 % 2 = 1 then (.none, 0) else (.fabric (a / 2 ^ 40 % 2 ^ 11), (a / 2 ^ 40 + 1) * 2 ^ 40)
  else if a < 0x0080000000000000 then (.general, 0x0080000000000000)
  else if a < 0x00FF000000000000 then (.general, 0x00FF000000000000)
  else if 0x00FFE00000000000 ≤ a ∧ a < 0x00FFE00060000000 then
    let c := (a - 0x00FFE00000000000) / 0x4000000
    (.win c, 0x00FFE00000000000 + (c + 1) * 0x4000000)
  else if spadVa ≤ a ∧ a < spadVa + 0x810000 then (.spad, spadVa + 0x810000)
  else (.none, 0)

/-- A device of the fabric that exists and can be reached (07 R233). -/
def fabricDev (s : State) (n : Nat) : Bool :=
  decide (n ≤ 1151) && (n == s.out.devNum || (s.out.ports != 0 && s.out.reach.contains n))

/-- A fault of an issue check: subcode and value (11 R309). -/
abbrev Refuse := Nat × Nat

def badParam : List Refuse := [(1, 0)]

def refuseIf (b : Bool) (l : List Refuse) : List Refuse := if b then l else []

/-- What is wrong with the range [a, a + n), n > 0, on a tile (12 R325). -/
def rangeFaults (s : State) (tile a n : Nat) : List Refuse :=
  let k := kindAt a
  match k.1 with
  | .none => [(4, a)]
  | .spad =>
    let top := spadVa + spadBytes s tile
    if top < a + n then [(3, Nat.max a top)] else []
  | .win c =>
    let top := 0x00FFE00000000000 + c * 0x4000000 + (s.cluster c).win * 0x400000
    if top < a + n then [(4, Nat.max a top)] else []
  | .fabric d => if !fabricDev s d then [(4, a)] else if k.2 < a + n then [(4, k.2)] else []
  | .general => if k.2 < a + n then [(4, k.2)] else []

def isSpad (a : Nat) : Bool := (kindAt a).1 == .spad
def isWin (a : Nat) : Bool := match (kindAt a).1 with
  | .win _ => true
  | _ => false

/-- Two ranges of device virtual addresses overlap. -/
def rangesMeet (a n b m : Nat) : Bool := decide (0 < n) && decide (0 < m) && decide (a < b + m) && decide (b < a + n)

/-- The check reported first: by subcode, then the lowest address (12 R324). -/
def firstRefuse (l : List Refuse) : Option Refuse :=
  l.foldl (fun best q => match best with
    | none => some q
    | some b => if q.1 < b.1 ∨ (q.1 = b.1 ∧ q.2 < b.2) then some q else some b) none

def refuse (l : List Refuse) : Res Unit :=
  match firstRefuse l with
  | some q => .error (engineTrap (BitVec.ofNat 8 q.1) (BitVec.ofNat 64 q.2))
  | none => .ok ()

/-! ### Parameters (12 R322, R327) -/

/-- Which registers a command's parameters come from, by field and place. -/
def paramRegs (f : FormE) (na nb nc : Nat) : List Desig :=
  ((List.range na).map (Desig.plus f.a)) ++ ((List.range nb).map (Desig.plus f.b)) ++ ((List.range nc).map (Desig.plus f.c))

def par (ps : List Word) (k : Nat) : Nat := (ps.getD k 0).toNat
def parLo (ps : List Word) (k : Nat) : Nat := par ps k % 2 ^ 32
def parHi (ps : List Word) (k : Nat) : Nat := par ps k / 2 ^ 32

/-- A command's number of units (11 R321) by opcode and engine; CP2D of zero bytes a row has none. -/
def kcOf (fmt : Word) : Nat :=
  match bits fmt 4 4 with
  | 0xC => 32
  | 8 | 9 => 8
  | _ => 16

/-- The matrix word of MM, MMT and the follow-on of CPMM (12 R336). -/
def matWord (opc : BitVec 10) (ps : List Word) : Word := if opc = 0x206 then ps.getD 4 0 else ps.getD 2 0

def unitsOf (e : Engine) (opc : BitVec 10) (fmt : Word) (ps : List Word) : Nat :=
  match e, opc.toNat with
  | .ce, 0x201 => if parLo ps 4 = 0 then 0 else parHi ps 4
  | .ce, 0x202 | .ce, 0x203 => parLo ps 3
  | .ce, 0x208 => (parLo ps 2 + 2047) / 2048
  | .ce, _ => parLo ps 2
  | .me, 0x213 => par ps 1 % 2 ^ 16 * 64
  | .me, _ => bits (matWord opc ps) 0 32 / kcOf fmt

def Cmd.units (c : Cmd) (e : Engine) : Nat := unitsOf e c.opc c.fmt c.params

/-- A stride as a signed number. -/
def signedPar (ps : List Word) (k : Nat) : Int := (ps.getD k 0).toInt

/-- The bytes that rows of `w` bytes at a stride span: first address and length, as integers (12 R329). -/
def rowSpan (base : Nat) (stride : Int) (w h : Nat) : Int × Nat :=
  let d : Int := stride * ((h : Int) - 1)
  ((base : Int) + min d 0, d.natAbs + w)

/-- The panel pitches and sizes of a format word (12 R334, R335). -/
def packedA (fmt : Word) : Nat := if bits fmt 4 4 = 0xC then 2048 else 1024
def packedB (fmt : Word) : Nat := if bits fmt 4 4 = 0xC then 18432 else 1024
def pitchA (fmt : Word) : Nat := if bits fmt 16 16 = 0 then packedA fmt else bits fmt 16 16 * 32
def pitchB (fmt : Word) : Nat := if bits fmt 32 16 = 0 then packedB fmt else bits fmt 32 16 * 32
def fmtAmem (fmt : Word) : Bool := fmt.getLsbD 8
def fmtInit (fmt : Word) : Bool := fmt.getLsbD 9

/-- The operands of a matrix command: address of A, address of B. -/
def matA (ps : List Word) : Nat := par ps 0
def matB (opc : BitVec 10) (ps : List Word) : Nat := if opc = 0x206 then par ps 3 else par ps 1

/-- Bytes the panels of A span. -/
def spanA (opc : BitVec 10) (fmt : Word) (ps : List Word) : Nat :=
  let p := unitsOf .me opc fmt ps
  if p = 0 then 0 else (p - 1) * pitchA fmt + packedA fmt

def spanB (opc : BitVec 10) (fmt : Word) (ps : List Word) : Nat :=
  let k := bits (matWord opc ps) 0 32
  let p := if bits fmt 4 4 = 0xC then k / 512 else k / kcOf fmt
  if p = 0 then 0 else (p - 1) * pitchB fmt + packedB fmt

/-! ### The declared scratchpad range (11 R305, 12 R326, R338) -/

/-- The scratchpad ranges among some ranges, as one interval of offsets. -/
def spadHull (l : List (Nat × Nat)) : Option (Nat × Nat) :=
  (l.filter fun q => isSpad q.1 && q.2 != 0).foldl (fun acc q =>
    let lo := q.1 - spadVa
    let hi := lo + q.2
    match acc with
    | none => some (lo, hi)
    | some b => some (Nat.min b.1 lo, Nat.max b.2 hi)) none

/-- What a command declares. A CPG or CPS whose indexed side lies in the scratchpad declares all of it. -/
def declared (s : State) (tile : Nat) (e : Engine) (c : Cmd) : Option (Nat × Nat) :=
  let ps := c.params
  let all : Nat × Nat := (spadVa, spadBytes s tile)
  if c.units e = 0 then none
  else match e, c.opc.toNat with
    | .me, 0x213 => none
    | .me, _ => if fmtAmem c.fmt then none else spadHull [(matA ps, spanA c.opc c.fmt ps)]
    | .ce, 0x201 =>
      let d := rowSpan (par ps 0) (signedPar ps 1) (parLo ps 4) (parHi ps 4)
      let r := rowSpan (par ps 2) (signedPar ps 3) (parLo ps 4) (parHi ps 4)
      spadHull [(d.1.toNat, d.2), (r.1.toNat, r.2)]
    | .ce, 0x202 =>
      let n := parLo ps 3
      spadHull [(par ps 0, n * 2 ^ c.aux.toNat), (par ps 2, 4 * n), if isSpad (par ps 1) then all else (0, 0)]
    | .ce, 0x203 =>
      let n := parLo ps 3
      spadHull [(par ps 1, n * 2 ^ c.aux.toNat), (par ps 2, 4 * n), if isSpad (par ps 0) then all else (0, 0)]
    | .ce, 0x204 => spadHull [(par ps 0, parLo ps 2 * 4096)]
    | .ce, 0x205 => spadHull [(par ps 1, parLo ps 2 * 4096)]
    | .ce, 0x207 => spadHull [(par ps 0, parLo ps 2)]
    | .ce, _ => spadHull [(par ps 0, parLo ps 2), (par ps 1, parLo ps 2)]

/-- Two declared ranges overlap once widened to 32-byte boundaries. -/
def declaredMeet (a b : Option (Nat × Nat)) : Bool :=
  match a, b with
  | some p, some q => decide (p.1 / 32 * 32 < roundUp q.2 32) && decide (q.1 / 32 * 32 < roundUp p.2 32)
  | _, _ => false

/-- The first of two commands is the older in the tile's issue order, which counts modulo 2^32 (11 R305, 16 R429). -/
def Cmd.olderThan (o c : Cmd) : Bool :=
  let n := (c.order + (2 ^ 32 - o.order % 2 ^ 32)) % 2 ^ 32
  decide (0 < n) && decide (n < 2 ^ 31)

/-- The range checker holds a command while an older one of either queue overlaps it. -/
def checkerHolds (s : State) (tile : Nat) (k : Task) (e : Engine) (c : Cmd) : Bool :=
  let meets (e' : Engine) (o : Cmd) : Bool :=
    o.olderThan c && declaredMeet (declared s tile e c) (declared s tile e' o)
  k.ceq.any (meets .ce) || k.meq.any (meets .me)

/-! ### Checks at issue (12 R324 to R340) -/

def checkCp (s : State) (tile : Nat) (ps : List Word) (reads : Bool) : List Refuse :=
  let n := parLo ps 2
  refuseIf (parHi ps 2 != 0) badParam ++
    (if n = 0 then [] else
      rangeFaults s tile (par ps 0) n ++
        (if reads then rangeFaults s tile (par ps 1) n ++ refuseIf (rangesMeet (par ps 0) n (par ps 1) n) badParam else []))

/-- A range given by integers: one that leaves the address space has no window there. -/
def spanFaults (s : State) (tile : Nat) (r : Int × Nat) : List Refuse :=
  if r.1 < 0 then [(4, wrapInt 64 r.1)] else rangeFaults s tile r.1.toNat r.2

def checkCp2d (s : State) (tile : Nat) (ps : List Word) : List Refuse :=
  let w := parLo ps 4
  let h := parHi ps 4
  let d := rowSpan (par ps 0) (signedPar ps 1) w h
  let r := rowSpan (par ps 2) (signedPar ps 3) w h
  refuseIf (decide (1 < h) && decide ((signedPar ps 1).natAbs < w)) badParam ++
    (if w = 0 ∨ h = 0 then [] else
      spanFaults s tile d ++ spanFaults s tile r ++
        refuseIf (decide (d.1 < r.1 + r.2) && decide (r.1 < d.1 + d.2)) badParam)

/-- CPG and CPS: the list lies in the scratchpad, the contiguous side is a range, the indexed side is checked for its
base. -/
def checkGather (s : State) (tile : Nat) (ps : List Word) (aux : BitVec 4) (gather : Bool) : List Refuse :=
  let n := parLo ps 3
  let e := 2 ^ aux.toNat
  let list := par ps 2
  let flat := if gather then par ps 0 else par ps 1
  let base := if gather then par ps 1 else par ps 0
  refuseIf (parHi ps 3 != 0) badParam ++
    refuseIf (list % 4 != 0 || !isSpad list || decide (spadVa + spadBytes s tile ≤ list)) badParam ++
    (if n = 0 then [] else
      (if isSpad list then rangeFaults s tile list (4 * n) else []) ++ rangeFaults s tile flat (n * e) ++
        rangeFaults s tile base 1 ++ refuseIf (gather && rangesMeet flat (n * e) list (4 * n)) badParam)

/-- Slot size D and element size of CPX and CPZ (07 R240). -/
def kerfD (aux : BitVec 4) : Nat := 1024 * 2 ^ (aux.toNat % 4)
def kerfE (aux : BitVec 4) : Nat := 2 ^ (aux.toNat / 4)

def checkKerf (s : State) (tile : Nat) (ps : List Word) (aux : BitVec 4) (expand : Bool) : List Refuse :=
  let n := parLo ps 2
  let d := kerfD aux
  let block := if expand then par ps 1 else par ps 0
  let image := if expand then par ps 0 else par ps 1
  let spill := par ps 3
  refuseIf (parHi ps 2 != 0) badParam ++ refuseIf (isWin block && block % d != 0) badParam ++
    refuseIf (image % 32 != 0) badParam ++
    refuseIf (!expand && (spill % 32 != 0 || !((kindAt spill).1 == .general || isWin spill))) badParam ++
    (if n = 0 then [] else
      (if isWin block then rangeFaults s tile block (n * d) else [(4, block)]) ++
        (if isSpad image then rangeFaults s tile image (n * 4096) else [(4, image)]))

def checkComb (s : State) (tile : Nat) (ps : List Word) (ty : Ty) : List Refuse :=
  let w := Ty.bytes ty
  refuseIf (parLo ps 2 % w != 0 || par ps 0 % w != 0 || par ps 1 % w != 0) badParam ++ checkCp s tile ps true

/-- Tiles of the accumulator (07 R215). -/
def accTiles (k : Task) : Nat := 2 * partAcc k.part

/-- The legal type pairs of 12 R335. -/
def fmtPair (fmt : Word) : Bool :=
  let a := bits fmt 0 4
  let b := bits fmt 4 4
  let fp8 (n : Nat) : Bool := n == 0xA || n == 0xB
  let h (n : Nat) : Bool := n == 8 || n == 9
  (a == 5 && b == 5) || (fp8 a && (fp8 b || b == 0xC)) || (h a && h b)

/-- A format word that MFMT accepts (12 R334, R335). -/
def fmtOk (fmt : Word) : Bool :=
  bits fmt 48 16 == 0 && bits fmt 10 6 == 0 && fmtPair fmt && decide (packedA fmt ≤ pitchA fmt) &&
    decide (packedB fmt ≤ pitchB fmt)

/-- The checks of MM and MMT (12 R334 to R338). With K = 0 the operand ranges are empty and where they lie is not checked:
DESIGN CHOICE (log 112). -/
def checkMat (s : State) (tile : Nat) (k : Task) (opc : BitVec 10) (fmt : Word) (ps : List Word) : List Refuse :=
  let w := matWord opc ps
  let kk := bits w 0 32
  let qc4 := bits fmt 4 4 == 0xC
  let a := matA ps
  let b := matB opc ps
  let na := spanA opc fmt ps
  let nb := spanB opc fmt ps
  refuseIf (bits w 48 16 != 0 || kk % (if qc4 then 512 else kcOf fmt) != 0 || a % 32 != 0 || b % 32 != 0 ||
      !fmtPair fmt || (opc == 0x212 && qc4)) badParam ++
    refuseIf (decide (accTiles k ≤ bits w 32 16)) [(2, bits w 32 16)] ++
    (if na = 0 then [] else
      if fmtAmem fmt then (if isSpad a then badParam else rangeFaults s tile a na)
      else if isSpad a then rangeFaults s tile a na else [(4, a)]) ++
    (if nb = 0 then [] else if isSpad b then badParam else rangeFaults s tile b nb)

/-- The copy part of a CPMM lands in the scratchpad (12 R333). -/
def checkCpmm (s : State) (tile : Nat) (k : Task) (fmt : Word) (ps : List Word) : List Refuse :=
  let n := parLo ps 2
  refuseIf (parHi ps 2 != 0 || fmtAmem fmt) badParam ++
    (if n = 0 then [] else
      (if isSpad (par ps 0) then rangeFaults s tile (par ps 0) n else [(4, par ps 0)]) ++ rangeFaults s tile (par ps 1) n ++
        refuseIf (rangesMeet (par ps 0) n (par ps 1) n) badParam) ++
    checkMat s tile k 0x206 fmt ps

def checkAccz (k : Task) (ps : List Word) : List Refuse :=
  let first := par ps 0
  let n := par ps 1
  refuseIf (decide (2 ^ 16 ≤ first) || decide (2 ^ 16 ≤ n)) badParam ++
    refuseIf (n != 0 && decide (accTiles k < first + n)) [(2, Nat.max first (accTiles k))]

/-! ### Issue of a command (11 R296 to R300, R307 to R309, R317) -/

/-- A command that uses an engine: its queues, the parameters' registers, its checks, whether it claims a format word. -/
structure EngSpec where
  opc : BitVec 10
  ce : Bool
  me : Bool
  na : Nat
  nb : Nat
  nc : Nat
  claims : Bool
  check : State → Nat → Task → Word → List Word → List Refuse

/-- The strand's accesses that the fork edge covers are performed (08 R265). -/
def forkReady (t : Strand) : Res Unit :=
  if t.loads.any (·.acq.isSome) || t.atoms.any (·.acq.isSome) then .error (stall .acquire)
  else need (!olderStores t && t.atoms.all (·.performed)) (stall .older)

/-- The queue entries of a command. -/
def Task.enqueue (k : Task) (sp : EngSpec) (c : Cmd) : Task :=
  { k with
    ceq := if sp.ce then k.ceq ++ [if sp.me then { c with fmt := 0 } else c] else k.ceq
    meq := if sp.me then k.meq ++ [c] else k.meq
    order := k.order + 1
    kept := if sp.ce then k.kept ++ [if sp.me then { c with fmt := 0 } else c] else k.kept }

def slotUnitOf (sp : EngSpec) : SlotUnit := if sp.ce && sp.me then .both else if sp.ce then .ce else .me

/-- The command recorded at issue. -/
def newCmd (sp : EngSpec) (f : FormE) (t : Strand) (sid order slot : Nat) (fmt : Word) (ps : List Word) : Cmd :=
  { opc := sp.opc, ty := f.ty, aux := f.aux, token := f.token, quiet := f.quiet, issuer := numberOf sid, user := !t.pl, slot,
    phase := 0, index := 0, turn := t.turn, order, fmt, params := ps, issue := t.issue, error := none, disowned := false,
    waiting := .none, copied := false, spills := some 0 }

/-- The strand after the issue: the format word is claimed, the issue number counts, D names the slot. -/
def Strand.issued (t : Strand) (sp : EngSpec) (f : FormE) (entered : Bool) (id : Option Word) : Strand :=
  let t := { t with fq := if sp.claims then t.fq.drop 1 else t.fq, issue := t.issue + 1 }
  let t := if entered then t.addPerf 6 else t
  match id with
  | some w => t.putD f.d w
  | none => t

/-- The body of an engine command. -/
def engineBody (sp : EngSpec) (f : FormE) : Body := withFocus fun s t => do
  let sid := s.sid
  let tile := tileOf sid
  let regs := paramRegs f sp.na sp.nb sp.nc
  noMarks t regs
  if sp.claims then need (!t.fq.isEmpty) (queueTrap 0x10)
  match s.task? tile with
  | none => .ok s
  | some k =>
    let ps := regs.map t.xa
    let fmt : Word := if sp.claims then t.fq.headD 0 else 0
    refuse (sp.check s tile k fmt ps)
    forkReady t
    need ((!sp.ce || decide (k.ceq.length < 16)) && (!sp.me || decide (k.meq.length < 16))) (stall .engine)
    let slot ← if f.quiet then .ok 0 else match k.freeSlot with
      | some n => .ok n
      | none => .error (stall .engine)
    let c := newCmd sp f t sid k.order slot fmt ps
    let taken := if f.quiet then k else k.takeSlot slot (numberOf sid) (slotUnitOf sp) t.issue
    let id := if f.quiet then none else some (taken.slotId slot)
    match verdict s sid t with
    | .rollback sub => .error (.hold (divergeRollback s sid sub sp.opc) .older none)
    | .diverge sub =>
      let s := s.updTask tile fun _ => if f.quiet then taken else taken.endSlot slot true
      .ok (divergeReport (s.updStrand sid (·.issued sp f false id)) sid sub sp.opc)
    | .pass =>
      let s := s.updTask tile fun _ => taken.enqueue sp c
      .ok (s.updStrand sid (·.issued sp f true id))

def execEngine (i : Instr) (sp : EngSpec) (f : FormE) (s : State) : Answer := issue i .normal anyLevel (engineBody sp f) s

def specCp : EngSpec := { opc := 0x200, ce := true, me := false, na := 1, nb := 1, nc := 1, claims := false,
                          check := fun s tile _ _ ps => checkCp s tile ps true }
def specCp2d : EngSpec := { opc := 0x201, ce := true, me := false, na := 2, nb := 2, nc := 1, claims := false,
                            check := fun s tile _ _ ps => checkCp2d s tile ps }
def specCpg (aux : BitVec 4) : EngSpec :=
  { opc := 0x202, ce := true, me := false, na := 1, nb := 1, nc := 2, claims := false,
    check := fun s tile _ _ ps => checkGather s tile ps aux true }
def specCps (aux : BitVec 4) : EngSpec :=
  { opc := 0x203, ce := true, me := false, na := 1, nb := 1, nc := 2, claims := false,
    check := fun s tile _ _ ps => checkGather s tile ps aux false }
def specCpx (aux : BitVec 4) : EngSpec :=
  { opc := 0x204, ce := true, me := false, na := 1, nb := 1, nc := 1, claims := false,
    check := fun s tile _ _ ps => checkKerf s tile ps aux true }
def specCpz (aux : BitVec 4) : EngSpec :=
  { opc := 0x205, ce := true, me := false, na := 1, nb := 1, nc := 2, claims := false,
    check := fun s tile _ _ ps => checkKerf s tile ps aux false }
def specCpmm : EngSpec := { opc := 0x206, ce := true, me := true, na := 1, nb := 1, nc := 3, claims := true,
                            check := fun s tile k fmt ps => checkCpmm s tile k fmt ps }
def specCpfill : EngSpec := { opc := 0x207, ce := true, me := false, na := 1, nb := 1, nc := 1, claims := false,
                              check := fun s tile _ _ ps => checkCp s tile ps false }
def specCpcomb (ty : Ty) : EngSpec :=
  { opc := 0x208, ce := true, me := false, na := 1, nb := 1, nc := 1, claims := false,
    check := fun s tile _ _ ps => checkComb s tile ps ty }
def specMm : EngSpec := { opc := 0x211, ce := false, me := true, na := 1, nb := 1, nc := 1, claims := true,
                          check := fun s tile k fmt ps => checkMat s tile k 0x211 fmt ps }
def specMmt : EngSpec := { opc := 0x212, ce := false, me := true, na := 1, nb := 1, nc := 1, claims := true,
                           check := fun s tile k fmt ps => checkMat s tile k 0x212 fmt ps }
def specAccz : EngSpec := { opc := 0x213, ce := false, me := true, na := 1, nb := 1, nc := 0, claims := false,
                            check := fun _ _ k _ ps => checkAccz k ps }

def execCp (f : FormE) (s : State) : Answer := execEngine (.cp f) specCp f s
def execCp2d (f : FormE) (s : State) : Answer := execEngine (.cp2d f) specCp2d f s
def execCpg (f : FormE) (s : State) : Answer := execEngine (.cpg f) (specCpg f.aux) f s
def execCps (f : FormE) (s : State) : Answer := execEngine (.cps f) (specCps f.aux) f s
def execCpx (f : FormE) (s : State) : Answer := execEngine (.cpx f) (specCpx f.aux) f s
def execCpz (f : FormE) (s : State) : Answer := execEngine (.cpz f) (specCpz f.aux) f s
def execCpmm (f : FormE) (s : State) : Answer := execEngine (.cpmm f) specCpmm f s
def execCpfill (f : FormE) (s : State) : Answer := execEngine (.cpfill f) specCpfill f s
def execCpcomb (f : FormE) (s : State) : Answer := execEngine (.cpcomb f) (specCpcomb f.ty) f s
def execMm (f : FormE) (s : State) : Answer := execEngine (.mm f) specMm f s
def execMmt (f : FormE) (s : State) : Answer := execEngine (.mmt f) specMmt f s
def execAccz (f : FormE) (s : State) : Answer := execEngine (.accz f) specAccz f s

/-- 12 R334: a format word joins the strand's queue. -/
def execMfmt (f : FormE) (s : State) : Answer :=
  issue (.mfmt f) .normal anyLevel (withFocus fun s t => do
    noMarks t [f.a]
    need (fmtOk (t.xa f.a)) (engineTrap 1 0)
    need (decide (t.fq.length < 4)) (engineTrap 5 0)
    .ok (s.updStrand s.sid fun t => { t with fq := t.fq ++ [t.xa f.a] })) s

/-! ### Observing completion (11 R301, R310; 12 R344) -/

/-- A command later than a failed one in the strand's issue order. -/
def laterIssue (a b : BitVec 32) : Bool := decide ((a - b).toNat < 2 ^ 31)

/-- The engines of a slot's unit meet those of a report. -/
def sameEngine (r : Report) (u : SlotUnit) : Bool :=
  match u with
  | .ce => r.both || r.engine == some .ce
  | .me => r.both || r.engine == some .me
  | .both => r.both || r.engine.isSome
  | _ => false

/-- The observation of a slot that covers the failed operation of a held report: its own command, a later one of the same
engine, or the failed slot of a sequence unit (13 R363). -/
def covers (r : Report) (q : Slot) : Bool :=
  (sameEngine r q.unit && laterIssue q.issue r.issue) ||
    (r.engine.isNone && !r.both && q.unit == .sequence && q.state == .failed)

/-- The report delivered at an observation: DIVERGE first, then an ENGINE error that the observation covers. -/
def observed (t : Strand) (q : Slot) (gen : BitVec 8) (number : Nat) : Res Unit :=
  if t.inh then .ok ()
  else match t.divRep with
    | some r => .error (.report .diverge r.val)
    | none => match t.engRep with
      | some r =>
        if gen == q.gen && q.state != .pending && q.issuer.toNat == number && covers r q
        then .error (.report .engine r.val) else .ok ()
      | none => .ok ()

/-- The slot of the tile that an identifier names. -/
def slotOf (s : State) (sid : Nat) (id : Word) : Slot :=
  match s.task? (tileOf sid) with
  | some k => k.slot (bits id 0 8)
  | none => { gen := 0, state := .complete, issuer := 0, unit := .other, issue := 0 }

def idGen (id : Word) : BitVec 8 := BitVec.ofNat 8 (bits id 8 8)

/-- An observation reports completion. -/
def resolved (q : Slot) (gen : BitVec 8) : Bool := gen != q.gen || q.state != .pending

def execCwait (f : FormE) (s : State) : Answer :=
  issue (.cwait f) .normal anyLevel (withFocus fun s t => do
    noMarks t [f.a]
    let id := t.xa f.a
    let q := slotOf s s.sid id
    observed t q (idGen id) (numberOf s.sid)
    need (resolved q (idGen id)) (stall .completion)
    .ok s) s

def execCpoll (f : FormE) (s : State) : Answer :=
  issue (.cpoll f) .normal anyLevel (withFocus fun s t => do
    noMarks t [f.a]
    let id := t.xa f.a
    let q := slotOf s s.sid id
    observed t q (idGen id) (numberOf s.sid)
    .ok (s.updStrand s.sid fun t => t.putD f.d (flagWord (resolved q (idGen id))))) s

/-! ### Tokens of the execute slice (12 R342) -/

/-- The accesses of a strand older than number `q` are performed (08 R255). -/
def performedBefore (t : Strand) (q : Nat) : Bool :=
  !storesBefore t q && t.atoms.all fun a => a.performed || decide (q ≤ a.seq)

def execTkgive (f : FormE) (s : State) : Answer :=
  issue (.tkgive f) .normal anyLevel (withFocus fun s t => do
    if gateOn t f.gate then
      let tile := tileOf s.sid
      match s.task? tile with
      | none => .ok s
      | some k =>
        need (performedBefore t (s.number t)) (stall .token)
        need (canPush k.fifo (giveTokens f.token)) (stall .token)
        .ok (s.updTask tile fun k => { k with fifo := pushAll k.fifo (giveTokens f.token) })
    else .ok s) s

def execTktake (f : FormE) (s : State) : Answer :=
  issue (.tktake f) .normal anyLevel (withFocus fun s t => do
    if gateOn t f.gate then
      let tile := tileOf s.sid
      match s.task? tile with
      | none => .ok s
      | some k =>
        need (canPop k.fifo (takeTokens f.token)) (stall .token)
        .ok (s.updTask tile fun k => { k with fifo := popAll k.fifo (takeTokens f.token) })
    else .ok s) s

/-! ### Turns (11 R316 to R318, 17 R439) -/

/-- The turn snapshot of a strand. -/
def Strand.snapshot (t : Strand) (fifo : Vector Nat 6) : Snap :=
  { x := t.x, v := t.v, p := t.p, marks := t.marks, loops := t.loops, hctl := t.hctl, fq := t.fq, bobbin := t.bobbin, fifo }

/-- TURN passes: the number grows, the snapshot is taken, the sequence log is cleared (13 R361), and CE commands two
turns old are no longer kept (11 R317). -/
def execTurn (f : FormE) (s : State) : Answer :=
  issue (.turn f) .drain anyLevel (withFocus fun s t => do
    need t.queuesEmpty (engineTrap 7 0)
    let tile := tileOf s.sid
    let fifo := match s.task? tile with
      | some k => k.fifo
      | none => Vector.replicate 6 0
    let now := t.turn + 1
    let s := s.updTask tile fun k =>
      { k with kept := k.kept.filter fun c => c.issuer != numberOf s.sid || c.turn == now || c.turn == now - 1 }
    .ok (s.updStrand s.sid fun t =>
      { t with turn := now, turnPc := t.pc + 16, snap := some (t.snapshot fifo), rolled := false, seqlog := [], seqFull := false,
               replaying := false, seqNext := 0 })) s

end Sys2Proof.Machine
end

