-- ==== Sys2Proof/Machine/Home.lean ====
section
/-! DEFINITION. Home-path instructions (13 R357 to R361, 14 R401): the operation performed whole at its unit, the unit's
accesses and their faults, the sequence log and its replay, the checker core's verdict. -/

namespace Sys2Proof.Machine

/-! ### A unit's operation -/

/-- Why an operation does not complete: the instruction's own halt, or a fault of the unit's access, which is gathered. -/
inductive UHalt
  | halt (h : Halt)
  | fault (sub : BitVec 8) (va : Nat) (by_ : Option FaultAgent := none)
  | pri (va : Nat)
  deriving DecidableEq, Repr

/-- An operation of a unit: it changes the state as a whole, or not at all. -/
abbrev Hm (α : Type) := StateT State (Except UHalt) α

def haltWith {α : Type} (h : Halt) : Hm α := throw (.halt h)

/-- A check of the instruction's operands. -/
def needH (b : Bool) (h : Halt) : Hm Unit := if b then pure () else haltWith h

/-- The parts of a unit's access at supervisor level. -/
def unitParts (pasid : BitVec 20) (acc : Acc) (va len : Nat) : Hm (List Part) := do
  match unitAccess (← get) (unitAgent pasid false) acc va len with
  | (.parts ps, s) => set s; pure ps
  | (.fault sub at_, _) => throw (.fault sub at_ none)
  | (.pri at_, _) => throw (.pri at_)

/-- Bytes at an address of a context. -/
def uRead (pasid : BitVec 20) (va len : Nat) : Hm (List Byte) := do
  let ps ← unitParts pasid .load va len
  pure (readParts (← get) ps).1

def uWrite (pasid : BitVec 20) (va : Nat) (bs : List Byte) : Hm Unit := do
  let ps ← unitParts pasid .store va bs.length
  modify fun s => writeParts s ps bs false

def uNat (pasid : BitVec 20) (va len : Nat) : Hm Nat := do pure (leNat (← uRead pasid va len))
def uPut (pasid : BitVec 20) (va len v : Nat) : Hm Unit := uWrite pasid va (leBytes len v)

/-- An operation whose own accesses are those of another agent. -/
def asAgent {α : Type} (g : FaultAgent) (m : Hm α) : Hm α := fun s => match m s with
  | .error (.fault sub va none) => .error (.fault sub va (some g))
  | r => r

/-- An operation of a strand's own, inside a unit's. -/
def ofRes {α : Type} (m : State → Res (α × State)) : Hm α := do
  match m (← get) with
  | .ok r => set r.2; pure r.1
  | .error h => haltWith h

/-- The subcode a unit's fault is gathered with; a fault that no list has a code for counts as NOTMAPPED. -/
def gatherSub (sub : BitVec 8) : BitVec 8 := if gathers sub then sub else 1

/-- A page request to the host for a unit's access (20 R465). -/
def State.askPage (s : State) (pasid : BitVec 20) (va : Nat) : State :=
  let q := (pasid, pageOf va)
  if s.out.priOut.contains q then s else { s with out := { s.out with priOut := s.out.priOut ++ [q] } }

/-- What a fault of a unit's access leaves: the pair to wait for, and the state with the fault gathered. -/
def unitFault (s : State) (pasid : BitVec 20) (agent : FaultAgent) : UHalt → Option (FaultWait × State)
  | .halt _ => none
  | .fault sub va who => some (.on (pasid, pageOf va) sub va, s.gather pasid va (gatherSub sub) (who.getD agent))
  | .pri va => some (.on (pasid, pageOf va) 1 va, s.askPage pasid va)

/-- An operation run for a strand: a fault is gathered, and the instruction waits with nothing changed (07 R237). -/
def runHm {α : Type} (pasid : BitVec 20) (agent : FaultAgent) (sid : Nat) (m : Hm α) (s : State) : Res (α × State) :=
  match m s with
  | .ok r => .ok (r.1, r.2.updStrand sid fun t => { t with home := .none })
  | .error (.halt h) => .error h
  | .error e => match unitFault s pasid agent e with
    | some q => .error (.hold (q.2.updStrand sid fun t => { t with home := q.1 }) .gathered none)
    | none => .error (stall .gathered)

/-! ### The sequence log (13 R361, 17 R441, R447) -/

/-- An operation without its response: FX12 counts as one of its operands, DESIGN CHOICE (log 114). -/
def SeqEnt.same (a b : SeqEnt) : Bool := a.opc == b.opc && a.fx12 == b.fx12 && a.a == b.a && a.b == b.b && a.c == b.c

/-- An entry as a log holds it (17 R441). -/
def SeqEnt.bytes (e : SeqEnt) : List Byte :=
  leBytes 2 e.opc.toNat ++ leBytes 2 e.fx12.toNat ++ leBytes 4 1 ++ leBytes 8 e.a.toNat ++ leBytes 8 e.b.toNat ++
    leBytes 8 e.c.toNat ++ leBytes 8 e.resp.toNat ++ List.replicate 24 0

def seqEntOf (b : List Byte) : SeqEnt :=
  { opc := BitVec.ofNat 10 (field b 0 2), fx12 := BitVec.ofNat 12 (field b 2 2), a := BitVec.ofNat 64 (field b 8 8),
    b := BitVec.ofNat 64 (field b 0x10 8), c := BitVec.ofNat 64 (field b 0x18 8), resp := BitVec.ofNat 64 (field b 0x20 8) }

/-- The entries of a log of `n` that lies at the start of the bytes. -/
def seqEnts (b : List Byte) (n : Nat) : List SeqEnt := (List.range n).map fun i => seqEntOf (takeBytes b (64 * i) 64)

/-- The response a repeated turn or task has for an operation, and the strand after the comparison. A turn that is repeated
while its task is re-executed goes on from the turn's log to the task's; a mismatch ends every replay (13 R361, 17 R447). -/
def replayHome (t : Strand) (e : SeqEnt) : Option Word × Strand :=
  match t.replaying, t.seqlog[t.seqNext]? with
  | true, some q =>
    if q.same e then (some q.resp, { t with seqNext := t.seqNext + 1 })
    else (none, { t with replaying := false, seqlog := t.seqlog.take t.seqNext, relog := [] })
  | _, _ => match t.relog with
    | q :: r => if q.same e then (some q.resp, { t with replaying := false, relog := r })
                else (none, { t with replaying := false, relog := [] })
    | [] => (none, { t with replaying := false })

/-- How many entries at the end of the task's log an operation that is performed anew leaves behind: those still to be
replayed. -/
def staleLog (t : Strand) : Nat := (if t.replaying then t.seqlog.length - t.seqNext else 0) + t.relog.length

/-- The turn's log takes an operation, or is full. -/
def Strand.logSeq (t : Strand) (e : SeqEnt) : Strand :=
  if t.replaying then t
  else if t.seqlog.length < 64 then { t with seqlog := t.seqlog ++ [e] } else { t with seqFull := true }

/-- The key of a strand's re-execution log: 8 i + k. -/
def relogKey (k : Task) (sid : Nat) : Nat := 8 * k.index + numberOf sid

/-- The re-execution log of a restartable task takes a response (log 89); a log of more than 1,024 ends the task's protection. -/
def State.logTask (s : State) (sid : Nat) (e : SeqEnt) : State :=
  if isHead sid then s
  else match s.task? (tileOf sid) with
    | none => s
    | some k =>
      { s with loom := { s.loom with launches := FMap.update s.loom.launches k.launch fun l =>
          if !l.restart then l
          else
            let old := (FMap.get? l.relogs (relogKey k sid)).getD []
            if old.length < 64 * 1024 then { l with relogs := FMap.set l.relogs (relogKey k sid) (old ++ e.bytes) }
            else { l with recs := FMap.update l.recs k.index fun r => { r with snapOk := false } } } }

/-- The last `n` entries of a strand's re-execution log no longer hold: its run has left them. -/
def State.cutLog (s : State) (sid n : Nat) : State :=
  if n = 0 || isHead sid then s
  else match s.task? (tileOf sid) with
    | none => s
    | some k =>
      { s with loom := { s.loom with launches := FMap.update s.loom.launches k.launch fun l =>
          { l with relogs := FMap.update l.relogs (relogKey k sid) fun b => b.take (b.length - 64 * n) } } }

/-! ### The instructions -/

/-- What class 5 and class 6 instructions have in common: which fields they use, what comes before the operation and
after it. -/
structure HomeSpec where
  opc : BitVec 10
  useA : Bool := true
  useB : Bool := false
  useC : Bool := false
  agent : FaultAgent := .sequence
  pre : State → Strand → Res State := fun s _ => .ok s
  post : State → State := id

/-- The entry an instruction makes in the log. -/
def homeEnt (h : HomeSpec) (f : FormQ) (t : Strand) (resp : Word) : SeqEnt :=
  { opc := h.opc, fx12 := f.aux ++ (0 : BitVec 4) ++ Decode.bit f.nb ++ Decode.scopeCode f.scope,
    a := if h.useA then t.xa f.a else 0, b := if h.useB then t.xa f.b else 0, c := if h.useC then t.xa f.c else 0, resp }

/-- The body of a home-path instruction (13 R358): nothing younger of A issues before it has completed. -/
def homeBody (h : HomeSpec) (f : FormQ) (op : State → Strand → Hm Word) : Body := withFocus fun s t => do
  let sid := s.sid
  noMarks t ((if h.useA then [f.a] else []) ++ (if h.useB then [f.b] else []) ++ if h.useC then [f.c] else [])
  match t.home, t.answer with
  | .on _ _ _, _ => .error (stall .gathered)
  | _, some w =>
    let e := homeEnt h f t (if f.d = .x 0 then 0 else w)
    .ok (((h.post s).logTask sid e).updStrand sid fun t => ({ t with answer := none, held := none }.logSeq e).putD f.d w)
  | _, none =>
    let s ← h.pre s t
    match verdict s sid t with
    | .rollback sub => .error (.hold (divergeRollback s sid sub h.opc) .older none)
    | .diverge sub => .ok ((divergeReport s sid sub h.opc).updStrand sid (·.putD f.d 0))
    | .pass =>
      let e := homeEnt h f t 0
      let r := replayHome t e
      match r.1 with
      | some w => .ok ((h.post (s.setStrand sid r.2)).updStrand sid fun t => (t.logSeq { e with resp := w }).putD f.d w)
      | none => do
        let q ← runHm (s.pasidOf sid) h.agent sid (op s t) ((s.cutLog sid (staleLog t)).setStrand sid r.2)
        let e := { e with resp := if f.d = .x 0 then 0 else q.1 }
        .ok (((h.post q.2).logTask sid e).updStrand sid fun t => ({ t with held := none }.logSeq e).putD f.d q.1)

def execHome (i : Instr) (h : HomeSpec) (f : FormQ) (op : State → Strand → Hm Word) (s : State) : Answer :=
  issue i .normal anyLevel (homeBody h f op) s

end Sys2Proof.Machine
end

