-- ==== Sys2Proof/Machine/Bolts.lean ====
section
/-! DEFINITION. Class 5: the bolt area, bolt control blocks and pages, reserving and closing slots, forks and references,
retirement and anchors, the translation memory (chapter 13). -/

namespace Sys2Proof.Machine

/-! ### The bolt area (13 R346 to R348) -/

structure Area where
  pasid : BitVec 20
  base : Nat
  deriving DecidableEq, Repr

/-- A field of a record: its offset and bytes. -/
abbrev RecField := Nat × Nat

def hNrec : RecField := (0x00, 4)
def hHfree : RecField := (0x04, 4)
def hPbase : RecField := (0x08, 8)
def hNpool : RecField := (0x10, 4)
def hPfree : RecField := (0x14, 4)
def hRefs : RecField := (0x18, 8)
def hNfree : RecField := (0x20, 4)

def bState : RecField := (0x00, 4)
def bSlog : RecField := (0x04, 1)
def bRsv : RecField := (0x08, 4)
def bFell : RecField := (0x0C, 4)
def bFloor : RecField := (0x10, 4)
def bHcnt : RecField := (0x14, 4)
def bNpages : RecField := (0x18, 4)
def bNpins : RecField := (0x1C, 2)
def bDir (d : Nat) : RecField := (0x20 + 4 * d, 4)
def bCowpg : RecField := (0x40, 4)
def bNext : RecField := (0x44, 4)
def bHole : RecField := (0x100, 512)

/-- No page, no handle, no directory. -/
def noPage : Nat := 0xFFFFFFFF

def Area.get (ar : Area) (h : Nat) (f : RecField) : Hm Nat := uNat ar.pasid (ar.base + 1024 * h + f.1) f.2
def Area.put (ar : Area) (h : Nat) (f : RecField) (v : Nat) : Hm Unit := uPut ar.pasid (ar.base + 1024 * h + f.1) f.2 v

/-- Bytes at an address set to zero. -/
def uZero (pasid : BitVec 20) (va len : Nat) : Hm Unit := do
  let ps ← unitParts pasid .store va len
  modify fun s => ps.foldl (fun s p => s.clearLoc p.loc p.len) s

/-- Whether a piece lies in first-tier memory. -/
def Part.tier0 (p : Part) : Bool := p.space == .general && decide (p.loc + p.len ≤ tier0Size)

/-- The check of an area (20 R469). -/
def checkArea (ar : Area) : Hm Bool := do
  let nrec ← ar.get 0 hNrec
  let npool ← ar.get 0 hNpool
  let pbase ← ar.get 0 hPbase
  if !(decide (2 ≤ nrec) && decide (nrec ≤ 2 ^ 24) && decide (1 ≤ npool) && decide (npool ≤ 0x7FFFFFFF) &&
      pbase % 0x20000 == 0) then pure false
  else
    let refs ← ar.get 0 hRefs
    let ps ← unitParts ar.pasid .load refs (4 * npool)
    pure (ps.all Part.tier0)

/-- The context's bolt area, checked at the first operation after RECBASE changed (20 R469). -/
def areaOf (pasid : BitVec 20) : Hm (Option Area) := do
  let s ← get
  let base := ccbRecbase s pasid
  let ar : Area := { pasid, base }
  if base = 0 then pure none
  else
    let loc := (ccbOf s pasid).getD 0 + 0x10
    match (FMap.get? s.areas pasid.toNat).filter (fun a => a.base == base && a.loc == loc) with
    | some a => pure (if a.ok then some ar else none)
    | none =>
      let ok ← checkArea ar
      modify fun s => { s with areas := FMap.set s.areas pasid.toNat { base, ok, loc } }
      pure (if ok then some ar else none)

/-! ### Causes (13 R359) -/

/-- The value of a BOLT or TMMISS trap: the slot operand and the handle. -/
def boltVal (slot h : Nat) : BitVec 56 := BitVec.ofNat 56 (slot % 2 ^ 32 * 2 ^ 24 + h % 2 ^ 24)

def boltHalt (sub : BitVec 8) (slot : Nat) (h : Word) : Halt := boltTrap sub (boltVal slot h.toNat)

def needArea (pasid : BitVec 20) (slot : Nat) (h : Word) : Hm Area := do
  match ← areaOf pasid with
  | some ar => pure ar
  | none => haltWith (boltHalt 1 slot h)

/-- The handle a register names (13 R349). -/
def needHandle (ar : Area) (slot : Nat) (w : Word) : Hm Nat := do
  let h := w.toNat
  needH (decide (h < 2 ^ 24) && h != 0) (boltHalt 2 slot w)
  let nrec ← ar.get 0 hNrec
  needH (decide (h < nrec)) (boltHalt 2 slot w)
  let st ← ar.get h bState
  needH (st != 0) (boltHalt 2 slot w)
  pure h

/-- A slot, count, fork point, floor or target operand. -/
def need32 (v : Word) (slot : Nat) (h : Word) : Hm Nat := do
  needH (decide (v.toNat < 2 ^ 32)) (boltHalt 3 slot h)
  pure v.toNat

def needCount (v : Word) (slot : Nat) (h : Word) : Hm Nat := do
  needH (v != 0 && decide (v.toNat ≤ 4096)) (boltHalt 3 slot h)
  pure v.toNat

/-- The area and the bolt an instruction names. -/
def needBolt (pasid : BitVec 20) (slot : Nat) (w : Word) : Hm (Area × Nat) := do
  let ar ← needArea pasid slot w
  let h ← needHandle ar slot w
  pure (ar, h)

/-- A status with a result (13 R360). -/
def withStatus (st v : Nat) : Word := BitVec.ofNat 64 (st * 2 ^ 56 + v)

/-! ### Pages (13 R348, R351) -/

def Area.pageVa (ar : Area) (p : Nat) : Hm Nat := do pure ((← ar.get 0 hPbase) + p * 0x20000)
def Area.refVa (ar : Area) (p : Nat) : Hm Nat := do pure ((← ar.get 0 hRefs) + 4 * p)
def Area.refs (ar : Area) (p : Nat) : Hm Nat := do uNat ar.pasid (← ar.refVa p) 4
def Area.putRefs (ar : Area) (p v : Nat) : Hm Unit := do uPut ar.pasid (← ar.refVa p) 4 v

/-- A page taken from the head of the free list. -/
def Area.allocPage (ar : Area) : Hm Nat := do
  let p ← ar.get 0 hPfree
  let w := (← ar.refs p) % 2 ^ 31
  ar.put 0 hPfree (if w = 0x7FFFFFFF then noPage else w)
  ar.put 0 hNfree ((← ar.get 0 hNfree) - 1)
  ar.putRefs p 1
  pure p

def Area.reference (ar : Area) (p : Nat) : Hm Unit := do ar.putRefs p ((← ar.refs p) % 2 ^ 31 + 1)

/-- A reference released: a page whose count reaches zero goes to the head of the free list. -/
def Area.release (ar : Area) (p : Nat) : Hm Unit := do
  let w := (← ar.refs p) % 2 ^ 31
  if 1 < w then ar.putRefs p (w - 1)
  else
    let head ← ar.get 0 hPfree
    ar.putRefs p (2 ^ 31 + head % 2 ^ 31)
    ar.put 0 hPfree p
    ar.put 0 hNfree ((← ar.get 0 hNfree) + 1)

/-- Page entries as numbers. -/
def entV (e : Nat) : Bool := e.testBit 0
def entPin (e : Nat) : Bool := e.testBit 1
def entCow (e : Nat) : Bool := e.testBit 2
def entCowlim (e : Nat) : Nat := e / 8 % 2 ^ 13
def entPage (e : Nat) : Nat := e / 2 ^ 16 % 2 ^ 32

def sppOf (slog : Nat) : Nat := 2 ^ (17 - slog)
def maxsOf (slog : Nat) : Nat := 2 ^ (34 - slog)

/-- The entry of bolt page `b`: 0 where its directory is absent. -/
def Area.entry (ar : Area) (h b : Nat) : Hm Nat := do
  let d ← ar.get h (bDir (b / 16384))
  if d = noPage then pure 0 else uNat ar.pasid ((← ar.pageVa d) + 8 * (b % 16384)) 8

/-- The directory of bolt page `b`, allocated and zeroed when absent. -/
def Area.dirFor (ar : Area) (h b : Nat) : Hm Nat := do
  let d ← ar.get h (bDir (b / 16384))
  if d ≠ noPage then pure d
  else
    let p ← ar.allocPage
    uZero ar.pasid (← ar.pageVa p) 0x20000
    ar.put h (bDir (b / 16384)) p
    pure p

def Area.putEntry (ar : Area) (h b e : Nat) : Hm Unit := do
  let d ← ar.dirFor h b
  uPut ar.pasid ((← ar.pageVa d) + 8 * (b % 16384)) 8 e

/-- The valid entries of bolt pages below `n`, ascending. -/
def Area.validEntries (ar : Area) (h n : Nat) : Hm (List (Nat × Nat)) := do
  let parts ← (List.range ((n + 16383) / 16384)).mapM fun j => do
    let d ← ar.get h (bDir j)
    if d = noPage then pure []
    else
      let m := Nat.min (n - 16384 * j) 16384
      let bs ← uRead ar.pasid (← ar.pageVa d) (8 * m)
      pure (((List.range m).map fun k => (16384 * j + k, field bs (8 * k) 8)).filter fun q => entV q.2)
  pure parts.flatten

/-- How many directory pages a list of bolt pages needs that are absent. -/
def Area.absentDirs (ar : Area) (h : Nat) (bs : List Nat) : Hm Nat := do
  let ds := (List.range 8).filter fun d => bs.any fun b => b / 16384 == d
  let abs ← ds.filterM fun d => do pure ((← ar.get h (bDir d)) == noPage)
  pure abs.length

/-- A copy on first append of the bolt has not landed. -/
def copying (pasid : BitVec 20) (h : Nat) (s : State) : Bool :=
  s.cows.any fun q => q.2.pasid == pasid && q.2.handle == h && q.2.landed.isNone

/-- Operations that wait in the bolt's order (13 R363). -/
def needLanded (pasid : BitVec 20) (h : Nat) : Hm Unit := do
  needH (!copying pasid h (← get)) (stall .home)

/-! ### BNEW (13 R362) -/

/-- A new record, all zero but what the manual names. -/
def Area.initRecord (ar : Area) (h slog : Nat) : Hm Unit := do
  uZero ar.pasid (ar.base + 1024 * h) 1024
  ar.put h bState 1
  ar.put h bSlog slog
  ar.put h bHcnt 1
  (List.range 8).forM fun d => ar.put h (bDir d) noPage
  ar.put h bCowpg noPage

/-- The free handle at the head, taken; 0 when there is none. -/
def Area.takeHandle (ar : Area) : Hm Nat := do
  let h ← ar.get 0 hHfree
  if h ≠ 0 then ar.put 0 hHfree (← ar.get h bNext)
  pure h

def bnewOp (b : Word) (pasid : BitVec 20) : Hm Word := do
  let ar ← needArea pasid 0 0
  needH (decide (4 ≤ b.toNat) && decide (b.toNat ≤ 16)) (boltHalt 3 0 0)
  let h ← ar.takeHandle
  if h = 0 then pure (withStatus 5 0)
  else
    ar.initRecord h b.toNat
    pure (withStatus 0 h)

def execBnew (f : FormQ) (s : State) : Answer :=
  execHome (.bnew f) { opc := 0x280, useA := false, useB := true } f (fun s t => bnewOp (t.xa f.b) (s.pasidOf s.sid)) s

/-! ### BRSV and the copy on first append (13 R363) -/

/-- The entries of bolt pages, each with its page. -/
def Area.entries (ar : Area) (h : Nat) (bs : List Nat) : Hm (List (Nat × Nat)) := bs.mapM fun b => do pure (b, ← ar.entry h b)

/-- A page of its own for bolt page `q.1`, whose entry `q.2` is absent, or names a page to be copied. -/
def Area.ownPage (ar : Area) (h : Nat) (q : Nat × Nat) : Hm Unit := do
  let _ ← ar.dirFor h q.1
  let page ← ar.allocPage
  if entCow q.2 then ar.put h bCowpg noPage
  if !entV q.2 then ar.put h bNpages ((← ar.get h bNpages) + 1)
  ar.putEntry h q.1 (page * 2 ^ 16 + (if entPin q.2 then 2 else 0) + 1)

/-- A run reserved: the status, the number for bits [31:0], and the copy it needs: pages and bytes. -/
def reserve (ar : Area) (h n : Nat) : Hm (Nat × Nat × Option (Nat × Nat × Nat)) := do
  let rsv ← ar.get h bRsv
  let fell ← ar.get h bFell
  let slog ← ar.get h bSlog
  if fell + 4096 < rsv + n then pure (1, rsv, none)
  else if maxsOf slog < rsv + n then pure (4, rsv, none)
  else
    let spp := sppOf slog
    let b0 := rsv / spp
    let ents ← ar.entries h ((List.range ((rsv + n - 1) / spp - b0 + 1)).map (b0 + ·))
    let need := ents.filter fun q => !entV q.2 || entCow q.2
    let dirs ← ar.absentDirs h (need.map (·.1))
    if (← ar.get 0 hNfree) < need.length + dirs then pure (2, rsv, none)
    else
      need.forM (ar.ownPage h)
      ar.put h bRsv (rsv + n)
      match need.find? fun q => entCow q.2 with
      | some q =>
        let e ← ar.entry h q.1
        pure (0, rsv, some (entPage q.2, entPage e, entCowlim q.2 * 2 ^ slog))
      | none => pure (0, rsv, none)

/-- A BRSV of a tile's strand: its completion slot is taken first, and ends at once when nothing is copied. -/
def brsvTile (sid : Nat) (a b : Word) (pasid : BitVec 20) : Hm Word := do
  let (ar, h) ← needBolt pasid 0 a
  let n ← needCount b 0 a
  match (← get).task? (tileOf sid) with
  | none => haltWith (stall .engine)
  | some k =>
    match k.freeSlot with
    | none => haltWith (stall .engine)
    | some slot =>
      let k := k.takeSlot slot (numberOf sid) .sequence 0
      let r ← reserve ar h n
      match r.2.2 with
      | none => modify fun s => s.updTask (tileOf sid) fun _ => k.endSlot slot false
      | some (src, dst, len) =>
        modify fun s =>
          let c : Cow := { pasid, handle := h, src, dst, len, sid, task := (k.launch, k.index), slot := some (slot, (k.slot slot).gen), first := r.2.1,
                           landed := none, wait := .none }
          { (s.updTask (tileOf sid) fun _ => k) with cows := FMap.set s.cows s.own c }
      pure (BitVec.ofNat 64 (r.1 * 2 ^ 56 + (k.slotId slot).toNat * 2 ^ 40 + r.2.1))

/-- The copy that a headstock strand's BRSV waits for. -/
def headCow (s : State) (sid : Nat) : Option (Nat × Cow) := s.cows.find? fun q => q.2.sid == sid && q.2.slot.isNone

/-- A BRSV of a headstock strand: its result is written when any copy has landed, or failed. -/
def brsvHead (sid : Nat) (a b : Word) (pasid : BitVec 20) : Hm Word := do
  match headCow (← get) sid with
  | some (key, c) =>
    match c.landed with
    | none => haltWith (stall .home)
    | some ok =>
      modify fun s => { s with cows := FMap.erase s.cows key }
      pure (withStatus (if ok then 0 else 7) c.first)
  | none =>
    let (ar, h) ← needBolt pasid 0 a
    let n ← needCount b 0 a
    let r ← reserve ar h n
    match r.2.2 with
    | none => pure (withStatus r.1 r.2.1)
    | some (src, dst, len) =>
      modify fun s =>
        let c : Cow := { pasid, handle := h, src, dst, len, sid, task := (0, 0), slot := none, first := r.2.1, landed := none, wait := .none }
        { (s.updStrand sid fun t => { t with home := .none }) with cows := FMap.set s.cows s.own c }
      haltWith (.hold (← get) .home none)

def execBrsv (f : FormQ) (s : State) : Answer :=
  execHome (.brsv f) { opc := 0x281, useB := true } f
    (fun s t => if isHead s.sid then brsvHead s.sid (t.xa f.a) (t.xa f.b) (s.pasidOf s.sid)
      else brsvTile s.sid (t.xa f.a) (t.xa f.b) (s.pasidOf s.sid)) s

/-- Bytes copied between two ranges of locations, with their poison (07 R231). -/
def State.copyLoc (s : State) (src dst len : Nat) : State :=
  let cells := s.mem.filter fun c => src ≤ c.1 && c.1 < src + len
  let mem := cells.foldl (fun m c => Memory.write m (c.1 - src + dst) c.2) (Memory.clear s.mem dst len)
  let poison := (sectorsOf dst len).foldl (fun q k =>
    let lo := Nat.max (32 * k) dst
    let hi := Nat.min (32 * k + 32) (dst + len)
    if isPoisoned s.poison (lo - dst + src) (hi - lo) then NatSet.insert q k
    else if hi - lo = 32 then NatSet.erase q k else q) s.poison
  { s with mem, poison }

/-- The L1 of a tile no longer holds lines of a range that a unit writes for its strand (08 R270, R271). -/
def State.forgetLines (s : State) (tile loc len : Nat) : State := (keysOf loc len).foldl (fun s k => s.flushLine tile k) s

/-- What a tile's L1 holds written of a range is written back. -/
def State.offerLines (s : State) (tile loc len : Nat) : State := (keysOf loc len).foldl (fun s k => s.writeBackLine tile k) s

/-- The copy's accesses: pages are cut into pieces at the same places. It happens before what its issuer does after it has
seen the completion object (08 R271): the tile of the issuer's task holds no older copy of the page. What that tile's L1
holds of the old page, committed at .tile (08 R270), is written back first. -/
def cowMove (ar : Area) (c : Cow) : Hm Unit := do
  let src ← unitParts c.pasid .load (← ar.pageVa c.src) c.len
  let dst ← unitParts c.pasid .store (← ar.pageVa c.dst) c.len
  let tiles := (← get).tilesWhere fun k => k.launch == c.task.1 && k.index == c.task.2
  modify fun s =>
    let s := tiles.foldl (fun s t => src.foldl (fun s p => s.offerLines t p.loc p.len)
      (dst.foldl (fun s p => s.forgetLines t p.loc p.len) s)) s
    (src.zip dst).foldl (fun s q => s.copyLoc q.1.loc q.2.loc q.1.len) s

/-- The address of a field of a saved task's image (16 R425, R426). -/
def imageField (s : State) (pasid : BitVec 20) (slot off : Nat) : Nat := ccbSavebase s pasid + slot * 0x680000 + off

/-- The completion slot of a task that was saved ends in its image (16 R429): state, and the report of a failure. -/
def endSavedSlot (c : Cow) (save slot : Nat) (gen : BitVec 8) (failed : Option Word) : Hm Unit := do
  let at_ := imageField (← get) c.pasid save (0x1000 + 8 * slot)
  if (← uNat c.pasid at_ 1) = gen.toNat then
    uPut c.pasid (at_ + 1) 1 (if failed.isSome then 2 else 0)
    match failed with
    | none => pure ()
    | some val =>
      let rep := imageField (← get) c.pasid save (0x10590 + 0xC000 * numberOf c.sid)
      if (← uNat c.pasid (rep + 8) 1) % 2 = 0 then
        uPut c.pasid rep 8 val.toNat
        uPut c.pasid (rep + 8) 8 1

/-- The completion object of a copy ends, wherever its task is (13 R363, 16 R429). -/
def cowEnd (c : Cow) (failed : Option Word) : Hm Unit := do
  match c.slot with
  | none => pure ()
  | some (slot, gen) =>
    let s ← get
    match s.tilesWhere fun k => k.launch == c.task.1 && k.index == c.task.2 with
    | tile :: _ =>
      modify fun s =>
        let s := s.updTask tile fun k => if (k.slot slot).gen = gen then k.endSlot slot failed.isSome else k
        match failed with
        | none => s
        | some val => s.updStrand (8 * tile + numberOf c.sid) fun t =>
            if t.engRep.isSome then t else { t with engRep := some { val } }
    | [] =>
      match (s.launch? c.task.1).map (fun l => (l.taskRec c.task.2).phase) with
      | some (TaskPhase.saved save) => endSavedSlot c save slot gen failed
      | _ => pure ()

/-- A copy lands, or fails: the old page's reference is released and the completion object ends. -/
def cowFinish (key : Nat) (c : Cow) (failed : Option Word) : Hm Unit := do
  match ← areaOf c.pasid with
  | some ar => ar.release c.src
  | none => pure ()
  cowEnd c failed
  modify fun s => { s with cows := if c.slot.isSome then FMap.erase s.cows key
                                   else FMap.set s.cows key { c with landed := some failed.isNone } }

/-- ENGINE XLATE with an address, as a held report (11 R309). -/
def engineXlate (va : Nat) : Word := BitVec.ofNat 64 (0x10 * 2 ^ 56 + va % 2 ^ 56)

/-- An operation of the event itself: a fault is gathered, and the wait is recorded by `wait`. -/
def runEvent (pasid : BitVec 20) (agent : FaultAgent) (wait : FaultWait → State → State) (m : Hm Unit) (s : State) : State :=
  match m s with
  | .ok r => r.2
  | .error e => match unitFault s pasid agent e with
    | some q => wait q.1 q.2
    | none => s

/-- 13 R363: the copy lands; a fault is gathered, and a pair resolved as failed ends it as FAILED. -/
def execCowCopyLand (copy : Nat) (s : State) : Answer :=
  match FMap.get? s.cows copy with
  | none => .next s
  | some c =>
    let waits (w : FaultWait) (s : State) : State := { s with cows := FMap.set s.cows copy { c with wait := w } }
    match c.landed, c.wait with
    | some _, _ => .next s
    | none, .on _ _ _ => .next s
    | none, .none => .next (runEvent c.pasid .sequence waits (do
        let ar ← needArea c.pasid 0 0
        cowMove ar c
        cowFinish copy c none) s)
    | none, .failed _ va => .next (runEvent c.pasid .sequence waits (cowFinish copy c (some (engineXlate va))) s)

/-! ### BCMT and BVOID (13 R353, R364) -/

/-- The fell advances over closed slots. -/
def sweep : Nat → Nat → Nat → Nat × Nat
  | 0, hole, fell => (hole, fell)
  | fuel + 1, hole, fell => if hole % 2 = 1 then sweep fuel (hole / 2) (fell + 1) else (hole, fell)

def closeSlot (hole fell s : Nat) : Nat × Nat := sweep 4096 (hole ||| 2 ^ (s - fell)) fell

def isClosed (hole fell s : Nat) : Bool := decide (s < fell) || hole.testBit (s - fell)

def voidMagic : Nat := 0x564F494400000000

/-- The address of a slot. -/
def Area.slotVa (ar : Area) (slog e s : Nat) : Hm Nat := do pure ((← ar.pageVa (entPage e)) + s % sppOf slog * 2 ^ slog)

/-- The header of a void slot. It is written as a store of the issuing strand before its release would be (13 R364,
08 R270): what the L1 of the strand's tile holds of it goes first. -/
def writeVoid (tile : Nat) (ar : Area) (h slog s : Nat) : Hm Unit := do
  let va ← ar.slotVa slog (← ar.entry h (s / sppOf slog)) s
  let ps ← unitParts ar.pasid .store va 16
  modify fun st => ps.foldl (fun st p => st.forgetLines tile p.loc p.len) st
  uPut ar.pasid va 8 voidMagic
  uPut ar.pasid (va + 8) 8 s

/-- Slots of a run closed in order: the hole window, the fell, how many were closed now. With `void` each gets its header,
for a strand of that tile. -/
def closeRun (ar : Area) (h slog : Nat) (void : Option Nat) : List Nat → Nat × Nat × Nat → Hm (Nat × Nat × Nat)
  | [], r => pure r
  | s :: rest, (hole, fell, new) =>
    if isClosed hole fell s then closeRun ar h slog void rest (hole, fell, new)
    else do
      match void with
      | some tile => writeVoid tile ar h slog s
      | none => pure ()
      let q := closeSlot hole fell s
      closeRun ar h slog void rest (q.1, q.2, new + 1)

def closeOp (void : Option Nat) (a b c : Word) (pasid : BitVec 20) : Hm Word := do
  let slot := b.toNat
  let (ar, h) ← needBolt pasid slot a
  let s0 ← need32 b slot a
  let n ← needCount c slot a
  let rsv ← ar.get h bRsv
  needH (decide (s0 + n ≤ rsv)) (boltHalt 4 (s0 + n - 1) a)
  let slog ← ar.get h bSlog
  let r ← closeRun ar h slog void ((List.range n).map (s0 + ·)) (← ar.get h bHole, ← ar.get h bFell, 0)
  ar.put h bHole r.1
  ar.put h bFell r.2.1
  pure (withStatus (if r.2.2 < n then 3 else 0) r.2.2)

/-- What comes before a release at a scope (08 R255, R270). -/
def releasePre (sc : Scope) : State → Strand → Res State := fun s t => do
  if acquiring t then .error (stall .acquire)
  releaseReady s (unitOf s.sid) t sc
  .ok (s.releaseL1 (unitOf s.sid) sc)

/-- What an acquire waits for (08 R256). -/
def acquirePre : State → Strand → Res State := fun s t => do
  if acquiring t then .error (stall .acquire)
  .ok s

def acquirePost (sc : Scope) (s : State) : State := s.acquireL1 (unitOf s.sid) sc

def execBcmt (f : FormQ) (s : State) : Answer :=
  execHome (.bcmt f) { opc := 0x282, useB := true, useC := true, pre := releasePre f.scope } f
    (fun s t => closeOp none (t.xa f.a) (t.xa f.b) (t.xa f.c) (s.pasidOf s.sid)) s

def execBvoid (f : FormQ) (s : State) : Answer :=
  execHome (.bvoid f) { opc := 0x283, useB := true, useC := true, pre := releasePre f.scope } f
    (fun s t => closeOp (some (unitOf s.sid)) (t.xa f.a) (t.xa f.b) (t.xa f.c) (s.pasidOf s.sid)) s

/-! ### BFELL and BWAIT (13 R365) -/

def bfellOp (a : Word) (pasid : BitVec 20) : Hm Word := do
  let (ar, h) ← needBolt pasid 0 a
  pure (BitVec.ofNat 64 (← ar.get h bFell))

def execBfell (f : FormQ) (s : State) : Answer :=
  execHome (.bfell f) { opc := 0x284, pre := acquirePre, post := acquirePost f.scope } f
    (fun s t => bfellOp (t.xa f.a) (s.pasidOf s.sid)) s

/-- One check of a BWAIT that issued in `cycle`; it waits on while the fell is below the target and its time is not up. -/
def bwaitOp (a b c : Word) (timeUp : Bool) (cycle : Nat) (pasid : BitVec 20) : Hm Word := do
  let (ar, h) ← needBolt pasid 0 a
  let target ← need32 b 0 a
  let fell ← ar.get h bFell
  if target ≤ fell then pure (withStatus 0 fell)
  else if timeUp then pure (withStatus 6 fell)
  else haltWith (.hold (← get) .bwait (if c = 0 then none else some (cycle + c.toNat)))

/-- A check of BWAIT. Its time counts from the cycle in which it issued, whatever it has waited for since. -/
def bwaitBody (f : FormQ) : Body :=
  homeBody { opc := 0x285, useB := true, useC := true, pre := acquirePre, post := acquirePost f.scope } f
    (fun s t => bwaitOp (t.xa f.a) (t.xa f.b) (t.xa f.c) (timedOut t s.cycle) (issuedAt t s.cycle) (s.pasidOf s.sid))

def execBwait (f : FormQ) (s : State) : Answer := issue (.bwait f) .normal anyLevel (bwaitBody f) s

/-- The strand's BWAIT, when its access slice waits in one. -/
def bwaiting (s : State) (sid : Nat) : Option (FormQ × Wait) :=
  match (s.strand? sid).bind (·.waitA) with
  | some w => match w.why, w.instr with
    | .bwait, .bwait f => some (f, w)
    | _, _ => none
  | none => none

/-- 13 R365: the timeout of a BWAIT passes. -/
def execBwaitTimeout (sid : Nat) (s : State) : Answer :=
  match bwaiting s sid with
  | some (f, w) => if w.ended s.cycle then execBwait f (s.at sid) else .next s
  | none => .next s

/-! ### Forks and references (13 R366 to R368) -/

/-- The record of a fork at `k`: its pages are the parent's, the last one copied at the first append when `k` lies inside it. -/
def Area.fillChild (ar : Area) (c slog floor k : Nat) (ps : List (Nat × Nat)) : Hm Unit := do
  let spp := sppOf slog
  ar.initRecord c slog
  ar.put c bFloor floor
  ar.put c bFell k
  ar.put c bRsv k
  ps.forM fun q => do
    let part := k % spp != 0 && q.1 == k / spp
    ar.putEntry c q.1 (entPage q.2 * 2 ^ 16 + (if part then k % spp * 8 + 4 else 0) + (if entPin q.2 then 2 else 0) + 1)
    ar.reference (entPage q.2)
    if part then ar.put c bCowpg q.1
  ar.put c bNpages ps.length
  ar.put c bNpins (ps.filter fun q => entPin q.2).length

/-- The fork of a bolt at `k`, which its checks have passed: status and child. -/
def forkBolt (ar : Area) (h k : Nat) : Hm (Nat × Nat) := do
  if (← ar.get 0 hHfree) = 0 then pure (5, 0)
  else
    let slog ← ar.get h bSlog
    let spp := sppOf slog
    let ps ← ar.validEntries h ((k + spp - 1) / spp)
    let dirs := ((List.range 8).filter fun d => ps.any fun q => q.1 / 16384 == d).length
    if (← ar.get 0 hNfree) < dirs then pure (2, 0)
    else
      let floor ← ar.get h bFloor
      let c ← ar.takeHandle
      ar.fillChild c slog floor k ps
      pure (0, c)

/-- The checks of a fork point. -/
def needFork (ar : Area) (h k : Nat) (a : Word) : Hm Unit := do
  needH (decide ((← ar.get h bFloor) ≤ k)) (boltHalt 5 0 a)
  needH (decide (k ≤ (← ar.get h bFell))) (boltHalt 3 0 a)

def bforkOp (a b : Word) (pasid : BitVec 20) : Hm Word := do
  let (ar, h) ← needBolt pasid 0 a
  let k ← need32 b 0 a
  needFork ar h k a
  needLanded pasid h
  let r ← forkBolt ar h k
  pure (withStatus r.1 r.2)

def execBfork (f : FormQ) (s : State) : Answer :=
  execHome (.bfork f) { opc := 0x286, useB := true } f (fun s t => bforkOp (t.xa f.a) (t.xa f.b) (s.pasidOf s.sid)) s

/-- One more handle. -/
def holdBolt (ar : Area) (h : Nat) (a : Word) : Hm Unit := do
  let n ← ar.get h bHcnt
  needH (decide (n < 0xFFFFFFFF)) (boltHalt 7 0 a)
  ar.put h bHcnt (n + 1)

def bholdOp (a : Word) (pasid : BitVec 20) : Hm Word := do
  let (ar, h) ← needBolt pasid 0 a
  holdBolt ar h a
  pure 0

def execBhold (f : FormQ) (s : State) : Answer :=
  execHome (.bhold f) { opc := 0x287 } f (fun s t => bholdOp (t.xa f.a) (s.pasidOf s.sid)) s

/-- A bolt destroyed: its pages are released in order, then its directories, and its handle is free. -/
def Area.destroy (ar : Area) (h : Nat) : Hm Unit := do
  let slog ← ar.get h bSlog
  let spp := sppOf slog
  let ps ← ar.validEntries h (((← ar.get h bRsv) + spp - 1) / spp)
  ps.forM fun q => ar.release (entPage q.2)
  (List.range 8).forM fun d => do
    let p ← ar.get h (bDir d)
    if p ≠ noPage then ar.release p
  ar.put h bState 0
  ar.put h bNext (← ar.get 0 hHfree)
  ar.put 0 hHfree h

/-- One handle less; the last destroys the bolt. -/
def releaseBolt (ar : Area) (h : Nat) : Hm Nat := do
  let n := (← ar.get h bHcnt) - 1
  ar.put h bHcnt n
  if n = 0 then ar.destroy h
  pure n

def brelOp (a : Word) (pasid : BitVec 20) : Hm Word := do
  let (ar, h) ← needBolt pasid 0 a
  needLanded pasid h
  pure (BitVec.ofNat 64 (← releaseBolt ar h))

def execBrel (f : FormQ) (s : State) : Answer :=
  execHome (.brel f) { opc := 0x288 } f (fun s t => brelOp (t.xa f.a) (s.pasidOf s.sid)) s

/-! ### Retirement and anchors (13 R369, R370) -/

/-- Pages retired: each is released and its entry is no longer valid, in ascending order of bolt page, DESIGN CHOICE
(log 115). -/
def Area.retire (ar : Area) (h : Nat) (ps : List (Nat × Nat)) : Hm Unit := ps.forM fun q => do
  ar.release (entPage q.2)
  ar.putEntry h q.1 0

/-- BRETIRE (13 R369). -/
def bretireOp (a b : Word) (pasid : BitVec 20) : Hm Word := do
  let (ar, h) ← needBolt pasid 0 a
  let f ← need32 b 0 a
  needH (decide (f ≤ (← ar.get h bFell))) (boltHalt 3 0 a)
  if f ≤ (← ar.get h bFloor) then pure 0
  else
    ar.put h bFloor f
    let slog ← ar.get h bSlog
    let ps := (← ar.validEntries h (f / sppOf slog)).filter fun q => !entPin q.2
    ar.retire h ps
    ar.put h bNpages ((← ar.get h bNpages) - ps.length)
    pure (BitVec.ofNat 64 ps.length)

def execBretire (f : FormQ) (s : State) : Answer :=
  execHome (.bretire f) { opc := 0x28B, useB := true } f (fun s t => bretireOp (t.xa f.a) (t.xa f.b) (s.pasidOf s.sid)) s

/-- The page of a slot to pin or unpin, and its entry. -/
def pinPage (a b : Word) (pasid : BitVec 20) : Hm (Area × Nat × Nat × Nat) := do
  let slot := b.toNat
  let (ar, h) ← needBolt pasid slot a
  let s ← need32 b slot a
  needH (decide (s < (← ar.get h bRsv))) (boltHalt 4 slot a)
  let p := s / sppOf (← ar.get h bSlog)
  let e ← ar.entry h p
  needH (entV e) (boltHalt 5 slot a)
  pure (ar, h, p, e)

def pinOp (a b : Word) (pasid : BitVec 20) : Hm Word := do
  let (ar, h, p, e) ← pinPage a b pasid
  if !entPin e then
    let n ← ar.get h bNpins
    needH (decide (n < 64)) (boltHalt 6 b.toNat a)
    ar.put h bNpins (n + 1)
    ar.putEntry h p (e + 2)
  pure 0

def unpinOp (a b : Word) (pasid : BitVec 20) : Hm Word := do
  let (ar, h, p, e) ← pinPage a b pasid
  if entPin e then
    ar.put h bNpins ((← ar.get h bNpins) - 1)
    if (p + 1) * sppOf (← ar.get h bSlog) ≤ (← ar.get h bFloor) then
      ar.release (entPage e)
      ar.putEntry h p 0
      ar.put h bNpages ((← ar.get h bNpages) - 1)
    else ar.putEntry h p (e - 2)
  pure 0

def execBpinPin (f : FormQ) (s : State) : Answer :=
  execHome (.bpinPin f) { opc := 0x28C, useB := true } f (fun s t => pinOp (t.xa f.a) (t.xa f.b) (s.pasidOf s.sid)) s

def execBpinUnpin (f : FormQ) (s : State) : Answer :=
  execHome (.bpinUnpin f) { opc := 0x28C, useB := true } f
    (fun s t => unpinOp (t.xa f.a) (t.xa f.b) (s.pasidOf s.sid)) s

/-! ### BSTAT (13 R353, R372) -/

/-- The state of a slot as a code. -/
def slotCode (ar : Area) (h s : Nat) : Hm Nat := do
  let fell ← ar.get h bFell
  if (← ar.get h bRsv) ≤ s then pure 0
  else if fell ≤ s then pure (if (← ar.get h bHole).testBit (s - fell) then 2 else 1)
  else if (← ar.get h bFloor) ≤ s then pure 3
  else
    let e ← ar.entry h (s / sppOf (← ar.get h bSlog))
    pure (if entPin e then 4 else 5)

def bstatOp (aux : BitVec 4) (a b : Word) (pasid : BitVec 20) : Hm Word := do
  let slot := if aux = 5 then b.toNat else 0
  let (ar, h) ← needBolt pasid slot a
  let v ← match aux.toNat with
    | 0 => ar.get h bRsv
    | 1 => ar.get h bFell
    | 2 => ar.get h bFloor
    | 3 => ar.get h bHcnt
    | 4 => ar.get h bNpages
    | 6 => ar.get h bSlog
    | _ => do slotCode ar h (← need32 b slot a)
  pure (BitVec.ofNat 64 v)

def execBstat (f : FormQ) (s : State) : Answer :=
  execHome (.bstat f) { opc := 0x28A, useB := f.aux == 5 } f
    (fun s t => bstatOp f.aux (t.xa f.a) (t.xa f.b) (s.pasidOf s.sid)) s

/-! ### The translation memory (13 R355, R356, R371, R373, R374) -/

def TmEnt.hits (e : TmEnt) (h s : Nat) : Bool :=
  e.handle.toNat == h && decide (e.base.toNat ≤ s) && decide (s < e.base.toNat + e.limit)

def tmOf (s : State) (sid : Nat) : List TmEnt := match s.task? (tileOf sid) with
  | some k => k.tm
  | none => []

def State.setTm (s : State) (sid : Nat) (l : List TmEnt) : State := s.updTask (tileOf sid) fun k => { k with tm := l }

/-- The list with the entries of a test moved to its end: the most recently used. A TMLOAD, a hit of BADDR and a hit of TMLOCK or
TMUNLK are uses (13 R373): DESIGN CHOICE (log 116). -/
def touchTm (l : List TmEnt) (p : TmEnt → Bool) : List TmEnt := l.filter (fun e => !p e) ++ l.filter p

/-- The pool page of an entry. -/
def tmRelease (ar : Area) (e : TmEnt) : Hm Unit := do
  ar.release ((e.va.toNat - (← ar.get 0 hPbase)) / 0x20000)

/-- Entries invalidated, their pages released. -/
def dropTm (pasid : BitVec 20) (es : List TmEnt) : Hm Unit := do
  if es.isEmpty then pure ()
  else match ← areaOf pasid with
    | some ar => es.forM (tmRelease ar)
    | none => pure ()

/-- The checks of TMLOAD: the bolt, its SLOG, the slot, its page, the page's entry and its address. -/
structure TmPage where
  ar : Area
  h : Nat
  slog : Nat
  s : Nat
  b : Nat
  e : Nat
  rsv : Nat
  va : Nat

def tmPage (a b : Word) (pasid : BitVec 20) : Hm TmPage := do
  let slot := b.toNat
  let (ar, h) ← needBolt pasid slot a
  let s ← need32 b slot a
  let rsv ← ar.get h bRsv
  needH (decide (s < rsv)) (boltHalt 4 slot a)
  let slog ← ar.get h bSlog
  let p := s / sppOf slog
  let e ← ar.entry h p
  needH (decide ((← ar.get h bFloor) ≤ s) || entPin e) (boltHalt 5 slot a)
  needLanded pasid h
  pure { ar, h, slog, s, b := p, e, rsv, va := ← ar.pageVa (entPage e) }

/-- The strand's translation of the page. -/
def tmTranslate (sid : Nat) (t : Strand) (va : Nat) : Hm Unit := do
  let s ← get
  match translate s (agentOf s sid t) va .load with
  | (.ok _, s) => set s
  | (.fault sub, _) => haltWith (xlateTrap sub (BitVec.ofNat 64 va))
  | (.pri, s) => haltWith (.hold s .gathered none)

/-- The entry a page makes. -/
def tmEntry (p : TmPage) (lock : Bool) : TmEnt :=
  let spp := sppOf p.slog
  { handle := BitVec.ofNat 24 p.h, slog := p.slog, base := BitVec.ofNat 32 (p.b * spp), va := BitVec.ofNat 64 p.va,
    limit := if entCow p.e then entCowlim p.e else Nat.min spp (p.rsv - p.b * spp), lock }

/-- The entry a load replaces: that of the same page, or none while there is room, or the least recently used unlocked
one; nothing when every entry is locked. -/
def tmVictim (l : List TmEnt) (e : TmEnt) : Option (Option TmEnt) :=
  match l.find? fun q => q.handle == e.handle && q.base == e.base with
  | some q => some (some q)
  | none => if l.length < 2048 then some none else (l.find? fun q => !q.lock).map some

def tmloadOp (sid : Nat) (t : Strand) (lock : Bool) (a b : Word) (pasid : BitVec 20) : Hm Word := do
  let p ← tmPage a b pasid
  tmTranslate sid t p.va
  let l := tmOf (← get) sid
  let e := tmEntry p lock
  match tmVictim l e with
  | none => haltWith (boltHalt 8 b.toNat a)
  | some v =>
    p.ar.reference (entPage p.e)
    match v with
    | none => modify fun s => s.setTm sid (l ++ [e])
    | some q =>
      let same := q.handle == e.handle && q.base == e.base
      tmRelease p.ar q
      modify fun s => s.setTm sid (l.erase q ++ [{ e with lock := lock || (same && q.lock) }])
    pure (BitVec.ofNat 64 p.va)

def execTmload (f : FormQ) (s : State) : Answer :=
  execHome (.tmload f) { opc := 0x290, useB := true } f
    (fun s t => tmloadOp s.sid t (f.aux == 1) (t.xa f.a) (t.xa f.b) (s.pasidOf s.sid)) s

/-- The bit rules of a handle and a slot operand (13 R371). -/
def tmOperands (useSlot : Bool) (a b : Word) : Res Unit := do
  let slot := if useSlot then b.toNat else 0
  need (decide (a.toNat < 2 ^ 24)) (boltHalt 2 slot a)
  need (!useSlot || decide (b.toNat < 2 ^ 32)) (boltHalt 3 slot a)

def tmMiss (a b : Word) : Halt := .trap 0x08 1 (boltVal b.toNat a.toNat)

/-- The area check of an instruction performed at the tile. -/
def tileArea (s : State) (slot : Nat) (a : Word) : Res State := do
  let r ← runHm (s.pasidOf s.sid) .sequence s.sid (needArea (s.pasidOf s.sid) slot a) s
  .ok r.2

/-- BADDR on a tile. Of two entries that cover the slot, it hits the one least recently used: DESIGN CHOICE (log 113). -/
def baddrTile (f : FormQ) : Body := withFocus fun s t => do
  noMarks t [f.a, f.b]
  let a := t.xa f.a
  let b := t.xa f.b
  let s ← tileArea s b.toNat a
  tmOperands true a b
  let l := tmOf s s.sid
  match l.find? fun e => e.hits a.toNat b.toNat with
  | none => .error (tmMiss a b)
  | some e =>
    let va := e.va + BitVec.ofNat 64 ((b.toNat - e.base.toNat) * 2 ^ e.slog)
    .ok ((s.setTm s.sid (touchTm l (· == e))).updStrand s.sid fun t => t.putD f.d va)

/-- BADDR on the headstock: TMLOAD's checks and its address. -/
def baddrHeadOp (sid : Nat) (t : Strand) (a b : Word) (pasid : BitVec 20) : Hm Word := do
  let p ← tmPage a b pasid
  tmTranslate sid t p.va
  pure (BitVec.ofNat 64 (p.va + p.s % sppOf p.slog * 2 ^ p.slog))

def execBaddr (f : FormQ) (s : State) : Answer :=
  issue (.baddr f) .normal anyLevel (fun s =>
    if isHead s.sid then homeBody { opc := 0x289, useB := true } f
      (fun s t => baddrHeadOp s.sid t (t.xa f.a) (t.xa f.b) (s.pasidOf s.sid)) s
    else baddrTile f s) s

/-- TMLOCK, TMUNLK: LOCK of the entry that is hit. -/
def tmLockBody (f : FormQ) (lock : Bool) : Body := withFocus fun s t => do
  noMarks t [f.a, f.b]
  let a := t.xa f.a
  let b := t.xa f.b
  let s ← tileArea s b.toNat a
  tmOperands true a b
  let l := tmOf s s.sid
  match l.find? fun e => e.hits a.toNat b.toNat with
  | none => if lock then .error (tmMiss a b) else .ok s
  | some e => .ok (s.setTm s.sid (l.erase e ++ [{ e with lock }]))

def execTmlock (f : FormQ) (s : State) : Answer := issue (.tmlock f) .normal anyLevel (tmLockBody f true) s
def execTmunlk (f : FormQ) (s : State) : Answer := issue (.tmunlk f) .normal anyLevel (tmLockBody f false) s

/-- The entries TMINV names. -/
def tmNamed (aux : BitVec 4) (a b : Word) (e : TmEnt) : Bool :=
  if aux = 0 then e.hits a.toNat b.toNat else if aux = 1 then e.handle.toNat == a.toNat else true

def tminvBody (f : FormQ) : Body := withFocus fun s t => do
  noMarks t ((if f.aux = 2 then [] else [f.a]) ++ if f.aux = 0 then [f.b] else [])
  match t.home with
  | .on _ _ _ => .error (stall .gathered)
  | _ =>
    let a : Word := if f.aux = 2 then 0 else t.xa f.a
    let b := t.xa f.b
    let s ← tileArea s (if f.aux = 0 then b.toNat else 0) a
    if f.aux ≠ 2 then tmOperands (f.aux == 0) a b
    let l := tmOf s s.sid
    let pasid := s.pasidOf s.sid
    let r ← runHm pasid .sequence s.sid (dropTm pasid (l.filter (tmNamed f.aux a b))) s
    .ok (r.2.setTm s.sid (l.filter fun e => !tmNamed f.aux a b e))

def execTminv (f : FormQ) (s : State) : Answer := issue (.tminv f) .normal anyLevel (tminvBody f) s

/-! ### Operations of ended strands (13 R358) -/

/-- A BRSV whose strand has ended: its completion object is gone with the task, its copy is made. -/
def brsvLate (a b : Word) (pasid : BitVec 20) : Hm Word := do
  let (ar, h) ← needBolt pasid 0 a
  let r ← reserve ar h (← needCount b 0 a)
  match r.2.2 with
  | none => pure ()
  | some (src, dst, len) =>
    modify fun s =>
      let c : Cow := { pasid, handle := h, src, dst, len, sid := 0, task := (0, 0), slot := some (0, 0), first := r.2.1, landed := none, wait := .none }
      { s with cows := FMap.set s.cows s.own c }
  pure 0

/-- The operation itself; its response is discarded. -/
def LateOp.run (o : LateOp) : Hm Word := match o.opc.toNat with
  | 0x280 => bnewOp o.b o.pasid
  | 0x281 => brsvLate o.a o.b o.pasid
  | 0x282 => closeOp none o.a o.b o.c o.pasid
  | 0x283 => closeOp (some 192) o.a o.b o.c o.pasid
  | 0x286 => bforkOp o.a o.b o.pasid
  | 0x287 => bholdOp o.a o.pasid
  | 0x288 => brelOp o.a o.pasid
  | 0x28B => bretireOp o.a o.b o.pasid
  | _ => if o.aux = 0 then pinOp o.a o.b o.pasid else unpinOp o.a o.b o.pasid

/-- What becomes of an operation that tries again: it is performed or raises its cause, which nobody takes; or it waits on
a fault; or in its bolt's order. -/
def State.runLate (s : State) (o : LateOp) : State × Option LateOp :=
  match o.run s with
  | .ok r => (r.2, none)
  | .error (.halt (.wait _ _)) => (s, some o)
  | .error (.halt _) => (s, none)
  | .error e => match unitFault s o.pasid .sequence e with
    | some q => (q.2, some { o with wait := q.1 })
    | none => (s, none)

/-- An operation of an ended strand does not wait on a gathered fault, and may go on. -/
def LateOp.ready (s : State) (o : LateOp) : Bool := match o.wait with
  | .on _ _ _ => false
  | _ => (s.runLate o).2 != some o

/-- The first of them that may go on does. -/
def State.moveLate (s : State) : Option State :=
  (s.late.zipIdx.find? fun q => q.1.ready s).map fun q =>
    let r := s.runLate q.1
    { r.1 with late := s.late.take q.2 ++ r.2.toList ++ s.late.drop (q.2 + 1) }

end Sys2Proof.Machine
end

