-- ==== Sys2Proof/Machine/Kerf.lean ====
section
/-! DEFINITION. Kerf blocks (07 R240 to R243): the code of 4,096 source bytes and its decoding, on lists of bytes. -/

namespace Sys2Proof.Machine

/-- The fields of a block's header, from its first 32 bytes as one number (07 R240). -/
structure KerfHead where
  spill : Nat
  reserved : Nat
  dsize : Nat
  esize : Nat
  bmode : Nat
  len : Nat
  map : Nat
  deriving DecidableEq, Repr

def kerfHead (h : Nat) : KerfHead :=
  { spill := h / 2 ^ 192 % 2 ^ 64, reserved := h / 2 ^ 150 % 2 ^ 42, dsize := h / 2 ^ 148 % 4, esize := h / 2 ^ 146 % 4,
    bmode := h / 2 ^ 144 % 4, len := h / 2 ^ 128 % 2 ^ 16, map := h % 2 ^ 128 }

def KerfHead.word (k : KerfHead) : Nat :=
  k.map + k.len * 2 ^ 128 + k.bmode * 2 ^ 144 + k.esize * 2 ^ 146 + k.dsize * 2 ^ 148 + k.reserved * 2 ^ 150 + k.spill * 2 ^ 192

/-- Bytes of the packed deltas of a DELTA chunk (07 R241). -/
def deltaBytes (e k : Nat) : Nat := ((64 / e - 1) * k + 7) / 8

/-- A field of `k` bits as a signed number. -/
def signedField (k v : Nat) : Int := if 2 ^ (k - 1) ≤ v then (v : Int) - (2 ^ k : Nat) else v

/-- One chunk decoded: its 64 bytes and the rest of the payload. -/
def kerfChunk (e mode : Nat) (p : List Byte) : Option (List Byte × List Byte) :=
  match mode with
  | 0 => some (List.replicate 64 0, p)
  | 1 => if p.length < e then none else some ((List.replicate (64 / e) (p.take e)).flatten, p.drop e)
  | 2 =>
    let k := (p.headD 0).toNat
    let size := 1 + e + deltaBytes e k
    if k = 0 ∨ 8 * e - 1 < k ∨ p.length < size then none
    else
      let x0 := leNat ((p.drop 1).take e)
      let ds := leNat ((p.drop (1 + e)).take (deltaBytes e k))
      let el (i : Nat) : Nat :=
        if i = 0 then x0 else wrapInt (8 * e) ((x0 : Int) + signedField k (ds / 2 ^ ((i - 1) * k) % 2 ^ k))
      some ((List.range (64 / e)).flatMap fun i => leBytes e (el i), p.drop size)
  | _ => if p.length < 64 then none else some (p.take 64, p.drop 64)

/-- The chunks from number `c` on. -/
def kerfChunks (e map : Nat) : Nat → Nat → List Byte → Option (List Byte × List Byte)
  | 0, _, p => some ([], p)
  | fuel + 1, c, p =>
    match kerfChunk e (map / 4 ^ c % 4) p with
    | none => none
    | some r =>
      match kerfChunks e map fuel (c + 1) r.2 with
      | none => none
      | some q => some (r.1 ++ q.1, q.2)

/-- What a block's slot holds. -/
inductive KerfBlock | malformed | coded (len : Nat) (bytes : List Byte) | spilled (addr : Nat)
  deriving DecidableEq, Repr

/-- A block read with element size `e` (coded `esize`) and slot size `d` (coded `dsize`); whether a SPILL lies in
storage of one kind is the caller's check (07 R243). A nonzero SPILL with BMODE 0 is malformed: DESIGN CHOICE (log 107). -/
def kerfRead (esize dsize : Nat) (block : List Byte) : KerfBlock :=
  let h := kerfHead (leNat (takeBytes block 0 32))
  let e := 2 ^ esize
  let d := 1024 * 2 ^ dsize
  if h.reserved ≠ 0 ∨ h.esize ≠ esize ∨ h.dsize ≠ dsize ∨ 2 ≤ h.bmode then .malformed
  else if h.bmode = 1 then
    if h.map ≠ 0 ∨ h.len ≠ 0 ∨ h.spill % 32 ≠ 0 then .malformed else .spilled h.spill
  else if h.spill ≠ 0 ∨ d < 32 + h.len then .malformed
  else match kerfChunks e h.map 64 0 (takeBytes block 32 h.len) with
    | some (bytes, []) => .coded h.len bytes
    | _ => .malformed

/-- The deltas of a chunk's elements. -/
def kerfDeltas (e : Nat) (xs : List Nat) : List Int :=
  (xs.drop 1).map fun (x : Nat) => signedField (8 * e) (wrapInt (8 * e) ((x : Int) - (xs.headD 0 : Nat)))

/-- The smallest K whose signed field holds every delta. -/
def kerfK (e : Nat) (ds : List Int) : Option Nat :=
  ((List.range (8 * e)).drop 1).find? fun k => ds.all fun d => decide (-(2 ^ (k - 1) : Nat) ≤ d) && decide (d < (2 ^ (k - 1) : Nat))

/-- One chunk coded: its mode and payload (07 R242). -/
def kerfCode (e : Nat) (chunk : List Byte) : Nat × List Byte :=
  let xs := (List.range (64 / e)).map fun i => field chunk (e * i) e
  let ds := kerfDeltas e xs
  if chunk.all (· == 0) then (0, [])
  else if xs.all (· == xs.headD 0) then (1, takeBytes chunk 0 e)
  else match kerfK e ds with
    | some k =>
      if 1 + e + deltaBytes e k < 64 then
        let packed := ds.foldr (fun d acc => wrapInt k d + 2 ^ k * acc) 0
        (2, BitVec.ofNat 8 k :: takeBytes chunk 0 e ++ leBytes (deltaBytes e k) packed)
      else (3, chunk)
    | none => (3, chunk)

/-- The slot's bytes for a coded block, when they fit (07 R242). -/
def kerfWrite (esize dsize : Nat) (src : List Byte) : Option (List Byte) :=
  let cs := (List.range 64).map fun c => kerfCode (2 ^ esize) (takeBytes src (64 * c) 64)
  let payload := cs.flatMap (·.2)
  let d := 1024 * 2 ^ dsize
  if d < 32 + payload.length then none
  else
    let h : KerfHead := { spill := 0, reserved := 0, dsize, esize, bmode := 0, len := payload.length,
                          map := cs.foldr (fun c acc => c.1 + 4 * acc) 0 }
    some (takeBytes (leBytes 32 h.word ++ payload) 0 d)

/-- The slot's bytes for a spilled block. -/
def kerfSpill (esize dsize addr : Nat) : List Byte :=
  let h : KerfHead := { spill := addr, reserved := 0, dsize, esize, bmode := 1, len := 0, map := 0 }
  takeBytes (leBytes 32 h.word) 0 (1024 * 2 ^ dsize)

end Sys2Proof.Machine
end

