-- ==== Sys2Proof/Machine/Copy.lean ====
section
/-! DEFINITION. The copy engine's work, one unit at a time (11 R321, 12 R325 to R333): a segment of bytes, a row, an
element, a block. -/

namespace Sys2Proof.Machine

/-! ### Accesses of an engine -/

/-- An engine's accesses for a command: its tile, engine, issuing strand, agent, and the fault it waits on. -/
structure EngCtx where
  tile : Nat
  e : Engine
  sid : Nat
  agent : Agent
  wait : FaultWait
  deriving DecidableEq, Repr

def engCtx (s : State) (tile : Nat) (e : Engine) (c : Cmd) : EngCtx :=
  let sid := 8 * tile + c.issuer
  { tile, e, sid, agent := { tile, sid := some sid, pasid := s.pasidOf sid, user := c.user }, wait := c.waiting }

/-- Why a unit does not complete: it waits for a pair, or the command fails with a subcode and value (11 R309). -/
inductive EngHalt
  | wait (w : FaultWait) (s : State)
  | fail (sub : BitVec 8) (val : Nat) (s : State)
  deriving DecidableEq, Repr

abbrev Eng (α : Type) := Except EngHalt α

def faultAgentOf : Engine → FaultAgent
  | .ce => .copy
  | .me => .matrix

/-- The subcode of an access that its issue checks would have refused (16 R430). -/
def refusedSub (a : Nat) : BitVec 8 := if isSpad a then 0x03 else 0x04

/-- Writes and reads of the collective aperture: only whole flits, and only by commands that may (20 R492). -/
def apertureReach (x : EngCtx) (s : State) (flits : Bool) (p : Part) : Eng State :=
  let off := p.loc % 2 ^ 40
  if !flits || off % 64 != 0 || p.len % 64 != 0 then .error (.fail 0x04 p.va s)
  else if (p.loc - deviceBase) / 2 ^ 40 ≠ s.out.devNum then .ok s
  else match aperture s x.agent.pasid x.agent.user off p.len with
    | (.ok _, s) => .ok s
    | (.error sub, s) =>
      if !gathers sub then .error (.fail 0x04 p.va s)
      else .error (.wait (.on (x.agent.pasid, pageOf p.va) sub p.va) (s.gather x.agent.pasid p.va sub (faultAgentOf x.e)))

def apertureAll (x : EngCtx) (flits : Bool) : List Part → State → Eng State
  | [], s => .ok s
  | p :: ps, s =>
    if p.aperture then
      match apertureReach x s flits p with
      | .ok s => apertureAll x flits ps s
      | .error h => .error h
    else apertureAll x flits ps s

/-- The parts of an engine's access (07 R237). -/
def reach (x : EngCtx) (s : State) (acc : Acc) (flits : Bool) (va len : Nat) : Eng (List Part × State) :=
  match unitReach s x.agent (faultAgentOf x.e) x.wait acc (va % 2 ^ 64) len with
  | (.wait w, s) => .error (.wait w s)
  | (.fail sub at_, s) => .error (.fail (if gathers sub then 0x10 else refusedSub at_) at_ s)
  | (.ok ps, s) =>
    match ps.find? (·.space = .port) with
    | some p => .error (.fail 0x03 p.va s)
    | none => match apertureAll x (flits && acc == .store) ps s with
      | .ok s => .ok (ps, s)
      | .error h => .error h

/-- A byte as an engine carries it, with its sector's poison (07 R231). -/
abbrev PByte := Byte × Bool

/-- Lines of the tile's L1 written back, and dropped when the command writes them (08 R265, R266). -/
def syncLines (s : State) (tile : Nat) (write : Bool) (p : Part) : State :=
  (keysOf p.loc p.len).foldl (fun s k => if write then s.flushLine tile k else s.writeBackLine tile k) s

def poisonFlags (s : State) (p : Part) : List Bool := (List.range p.len).map fun k => isPoisoned s.poison (p.loc + k) 1

/-- Bytes that leave or enter the cluster for a command (05 R162). -/
def movedPart (s : State) (tile : Nat) (p : Part) : State :=
  if p.space == .general || p.space == .fabric then s.countMoved tile p.len else s

/-- The bytes of parts as the engine reads them. -/
def engRead (x : EngCtx) : List Part → State → List PByte × State
  | [], s => ([], s)
  | p :: ps, s =>
    let s := movedPart (syncLines s x.tile false p) x.tile p
    let r := if p.space = .spad then s.spadRead x.tile x.sid 3 p (some x.e)
             else ({ bytes := s.readLoc p.loc p.len, bad := false, missed := false : Got }, s)
    let q := engRead x ps r.2
    (r.1.bytes.zip (poisonFlags s p) ++ q.1, q.2)

/-- A part cut at the boundaries of 32-byte sectors. -/
def sectorCuts (p : Part) : Nat → List Part
  | 0 => []
  | fuel + 1 =>
    let n := 32 - p.loc % 32
    if p.len ≤ n then (if p.len = 0 then [] else [p])
    else { p with len := n } :: sectorCuts { p with va := p.va + n, loc := p.loc + n, len := p.len - n } fuel

/-- One part written, sector by sector. -/
def writeSectors (x : EngCtx) : List Part → List PByte → State → State
  | [], _, s => s
  | p :: ps, bs, s =>
    let here := bs.take p.len
    let bad := here.any (·.2)
    let data := here.map (·.1)
    let s := if p.space = .spad then s.spadWrite x.tile x.sid 3 p data bad (some x.e) else s.writeLoc p.loc data bad
    writeSectors x ps (bs.drop p.len) s

/-- Bytes written by the engine, in order over the parts. -/
def engWrite (x : EngCtx) : List Part → List PByte → State → State
  | [], _, s => s
  | p :: ps, bs, s =>
    let here := bs.take p.len
    let s := movedPart (syncLines s x.tile true p) x.tile p
    let s :=
      if p.aperture && (p.loc - deviceBase) / 2 ^ 40 == s.out.devNum then
        landBytes s x.agent.pasid x.agent.user (p.len / 64 + 1) (p.loc % 2 ^ 40) (here.map (·.1)) (here.any (·.2))
      else writeSectors x (sectorCuts p (p.len / 32 + 2)) here s
    engWrite x ps (bs.drop p.len) ((s.sendStore x.tile p).roused x.tile p.loc p.len)

/-- A read of `len` bytes at an address. -/
def readAt (x : EngCtx) (s : State) (va len : Nat) : Eng (List PByte × State) := do
  let r ← reach x s .load false va len
  .ok (engRead x r.1 r.2)

/-! ### Units -/

/-- What one unit leaves: the state, the index after it, an error that does not stop the command, the spill slots
taken. -/
structure UnitDone where
  s : State
  next : Nat
  err : Option (BitVec 8 × Word)
  spills : Option Nat
  deriving DecidableEq, Repr

def plainUnit (c : Cmd) (next : Nat) (s : State) : UnitDone := { s, next, err := none, spills := c.spills }

/-- What a unit meets that waits: it waits with nothing done, but for what gathering left. -/
def waitWhole {α : Type} (s : State) (r : Eng α) : Eng α := match r with
  | .error (.wait w s2) => .error (.wait w { s with faults := s2.faults, out := s2.out })
  | r => r

/-- An address that begins a 4-byte word. -/
def wordly (a : Nat) : Bool := a % 4 == 0

/-- Where the unit ends that begins at a byte of a linear copy or fill: where the 2 KiB of its destination end, so that
each aligned word is written once (08 R245). -/
def segmentEnd (len dst index : Nat) : Nat := Nat.min len (index + (2048 - (dst + index) % 2048))

/-- CP, CPMM's copy: bytes up to the end of the 2 KiB segment of the destination (12 R328). Where the words of the source lie
across those of the destination, the whole copy is one unit: each aligned word is read once (08 R269). -/
def unitCp (x : EngCtx) (c : Cmd) (s : State) : Eng UnitDone := do
  let len := parLo c.params 2
  let stop := if wordly (par c.params 0 + 3 * par c.params 1) then segmentEnd len (par c.params 0) c.index else len
  let n := stop - c.index
  let d ← readAt x s (par c.params 1 + c.index) n
  let w ← reach x d.2 .store true (par c.params 0 + c.index) n
  .ok (plainUnit c stop (engWrite x w.1 d.1 w.2))

/-- CPFILL (12 R328). -/
def unitFill (x : EngCtx) (c : Cmd) (s : State) : Eng UnitDone := do
  let stop := segmentEnd (parLo c.params 2) (par c.params 0) c.index
  let n := stop - c.index
  let w := 2 ^ c.aux.toNat
  let bytes : List PByte := (List.range n).map fun k => ((leBytes 8 (par c.params 1)).getD ((c.index + k) % w) 0, false)
  let p ← reach x s .store false (par c.params 0 + c.index) n
  .ok (plainUnit c stop (engWrite x p.1 bytes p.2))

/-- The address of row `r` (12 R329). -/
def rowAt (base : Nat) (stride : Int) (r : Nat) : Nat := wrapInt 64 ((base : Int) + stride * r)

/-- The rows or elements of one unit, done in order: one of them, where each has the aligned words it touches to itself, and
otherwise all that are left, so that no word is seen half written (08 R245, R269). -/
def unitItems (c : Cmd) (alone : Bool) (count : Nat) (item : Nat → State → Eng State) (s : State) : Eng UnitDone :=
  let stop := if alone then c.index + 1 else count
  match waitWhole s ((List.range (stop - c.index)).foldlM (fun s j => item (c.index + j) s) s) with
  | .ok s => .ok (plainUnit c stop s)
  | .error h => .error h

/-- CP2D: row `r`. -/
def copyRow (x : EngCtx) (c : Cmd) (r : Nat) (s : State) : Eng State := do
  let n := parLo c.params 4
  let d ← readAt x s (rowAt (par c.params 2) (signedPar c.params 3) r) n
  let w ← reach x d.2 .store true (rowAt (par c.params 0) (signedPar c.params 1) r) n
  .ok (engWrite x w.1 d.1 w.2)

def unitRow (x : EngCtx) (c : Cmd) (s : State) : Eng UnitDone :=
  unitItems c ((List.range 4).all fun j => wordly (par c.params j)) (parHi c.params 4) (copyRow x c) s

/-- The element's bytes keep the kind of the base address and its limits (12 R330). -/
def elementOk (s : State) (tile base a n : Nat) : Bool :=
  (kindAt a).1 == (kindAt base).1 && (rangeFaults s tile a n).isEmpty

/-- CPG and CPS: element `k`. -/
def copyElement (x : EngCtx) (c : Cmd) (k : Nat) (s : State) : Eng State := do
  let e := 2 ^ c.aux.toNat
  let gather := c.opc == 0x202
  let word := par c.params 2 + 4 * k
  let j ← readAt x s word 4
  if j.1.any (·.2) then .error (.fail 0x11 word j.2)
  let at_ := leNat (j.1.map (·.1)) * e
  let base := if gather then par c.params 1 else par c.params 0
  let a := (base + at_) % 2 ^ 64
  if elementOk j.2 x.tile base a e then .ok () else .error (.fail 0x10 a j.2)
  let flat := (if gather then par c.params 0 else par c.params 1) + k * e
  let d ← readAt x j.2 (if gather then a else flat) e
  let w ← reach x d.2 .store (!gather) (if gather then flat else a) e
  .ok (engWrite x w.1 d.1 w.2)

def unitElement (x : EngCtx) (c : Cmd) (s : State) : Eng UnitDone :=
  unitItems c (decide (2 ≤ c.aux.toNat) && wordly (par c.params 0) && wordly (par c.params 1)) (parLo c.params 3) (copyElement x c) s

/-- A SPILL address names storage that can hold the raw copy (07 R243). -/
def spillOk (s : State) (tile a : Nat) : Bool :=
  ((kindAt a).1 == .general || isWin a) && (rangeFaults s tile a 4096).isEmpty

/-- CPX: one block expanded (07 R243, 12 R331). DESIGN CHOICE (log 101): the payload of a malformed block has no extent, and
only the poison of its header poisons the zeros written for it. -/
def unitExpand (x : EngCtx) (c : Cmd) (s : State) : Eng UnitDone := do
  let d := kerfD c.aux
  let src := par c.params 1 + c.index * d
  let b ← readAt x s src d
  let bytes := b.1.map (·.1)
  let poisoned (n : Nat) : Bool := (b.1.take n).any (·.2)
  let zeros : List PByte := List.replicate 4096 (0, poisoned 32)
  let put (data : List PByte) (err : Option (BitVec 8 × Word)) (s : State) : Eng UnitDone := do
    let w ← reach x s .store false (par c.params 0 + c.index * 4096) 4096
    .ok { s := engWrite x w.1 data w.2, next := c.index + 1, err, spills := c.spills }
  let kerf : Option (BitVec 8 × Word) := some (0x12, BitVec.ofNat 64 src)
  match kerfRead (c.aux.toNat / 4) (c.aux.toNat % 4) bytes with
  | .malformed => put zeros kerf b.2
  | .coded len data => put (data.map fun q => (q, poisoned (32 + len))) none b.2
  | .spilled a =>
    if spillOk b.2 x.tile a then do
      let raw ← readAt x b.2 a 4096
      put (raw.1.map fun q => (q.1, q.2 || poisoned 32)) none raw.2
    else put zeros kerf b.2

/-- Slots of the spill buffer a CPZ has taken: a resumed one reads the headers of the blocks before its index. -/
def countSpills (x : EngCtx) (c : Cmd) (s : State) : Eng (Nat × State) :=
  match c.spills with
  | some n => .ok (n, s)
  | none => (List.range c.index).foldlM (fun acc k => do
      let h ← readAt x acc.2 (par c.params 0 + k * kerfD c.aux) 32
      .ok (acc.1 + (if (kerfHead (leNat (h.1.map (·.1)))).bmode = 1 then 1 else 0), h.2)) (0, s)

/-- CPZ: one block compressed, or spilled to the next slot of the buffer (12 R331, 07 R242). -/
def unitCompress (x : EngCtx) (c : Cmd) (s : State) : Eng UnitDone := do
  let d := kerfD c.aux
  let es := c.aux.toNat / 4
  let ds := c.aux.toNat % 4
  let src ← readAt x s (par c.params 1 + c.index * 4096) 4096
  let slot := par c.params 0 + c.index * d
  let clean (l : List Byte) : List PByte := l.map (·, false)
  let coded := if src.1.any (·.2) then none else kerfWrite es ds (src.1.map (·.1))
  match coded with
  | some b =>
    let w ← reach x src.2 .store false slot d
    .ok (plainUnit c (c.index + 1) (engWrite x w.1 (clean b) w.2))
  | none =>
    let taken ← countSpills x c src.2
    let a := (par c.params 3 + 4096 * taken.1) % 2 ^ 64
    if spillOk taken.2 x.tile a then .ok () else .error (.fail 0x10 a taken.2)
    let r ← reach x taken.2 .store false a 4096
    let w ← reach x r.2 .store false slot d
    let s := engWrite x w.1 (clean (kerfSpill es ds a)) (engWrite x r.1 src.1 w.2)
    .ok { s, next := c.index + 1, err := none, spills := some (taken.1 + 1) }

/-! CPCOMB (12 R332) -/

/-- Comb of two codes. -/
def combCode (ty : Ty) (maximum : Bool) (old new : Nat) : Nat :=
  if maximum then maxCodeOf ty false old new
  else if Ty.isFloat ty then
    let F := Ty.fmt ty
    F.encode ((F.value old).add (F.value new) .rne)
  else Ty.fit ty false (Ty.toInt ty old + Ty.toInt ty new)

/-- The part of an access that holds its byte `o`, cut to `n` bytes from there. -/
def partFrom : List Part → Nat → Nat → Option Part
  | [], _, _ => none
  | p :: ps, o, n => if o < p.len then some { p with va := p.va + o, loc := p.loc + o, len := n } else partFrom ps (o - p.len) n

/-- One element combined in one step: poison on either side leaves the destination poisoned and unchanged. -/
def combElement (x : EngCtx) (ty : Ty) (maximum : Bool) (dst src : List Part) (k : Nat) (s : State) : State :=
  let w := Ty.bytes ty
  match partFrom dst (k * w) w, partFrom src (k * w) w with
  | some p, some q =>
    let n := engRead x [q] s
    let o := engRead x [p] n.2
    if (n.1 ++ o.1).any (·.2) then { o.2 with poison := poisonAfter o.2.poison p.loc w true }
    else
      let v := combCode ty maximum (leNat (o.1.map (·.1))) (leNat (n.1.map (·.1)))
      engWrite x [p] ((leBytes w v).map (·, false)) o.2
  | _, _ => s

/-- CPCOMB: one segment. -/
def unitComb (x : EngCtx) (c : Cmd) (s : State) : Eng UnitDone := do
  let o := c.index * 2048
  let n := Nat.min (parLo c.params 2 - o) 2048
  let d ← reach x s .atomic false (par c.params 0 + o) n
  let r ← reach x d.2 .load false (par c.params 1 + o) n
  let s := (List.range (n / Ty.bytes c.ty)).foldl
    (fun s k => combElement x c.ty (c.aux == 1) d.1 r.1 k s) r.2
  .ok (plainUnit c (c.index + 1) s)

/-- One unit of a copy command. -/
def copyUnit (x : EngCtx) (c : Cmd) (s : State) : Eng UnitDone :=
  match c.opc.toNat with
  | 0x201 => unitRow x c s
  | 0x202 | 0x203 => unitElement x c s
  | 0x204 => unitExpand x c s
  | 0x205 => unitCompress x c s
  | 0x207 => unitFill x c s
  | 0x208 => unitComb x c s
  | _ => unitCp x c s

/-! ### A command's progress -/

/-- An error recorded: the first one stays. -/
def Cmd.note (c : Cmd) (err : Option (BitVec 8 × Word)) : Cmd :=
  { c with error := match c.error with
      | some e => some e
      | none => err }

/-- The command stops at an error. -/
def Cmd.fail (c : Cmd) (sub : BitVec 8) (val : Nat) : Cmd :=
  { (c.note (some (sub, BitVec.ofNat 64 val))) with phase := 2, waiting := .none }

/-- What a unit's outcome makes of the command, and of the machine. -/
def unitOutcome (c : Cmd) (r : Eng UnitDone) : State × Cmd :=
  match r with
  | .ok u => (u.s, { (c.note u.err) with index := u.next, spills := u.spills, waiting := .none })
  | .error (.wait w s) => (s, { c with waiting := w })
  | .error (.fail sub val s) => (s, c.fail sub val)

/-- A command's next unit. One whose gathered fault was resolved as failed ends with the fault's address, whatever its
page is by now (11 R309, 16 R433). -/
def Cmd.advance (s : State) (c : Cmd) (r : Eng UnitDone) : State × Cmd := match c.waiting with
  | .failed _ va => (s, c.fail 0x10 va)
  | _ => unitOutcome c r

def FaultWait.waits : FaultWait → Bool
  | .on _ _ _ => true
  | _ => false

/-- The tile's throttle level opens its engines in an array cycle, of which the control cycle counts two (05 R166;
00 R4): the array cycle that this control cycle belongs to (log 87). -/
def engineOpen (s : State) (tile : Nat) : Bool := decide (s.cycle / 2 % 8 < 8 - (s.tile tile).throttle)

/-- The head command of a queue has a unit to do, and its engine has not stopped. -/
def unitsLeft (k : Task) (e : Engine) (c : Cmd) : Bool :=
  c.phase == 1 && !c.waiting.waits && decide (c.index < c.units e) &&
    (match e with
      | .ce => k.engStop % 2 == 0
      | .me => k.engStop / 2 % 2 == 0)

/-- The head command of a queue may do its next unit now. -/
def canMove (s : State) (tile : Nat) (k : Task) (e : Engine) (c : Cmd) : Bool := unitsLeft k e c && engineOpen s tile

/-- The copy engine performs the next unit of its running command. -/
def State.moveCe (s : State) (tile : Nat) : State :=
  match s.task? tile with
  | none => s
  | some k => match k.ceq with
    | [] => s
    | c :: _ =>
      if canMove s tile k .ce c then
        let r := c.advance s (copyUnit (engCtx s tile .ce c) c s)
        r.1.updTask tile fun k => { k with ceq := r.2 :: k.ceq.drop 1 }
      else s

end Sys2Proof.Machine
end

