-- ==== Sys2Proof/Machine/Matrix.lean ====
section
/-! DEFINITION. The matrix engine (12 R334 to R341, 11 R311, R312), and the start and completion of commands of both
engines (11 R298, R302, R303, R310). -/

namespace Sys2Proof.Machine

/-! ### Accumulator storage (07 R215, 11 R306): key 4096 T + 64 i + j, unlisted (+0, +0) -/

def accKey (tile row col : Nat) : Nat := 4096 * tile + 64 * row + col

def accPair (acc : FMap (BitVec 64)) (k : Nat) : BitVec 64 := (FMap.get? acc k).getD 0

/-- `n` pairs from key `k` on, of a map with no key below `k`. -/
def expandAcc : Nat → Nat → FMap (BitVec 64) → List (BitVec 64)
  | 0, _, _ => []
  | n + 1, k, [] => 0 :: expandAcc n (k + 1) []
  | n + 1, k, (a, v) :: m => if a = k then v :: expandAcc n (k + 1) m else 0 :: expandAcc n (k + 1) ((a, v) :: m)

def accRange (acc : FMap (BitVec 64)) (k n : Nat) : List (BitVec 64) := expandAcc n k (acc.filter fun q => decide (k ≤ q.1))

/-- The pairs from key `k` on replaced; a pair (+0, +0) is not listed. -/
def setAccRange (acc : FMap (BitVec 64)) (k n : Nat) (vals : List (BitVec 64)) : FMap (BitVec 64) :=
  (acc.filter fun q => decide (q.1 < k)) ++
    ((vals.zipIdx.filter fun q => q.1 != 0).map fun q => (k + q.2, q.1)) ++ acc.filter fun q => decide (k + n ≤ q.1)

/-! ### Panels (12 R336) -/

/-- Operand ranges of panel `p` in memory or scratchpad: A, then B; a QC4 B is a block's codes and the scales of 64
super-blocks. -/
def panelA (c : Cmd) (p : Nat) : Nat × Nat := (matA c.params + p * pitchA c.fmt, packedA c.fmt)

def isQc4 (c : Cmd) : Bool := bits c.fmt 4 4 == 0xC

def superAt (c : Cmd) (p j : Nat) : Nat := matB c.opc c.params + p / 16 * pitchB c.fmt + 288 * j

def panelB (c : Cmd) (p : Nat) : List (Nat × Nat) :=
  if isQc4 c then
    (List.range 64).flatMap fun j => [(superAt c p j + 16 * (p % 16), 16), (superAt c p j + 256, 32)]
  else [(matB c.opc c.params + p * pitchB c.fmt, 1024)]

/-- Lines that the tile fetch unit reads for panel `p` (11 R311). -/
def panelLines (c : Cmd) (p : Nat) : List Nat :=
  ((if fmtAmem c.fmt then [panelA c p] else []) ++ panelB c p).flatMap fun r => keysOf r.1 r.2

/-- The operand lines that have not arrived for the panel a command is at. -/
def missingLines (k : Task) (c : Cmd) : List Nat :=
  (panelLines c c.index).filter fun l => !k.oplines.contains (c.order, l)

/-- The running matrix command may take an operand line. -/
def lineWanted (k : Task) (c : Cmd) : Bool := unitsLeft k .me c && c.opc != 0x213 && !c.waiting.isFailed

/-- An operand line arrives and is pinned or buffered; a fault is gathered, and the command waits at the line. -/
def State.bringLine (s : State) (tile line : Nat) : State :=
  match s.task? tile with
  | none => s
  | some k => match k.meq with
    | [] => s
    | c :: rest =>
      if lineWanted k c && (missingLines k c).contains line then
        match reach (engCtx s tile .me c) s .load false (128 * line) 128 with
        | .ok r => r.2.updTask tile fun k => { k with oplines := k.oplines ++ [(c.order, line)], meq := { c with waiting := .none } :: rest }
        | .error (.wait w s) => s.updTask tile fun k => { k with meq := { c with waiting := w } :: rest }
        | .error (.fail sub val s) => s.updTask tile fun k =>
            { k with meq := c.fail sub val :: rest }
      else s

def execOperandLineArrive (tile line : Nat) (s : State) : Answer := .next (s.bringLine tile line)

/-- Several ranges read, one after the other. -/
def readRanges (x : EngCtx) : List (Nat × Nat) → State → Eng (List PByte × State)
  | [], s => .ok ([], s)
  | r :: rs, s => do
    let a ← readAt x s r.1 r.2
    let b ← readRanges x rs a.2
    .ok (a.1 ++ b.1, b.2)

/-- The address of the first poisoned byte of ranges read in order. -/
def poisonAt : List (Nat × Nat) → List PByte → Option Nat
  | [], _ => none
  | r :: rs, bs =>
    match (bs.take r.2).findIdx? (·.2) with
    | some k => some (r.1 + k)
    | none => poisonAt rs (bs.drop r.2)

/-- Elements of `w` bytes. -/
def elements (w n : Nat) (bs : Array Byte) : Array Nat :=
  Array.ofFn fun (k : Fin n) => (List.range w).foldr (fun j acc => (bs.getD (w * k.val + j) 0).toNat + 256 * acc) 0

/-- One product of the cell (04 R128, R130). -/
def cellTerm (ta tb : Ty) (a b : Nat) : FVal :=
  if ta = .s8 then FVal.ofInt (Ty.toInt .s8 a * Ty.toInt .s8 b) 0 false
  else ((Ty.fmt ta).value a).mul ((Ty.fmt tb).value b)

def typeA (fmt : Word) : Ty := Decode.tyOf (BitVec.ofNat 4 (bits fmt 0 4))
def typeB (fmt : Word) : Ty := Decode.tyOf (BitVec.ofNat 4 (bits fmt 4 4))

/-- The value panel bytes give at cell (i, j) (12 R336, R337). -/
def panelValue (c : Cmd) (a b : Array Nat) (i j : Nat) : BitVec 32 :=
  let kc := kcOf c.fmt
  cellValue ((List.range kc).map fun t =>
    cellTerm (typeA c.fmt) (typeB c.fmt) (a.getD (i * kc + t) 0)
      (b.getD (if c.opc = 0x212 then t * 64 + j else j * kc + t) 0))

/-- The value of a QC4 panel: `b` holds, for each column, 16 bytes of codes and the 32 bytes of scales. -/
def panelQc4 (c : Cmd) (a : Array Nat) (b : Array Byte) (j0 i j : Nat) : BitVec 32 :=
  let code (t : Nat) : Nat := (b.getD (48 * j + t / 2) 0).toNat / (if t % 2 = 0 then 1 else 16) % 16
  let tail := leNat ((List.range 32).map fun n => b.getD (48 * j + 16 + n) 0)
  cellQc4 ((List.range 32).map fun t => (qc4LevelVal (code t)).mul ((Ty.fmt (typeA c.fmt)).value (a.getD (i * 32 + t) 0)))
    (tail / 2 ^ (9 * j0) % 512) (BitVec.ofNat 32 (tail / 2 ^ 144))

/-- Every cell folded once (04 R132). -/
def foldPanel (c : Cmd) (a b : List Byte) (old : List (BitVec 64)) : List (BitVec 64) :=
  let ta := typeA c.fmt
  let tb := typeB c.fmt
  let av := elements (Ty.bytes ta) (packedA c.fmt / Ty.bytes ta) a.toArray
  let ba := b.toArray
  let bv := elements (Ty.bytes tb) (1024 / Ty.bytes tb) ba
  old.zipIdx.map fun q =>
    let i := q.2 / 64
    let j := q.2 % 64
    accFold q.1 (if isQc4 c then panelQc4 c av ba (c.index % 16) i j else panelValue c av bv i j)

/-- MM, MMT and the follow-on of CPMM: one panel folded. -/
def unitPanel (x : EngCtx) (c : Cmd) (s : State) : Eng UnitDone := do
  let ra := [panelA c c.index]
  let a ← readRanges x ra s
  let b ← readRanges x (panelB c c.index) a.2
  match poisonAt (ra ++ panelB c c.index) (a.1 ++ b.1) with
  | some at_ => .error (.fail 0x11 at_ b.2)
  | none =>
    let key := accKey (bits (matWord c.opc c.params) 32 16) 0 0
    .ok (plainUnit c (c.index + 1) ((b.2.countFold x.tile).updTask x.tile fun k =>
      { k with acc := setAccRange k.acc key 4096 (foldPanel c (a.1.map (·.1)) (b.1.map (·.1)) (accRange k.acc key 4096)) }))

/-- ACCZ: one row (12 R340). -/
def unitRowZero (x : EngCtx) (c : Cmd) (s : State) : Eng UnitDone :=
  let key := accKey (par c.params 0 % 2 ^ 16 + c.index / 64) (c.index % 64) 0
  .ok (plainUnit c (c.index + 1) (s.updTask x.tile fun k => { k with acc := setAccRange k.acc key 64 [] }))

/-- The matrix engine performs the next unit of its running command, when its operands have arrived. -/
def State.moveMe (s : State) (tile : Nat) : State :=
  match s.task? tile with
  | none => s
  | some k => match k.meq with
    | [] => s
    | c :: _ =>
      if canMove s tile k .me c && (c.opc == 0x213 || (missingLines k c).isEmpty || c.waiting.isFailed) then
        let x := engCtx s tile .me c
        let r := c.advance s (if c.opc = 0x213 then unitRowZero x c s else unitPanel x c s)
        r.1.updTask tile fun k => { k with meq := r.2 :: k.meq.drop 1 }
      else s

/-- 12 R339. -/
def execMePanelFold (tile : Nat) (s : State) : Answer := .next (s.moveMe tile)

/-! ### Start (11 R298, R302, R303, R305) -/

/-- The task's pre-emption has taken effect: it was requested, every running strand has stopped, and none is to be rolled
back first (16 R414, R421; 17 R442). -/
def preempting (s : State) (tile : Nat) (k : Task) : Bool :=
  k.preReq.isSome && (s.running tile).all fun i => match s.strand? i with
    | some t => t.run == .stopped && t.rollback.isNone
    | none => true

def queueOf (k : Task) : Engine → List Cmd
  | .ce => k.ceq
  | .me => k.meq

def putQueue (k : Task) (e : Engine) (q : List Cmd) : Task :=
  match e with
  | .ce => { k with ceq := q }
  | .me => { k with meq := q }

/-- A matrix entry that follows a copy. -/
def followOn (e : Engine) (c : Cmd) : Bool := e == .me && c.opc == 0x206

/-- What the head pops at its start: a follow-on pops nothing. -/
def headPops (e : Engine) (c : Cmd) : List (Fin 6) := if followOn e c then [] else popsOf e c.token

/-- The head command may start. -/
def canStart (s : State) (tile : Nat) (k : Task) (e : Engine) (c : Cmd) : Bool :=
  c.phase == 0 && (!followOn e c || c.copied) && k.engStop == 0 && !preempting s tile k && !checkerHolds s tile k e c &&
    canPop k.fifo (headPops e c)

/-- INIT zeroes the tile before the first fold (12 R337, R338). -/
def startAcc (k : Task) (e : Engine) (c : Cmd) : FMap (BitVec 64) :=
  if e = .me ∧ c.opc ≠ 0x213 ∧ fmtInit c.fmt then
    setAccRange k.acc (accKey (bits (matWord c.opc c.params) 32 16) 0 0) 4096 []
  else k.acc

def State.startCmd (s : State) (tile : Nat) (e : Engine) : State :=
  match s.task? tile with
  | none => s
  | some k => match queueOf k e with
    | [] => s
    | c :: rest =>
      if canStart s tile k e c then
        s.updTask tile fun k =>
          putQueue { k with fifo := popAll k.fifo (headPops e c), acc := startAcc k e c } e ({ c with phase := 1, index := 0 } :: rest)
      else s

def execEngineCommandStart (tile : Nat) (e : Engine) (s : State) : Answer := .next (s.startCmd tile e)

/-! ### Completion (11 R302, R303, R310; 17 R438) -/

/-- The accesses of the head command are done, or it has failed. -/
def headDone (e : Engine) (c : Cmd) : Bool := c.phase == 2 || (c.phase == 1 && decide (c.units e ≤ c.index))

/-- A copy whose follow-on is still to run. -/
def copyHalf (e : Engine) (c : Cmd) : Bool := e == .ce && c.opc == 0x206 && (c.error.isNone)

/-- What the head pushes: a CPMM pushes its own tokens at the end of either part. -/
def headPushes (e : Engine) (c : Cmd) : List (Fin 6) := if followOn e c then pushesOf .ce c.token else pushesOf e c.token

/-- A POISON failure of a command of the strand's current turn rolls an eligible strand back. -/
def poisonRollback (s : State) (sid : Nat) (c : Cmd) : Bool :=
  match s.strand? sid with
  | some t => decide (c.error.map (·.1) = some 0x11) && c.turn == t.turn && !c.disowned && eligible s sid t
  | none => false

/-- The error of a failed command, held for its strand: the first one stays. DESIGN CHOICE (log 111): that of a command whose
strand has ended reaches nobody. -/
def engineReport (e : Engine) (c : Cmd) (t : Strand) : Strand :=
  match (if c.disowned then none else c.error), t.engRep with
  | some q, none =>
    { t with engRep := some { val := q.1 ++ q.2.setWidth 56, engine := some e, both := c.opc == 0x206, issue := c.issue } }
  | _, _ => t

/-- The command leaves its queue, a CPMM both; its slot is complete, or failed. -/
def Task.finish (k : Task) (e : Engine) (c : Cmd) : Task :=
  let drop (q : List Cmd) : List Cmd := if c.opc = 0x206 then q.filter (·.order != c.order) else q
  let k := { (putQueue k e ((queueOf k e).drop 1)) with fifo := pushAll k.fifo (headPushes e c),
                                                        oplines := k.oplines.filter (·.1 != c.order) }
  let k := { k with ceq := drop k.ceq, meq := drop k.meq }
  if c.quiet then k else k.endSlot c.slot c.error.isSome

def State.completeCmd (s : State) (tile : Nat) (e : Engine) : State :=
  match s.task? tile with
  | none => s
  | some k => match queueOf k e with
    | [] => s
    | c :: rest =>
      let sid := 8 * tile + c.issuer
      if !headDone e c then s
      else if poisonRollback s sid c then
        s.updStrand sid fun t => { t with rollback := some (0x0E, 0x11, (c.error.map fun q => q.2.setWidth 56).getD 0) }
      else if k.engStop != 0 then s
      else if copyHalf e c then
        s.updTask tile fun k =>
          { (putQueue k e ({ c with phase := 2 } :: rest)) with
            meq := k.meq.map fun m => if m.order = c.order then { m with copied := true } else m }
      else if canPush k.fifo (headPushes e c) then
        (s.updTask tile fun k => k.finish e c).updStrand sid (engineReport e c)
      else s.updTask tile fun k => putQueue k e ({ c with phase := 2 } :: rest)

def execEngineCommandComplete (tile : Nat) (e : Engine) (s : State) : Answer := .next (s.completeCmd tile e)

/-! ### Accumulator rows of the execute slice (12 R341) -/

def accChecks (k : Task) (w : Word) : Res Unit :=
  if bits w 22 42 ≠ 0 then .error (engineTrap 1 0)
  else need (decide (bits w 0 16 < accTiles k)) (engineTrap 2 (BitVec.ofNat 64 (bits w 0 16)))

/-- The key of a lane's element in the modes that cover two rows, and of a column in mode both. -/
def laneKey (w : Word) (l : Nat) : Nat := accKey (bits w 0 16) (bits w 16 6 / 2 * 2 + l / 64) (l % 64)
def columnKey (w : Word) (j : Nat) : Nat := accKey (bits w 0 16) (bits w 16 6) j

/-- The pairs ACCWR writes. -/
def accWrite (acc : FMap (BitVec 64)) (aux : BitVec 4) (w : Word) (v : VReg) : FMap (BitVec 64) :=
  if aux = 2 then
    setAccRange acc (columnKey w 0) 64 ((List.range 64).map fun j => lane v (2 * j + 1) ++ lane v (2 * j))
  else setAccRange acc (laneKey w 0) 128 ((List.range 128).map fun l => (lane v l).setWidth 64)

/-- What ACCLD reads. -/
def accRead (acc : FMap (BitVec 64)) (aux : BitVec 4) (w : Word) : VReg :=
  if aux = 2 then ofLanes fun l =>
    let p := accPair acc (columnKey w (l / 2))
    if l % 2 = 0 then p.setWidth 32 else p.extractLsb' 32 32
  else ofLanes fun l =>
    let p := accPair acc (laneKey w l)
    if aux = 1 then accSum p else p.setWidth 32

/-- An older acquire of the access slice has not completed (08 R256). -/
def acquireBefore (t : Strand) (q : Nat) : Bool :=
  t.loads.any (fun l => l.acq.isSome && decide (l.seq < q)) || t.atoms.any fun a => a.acq.isSome && decide (a.seq < q)

def execAccwr (f : FormE) (s : State) : Answer :=
  issue (.accwr f) .normal anyLevel (withFocus fun s t => do
    let tile := tileOf s.sid
    frozenMarks t (gateOn t f.gate) [f.b]
    let v ← readVector t f.a
    let w ← readScalar v.rest f.b
    let s := s.setStrand s.sid w.rest
    match s.task? tile with
    | none => .ok s
    | some k =>
      if gateOn t f.gate then do
        noMark [v.mark, w.mark]
        accChecks k w.val
        need (!acquireBefore t (s.number t)) (stall .acquire)
        .ok (s.updTask tile fun k => { k with acc := accWrite k.acc f.aux w.val v.val })
      else .ok s) s

def execAccld (f : FormE) (s : State) : Answer :=
  issue (.accld f) .normal anyLevel (withFocus fun s t => do
    let tile := tileOf s.sid
    frozenMarks t (gateOn t f.gate) [f.a]
    let w ← readScalar t f.a
    let s := s.setStrand s.sid w.rest
    match s.task? tile with
    | none => .ok s
    | some k =>
      if gateOn t f.gate then do
        noMark [w.mark]
        accChecks k w.val
        need (!acquireBefore t (s.number t)) (stall .acquire)
        .ok (s.updStrand s.sid fun t => match f.d with
          | .v n => t.setV n (accRead k.acc f.aux w.val)
          | _ => t)
      else .ok s) s

end Sys2Proof.Machine
end

