-- ==== Sys2Proof/Machine/Journal.lean ====
section
/-! DEFINITION. The host's commands as the journal holds them (20 R476 to R481), and the end of a command: its journal
entry, its completion record, its MSI-X message (20 R475). -/

namespace Sys2Proof.Machine

/-! ### CRC-32C (20 R476) -/

/-- One bit of the CRC, least significant first. -/
def crcBit (c : BitVec 32) : BitVec 32 := if c.getLsbD 0 then (c >>> 1) ^^^ 0x82F63B78 else c >>> 1

def crcByte (c : BitVec 32) (b : Byte) : BitVec 32 := (List.range 8).foldl (fun c _ => crcBit c) (c ^^^ b.setWidth 32)

def crc32c (bs : List Byte) : BitVec 32 := (bs.foldl crcByte 0xFFFFFFFF) ^^^ 0xFFFFFFFF

/-! ### Packets (20 R474) -/

def HostCmd.opc (c : HostCmd) : Nat := field c.packet 0 1
def HostCmd.irq (c : HostCmd) : Bool := field c.packet 1 1 % 2 == 1
def HostCmd.cls (c : HostCmd) : Nat := field c.packet 2 1
def HostCmd.token (c : HostCmd) : Nat := field c.packet 8 8
def HostCmd.arg (c : HostCmd) (k : Nat) : Nat := field c.packet (16 + 8 * k) 8

/-! ### Journal entries (20 R476) -/

/-- Values of STATUS. -/
def jAccepted : Nat := 0
def jDup : Nat := 4

/-- Bytes 0x00 to 0x3B of an entry. -/
def entryHead (seq : Nat) (c : HostCmd) (status : Nat) (code : BitVec 32) : List Byte :=
  leBytes 8 seq ++ leBytes 8 c.token ++ leBytes 8 c.ring ++ leBytes 8 c.obj.toNat ++ leBytes 8 c.acc ++ leBytes 4 c.pasid.toNat ++
    leBytes 2 c.q ++ [BitVec.ofNat 8 status, 0] ++ leBytes 4 code.toNat ++ List.replicate 8 0

/-- Bytes 0x00 to 0x3F of an entry, with their CRC. -/
def entryFront (seq : Nat) (c : HostCmd) (status : Nat) (code : BitVec 32) : List Byte :=
  let h := entryHead seq c status code
  h ++ leBytes 4 (crc32c (h ++ takeBytes c.packet 0 64)).toNat

def journalSize (s : State) : Nat := 2 ^ s.dev.jsize.toNat

/-- Where entry SEQ lies in a copy. -/
def entryLoc (s : State) (base : Word) (seq : Nat) : Nat := base.toNat + 128 * (seq % journalSize s)

/-- The entry written whole to both copies. -/
def State.newEntry (s : State) (seq : Nat) (c : HostCmd) (status : Nat) (code : BitVec 32) : State :=
  let bs := entryFront seq c status code ++ takeBytes c.packet 0 64
  (s.writeLoc (entryLoc s s.dev.jbase0 seq) bs).writeLoc (entryLoc s s.dev.jbase1 seq) bs

/-- A change of STATUS: the first half rewritten, copy 0 and then copy 1 (20 R477). -/
def State.setEntry (s : State) (seq : Nat) (c : HostCmd) (status : Nat) (code : BitVec 32) : State :=
  let bs := entryFront seq c status code
  if jsizeOk s.dev.jsize.toNat then
    (s.writeLoc (entryLoc s s.dev.jbase0 seq) bs).writeLoc (entryLoc s s.dev.jbase1 seq) bs
  else s

/-! ### Commands -/

namespace State

def cmd? (s : State) (n : Nat) : Option HostCmd := FMap.get? s.host.cmds n
def setCmd (s : State) (n : Nat) (c : HostCmd) : State := { s with host := { s.host with cmds := FMap.set s.host.cmds n c } }
def updCmd (s : State) (n : Nat) (f : HostCmd → HostCmd) : State :=
  { s with host := { s.host with cmds := FMap.update s.host.cmds n f } }

/-- Entry SEQ is free: terminal, and consumed by the host (20 R478). The command's number is SEQ plus one. -/
def entryFree (s : State) (seq : Nat) : Bool := match s.cmd? (seq + 1) with
  | some c => c.written && decide (seq < s.dev.jack.toNat)
  | none => true

/-- An MSI-X message with the vector that the command's queue had when it was accepted (20 R472 VEC, log 109). -/
def message (s : State) (c : HostCmd) : State :=
  if c.irq && decide (c.vec < 2048) then { s with host := { s.host with msix := c.vec :: s.host.msix } } else s

/-- The launch of a LAUNCH command that made one. -/
def launchOfCmd (s : State) (n : Nat) : Option (Nat × Launch) := s.loom.launches.find? fun q => q.2.cmd == n

/-- A command is terminal: its journal entry, then a completion record, then the message (20 R475). -/
def endCmd (s : State) (n : Nat) (t : Terminal) (code : BitVec 32) : State :=
  match s.cmd? n with
  | none => s
  | some c =>
    if c.written then s
    else
      let s := (s.setEntry (n - 1) c (termCode t) code).setCmd n { c with done := some (t, code), written := true, wait := .none }
      match s.launchOfCmd n with
      | some q =>
        let s := s.writeRecord q.1
        if (s.launch? q.1).any (·.recordDue) then s else s.message c
      | none => s.message c

/-- A record that waited for a host page is written, and then its command's message is sent (20 R465, R475). -/
def retryRecord (s : State) (lid : Nat) : State :=
  let s := s.writeRecord lid
  match s.launch? lid with
  | none => s
  | some l => match (if l.recordDue then none else s.cmd? l.cmd) with
    | some c => s.message c
    | none => s

/-- A command of a unit that applies its effect and writes its terminal state as one step (20 R481). -/
def cmdDone (s : State) (n : Nat) (t : Terminal) (code : BitVec 32) : State := s.endCmd n t code

end State

end Sys2Proof.Machine
end

