-- ==== Sys2Proof/Machine/Streams.lean ====
section
/-! DEFINITION. The stream unit: control blocks, head sets, steps and rungs, rings, inputs and the unpick, events, feeds,
and class 6 (chapter 14). -/

namespace Sys2Proof.Machine

/-! ### The control block (14 R377) -/

def cState : RecField := (0x00, 4)
def cStream : RecField := (0x04, 2)
def cNrung : RecField := (0x06, 1)
def cRung : RecField := (0x07, 1)
def cCtx : RecField := (0x08, 4)
def cFlags : RecField := (0x0C, 4)
def cPeriod : RecField := (0x10, 8)
def cDeadline : RecField := (0x18, 8)
def cCurdl : RecField := (0x20, 8)
def cStartcyc : RecField := (0x28, 8)
def cSlack : RecField := (0x30, 8)
def cClimb : RecField := (0x38, 4)
def cAhead : RecField := (0x3C, 1)
def cUprun : RecField := (0x3D, 1)
def cEqdepth : RecField := (0x3E, 1)
def cEnc : RecField := (0x3F, 1)
def cNbolt : RecField := (0x40, 2)
def cCodec : RecField := (0x42, 1)
def cHeadsel : RecField := (0x43, 1)
def cKint : RecField := (0x44, 2)
def cTake : RecField := (0x48, 4)
def cSetgen : RecField := (0x4C, 4)
def cSeta : RecField := (0x50, 8)
def cSetb : RecField := (0x58, 8)
def cLring : RecField := (0x60, 8)
def cLput : RecField := (0x68, 4)
def cLget : RecField := (0x6C, 4)
def cEq : RecField := (0x70, 8)
def cEput : RecField := (0x78, 4)
def cEget : RecField := (0x7C, 4)
def cOring : RecField := (0x80, 8)
def cOsize : RecField := (0x88, 4)
def cIsize : RecField := (0x8C, 4)
def cIring : RecField := (0x90, 8)
def cIput : RecField := (0x98, 4)
def cStepno : RecField := (0x9C, 4)
def cPtsbase : RecField := (0xA0, 8)
def cPtsstep : RecField := (0xA8, 8)
def cDiscards : RecField := (0xB0, 4)
def cMisses : RecField := (0xB4, 4)
def cLates : RecField := (0xB8, 4)
def cEvdrop : RecField := (0xBC, 4)
def cOversize : RecField := (0xC0, 4)
def cHtask : RecField := (0xC8, 8)
def cHsid : RecField := (0xD0, 1)
def cHvalid : RecField := (0xD1, 1)
def cCost (r : Nat) : RecField := (0xE0 + 4 * r, 4)
def cRungWord (r : Nat) : RecField := (0x100 + 8 * r, 8)

namespace Stream

def get (t : Stream) (f : RecField) : Nat := field t.img f.1 f.2
/-- A field written: counters wrap. -/
def put (t : Stream) (f : RecField) (v : Nat) : Stream := { t with img := setField t.img f.1 f.2 v }
def bump (t : Stream) (f : RecField) : Stream := t.put f (t.get f + 1)
def live (t : Stream) : Bool := t.get cState == 1
def pasid (t : Stream) : BitVec 20 := BitVec.ofNat 20 (t.get cCtx)
/-- No operation that holds the others waits. -/
def idle (t : Stream) : Bool := t.inbox.isEmpty

/-- An event posted, or dropped on a full queue (14 R396). -/
def post (t : Stream) (code arg : Nat) : Stream :=
  if t.events.length < 16 then { t with events := t.events ++ [BitVec.ofNat 64 (code * 2 ^ 56 + arg % 2 ^ 56)] }
  else t.bump cEvdrop

/-- Whether SID `k` of the task TASKID is the handler (14 R408). -/
def handledBy (t : Stream) (taskid k : Nat) : Bool :=
  t.get cHvalid != 0 && t.get cHtask == taskid && t.get cHsid == k

end Stream

/-- A live stream by number. -/
def State.liveStream (s : State) (n : Nat) : Option Stream := (s.stream? n).filter Stream.live

/-- The TASKID recorded for a handler: a headstock strand has none, 0 is recorded. -/
def taskidOf (s : State) (sid : Nat) : Nat :=
  if isHead sid then 0 else match s.task? (tileOf sid) with
    | some k => k.id.toNat
    | none => 0

/-- The attachments of a task that has become terminal end, and with them pending lates (14 R408). -/
def State.detach (s : State) (taskid : Nat) : State :=
  let leave (t : Stream) : Stream :=
    if t.get cHvalid != 0 && t.get cHtask == taskid then { t.put cHvalid 0 with late := none } else t
  { s with su := { s.su with streams := s.su.streams.map fun q => (q.1, leave q.2) } }

/-! ### Marks and the unpick (14 R379 to R381, R393, R501) -/

/-- The bolt area as the stream unit uses it. -/
def streamArea (pasid : BitVec 20) : Hm Area := do pure { pasid, base := ccbRecbase (← get) pasid }

/-- GEN (14 R381). -/
def genOf (t : Stream) : Hm Nat := do
  match t.heads with
  | [] => pure 0
  | e :: _ =>
    let ar ← streamArea t.pasid
    pure ((← ar.get e.h bFell) / e.q)

/-- A head's count given back, unless the bolt is destroyed already. -/
def giveBack (ar : Area) (h : Nat) : Hm Unit := do
  needLanded ar.pasid h
  if (← ar.get h bState) ≠ 0 then
    let _ ← releaseBolt ar h
    pure ()

/-- The forks of an unpick at TAKE = `t`: a status, the new table and the children made. -/
def forkHeads (ar : Area) (t : Nat) : List HeadEnt → List HeadEnt → List Nat → Hm (Nat × List HeadEnt × List Nat)
  | [], new, made => pure (0, new, made)
  | e :: rest, new, made =>
    if e.q = 0 then forkHeads ar t rest (new ++ [e]) made
    else do
      let k := t * e.q
      needLanded ar.pasid e.h
      if (← ar.get e.h bFell) < k then pure (0x0A, new, made)
      else if k < (← ar.get e.h bFloor) then pure (0x0B, new, made)
      else
        let r ← forkBolt ar e.h k
        if r.1 ≠ 0 then pure (r.1, new, made)
        else forkHeads ar t rest (new ++ [{ e with h := r.2 }]) (made ++ [r.2])

/-- A set table as bytes (14 R379). -/
def headBytes (e : HeadEnt) : List Byte := leBytes 4 e.h ++ leBytes 4 e.q ++ [e.kind] ++ List.replicate 7 0

/-- A write of the stream unit's own: whether it was made. When one of the faults that were resolved as failed, at `lost`, is its
own, it is not made (14 R501); one of a bolt's own accesses is tried again (log 92). -/
def putUnless (pasid : BitVec 20) (va : Nat) (bs : List Byte) (lost : List Nat) : Hm Bool := do
  if lost.any (fun at_ => decide (va ≤ at_) && decide (at_ < va + bs.length)) then pure false
  else match unitAccess (← get) (unitAgent pasid false) .store va bs.length with
    | (.parts ps, s) => set (writeParts s ps bs false); pure true
    | (.fault sub at_, _) => throw (.fault sub at_ (some .stream))
    | (.pri at_, _) => throw (.pri at_)

/-- An unpick of stream `n` (14 R393): its status. `lost`: where faults of it have been resolved as failed. -/
def unpickStream (n : Nat) (lost : List Nat) : Hm Nat := do
  match (← get).stream? n with
  | none => pure 0x0A
  | some t =>
    let ar ← streamArea t.pasid
    let take := t.get cTake
    let fail (st : Nat) (made : List Nat) : Hm Nat := do
      made.forM fun c => giveBack ar c
      modify fun s => s.updStream n fun t => t.post 0x04 (st + take % 2 ^ 24 * 2 ^ 32)
      pure st
    let r ← forkHeads ar take t.heads [] []
    if r.1 ≠ 0 then fail r.1 r.2.2
    else
      let ok ← putUnless t.pasid (t.get (if t.get cHeadsel = 0 then cSetb else cSeta)) (r.2.1.flatMap headBytes) lost
      if !ok then fail 0x0C r.2.2
      else
        (t.heads.filter (·.q != 0)).forM fun e => giveBack ar e.h
        modify fun s => s.updStream n fun t =>
          let t := ({ t with heads := r.2.1 }.put cHeadsel (1 - t.get cHeadsel)).bump cSetgen
          t.post 0x03 (t.get cSetgen + take % 2 ^ 24 * 2 ^ 32)
        pure 0

/-! ### Inputs (14 R392) -/

def flagsOf (st : Nat) : Nat := if st = 0 then 2 else 16

/-- The judgement of an input: its flags, LATES and a pending LATE, and any splice. -/
def judgeInput (n : Nat) (i : StreamInput) (lost : List Nat) : Hm Nat := do
  match (← get).stream? n with
  | none => pure 0
  | some t =>
    let tp := t.get cPtsbase + t.get cTake * t.get cPtsstep
    if i.error then pure 8
    else if i.pts.toNat < tp then
      modify fun s => s.updStream n fun t =>
        let t := t.bump cLates
        if t.get cHvalid != 0 && t.late.isNone then { t with late := some (BitVec.ofNat 32 (t.get cIput)) } else t
      if t.get cFlags / 2 % 2 = 1 then pure (1 + flagsOf (← unpickStream n lost)) else pure 5
    else if t.get cFlags % 2 = 1 then pure (flagsOf (← unpickStream n lost))
    else pure 0

/-- The input record. -/
def inputBytes (t : Stream) (i : StreamInput) (flags seq : Nat) : List Byte :=
  leBytes 8 i.pts.toNat ++ leBytes 4 seq ++ leBytes 2 flags ++ [i.source, 0] ++ leBytes 4 (t.get cSetgen) ++
    leBytes 4 (t.get cTake) ++ leBytes 8 i.addr.toNat ++ leBytes 2 i.width.toNat ++ leBytes 2 i.height.toNat ++
    leBytes 4 i.pitch.toNat ++ List.replicate 24 0

/-- The record of an input is written, IPUT advances and INPUT is posted. -/
def recordInput (n : Nat) (i : StreamInput) (flags : Nat) (lost : List Nat) : Hm Unit := do
  match (← get).stream? n with
  | none => pure ()
  | some t =>
    let seq := t.get cIput
    let _ ← putUnless t.pasid (t.get cIring + 64 * (seq % t.get cIsize)) (inputBytes t i flags seq) lost
    modify fun s => s.updStream n fun t => (t.bump cIput).post 0x05 seq

/-- The first waiting operation of a stream waits on a pair. -/
def unpickWaits (n : Nat) (lost : List Nat) (w : FaultWait) (s : State) : State :=
  s.updStream n fun t => { t with unpick := w, lost }

/-- The first waiting operation of a stream leaves it. -/
def Stream.leave (t : Stream) : Stream := { t with inbox := t.inbox.drop 1, unpick := .none, lost := [] }

/-- The strand that an unpick of stream `n` answers, when it waits at it. -/
def answerUnpick (s : State) (sid : Option Nat) (n st : Nat) : State :=
  match sid, s.stream? n with
  | some k, some t => s.updStrand k fun q => match q.waitA with
    | some w => match w.instr with
      | .unpick f => if (q.xa f.a).toNat = n then { q with answer := some (withStatus st (t.get cSetgen)) } else q
      | _ => q
    | none => q
  | _, _ => s

/-- An operation of a stream, whole (14 R392, R393; 20 R481): an input is judged and recorded, and the command that delivered it
is done; an unpick is made and answered. -/
def streamTurn (n : Nat) (lost : List Nat) : StreamOp → Hm Unit
  | .unpick sid => do
    let st ← unpickStream n lost
    modify fun s => answerUnpick (s.updStream n Stream.leave) sid n st
  | .input i cmd => do
    let fl ← judgeInput n i lost
    recordInput n i fl lost
    modify fun s =>
      let s := s.updStream n Stream.leave
      match cmd with
      | some c => s.cmdDone c .completed 0
      | none => s

/-- One more try of a stream's first waiting operation. -/
def State.retryStream (s : State) (n : Nat) : State :=
  match s.stream? n with
  | none => s
  | some t => match t.inbox, t.unpick with
    | [], _ => s
    | _, .on _ _ _ => s
    | op :: _, w =>
      let lost := w.failedAt.toList ++ t.lost
      runEvent t.pasid .sequence (unpickWaits n lost) (streamTurn n lost op) s

/-- An input arrives: it is judged and recorded, as one operation of the stream, or waits its turn. -/
def State.arriveInput (s : State) (n : Nat) (i : StreamInput) (cmd : Option Nat) : State :=
  match s.liveStream n with
  | none => s
  | some t =>
    let s := s.setStream n { t with inbox := t.inbox ++ [.input i cmd] }
    if t.idle then s.retryStream n else s

/-- 14 R392. -/
def execInputArrive (stream : Nat) (inp : StreamInput) (s : State) : Answer := .next (s.arriveInput stream inp none)

/-! ### Write-back (14 R376, R501) -/

/-- The block written to the host's image of it, by a request that waits as `w` says; a fault waits, a failed one is dropped. -/
def State.writeBack (s : State) (n : Nat) (w : FaultWait) : State :=
  match s.stream? n with
  | none => s
  | some t =>
    match unitReach s (unitAgent t.pasid false) .stream w .store t.home.toNat 512 with
    | (.ok ps, s) => (writeParts s ps t.img false).updStream n fun t => { t with backDue := false, writeBack := .none }
    | (.wait w, s) => s.updStream n fun t => { t with backDue := true, writeBack := w }
    | (.fail _ _, s) => s.updStream n fun t => { t with backDue := false, writeBack := .none }

/-- What waited at a stream goes on: its write-back, its first waiting operation. -/
def State.redoStream (s : State) (n : Nat) : State :=
  match s.stream? n with
  | none => s
  | some t =>
    let s := if t.backDue then s.writeBack n t.writeBack else s
    s.retryStream n

/-! ### Steps, deadlines and rungs (14 R382, R383) -/

/-- A 64-bit field as a signed number. -/
def signed64 (v : Nat) : Int := (BitVec.ofNat 64 v).toInt

/-- The slack of the next step at a rung: DEADLINE - CYCLE - COST. -/
def stepSlack (t : Stream) (cycle : Nat) (rung : Nat) : Int :=
  (BitVec.ofNat 64 (t.get cDeadline) - BitVec.ofNat 64 cycle - BitVec.ofNat 64 (t.get (cCost rung))).toInt

/-- The rung decision of a step start. -/
def chooseRung (t : Stream) (cycle : Nat) : Stream :=
  let rung := t.get cRung
  let sl := stepSlack t cycle rung
  if sl < 0 then
    let t := if rung + 1 < t.get cNrung then (t.put cRung (rung + 1)).post 0x01 (rung + 1 + t.get cStepno * 256) else t
    t.put cUprun 0
  else if (t.get cClimb : Int) < sl then
    if t.get cUprun + 1 = 8 then
      let t := t.put cUprun 0
      if 0 < rung then (t.put cRung (rung - 1)).post 0x02 (rung - 1 + t.get cStepno * 256) else t
    else t.put cUprun (t.get cUprun + 1)
  else t.put cUprun 0

/-- The block after a step start. -/
def startBlock (t : Stream) (cycle : Nat) : Stream :=
  let t := chooseRung t cycle
  let rung := t.get cRung
  let sl := stepSlack t cycle rung
  let t := { t with stepRung := rung, stepIndex := t.get cStepno }
  ((((t.put cSlack (BitVec.ofInt 64 sl).toNat).put cCurdl (t.get cDeadline)).put cStartcyc cycle).put cDeadline
    (t.get cDeadline + t.get cPeriod)).bump cStepno

/-- The identifier of a step and its graph (20 R474). -/
def stepId (first index : Nat) : Nat := (first - 1 + index) % (2 ^ 32 - 1) + 1

/-- The launches of a step, each depending on the one before it. -/
def chainLaunches (pasid : BitVec 20) (cls : Option Nat) (graph : Nat) (slack : Int) : List Word → List Nat → State → State
  | [], _, s => s
  | d :: ds, prev, s =>
    let r := s.newLaunch pasid d prev cls 0 graph (some slack)
    chainLaunches pasid cls graph slack ds [r.1] r.2

/-- A step starts (14 R382). -/
def State.startStep (s : State) (n : Nat) : State :=
  match s.stream? n with
  | none => s
  | some t =>
    match t.job with
    | none => s
    | some j =>
      let t := startBlock t s.cycle
      let id := stepId t.firstId t.stepIndex
      let r := s.newObject (Object.new .step id t.pasid (some j) true)
      let g := r.2.newObject (Object.new .graph id t.pasid (some r.1) true)
      chainLaunches t.pasid t.clsOver g.1 (signed64 (t.get cSlack)) t.template [] (g.2.setStream n { t with step := some r.1 })

/-- The stream's job releases no more steps. -/
def jobOver (s : State) (t : Stream) : Bool :=
  !t.live || match t.job.bind s.object? with
    | some o => o.closed || o.cancelled || o.terminal.isSome
    | none => true

/-- The next step of a stream is released. -/
def stepReleased (s : State) (t : Stream) : Bool :=
  t.idle && !jobOver s t && t.step.isNone && decide (t.get cDeadline ≤ s.cycle + (t.get cAhead + 1) * t.get cPeriod)

/-- 14 R382. -/
def execStepStart (stream : Nat) (s : State) : Answer :=
  .next (match s.stream? stream with
    | some t => if stepReleased s t then s.startStep stream else s
    | none => s)

/-- The rung's estimate after a step of `m` cycles (14 R383). -/
def newCost (cost m : Int) : Nat := (max 0 (min (cost + (m - cost) / 8) 0xFFFFFFFF)).toNat

/-- The running step of a stream is terminal. -/
def stepOver (s : State) (t : Stream) : Bool :=
  t.idle && match t.step.bind s.object? with
    | some o => o.terminal.isSome
    | none => false

/-- A step ends, at the time it became terminal (14 R383). -/
def State.endStep (s : State) (n : Nat) : State :=
  let s := s.updStream n fun t =>
    let over_ := match t.step.bind s.object? with
      | some o => o.endCyc
      | none => s.cycle
    let t := { t with step := none }
    let t := t.put (cCost t.stepRung) (newCost (t.get (cCost t.stepRung)) ((over_ : Int) - t.get cStartcyc))
    if t.get cCurdl < over_ then (t.bump cMisses).post 0x06 t.stepIndex else t
  s.writeBack n .none

/-- 14 R383. -/
def execStepEnd (stream : Nat) (s : State) : Answer :=
  .next (match s.stream? stream with
    | some t => if stepOver s t then s.endStep stream else s
    | none => s)

/-! ### Rings in a cluster shared window (14 R386, R387) -/

/-- The location of an address of a cluster shared window. -/
def ringLoc (va : Nat) : Nat := windowLoc ((va - 0x00FFE00000000000) / 0x4000000) ((va - 0x00FFE00000000000) % 0x4000000)

/-- The slot of a ring, and whether it holds poison. -/
def ringRead (s : State) (va : Nat) : List Byte × Bool := (s.readLoc (ringLoc va) 32, isPoisoned s.poison (ringLoc va) 32)

/-- The ring a descriptor goes to: base, slots, put and get. -/
def ringOf (t : Stream) (enc : Bool) : Nat × Nat × RecField × RecField :=
  if enc then (t.get cEq, t.get cEqdepth, cEput, cEget) else (t.get cLring, 4, cLput, cLget)

/-- Entries in a ring, modulo 2^32. -/
def ringCount (t : Stream) (put get : RecField) : Nat := (t.get put + 2 ^ 32 - t.get get) % 2 ^ 32

/-- Whether a range lies in general memory, below the fabric window or above it. -/
def inGeneral (va len : Nat) : Bool :=
  decide (va + len ≤ 0x00FF000000000000) && (decide (va + len ≤ 0x0080000000000000) || decide (0x0090000000000000 ≤ va))

/-- Whether a range lies in one cluster shared window. -/
def inWindow (s : State) (va len : Nat) : Bool :=
  let o := va - 0x00FFE00000000000
  decide (0x00FFE00000000000 ≤ va) && decide (o / 0x4000000 < 24) &&
    decide (o % 0x4000000 + len ≤ (s.cluster (o / 0x4000000)).win * 0x400000)

/-- Bytes from a frame's first to its last (14 R388). -/
def frameSpan (w h pitch : Nat) : Nat := pitch * (h + h / 2 - 1) + 2 * w

/-- A descriptor within R385, and R388 for the encoder. SUB is not held against the rung's INTERP: DESIGN CHOICE (log 117). -/
def descOk (s : State) (d : List Byte) (enc : Bool) : Bool :=
  let w := field d 0x10 2
  let h := field d 0x12 2
  let pitch := field d 0x14 4
  let va := field d 0 8
  field d 0x0B 1 == 0 && decide (field d 0x19 1 < 2) && (d.drop 0x1A).all (· == 0) &&
    (!enc || field d 0x19 1 == 1 ||
      (w % 16 == 0 && h % 16 == 0 && decide (128 ≤ w) && decide (w ≤ 3840) && decide (128 ≤ h) && decide (h ≤ 2160) &&
        va % 128 == 0 && pitch % 128 == 0 && decide (2 * w ≤ pitch) &&
        (inGeneral va (frameSpan w h pitch) || inWindow s va (frameSpan w h pitch))))

/-! ### Operands of class 6 (14 R397, R399, R401) -/

def streamTrap (sub : BitVec 8) (n : Nat) (arg : Nat := 0) : Halt :=
  .trap 0x0A sub (BitVec.ofNat 56 (arg % 2 ^ 32 * 2 ^ 24 + n % 1024))

/-- The stream a register names. -/
def needStream (sid : Nat) (user : Bool) (a : Word) : Hm (Nat × Stream) := do
  let s ← get
  let n := a.toNat % 1024
  match s.liveStream n with
  | some t =>
    needH (decide (a.toNat < 1024) && (t.pasid == s.pasidOf sid || (isHead sid && !user))) (streamTrap 1 n)
    pure (n, t)
  | none => haltWith (streamTrap 1 n)

/-- A stream on which the operation is next in order. -/
def needTurn (sid : Nat) (user : Bool) (a : Word) : Hm (Nat × Stream) := do
  let r ← needStream sid user a
  needH r.2.idle (stall .home)
  pure r

/-- A memory operand of a strand: stack, alignment, translation (09 R274). -/
def operandParts (sid : Nat) (t : Strand) (base : Desig) (acc : Acc) (ea : Word) (n : Nat) (misaligned : Halt) : Hm (List Part) :=
  ofRes fun s => do
    checkBase s sid t base ea n
    need (ea.toNat % n == 0) misaligned
    accessParts s (agentOf s sid t) acc ea n

/-- The bytes of a memory operand loaded at issue; a poisoned one is cause DATA. -/
def operandLoad (sid : Nat) (t : Strand) (base : Desig) (ea : Word) (n : Nat) (misaligned : Halt) : Hm (List Byte) := do
  match t.held with
  | some bs => pure bs
  | none =>
    let ps ← operandParts sid t base .load ea n misaligned
    ofRes fun s => do
      let g := loadParts s (unitOf sid) sid .default ps
      need (!g.1.bad) (.trap 0x07 1 (ea.setWidth 56))
      .ok (g.1.bytes, g.2)

/-- The instruction waits with what it has loaded. -/
def holdLoaded {α : Type} (sid : Nat) (why : WaitWhy) (bs : List Byte) : Hm α := do
  modify fun s => s.updStrand sid fun t => { t with held := some bs }
  haltWith (.hold (← get) why none)

def operandStore (sid : Nat) (ps : List Part) (bs : List Byte) (bad : Bool) : Hm Unit :=
  modify fun s => storeParts s (unitOf sid) sid .default ps bs bad

/-- What comes before an operation that stores for its strand. -/
def storePre : State → Strand → Res State := fun s t => do
  storeReady t
  .ok s

/-! ### SHEAD, STAKE, UNPICK (14 R403 to R405) -/

def sheadOp (sid : Nat) (user : Bool) (aux : BitVec 4) (a b : Word) : Hm Word := do
  let (n, t) ← needTurn sid user a
  match aux.toNat with
  | 2 => pure (BitVec.ofNat 64 (t.get cSetgen))
  | 3 => pure (BitVec.ofNat 64 (← genOf t))
  | 4 => pure (BitVec.ofNat 64 (t.get cTake))
  | 5 => pure (BitVec.ofNat 64 (t.get cIput))
  | k =>
    match t.heads[b.toNat]? with
    | none => haltWith (streamTrap 2 n b.toNat)
    | some e =>
      if k = 1 then
        let ar ← streamArea t.pasid
        needH ((← ar.get e.h bState) != 0) (boltHalt 2 0 (BitVec.ofNat 64 e.h))
        holdBolt ar e.h (BitVec.ofNat 64 e.h)
      pure (BitVec.ofNat 64 (t.get cSetgen * 2 ^ 24 + e.h))

def execShead (f : FormQ) (s : State) : Answer :=
  execHome (.shead f) { opc := 0x300, useB := f.aux == 0 || f.aux == 1, agent := .stream, pre := acquirePre, post := acquirePost .dev } f
    (fun s t => sheadOp s.sid (!t.pl) f.aux (t.xa f.a) (t.xa f.b)) s

def stakeOp (sid : Nat) (user : Bool) (a b : Word) : Hm Word := do
  let (n, t) ← needTurn sid user a
  needH (decide (b.toNat < 2 ^ 32)) (streamTrap 2 n b.toNat)
  needH (decide (b.toNat ≤ (← genOf t))) (streamTrap 2 n b.toNat)
  let take := Nat.max (t.get cTake) b.toNat
  modify fun s => s.updStream n (·.put cTake take)
  pure (BitVec.ofNat 64 take)

def execStake (f : FormQ) (s : State) : Answer :=
  execHome (.stake f) { opc := 0x301, useB := true, agent := .stream } f
    (fun s t => stakeOp s.sid (!t.pl) (t.xa f.a) (t.xa f.b)) s

/-- UNPICK: when a fork waits for a copy or a fault, the operation stays at the unit, before every later one. -/
def unpickOp (sid : Nat) (user : Bool) (a : Word) : Hm Word := fun s =>
  match (do
    let (n, _) ← needTurn sid user a
    let st ← unpickStream n []
    match (← get).stream? n with
    | some t => pure (withStatus st (t.get cSetgen))
    | none => pure 0 : Hm Word) s with
  | .ok r => .ok r
  | .error (.halt (.wait why dl)) =>
    match s.liveStream (a.toNat % 1024) with
    | some t =>
      if t.idle then
        .error (.halt (.hold (s.setStream (a.toNat % 1024) { t with inbox := [.unpick (some sid)] }) why dl))
      else .error (.halt (.wait why dl))
    | none => .error (.halt (.wait why dl))
  | .error (.halt h) => .error (.halt h)
  | .error e =>
    let n := a.toNat % 1024
    match s.liveStream n with
    | some t =>
      match unitFault s t.pasid .sequence e with
      | some q => .error (.halt (.hold (q.2.setStream n { t with inbox := [.unpick (some sid)], unpick := q.1 }) .home none))
      | none => .error e
    | none => .error e

def execUnpick (f : FormQ) (s : State) : Answer :=
  execHome (.unpick f) { opc := 0x302, agent := .stream, pre := releasePre .dev } f
    (fun s t => unpickOp s.sid (!t.pl) (t.xa f.a)) s

/-! ### SFRAME, SFRPOP (14 R406) -/

def sframeOp (sid : Nat) (t : Strand) (enc nb : Bool) (base : Desig) (a b : Word) : Hm Word := do
  let (n, st) ← needStream sid (!t.pl) a
  let d ← operandLoad sid t base b 32 (alignTrap 1 b)
  needH (descOk (← get) d enc) (streamTrap 3 n)
  if !st.idle then holdLoaded sid .home d
  else
    let (base, slots, put, getF) := ringOf st enc
    if slots ≤ ringCount st put getF then
      if nb then pure (withStatus 8 0) else holdLoaded sid .stream d
    else
      let k := st.get put
      modify fun s => (s.writeLoc (ringLoc (base + 32 * (k % slots))) d).updStream n (·.bump put)
      pure (BitVec.ofNat 64 k)

def execSframe (f : FormQ) (s : State) : Answer :=
  execHome (.sframe f) { opc := 0x303, useB := true, agent := .stream, pre := releasePre .dev } f
    (fun s t => sframeOp s.sid t (f.aux == 1) f.nb f.b (t.xa f.a) (t.xa f.b)) s

def sfrpopOp (sid : Nat) (t : Strand) (nb : Bool) (base : Desig) (a b : Word) : Hm Word := do
  let (n, st) ← needStream sid (!t.pl) a
  let ps ← operandParts sid t base .store b 32 (alignTrap 1 b)
  needH st.idle (stall .home)
  if ringCount st cLput cLget = 0 then
    if nb then pure (withStatus 9 0) else haltWith (stall .stream)
  else
    let k := st.get cLget
    let d := ringRead (← get) (st.get cLring + 32 * (k % 4))
    modify fun s => s.updStream n (·.bump cLget)
    operandStore sid ps d.1 d.2
    pure (BitVec.ofNat 64 k)

def execSfrpop (f : FormQ) (s : State) : Answer :=
  execHome (.sfrpop f) { opc := 0x304, useB := true, agent := .stream, pre := storePre, post := acquirePost .dev } f
    (fun s t => sfrpopOp s.sid t f.nb f.b (t.xa f.a) (t.xa f.b)) s

/-! ### SRUNG, SEVT (14 R407, R408) -/

def srungOp (sid : Nat) (user force : Bool) (a b : Word) : Hm Word := do
  let (n, t) ← needTurn sid user a
  needH (!force || decide (b.toNat < t.get cNrung)) (streamTrap 2 n b.toNat)
  let t := if force then (t.put cRung b.toNat).put cUprun 0 else t
  modify fun s => s.setStream n t
  pure (BitVec.ofNat 64 (t.get cRung * 2 ^ 56 + t.get (cRungWord (t.get cRung)) % 2 ^ 44))

def execSrung (f : FormQ) (s : State) : Answer :=
  execHome (.srung f) { opc := 0x305, useB := f.aux == 1, agent := .stream } f
    (fun s t => srungOp s.sid (!t.pl) (f.aux == 1) (t.xa f.a) (t.xa f.b)) s

def sevtOp (sid : Nat) (user nb : Bool) (a : Word) : Hm Word := do
  let (n, t) ← needTurn sid user a
  match t.late, t.handledBy (taskidOf (← get) sid) (numberOf sid) with
  | some seq, true => haltWith (.late n (BitVec.ofNat 56 (seq.toNat * 2 ^ 24 + n)))
  | _, _ =>
    match t.events with
    | [] => if nb then pure (withStatus 9 0) else haltWith (stall .stream)
    | e :: rest =>
      modify fun s => s.setStream n { t with events := rest }
      pure e

def execSevt (f : FormQ) (s : State) : Answer :=
  execHome (.sevt f) { opc := 0x306, agent := .stream, pre := acquirePre, post := acquirePost .dev } f
    (fun s t => sevtOp s.sid (!t.pl) f.nb (t.xa f.a)) s

def sevtAttachOp (sid : Nat) (user : Bool) (a : Word) : Hm Word := do
  let (n, t) ← needTurn sid user a
  let s ← get
  set (s.setStream n (((t.put cHtask (taskidOf s sid)).put cHsid (numberOf sid)).put cHvalid 1))
  pure 0

def execSevtAttach (f : FormQ) (s : State) : Answer :=
  execHome (.sevtAttach f) { opc := 0x306, agent := .stream } f (fun s t => sevtAttachOp s.sid (!t.pl) (t.xa f.a)) s

/-! ### Feeds (14 R398, R399, R409) -/

def State.feed? (s : State) (n : Nat) : Option Feed := FMap.get? s.su.feeds n
def State.setFeed (s : State) (n : Nat) (f : Feed) : State := { s with su := { s.su with feeds := FMap.set s.su.feeds n f } }

def feedTrap (sub : BitVec 8) (n : Nat) : Halt := .trap 0x12 sub (BitVec.ofNat 56 (n % 4096))

def needFeed (sid : Nat) (a : Word) : Hm (Nat × Feed) := do
  let s ← get
  let n := a.toNat % 4096
  match s.feed? n with
  | some f =>
    needH (decide (a.toNat < 4096) && f.pasid == s.pasidOf sid) (feedTrap 1 n)
    pure (n, f)
  | none => haltWith (feedTrap 1 n)

def Feed.full (f : Feed) : Bool := decide (f.put - f.get = f.size)
def Feed.recordVa (f : Feed) (n : Nat) : Nat := f.ring.toNat + 64 * (n % f.size)

def feedpopOp (sid : Nat) (t : Strand) (base : Desig) (a b : Word) : Hm Word := do
  let (n, f) ← needFeed sid a
  let ps ← operandParts sid t base .store b 64 (feedTrap 2 n)
  if f.get = f.put then pure (withStatus 9 0)
  else
    let src ← unitParts f.pasid .load (f.recordVa f.get) 64
    let r := readParts (← get) src
    modify fun s => s.setFeed n { f with get := f.get + 1 }
    operandStore sid ps r.1 r.2
    pure (BitVec.ofNat 64 (f.get % 2 ^ 48))

def execFeedpop (f : FormQ) (s : State) : Answer :=
  execHome (.feedpop f) { opc := 0x310, useB := true, agent := .stream, pre := storePre, post := acquirePost .dev } f
    (fun s t => feedpopOp s.sid t f.b (t.xa f.a) (t.xa f.b)) s

/-- One check of a FEEDWAIT that issued in `cycle`. -/
def feedwaitOp (sid : Nat) (a c : Word) (timeUp : Bool) (cycle : Nat) : Hm Word := do
  let (_, f) ← needFeed sid a
  if f.get < f.put then pure (withStatus 0 0)
  else if timeUp then pure (withStatus 6 0)
  else haltWith (.hold (← get) .feedwait (if c = 0 then none else some (cycle + c.toNat)))

def feedwaitBody (f : FormQ) : Body :=
  homeBody { opc := 0x311, useC := true, agent := .stream } f
    (fun s t => feedwaitOp s.sid (t.xa f.a) (t.xa f.c) (timedOut t s.cycle) (issuedAt t s.cycle))

def execFeedwait (f : FormQ) (s : State) : Answer := issue (.feedwait f) .normal anyLevel (feedwaitBody f) s

def feedwaiting (s : State) (sid : Nat) : Option (FormQ × Wait) :=
  match (s.strand? sid).bind (·.waitA) with
  | some w => match w.why, w.instr with
    | .feedwait, .feedwait f => some (f, w)
    | _, _ => none
  | none => none

/-- 14 R409: the timeout of a FEEDWAIT passes. -/
def execFeedwaitTimeout (sid : Nat) (s : State) : Answer :=
  match feedwaiting s sid with
  | some (f, w) => if w.ended s.cycle then execFeedwait f (s.at sid) else .next s
  | none => .next s

def feedpushOp (sid : Nat) (t : Strand) (nb : Bool) (base : Desig) (a b : Word) : Hm Word := do
  let (n, f) ← needFeed sid a
  let bs ← operandLoad sid t base b 64 (feedTrap 2 n)
  if f.full then
    if nb then pure (withStatus 8 0) else holdLoaded sid .stream bs
  else
    uWrite f.pasid (f.recordVa f.put) bs
    modify fun s => s.setFeed n { f with put := f.put + 1 }
    pure (BitVec.ofNat 64 f.put)

def execFeedpush (f : FormQ) (s : State) : Answer :=
  execHome (.feedpush f) { opc := 0x312, useB := true, agent := .stream, pre := releasePre .dev } f
    (fun s t => feedpushOp s.sid t f.nb f.b (t.xa f.a) (t.xa f.b)) s

/-- A feed is destroyed: strands that wait at it are answered EMPTY (20 R474). -/
def State.dropFeed (s : State) (n : Nat) : State :=
  let woken (t : Strand) : Strand := match t.waitA with
    | none => t
    | some w => match w.instr with
      | .feedwait f => if (t.xa f.a).toNat = n then { t with answer := some (withStatus 9 0) } else t
      | .feedpush f => if (t.xa f.a).toNat = n then { t with answer := some (withStatus 9 0) } else t
      | _ => t
  { s with su := { s.su with feeds := FMap.erase s.su.feeds n }, strands := s.strands.map fun q => (q.1, woken q.2) }

end Sys2Proof.Machine
end

