-- ==== Sys2Proof/Machine/Video.lean ====
section
/-! DEFINITION. The encoder and decode engines (14 R387 to R391, R501). What a standard's coding of a frame is, and what a
decoder makes of an access unit, are free values (log 15). -/

namespace Sys2Proof.Machine

/-! ### Encoder takes (14 R387) -/

/-- The takes of an engine that are not recorded yet, oldest first. -/
def State.takes (s : State) (enc : Nat) : List Take := (FMap.get? s.su.encoders enc).getD []
def State.setTakes (s : State) (enc : Nat) (l : List Take) : State :=
  { s with su := { s.su with encoders := if l.isEmpty then FMap.erase s.su.encoders enc else FMap.set s.su.encoders enc l } }

/-- The streams an encoder serves whose queue is not empty. -/
def served (s : State) (enc : Nat) : List (Nat × Stream) :=
  s.su.streams.filter fun q => q.2.live && q.2.get cEnc == enc && ringCount q.2 cEput cEget != 0

/-- The one with the earliest CURDL, then the lowest number. -/
def earliest : List (Nat × Stream) → Option (Nat × Stream)
  | [] => none
  | q :: l => match earliest l with
    | some r => if r.2.get cCurdl < q.2.get cCurdl then some r else some q
    | none => some q

/-- Whether a descriptor is stale: of another frame bolt, or not after the last one taken of this bolt. -/
def staleDesc (t : Stream) (d : List Byte) : Bool :=
  let bolt := field d 0x08 4 % 2 ^ 24
  (match t.heads with
    | e :: _ => bolt != e.h
    | [] => true) ||
  match t.coding.last with
  | some (b, step, sub) => bolt == b && (decide (field d 0x0C 4 < step) || (field d 0x0C 4 == step && decide (field d 0x18 1 ≤ sub)))
  | none => false

/-- A take of a descriptor of stream `n`. -/
def State.takeDesc (s : State) (enc n : Nat) (t : Stream) : State :=
  let d := (ringRead s (t.get cEq + 32 * (t.get cEget % t.get cEqdepth))).1
  let t := t.bump cEget
  if staleDesc t d then s.setStream n (t.bump cDiscards)
  else
    let t := { t with coding := { t.coding with last := some (field d 0x08 4 % 2 ^ 24, field d 0x0C 4, field d 0x18 1) } }
    let void := field d 0x19 1 % 2 == 1
    let k : Take := { stream := n, desc := d, rung := t.get cRung, setgen := t.get cSetgen, frame := s.free, readDone := void, payload := [],
                      key := false, dropped := void, since := s.cycle, oversize := false, wait := .none }
    let s := { (s.setStream n t) with free := s.free + 1 }
    s.setTakes enc (s.takes enc ++ [k])

/-- A take is due: the encoder has read the frames of its takes, and its stream is in order. The take of a stream whose last
record still waits for room waits too (14 R387, log 90). -/
def takeDue (s : State) (enc : Nat) : Option (Nat × Stream) :=
  if (s.takes enc).any (!·.readDone) then none
  else (earliest (served s enc)).filter fun q => q.2.idle && (s.takes enc).all (·.stream != q.1)

/-- 14 R387. -/
def execEncoderTake (enc : Nat) (s : State) : Answer :=
  .next (match takeDue s enc with
    | some q => s.takeDesc enc q.1 q.2
    | none => s)

/-! ### Records (14 R390) -/

/-- The rows of a frame: luma, then chroma at half the height (14 R388). -/
def rowsAt (va w h pitch : Nat) : List (Nat × Nat) := (List.range (h + h / 2)).map fun r => (va + pitch * r, 2 * w)

def frameRows (d : List Byte) : List (Nat × Nat) := rowsAt (field d 0 8) (field d 0x10 2) (field d 0x12 2) (field d 0x14 4)

/-- The parts of rows to read or write, or the first fault among them; the state keeps the A bits that were set. -/
def reachRows (a : Agent) (w : FaultWait) (acc : Acc) : List (Nat × Nat) → List Part → State → UnitRes × State
  | [], ps, s => (.ok ps, s)
  | q :: qs, ps, s => match unitReach s a .video w acc q.1 q.2 with
    | (.ok l, s) => reachRows a w acc qs (ps ++ l) s
    | r => r

/-- A take of an engine changed, or gone with its record. -/
def State.setTake (s : State) (enc i : Nat) (k : Take) : State := s.setTakes enc ((s.takes enc).set i k)
def State.dropTake (s : State) (enc i : Nat) : State := s.setTakes enc ((s.takes enc).eraseIdx i)

/-- Whether the next coded frame of a stream is a key frame. -/
def keyDue (t : Stream) (d : List Byte) : Bool :=
  let c := t.coding
  (match c.size with
    | none => true
    | some z => z != (field d 0x10 2, field d 0x12 2)) || c.oversize || (t.get cKint != 0 && decide (t.get cKint ≤ c.sinceKey))

/-- How a take is coded: by its stream's standard and the quantiser of its rung (14 R384, R389). -/
def codingOf (t : Stream) (k : Take) : Config.Coding :=
  let q := t.get (cRungWord k.rung) / 2 ^ 36 % 2 ^ 8
  let hevc := t.get cCodec == 1
  { hevc, quant := if hevc then Nat.min q 51 else q, key := keyDue t k.desc, width := field k.desc 0x10 2, height := field k.desc 0x12 2 }

/-- The sample values of a frame's words (14 R388). -/
def samplesOf (bs : List Byte) : List (BitVec 10) := (List.range (bs.length / 2)).map fun k => BitVec.ofNat 10 (field bs (2 * k) 2 / 2 ^ 6)

/-- The take once its frame has been read: its coding, or a DROPPED record when that is too large (14 R390). -/
def Take.code (k : Take) (t : Stream) (bs : List Byte) : Take :=
  let c := codingOf t k
  let p := Config.encodedFrame c (samplesOf bs) k.frame
  if t.get cOsize < 2 * p.length then { k with readDone := true, dropped := true, oversize := true, wait := .none }
  else { k with readDone := true, payload := p, key := c.key, wait := .none }

/-- The presentation time of a record. -/
def ptsOf (t : Stream) (k : Take) : Nat :=
  let interp := t.get (cRungWord k.rung) / 2 ^ 32 % 16
  (t.get cPtsbase + field k.desc 0x0C 4 * t.get cPtsstep + field k.desc 0x18 1 * t.get cPtsstep / interp) % 2 ^ 64

/-- A record's header and padded payload. -/
def recordOf (t : Stream) (k : Take) : List Byte :=
  let p := k.payload
  let flags := (if k.key then 1 else 0) + (if k.dropped then 2 else 0) +
    (if t.coding.gen == some k.setgen then 0 else 4)
  leBytes 4 p.length ++ leBytes 2 flags ++ leBytes 1 k.rung ++ leBytes 1 (field k.desc 0x18 1) ++ leBytes 4 (field k.desc 0x0C 4) ++
    leBytes 4 k.setgen ++ leBytes 8 (ptsOf t k) ++ List.replicate 8 0 ++ p ++ List.replicate (roundUp p.length 32 - p.length) 0

/-- The header of a PAD record of `n` bytes. -/
def padHeader (n : Nat) : List Byte := leBytes 4 (n - 32) ++ leBytes 2 0x8000 ++ List.replicate 26 0

/-- The stream after a record: what decides the next key frame. -/
def coded (t : Stream) (k : Take) : Stream :=
  let c := t.coding
  { t with coding :=
      if k.dropped then { c with gen := some k.setgen, oversize := c.oversize || k.oversize }
      else { c with gen := some k.setgen, oversize := false, size := some (field k.desc 0x10 2, field k.desc 0x12 2),
                    sinceKey := if k.key then 1 else c.sinceKey + 1 } }

/-- The record of a take, or a PAD record before it, written when there is room; OPUT follows it. -/
def emitRecord (s : State) (enc i : Nat) (k : Take) (t : Stream) : State :=
  let a := unitAgent t.pasid false
  let oring := t.get cOring
  let waits (w : FaultWait) (s : State) : State := s.setTake enc i { k with wait := w }
  match unitReach s a .video k.wait .load oring 72 with
  | (.wait w, s) => waits w s
  | (.fail _ _, s) => s.dropTake enc i
  | (.ok ps, s) =>
    let line := (readParts s ps).1
    let oput := field line 0 8
    let osize := t.get cOsize
    let rec_ := recordOf t k
    let left := osize - oput % osize
    let bs := if left < rec_.length then padHeader left else rec_
    let size := if left < rec_.length then left else rec_.length
    if oput - field line 64 8 + size ≤ osize then
      match unitReach s a .video k.wait .store (oring + 128 + oput % osize) bs.length with
      | (.wait w, s) => waits w s
      | (.fail _ _, s) => s.dropTake enc i
      | (.ok ps, s) =>
        match unitReach s a .video k.wait .store oring 8 with
        | (.wait w, s) => waits w s
        | (.fail _ _, s) => s.dropTake enc i
        | (.ok qs, s) =>
          let s := writeParts (writeParts s ps bs false) qs (leBytes 8 (oput + size)) false
          if left < rec_.length then s.setTake enc i { k with wait := .none }
          else (s.updStream k.stream fun t => coded t k).dropTake enc i
    else s.setTake enc i { k with wait := .none }

/-- The next thing an encoder does with a take: it reads the frame, or writes a record. -/
def State.emitTake (s : State) (enc i : Nat) (k : Take) : State :=
  match s.liveStream k.stream, k.wait with
  | none, _ => s.dropTake enc i
  | some _, .on _ _ _ => s
  | some t, w =>
    if !t.idle then s
    else if !k.readDone then
      match reachRows (unitAgent t.pasid false) w .load (frameRows k.desc) [] s with
      | (.ok ps, s) =>
        let k := k.code t (readParts s ps).1
        (if k.oversize then s.updStream k.stream (·.bump cOversize) else s).setTake enc i k
      | (.wait w, s) => s.setTake enc i { k with wait := w }
      | (.fail _ _, s) => s.setTake enc i { k with readDone := true, dropped := true, wait := .none }
    else emitRecord s enc i k t

/-- At 497,664,000 luma samples a second and 1.6 GHz, a frame of n samples takes 3125 n / 972 control cycles (14 R389). -/
def encodeOver (s : State) (k : Take) : Bool :=
  k.dropped || decide (field k.desc 0x10 2 * field k.desc 0x12 2 * 3125 ≤ (s.cycle - k.since) * 972)

/-- An encoder goes on with the first of its takes that can. -/
def State.emit (s : State) (enc : Nat) : State :=
  ((((s.takes enc).zipIdx.filter fun q => encodeOver s q.1).map fun q => s.emitTake enc q.2 q.1).find? fun s1 => s1.su != s.su).getD s

/-- 14 R390. -/
def execEncoderRecordEmit (enc : Nat) (s : State) : Answer := .next (s.emit enc)

/-! ### Decode engines (14 R391) -/

def State.dropJob (s : State) (dec : Nat) : State := { s with su := { s.su with decoders := FMap.erase s.su.decoders dec } }

/-- The picture or the error of a job is delivered; the command that handed the access unit over is done. -/
def State.deliverPicture (s : State) (dec : Nat) (j : DecodeJob) (frame : Option Nat) : State :=
  let s := s.dropJob dec
  let i : StreamInput := match frame with
    | some n => { error := false, pts := j.pts, source := BitVec.ofNat 8 dec, addr := j.out, width := Config.decodedWidth n,
                  height := Config.decodedHeight n, pitch := Config.decodedPitch n }
    | none => { error := true, pts := j.pts, source := BitVec.ofNat 8 dec, addr := 0, width := 0, height := 0, pitch := 0 }
  (s.arriveInput j.stream i none).cmdDone j.cmd .completed 0

/-- The rows of a decoded picture, in the layout of 14 R388. -/
def pictureRows (n va : Nat) : List (Nat × Nat) :=
  rowsAt va (Config.decodedWidth n).toNat (Config.decodedHeight n).toNat (Config.decodedPitch n).toNat

/-- The word of a sample: 10 bits in [15:6], or 8 bits in [15:8] with [7:6] zero. -/
def sampleWord (n k : Nat) : BitVec 16 := if Config.decodedDeep n then Config.decodedWord n k else Config.decodedWord n k &&& 0xFF3F

/-- The words of a decoded picture, row after row. -/
def pictureBytes (n : Nat) : List Byte :=
  let h := (Config.decodedHeight n).toNat
  (List.range ((Config.decodedWidth n).toNat * (h + h / 2))).flatMap fun k => leBytes 2 (sampleWord n k).toNat

/-- A decode engine reads its access unit, writes the picture and delivers it. -/
def State.decode (s : State) (dec : Nat) : State :=
  match FMap.get? s.su.decoders dec with
  | none => s
  | some j =>
    let a := unitAgent j.pasid false
    let waits (w : FaultWait) (s : State) : State := { s with su := { s.su with decoders := FMap.set s.su.decoders dec { j with wait := w } } }
    match unitReach s a .video j.wait .load j.addr.toNat j.len with
    | (.wait w, s) => waits w s
    | (.fail _ _, s) => s.deliverPicture dec j none
    | (.ok ps, s) =>
      if !Config.decodeOk (readParts s ps).1 then s.deliverPicture dec j none
      else
        let n := s.free
        match reachRows a j.wait .store (pictureRows n j.out.toNat) [] s with
        | (.wait w, s) => waits w s
        | (.fail _ _, s) => s.deliverPicture dec j none
        | (.ok ps, s) => { (writeParts s ps (pictureBytes n) false) with free := n + 1 }.deliverPicture dec j (some n)

/-- 14 R391. -/
def execDecodeComplete (dec : Nat) (s : State) : Answer := .next (s.decode dec)

end Sys2Proof.Machine
end

