-- ==== Sys2Proof/Machine/Place.lean ====
section
/-! DEFINITION. The loom's own events: launches that become ready, the checks of a descriptor, placement and ranking,
slack, classification, throttling, pre-emption requests, cancellation, and the end of a task (05 R140 to R174). -/

namespace Sys2Proof.Machine

/-! ### Ready launches (05 R140, R161) -/

def State.depStates (s : State) (l : Launch) : List (Option Terminal) := l.deps.map fun d => (s.launch? d).bind (·.terminal)

/-- Every launch it depends on is terminal, and it has not been decided yet. -/
def depsOver (s : State) (l : Launch) : Bool :=
  l.terminal.isNone && !l.ready && (s.depStates l).all (·.isSome)

/-- Steps of one job become ready in order (05 R140): every earlier step of the launch's job is terminal. -/
def stepInOrder (s : State) (l : Launch) : Bool :=
  match ((s.object? l.graph).bind (·.parent)).bind fun st => ((s.object? st).bind (·.parent)).map fun j => (st, j) with
  | none => true
  | some (st, j) => match s.object? j with
    | none => true
    | some o => (o.children.takeWhile (· != st)).all fun c => match s.object? c with
      | some q => q.terminal.isSome
      | none => true

/-- Tiles a launch holds. -/
def State.tilesHeld (s : State) (lid : Nat) : Nat := (s.tilesWhere fun t => t.launch == lid).length

/-- A launch's slack (05 R161). -/
def slackOf (l : Launch) (held cycle : Nat) : Option Int :=
  match l.streamSlack with
  | some x => some x
  | none =>
    if l.deadline = 0 then none
    else
      let n := l.tasks - (l.recs.filter fun q => isDone q.2).length
      let w := Nat.max 1 held
      let per := (n + w - 1) / w
      let est := if 8 ≤ l.doneCount then per * l.doneSum / l.doneCount else per * l.cost.toNat
      some (l.deadline - BitVec.ofNat 64 cycle - BitVec.ofNat 64 est).toInt

def State.reslack (s : State) (lid : Nat) : State :=
  s.updLaunch lid fun l => { l with slack := slackOf l (s.tilesHeld lid) s.cycle }

/-- A launch whose dependences are terminal runs, or is cancelled with DEPFAIL. -/
def State.readyLaunch (s : State) (lid : Nat) : State :=
  match s.launch? lid with
  | none => s
  | some l =>
    if !depsOver s l then s
    else if !(s.depStates l).all (· == some .completed) then s.finishLaunch lid .cancelled 0x10
    else if !stepInOrder s l then s
    else
      let s := s.readDesc lid
      match (s.launch? lid).bind (·.desc) with
      | none => s
      | some _ => (s.updLaunch lid fun l => { l with ready := true }).reslack lid

/-- 05 R140. -/
def execLaunchReady (lid : Nat) (s : State) : Answer := .next (s.readyLaunch lid)

/-- 05 R161. -/
def execSlackRecompute (s : State) : Answer :=
  .next (let s := (s.loom.launches.filter fun q => q.2.terminal.isNone && q.2.ready).foldl (fun s q => s.reslack q.1) s
    { s with loom := { s.loom with swept := s.cycle } })

/-! ### The checks of a descriptor (05 R142 to R147) -/


def partValid (w : BitVec 32) : Bool :=
  decide (1 ≤ partStrands w) && decide (partStrands w ≤ 8) && decide (partStrands w ≤ partRf w) &&
    decide (partRf w + partAcc w + partSpad w ≤ 96)

/-- The partition word of a task, when the launch is not refused (05 R147). -/
def partWord (part img : BitVec 32) : Option (BitVec 32) :=
  let w := if part = 0 then some img
    else if img = 0 then some part
    else if partStrands part = partStrands img ∧ partRf img ≤ partRf part ∧ partAcc img ≤ partAcc part ∧
        partSpad img ≤ partSpad part ∧ partGuard img ≤ partGuard part then some part
    else none
  w.filter partValid

/-- The image that holds an entry word of a context. -/
def imageOf (s : State) (pasid : BitVec 20) (entry : Word) : Option Image :=
  s.loom.images.find? fun im => im.pasid == pasid && im.entries.contains entry

def badDesc (l : Launch) (b : List Byte) : Bool :=
  b.isEmpty || l.descAddr.toNat % 64 != 0 || field b 0x1E 2 / 4 != 0 || (b.drop 0x50).any (· != 0) ||
    (l.snapAddr != 0 && !l.restart) || l.handler.toNat % 16 != 0

/-- The first check that fails, or the task's partition word. -/
def checkDesc (s : State) (l : Launch) (b : List Byte) : Except Nat (BitVec 32) :=
  if badDesc l b then .error 1
  else match imageOf s l.pasid l.entry with
    | none => .error 2
    | some im => match partWord l.part im.part with
      | none => .error 3
      | some w =>
        if l.stack % 16 ≠ 0 ∨ partSpad w * 0x10000 < partStrands w * l.stack then .error 4
        else if l.gangSize = 0 ∨ 8 < l.gangSize ∨ l.tasks = 0 ∨ l.tasks % l.gangSize ≠ 0 then .error 5
        else if 7 < l.cls then .error 6
        else .ok w

/-- A ready launch is checked: refused, or free to be placed; over, when every task it turns out to have was cancelled
before (05 R138). -/
def State.checkLaunch (s : State) (lid : Nat) : State :=
  match s.launch? lid with
  | none => s
  | some l => match l.desc with
    | none => s
    | some b => match checkDesc s l b with
      | .error code => s.finishLaunch lid .failed (BitVec.ofNat 32 code)
      | .ok w => (s.setLaunch lid { l with checked := true, part := w }).settleLaunch lid

/-! ### Rank (05 R160, R165, R174) -/

/-- What ranks a gang: slack, class, acceptance, first task. -/
structure Rank where
  slack : Option Int
  cls : Nat
  order : Nat
  task : Nat
  deriving DecidableEq, Repr

def slackLt : Option Int → Option Int → Bool
  | some a, some b => decide (a < b)
  | some _, none => true
  | none, _ => false

/-- The first comes before the second. -/
def Rank.above (a b : Rank) : Bool :=
  if a.slack ≠ b.slack then slackLt a.slack b.slack
  else if a.cls ≠ b.cls then decide (b.cls < a.cls)
  else if a.order ≠ b.order then decide (a.order < b.order)
  else decide (a.task < b.task)

def rankOf (l : Launch) (g : Nat) : Rank := { slack := l.slack, cls := l.cls, order := l.accepted, task := g * l.gangSize }

/-- Whether a ready gang may pre-empt a running one. -/
def mayPreempt (g v : Launch) : Bool :=
  match g.slack, v.slack with
  | some a, some b => decide (a + 160000 < b)
  | some _, none => true
  | none, none => decide (v.cls < g.cls)
  | none, some _ => false

/-- The first gang from `g` on that has a task to run: a cancelled task is never placed. -/
def nextOpen (l : Launch) : Nat → Nat → Option Nat
  | 0, _ => none
  | fuel + 1, g =>
    if l.tasks ≤ g * l.gangSize then none
    else if (openMembers l g).isEmpty then nextOpen l fuel (g + 1) else some g

/-- The gang of a launch that is to be placed next: one that was placed before and holds no tile, before any that was never
placed (05 R174). One whose restore waits on a gathered fault is not ready. -/
def gangToPlace (l : Launch) : Option Nat :=
  if !l.ready || !l.checked || l.terminal.isSome || l.cancelled || l.rest then none
  else match l.gangs.find? fun q => q.2.cluster.isNone with
    | some q => match q.2.wait with
      | .on _ _ _ => none
      | _ => some q.1
    | none => nextOpen l (l.recs.length + 1) l.nextGang

/-- A candidate: its launch and gang. -/
structure Cand where
  lid : Nat
  l : Launch
  g : Nat

def Cand.rank (c : Cand) : Rank := rankOf c.l c.g

def insertCand (c : Cand) : List Cand → List Cand
  | [] => [c]
  | d :: ds => if c.rank.above d.rank then c :: d :: ds else d :: insertCand c ds

/-- The ready gangs, highest rank first. -/
def candidates (s : State) : List Cand :=
  s.loom.launches.foldl (fun cs q => match gangToPlace q.2 with
    | some g => insertCand { lid := q.1, l := q.2, g } cs
    | none => cs) []

/-! ### Clusters (05 R157, R163, R164; 17 R444) -/

def tileFree (s : State) (t : Nat) : Bool :=
  let x := s.tile t
  x.task.isNone && !x.failed && !x.failing && x.shadow.isNone

def clusterTiles (c : Nat) : List Nat := (List.range 8).map (8 * c + ·)

/-- The free tiles of a cluster, with their shadows' tiles for a context in lockstep. -/
def freeTiles (s : State) (c : Nat) (lock : Bool) : List Nat :=
  (clusterTiles c).filter fun t => tileFree s t && (!lock || tileFree s (t + 8))

def clustersFor (lock : Bool) : List Nat := (List.range 24).filter fun c => !lock || c % 2 == 0

/-- No other gang of the cluster holds a barrier of the mask. -/
def barriersFree (s : State) (c : Nat) (q : Cand) : Bool :=
  s.loom.launches.all fun p => p.2.gangs.all fun g =>
    g.2.cluster != some c || (p.1 == q.lid && g.1 == q.g) || p.2.barmask &&& q.l.barmask == 0

/-- Tiles of a cluster that run tasks of a class. -/
def tilesOfClass (s : State) (c : Nat) (compute : Bool) : Nat :=
  ((clusterTiles c).filter fun t => match s.task? t with
    | none => false
    | some k => match s.launch? k.launch with
      | some l => l.classified == some compute
      | none => false).length

/-- How good a cluster is for a launch: lower is better. -/
def clusterCost (s : State) (q : Cand) (lock : Bool) (c : Nat) : Nat :=
  match q.l.classified with
  | some k => tilesOfClass s c k
  | none => 8 - (freeTiles s c lock).length

def minBy (f : Nat → Nat) : List Nat → Option Nat
  | [] => none
  | x :: xs => match minBy f xs with
    | some y => if f y < f x then some y else some x
    | none => some x

def lockstepOf (s : State) (l : Launch) : Bool := ccbLockstep s l.pasid

/-- The clusters whose tiles a gang in cluster `c` takes: its own, and in lockstep its shadow's (17 R444). -/
def clustersUsed (c : Nat) (lock : Bool) : List Nat := if lock then [c, c + 1] else [c]

/-- The clusters kept for a gang (05 R164). -/
def reservedClusters (s : State) : List Nat := match s.loom.reserved with
  | some (c, lid, _) => clustersUsed c (((s.launch? lid).map (lockstepOf s)).getD false)
  | none => []

/-- The cluster a gang is placed in, outside the ones kept for another. -/
def chooseCluster (s : State) (q : Cand) (kept : List Nat) : Option Nat :=
  let lock := lockstepOf s q.l
  let n := (openMembers q.l q.g).length
  minBy (clusterCost s q lock) ((clustersFor lock).filter fun c =>
    (clustersUsed c lock).all (!kept.contains ·) && decide (n ≤ (freeTiles s c lock).length) && barriersFree s c q)

/-- A tile that has not failed. -/
def tileWorks (s : State) (t : Nat) : Bool := !(s.tile t).failed && !(s.tile t).failing

/-- The cluster reserved for a gang that fits nowhere: the fewest tiles to free. DESIGN CHOICE (log
93): a failed tile is never one to free, and a cluster with too few others is not reserved. -/
def reserveCluster (s : State) (q : Cand) : Option Nat :=
  let lock := lockstepOf s q.l
  let n := (openMembers q.l q.g).length
  let works (c : Nat) : Nat := ((clusterTiles c).filter fun t => tileWorks s t && (!lock || tileWorks s (t + 8))).length
  minBy (fun c => n - (freeTiles s c lock).length) ((clustersFor lock).filter fun c => decide (n ≤ works c))

/-! ### Input snapshots of restartable tasks (17 R447) -/

/-- A copy inside a context, as the loom makes it. -/
def loomCopy (pasid : BitVec 20) (src dst len : Nat) : Hm Unit := do
  let ps ← unitParts pasid .load src len
  let r := readParts (← get) ps
  let qs ← unitParts pasid .store dst len
  modify fun s => writeParts s qs r.1 r.2

/-- The ranges a snapshot holds, with their offsets in a task's area, and the size of the area. -/
def snapRanges (pasid : BitVec 20) (args snap : Nat) : Hm (List (Nat × Nat × Nat) × Nat × Nat) := do
  let head ← uRead pasid snap 16
  let n := Nat.min (field head 4 4) 15
  let raw ← uRead pasid (snap + 16) (16 * n)
  let arglen := field head 0 4
  let bufs := (List.range n).map fun k => (field raw (16 * k) 8, field raw (16 * k + 8) 8)
  let r := bufs.foldl (fun (acc : List (Nat × Nat × Nat) × Nat) b =>
    (acc.1 ++ [(b.1, b.2, acc.2)], acc.2 + roundUp b.2 32)) ([(args, arglen, 0)], arglen)
  pure (r.1, field head 8 8, r.2)

/-- The snapshot of task `i` taken, or copied back; whether every copy was made. -/
def State.snapshot (s : State) (l : Launch) (i : Nat) (back : Bool) : Bool × State :=
  if l.snapAddr = 0 then (true, s)
  else match (do
      let (ranges, area, size) ← snapRanges l.pasid l.args.toNat l.snapAddr.toNat
      ranges.forM fun q =>
        let keep := area + i * size + q.2.2
        if back then loomCopy l.pasid keep q.1 q.2.1 else loomCopy l.pasid q.1 keep q.2.1 : Hm Unit) s with
    | .ok r => (true, r.2)
    | .error _ => (false, s)

/-! ### Placing a gang (05 R150, R163) -/

def Task.fresh (lid : Nat) (l : Launch) (i cycle : Nat) : Task :=
  { launch := lid, index := i, gang := i / l.gangSize, pasid := l.pasid, part := l.part, stack := l.stack, entry := l.entry,
    args := l.args, handler := l.handler, barmask := l.barmask, top := partGuard l.part * 256,
    floor := partSpad l.part * 0x10000 - partStrands l.part * l.stack, guards := List.range (partGuard l.part),
    slots := Vector.replicate 256 { gen := 0, state := .complete, issuer := 0, unit := .ce, issue := 0 }, lastSlot := 255,
    ceq := [], meq := [], fifo := Vector.replicate 6 0, order := 0, acc := [], oplines := [], kept := [], tm := [], l1 := [],
    ipins := [], l2pins := [], placed := cycle, preReq := none, nosafe := false, engStop := 0,
    failedBy := none, cancelled := false, tried := [], ending := .none }

/-- A task takes a tile, and its shadow's tile in lockstep; its scratchpad reads zero (07 R214). -/
def State.seat (s : State) (tile : Nat) (k : Task) (lock : Bool) (level : Nat) : State :=
  let s := (s.clearLoc (spadLoc tile 0) 0x1000000).updTile tile fun x => { x with task := some k, throttle := level }
  if lock then s.updTile (tile + 8) fun x => { x with shadow := some tile, throttle := level } else s

/-- A task starts afresh on a tile: strand 0 alone, at ENTRY. -/
def State.startTask (s : State) (lid : Nat) (l : Launch) (i tile : Nat) (lock : Bool) (level : Nat) : State :=
  let k := Task.fresh lid l i s.cycle
  (s.seat tile k lock level).startStrand tile k 0 l.entry l.args

/-- A task's first placement. -/
def State.placeNew (s : State) (lid : Nat) (lock : Bool) (level : Nat) (i tile : Nat) : State :=
  match s.launch? lid with
  | none => s
  | some l =>
    let r := if l.restart then s.snapshot l i false else (true, s)
    (r.2.updLaunch lid fun l => l.updRec i fun q => { q with phase := .running tile, placedOnce := true, snapOk := r.1 }).startTask
      lid l i tile lock level

/-- A gang placed for the first time. -/
def State.placeGang (s : State) (q : Cand) (c : Nat) : State :=
  let lock := lockstepOf s q.l
  let level := s.head.level.toNat
  let is := openMembers q.l q.g
  let g : Gang := { cluster := some c, barriers := [], saved := [], placedAt := s.cycle, preReq := none, level, powerLevel := 0, wait := .none }
  let pairs := is.zip (freeTiles s c lock)
  let s := pairs.foldl (fun s p => s.placeNew q.lid lock level p.1 p.2) s
  (s.updLaunch q.lid fun l => { l with gangs := FMap.set l.gangs q.g g, nextGang := q.g + 1,
                                       firstPlaced := some (l.firstPlaced.getD s.cycle) }).reslack q.lid

/-- The loom's answer to its ready gangs, highest rank first: a gang fits, is restored, or the cluster of the first that
does not is kept for it. A pre-empted gang is resumed by TASK_RESTORE. -/
inductive Choice
  | place (q : Cand) (c : Nat)
  | restore (q : Cand) (c : Nat)
  | nothing

def choose (s : State) (reserved : List Nat) : List Cand → Choice
  | [] => .nothing
  | q :: qs =>
    match chooseCluster s q reserved with
    | some c => if (FMap.get? q.l.gangs q.g).isSome then .restore q c else .place q c
    | none => choose s reserved qs

/-- The cluster kept for the highest-ranked gang that fits nowhere (05 R164). -/
def State.reserve (s : State) : State :=
  match candidates s with
  | [] => { s with loom := { s.loom with reserved := none } }
  | q :: _ =>
    if (chooseCluster s q []).isSome then { s with loom := { s.loom with reserved := none } }
    else match s.loom.reserved with
      | some (_, lid, g) => if lid = q.lid ∧ g = q.g then s else keep q
      | none => keep q
where
  keep (q : Cand) : State :=
    { s with loom := { s.loom with reserved := (reserveCluster s q).map fun c => (c, q.lid, q.g) } }

/-- What the loom would place now. -/
def choice (s : State) : Choice :=
  match candidates s with
  | [] => .nothing
  | q :: qs =>
    match chooseCluster s q [] with
    | some c => if (FMap.get? q.l.gangs q.g).isSome then .restore q c else .place q c
    | none => choose s (reservedClusters s) qs

/-- Ready launches whose descriptor is not checked yet. -/
def unchecked (s : State) : List Nat :=
  (s.loom.launches.filter fun q => q.2.ready && !q.2.checked && q.2.terminal.isNone).map (·.1)

/-- 05 R142, R163. -/
def execPlaceGang (s : State) : Answer :=
  let s := ((unchecked s).foldl State.checkLaunch s).reserve
  .next (match choice s with
    | .place q c => s.placeGang q c
    | _ => s)

/-! ### Classification (05 R162) -/

/-- 40,000 array cycles are 80,000 control cycles (00 R4). -/
def windowOver (l : Launch) (cycle : Nat) : Bool :=
  !l.classEnded && match l.firstPlaced with
    | some c => decide (c + 80000 ≤ cycle)
    | none => false

def classOf (mb by_ : Nat) : Option Bool :=
  if mb = 0 ∧ by_ = 0 then none else some ((by_ == 0 && mb != 0) || decide (8 * by_ ≤ mb * 1024))

/-- 05 R162. -/
def execClassifyWindowEnd (lid : Nat) (s : State) : Answer :=
  .next (s.updLaunch lid fun l =>
    if windowOver l s.cycle then { l with classEnded := true, classified := classOf l.mb l.byteCount } else l)

/-! ### Throttling (05 R166 to R168) -/

/-- The level a gang is to run at. -/
def gangLevel (s : State) (g : Gang) : Nat := Nat.max s.head.level.toNat g.powerLevel

def State.applyLevel (s : State) (lid g n : Nat) : State :=
  let tiles := s.gangTiles lid g
  let s := s.updLaunch lid fun l => l.updGang g fun k => { k with level := n }
  (tiles ++ (tiles.map (· + 8)).filter fun t => (s.tile t).shadow == some (t - 8)).foldl
    (fun s t => s.updTile t fun x => { x with throttle := n }) s

/-- 05 R167: at the start of an 8-cycle window. -/
def execThrottleLevelApply (lid : Nat) (gang : Nat) (s : State) : Answer :=
  .next (match (s.launch? lid).bind fun l => FMap.get? l.gangs gang with
    | none => s
    | some g => if s.cycle % 8 = 0 ∧ g.cluster.isSome ∧ gangLevel s g ≠ g.level then s.applyLevel lid gang (gangLevel s g) else s)

/-- The running gangs, with what orders them: the first is the first to be throttled. -/
def powerBefore (a b : (Nat × Launch) × (Nat × Gang)) : Bool :=
  let x := a.1.2
  let y := b.1.2
  if x.cls ≠ y.cls then decide (x.cls < y.cls)
  else if x.slack ≠ y.slack then slackLt y.slack x.slack
  else decide (b.2.2.placedAt < a.2.2.placedAt)

def firstBy {α : Type} (lt : α → α → Bool) : List α → Option α
  | [] => none
  | x :: xs => match firstBy lt xs with
    | some y => if lt y x then some y else some x
    | none => some x

def runningGangs (s : State) : List ((Nat × Launch) × (Nat × Gang)) :=
  s.loom.launches.flatMap fun p => (p.2.gangs.filter fun g => g.2.cluster.isSome).map fun g => (p, g)

/-- 05 R168: one step of one gang's level, up at the limit and down below it. DESIGN CHOICE (log 61): the first gang of the
order that can still go up goes up again, until it is at level 7, before the next one does. -/
def execPowerLimitChange (above : Bool) (s : State) : Answer :=
  let gs := (runningGangs s).filter fun q => if above then decide (q.2.2.powerLevel < 7) else decide (0 < q.2.2.powerLevel)
  .next (match firstBy (if above then powerBefore else fun a b => powerBefore b a) gs with
    | none => s
    | some q => s.updLaunch q.1.1 fun l => l.updGang q.2.1 fun g =>
        { g with powerLevel := if above then g.powerLevel + 1 else g.powerLevel - 1 })

/-! ### Yielding (05 R154) -/

def yieldOver (t : Strand) (cycle : Nat) : Bool := match t.yielding with
  | some c => decide (c + 64 < cycle)
  | none => false

/-- 05 R154. -/
def execYieldMarkExpire (sid : Nat) (s : State) : Answer :=
  .next (s.updStrand sid fun t => if yieldOver t s.cycle then { t with yielding := none } else t)

/-! ### Pre-emption requests (05 R165, 16 R425) -/

/-- Save slots of a context in use, and how many it has. -/
def slotsFree (s : State) (pasid : BitVec 20) : Nat := ccbNsave s pasid - (s.loom.slots.filter fun q => q.1 == pasid).length

/-- Tasks of running gangs of a context that are being pre-empted, whose slots are spoken for. -/
def slotsPending (s : State) (pasid : BitVec 20) : Nat :=
  (s.tilesWhere fun t => t.pasid == pasid && t.preReq.isSome).length

/-- A running gang as a victim. -/
structure Victim where
  lid : Nat
  l : Launch
  g : Nat
  gang : Gang
  tiles : List Nat

/-- The lower-ranked comes first; on equal rank the more recently placed. Gangs of one launch are of equal rank here
(log 94). -/
def victimBefore (a b : Victim) : Bool :=
  let x := rankOf a.l 0
  let y := rankOf b.l 0
  if x = y then decide (b.gang.placedAt < a.gang.placedAt) else y.above x

def insertVictim (v : Victim) : List Victim → List Victim
  | [] => [v]
  | w :: ws => if victimBefore v w then v :: w :: ws else w :: insertVictim v ws

/-- The running gangs that a ready gang may pre-empt, first victim first. -/
def victims (s : State) (q : Cand) : List Victim :=
  (runningGangs s).foldl (fun vs p =>
    let tiles := s.gangTiles p.1.1 p.2.1
    if mayPreempt q.l p.1.2 && p.2.2.preReq.isNone &&
        decide (tiles.length + slotsPending s p.1.2.pasid ≤ slotsFree s p.1.2.pasid)
    then insertVictim { lid := p.1.1, l := p.1.2, g := p.2.1, gang := p.2.2, tiles } vs else vs) []

/-- The tiles a victim holds, those of its shadows among them (17 R444). -/
def Victim.holds (s : State) (v : Victim) : List Nat :=
  v.tiles ++ (v.tiles.map (· + 8)).filter fun t => (s.tile t).shadow == some (t - 8)

/-- Whether the victims' tiles, once freed, let the gang fit in cluster `c`. -/
def fitsAfter (s : State) (q : Cand) (c : Nat) (vs : List Victim) : Bool :=
  let lock := lockstepOf s q.l
  let freed := vs.flatMap (·.holds s)
  let free (t : Nat) : Bool := tileFree s t || (freed.contains t && tileWorks s t)
  decide ((openMembers q.l q.g).length ≤ ((clusterTiles c).filter fun t => free t && (!lock || free (t + 8))).length) &&
    s.loom.launches.all fun p => p.2.gangs.all fun g =>
      g.2.cluster != some c || (p.1 == q.lid && g.1 == q.g) || vs.any (fun v => v.lid == p.1 && v.g == g.1) ||
        p.2.barmask &&& q.l.barmask == 0

/-- The victims that hold tiles a gang in cluster `c` would take, in order, until the gang fits; slots of a context are
counted as they are taken. -/
def takeVictims (s : State) (q : Cand) (c : Nat) : List Victim → List Victim → Option (List Victim)
  | [], _ => none
  | v :: vs, got =>
    if !(v.holds s).any fun t => (clustersUsed c (lockstepOf s q.l)).contains (t / 8) then takeVictims s q c vs got
    else
      let same := (got.filter fun w => w.l.pasid == v.l.pasid).flatMap (·.tiles)
      if slotsFree s v.l.pasid < same.length + v.tiles.length + slotsPending s v.l.pasid then takeVictims s q c vs got
      else if fitsAfter s q c (got ++ [v]) then some (got ++ [v]) else takeVictims s q c vs (got ++ [v])

/-- How far down the order of victims a choice reaches. -/
def reachOf (all : List Victim) (vs : List Victim) : Nat :=
  vs.foldl (fun n v => Nat.max n (all.findIdx fun w => w.lid == v.lid && w.g == v.g)) 0

/-- The victims chosen: the cluster whose victims are the lowest-ranked. -/
def chooseVictims (s : State) (q : Cand) : Option (Nat × List Victim) :=
  let all := victims s q
  let opts := (clustersFor (lockstepOf s q.l)).filterMap fun c => (takeVictims s q c all []).map fun vs => (c, vs)
  firstBy (fun a b => decide (reachOf all a.2 < reachOf all b.2)) opts

/-- Gangs that are being pre-empted already let the gang fit in some cluster, once they have stopped. -/
def freeing (s : State) (q : Cand) : Bool :=
  let going : List Victim := ((runningGangs s).filter fun p => p.2.2.preReq.isSome).map fun p =>
    { lid := p.1.1, l := p.1.2, g := p.2.1, gang := p.2.2, tiles := s.gangTiles p.1.1 p.2.1 }
  !going.isEmpty && (clustersFor (lockstepOf s q.l)).any fun c => fitsAfter s q c going

/-- The pre-emption due now: the ready gang and the victims. -/
def preemption (s : State) : Option (List Victim) :=
  match candidates s with
  | [] => none
  | q :: _ =>
    if (chooseCluster s q []).isSome || freeing s q then none
    else (chooseVictims s q).map (·.2)

/-- A request reaches every task of a gang (05 R156, 16 R421). -/
def State.requestPreempt (s : State) (lid g : Nat) : State :=
  let tiles := s.gangTiles lid g
  let s := s.updLaunch lid fun l => l.updGang g fun k => { k with preReq := some s.cycle }
  tiles.foldl (fun s t => s.updTask t fun k => { k with preReq := some s.cycle, nosafe := false }) s

/-- 05 R165. -/
def execPreemptRequest (s : State) : Answer :=
  .next (match preemption s with
    | none => s
    | some vs => vs.foldl (fun s v => s.requestPreempt v.lid v.g) s)

/-! ### The end of a task (05 R139, R152, R170 to R172; 13 R355) -/

/-- Older instructions of the strand have completed as at a precise trap: no queued store is whole, no atomic is on its
way (05 R170). -/
def quiescent (t : Strand) : Bool :=
  t.atoms.all (·.performed) &&
    match t.saq, t.sdq with
    | a :: _, d :: _ => t.ewin.any fun e => decide (e.seq < Nat.max a.seq d.seq)
    | _, _ => true

/-- No strand of an ending task issues. -/
def Task.ended (k : Task) : Bool := k.cancelled || k.failedBy.isSome

/-- What a task becomes, when it is to end now. -/
def taskEnd (s : State) (tile : Nat) : Option Terminal :=
  match s.task? tile with
  | none => none
  | some k =>
    if k.ended then
      if (s.running tile).all (fun i => match s.strand? i with
        | some t => quiescent t
        | none => true) then some (if k.cancelled then .cancelled else .failed)
      else none
    else if (s.running tile).isEmpty && k.ceq.isEmpty && k.meq.isEmpty then some .completed else none

/-- A tile is free, and its shadow's. -/
def State.unseat (s : State) (tile : Nat) : State :=
  let s := s.updTile tile fun x => { x with task := none }
  if (s.tile (tile + 8)).shadow = some tile then s.updTile (tile + 8) fun x => { x with shadow := none } else s

/-- The launch's record of a task that has ended. -/
def Launch.endTask (l : Launch) (k : Task) (t : Terminal) (cycle : Nat) : Launch :=
  let r := l.taskRec k.index
  let l := l.setRec k.index (r.over_ t)
  match t with
  | .completed => { l with doneSum := l.doneSum + (cycle - k.placed + r.ran), doneCount := l.doneCount + 1 }
  | .failed => { l with code := if l.code = 0 then BitVec.ofNat 32 (k.failedBy.getD 0) else l.code }
  | .cancelled => l

/-- FAILSTOP cancels the launch's other tasks (05 R172). -/
def State.failStop (s : State) (lid : Nat) (t : Terminal) : State :=
  match s.launch? lid with
  | none => s
  | some l =>
    if t ≠ .failed ∨ !l.failstop ∨ l.rest then s
    else
      let s := s.setLaunch lid { l with rest := true }
      (l.recs.map (·.1)).foldl (fun s i => s.markTask lid i) s

/-- A task leaves its tile with a terminal state, and the loom counts it. -/
def State.endTask (s : State) (tile : Nat) (k : Task) (t : Terminal) : State :=
  let s := ((s.haltTask tile).flushAll tile).detach k.id.toNat
  let s := (s.unseat tile).updLaunch k.launch fun l => l.endTask k t s.cycle
  ((s.closeGang k.launch k.gang).failStop k.launch t).settleLaunch k.launch

/-- A task ends: its stores are visible, its translation memory is released, its tile is free. The release waits while a
fault of it is unresolved. -/
def State.completeTask (s : State) (tile : Nat) : State :=
  match s.task? tile, taskEnd s tile with
  | some k, some t =>
    match k.ending with
    | .on _ _ _ => s
    | _ =>
      let waits (w : FaultWait) (s : State) : State := (s.haltTask tile).updTask tile fun k => { k with ending := w }
      runEvent k.pasid .sequence waits (do
        dropTm k.pasid k.tm
        modify fun s => s.endTask tile k t) s
  | _, _ => s

/-- What a task without a tile has left is released: its stream events at once, its page references unless a fault of one is
unresolved (13 R355, 14 R408). -/
def State.release (s : State) (i : Nat) (o : Orphan) : State :=
  let s := match o.task with
    | some id => s.detach id.toNat
    | none => s
  let put (l : List Orphan) (s : State) : State := { s with loom := { s.loom with orphans := l } }
  let rest := s.loom.orphans.eraseIdx i
  runEvent o.pasid .sequence (fun w => put (s.loom.orphans.set i { o with task := none, wait := w })) (do
    dropTm o.pasid o.tm
    modify (put rest)) s

/-- 05 R152. -/
def execTaskComplete (tile : Nat) (s : State) : Answer := .next (s.completeTask tile)

/-! ### Cancellation (05 R170, R171) -/

/-- The strands and engines of a cancelled task stop, once its older instructions have completed. -/
def State.stopCancelled (s : State) (tile : Nat) : State :=
  match s.task? tile, taskEnd s tile with
  | some k, some _ => if k.cancelled then s.haltTask tile else s
  | _, _ => s

/-- 05 R170: the loom accepts a cancellation, and stops what runs below it. -/
def execCancelAccept (level : Nat) (id : Nat) (s : State) : Answer :=
  .next (match s.target level id none with
    | none => s
    | some g =>
      let s := if (s.terminalOf g).isSome then s else s.acceptCancel g
      (s.targetTiles g).foldl State.stopCancelled s)

end Sys2Proof.Machine
end

