-- ==== Sys2Proof/Machine/Preempt.lean ====
section
/-! DEFINITION. Stopping a task's strands and engines for a pre-emption, and the watchdogs (11 R319, R320; 16 R414 to
R424). -/

namespace Sys2Proof.Machine

/-! ### Stop points (16 R421 to R423) -/

/-- The word of an instruction is marked PSAFE (01 R29). -/
def psafeOf (i : Instr) : Bool := match Decode.rawOf i with
  | some r => Decode.flag r.psafe
  | none => false

/-- Waits that a strand may be stopped in (16 R422). -/
def restWait : WaitWhy → Bool
  | .sleep _ | .semaphore _ | .completion | .bwait | .feedwait | .stream | .barrier _ => true
  | _ => false

/-- The access slice waits in an instruction at PC that is itself marked PSAFE. -/
def waitsSafe (t : Strand) : Bool := match t.waitA with
  | some w => restWait w.why && psafeOf w.instr && w.pc == t.pc
  | none => false

/-- Instructions that have changed no state while they wait at a unit (16 R422, 14 R401): BWAIT and the waiting ones of
class 6. -/
def leavesWait (opc : BitVec 10) : Bool :=
  opc == 0x285 || opc == 0x303 || opc == 0x304 || opc == 0x306 || opc == 0x311 || opc == 0x312

/-- The access slice has issued the instruction at PC, which is on its way at a unit, answered, or granted: the strand
stops at a later word (13 R358, 14 R401, 11 R315). -/
def sent (s : State) (sid : Nat) (t : Strand) : Bool :=
  t.answer.isSome || s.semGranted sid || match t.waitA with
    | some w => (w.why == .home || w.why == .gathered) && (match Decode.rawOf w.instr with
        | some r => decide (0x280 ≤ r.opc.toNat) && !leavesWait r.opc
        | none => false)
    | none => false

def fifoZero (k : Task) : Bool := k.fifo.toList.all (· == 0)

/-- Every older instruction has completed, and every LQ entry holds its data. -/
def stopDrained (t : Strand) : Bool := drained t && t.lq.all (·.data.isSome)

/-- The strand may stop at this moment. -/
def stopNow (s : State) (sid : Nat) (k : Task) (t : Strand) : Bool :=
  k.preReq.isSome && !k.ended && t.run == .running && t.rollback.isNone && (t.stop.isSome || waitsSafe t) && stopDrained t &&
    fifoZero k && !t.inh && !sent s sid t

/-- A strand as a stop leaves it: that of a precise trap at its PC. A wait it stopped in stays on record. -/
def Strand.halted (t : Strand) : Strand :=
  { (t.noReuse) with run := .stopped, pend := [], reads := [], young := [], early := [], sbA := Vector.replicate 6 0, sbE := Vector.replicate 6 0, stallA := 0,
                     stallE := 0, hintA := false, hintE := false, hintHeld := none, stampA := none, stampE := none,
                     waitA := if waitsSafe t then t.waitA else none, waitE := none, yielding := none, stop := none,
                     passed := false, recheck := false, answer := none, held := none, home := .none, bqPopped := [] }

/-- 16 R421, R422: the strand stops; it leaves the semaphore it waits at (11 R315). -/
def execPreemptStop (sid : Nat) (s : State) : Answer :=
  .next (match s.strand? sid, s.task? (tileOf sid) with
    | some t, some k =>
      if !isHead sid && stopNow s sid k t then (s.leaveSems sid).setStrand sid t.halted else s
    | _, _ => s)

/-- 16 R421: a strand that cannot stop at its stop point passes it. -/
def mustPass (k : Task) (t : Strand) (cycle : Nat) : Bool := match t.stop with
  | none => false
  | some c => if stopDrained t then !fifoZero k || t.inh else decide (c + 1024 ≤ cycle)

/-- 16 R421. -/
def execStopPointPass (sid : Nat) (s : State) : Answer :=
  .next (match s.strand? sid, s.task? (tileOf sid) with
    | some t, some k =>
      if !isHead sid && mustPass k t s.cycle then s.setStrand sid { t with stop := none, passed := true } else s
    | _, _ => s)

/-! ### The engines (11 R319, R320) -/

def engBit : Engine → Nat
  | .ce => 1 | .me => 2

def engStopped (k : Task) (e : Engine) : Bool := k.engStop / engBit e % 2 == 1

/-- The head command may complete now, fails now, or rolls its strand back now: it is not stopped. Once the other engine
has stopped, a command that has done its accesses is saved with its pushes pending. -/
def endsNow (s : State) (tile : Nat) (k : Task) (e : Engine) : Bool := match queueOf k e with
  | [] => false
  | c :: _ => (k.engStop == 0 && headDone e c && (copyHalf e c && c.phase == 1 || !copyHalf e c && canPush k.fifo (headPushes e c))) ||
      (headDone e c && poisonRollback s (8 * tile + c.issuer) c) || (c.phase == 1 && c.waiting.isFailed)

/-- The PIDX register of a running command. -/
def pidxOf (c : Cmd) : Word :=
  BitVec.ofNat 64 (c.phase * 2 ^ 62 + (if c.quiet then 2 ^ 56 else c.slot * 2 ^ 48) + c.index)

def Strand.setPidx (t : Strand) (e : Engine) (w : Word) : Strand := match e with
  | .ce => { t with cePidx := w }
  | .me => { t with mePidx := w }

/-- The command as it is saved: one that has done its accesses waits to push, an error of it is held for its strand. -/
def Cmd.stopped (c : Cmd) (e : Engine) : Cmd := { c with phase := if headDone e c then 2 else c.phase, waiting := .none }

/-- The engine stops: its running command's progress is its issuer's PIDX, every other strand's is 0; pins held for the
command are released (11 R312). An error it has met is its strand's when it completes (11 R310). -/
def State.stopEngine (s : State) (tile : Nat) (e : Engine) (k : Task) : State :=
  let s := (s.running tile).foldl (fun s i => s.updStrand i (·.setPidx e 0)) s
  let s := match queueOf k e with
    | [] => s
    | c :: rest =>
      let c := c.stopped e
      let s := s.updTask tile fun k => putQueue k e (c :: rest)
      if c.phase = 0 ∨ c.disowned then s else s.updStrand (8 * tile + c.issuer) (·.setPidx e (pidxOf c))
  s.updTask tile fun k => { k with engStop := k.engStop ||| engBit e, oplines := if e = .me then [] else k.oplines }

/-- 11 R319. -/
def execEnginePreemptStop (tile : Nat) (e : Engine) (s : State) : Answer :=
  .next (match s.task? tile with
    | some k => if preempting s tile k && !k.ended && !engStopped k e && !endsNow s tile k e && decide ((queueOf k e).length ≤ 16) then s.stopEngine tile e k else s
    | none => s)

/-! ### The watchdogs (16 R418, R419) -/

/-- The counted waits. -/
def counted : WaitWhy → Bool
  | .barrier _ | .token | .completion | .engine | .lqData | .lqEmpty | .xqEmpty | .bqEmpty | .lqFull | .saqFull | .sdqFull | .xqFull
  | .bqFull => true
  | _ => false

def countedWait (w : Option Wait) : Bool := match w with
  | some w => counted w.why
  | none => false

/-- The watchdog counts a strand's cycle: its task is placed and not stopping, and one of its slices is in a counted
wait. Any other cycle begins the count again. -/
def watched (s : State) (sid : Nat) (t : Strand) : Bool :=
  !isHead sid && t.run == .running && t.rollback.isNone && (countedWait t.waitA || countedWait t.waitE) && (match s.task? (tileOf sid) with
    | some k => k.preReq.isNone && !k.ended
    | none => false)

/-- The strand is stalled: the watchdog has counted W cycles since the slices last issued. -/
def stalled (s : State) (sid : Nat) (t : Strand) : Bool :=
  watched s sid t && (decide (t.quiet + s.dev.wdint.toNat ≤ s.cycle) || t.watchdog)

/-- The oldest waiting instruction: the head of E's window when E waits, or else the one at PC. -/
def oldestWait (t : Strand) : Option (Place × Slice × Instr) :=
  match t.ewin, t.waitE, t.waitA with
  | _ :: _, some w, _ => some (.window, .e, w.instr)
  | _, _, some w => some (.fetch, .a, w.instr)
  | _, _, none => none

/-- A strand that waits in a BARRIER withdraws its arrival. -/
def State.unarrive (s : State) (sid : Nat) : State :=
  match s.strand? sid, s.task? (tileOf sid) with
  | some t, some k => match t.waitA.map Wait.why with
    | some (WaitWhy.barrier n) =>
      (s.withdraw k.launch k.gang n (8 * k.index + numberOf sid)).updStrand sid fun t => { t with barPend := FMap.erase t.barPend n }
    | _ => s
  | _, _ => s

/-- 16 R418: STALLED is taken at the oldest waiting instruction; while INH is set the report is held. -/
def execWatchdogStall (sid : Nat) (s : State) : Answer :=
  .next (match s.strand? sid with
    | none => s
    | some t0 =>
      let t := settle s.cycle t0
      if !stalled s sid t then s
      else if t.inh then s.setStrand sid { t with watchdog := true }
      else match oldestWait t with
        | none => s
        | some (place, sl, i) =>
          if !drainedBefore t (seqOf t place) || (place == .fetch && !t.ewin.isEmpty) then s
          else
            let v : BitVec 56 := BitVec.ofNat 56 (((Decode.rawOf i).map fun r => r.opc.toNat).getD 0)
            let s := (s.setStrand sid t).unarrive sid
            let t := (s.strand? sid).getD t
            deliver s sid { t with watchdog := false } place sl i 0x11 1 v)

/-- Strands of a task that have not stopped, as a mask. -/
def notStopped (s : State) (tile : Nat) : List Nat :=
  ((s.running tile).filter fun i => match s.strand? i with
    | some t => t.run == .running
    | none => false).map numberOf

/-- The NOSAFE record of a task. -/
def State.rasNosafe (s : State) (tile : Nat) (k : Task) : State :=
  let ks := notStopped s tile
  s.ras { type := 0x08, sid := ks.headD 0, mask := ks.foldl (fun m i => m + 2 ^ i) 0, loc := tile, pasid := k.pasid, taskid := k.id,
          xcause := 0x11, xval := 0x0200000000000000 }

/-- 16 R419: one record for each task of the gang with a strand not yet stopped. -/
def execPreemptNosafe (lid : Nat) (gang : Nat) (s : State) : Answer :=
  .next ((s.gangTiles lid gang).foldl (fun s tile => match s.task? tile with
    | some k => match k.preReq with
      | some c =>
        if !k.nosafe && decide (c + s.dev.wdint.toNat ≤ s.cycle) && !(notStopped s tile).isEmpty then
          (s.rasNosafe tile k).updTask tile fun k => { k with nosafe := true }
        else s
      | none => s
    | none => s) s)

end Sys2Proof.Machine
end

