-- ==== Sys2Proof/Machine/Image.lean ====
section
/-! DEFINITION. The context image: a stopped task saved into a slot and restored from one (16 R424 to R431; 17 R440,
R441). -/

namespace Sys2Proof.Machine

/-! ### Records as bytes -/

/-- Bytes of an image from an offset on. -/
abbrev Piece := Nat × List Byte

def num (off n v : Nat) : Piece := (off, leBytes n v)

def flagNat (b : Bool) (n : Nat) : Nat := if b then n else 0

/-- A mark as XPADDR and the like hold it (16 R428). -/
def markWord (m : Mark) : Nat := m.addr.toNat + flagNat m.atomic (2 ^ 63)

def markOf (w : Nat) : Mark := { addr := BitVec.ofNat 56 w, atomic := w.testBit 63 }

/-- Numbers written one after the other. -/
def nums (off n : Nat) (l : List Nat) : List Piece := l.zipIdx.map fun q => num (off + n * q.2) n q.1

/-- x0 to x63, p0 to p6, and the marks: where the registers begin, and where XPADDR lies. -/
def regPieces (o pa : Nat) (x : Vector Word 64) (p : Vector PReg 8) (marks : List (Nat × Mark)) : List Piece :=
  nums o 8 ((x.toList.zipIdx).map fun q => if q.2 = 0 ∨ q.2 = 32 then 0 else q.1.toNat) ++
    nums (o + 0x200) 64 ((p.toList.take 7).map (·.toNat)) ++
    num (o + 0x3C0) 8 (marks.foldl (fun m q => m ||| 2 ^ q.1) 0) :: marks.map fun q => num (pa + 8 * q.1) 8 (markWord q.2)

def loopPieces (o : Nat) (l : Vector Loop 4) : List Piece :=
  (l.toList.zipIdx).flatMap fun q =>
    [num (o + 32 * q.2) 8 q.1.start.toNat, num (o + 32 * q.2 + 8) 8 q.1.stop.toNat, num (o + 32 * q.2 + 16) 4 q.1.count.toNat,
     num (o + 32 * q.2 + 20) 4 (flagNat q.1.active 1)]

/-- A format queue: its count and words, from two offsets. -/
def fqPieces (o w : Nat) (fq : List Word) : List Piece := num o 8 fq.length :: nums w 8 (fq.map (·.toNat))

/-- A record of the bobbin (06 R205). -/
def bobBytes (r : BobRec) : List Byte :=
  takeBytes (r.words.flatMap fun w => leBytes 4 w.toNat) 0 16 ++ leBytes 2 r.lane.toNat ++ leBytes 2 r.tag.toNat ++
    leBytes 1 r.count.toNat ++ List.replicate 11 0

/-- v0 to v63 and the bobbin in a register-file granule (05 R148). -/
def rfPieces (o : Nat) (v : Vector VReg 64) (bob : List BobRec) : List Piece :=
  nums o 512 (v.toList.map (·.toNat)) ++ bob.zipIdx.map fun q => (o + 0x8000 + 32 * q.2, bobBytes q.1)

/-- A turn record (17 R440). -/
def turnPieces (o : Nat) (q : Snap) (rolled : Bool) : List Piece :=
  regPieces o (o + 0x488) q.x q.p q.marks ++ num (o + 0x3C8) 8 q.hctl.toNat :: loopPieces (o + 0x3D0) q.loops ++
    fqPieces (o + 0x450) (o + 0x458) q.fq ++ num (o + 0x478) 2 q.bobbin.length :: nums (o + 0x47C) 1 q.fifo.toList ++
    [num (o + 0x484) 4 (1 + flagNat rolled 2)]

/-- SEQN. -/
def seqn (t : Strand) : Nat :=
  t.seqlog.length + flagNat t.seqFull 128 + t.seqNext % 128 * 256 + flagNat t.replaying (2 ^ 15)

def reportPieces (o : Nat) (r : Option Report) (more : Report → Nat) : List Piece := match r with
  | none => []
  | some r => [num o 8 r.val.toNat, num (o + 8) 8 (1 + more r)]

/-- Bits [2:1] and [63:32] of ENGREP. -/
def engrepBits (r : Report) : Nat :=
  (if r.both then 6 else match r.engine with
    | some .ce => 2
    | some .me => 4
    | none => 0) + r.issue.toNat * 2 ^ 32

/-- The bits of a queue's entries, from bit `k` on. -/
def tagBits (k : Nat) (l : List Bool) : Nat := l.zipIdx.foldl (fun m q => m + flagNat q.1 (2 ^ (k + q.2))) 0

def saqWord (e : SaqEnt) : Nat :=
  e.size + (Decode.chCode e.ch).toNat * 2 ^ 10 + (Decode.ordCode e.ord).toNat * 2 ^ 13 + (Decode.scopeCode e.scope).toNat * 2 ^ 15 +
    flagNat e.pl (2 ^ 18)

/-- The slice queues of a strand record. -/
def queuePieces (o : Nat) (t : Strand) : List Piece :=
  nums (o + 0x2000) 512 (t.lq.map fun e => (e.data.getD 0).toNat) ++
    nums (o + 0x6000) 8 (t.lq.map fun e => e.size + flagNat e.mark.isSome (2 ^ 16)) ++
    nums (o + 0x800) 8 (t.lq.map fun e => (e.mark.map markWord).getD 0) ++
    nums (o + 0x6100) 8 (t.saq.flatMap fun e => [e.addr.toNat, saqWord e]) ++
    nums (o + 0x6300) 8 (t.sdq.map fun e => e.size + flagNat e.mark.isSome (2 ^ 16) + flagNat e.annul (2 ^ 17)) ++
    nums (o + 0x6400) 512 (t.sdq.map (·.data.toNat)) ++ nums (o + 0xA400) 8 (t.xq.map (·.data.toNat)) ++
    nums (o + 0x900) 8 (t.xq.map fun e => (e.mark.map markWord).getD 0) ++ nums (o + 0xA480) 8 (t.bq.map (·.data.toNat)) ++
    nums (o + 0x980) 8 (t.bq.map fun e => (e.mark.map markWord).getD 0) ++
    [num (o + 0xA4C0) 8 (tagBits 0 (t.xq.map (·.mark.isSome)) + tagBits 16 (t.bq.map (·.mark.isSome)) +
       tagBits 24 (t.bq.map (·.annul))),
     num (o + 0xA4C8) 8 (t.lq.length + t.saq.length * 2 ^ 8 + t.sdq.length * 2 ^ 16 + t.xq.length * 2 ^ 24 + t.bq.length * 2 ^ 32)]

/-- The barrier whose arrival a strand holds, as its record names one: that it waits in, or else the first. -/
def heldBarrier (t : Strand) : Option Nat := match t.waitA.map Wait.why with
  | some (WaitWhy.barrier n) => some n
  | _ => t.barPend.head?.map (·.1)

/-- STATE: INWAIT, BARPEND and its barrier. -/
def stateBits (t : Strand) : Nat :=
  flagNat t.waitA.isSome 1 + match heldBarrier t with
    | some n => 2 + n % 64 * 256
    | none => 0

/-- A strand record (16 R428). -/
def strandPieces (o : Nat) (t : Strand) : List Piece :=
  regPieces o (o + 0x600) t.x t.p t.marks ++
    nums (o + 0x400) 8 ([t.pc, t.xpc, t.xcause, t.xval, t.xvec, t.xstat].map (·.toNat)) ++
    nums (o + 0x430) 8 (t.xscr.toList.map (·.toNat)) ++ nums (o + 0x450) 8 ([t.sbase, t.slimit, t.hctl].map (·.toNat)) ++
    nums (o + 0x468) 8 (t.perf.toList.map (·.toNat)) ++
    [num (o + 0x4A8) 8 t.cePidx.toNat, num (o + 0x4B0) 8 t.mePidx.toNat, num (o + 0x4B8) 8 (stateBits t),
     num (o + 0x4C0) 8 (seqn t), num (o + 0x4C8) 4 t.issue.toNat] ++
    loopPieces (o + 0x500) t.loops ++ reportPieces (o + 0x580) t.guardRep (fun _ => 0) ++
    reportPieces (o + 0x590) t.engRep engrepBits ++ reportPieces (o + 0x5A0) t.divRep (fun _ => 0) ++
    [num (o + 0x5B0) 4 t.turn.toNat, num (o + 0x5B8) 8 t.turnPc.toNat] ++ fqPieces (o + 0x5C0) (o + 0x5C8) t.fq ++
    [num (o + 0x5E8) 2 t.bobbin.length] ++ (t.seqlog.zipIdx.map fun q => (o + 0x1000 + 64 * q.2, q.1.bytes)) ++
    queuePieces o t

/-! ### The smaller records (16 R429) -/

def slotStateCode : SlotState → Nat
  | .complete => 0 | .pending => 1 | .failed => 2

def slotUnitCode : SlotUnit → Nat
  | .ce => 0 | .me => 1 | .sequence => 2 | .other => 3 | .both => 4

def slotBytes (q : Slot) : List Byte :=
  [q.gen, BitVec.ofNat 8 (slotStateCode q.state), q.issuer, BitVec.ofNat 8 (slotUnitCode q.unit)] ++ leBytes 4 q.issue.toNat

/-- FX12 of an engine command (02 R52). -/
def cmdFx (c : Cmd) : Nat := c.aux.toNat * 2 ^ 8 + flagNat c.quiet (2 ^ 4) + c.token.toNat

def cmdPieces (o : Nat) (c : Cmd) : List Piece :=
  [num o 2 (c.opc.toNat + (if c.opc = 0x208 then (Decode.tyCode c.ty).toNat * 2 ^ 10 else 0)), num (o + 2) 2 (cmdFx c), num (o + 4) 1 c.issuer,
   num (o + 5) 1 (if c.quiet then 0 else c.slot), num (o + 6) 1 c.phase, num (o + 7) 1 (flagNat c.quiet 1),
   num (o + 8) 4 c.turn.toNat, num (o + 12) 4 c.order, num (o + 0x10) 8 c.fmt.toNat] ++
    nums (o + 0x18) 8 ((c.params.take 5).map (·.toNat))

def tmPieces (o : Nat) (e : TmEnt) : List Piece :=
  [num o 4 (e.handle.toNat + e.slog % 32 * 2 ^ 24 + 2 ^ 29 + flagNat e.lock (2 ^ 30)), num (o + 4) 4 e.base.toNat,
   num (o + 8) 8 (e.va.toNat / 2 ^ 17 % 2 ^ 39 + e.limit * 2 ^ 39)]

/-! ### The whole image (16 R426, R427) -/

def partG (w : BitVec 32) : Nat := partRf w / partStrands w
def rfAt (w : BitVec 32) (k j : Nat) : Nat := 0x70000 + (k * partG w + j) * 0x10000
def accAt (w : BitVec 32) : Nat := 0x70000 + partRf w * 0x10000
def spadAt (w : BitVec 32) : Nat := accAt w + partAcc w * 0x10000
def imageLen (w : BitVec 32) : Nat := spadAt w + partSpad w * 0x10000

def strandAt (k : Nat) : Nat := 0x10000 + k * 0xC000
def turnAt (k : Nat) : Nat := 0x3000 + k * 0x800

/-- The barriers of a task's gang. -/
def State.gangBarriers (s : State) (k : Task) : FMap Barrier :=
  (((s.launch? k.launch).bind fun l => FMap.get? l.gangs k.gang).map (·.barriers)).getD []

/-- BARARR: which strands of the task have arrived at the current phase of each barrier (05 R157). -/
def arrivals (s : State) (k : Task) : List Piece :=
  (s.gangBarriers k).filterMap fun q =>
    let mine := q.2.arrived.filter (· / 8 == k.index)
    if q.1 < 64 ∧ !mine.isEmpty then some (num (0x40 + q.1) 1 (mine.foldl (fun m x => m + 2 ^ (x % 8)) 0)) else none

def headerPieces (s : State) (tile : Nat) (k : Task) (ts : List (Nat × Strand)) : List Piece :=
  [num 0 4 1, num 8 8 k.id.toNat, num 0x10 4 k.pasid.toNat, num 0x14 4 k.part.toNat, num 0x18 8 s.cycle, num 0x20 2 tile,
   num 0x22 1 (ts.foldl (fun m q => m + 2 ^ q.1) 0), num 0x23 1 k.ceq.length, num 0x24 1 k.meq.length, num 0x25 1 k.lastSlot] ++
    nums 0x26 1 k.fifo.toList ++ [num 0x2C 4 k.top, num 0x30 4 k.floor, num 0x34 4 k.tm.length, num 0x38 8 k.barmask.toNat] ++
    arrivals s k

/-- Everything of the image but the scratchpad. -/
def imagePieces (s : State) (tile : Nat) (k : Task) : List Piece :=
  let ts := (s.running tile).filterMap fun i => (s.strand? i).map fun t => (numberOf i, t)
  headerPieces s tile k ts ++ (k.slots.toList.zipIdx.map fun q => (0x1000 + 8 * q.2, slotBytes q.1)) ++
    (k.ceq.zipIdx.flatMap fun q => cmdPieces (0x1800 + 64 * q.2) q.1) ++
    (k.meq.zipIdx.flatMap fun q => cmdPieces (0x1C00 + 64 * q.2) q.1) ++
    [num 0x2000 4096 (k.guards.foldl (fun m g => m ||| 2 ^ g) 0)] ++
    (ts.flatMap fun q => match q.2.snap with
      | some sn => turnPieces (turnAt q.1) sn q.2.rolled ++
          (if 2 ≤ partG k.part then rfPieces (rfAt k.part q.1 1) sn.v sn.bobbin else [])
      | none => []) ++
    (k.tm.zipIdx.flatMap fun q => tmPieces (0x8000 + 16 * q.2) q.1) ++
    (ts.flatMap fun q => strandPieces (strandAt q.1) q.2 ++ rfPieces (rfAt k.part q.1 0) q.2.v q.2.bobbin) ++
    k.acc.map fun q => num (accAt k.part + 8 * q.1) 8 q.2.toNat

/-! ### Saving (16 R424, R425) -/

/-- The lowest free save slot of a context. -/
def freeSave (s : State) (pasid : BitVec 20) : Option Nat :=
  (List.range (ccbNsave s pasid)).find? fun n => !s.loom.slots.contains (pasid, n)

/-- The image written, VALID last. -/
def writeImage (tile slot : Nat) (k : Task) : Hm Unit := do
  let s ← get
  let base := imageField s k.pasid slot 0
  uZero k.pasid base (imageLen k.part)
  (imagePieces s tile k).forM fun q => if q.2.all (· == 0) then pure () else uWrite k.pasid (base + q.1) q.2
  let ps ← unitParts k.pasid .store (base + spadAt k.part) (partSpad k.part * 0x10000)
  modify fun s => ps.foldl (fun s p => s.copyLoc (spadLoc tile (p.va - base - spadAt k.part)) p.loc p.len) s
  uPut k.pasid (base + 4) 4 1

/-- The task leaves its tile for a slot; a gang whose tasks are all saved is pre-empted. What the image has no place for stays
with the loom (log 83). -/
def State.vacate (s : State) (tile slot : Nat) (k : Task) : State :=
  let keys := (s.running tile).map fun i => 8 * k.index + numberOf i
  let s := (s.running tile).foldl State.keepReplay s
  let s := (strandIds tile).foldl (fun s i => s.dropStrand i) s
  let s := (s.unseat tile).updLaunch k.launch fun l =>
    (l.updRec k.index fun r => { r with phase := .saved slot, ran := r.ran + (s.cycle - k.placed), kept := k.kept, queued := (k.ceq, k.meq), tm := k.tm,
                                        phases := (s.gangBarriers k).map fun q => (q.1, q.2.phase) }).updGang
      k.gang fun g => { g with saved := g.saved ++ keys }
  ({ s with loom := { s.loom with slots := s.loom.slots ++ [(k.pasid, slot)] } }).closeGang k.launch k.gang

/-- A task whose strands and engines have all stopped is saved. A fault of the save is gathered, and it waits. -/
def State.saveTask (s : State) (tile : Nat) (k : Task) : State :=
  match k.ending, freeSave s k.pasid with
  | .on _ _ _, _ => s
  | _, none => s
  | _, some slot =>
    let s := (s.flushAll tile).updTask tile fun k => { k with ipins := [], l2pins := [] }
    let waits (w : FaultWait) (s : State) : State := s.updTask tile fun k => { k with ending := w }
    runEvent k.pasid .sequence waits (do
      writeImage tile slot k
      modify fun s => s.vacate tile slot k) s

/-- 16 R424. -/
def execTaskSave (tile : Nat) (s : State) : Answer :=
  .next (match s.task? tile with
    | some k => if preempting s tile k && !k.ended && k.engStop == 3 then s.saveTask tile k else s
    | none => s)

/-! ### Reading an image -/

/-- Offsets from `va` on whose byte is not zero. -/
def uNonzero (pasid : BitVec 20) (va len : Nat) : Hm (List Nat) := do
  let ps ← unitParts pasid .load va len
  let s ← get
  pure (ps.flatMap fun p => (s.mem.filter fun c => p.loc ≤ c.1 && c.1 < p.loc + p.len && c.2 != 0).map fun c => c.1 - p.loc + (p.va - va))

/-- An image being read: its context and address. -/
structure Img where
  pasid : BitVec 20
  base : Nat

def Img.nat (m : Img) (off n : Nat) : Hm Nat := uNat m.pasid (m.base + off) n
def Img.bytes (m : Img) (off n : Nat) : Hm (List Byte) := uRead m.pasid (m.base + off) n
def Img.word (m : Img) (off : Nat) : Hm Word := do pure (BitVec.ofNat 64 (← m.nat off 8))
def Img.zero (m : Img) (off n : Nat) : Hm Bool := do pure (← uNonzero m.pasid (m.base + off) n).isEmpty

/-- Numbers one after the other. -/
def Img.list (m : Img) (off n count : Nat) : Hm (List Nat) := do
  let b ← m.bytes off (n * count)
  pure ((List.range count).map fun k => field b (n * k) n)

def vecOf {α : Type} (n : Nat) (d : α) (l : List α) : Vector α n := Vector.ofFn fun k => l.getD k.val d

def Img.words (m : Img) (off : Nat) (n : Nat) : Hm (Vector Word n) := do
  pure (vecOf n 0 ((← m.list off 8 n).map (BitVec.ofNat 64)))

/-- Marks: XPOIS and XPADDR. -/
def Img.marks (m : Img) (pois pa : Nat) : Hm (List (Nat × Mark)) := do
  let bitsOf ← m.nat pois 8
  let ws ← m.list pa 8 64
  pure (((List.range 64).filter fun n => bitsOf.testBit n).map fun n => (n, markOf (ws.getD n 0)))

def Img.preds (m : Img) (off : Nat) : Hm (Vector PReg 8) := do
  pure (vecOf 8 0 ((← m.list off 64 7).map (BitVec.ofNat 512)))

def Img.loops (m : Img) (off : Nat) : Hm (Vector Loop 4) := do
  let b ← m.bytes off 128
  pure (Vector.ofFn fun k =>
    { active := field b (32 * k.val + 20) 4 % 2 == 1, start := BitVec.ofNat 64 (field b (32 * k.val) 8),
      stop := BitVec.ofNat 64 (field b (32 * k.val + 8) 8), count := BitVec.ofNat 32 (field b (32 * k.val + 16) 4) })

def Img.fq (m : Img) (o w : Nat) : Hm (List Word) := do
  let n ← m.nat o 8
  pure (((← m.list w 8 4).take n).map (BitVec.ofNat 64))

def bobOf (b : List Byte) : BobRec :=
  let n := field b 20 1
  { words := (List.range 4).map fun j => BitVec.ofNat 32 (field b (4 * j) 4), lane := BitVec.ofNat 16 (field b 16 2),
    tag := BitVec.ofNat 16 (field b 18 2), count := BitVec.ofNat 8 n }

/-- The vector registers and the bobbin of a granule: count and oldest record from a BOBBIN field. -/
def Img.granule (m : Img) (off : Nat) (bob : Nat) : Hm (Vector VReg 64 × List BobRec) := do
  let v ← m.list off 512 64
  let b ← m.bytes (off + 0x8000) 0x8000
  let n := bob % 2 ^ 16
  let first := bob / 2 ^ 16
  pure (vecOf 64 0 (v.map (BitVec.ofNat 4096)),
    (List.range (Nat.min n 1024)).map fun i => bobOf (takeBytes b (32 * ((first + i) % 1024)) 32))

/-- A turn record, with the copy of the vector registers when the strand owns a second granule. -/
def Img.turn (m : Img) (o : Nat) (second : Option Nat) : Hm (Option Snap × Bool) := do
  let fl ← m.nat (o + 0x484) 4
  if fl % 2 = 0 then pure (none, fl / 2 % 2 == 1)
  else
    let rf ← match second with
      | some g => m.granule g (← m.nat (o + 0x478) 4)
      | none => pure (Vector.replicate 64 0, [])
    let snap : Snap := {
      x := ← m.words o 64
      v := rf.1
      p := ← m.preds (o + 0x200)
      marks := ← m.marks (o + 0x3C0) (o + 0x488)
      loops := ← m.loops (o + 0x3D0)
      hctl := ← m.word (o + 0x3C8)
      fq := ← m.fq (o + 0x450) (o + 0x458)
      bobbin := rf.2
      fifo := vecOf 6 0 (← m.list (o + 0x47C) 1 6) }
    pure (some snap, fl / 2 % 2 == 1)

/-- A held report. -/
def Img.report (m : Img) (o : Nat) : Hm (Option Report) := do
  let fl ← m.nat (o + 8) 8
  if fl % 2 = 0 then pure none
  else
    let val ← m.word o
    let u := fl / 2 % 4
    pure (some { val, engine := if u = 1 then some .ce else if u = 2 then some .me else none, both := u == 3,
                 issue := BitVec.ofNat 32 (fl / 2 ^ 32) })

/-- The mark of a queue entry. -/
def entryMark (set : Bool) (w : Nat) : Option Mark := if set then some (markOf w) else none

/-- The SAQ entries of a record, translated again at their own level; none when one no longer translates. -/
def Img.saq (m : Img) (o n tile sid : Nat) : Hm (Option (List SaqEnt)) := do
  let ws ← m.list (o + 0x6100) 8 (2 * n)
  (List.range n).foldlM (fun (acc : Option (List SaqEnt)) k => do
    match acc with
    | none => pure none
    | some l =>
      let addr : Word := BitVec.ofNat 64 (ws.getD (2 * k) 0)
      let w : Word := BitVec.ofNat 64 (ws.getD (2 * k + 1) 0)
      let pl := w.getLsbD 18
      match accessParts (← get) { tile, sid := some sid, pasid := m.pasid, user := !pl } .store addr (bits w 0 10) with
      | .error (.hold _ _ _) => throw (.pri addr.toNat)
      | .error _ => pure none
      | .ok r =>
        set r.2
        pure (some (l ++ [{ seq := 0, addr, size := bits w 0 10, parts := r.1, ch := Decode.chOf (w.extractLsb' 10 3),
                            ord := Decode.ordOf (w.extractLsb' 13 2), scope := Decode.scopeOf (w.extractLsb' 15 3), pl }]))) (some [])

/-- The queues of a record but SAQ. Its entries are older than every instruction of the resumed strand. -/
def Img.queues (m : Img) (o : Nat) (t : Strand) (saq : List SaqEnt) : Hm Strand := do
  let c ← m.word (o + 0xA4C8)
  let tag ← m.nat (o + 0xA4C0) 8
  let lqt ← m.list (o + 0x6000) 8 32
  let lqp ← m.list (o + 0x800) 8 32
  let sdt ← m.list (o + 0x6300) 8 32
  let xd ← m.list (o + 0xA400) 8 16
  let xp ← m.list (o + 0x900) 8 16
  let bd ← m.list (o + 0xA480) 8 8
  let bp ← m.list (o + 0x980) 8 8
  let lq ← (List.range (Nat.min (bits c 0 6) 32)).mapM fun k => do
    let d ← m.nat (o + 0x2000 + 512 * k) 512
    let w := lqt.getD k 0
    let e : LqEnt := { seq := 0, req := 0, size := w % 1024, data := some (BitVec.ofNat 4096 d), mark := entryMark (w.testBit 16) (lqp.getD k 0) }
    pure e
  let sdq ← (List.range (Nat.min (bits c 16 6) 32)).mapM fun k => do
    let d ← m.nat (o + 0x6400 + 512 * k) 512
    let w := sdt.getD k 0
    let e : SdqEnt := { seq := 0, size := w % 1024, data := BitVec.ofNat 4096 d, mark := entryMark (w.testBit 16) 0, annul := w.testBit 17 }
    pure e
  let xq := (List.range (Nat.min (bits c 24 5) 16)).map fun k =>
    ({ seq := 0, data := BitVec.ofNat 64 (xd.getD k 0), mark := entryMark (tag.testBit k) (xp.getD k 0), annul := false } : QEnt)
  let bq := (List.range (Nat.min (bits c 32 4) 8)).map fun k =>
    ({ seq := 0, data := BitVec.ofNat 64 (bd.getD k 0), mark := entryMark (tag.testBit (16 + k)) (bp.getD k 0),
       annul := tag.testBit (24 + k) } : QEnt)
  pure { t with lq, saq, sdq, xq, bq, seq := 1, qmark := 1 }

/-- A phase of the barrier has completed since the task was saved. -/
def phasePassed (s : State) (k : Task) (phases : FMap Nat) (n : Nat) : Bool :=
  s.phaseOf k.launch k.gang n != (FMap.get? phases n).getD 0

/-- The barrier arrival a strand holds: of the current phase while BARARR names the strand and no phase has completed since
the save, and otherwise of one that has completed (16 R422, R430). -/
def heldArrival (s : State) (k : Task) (phases : FMap Nat) (bararr : List Nat) (number st : Nat) : FMap Nat :=
  if st / 2 % 2 = 0 then []
  else
    let n := st / 256 % 64
    let ph := s.phaseOf k.launch k.gang n
    [(n, if (bararr.getD n 0).testBit number && !phasePassed s k phases n then ph else ph - 1)]

/-- The gang's arrivals, those of this task as its image holds them (16 R430). -/
def State.setArrivals (s : State) (k : Task) (phases : FMap Nat) (bararr : List Nat) : State :=
  (List.range 64).foldl (fun s n =>
    let b := (FMap.get? (s.gangBarriers k) n).getD Barrier.fresh
    let mine := ((List.range 8).filter (bararr.getD n 0).testBit).map (8 * k.index + ·)
    let new := mine.foldl NatSet.insert (b.arrived.filter (· / 8 != k.index))
    if phasePassed s k phases n || new = b.arrived then s
    else s.updLaunch k.launch fun l => l.updGang k.gang fun g => { g with barriers := FMap.set g.barriers n { b with arrived := new } }) s

/-- A strand as its record holds it; none when a queued store no longer translates. -/
def Img.strand (m : Img) (k : Task) (tile number : Nat) (r : TaskRec) (bararr : List Nat) : Hm (Option Strand) := do
  let o := strandAt number
  let sid := 8 * tile + number
  let c ← m.word (o + 0xA4C8)
  match ← m.saq o (Nat.min (bits c 8 6) 32) tile sid with
  | none => pure none
  | some saq =>
    let regs ← m.words (o + 0x400) 6
    let rf ← m.granule (rfAt k.part number 0) (← m.nat (o + 0x5E8) 4)
    let turn ← m.turn (turnAt number) (if 2 ≤ partG k.part then some (rfAt k.part number 1) else none)
    let sq ← m.nat (o + 0x4C0) 8
    let log ← m.bytes (o + 0x1000) 4096
    let pls ← m.words (o + 0x450) 3
    let s ← get
    let t := Strand.start regs[0] (pls[0] &&& ~~~15) (pls[1] &&& ~~~15) (regs[4] &&& ~~~15) regs[5]
    let xs ← m.words o 64
    let t : Strand := { t with
      x := xs
      v := rf.1
      p := ← m.preds (o + 0x200)
      marks := ← m.marks (o + 0x3C0) (o + 0x600)
      xpc := regs[1]
      xcause := regs[2] &&& 0xFF
      xval := regs[3]
      xscr := ← m.words (o + 0x430) 4
      hctl := pls[2]
      perf := ← m.words (o + 0x468) 8
      cePidx := ← m.word (o + 0x4A8)
      mePidx := ← m.word (o + 0x4B0)
      barPend := heldArrival s k r.phases bararr number (← m.nat (o + 0x4B8) 8)
      seqlog := seqEnts log (Nat.min (sq % 128) 64)
      seqFull := sq.testBit 7
      seqNext := sq / 256 % 128
      replaying := sq.testBit 15
      relog := (FMap.get? r.replay number).getD []
      issue := BitVec.ofNat 32 (← m.nat (o + 0x4C8) 4)
      loops := ← m.loops (o + 0x500)
      guardRep := ← m.report (o + 0x580)
      engRep := ← m.report (o + 0x590)
      divRep := ← m.report (o + 0x5A0)
      turn := BitVec.ofNat 32 (← m.nat (o + 0x5B0) 4)
      turnPc := ← m.word (o + 0x5B8)
      fq := ← m.fq (o + 0x5C0) (o + 0x5C8)
      bobbin := rf.2
      snap := turn.1
      rolled := turn.2
      quiet := s.cycle
      oplog := [] }
    pure (some (← m.queues o t saq))

def slotStateOf (n : Nat) : SlotState := if n = 1 then .pending else if n = 2 then .failed else .complete
def slotUnitFrom (n : Nat) : SlotUnit :=
  if n = 0 then .ce else if n = 1 then .me else if n = 2 then .sequence else if n = 4 then .both else .other

def slotFrom (b : List Byte) : Slot :=
  { gen := BitVec.ofNat 8 (field b 0 1), state := slotStateOf (field b 1 1), issuer := BitVec.ofNat 8 (field b 2 1),
    unit := slotUnitFrom (field b 3 1), issue := BitVec.ofNat 32 (field b 4 4) }

/-- Registers a command's parameters take (12 R322). -/
def paramCount (opc : Nat) : Nat := match opc with
  | 0x201 | 0x206 => 5
  | 0x202 | 0x203 | 0x205 => 4
  | 0x213 => 2
  | _ => 3

/-- A queue entry. The image has no place for the level of a command's issuer, for the issue number of a quiet one, for an
error already observed, for an issuer that has ended, or for progress of its command: these are as the loom kept them with the
command of the same ORDER and opcode, and those of an entry that firmware made up are user level, 0, none, not ended and 0
(DESIGN CHOICE, log 83). -/
def cmdFrom (slots : Vector Slot 256) (old : List Cmd) (b : List Byte) : Cmd :=
  let w := field b 0 2
  let fx := field b 2 2
  let quiet := field b 7 1 % 2 == 1
  let opc := w % 1024
  let slot := field b 5 1
  let was := old.find? fun c => c.order % 2 ^ 32 == field b 12 4 && c.opc.toNat == opc
  { opc := BitVec.ofNat 10 opc, ty := Decode.tyOf (BitVec.ofNat 4 (w / 1024 % 16)), aux := BitVec.ofNat 4 (fx / 256), token := BitVec.ofNat 4 fx, quiet,
    issuer := field b 4 1 % 8, user := (was.map (·.user)).getD true, slot,
    phase := if field b 6 1 < 3 then field b 6 1 else 0, index := (was.map (·.index)).getD 0, turn := BitVec.ofNat 32 (field b 8 4), order := field b 12 4,
    fmt := BitVec.ofNat 64 (field b 0x10 8), params := (List.range (paramCount opc)).map fun j => BitVec.ofNat 64 (field b (0x18 + 8 * j) 8),
    issue := if quiet then (was.map (·.issue)).getD 0 else slots[Fin.ofNat 256 slot].issue, error := was.bind (·.error),
    disowned := (was.map (·.disowned)).getD false, waiting := .none, copied := false, spills := some 0 }

/-- The running command of an engine goes on from its issuer's PIDX, and from where it stood when that strand has ended
(11 R320, R321). -/
def resumeHead (e : Engine) (pidx : Nat → Option Word) : List Cmd → List Cmd
  | [] => []
  | c :: rest =>
    if c.phase = 0 then c :: rest
    else
      let pidx (k : Nat) : Option Word := if c.disowned then none else pidx k
      let ph := match pidx c.issuer with
        | some w => if bits w 62 2 = 3 then 0 else bits w 62 2
        | none => c.phase
      let idx := if ph = 0 then 0 else match pidx c.issuer with
        | some w => bits w 0 48
        | none => c.index
      let c := { c with phase := ph, index := idx, spills := if ph = 1 then none else some 0 }
      { c with phase := if ph = 1 ∧ c.units e ≤ idx then 2 else ph } :: rest

/-- The restored follow-on of a CPMM may start once its copy part is done, and has not failed (12 R333). -/
def pairCopies (ceq meq : List Cmd) : List Cmd :=
  meq.map fun c => { c with copied := c.opc == 0x206 && ceq.any fun d => d.order == c.order && d.opc == 0x206 && d.phase == 2 && d.error.isNone }

def tmFrom (b : List Byte) : Option TmEnt :=
  let w := field b 0 4
  if w.testBit 29 then
    let x := field b 8 8
    some { handle := BitVec.ofNat 24 w, slog := w / 2 ^ 24 % 32, base := BitVec.ofNat 32 (field b 4 4),
           va := BitVec.ofNat 64 (x % 2 ^ 39 * 2 ^ 17), limit := x / 2 ^ 39 % 2 ^ 14, lock := w.testBit 30 }
  else none

/-- Reserved bytes of a strand's record and turn record. -/
def reservedOf (k : Nat) : List (Nat × Nat) :=
  [(strandAt k + 0x3C8, 56), (strandAt k + 0x4CC, 52), (strandAt k + 0x5EC, 20), (strandAt k + 0x9C0, 1600),
   (strandAt k + 0xA4D0, 6960), (strandAt k + 0x5B4, 4), (turnAt k + 0x482, 2), (turnAt k + 0x688, 376), (strandAt k + 0x4BA, 6),
   (strandAt k + 0x4C2, 6), (strandAt k + 0x589, 7), (strandAt k + 0x5A9, 7), (turnAt k + 0x485, 3)]

/-- Bits that are zero in each word of a run: where it begins, how many words, how far apart, and the first reserved bit and
how many (16 R428, R429; 17 R440, R441), XSTAT's and HCTL's among them (01 R29, R39). Every record's own fields. -/
def reservedBits (k : Nat) : List (Nat × Nat × Nat × Nat × Nat) :=
  let o := strandAt k
  let marks (at_ n : Nat) : Nat × Nat × Nat × Nat × Nat := (at_, n, 8, 56, 7)
  [(o + 0x4B8, 1, 8, 2, 6), (o + 0x4B8, 1, 8, 14, 2), (o + 0x4A8, 2, 8, 57, 5), (o + 0x510, 4, 32, 33, 31), (o + 0x518, 4, 32, 0, 64),
   (o + 0x588, 1, 8, 1, 7), (o + 0x598, 1, 8, 3, 29), (o + 0x5A8, 1, 8, 1, 7), marks (o + 0x600) 64, marks (o + 0x800) 32,
   marks (o + 0x900) 16, marks (o + 0x980) 8, (o + 0x1000, 64, 64, 10, 6), (o + 0x1000, 64, 64, 28, 4), (o + 0x1000, 64, 64, 33, 31),
   (o + 0x1028, 64, 64, 0, 64), (o + 0x1030, 64, 64, 0, 64), (o + 0x1038, 64, 64, 0, 64), (o + 0x6000, 32, 8, 10, 6),
   (o + 0x6000, 32, 8, 18, 46), (o + 0x6108, 32, 16, 19, 45), (o + 0x6300, 32, 8, 10, 6), (o + 0x6300, 32, 8, 18, 46),
   (o + 0xA4C0, 1, 8, 32, 32), (o + 0xA4C8, 1, 8, 6, 2), (o + 0xA4C8, 1, 8, 14, 2), (o + 0xA4C8, 1, 8, 22, 2), (o + 0xA4C8, 1, 8, 29, 3),
   (o + 0xA4C8, 1, 8, 36, 28), (turnAt k + 0x484, 1, 8, 2, 30), marks (turnAt k + 0x488) 64, (turnAt k + 0x3E0, 4, 32, 33, 31),
   (turnAt k + 0x3E8, 4, 32, 0, 64), (o + 0x428, 1, 8, 0, 2), (o + 0x428, 1, 8, 6, 1), (o + 0x428, 1, 8, 8, 56)] ++
    [o + 0x460, turnAt k + 0x3C8].flatMap fun a => [(a, 1, 8, 1, 3), (a, 1, 8, 8, 8), (a, 1, 8, 32, 32)]

/-- The same of the engine queues and the translation memory. -/
def reservedTask : List (Nat × Nat × Nat × Nat × Nat) :=
  [(0x1800, 32, 64, 14, 2), (0x1800, 32, 64, 57, 7), (0x8000, 2048, 16, 31, 1), (0x8008, 2048, 16, 53, 11)]

def Img.bitsZero (m : Img) (q : Nat × Nat × Nat × Nat × Nat) : Hm Bool := do
  let bs ← m.bytes q.1 ((q.2.1 - 1) * q.2.2.1 + 8)
  pure ((List.range q.2.1).all fun j => field bs (q.2.2.1 * j) 8 / 2 ^ q.2.2.2.1 % 2 ^ q.2.2.2.2 == 0)

/-- The checks of 16 R431 on the image itself: the records of strands that were not running are zero throughout. -/
def Img.accepted (m : Img) (k : Task) : Hm Bool := do
  let ok := (← m.nat 0 4) == 1 && (← m.nat 4 4) == 1 && (← m.word 8) == k.id && (← m.nat 0x10 4) == k.pasid.toNat &&
    (← m.nat 0x14 4) == k.part.toNat
  let mask ← m.nat 0x22 1
  let ran := (List.range 8).filter mask.testBit
  let idle := (List.range 8).filter (!mask.testBit ·)
  let zones := [(0x80, 3968), (0x7000, 4096)] ++ ran.flatMap reservedOf ++ idle.flatMap fun n => [(strandAt n, 0xC000), (turnAt n, 0x800)]
  let zs ← zones.mapM fun q => m.zero q.1 q.2
  let bz ← (reservedTask ++ ran.flatMap reservedBits).mapM m.bitsZero
  let beyond := (partSpad k.part * 256 + 7) / 8
  let guards ← m.zero (0x2000 + beyond) (4096 - beyond)
  pure (ok && zs.all id && guards && bz.all id)

/-- What a task resumes with: its record and its strands. -/
structure Resumed where
  k : Task
  ts : List (Nat × Strand)
  bararr : List Nat

/-- The image of a task read; none when it is not accepted (16 R430, R431). -/
def Img.task (m : Img) (k : Task) (tile : Nat) (r : TaskRec) : Hm (Option Resumed) := do
  if !(← m.accepted k) then pure none
  else
    let mask ← m.nat 0x22 1
    let ks := (List.range 8).filter fun n => mask.testBit n
    let bararr ← m.list 0x40 1 64
    let ts ← ks.mapM fun n => do pure (n, ← m.strand k tile n r bararr)
    if ts.any fun q => q.2.isNone then pure none
    else
      let ts := ts.filterMap fun q => q.2.map fun t => (q.1, t)
      let sl ← m.bytes 0x1000 2048
      let slots : Vector Slot 256 := Vector.ofFn fun j => slotFrom (takeBytes sl (8 * j.val) 8)
      let pidx (e : Engine) (n : Nat) : Option Word := (ts.find? (·.1 == n)).map fun q => if e = .ce then q.2.cePidx else q.2.mePidx
      let cs ← m.bytes 0x1800 2048
      let ceq := resumeHead .ce (pidx .ce) ((List.range (Nat.min (← m.nat 0x23 1) 16)).map fun j => cmdFrom slots r.queued.1 (takeBytes cs (64 * j) 64))
      let meq := resumeHead .me (pidx .me) ((List.range (Nat.min (← m.nat 0x24 1) 16)).map fun j => cmdFrom slots r.queued.2 (takeBytes cs (1024 + 64 * j) 64))
      let tms ← m.bytes 0x8000 0x8000
      let gs ← uNonzero m.pasid (m.base + 0x2000) 4096
      let gb ← m.bytes 0x2000 4096
      let an ← uNonzero m.pasid (m.base + accAt k.part) (partAcc k.part * 0x10000)
      let acc ← (an.map (· / 8)).eraseDups.mapM fun j => do pure (j, BitVec.ofNat 64 (← m.nat (accAt k.part + 8 * j) 8))
      let last ← m.nat 0x25 1
      let fifo ← m.list 0x26 1 6
      let top ← m.nat 0x2C 4
      let floor ← m.nat 0x30 4
      pure (some { ts, bararr, k := { k with
        slots, lastSlot := last, fifo := vecOf 6 0 fifo, top, floor,
        guards := gs.flatMap fun b => ((List.range 8).filter fun j => (gb.getD b 0).getLsbD j).map (8 * b + ·),
        ceq, meq := pairCopies ceq meq,
        order := (((ceq ++ meq).find? fun c => (ceq ++ meq).all fun d => !c.olderThan d).map (·.order + 1)).getD k.order,
        acc, tm := (List.range 2048).filterMap fun j => tmFrom (takeBytes tms (16 * j) 16) } })

/-! ### Restoring (16 R430, R431) -/

/-- The scratchpad copied back, VALID cleared. -/
def Img.finish (m : Img) (k : Task) (tile : Nat) : Hm Unit := do
  let ps ← unitParts m.pasid .load (m.base + spadAt k.part) (partSpad k.part * 0x10000)
  modify fun s => ps.foldl (fun s p => s.copyLoc p.loc (spadLoc tile (p.va - m.base - spadAt k.part)) p.len) s
  uPut m.pasid (m.base + 4) 4 0

/-- The task's slot is free (16 R425). -/
def State.freeSaved (s : State) (pasid : BitVec 20) (slot : Nat) : State :=
  { s with loom := { s.loom with slots := s.loom.slots.filter (· != (pasid, slot)) } }

/-- A task whose image is refused ends FAILED with CODE 0x30. -/
def State.failRestore (s : State) (lid i : Nat) : State :=
  match s.launch? lid with
  | none => s
  | some l =>
    let r := l.taskRec i
    let s := s.updLaunch lid fun l =>
      let l := (l.setRec i (r.over_ .failed)).forgetSaved i
      { l with code := if l.code = 0 then 0x30 else l.code }
    let s := s.orphan l.pasid (some (taskId lid i)) r.tm
    ((s.closeGang lid (i / l.gangSize)).failStop lid .failed).settleLaunch lid

/-- A saved task placed on a tile: what its image brings, or the fault that reading it meets. -/
def State.restoreTask (s : State) (lid : Nat) (lock : Bool) (level i tile : Nat) : Except UHalt State :=
  match s.launch? lid with
  | none => .ok s
  | some l => match (l.taskRec i).phase with
    | .saved slot =>
      let r := l.taskRec i
      let m : Img := { pasid := l.pasid, base := imageField s l.pasid slot 0 }
      let k := { (Task.fresh lid l i s.cycle) with kept := r.kept }
      match (do
          match ← m.task k tile r with
          | none => pure none
          | some q => do
            m.finish k tile
            pure (some q) : Hm (Option Resumed)) (s.seat tile k lock level) with
      | .ok (some q, s2) =>
        let s3 := q.ts.foldl (fun s p => s.setStrand (8 * tile + p.1) p.2) (s2.updTask tile fun _ => { q.k with tried := q.ts.map (·.1) })
        .ok (((s3.setArrivals k r.phases q.bararr).freeSaved l.pasid slot).updLaunch lid fun l => l.updRec i fun r =>
          { r with phase := .running tile, kept := [], queued := ([], []), tm := [], phases := [],
                   replay := r.replay.filter fun p => !q.ts.any (·.1 == p.1) })
      | .ok (none, _) => .ok ((s.freeSaved l.pasid slot).failRestore lid i)
      | .error e => .error e
    | _ => .ok s

/-- A task of a failed tile ends as FAILED with HARDFAULT. -/
def State.hardFault (s : State) (lid i : Nat) : State :=
  match s.launch? lid with
  | none => s
  | some l =>
    let s := (s.updLaunch lid fun l =>
      let l := (l.setRec i ((l.taskRec i).over_ .failed)).forgetSaved i
      { l with code := if l.code = 0 then 0x31 else l.code }).orphan l.pasid (some (taskId lid i)) []
    ((s.closeGang lid (i / l.gangSize)).failStop lid .failed).settleLaunch lid

/-- The snapshot of a lost task is copied back and the task starts afresh, replaying its strands' logged responses
(17 R447). -/
def State.again (s : State) (lid : Nat) (l : Launch) (i g tile : Nat) (level : Nat) : State :=
  let r := s.snapshot l i true
  if !r.1 then r.2.hardFault lid i
  else
    let logs := (l.relogs.filter fun q => q.1 / 8 == i).map fun q => (q.1 % 8, seqEnts q.2 (q.2.length / 64))
    let s := r.2.updLaunch lid fun l => (l.updRec i fun r => { r with phase := .running tile, replay := logs }).updGang g fun k =>
      { k with saved := k.saved.filter (· / 8 != i) }
    let s := (s.startTask lid l i tile (lockstepOf s l) level).reslack lid
    s.ras { type := 0x06, loc := tile, pasid := l.pasid, taskid := taskId lid i }

/-- A member of a gang placed again: restored, or re-executed when its tile was lost. -/
def State.resume (lid g : Nat) (lock : Bool) (level : Nat) (acc : Except UHalt State) (p : Nat × Nat) : Except UHalt State := do
  let s ← acc
  match s.launch? lid with
  | none => .ok s
  | some l => match (l.taskRec p.1).phase with
    | .unplaced => .ok (s.again lid l p.1 g p.2 level)
    | _ => s.restoreTask lid lock level p.1 p.2

/-- A gang that holds no tile placed again, all its members at once in one cluster (05 R156). While reading an image meets a
fault, the gang waits as it was. -/
def State.placeAgain (s : State) (q : Cand) (c : Nat) : State :=
  let lock := lockstepOf s q.l
  let g0 := FMap.get? q.l.gangs q.g
  let level := Nat.max s.head.level.toNat ((g0.map (·.powerLevel)).getD 0)
  let s1 := s.updLaunch q.lid fun l => l.updGang q.g fun g => { g with cluster := some c, placedAt := s.cycle, preReq := none, level, wait := .none }
  match ((openMembers q.l q.g).zip (freeTiles s c lock)).foldl (State.resume q.lid q.g lock level) (.ok s1) with
  | .ok s => ((s.updLaunch q.lid fun l => l.updGang q.g fun g =>
      { g with saved := g.saved.filter fun k => (l.taskRec (k / 8)).phase == .unplaced }).closeGang q.lid q.g).reslack q.lid
  | .error e => match unitFault s q.l.pasid .sequence e with
    | some r => r.2.updLaunch q.lid fun l => l.updGang q.g fun g => { g with wait := r.1 }
    | none => s

/-- A fault met while an image was read and resolved as failed makes the restore of the task fail whose image that is
(16 R433; log 95). -/
def State.dropLost (s : State) (q : Cand) : State :=
  match (FMap.get? q.l.gangs q.g).bind (·.wait.failedAt) with
  | none => s
  | some va =>
    let s := s.updLaunch q.lid fun l => l.updGang q.g fun g => { g with wait := .none }
    (openMembers q.l q.g).foldl (fun s i => match (q.l.taskRec i).phase with
      | .saved slot =>
        if imageField s q.l.pasid slot 0 ≤ va ∧ va < imageField s q.l.pasid slot 0x680000 then
          (s.freeSaved q.l.pasid slot).failRestore q.lid i
        else s
      | _ => s) s

/-- The gang placed again, without a member whose image was lost. -/
def State.restoreGang (s : State) (q : Cand) (c : Nat) : State :=
  let s := s.dropLost q
  match s.launch? q.lid with
  | none => s
  | some l => if l.terminal.isSome || (openMembers l q.g).isEmpty then s else s.placeAgain { q with l } c

/-- 16 R430: the loom resumes a pre-empted gang when it is the one to be placed. -/
def execTaskRestore (lid : Nat) (gang : Nat) (s : State) : Answer :=
  let s := s.reserve
  .next (match choice s with
    | .restore q c => if q.lid = lid ∧ q.g = gang then s.restoreGang q c else s
    | _ => s)

end Sys2Proof.Machine
end

