-- ==== Sys2Proof/Machine/Reliability.lean ====
section
/-! DEFINITION. The rollback of a turn (17 R438 to R442), failed tiles and the re-execution of their tasks (17 R446,
R447). -/

namespace Sys2Proof.Machine

/-! ### Rollback of a turn -/

/-- A command of the strand's turn `n`. -/
def ofTurn (number : Nat) (n : BitVec 32) (c : Cmd) : Bool := c.issuer == number && c.turn == n && !c.disowned

/-- A kept copy command as it is run again: its data alone, without tokens and without a slot. -/
def Cmd.again (c : Cmd) : Cmd :=
  { c with opc := if c.opc = 0x206 then 0x200 else c.opc, params := if c.opc = 0x206 then c.params.take 3 else c.params,
           token := 0, quiet := true, phase := 0, index := 0, error := none, waiting := .none, spills := some 0 }

/-- A queued command of the previous turn begins again; the copy part of a CPMM that is done is run again apart. -/
def Cmd.restart (c : Cmd) : Cmd := if c.phase = 1 then { c with index := 0, error := none, waiting := .none, spills := some 0 } else c

/-- Whether a kept command has done its accesses, so that it is put into the queue again. -/
def ranOnce (k : Task) (c : Cmd) : Bool := match k.ceq.find? (·.order == c.order) with
  | some q => q.phase == 2
  | none => true

/-- The running command of another strand or turn keeps its place at the head. -/
def putAgain (rerun : List Cmd) (number : Nat) (prev : BitVec 32) (q : List Cmd) : List Cmd := match q with
  | [] => rerun
  | c :: rest => if c.phase ≠ 0 ∧ !ofTurn number prev c then c :: (rerun ++ rest) else rerun ++ c :: rest

/-- Commands of the current turn are discarded, their slots complete; copies of the previous turn are run again in issue
order. -/
def Task.rewind (k : Task) (number : Nat) (turn : BitVec 32) : Task :=
  let gone := (k.ceq ++ k.meq).filter (ofTurn number turn)
  let k := gone.foldl (fun (k : Task) c => if c.quiet then k else k.endSlot c.slot false) k
  let keep (l : List Cmd) : List Cmd := l.filter fun c => !ofTurn number turn c
  let prev := turn - 1
  let rerun := ((k.kept.filter fun c => ofTurn number prev c && ranOnce k c).map Cmd.again)
  let ceq := (keep k.ceq).map fun c => if ofTurn number prev c then c.restart else c
  { k with ceq := putAgain rerun number prev ceq, meq := keep k.meq, kept := keep k.kept,
           oplines := k.oplines.filter fun q => !gone.any (·.order == q.1) }

/-- The strand at a boundary: words waiting in E are undone, its queued entries are discarded. -/
def Strand.emptied (t : Strand) : Strand :=
  { (t.noReuse) with lq := [], saq := [], sdq := [], xq := [], bq := [], pend := [], reads := [], young := [], early := [], loads := [], atoms := [],
                     sbA := Vector.replicate 6 0, sbE := Vector.replicate 6 0, stallA := 0, stallE := 0, hintA := false, hintE := false, hintHeld := none,
                     stampA := none, stampE := none, waitA := none, waitE := none, ewin := [], bqPopped := [], qmark := 0,
                     yielding := none, stop := none, passed := false, recheck := false, answer := none, held := none, home := .none }

/-- The snapshot restored: the turn begins again, its sequence log replayed (13 R361). -/
def Strand.rewound (t : Strand) (q : Snap) : Strand :=
  { (t.emptied) with x := q.x, v := q.v, p := q.p, marks := q.marks, loops := q.loops, hctl := q.hctl, fq := q.fq, bobbin := q.bobbin,
                     pc := t.turnPc, run := .running, rollback := none, replaying := true, seqNext := 0, oplog := [], badRegs := [], next := none }

/-- No copy of the strand's previous turn is still to run. -/
def refetched (k : Task) (number : Nat) (turn : BitVec 32) : Bool :=
  k.ceq.all fun c => !(ofTurn number (turn - 1) c && c.phase != 2)

/-- A strand's arrivals at barriers are withdrawn. -/
def State.unarriveAll (s : State) (sid : Nat) : State :=
  match s.strand? sid, s.task? (tileOf sid) with
  | some t, some k => t.barPend.foldl (fun s q => s.withdraw k.launch k.gang q.1 (8 * k.index + numberOf sid)) s
  | _, _ => s

/-- The cycle of a rollback for a checker mismatch is remembered: a second one soon after is the tile's failure (17 R446). -/
def State.noteRollback (s : State) (tile : Nat) (r : BitVec 8 × BitVec 8 × BitVec 56) : State :=
  if r.1 = 0x0F ∧ r.2.1 = 1 then s.updTile tile fun x => { x with diverged := some s.cycle } else s

/-- The address of the error that a rollback's record reports: none is known of a divergence (17 R449). -/
def triggerAddr (r : BitVec 8 × BitVec 8 × BitVec 56) : Word := if r.1 = 0x0F then 0 else r.2.2.setWidth 64

/-- An UNPICK of the strand is an operation of a stream, not yet complete (14 R393). -/
def State.unpicking (s : State) (sid : Nat) : Bool := s.su.streams.any fun q => q.2.inbox.contains (.unpick (some sid))

/-- The UNPICK that has answered the strand, and that it has not yet completed, is logged: a repeated turn does not make it
again (14 R395, 17 R448). -/
def State.logAnswer (s : State) (sid : Nat) (t : Strand) : State × Strand := match t.answer, t.waitA.map Wait.instr with
  | some w, some (Instr.unpick f) =>
    let e := homeEnt { opc := 0x302 } f t (if f.d = .x 0 then 0 else w)
    (s.logTask sid e, t.logSeq e)
  | _, _ => (s, t)

/-- Steps 1 to 3 of 17 R442. The engines go on, though they had stopped for a pre-emption: the strand is no longer
stopped. -/
def State.beginRollback (s : State) (sid : Nat) (t : Strand) (r : BitVec 8 × BitVec 8 × BitVec 56) : State :=
  let t0 := settle s.cycle t
  let t := match t0.ewin with
    | e :: _ => undoFrom t0 e
    | [] => t0
  if !drained t || s.unpicking sid then s
  else
    let (s, t) := (s.unstore sid (undone t0 t.seq)).logAnswer sid t
    let s := ((s.unarriveAll sid).leaveSems sid true).ras (s.rasFor sid
      { type := 0x02, addr := triggerAddr r, xpc := t.pc, xcause := r.1.setWidth 64, xval := r.2.1 ++ r.2.2 })
    let s := (s.setStrand sid { (t.emptied) with rolled := true, barPend := [] }).noteRollback (tileOf sid) r
    s.updTask (tileOf sid) fun k => { (k.rewind (numberOf sid) t.turn) with engStop := 0 }

/-- Steps 4 and 5. -/
def State.endRollback (s : State) (sid : Nat) (t : Strand) (k : Task) : State :=
  match t.snap with
  | none => s
  | some q =>
    if refetched k (numberOf sid) t.turn then
      (s.setStrand sid { (t.rewound q) with quiet := s.cycle }).updTask (tileOf sid) fun k => { k with fifo := q.fifo }
    else s

/-- 17 R442: a rollback that is due begins at a boundary of the strand, and ends when the copies of its previous turn
have run again. -/
def execRollback (sid : Nat) (s : State) : Answer :=
  .next (match s.strand? sid, s.task? (tileOf sid) with
    | some t, some k => match t.rollback with
      | none => s
      | some r =>
        if isHead sid || k.ended then s
        else if t.rolled then s.endRollback sid t k else s.beginRollback sid t r
    | _, _ => s)

/-! ### A failed tile (17 R446, R447) -/

/-- A task waits for its re-execution: its arrivals are withdrawn, and its strand 0 counts as running. -/
def State.awaitAgain (s : State) (k : Task) : State :=
  s.updLaunch k.launch fun l => (l.updRec k.index fun r => { r with phase := .unplaced }).updGang k.gang fun g =>
    { g with saved := g.saved.filter (· / 8 != k.index) ++ [8 * k.index],
             barriers := g.barriers.map fun q => (q.1, { q.2 with arrived := q.2.arrived.filter (· / 8 != k.index) }) }

/-- The tile's task is lost with it. What its stores wrote in the L1 is written back, as at every end of a task (05 R139;
log 52). -/
def State.loseTask (s : State) (tile : Nat) (k : Task) : State :=
  let s := (((s.haltTask tile).flushAll tile).unseat tile).orphan k.pasid none k.tm
  match s.launch? k.launch with
  | none => s
  | some l =>
    if l.restart && (l.taskRec k.index).snapOk && !k.ended then (s.awaitAgain k).closeGang k.launch k.gang
    else if k.cancelled then
      let s := (s.updLaunch k.launch fun l => l.setRec k.index ((l.taskRec k.index).over_ .cancelled)).orphan k.pasid (some k.id) []
      (s.closeGang k.launch k.gang).settleLaunch k.launch
    else s.hardFault k.launch k.index

/-- 17 R446: the tile is out of service until the next cold reset; a pair in lockstep fails together. -/
def execTileFailure (tile : Nat) (s : State) : Answer :=
  .next (if 192 ≤ tile || (s.tile tile).failed then s
    else
      let home := ((s.tile tile).shadow).getD tile
      let s := s.updTile tile fun x => { x with failed := true, failing := false }
      match s.task? home with
      | none => s.ras { type := 0x05, loc := tile }
      | some k => (s.ras { type := 0x05, loc := tile, pasid := k.pasid, taskid := k.id }).loseTask home k)

/-- The cluster is kept for a gang that ranks above this one (05 R164). A gang that is being pre-empted is let go on to its
stop points (log 104). -/
def keptFrom (s : State) (l : Launch) (g c : Nat) (gang : Gang) : Bool := match s.loom.reserved with
  | some (_, lid, h) => gang.preReq.isNone && (clustersUsed c (lockstepOf s l)).any (reservedClusters s).contains &&
      (match s.launch? lid with
        | some q => (rankOf q h).above (rankOf l g)
        | none => false)
  | none => false

/-- A tile for a lost task whose gang still holds tiles: one of the same cluster (05 R156). -/
def againTile (s : State) (l : Launch) (g : Nat) (gang : Gang) : Option Nat :=
  gang.cluster.bind fun c => if keptFrom s l g c gang then none else (freeTiles s c (lockstepOf s l)).head?

/-- A member placed while its gang is being pre-empted is pre-empted with it (05 R156). -/
def State.preemptAgain (s : State) (tile : Nat) (gang : Gang) : State :=
  if gang.preReq.isNone then s else s.updTask tile fun k => { k with preReq := some s.cycle }

/-- A lost task is re-executed: with its gang, which holds tiles; or, when it holds none, as the loom places the gang
again. -/
def State.reexec (s : State) (lid : Nat) (l : Launch) (task g : Nat) (gang : Gang) : State :=
  match gang.cluster with
  | some _ => match againTile s l g gang with
    | some tile => ((s.again lid l task g tile gang.level).preemptAgain tile gang).closeGang lid g
    | none => s
  | none => match choice s with
    | .restore q c => if q.lid = lid ∧ q.g = g then s.restoreGang q c else s
    | _ => s

/-- 17 R447. -/
def execTaskReexec (lid : Nat) (task : Nat) (s : State) : Answer :=
  .next (match s.launch? lid with
    | none => s
    | some l =>
      let r := l.taskRec task
      let g := task / l.gangSize
      match FMap.get? l.gangs g with
      | none => s
      | some gang =>
        if r.phase != .unplaced || !r.placedOnce || !l.restart || l.terminal.isSome || l.cancelled || l.rest then s
        else s.reserve.reexec lid l task g gang)

end Sys2Proof.Machine
end

