-- ==== Sys2Proof/Machine/Head.lean ====
section
/-! DEFINITION. Words that no row allocates (02 R61), and the headstock's own events: interrupts (19 R457), sensor updates
(19 R453 to R455), the restart of failed firmware (20 R480). -/

namespace Sys2Proof.Machine

/-! ### Unallocated opcodes -/

/-- 02 R61: cause ILL, subcode OPC, precise, and no other effect. -/
def execUnallocatedOpcode (w : IWord) (s : State) : Answer :=
  match s.focus, s.strand? s.sid with
  | some f, some t => .next (deliver s f.sid (settle s.cycle t) f.place (Decode.sliceOf (Decode.unpack w)) (.unallocatedOpcode w) 0x01 1 0)
  | _, _ => .fault .noStrand

/-! ### Interrupts (19 R457) -/

/-- The lowest interrupt that is pending and enabled. -/
def Headstock.interrupt (h : Headstock) : Option Nat :=
  (List.range 5).find? fun k => h.intpend.getLsbD k && h.intmask.getLsbD k

/-- The strand at a boundary, words that wait in E undone: the next instruction, or the waiting one, is at PC. -/
def Strand.atBoundary (t : Strand) : Strand := match t.ewin with
  | e :: _ => undoFrom t e
  | [] => t

/-- An operation at a unit's home is not left halfway (13 R358). -/
def atHome (t : Strand) : Bool :=
  t.home != .none || t.answer.isSome || match t.waitA with
    | some w => w.why == .home
    | none => false

/-- The interrupt that strand 0 is to take, and the strand as it takes it, once its results are in. -/
def interruptTo (s : State) : Option (Strand × Nat) :=
  match s.strand? 1536, s.head.interrupt with
  | some t, some k =>
    let b := (settle s.cycle t).atBoundary
    if !b.inh && !atHome t then some (b, k) else none
  | _, _ => none

/-- The interrupt due now: the strand as it takes it, and which it is. -/
def interruptDue (s : State) : Option (Strand × Nat) := (interruptTo s).filter fun q => drained q.1

/-- What the words that strand 0 undoes for an interrupt have stored is taken back. -/
def unstoreHead (s : State) (b : Strand) : State := match s.strand? 1536 with
  | some t => s.unstore 1536 (undone (settle s.cycle t) b.seq)
  | none => s

/-- 19 R457: delivered to strand 0 between two instructions; PEND stays set. -/
def execHeadstockInterrupt (s : State) : Answer :=
  .next (match interruptDue s with
    | some q => takeTrap (unstoreHead s q.1) 1536 q.1 q.1.pc (BitVec.ofNat 8 (0x20 + q.2)) 0 0
    | none => s)

/-! ### Sensors (19 R453 to R455) -/

/-- The readings at an update. -/
def Headstock.sense (h : Headstock) (cycle : Nat) (readings : List (BitVec 16)) : Headstock :=
  { h with tsen := Vector.ofFn fun k => readings.getD k.val 0, sensed := some cycle }

/-- The update of this cycle is still to be made (19 R453). -/
def sensorDue (s : State) : Bool := s.cycle % 160000 == 0 && s.head.sensed != some s.cycle && !s.host.off

/-- 19 R455: a bit that goes from 0 to 1 raises THERMAL. -/
def State.sense (s : State) (readings : List (BitVec 16)) : State :=
  let h := s.head.sense s.cycle readings
  let edge := (h.above && !s.head.above) || (h.below && !s.head.below)
  let s := s.setHead h
  if edge then s.raiseInt 0 else s

/-- 19 R453, R455: once in each cycle that is a multiple of 160,000. -/
def execSensorUpdate (readings : List (BitVec 16)) (s : State) : Answer :=
  .next (if sensorDue s && readings.length == 32 then s.sense readings else s)

/-- The update of this cycle, when the environment has not made it: its readings are free values (log 71). -/
def State.senseNow (s : State) : State :=
  if sensorDue s then { s with free := s.free + 1 }.sense ((List.range 32).map (Config.reading s.free)) else s

/-! ### The restart of failed firmware (20 R480) -/

/-- The headstock runs the verified image from its entry; no other strand of it runs. -/
def State.startFirmware (s : State) (fw : Firmware) : State :=
  let s := s.headFailed
  let s := { s with head := { s.head with failed := false, icache := [] } }
  (s.writeLoc fw.loc fw.bytes).startHead 0 fw.entry 0 0

/-- 20 R480: the hardware watchdog restarts a headstock whose firmware failed; interrupts stay pending. -/
def execHeadstockRestart (s : State) : Answer :=
  .next (match s.host.firmware with
    | some fw => s.startFirmware fw
    | none => s)

end Sys2Proof.Machine
end

