-- ==== Sys2Proof/Machine/Fetcher.lean ====
section
/-! DEFINITION. The fetcher: which queue a fetch context serves, the packets it reads (20 R472, R473), their acceptance
into the journal (20 R474 to R479), and the end of a command that the loom decides (20 R475). -/

namespace Sys2Proof.Machine

/-! ### Fetch contexts (20 R473) -/

def State.ctx? (s : State) (q : Nat) : Option FetchCtx := s.host.ctxs.find? (·.q == q)

def State.setCtx (s : State) (c : FetchCtx) : State :=
  { s with host := { s.host with ctxs := s.host.ctxs.filter (·.q != c.q) ++ [c] } }

/-- The QCB of a queue that runs. -/
def runningQcb (s : State) (q : Nat) : Option Nat :=
  match s.queue? q with
  | some h => if !h.absent && qcbState s h.qcb == qRun then some h.qcb else none
  | none => none

/-- Room in a feed. -/
def Feed.room (f : Feed) : Nat := f.size - (f.put - f.get)

/-- How many records a FEED appends at its next step: all of them at once (20 R481), or, of more than the feed holds, as many
as there is room for (log 110). -/
def HostCmd.feeds (c : HostCmd) (f : Feed) : Nat :=
  let all := c.arg 2 - c.progress
  if c.arg 2 ≤ f.size then (if all ≤ f.room then all else 0) else Nat.min all f.room

/-- A FEED waiting for room, or a DECODE waiting for its engine, holds its queue (20 R475). -/
def holding (s : State) (c : HostCmd) : Bool :=
  c.done.isNone &&
    ((c.opc == 0x04 && match FMap.get? s.su.feeds (c.arg 0) with
      | some f => c.feeds f == 0
      | none => false) ||
     (c.opc == 0x09 && !c.started && (FMap.get? s.su.decoders (c.arg 0)).isSome))

def queueHeld (s : State) (q : Nat) : Bool := s.host.cmds.any fun p => p.2.q == q && holding s p.2

/-- A context still serves its queue: it runs, waits on a fault, or is held. -/
def ctxServes (s : State) (c : FetchCtx) : Bool :=
  match s.queue? c.q with
  | some h => !h.absent && (qcbState s h.qcb == qRun || qcbState s h.qcb == qFetchFault || queueHeld s c.q)
  | none => false

/-- The running queues that no context serves, with their class. -/
def unserved (s : State) : List (Nat × Nat) :=
  s.host.queues.filterMap fun h => match runningQcb s h.1 with
    | some c => if (s.ctx? h.1).isNone then some (h.1, qcbClass s c) else none
    | none => none

/-- The next queue a free context takes: the highest class, and there the first after the one served last. -/
def nextQueue (s : State) : Option Nat :=
  let l := unserved s
  let top := l.foldl (fun m p => Nat.max m p.2) 0
  let same := (l.filter fun p => p.2 == top).map (·.1)
  match same.find? fun q => decide (s.host.served < q) with
  | some q => some q
  | none => same.head?

/-- A queue with a context: its own, or a free one when it is its turn. -/
def State.serve (s : State) (q : Nat) : Option (FetchCtx × State) :=
  match s.ctx? q with
  | some c => some (c, s)
  | none =>
    if nextQueue s ≠ some q then none
    else
      let live := s.host.ctxs.filter (ctxServes s)
      if live.length < 16 then
        let c : FetchCtx := { q, got := [] }
        some (c, { s with host := { s.host with ctxs := live ++ [c], served := q } })
      else none

/-! ### Reading packets (20 R472) -/

/-- The indices a context is to read: up to 16 from HEAD on. -/
def wanted (s : State) (qcb : Nat) (c : FetchCtx) : List Nat :=
  ((List.range (Nat.min 16 (qcbTail s qcb - qcbHead s qcb))).map (qcbHead s qcb + ·)).filter fun n => !c.got.any (·.1 == n)

/-- Packets read in order, until a fault: the queue then waits in FETCH_FAULT, or for the host's page. -/
def fetchPackets (q qcb : Nat) (pasid : BitVec 20) : List Nat → FetchCtx → State → State
  | [], c, s => s.setCtx c
  | n :: ns, c, s =>
    let va := qcbRing s qcb + 64 * (n % qcbSize s qcb)
    let wait (s : State) (sub : BitVec 8) (at_ : Nat) : State := s.updQueue q fun h => { h with wait := .on (pasid, pageOf at_) sub at_ }
    match unitAccess s (unitAgent pasid false) .load va 64 with
    | (.parts ps, s) => fetchPackets q qcb pasid ns { c with got := c.got ++ [(n, (readParts s ps).1)] } s
    | (.fault sub at_, s) =>
      if gathers sub then
        wait ((setQcbState (s.setCtx c) qcb qFetchFault).gather pasid at_ sub .host) sub at_
      else (s.setCtx c).stopQueue q qcb 3
    | (.pri at_, s) => wait (s.setCtx c) 1 at_

/-- A fetch is due: firmware runs, the queue runs and waits on nothing, and packets are unread. -/
def fetchDue (s : State) (q : Nat) : Bool :=
  s.dev.ready && match s.queue? q, runningQcb s q with
    | some h, some qcb => h.wait == .none && (s.serve q).isSome &&
        !(wanted s qcb ((s.ctx? q).getD { q, got := [] })).isEmpty
    | _, _ => false

def State.fetchRing (s : State) (q : Nat) : State :=
  if !fetchDue s q then s
  else match s.queue? q, runningQcb s q, s.serve q with
    | some h, some qcb, some (c, s) => fetchPackets q qcb h.pasid (wanted s qcb c) c s
    | _, _, _ => s

/-- 20 R472, R473. -/
def execRingFetch (q : Nat) (s : State) : Answer := .next (s.fetchRing q)

/-! ### Acceptance (20 R474, R477 to R479) -/

/-- How many arguments the table lists for a command; the firmware's own commands have all. -/
def listedArgs (opc : Nat) : Option Nat :=
  match opc with
  | 0x01 => some 5 | 0x02 => some 2 | 0x03 => some 2 | 0x04 => some 3 | 0x05 => some 4 | 0x06 => some 4 | 0x07 => some 4
  | 0x08 => some 2 | 0x09 => some 6 | 0x0A => some 4 | 0x0B => some 3 | 0x0C => some 0 | 0x0D => some 2
  | _ => if 0x80 ≤ opc then some 6 else none

/-- A packet without a reserved field set, of a known opcode. -/
def packetOk (p : List Byte) : Bool :=
  let opc := field p 0 1
  match listedArgs opc with
  | none => false
  | some n => decide (field p 1 1 < 2) && (field p 2 1 == 0 || opc == 0x01 || opc == 0x07) && field p 3 5 == 0 &&
      (p.drop (16 + 8 * n)).all (· == 0)

/-- Room in the journal: the entry that the next one replaces is free (20 R478). -/
def journalRoom (s : State) : Bool :=
  s.dev.jput.toNat < journalSize s || s.entryFree (s.dev.jput.toNat - journalSize s)

/-- The entry not yet free whose context and token a packet repeats (20 R479). -/
def repeated (s : State) (pasid : BitVec 20) (token : Nat) : Option Nat :=
  if token = 0 then none
  else (s.host.cmds.find? fun q => q.2.pasid == pasid && q.2.token == token && !s.entryFree (q.1 - 1)).map (·.1 - 1)

/-- The identifier a command names (20 R476 OBJ); a LAUNCH's is assigned. -/
def objOf (p : List Byte) (lid : Nat) : Word :=
  let arg (k : Nat) : Nat := field p (16 + 8 * k) 8
  BitVec.ofNat 64 (match field p 0 1 with
    | 0x01 => lid
    | 0x02 => arg 1
    | 0x03 => arg 1
    | 0x09 => arg 1
    | 0x0C => 0
    | 0x0D => 0
    | opc => if 0x80 ≤ opc then 0 else arg 0)

/-- The head of a queue advances past packet `n`; a queue with no more of them is idle. -/
def headPast (s : State) (q qcb n : Nat) : State :=
  let s := s.writeLocNat (qcb + 0x10) 8 (n + 1)
  let s := match s.ctx? q with
    | some c => s.setCtx { c with got := c.got.filter (·.1 != n) }
    | none => s
  if qcbTail s qcb ≤ n + 1 then setQcbState s qcb qIdle else s

/-- The packet at HEAD is recorded in both copies, then HEAD and JPUT advance; one that repeats a token is terminal at
once. -/
def State.journalPacket (s : State) (q qcb n : Nat) (pasid : BitVec 20) (p : List Byte) : State :=
  let seq := s.dev.jput.toNat
  let dup := repeated s pasid (field p 8 8)
  let r := if field p 0 1 = 0x01 && dup.isNone then s.takeLid else (0, s)
  let s := r.2
  let c : HostCmd := { q, pasid, ring := n, packet := p, obj := objOf p r.1, started := false, done := none, written := false, acc := s.cycle,
                       vec := qcbVec s qcb, progress := 0, held := [], wait := .none }
  let old := s.dev.jput.toNat + 1 - journalSize s
  let s := { s with host := { s.host with cmds := FMap.erase s.host.cmds old } }
  let s := match dup with
    | some o =>
      let c := { c with started := true, done := some (.completed, BitVec.ofNat 32 o), written := true }
      (s.newEntry seq c jDup (BitVec.ofNat 32 o)).setCmd (seq + 1) c
    | none => (s.newEntry seq c jAccepted 0).setCmd (seq + 1) c
  let s := { (headPast s q qcb n) with dev := { s.dev with jput := s.dev.jput + 1 } }
  match dup with
  | some _ => s.message c
  | none => s

/-- The packet at HEAD that a context has read, when the queue may go on. -/
def acceptable (s : State) (q : Nat) : Option (HostQueue × Nat × Nat × List Byte) :=
  if !s.dev.ready || !jrnOk s || queueHeld s q then none
  else match s.queue? q, runningQcb s q, s.ctx? q with
    | some h, some qcb, some c => (c.got.find? fun p => p.1 == qcbHead s qcb).map fun p => (h, qcb, p.1, p.2)
    | _, _, _ => none

/-- Whether a packet of the queue can be accepted, or stops it. -/
def acceptDue (s : State) (q : Nat) : Bool := match acceptable s q with
  | some r => !packetOk r.2.2.2 || journalRoom s
  | none => false

def State.accept (s : State) (q : Nat) : State :=
  match acceptable s q with
  | none => s
  | some (h, qcb, n, p) =>
    if !packetOk p then s.stopQueue q qcb 2
    else if !journalRoom s then s
    else s.journalPacket q qcb n h.pasid p

/-- 20 R477. -/
def execPacketAccept (q : Nat) (s : State) : Answer := .next (s.accept q)

/-! ### Commands that the loom ends (20 R475) -/

/-- The code of the first launch of a job that has one. -/
def jobCode (s : State) (j : Nat) : BitVec 32 :=
  ((s.loom.launches.find? fun q => q.2.code != 0 && (((s.object? q.2.graph).bind (·.parent)).bind s.object?).bind (·.parent) == some j).map
    (·.2.code)).getD 0

/-- How a LAUNCH or a JOBSTART has ended. -/
def loomEnd (s : State) (n : Nat) : Option (Terminal × BitVec 32) :=
  match s.launchOfCmd n with
  | some q => q.2.terminal.map fun t => (t, q.2.code)
  | none => match s.loom.objects.find? fun q => q.2.cmd == n with
    | some q => q.2.terminal.map fun t => (t, if t = .failed then jobCode s q.1 else 0)
    | none => none

/-- A command whose end is decided and not yet written. -/
def terminalDue (s : State) (n : Nat) : Option (Terminal × BitVec 32) :=
  match s.cmd? n with
  | some c => if c.written then none else match c.done with
    | some d => some d
    | none => if c.started then loomEnd s n else none
  | none => none

/-- 20 R475. -/
def execCommandTerminal (cmd : Nat) (s : State) : Answer :=
  .next (match terminalDue s cmd with
    | some d => s.endCmd cmd d.1 d.2
    | none => s)

end Sys2Proof.Machine
end

