-- ==== Sys2Proof/Machine/Commands.lean ====
section
/-! DEFINITION. What the host's commands do (20 R474, R475, R480, R481). -/

namespace Sys2Proof.Machine

/-! ### How a command runs -/

/-- A limit that the arguments break. -/
def badArg : Halt := .trap 0 0 0

/-- A limit of a command's arguments. -/
def limit (b : Bool) : Hm Unit := needH b badArg

/-- Every earlier command of the queue is terminal. -/
def earlierOver (s : State) (n : Nat) (q : Nat) : Bool :=
  s.host.cmds.all fun p => !(decide (p.1 < n) && p.2.q == q) || p.2.written

/-- A FENCE of the queue comes before the command and is not terminal. -/
def fenced (s : State) (n : Nat) (q : Nat) : Bool :=
  s.host.cmds.any fun p => decide (p.1 < n) && p.2.q == q && p.2.opc == 0x0C && !p.2.written

/-- A command that may run now: of one of the opcodes, not begun, no FENCE before it, its last fault resolved. -/
def startable (s : State) (n : Nat) (opc : Nat) : Option HostCmd :=
  (s.cmd? n).filter fun c => c.opc == opc && !c.started && !c.written && !fenced s n c.q &&
    (match c.wait with
      | .on _ _ _ => false
      | _ => true)

/-- A command's operation: a broken limit ends it as BADARG, a fault is gathered and waits, and a pair resolved as failed
ends it as CMDFAULT, with nothing changed (20 R474). -/
def runCommand (n : Nat) (c : HostCmd) (m : Hm Unit) (s : State) : State :=
  if c.wait.isFailed then s.cmdDone n .failed 0x41
  else match m s with
    | .ok r => r.2
    | .error (.halt (.wait _ _)) => s
    | .error (.halt (.hold _ _ _)) => s
    | .error (.halt _) => s.cmdDone n .failed 0x40
    | .error (.fault sub va who) =>
      if gathers sub then (s.gather c.pasid va sub (who.getD .host)).updCmd n fun c => { c with wait := .on (c.pasid, pageOf va) sub va }
      else s.cmdDone n .failed 0x41
    | .error (.pri va) => (s.askPage c.pasid va).updCmd n fun c => { c with wait := .on (c.pasid, pageOf va) 1 va }

/-- A row of the table that is one command of the host. -/
def execCommand (opc : Nat) (n : Nat) (m : HostCmd → Hm Unit) (s : State) : Answer :=
  .next (match startable s n opc with
    | some c => runCommand n c (m c) s
    | none => s)

/-- The command is terminal with its effect (20 R481). -/
def done (n : Nat) : Hm Unit := modify fun s => s.cmdDone n .completed 0

/-- The command goes on as an object of the loom, or at an engine. -/
def begun (n : Nat) : Hm Unit := modify fun s => s.updCmd n fun c => { c with started := true, wait := .none }

/-! ### LAUNCH, CLOSE, CANCEL -/

/-- The object a command names, created when it does not exist; the identifier 0, which names none, and an object that takes no
more children break a limit (20 R474). -/
def commandObject (level : Level) (id : Nat) (pasid : BitVec 20) (parent : Option Nat) : Hm Nat := do
  limit (id != 0)
  let r := (← get).ensureObject level id pasid parent
  match r.2.object? r.1 with
  | some o => limit (!o.closed && !o.cancelled)
  | none => pure ()
  set r.2
  pure r.1

/-- A launch that the loom still knows: of the context, its journal entry not yet free. -/
def knownLaunch (s : State) (pasid : BitVec 20) (lid : Nat) : Bool := match s.launch? lid with
  | some l => l.pasid == pasid && l.cmd != 0 && !s.entryFree (l.cmd - 1)
  | none => false

/-- The class byte of a command. -/
def classOver (c : HostCmd) : Option Nat := if c.cls = 0 then none else some (c.cls - 1)

def launchOp (n : Nat) (c : HostCmd) : Hm Unit := do
  let graph := c.arg 1 % 2 ^ 32
  let step := c.arg 1 / 2 ^ 32
  let job := c.arg 2
  let k := c.arg 3
  limit (decide (c.cls ≤ 8))
  limit (decide (job < 2 ^ 32))
  limit (decide (k ≤ 64) && (k == 0 || c.arg 4 % 4 == 0))
  let bs ← if k = 0 then pure [] else uRead c.pasid (c.arg 4) (4 * k)
  let deps := (List.range k).map fun i => field bs (4 * i) 4
  let s ← get
  limit (deps.all fun d => knownLaunch s c.pasid d)
  let j ← commandObject .job job c.pasid none
  let st ← commandObject .step step c.pasid (some j)
  let g ← commandObject .graph graph c.pasid (some st)
  modify fun s => s.addLaunch c.obj.toNat c.pasid (BitVec.ofNat 64 (c.arg 0)) deps (classOver c) n g none
  begun n

/-- 20 R474. -/
def execLaunch (cmd : Nat) (s : State) : Answer := execCommand 0x01 cmd (launchOp cmd) s

def levelOf : Nat → Level
  | 2 => .graph | 3 => .step | _ => .job

def hostCloseOp (n : Nat) (c : HostCmd) : Hm Unit := do
  limit (decide (2 ≤ c.arg 0) && decide (c.arg 0 ≤ 4) && c.arg 1 != 0 && decide (c.arg 1 < 2 ^ 32))
  match (← get).liveObject (levelOf (c.arg 0)) (c.arg 1) c.pasid with
  | some o => modify fun s => (s.updObject o fun q => { q with closed := true }).settleObject 3 o
  | none => pure ()
  done n

/-- 20 R474. -/
def execClose (cmd : Nat) (s : State) : Answer := execCommand 0x02 cmd (hostCloseOp cmd) s

/-- What a host's CANCEL names, in the queue's context alone. -/
def hostTarget (s : State) (pasid : BitVec 20) (level id : Nat) : Option Target :=
  (s.target level id (some pasid)).filter fun t => match t with
    | .task lid _ => (s.launch? lid).any (·.pasid == pasid)
    | .launch lid => (s.launch? lid).any (·.pasid == pasid)
    | .object _ => true

def hostCancelOp (n : Nat) (c : HostCmd) : Hm Unit := do
  limit (decide (c.arg 0 ≤ 4) && c.arg 1 != 0 && (c.arg 0 == 0 || decide (c.arg 1 < 2 ^ 32)))
  modify fun s => (s.cancel (hostTarget s c.pasid (c.arg 0) (c.arg 1))).2
  done n

/-- 20 R474, 05 R170. -/
def execHostCancel (cmd : Nat) (s : State) : Answer := execCommand 0x03 cmd (hostCancelOp cmd) s

/-! ### Feeds -/

/-- A feed of the queue's context. -/
def ownFeed (c : HostCmd) : Hm Feed := do
  match (← get).feed? (c.arg 0) with
  | some f =>
    limit (f.pasid == c.pasid)
    pure f
  | none => haltWith badArg

/-- Records appended at PUT, in order. -/
def appendRecords (pasid : BitVec 20) (f : Feed) : Nat → List Byte → Hm Unit
  | 0, _ => pure ()
  | k + 1, bs => do
    uWrite pasid (f.recordVa f.put) (takeBytes bs 0 64)
    appendRecords pasid { f with put := f.put + 1 } k (bs.drop 64)

/-- The records of a FEED that are still to be appended: all of them are read before the first one is. -/
def feedRecords (c : HostCmd) : Hm (List Byte) :=
  if c.progress = 0 then uRead c.pasid (c.arg 1) (64 * c.arg 2) else pure c.held

/-- The records are appended, and the command is done with the last (14 R398; 20 R481). Before the first of more than the feed
holds, the whole ring is looked at, so that no fault ends the command halfway (log 110). -/
def feedOp (n : Nat) (c : HostCmd) : Hm Unit := do
  limit (decide (1 ≤ c.arg 2) && decide (c.arg 2 ≤ 4096))
  let f ← ownFeed c
  let k := c.feeds f
  needH (k != 0) (stall .stream)
  let bs ← feedRecords c
  let _ ← unitParts c.pasid .store f.ring.toNat (if k < c.arg 2 then 64 * f.size else 0)
  appendRecords c.pasid f k bs
  modify fun s => (s.setFeed (c.arg 0) { f with put := f.put + k }).updCmd n fun c =>
    { c with progress := c.progress + k, held := bs.drop (64 * k), wait := .none }
  if c.progress + k = c.arg 2 then done n

/-- 20 R474. -/
def execFeed (cmd : Nat) (s : State) : Answer := execCommand 0x04 cmd (feedOp cmd) s

def feedcfgCreateOp (n : Nat) (c : HostCmd) : Hm Unit := do
  limit (c.arg 3 == 0 && decide (c.arg 0 < 4096) && ((← get).feed? (c.arg 0)).isNone && c.arg 1 % 64 == 0 && ringSizeOk (c.arg 2) &&
    inGeneral (c.arg 1) (64 * c.arg 2))
  modify fun s => s.setFeed (c.arg 0) { ring := BitVec.ofNat 64 (c.arg 1), size := c.arg 2, put := 0, get := 0, pasid := c.pasid }
  done n

/-- 20 R474. -/
def execFeedcfgCreate (cmd : Nat) (s : State) : Answer := execCommand 0x05 cmd (feedcfgCreateOp cmd) s

def feedcfgDestroyOp (n : Nat) (c : HostCmd) : Hm Unit := do
  limit (c.arg 3 == 1)
  let _ ← ownFeed c
  modify fun s => s.dropFeed (c.arg 0)
  done n

/-- 20 R474: strands that wait at the feed are woken with EMPTY. -/
def execFeedcfgDestroy (cmd : Nat) (s : State) : Answer := execCommand 0x05 cmd (feedcfgDestroyOp cmd) s

/-! ### STREAM (14 R376 to R380, R501) -/

/-- Bytes of a control block that are zero (14 R377). -/
def zeroFields : List RecField := [(0x46, 2), (0xC4, 4), (0xD2, 14), (0x140, 192)]

def pow2In (v lo hi : Nat) : Bool := (List.range 32).any fun k => v == 2 ^ k && decide (lo ≤ v) && decide (v ≤ hi)

/-- A rung word within 14 R384. -/
def rungOk (w : Nat) : Bool := decide (w < 2 ^ 44) && decide (1 ≤ w / 2 ^ 32 % 16) && decide (w / 2 ^ 32 % 16 ≤ 8) && w % 256 != 0

/-- The limits of 14 R377, for stream `num` of a context. -/
def blockOk (s : State) (img : List Byte) (num : Nat) (pasid : BitVec 20) : Bool :=
  let g (f : RecField) : Nat := field img f.1 f.2
  g cState == 1 && g cStream == num && decide (1 ≤ g cNrung) && decide (g cNrung ≤ 8) && decide (g cRung < g cNrung) &&
  g cCtx == pasid.toNat && decide (g cFlags < 4) && g cPeriod != 0 && decide (g cAhead ≤ 15) && decide (g cUprun ≤ 7) &&
  [1, 2, 4, 8, 16].contains (g cEqdepth) && decide (g cEnc ≤ 31) && decide (1 ≤ g cNbolt) && decide (g cNbolt ≤ 256) &&
  decide (g cCodec ≤ 1) && decide (g cHeadsel ≤ 1) && g cPtsstep != 0 && g cSeta % 16 == 0 && g cSetb % 16 == 0 &&
  g cLring % 128 == 0 && inWindow s (g cLring) 128 && g cEq % 32 == 0 && inWindow s (g cEq) (32 * g cEqdepth) &&
  g cOring % 128 == 0 && pow2In (g cOsize) (2 ^ 24) (2 ^ 28) && inGeneral (g cOring) (128 + g cOsize) &&
  g cIring % 64 == 0 && pow2In (g cIsize) 16 4096 && inGeneral (g cIring) (64 * g cIsize) &&
  zeroFields.all (fun f => (takeBytes img f.1 f.2).all (· == 0)) &&
  (List.range (g cNrung)).all fun r => rungOk (g (cRungWord r))

def headEntry (bs : List Byte) (k : Nat) : HeadEnt :=
  { h := field bs (16 * k) 4, q := field bs (16 * k + 4) 4, kind := BitVec.ofNat 8 (field bs (16 * k + 8) 1) }

/-- The limits of 14 R379. -/
def headsOk (bs : List Byte) (hs : List HeadEnt) (take : Nat) : Bool :=
  (hs.map (·.h)).Nodup && decide (1 ≤ (hs.headD { h := 0, q := 0, kind := 0 }).q) &&
    (hs.zipIdx).all fun e => decide (e.1.h < 2 ^ 24) && decide (e.1.q ≤ 4096) && decide (e.1.kind.toNat ≤ 3) &&
      decide (e.1.q * (take + 1) < 2 ^ 32) && (takeBytes bs (16 * e.2 + 9) 7).all (· == 0)

/-- The image of a STREAM command: its block and its head set, within every limit. `take`: the TAKE that the stream goes on
with, when it has one (14 R379, R381). -/
def readBlock (c : HostCmd) (take : Option Nat) : Hm (List Byte × List HeadEnt) := do
  let img ← uRead c.pasid (c.arg 1) 512
  limit (blockOk (← get) img (c.arg 0) c.pasid)
  let nb := field img cNbolt.1 cNbolt.2
  let tab := if field img cHeadsel.1 cHeadsel.2 = 0 then cSeta else cSetb
  let bs ← uRead c.pasid (field img tab.1 tab.2) (16 * nb)
  let hs := (List.range nb).map (headEntry bs)
  limit (headsOk bs hs (take.getD (field img cTake.1 cTake.2)))
  pure (img, hs)

/-- One hold on each head bolt (14 R380). -/
def holdHeads (pasid : BitVec 20) (hs : List HeadEnt) : Hm Unit := do
  let ar ← needArea pasid 0 0
  hs.forM fun e => do
    needLanded pasid e.h
    let h ← needHandle ar 0 (BitVec.ofNat 64 e.h)
    holdBolt ar h (BitVec.ofNat 64 e.h)

def dropHeads (pasid : BitVec 20) (hs : List HeadEnt) : Hm Unit := do
  let ar ← streamArea pasid
  hs.forM fun e => giveBack ar e.h

def Stream.new (img : List Byte) (home : Word) (heads : List HeadEnt) : Stream :=
  { img, home, heads, events := [], late := none,
    coding := { last := none, size := none, oversize := false, sinceKey := 0, gen := some (field img cSetgen.1 cSetgen.2) },
    job := none, template := [], firstId := 0, clsOver := none, step := none, stepRung := 0, stepIndex := 0, backDue := false,
    writeBack := .none, inbox := [], unpick := .none, lost := [] }

def streamCreateOp (n : Nat) (c : HostCmd) : Hm Unit := do
  limit (decide (c.arg 0 < 1024) && c.arg 2 == 0 && ((← get).liveStream (c.arg 0)).isNone)
  let (img, hs) ← readBlock c none
  holdHeads c.pasid hs
  modify fun s => s.setStream (c.arg 0) (Stream.new img (BitVec.ofNat 64 (c.arg 1)) hs)
  done n

/-- 20 R474. -/
def execStreamCreate (cmd : Nat) (s : State) : Answer := execCommand 0x06 cmd (streamCreateOp cmd) s

/-- A live stream of the queue's context, on which the command is next in order (14 R378). -/
def ownStream (c : HostCmd) (k : Nat) : Hm Stream := do
  match (← get).liveStream (c.arg k) with
  | some t =>
    limit (decide (c.arg k < 1024) && t.pasid == c.pasid)
    needH t.idle (stall .home)
    pure t
  | none => haltWith badArg

/-- An update brings the block and the head set; TAKE moves by take-up alone (14 R381). -/
def streamUpdateOp (n : Nat) (c : HostCmd) : Hm Unit := do
  limit (c.arg 2 == 1)
  let t ← ownStream c 0
  let (img, hs) ← readBlock c (some (t.get cTake))
  holdHeads c.pasid hs
  dropHeads c.pasid t.heads
  let t' := { t with img, heads := hs, home := BitVec.ofNat 64 (c.arg 1) }
  modify fun s => s.setStream (c.arg 0) (t'.put cTake (t.get cTake))
  done n

/-- 20 R474. -/
def execStreamUpdate (cmd : Nat) (s : State) : Answer := execCommand 0x06 cmd (streamUpdateOp cmd) s

/-- The stream's job releases no more steps (14 R382). -/
def closeJob (s : State) (t : Stream) : State := match t.job with
  | some j => (s.updObject j fun o => { o with closed := true }).settleObject 3 j
  | none => s

def streamDestroyOp (n : Nat) (c : HostCmd) : Hm Unit := do
  limit (c.arg 2 == 2)
  let t ← ownStream c 0
  dropHeads c.pasid t.heads
  modify fun s => closeJob { s with su := { s.su with streams := FMap.erase s.su.streams (c.arg 0) } } t
  done n

/-- 20 R474. -/
def execStreamDestroy (cmd : Nat) (s : State) : Answer := execCommand 0x06 cmd (streamDestroyOp cmd) s

/-! ### JOBSTART, TAKE, DECODE, INPUT -/

/-- The stream's earlier job is terminal. -/
def jobFree (s : State) (t : Stream) : Bool := match t.job.bind s.object? with
  | some o => o.terminal.isSome
  | none => true

def jobstartOp (n : Nat) (c : HostCmd) : Hm Unit := do
  limit (decide (c.cls ≤ 8))
  limit (c.arg 0 != 0 && decide (c.arg 0 < 2 ^ 32) && c.arg 2 % 8 == 0 && c.arg 3 != 0 && decide (c.arg 3 < 2 ^ 32))
  let t ← ownStream c 1
  limit (jobFree (← get) t)
  let head ← uRead c.pasid (c.arg 2) 8
  let k := field head 0 4
  limit (decide (1 ≤ k) && decide (k ≤ 16) && field head 4 4 == 0)
  let raw ← uRead c.pasid (c.arg 2 + 8) (8 * k)
  let j ← commandObject .job (c.arg 0) c.pasid none
  match (← get).object? j with
  | some o => limit (o.cmd == 0)
  | none => pure ()
  modify fun s =>
    let s := s.updObject j fun o => { o with stream := some (c.arg 1), cmd := n }
    let template := (List.range k).map fun i => BitVec.ofNat 64 (field raw (8 * i) 8)
    (s.setStream (c.arg 1) { t with job := some j, template, firstId := c.arg 3, clsOver := classOver c, step := none }).startStep (c.arg 1)
  begun n

/-- 20 R474, 14 R382. -/
def execJobstart (cmd : Nat) (s : State) : Answer := execCommand 0x07 cmd (jobstartOp cmd) s

def takeOp (n : Nat) (c : HostCmd) : Hm Unit := do
  let t ← ownStream c 0
  limit (decide (c.arg 1 < 2 ^ 32))
  limit (decide (c.arg 1 ≤ (← genOf t)))
  modify fun s => s.updStream (c.arg 0) (·.put cTake (Nat.max (t.get cTake) (c.arg 1)))
  done n

/-- 20 R474: as STAKE (14 R404). -/
def execTake (cmd : Nat) (s : State) : Answer := execCommand 0x08 cmd (takeOp cmd) s

def decodeOp (n : Nat) (c : HostCmd) : Hm Unit := do
  limit (decide (c.arg 0 < 8) && decide (c.arg 1 < 1024))
  match (← get).liveStream (c.arg 1) with
  | some t => limit (t.pasid == c.pasid)
  | none => haltWith badArg
  needH (FMap.get? (← get).su.decoders (c.arg 0)).isNone (stall .engine)
  let job : DecodeJob := { stream := c.arg 1, addr := BitVec.ofNat 64 (c.arg 2), len := c.arg 3, pts := BitVec.ofNat 64 (c.arg 4),
                           out := BitVec.ofNat 64 (c.arg 5), pasid := c.pasid, cmd := n, wait := .none }
  modify fun s => { s with su := { s.su with decoders := FMap.set s.su.decoders (c.arg 0) job } }
  begun n

/-- 20 R474, 14 R391. -/
def execDecode (cmd : Nat) (s : State) : Answer := execCommand 0x09 cmd (decodeOp cmd) s

/-- The picture of an INPUT command. -/
def inputOf (c : HostCmd) : StreamInput :=
  let w : Word := BitVec.ofNat 64 (c.arg 3)
  { error := false, pts := BitVec.ofNat 64 (c.arg 2), source := 0xFF, addr := BitVec.ofNat 64 (c.arg 1),
    width := w.extractLsb' 0 16, height := w.extractLsb' 16 16, pitch := w.extractLsb' 32 32 }

def inputOp (n : Nat) (c : HostCmd) : Hm Unit := do
  limit (decide (c.arg 0 < 1024))
  match (← get).liveStream (c.arg 0) with
  | some t => limit (t.pasid == c.pasid)
  | none => haltWith badArg
  begun n
  modify fun s => s.arriveInput (c.arg 0) (inputOf c) (some n)

/-- 20 R474, 14 R392: the command is terminal when its arrival is. -/
def execInput (cmd : Nat) (s : State) : Answer := execCommand 0x0A cmd (inputOp cmd) s

/-! ### INVAL, FENCE, SIGNAL and the firmware's own -/

/-- Whether a range covers an entry or a line of a context: of length 0 it is the whole context. -/
def overlaps (a len base size : Nat) : Bool := len == 0 || (decide (a < base + size) && decide (base < a + len))

/-- Every TLB entry that covers a byte of the range goes, and every fetched line of it (07 R236, 03 R100). -/
def State.invalidate (s : State) (pasid : BitVec 20) (a len : Nat) : State :=
  let keepE (e : TlbEnt) : Bool := !(e.pasid == pasid && overlaps a len e.base e.size)
  let keepL (l : ILine) : Bool := !(l.pasid == pasid && overlaps a len l.va 128)
  { s with tiles := s.tiles.map fun q => (q.1, { q.2 with tlb := q.2.tlb.filter keepE, icache := q.2.icache.filter keepL })
           clusters := s.clusters.map fun q => (q.1, { q.2 with tlb := q.2.tlb.filter keepE })
           head := { s.head with icache := s.head.icache.filter keepL } }

def invalOp (n : Nat) (c : HostCmd) : Hm Unit := do
  limit (decide (c.arg 0 < 2 ^ 20))
  modify fun s => s.invalidate (BitVec.ofNat 20 (c.arg 0)) (c.arg 1) (c.arg 2)
  done n

/-- 20 R474. -/
def execInval (cmd : Nat) (s : State) : Answer := execCommand 0x0B cmd (invalOp cmd) s

def hostFenceOp (n : Nat) (c : HostCmd) : Hm Unit := do
  needH (earlierOver (← get) n c.q) (stall .older)
  done n

/-- 20 R474: terminal when every earlier command of the queue is. -/
def execHostFence (cmd : Nat) (s : State) : Answer := execCommand 0x0C cmd (hostFenceOp cmd) s

def signalOp (n : Nat) (c : HostCmd) : Hm Unit := do
  limit (c.arg 0 % 8 == 0)
  uPut c.pasid (c.arg 0) 8 (c.arg 1)
  done n

/-- 20 R474. -/
def execSignal (cmd : Nat) (s : State) : Answer := execCommand 0x0D cmd (signalOp cmd) s

/-- 20 R474: a command of the firmware's own is handed to the headstock with HOSTCMD; it reads the packet in the
journal. -/
def execFirmwareCommand (cmd : Nat) (s : State) : Answer :=
  .next (match (s.cmd? cmd).bind fun c => startable s cmd c.opc with
    | some c => if 0x80 ≤ c.opc then (s.raiseInt 2).cmdDone cmd .completed 0 else s
    | none => s)

/-- What a command's opcode makes of it. -/
def commandMeaning (n : Nat) (c : HostCmd) : State → Answer :=
  match c.opc with
  | 0x01 => execLaunch n
  | 0x02 => execClose n
  | 0x03 => execHostCancel n
  | 0x04 => execFeed n
  | 0x05 => if c.arg 3 = 1 then execFeedcfgDestroy n else execFeedcfgCreate n
  | 0x06 => if c.arg 2 = 1 then execStreamUpdate n else if c.arg 2 = 2 then execStreamDestroy n else execStreamCreate n
  | 0x07 => execJobstart n
  | 0x08 => execTake n
  | 0x09 => execDecode n
  | 0x0A => execInput n
  | 0x0B => execInval n
  | 0x0C => execHostFence n
  | 0x0D => execSignal n
  | _ => execFirmwareCommand n

end Sys2Proof.Machine
end

