-- ==== Sys2Proof/Machine/Resets.lean ====
section
/-! DEFINITION. Resets, the recovery of the journal, boot and the loss of power (07 R230; 20 R483 to R487). -/

namespace Sys2Proof.Machine

/-! ### What a reset does to the loom's tasks (20 R483, R484) -/

/-- A started task that a reset stops: it waits to be executed again, or ends. -/
def stopRecord (l : Launch) (r : TaskRec) : TaskRec :=
  if isDone r || !r.placedOnce then r
  else if r.cancelled || l.cancelled || l.rest then r.over_ .cancelled
  else if l.restart && r.snapOk then { (r.over_ .failed) with phase := .unplaced, ran := 0 }
  else r.over_ .failed

/-- A gang after a reset holds no tile; its tasks that run again arrive anew at its barriers (05 R158). -/
def stopGang (l : Launch) (n : Nat) (g : Gang) : Gang :=
  { g with cluster := none, preReq := none, powerLevel := 0, wait := .none,
           saved := ((openMembers l n).map (8 * ·)),
           barriers := g.barriers.map fun q => (q.1, { q.2 with arrived := [] }) }

/-- A launch after a reset: one that had not started runs as if newly accepted. -/
def Launch.stopped (l : Launch) : Launch :=
  if l.terminal.isSome || !(l.recs.any fun q => q.2.placedOnce) then l
  else
    let recs := l.recs.map fun q => (q.1, stopRecord l q.2)
    let failed := (recs.zip l.recs).any fun q => q.1.2.phase == .done .failed && !isDone q.2.2
    let l := { l with recs, code := if failed && l.code == 0 then 0x32 else l.code }
    let open_ : FMap Gang := l.gangs.filter fun (q : Nat × Gang) => !(openMembers l q.1).isEmpty
    { l with gangs := open_.map fun (q : Nat × Gang) => (q.1, stopGang l q.1 q.2) }

/-- Every launch looked at again: FAILSTOP, and what is terminal by now. -/
def State.settleAll (s : State) : State :=
  (s.loom.launches.map (·.1)).foldl (fun s n => match s.launch? n with
    | some l =>
      let s := if countDone l .failed ≠ 0 && l.failstop then s.failStop n .failed else s
      if l.recs.any (fun q => q.2.placedOnce) then s.settleLaunch n else s
    | none => s) s

/-- What a task that a reset stops leaves to be released: the page references of its translation memory, and the stream
events of one that becomes terminal (13 R355, 14 R408). -/
def stopOrphan (tiles : FMap Tile) (lid : Nat) (l : Launch) (i : Nat) (r : TaskRec) : Option Orphan :=
  if isDone r || !r.placedOnce then none
  else
    let tm := match r.phase with
      | .running tile => (((FMap.get? tiles tile).bind (·.task)).map (·.tm)).getD []
      | _ => r.tm
    some { pasid := l.pasid, task := if isDone (stopRecord l r) then some (taskId lid i) else none, tm, wait := .none }

/-- The loom after a reset: no image is saved, no cluster kept. -/
def stopLoom (tiles : FMap Tile) (m : Loom) : Loom :=
  { m with launches := m.launches.map fun q => (q.1, q.2.stopped), slots := [], reserved := none, swept := 0,
           orphans := (m.orphans.map fun o => { o with wait := .none }) ++ m.launches.flatMap fun q =>
             if q.2.terminal.isSome then [] else q.2.recs.filterMap fun r => stopOrphan tiles q.1 q.2 r.1 r.2 }

/-! ### What a reset does to the units -/

/-- A stream after a reset: strands that waited at it are gone, a fault it waits on is met again. -/
def Stream.stopped (live : List Nat) (t : Stream) : Stream :=
  let t := if t.get cHvalid != 0 && !live.contains (t.get cHtask) then { t.put cHvalid 0 with late := none } else t
  let inbox := t.inbox.filter fun o => match o with
    | .unpick _ => false
    | _ => true
  { t with inbox, unpick := .none, lost := [], writeBack := .none }

/-- The tasks that will run again, by TASKID. -/
def againIds (m : Loom) : List Nat :=
  m.launches.flatMap fun q => if q.2.terminal.isSome then [] else
    (q.2.recs.filter fun r => r.2.placedOnce && !isDone r.2).map fun r => q.1 * 2 ^ 32 + r.1

/-- Memory after a reset that keeps the first tier: all else is undefined, and lists nothing (log 2). -/
def keepTier0 (s : State) : State :=
  { s with mem := s.mem.filter fun c => c.1 < tier1Base || hostBase ≤ c.1, poison := s.poison.filter fun k => 32 * k < tier1Base }

/-- The registers after a reset that keeps the journal: its own registers stand (20 R485), and the root of the tables
until its recovery is over. -/
def keepRegs (d : DevRegs) (last : BitVec 2) : DevRegs :=
  { DevRegs.reset with lastrst := last, qtroot := d.qtroot, jbase0 := d.jbase0, jbase1 := d.jbase1, jsize := d.jsize, jput := d.jput,
                       jack := d.jack }

/-- The machine after a warm or function-level reset, before the recovery of its journal (20 R483, R485). -/
def State.warm (s : State) (last : BitVec 2) : State :=
  let k := keepTier0 s
  let loom := stopLoom s.tiles s.loom
  let failed : FMap Tile := s.tiles.filter fun (q : Nat × Tile) => q.2.failed || q.2.failing
  let tiles : FMap Tile := failed.map fun (q : Nat × Tile) => (q.1, { Tile.idle with failed := true })
  let streams : FMap Stream := s.su.streams.map fun (q : Nat × Stream) => (q.1, q.2.stopped (againIds loom))
  { State.reset with
    mem := k.mem
    poison := k.poison
    tiles
    dev := keepRegs s.dev last
    out := { s.out with fab := [], priOut := [], priFail := [] }
    loom
    su := { StreamUnit.reset with streams, feeds := s.su.feeds }
    host := { HostUnit.reset with cmds := s.host.cmds, msix := s.host.msix, doe := s.host.doe, barLog := s.host.barLog }
    req := s.req
    agenda := s.agenda
    free := s.free }.settleAll

/-! ### The recovery of the journal (20 R477, R484) -/

/-- The bytes of an entry in one copy, when they are whole. -/
def goodCopy (s : State) (base : Word) (seq : Nat) : Option (List Byte) :=
  let loc := entryLoc s base seq
  let bs := s.readLoc loc 128
  if !isPoisoned s.poison loc 128 && field bs 0x3C 4 == (crc32c (bs.take 0x3C ++ bs.drop 0x40)).toNat && field bs 0 8 == seq % 2 ^ 64
  then some bs else none

/-- An entry by the copy rule. -/
def readEntry (s : State) (seq : Nat) : Option (List Byte) := (goodCopy s s.dev.jbase0 seq).orElse fun _ => goodCopy s s.dev.jbase1 seq

/-- The terminal state a STATUS stands for. -/
def statusEnd (st : Nat) : Option Terminal :=
  match st with
  | 1 => some .completed | 2 => some .cancelled | 3 => some .failed | 4 => some .completed | _ => none

/-- A command has become an object of the loom, or an input at its stream. -/
def cmdBegun (s : State) (n : Nat) : Bool :=
  (s.launchOfCmd n).isSome || s.loom.objects.any (·.2.cmd == n) ||
    s.su.streams.any fun q => q.2.inbox.any fun o => match o with
      | .input _ c => c == some n
      | _ => false

/-- The command an entry records. -/
def recoverCmd (s : State) (seq : Nat) (bs : List Byte) : HostCmd :=
  let st := field bs 0x2E 1
  let old := s.cmd? (seq + 1)
  { q := field bs 0x2C 2, pasid := BitVec.ofNat 20 (field bs 0x28 4), ring := field bs 0x10 8, packet := takeBytes bs 0x40 64,
    obj := BitVec.ofNat 64 (field bs 0x18 8), started := cmdBegun s (seq + 1),
    done := (statusEnd st).map fun t => (t, BitVec.ofNat 32 (field bs 0x30 4)), written := st != 0, acc := field bs 0x20 8,
    vec := (old.map (·.vec)).getD 0xFFFF, progress := (old.map (·.progress)).getD 0, held := (old.map (·.held)).getD [],
    wait := .none }

/-- The entries of the ring, oldest first; none when one of them cannot be read. -/
def recoverAll (s : State) : Option (FMap HostCmd) :=
  let put := s.dev.jput.toNat
  let first := put - journalSize s
  ((List.range (put - first)).map (first + ·)).mapM fun seq => (readEntry s seq).map fun bs => (seq + 1, recoverCmd s seq bs)

def answerState (s : State) : Answer → State
  | .next t => t
  | _ => s

/-- A command that had not begun is performed again. -/
def State.redo (s : State) (n : Nat) : State := match s.cmd? n with
  | some c => if c.written || c.started then s else answerState s (commandMeaning n c s)
  | none => s

/-- The recovery: entries still ACCEPTED are taken in order; one that cannot be read ends it. -/
def State.recover (s : State) : State :=
  if !jsizeOk s.dev.jsize.toNat then { s with host := { s.host with cmds := [] } }
  else match recoverAll s with
    | none => { s with dev := { s.dev with boot := 4 }, host := { s.host with cmds := [] } }
    | some cmds => (cmds.map (·.1)).foldl State.redo { s with host := { s.host with cmds } }

/-- A reset that keeps the journal, its recovery, and the root of the tables as every reset leaves it (00 R4, 20 R466). -/
def State.resetKept (s : State) (last : BitVec 2) : State :=
  let s := (s.warm last).recover
  { s with dev := { s.dev with qtroot := 0 } }

/-! ### Rows of the table -/

/-- 20 R485: power on, or PERST#; the first tier is undefined, and every tile is in service. -/
def execColdReset (s : State) : Answer :=
  .next { State.reset with out := { Outside.reset with devNum := s.out.devNum, reach := s.out.reach }, agenda := s.agenda, free := s.free }

/-- 20 R483, R485: RSTCTL.WARM, or a request of the headstock. -/
def execWarmReset (s : State) : Answer := .next (if s.host.off then s else s.resetKept 1)

/-- 20 R485: acts as a warm reset. -/
def execFunctionLevelReset (s : State) : Answer := .next (if s.host.off then s else s.resetKept 2)

/-- The boot ROM awaits an image: the device has power, and no firmware has started (20 R486). -/
def awaitsImage (s : State) : Bool := !s.host.off && !s.dev.ready && s.dev.boot != 4

/-- 20 R486: the image is verified, and headstock strand 0 starts, after the first sensor update (19 R453). -/
def execBoot (image : BootImage) (s : State) : Answer :=
  let failed (code : BitVec 8) : State := { s with dev := { s.dev with boot := code } }
  .next (if !awaitsImage s then s
    else match image with
      | .absent => failed 1
      | .badSignature => failed 2
      | .oldVersion => failed 3
      | .good entry loc bytes =>
        let fw : Firmware := { entry, loc, bytes }
        let s := s.senseNow
        { s with dev := { s.dev with boot := 0, ready := true }, host := { s.host with firmware := some fw } }.startFirmware fw)

/-! ### Attestation (20 R487) -/

/-- The request a message carries, by the code in its second byte (log 108). -/
def spdmRequest (msg : List Byte) : Option Config.SpdmRequest := match msg.getD 1 0 with
  | 0x84 => some .getVersion | 0xE1 => some .getCapabilities | 0xE3 => some .negotiateAlgorithms | 0x81 => some .getDigests
  | 0x82 => some .getCertificate | 0x83 => some .challenge | 0xE0 => some .getMeasurements | _ => none

/-- What is measured: the boot ROM, the firmware image, the fused configuration. -/
def measurements (s : State) : List (List Byte) := [Config.bootRom, (s.host.firmware.map (·.bytes)).getD [], Config.fuses]

/-- The responder's answer: SPDM 1.3, the response code of the request; to any other request an error. -/
def spdmAnswer (s : State) (msg : List Byte) : List Byte := match spdmRequest msg with
  | some k => 0x13 :: (msg.getD 1 0 - 0x80) :: Config.spdmBody k msg (.slhDsaSha2_128s true) (measurements s) s.host.doe
  | none => [0x13, 0x7F, 0x07, msg.getD 1 0]

/-- 20 R487: through the DOE mailbox or MCTP. -/
def execSpdmRequest (req : List Byte) (s : State) : Answer :=
  .next (if s.host.off then s else { s with host := { s.host with doe := (req, spdmAnswer s req) :: s.host.doe } })

/-- 07 R230: the device stops, and no memory of it keeps its contents. -/
def execPowerLoss (s : State) : Answer :=
  .next { State.reset with out := { Outside.reset with devNum := s.out.devNum, reach := s.out.reach },
                           host := { HostUnit.reset with off := true }, agenda := s.agenda, free := s.free }

end Sys2Proof.Machine
end

