-- ==== Sys2Proof/Machine/Ports.lean ====
section
/-! DEFINITION. What reaches the device through its ports: the host's accesses through BAR2 and its translation service
(20 R464, R465), the other devices of the domain (08 R259; 20 R489 to R493), and a failed pseudo-channel (20 R480). -/

namespace Sys2Proof.Machine

/-! ### The endpoint function (20 R462) -/

/-- What the host reads of the function's identity: a processing accelerator, the device, the product it is. -/
def classCode : BitVec 24 := 0x120000
def deviceId : BitVec 16 := 0x3600
def subsystemId : BitVec 16 := match Config.product with
  | .kz3600C => 1
  | .kz3600P => 2
  | .kz3600M => 3

/-- How many page requests may be outstanding. -/
def pagesOut : Nat := 256

/-! ### BAR2 (20 R462, R464) -/

/-- Bytes of BAR2. -/
def bar2Size (s : State) : Nat := 2 ^ (30 + s.host.barLog)

/-- The Resizable BAR capability: 1 GiB to 512 GiB. -/
def State.resizeBar2 (s : State) (log : Nat) : State := if log ≤ 9 then { s with host := { s.host with barLog := log } } else s

/-- 20 R464: an 8-byte access of the host; a read changes nothing here. -/
def execHostBar2Access (off : Nat) (write : Option Word) (s : State) : Answer :=
  let loc := s.dev.hwbase.toNat + off
  .next (match write with
    | none => s
    | some v => if bar2Size s ≤ off || off % 8 != 0 || decide (tier0Size < loc + 8) || s.host.off then s else s.writeLocNat loc 8 v.toNat)

/-- What a read through BAR2 answers: all ones past the end of first-tier memory, and past BAR2's own. -/
def bar2Read (s : State) (off : Nat) : Word :=
  let loc := s.dev.hwbase.toNat + off
  if bar2Size s ≤ off ∨ tier0Size < loc + 8 then BitVec.allOnes 64 else BitVec.ofNat 64 (s.readLocNat loc 8)

/-! ### ATS and PRI (20 R465) -/

/-- 20 R465: it completes when every TLB entry it covers is invalidated; the host no longer reports the pages present. -/
def execAtsInvalidation (pasid : BitVec 20) (addr : Word) (len : Nat) (s : State) : Answer :=
  let t := s.invalidate pasid addr.toNat len
  .next { t with out := { t.out with
    hostPages := t.out.hostPages.filter fun h => !(h.pasid == pasid && overlaps addr.toNat len (h.page * 2 ^ 17) (2 ^ 17)) } }

/-- A strand of the context, or a launch whose descriptor or record lies there, waits for the page. -/
def awaitsPage (s : State) (p : PagePair) : Bool :=
  (s.strands.any fun q => s.pasidOf q.1 == p.1 && q.2.home == .none && (match q.2.waitA with
    | some w => w.why == .gathered
    | none => false)) ||
  s.loom.launches.any fun q => q.2.pasid == p.1 &&
    ((q.2.desc.isNone && (q.2.terminal.isNone || q.2.recordDue) && pageOf q.2.descAddr.toNat == p.2) ||
     (q.2.recordDue && pageOf q.2.doneAddr.toNat == p.2))

/-- 20 R465: to an outstanding request, Success retries the access, which the host then translates with R and W; any other
response is a fault. -/
def execPriResponse (pasid : BitVec 20) (page : Word) (ans : PriAnswer) (s : State) : Answer :=
  let p : PagePair := (pasid, pageOf page.toNat)
  .next (if !(s.out.priOut.take pagesOut).contains p then s
    else
      let out := { s.out with priOut := s.out.priOut.filter (· != p) }
      match ans with
      | .success r w =>
        let pages : List HostPage := if r || w then [{ pasid, page := p.2, r, w }] else []
        { s with out := { out with hostPages := out.hostPages ++ pages } }.resolvePair p false
      | .failure =>
        let out := if awaitsPage s p then { out with priFail := out.priFail ++ [p] } else out
        { s with out }.resolvePair p true)

/-! ### Requests of other devices (20 R489, R490) -/

/-- The bytes of this device that a request reaches, or the XLATE subcode it is answered with. -/
def fabricTarget (s : State) (r : FabricReq) (acc : Acc) (len : Nat) : Except (BitVec 8) (List Part) × State :=
  if 2 ^ 39 ≤ r.off.toNat then (.error 5, s)
  else if !fabricContext s r.pasid then (.error 1, s)
  else if r.off.toNat < ccbHosttop s r.pasid then (.error 1, s)
  else match unitAccess s (unitAgent r.pasid r.user) acc r.off.toNat len with
    | (.parts ps, s) => (.ok ps, s)
    | (.fault sub _, s) => (.error sub, s)
    | (.pri _, s) => (.error 1, s)

/-- An atomic performed at its home for another device (08 R261, R263). -/
def fabricAtomic (s : State) (p : Part) (opc : BitVec 10) (ty : Ty) (o c : Word) : State :=
  if isPoisoned s.poison p.loc p.len then s
  else
    let v := s.readLocNat p.loc p.len
    s.writeLocNat p.loc p.len (if opc = 0x129 then (if v = o.toNat % 2 ^ Ty.width ty then c.toNat % 2 ^ Ty.width ty else v) else applyAtom opc ty v o.toNat)

/-- 20 R490: translated in the issuer's context here, and performed; a faulting one is answered with its subcode and
changes nothing. -/
def execFabricRequest (r : FabricReq) (s : State) : Answer :=
  .next (if s.host.off then s else match r.op with
    | .read n => (fabricTarget s r .load n).2
    | .write bs => match fabricTarget s r .store bs.length with
      | (.ok ps, s) => writeParts s ps bs false
      | (.error _, s) => s
    | .atomic opc ty o c => match fabricTarget s r .atomic (Ty.width ty / 8) with
      | (.ok [p], s) => fabricAtomic s p opc ty o c
      | (_, s) => s)

/-- 08 R259: an older store to the fabric window is acknowledged. -/
def execFabricStoreAck (id : Nat) (s : State) : Answer :=
  .next { s with out := { s.out with fab := s.out.fab.filter (·.id != id) } }

/-- 20 R492: written, or folded into its buffer, and counted; a multicast flit counts once at each member. -/
def execCollectiveFlit (f : Flit) (s : State) : Answer :=
  .next (if s.host.off || f.off.toNat < 2 ^ 39 then s
    else match aperture s f.pasid f.user f.off.toNat 64 with
      | (.ok (c, ps), s) => landFlit s c ps f.words (if c.op = 1 then 1 else f.count) false
      | (.error _, s) => s)

/-- 20 R489: traffic moves to the ports that remain. -/
def execPortFailure (port : Nat) (s : State) : Answer :=
  .next (if port < 12 then { s with out := { s.out with ports := s.out.ports &&& ~~~(1#12 <<< port) } } else s)

/-! ### A failed pseudo-channel (20 R480) -/

/-- 20 R480: what the channel held reads poisoned. -/
def execHbmChannelFailure (base : Nat) (len : Nat) (s : State) : Answer :=
  .next (if tier0Size < base + len then s else { s with poison := (sectorsOf base len).foldl NatSet.insert s.poison })

end Sys2Proof.Machine
end

