-- ==== Sys2Proof/Machine/Dispatch.lean ====
section
/-! DEFINITION. The meaning of each row of the table: one arm per constructor, each a direct call. -/

namespace Sys2Proof.Machine

def exec (i : Instr) (s : State) : Host.Outcome State Fault Refusal :=
  match i with
  | .add f => Sys2Proof.Machine.execAdd f s
  | .sub f => Sys2Proof.Machine.execSub f s
  | .mul f => Sys2Proof.Machine.execMul f s
  | .mulh f => Sys2Proof.Machine.execMulh f s
  | .mulhz f => Sys2Proof.Machine.execMulhz f s
  | .muladd f => Sys2Proof.Machine.execMuladd f s
  | .div f => Sys2Proof.Machine.execDiv f s
  | .divz f => Sys2Proof.Machine.execDivz f s
  | .rem f => Sys2Proof.Machine.execRem f s
  | .remz f => Sys2Proof.Machine.execRemz f s
  | .and f => Sys2Proof.Machine.execAnd f s
  | .or f => Sys2Proof.Machine.execOr f s
  | .xor f => Sys2Proof.Machine.execXor f s
  | .andn f => Sys2Proof.Machine.execAndn f s
  | .orn f => Sys2Proof.Machine.execOrn f s
  | .sll f => Sys2Proof.Machine.execSll f s
  | .srl f => Sys2Proof.Machine.execSrl f s
  | .sra f => Sys2Proof.Machine.execSra f s
  | .ror f => Sys2Proof.Machine.execRor f s
  | .min f => Sys2Proof.Machine.execMin f s
  | .max f => Sys2Proof.Machine.execMax f s
  | .minz f => Sys2Proof.Machine.execMinz f s
  | .maxz f => Sys2Proof.Machine.execMaxz f s
  | .clz f => Sys2Proof.Machine.execClz f s
  | .ctz f => Sys2Proof.Machine.execCtz f s
  | .popc f => Sys2Proof.Machine.execPopc f s
  | .bext f => Sys2Proof.Machine.execBext f s
  | .bins f => Sys2Proof.Machine.execBins f s
  | .sext f => Sys2Proof.Machine.execSext f s
  | .zext f => Sys2Proof.Machine.execZext f s
  | .slt f => Sys2Proof.Machine.execSlt f s
  | .sltz f => Sys2Proof.Machine.execSltz f s
  | .seq f => Sys2Proof.Machine.execSeq f s
  | .sel f => Sys2Proof.Machine.execSel f s
  | .movi f => Sys2Proof.Machine.execMovi f s
  | .movhi f => Sys2Proof.Machine.execMovhi f s
  | .lea f => Sys2Proof.Machine.execLea f s
  | .sfadd f => Sys2Proof.Machine.execSfadd f s
  | .sfmul f => Sys2Proof.Machine.execSfmul f s
  | .sffma f => Sys2Proof.Machine.execSffma f s
  | .sfcmp f => Sys2Proof.Machine.execSfcmp f s
  | .sfcvt f => Sys2Proof.Machine.execSfcvt f s
  | .sfmin f => Sys2Proof.Machine.execSfmin f s
  | .sfmax f => Sys2Proof.Machine.execSfmax f s
  | .nop f => Sys2Proof.Machine.execNop f s
  | .br f => Sys2Proof.Machine.execBr f s
  | .bcc f => Sys2Proof.Machine.execBcc f s
  | .bri f => Sys2Proof.Machine.execBri f s
  | .call f => Sys2Proof.Machine.execCall f s
  | .calli f => Sys2Proof.Machine.execCalli f s
  | .ret f => Sys2Proof.Machine.execRet f s
  | .loopReg f => Sys2Proof.Machine.execLoopReg f s
  | .loopImm f => Sys2Proof.Machine.execLoopImm f s
  | .loopx f => Sys2Proof.Machine.execLoopx f s
  | .ipref f => Sys2Proof.Machine.execIpref f s
  | .ipin f => Sys2Proof.Machine.execIpin f s
  | .iunpin f => Sys2Proof.Machine.execIunpin f s
  | .fencei f => Sys2Proof.Machine.execFencei f s
  | .end_ f => Sys2Proof.Machine.execEnd f s
  | .trap f => Sys2Proof.Machine.execTrap f s
  | .xret f => Sys2Proof.Machine.execXret f s
  | .krd f => Sys2Proof.Machine.execKrd f s
  | .kwr f => Sys2Proof.Machine.execKwr f s
  | .talertWrite f => Sys2Proof.Machine.execTalertWrite f s
  | .intpendClear f => Sys2Proof.Machine.execIntpendClear f s
  | .thrWrite f => Sys2Proof.Machine.execThrWrite f s
  | .sleep f => Sys2Proof.Machine.execSleep f s
  | .sleepRecheck sid => Sys2Proof.Machine.execSleepRecheck sid s
  | .sleepTimeout sid => Sys2Proof.Machine.execSleepTimeout sid s
  | .wake f => Sys2Proof.Machine.execWake f s
  | .barrier f => Sys2Proof.Machine.execBarrier f s
  | .spawn f => Sys2Proof.Machine.execSpawn f s
  | .cancel f => Sys2Proof.Machine.execCancel f s
  | .ld f => Sys2Proof.Machine.execLd f s
  | .ldq f => Sys2Proof.Machine.execLdq f s
  | .loadDataReturn sid req => Sys2Proof.Machine.execLoadDataReturn sid req s
  | .st f => Sys2Proof.Machine.execSt f s
  | .sta f => Sys2Proof.Machine.execSta f s
  | .std f => Sys2Proof.Machine.execStd f s
  | .storePair sid => Sys2Proof.Machine.execStorePair sid s
  | .vldq f => Sys2Proof.Machine.execVldq f s
  | .vsta f => Sys2Proof.Machine.execVsta f s
  | .vstd f => Sys2Proof.Machine.execVstd f s
  | .movq f => Sys2Proof.Machine.execMovq f s
  | .bqpush f => Sys2Proof.Machine.execBqpush f s
  | .bqpop f => Sys2Proof.Machine.execBqpop f s
  | .crosswaitDetect sid => Sys2Proof.Machine.execCrosswaitDetect sid s
  | .qmark f => Sys2Proof.Machine.execQmark f s
  | .fence f => Sys2Proof.Machine.execFence f s
  | .cinv f => Sys2Proof.Machine.execCinv f s
  | .cwb f => Sys2Proof.Machine.execCwb f s
  | .cpref f => Sys2Proof.Machine.execCpref f s
  | .aadd f => Sys2Proof.Machine.execAadd f s
  | .amax f => Sys2Proof.Machine.execAmax f s
  | .amin f => Sys2Proof.Machine.execAmin f s
  | .amaxz f => Sys2Proof.Machine.execAmaxz f s
  | .aminz f => Sys2Proof.Machine.execAminz f s
  | .aand f => Sys2Proof.Machine.execAand f s
  | .aor f => Sys2Proof.Machine.execAor f s
  | .axor f => Sys2Proof.Machine.execAxor f s
  | .axchg f => Sys2Proof.Machine.execAxchg f s
  | .acas f => Sys2Proof.Machine.execAcas f s
  | .afadd f => Sys2Proof.Machine.execAfadd f s
  | .afmax f => Sys2Proof.Machine.execAfmax f s
  | .atomicGroupPerform t => Sys2Proof.Machine.execAtomicGroupPerform t s
  | .atomicResponse sid req => Sys2Proof.Machine.execAtomicResponse sid req s
  | .spalloc f => Sys2Proof.Machine.execSpalloc f s
  | .sptopRelease f => Sys2Proof.Machine.execSptopRelease f s
  | .spfloorStore f => Sys2Proof.Machine.execSpfloorStore f s
  | .vadd f => Sys2Proof.Machine.execVadd f s
  | .vsub f => Sys2Proof.Machine.execVsub f s
  | .vmul f => Sys2Proof.Machine.execVmul f s
  | .vfma f => Sys2Proof.Machine.execVfma f s
  | .vfms f => Sys2Proof.Machine.execVfms f s
  | .vfnma f => Sys2Proof.Machine.execVfnma f s
  | .vdiv f => Sys2Proof.Machine.execVdiv f s
  | .vsqrt f => Sys2Proof.Machine.execVsqrt f s
  | .vrcp f => Sys2Proof.Machine.execVrcp f s
  | .vrsq f => Sys2Proof.Machine.execVrsq f s
  | .vexp2 f => Sys2Proof.Machine.execVexp2 f s
  | .vlog2 f => Sys2Proof.Machine.execVlog2 f s
  | .vmin f => Sys2Proof.Machine.execVmin f s
  | .vmax f => Sys2Proof.Machine.execVmax f s
  | .vabs f => Sys2Proof.Machine.execVabs f s
  | .vneg f => Sys2Proof.Machine.execVneg f s
  | .vclamp f => Sys2Proof.Machine.execVclamp f s
  | .vcmp f => Sys2Proof.Machine.execVcmp f s
  | .vsel f => Sys2Proof.Machine.execVsel f s
  | .vand f => Sys2Proof.Machine.execVand f s
  | .vor f => Sys2Proof.Machine.execVor f s
  | .vxor f => Sys2Proof.Machine.execVxor f s
  | .vshl f => Sys2Proof.Machine.execVshl f s
  | .vshr f => Sys2Proof.Machine.execVshr f s
  | .vsar f => Sys2Proof.Machine.execVsar f s
  | .vcvt f => Sys2Proof.Machine.execVcvt f s
  | .vqnt f => Sys2Proof.Machine.execVqnt f s
  | .vqntQc4 f => Sys2Proof.Machine.execVqntQc4 f s
  | .vred f => Sys2Proof.Machine.execVred f s
  | .vscan f => Sys2Proof.Machine.execVscan f s
  | .vperm f => Sys2Proof.Machine.execVperm f s
  | .vmov f => Sys2Proof.Machine.execVmov f s
  | .vmovxExtract f => Sys2Proof.Machine.execVmovxExtract f s
  | .vmovxInsert f => Sys2Proof.Machine.execVmovxInsert f s
  | .vext f => Sys2Proof.Machine.execVext f s
  | .viota f => Sys2Proof.Machine.execViota f s
  | .vmasklen f => Sys2Proof.Machine.execVmasklen f s
  | .vpopc f => Sys2Proof.Machine.execVpopc f s
  | .vcmprs f => Sys2Proof.Machine.execVcmprs f s
  | .vdefer f => Sys2Proof.Machine.execVdefer f s
  | .vdrain f => Sys2Proof.Machine.execVdrain f s
  | .vdqstat f => Sys2Proof.Machine.execVdqstat f s
  | .pand f => Sys2Proof.Machine.execPand f s
  | .por f => Sys2Proof.Machine.execPor f s
  | .pxor f => Sys2Proof.Machine.execPxor f s
  | .pnot f => Sys2Proof.Machine.execPnot f s
  | .pfirst f => Sys2Proof.Machine.execPfirst f s
  | .pfromx f => Sys2Proof.Machine.execPfromx f s
  | .ptox f => Sys2Proof.Machine.execPtox f s
  | .cp f => Sys2Proof.Machine.execCp f s
  | .cp2d f => Sys2Proof.Machine.execCp2d f s
  | .cpg f => Sys2Proof.Machine.execCpg f s
  | .cps f => Sys2Proof.Machine.execCps f s
  | .cpx f => Sys2Proof.Machine.execCpx f s
  | .cpz f => Sys2Proof.Machine.execCpz f s
  | .cpmm f => Sys2Proof.Machine.execCpmm f s
  | .cpfill f => Sys2Proof.Machine.execCpfill f s
  | .cpcomb f => Sys2Proof.Machine.execCpcomb f s
  | .mfmt f => Sys2Proof.Machine.execMfmt f s
  | .mm f => Sys2Proof.Machine.execMm f s
  | .mmt f => Sys2Proof.Machine.execMmt f s
  | .accz f => Sys2Proof.Machine.execAccz f s
  | .accwr f => Sys2Proof.Machine.execAccwr f s
  | .accld f => Sys2Proof.Machine.execAccld f s
  | .tkgive f => Sys2Proof.Machine.execTkgive f s
  | .tktake f => Sys2Proof.Machine.execTktake f s
  | .semwait f => Sys2Proof.Machine.execSemwait f s
  | .semsig f => Sys2Proof.Machine.execSemsig f s
  | .semset f => Sys2Proof.Machine.execSemset f s
  | .semrd f => Sys2Proof.Machine.execSemrd f s
  | .cwait f => Sys2Proof.Machine.execCwait f s
  | .cpoll f => Sys2Proof.Machine.execCpoll f s
  | .turn f => Sys2Proof.Machine.execTurn f s
  | .engineCommandStart tile e => Sys2Proof.Machine.execEngineCommandStart tile e s
  | .mePanelFold tile => Sys2Proof.Machine.execMePanelFold tile s
  | .operandLineArrive tile line => Sys2Proof.Machine.execOperandLineArrive tile line s
  | .engineCommandComplete tile e => Sys2Proof.Machine.execEngineCommandComplete tile e s
  | .bnew f => Sys2Proof.Machine.execBnew f s
  | .brsv f => Sys2Proof.Machine.execBrsv f s
  | .cowCopyLand copy => Sys2Proof.Machine.execCowCopyLand copy s
  | .bcmt f => Sys2Proof.Machine.execBcmt f s
  | .bvoid f => Sys2Proof.Machine.execBvoid f s
  | .bfell f => Sys2Proof.Machine.execBfell f s
  | .bwait f => Sys2Proof.Machine.execBwait f s
  | .bwaitTimeout sid => Sys2Proof.Machine.execBwaitTimeout sid s
  | .bfork f => Sys2Proof.Machine.execBfork f s
  | .bhold f => Sys2Proof.Machine.execBhold f s
  | .brel f => Sys2Proof.Machine.execBrel f s
  | .baddr f => Sys2Proof.Machine.execBaddr f s
  | .bstat f => Sys2Proof.Machine.execBstat f s
  | .bretire f => Sys2Proof.Machine.execBretire f s
  | .bpinPin f => Sys2Proof.Machine.execBpinPin f s
  | .bpinUnpin f => Sys2Proof.Machine.execBpinUnpin f s
  | .tmload f => Sys2Proof.Machine.execTmload f s
  | .tmlock f => Sys2Proof.Machine.execTmlock f s
  | .tmunlk f => Sys2Proof.Machine.execTmunlk f s
  | .tminv f => Sys2Proof.Machine.execTminv f s
  | .shead f => Sys2Proof.Machine.execShead f s
  | .stake f => Sys2Proof.Machine.execStake f s
  | .unpick f => Sys2Proof.Machine.execUnpick f s
  | .sframe f => Sys2Proof.Machine.execSframe f s
  | .sfrpop f => Sys2Proof.Machine.execSfrpop f s
  | .srung f => Sys2Proof.Machine.execSrung f s
  | .sevt f => Sys2Proof.Machine.execSevt f s
  | .sevtAttach f => Sys2Proof.Machine.execSevtAttach f s
  | .feedpop f => Sys2Proof.Machine.execFeedpop f s
  | .feedwait f => Sys2Proof.Machine.execFeedwait f s
  | .feedwaitTimeout sid => Sys2Proof.Machine.execFeedwaitTimeout sid s
  | .feedpush f => Sys2Proof.Machine.execFeedpush f s
  | .unallocatedOpcode w => Sys2Proof.Machine.execUnallocatedOpcode w s
  | .yieldMarkExpire sid => Sys2Proof.Machine.execYieldMarkExpire sid s
  | .launchReady lid => Sys2Proof.Machine.execLaunchReady lid s
  | .placeGang => Sys2Proof.Machine.execPlaceGang s
  | .slackRecompute => Sys2Proof.Machine.execSlackRecompute s
  | .classifyWindowEnd lid => Sys2Proof.Machine.execClassifyWindowEnd lid s
  | .preemptRequest => Sys2Proof.Machine.execPreemptRequest s
  | .preemptStop sid => Sys2Proof.Machine.execPreemptStop sid s
  | .enginePreemptStop tile e => Sys2Proof.Machine.execEnginePreemptStop tile e s
  | .taskSave tile => Sys2Proof.Machine.execTaskSave tile s
  | .taskRestore lid gang => Sys2Proof.Machine.execTaskRestore lid gang s
  | .preemptNosafe lid gang => Sys2Proof.Machine.execPreemptNosafe lid gang s
  | .watchdogStall sid => Sys2Proof.Machine.execWatchdogStall sid s
  | .throttleLevelApply lid gang => Sys2Proof.Machine.execThrottleLevelApply lid gang s
  | .taskComplete tile => Sys2Proof.Machine.execTaskComplete tile s
  | .stopPointPass sid => Sys2Proof.Machine.execStopPointPass sid s
  | .resultWrite sid req => Sys2Proof.Machine.execResultWrite sid req s
  | .faultWindowClose => Sys2Proof.Machine.execFaultWindowClose s
  | .headstockInterrupt => Sys2Proof.Machine.execHeadstockInterrupt s
  | .rollback sid => Sys2Proof.Machine.execRollback sid s
  | .taskReexec lid task => Sys2Proof.Machine.execTaskReexec lid task s
  | .stepStart stream => Sys2Proof.Machine.execStepStart stream s
  | .stepEnd stream => Sys2Proof.Machine.execStepEnd stream s
  | .encoderTake enc => Sys2Proof.Machine.execEncoderTake enc s
  | .encoderRecordEmit enc => Sys2Proof.Machine.execEncoderRecordEmit enc s
  | .decodeComplete dec => Sys2Proof.Machine.execDecodeComplete dec s
  | .ringFetch q => Sys2Proof.Machine.execRingFetch q s
  | .packetAccept q => Sys2Proof.Machine.execPacketAccept q s
  | .launch cmd => Sys2Proof.Machine.execLaunch cmd s
  | .close cmd => Sys2Proof.Machine.execClose cmd s
  | .hostCancel cmd => Sys2Proof.Machine.execHostCancel cmd s
  | .feed cmd => Sys2Proof.Machine.execFeed cmd s
  | .feedcfgCreate cmd => Sys2Proof.Machine.execFeedcfgCreate cmd s
  | .feedcfgDestroy cmd => Sys2Proof.Machine.execFeedcfgDestroy cmd s
  | .streamCreate cmd => Sys2Proof.Machine.execStreamCreate cmd s
  | .streamUpdate cmd => Sys2Proof.Machine.execStreamUpdate cmd s
  | .streamDestroy cmd => Sys2Proof.Machine.execStreamDestroy cmd s
  | .jobstart cmd => Sys2Proof.Machine.execJobstart cmd s
  | .take cmd => Sys2Proof.Machine.execTake cmd s
  | .decode cmd => Sys2Proof.Machine.execDecode cmd s
  | .input cmd => Sys2Proof.Machine.execInput cmd s
  | .inval cmd => Sys2Proof.Machine.execInval cmd s
  | .hostFence cmd => Sys2Proof.Machine.execHostFence cmd s
  | .signal cmd => Sys2Proof.Machine.execSignal cmd s
  | .firmwareCommand cmd => Sys2Proof.Machine.execFirmwareCommand cmd s
  | .commandTerminal cmd => Sys2Proof.Machine.execCommandTerminal cmd s
  | .inputArrive stream inp => Sys2Proof.Machine.execInputArrive stream inp s
  | .gatheredFault pasid page sub agent => Sys2Proof.Machine.execGatheredFault pasid page sub agent s
  | .fresRetry pasid page => Sys2Proof.Machine.execFresRetry pasid page s
  | .fresFail pasid page => Sys2Proof.Machine.execFresFail pasid page s
  | .flack buf => Sys2Proof.Machine.execFlack buf s
  | .cancelAccept level id => Sys2Proof.Machine.execCancelAccept level id s
  | .powerLimitChange above => Sys2Proof.Machine.execPowerLimitChange above s
  | .sensorUpdate readings => Sys2Proof.Machine.execSensorUpdate readings s
  | .tileFailure tile => Sys2Proof.Machine.execTileFailure tile s
  | .hbmChannelFailure base len => Sys2Proof.Machine.execHbmChannelFailure base len s
  | .headstockRestart => Sys2Proof.Machine.execHeadstockRestart s
  | .doorbell q tail => Sys2Proof.Machine.execDoorbell q tail s
  | .qresume q => Sys2Proof.Machine.execQresume q s
  | .jackWrite v => Sys2Proof.Machine.execJackWrite v s
  | .wincfgWrite c v => Sys2Proof.Machine.execWincfgWrite c v s
  | .dbdropRead => Sys2Proof.Machine.execDbdropRead s
  | .rasctlRead => Sys2Proof.Machine.execRasctlRead s
  | .registerWrite off v host => Sys2Proof.Machine.execRegisterWrite off v host s
  | .hostBar2Access off write => Sys2Proof.Machine.execHostBar2Access off write s
  | .atsInvalidation pasid addr len => Sys2Proof.Machine.execAtsInvalidation pasid addr len s
  | .priResponse pasid page ans => Sys2Proof.Machine.execPriResponse pasid page ans s
  | .coldReset => Sys2Proof.Machine.execColdReset s
  | .warmReset => Sys2Proof.Machine.execWarmReset s
  | .functionLevelReset => Sys2Proof.Machine.execFunctionLevelReset s
  | .boot image => Sys2Proof.Machine.execBoot image s
  | .spdmRequest req => Sys2Proof.Machine.execSpdmRequest req s
  | .fabricRequest r => Sys2Proof.Machine.execFabricRequest r s
  | .fabricStoreAck id => Sys2Proof.Machine.execFabricStoreAck id s
  | .collectiveFlit f => Sys2Proof.Machine.execCollectiveFlit f s
  | .portFailure port => Sys2Proof.Machine.execPortFailure port s
  | .powerLoss => Sys2Proof.Machine.execPowerLoss s

end Sys2Proof.Machine
end

