-- ==== Sys2Proof/Machine/Policy.lean ====
section
/-! DEFINITION. What moves next: the issue of a slice (01 R12 to R14, 16 R421), the arbitration of a core (05 R153, R154,
R166), the events that are due, the passing of a control cycle (01 R45), and the moves the environment asks for (log 4,
log 5). -/

namespace Sys2Proof.Machine

/-! ### The issue of a slice -/

/-- What a try to issue comes to: nothing to issue, in a state that may remember why; or the answer of the issue. -/
inductive Tried | idle (s : State) | did (a : Answer)

/-- What stands at a strand's PC: a word that cannot be fetched yet, a fetch cause, a malformed word, an instruction. -/
inductive AtPc
  | wait (s : State)
  | bad (cause sub : BitVec 8) (va : Nat) (s : State)
  | ill (sub : IllSub) (w : IWord) (s : State)
  | insn (i : Instr) (s : State)

def atPc (s : State) (sid : Nat) (t : Strand) : AtPc :=
  match fetchWord s (agentOf s sid t) t.pc with
  | (.wait, s) => .wait s
  | (.bad c sub va, s) => .bad c sub va s
  | (.word w, s) => match decode (coreOf sid) w with
    | .error sub => .ill sub w s
    | .ok i => .insn i s

/-- The slice of a word that does not decode: its bit AX (02 R46). -/
def wordSlice (w : IWord) : Slice := if Decode.flag (Decode.unpack w).ax then .a else .e

/-- A word as a slice waits at it before it is an instruction. -/
def rawWord (w : IWord) : Instr := .unallocatedOpcode w

/-- A malformed word raises its cause (01 R34). -/
def deliverIll (s : State) (sid : Nat) (t : Strand) (sl : Slice) (sub : IllSub) (w : IWord) : State :=
  deliver s sid (settle s.cycle t) .fetch sl (rawWord w) 0x01 (illCode sub)
    (if sub = .sreg then BitVec.ofNat 56 (Decode.sregIdx (Decode.unpack w)) else 0)

/-- An instruction ranks above a stop and above an interrupt: an END, or one that takes a trap or has its turn rolled back
now (16 R414, 17 R442). -/
def outranks (s : State) (sid : Nat) (t : Strand) (place : Place) (i : Instr) : Bool := match i with
  | .end_ _ => true
  | i => match exec i (s.at sid place) with
    | .next s1 => match s1.strand? sid with
      | none => true
      | some u => (!t.inh && u.inh && u.pc == t.xvec) || (t.rollback.isNone && u.rollback.isSome)
    | _ => false

/-- A trap or an END is due at the oldest word not yet completed (16 R414). -/
def stopOutranked (s : State) (sid : Nat) (t : Strand) : Bool := match t.ewin with
  | e :: _ => outranks s sid t .window e.instr
  | [] => match atPc s sid t with
    | .insn i s => outranks s sid t .fetch i
    | .bad _ _ _ _ => true
    | .ill _ _ _ => true
    | .wait _ => false

/-- The strand has come to a stop point: a pre-emption is requested, the word is marked PSAFE, it was not passed, and it is
not on its way at a unit already (16 R421, R422). -/
def comesToStop (s : State) (sid : Nat) (t : Strand) (i : Instr) : Bool :=
  !isHead sid && psafeOf i && !t.passed && (match s.task? (tileOf sid) with
    | some k => k.preReq.isSome
    | none => false) && !sent s sid t && !outranks s sid t .fetch i

/-- The strand waits at its stop point. -/
def State.holdAt (s : State) (sid : Nat) : State := s.updStrand sid fun t => { t with stop := some (t.stop.getD s.cycle) }

/-- The slice an instruction belongs to. -/
def sliceAt (i : Instr) : Option Slice := (Decode.rawOf i).map Decode.sliceOf

/-- The access slice issues: it passes words of E on the way to its own (01 R12, R14). The fuel bounds how many. -/
def tryA (sid : Nat) : Nat → State → Tried
  | 0, s => .idle s
  | fuel + 1, s =>
    match s.strand? sid with
    | none => .idle s
    | some t =>
      match atPc s sid t with
      | .wait s => .idle (s.setStrand sid (setWait t .a (waitMark t.waitA s.cycle .gathered none (rawWord 0) t.pc)))
      | .bad c sub va s => .did (.next (deliver s sid (settle s.cycle t) .fetch .a (rawWord 0) c sub (BitVec.ofNat 56 va)))
      | .ill sub w s => match wordSlice w with
        | .a => .did (.next (deliverIll s sid t .a sub w))
        | .e => .idle s
      | .insn i s =>
        if comesToStop s sid t i then .idle (s.holdAt sid)
        else match sliceAt i with
          | none => .idle s
          | some .a => .did (exec i (s.at sid))
          | some .e =>
            if limitOk t then tryA sid fuel (s.setStrand sid (passToE t i))
            else .idle (s.setStrand sid (setWait t .a (waitMark t.waitA s.cycle .limit none i t.pc)))

/-- The execute slice issues: the oldest word passed to it, or the word at PC when it is E's. -/
def tryE (s : State) (sid : Nat) (t : Strand) : Tried :=
  match t.ewin with
  | e :: _ => .did (exec e.instr (s.at sid .window))
  | [] => match atPc s sid t with
    | .wait s => .idle s
    | .bad _ _ _ s => .idle s
    | .ill sub w s => match wordSlice w with
      | .a => .idle s
      | .e => .did (.next (deliverIll s sid t .e sub w))
    | .insn i s =>
      if comesToStop s sid t i then .idle (s.holdAt sid)
      else match sliceAt i with
        | some .e => .did (exec i (s.at sid))
        | _ => .idle s

/-- A slice of a strand tries to issue. -/
def tryIssue (s : State) (sid : Nat) (sl : Slice) : Tried :=
  match s.strand? sid with
  | none => .idle s
  | some t => match sl with
    | .a => tryA sid 66 s
    | .e => tryE s sid t

/-- A strand whose slices may issue: it is running, no rollback of it is due, and its task goes on (16 R421, 17 R442,
05 R170). -/
def runnable (s : State) (sid : Nat) (t : Strand) : Bool :=
  t.run == .running && t.rollback.isNone &&
    (isHead sid || match s.task? (tileOf sid) with
      | some k => !k.ended
      | none => false)

/-- Strand 0 of the headstock issues nothing more before it takes an interrupt, unless a trap or an END ranks above it: what it
has issued completes first (01 R32, R35; 19 R457). -/
def interruptHolds (s : State) (sid : Nat) (t : Strand) : Bool :=
  sid == 1536 && (interruptTo s).isSome && !stopOutranked s sid t

/-- A strand whose slices may issue now. -/
def mayIssue (s : State) (sid : Nat) (t : Strand) : Bool := runnable s sid t && !interruptHolds s sid t

/-- The cycle is open to a core's issue (05 R166). -/
def issueOpen (s : State) (u : Nat) : Bool := u == 192 || decide (s.cycle % 8 < 8 - (s.tile u).throttle)

/-- A turn that names a slice: it issues, if it may (log 4). -/
def issueTurn (s : State) (sid : Nat) (sl : Slice) : Answer :=
  match s.strand? sid with
  | none => .next s
  | some t =>
    if mayIssue s sid t && issueOpen s (tileOf sid) then
      match tryIssue s sid sl with
      | .idle s => .next s
      | .did a => a
    else .next s

/-! ### Arbitration (05 R153, R154, R166) -/

/-- A ready candidate. -/
structure ReadySlice where
  sid : Nat
  sl : Slice
  stamp : Nat
  yielding : Bool
  deriving DecidableEq, Repr

/-- The order of choice; candidates are listed by SID, E before A. -/
def ReadySlice.before (a b : ReadySlice) : Bool :=
  if a.yielding ≠ b.yielding then b.yielding else decide (a.stamp < b.stamp)

/-- The access slice sleeps, or is at a stop point. -/
def resting (t : Strand) (sl : Slice) : Bool := match sl, t.waitA with
  | .a, some w => match w.why with
    | .sleep _ => true
    | _ => false
  | _, _ => false

/-- After a try of the slice, from a strand whose window was empty or not: it waits. -/
def waitsNow (s : State) (sid : Nat) (sl : Slice) (wasEmpty : Bool) : Bool := match s.strand? sid with
  | none => false
  | some t => match sl with
    | .a => t.waitA.isSome
    | .e => t.waitE.isSome || (wasEmpty && t.waitA.isSome)

/-- The wait of a candidate that is ready: an instruction that has issued stays on record with its issue. -/
def readyWait (w : Option Wait) : Option Wait := (w.filter (·.entered)).map fun w => { w with why := .ready }

/-- The candidate is ready: it waits for nothing, and its stamp is the cycle in which it became so. -/
def stampSlice (cycle : Nat) (sl : Slice) (t : Strand) : Strand := match sl with
  | .a => { t with stampA := some (t.stampA.getD cycle), waitA := readyWait t.waitA }
  | .e => { t with stampE := some (t.stampE.getD cycle), waitE := readyWait t.waitE }

/-- The try would begin to take effect and then wait: an arrival, a place among the waiters. It is an issue like any other
(05 R153). -/
def entersNow (t : Strand) (s1 : State) (sid : Nat) (sl : Slice) : Bool := match (s1.strand? sid).bind (waitOf · sl) with
  | none => false
  | some w => w.entered && !(waitOf t sl).any fun v => v.entered && v.instr == w.instr && v.pc == w.pc

/-- One candidate looked at: what it waits for is noted, or its stamp. -/
def lookAt (sid : Nat) (r : State × List ReadySlice) (sl : Slice) : State × List ReadySlice :=
  let s := r.1
  match s.strand? sid with
  | none => r
  | some t =>
    if !mayIssue s sid t || resting t sl then r
    else match tryIssue s sid sl with
      | .idle s => (s, r.2)
      | .did (.next s1) =>
        if waitsNow s1 sid sl t.ewin.isEmpty && !entersNow t s1 sid sl then (s1, r.2)
        else
          let t := stampSlice s.cycle sl t
          let stamp := match sl with
            | .a => t.stampA
            | .e => t.stampE
          (s.setStrand sid t, r.2 ++ [{ sid, sl, stamp := stamp.getD s.cycle, yielding := t.yielding.isSome }])
      | .did _ => r

/-- Every candidate of a core looked at. -/
def survey (s : State) (u : Nat) : State × List ReadySlice :=
  (strandIds u).foldl (fun r sid => [Slice.e, Slice.a].foldl (lookAt sid) r) (s, [])

/-- What follows a next state; a fault or a refusal stands. -/
def andThen (a : Answer) (f : State → State) : Answer := match a with
  | .next s => .next (f s)
  | .fault r => .fault r
  | .refused r => .refused r

/-- The turn of one core in a control cycle: it issues one ready candidate, if any is ready. -/
def coreTurn (s : State) (u : Nat) : Answer :=
  let done (s : State) : State := { s with unit := u + 1 }
  let r := survey s u
  match firstBy ReadySlice.before r.2 with
  | none => .next (done r.1)
  | some c =>
    if !issueOpen r.1 u then .next (done r.1)
    else match tryIssue r.1 c.sid c.sl with
      | .idle s => .next (done s)
      | .did a => andThen a done

/-- A strand that has something to try in a cycle: it does not merely sleep. -/
def awake (t : Strand) : Bool := !resting t .a || !t.ewin.isEmpty

/-- The next core of this cycle with a strand that has something to try, from core `u` on: 192 is the headstock. -/
def nextCore (s : State) (u : Nat) : Option Nat :=
  (s.strands.find? fun q => decide (u ≤ tileOf q.1) && awake q.2).map fun q => tileOf q.1

/-! ### The passing of a control cycle (01 R45, 03 R104) -/

def waitsFor (w : Option Wait) (f : WaitWhy → Bool) : Bool := match w with
  | some w => f w.why
  | none => false

/-- The instruction would also wait at a queue: for an entry it pops, or for room (01 R15). -/
def atQueue (t : Strand) (i : Instr) : Bool := match i with
  | .bqpop _ => t.bq.isEmpty
  | .ldq _ | .vldq _ => decide (32 ≤ t.lq.length)
  | .sta _ | .vsta _ => saqFull t
  | .movq _ => decide (16 ≤ t.xq.length)
  | .std _ | .vstd _ => sdqFull t || shortE t i
  | .bqpush _ => decide (8 ≤ t.bq.length) || shortE t i
  | i => shortE t i || (decide (0 < qpopsOf i 0x90) && t.lq.head?.any (·.data.isNone))

/-- It would also wait at an empty queue that it pops. -/
def atEmpty (t : Strand) (i : Instr) : Bool := match i with
  | .bqpop _ => t.bq.isEmpty
  | i => shortE t i

/-- A slice is held by an interlock, and by nothing else (01 R45). -/
def onlyHeld (t : Strand) : Option Wait → Bool
  | some w => w.why == .interlock && !atQueue t w.instr
  | none => false

/-- A slice waits at an empty queue: it has come to it, or an interlock holds it as well (01 R45). -/
def emptyWait (t : Strand) (f : WaitWhy → Bool) : Option Wait → Bool
  | some w => f w.why || (w.why == .interlock && atEmpty t w.instr)
  | none => false

def isReady (stamp : Option Nat) (w : Option Wait) : Bool := stamp.isSome && w.all (·.why == .ready)

/-- The counters of a strand that count cycles: held by an interlock alone, waiting at an empty queue, held by the
throttle. -/
def tickPerf (isOpen : Bool) (t : Strand) : Strand :=
  let held := onlyHeld t t.waitA || onlyHeld t t.waitE
  let empty := emptyWait t (· == .bqEmpty) t.waitA || emptyWait t (fun y => y == .lqEmpty || y == .xqEmpty) t.waitE
  let ready := isReady t.stampA t.waitA || isReady t.stampE t.waitE
  let t := if held && isOpen then t.addPerf 2 else t
  let t := if empty then t.addPerf 3 else t
  if ready && !isOpen then t.addPerf 7 else t

/-- A strand that has slept for another 1,024 cycles checks its word again. -/
def tickSleep (cycle : Nat) (t : Strand) : Strand := match t.waitA with
  | some w => match w.why with
    | .sleep _ => if w.since < cycle ∧ (cycle - w.since) % 1024 = 0 then { t with recheck := true } else t
    | _ => t
  | none => t

/-- The watchdog's count begins again after a cycle that it does not count (16 R418). -/
def tickQuiet (s : State) (sid : Nat) (t : Strand) : Strand :=
  if isHead sid || watched s sid t then t else { t with quiet := s.cycle + 1 }

/-- A control cycle passes, its sensor update made (19 R453). -/
def State.tick (s : State) : State :=
  let s := s.senseNow
  { s with
    cycle := s.cycle + 1
    unit := 0
    strands := s.strands.map fun q =>
      let t := tickQuiet s q.1 q.2
      (q.1, if runnable s q.1 q.2 then tickSleep (s.cycle + 1) (tickPerf (issueOpen s (tileOf q.1)) t) else t) }

/-! ### Events that are due

Each answers the event's own step when it is due, and nothing when it is not or would change nothing. -/

@[inline] def dueIf (b : Bool) (a : Answer) : Option Answer := if b then some a else none

/-- The answer, when it changes what `f` shows. -/
def dueWhen {α : Type} [DecidableEq α] (s : State) (f : State → α) (a : Answer) : Option Answer := match a with
  | .next s1 => if f s1 = f s then none else some a
  | _ => some a

/-- Results of a strand: data of loads, atomics, other variable-latency results, and store pairs. -/
def resultDue (s : State) (sid : Nat) (t : Strand) : Option Answer :=
  let came (since : Nat) : Bool := decide (since + Config.answerDelay ≤ s.cycle)
  match t.loads.find? (came ·.since) with
  | some l => some (execLoadDataReturn sid l.req s)
  | none => match t.atoms.find? (fun q => if q.performed then came q.since else groupOk s [] [q.req] none) with
    | some a => some (if a.performed then execAtomicResponse sid a.req s else execAtomicGroupPerform (.leaf a.req) s)
    | none => match t.pend.find? (fun p => p.ready.isNone && came p.since && !t.atoms.any (·.req == p.req)) with
      | some p => some (execResultWrite sid p.req s)
      | none => match t.saq, t.sdq with
        | a :: _, d :: _ => if pairReady s sid t a d then dueWhen s (·.strand? sid) (execStorePair sid s) else none
        | _, _ => none

/-- Waits and marks of a strand that end by themselves. -/
def waitDue (s : State) (sid : Nat) (t : Strand) : Option Answer :=
  if yieldOver t s.cycle then some (execYieldMarkExpire sid s)
  else if !runnable s sid t then none
  else match (if crossWait t then dueWhen s (·.strand? sid) (execCrosswaitDetect sid s) else none), t.waitA with
  | some a, _ => some a
  | none, w => match w with
    | none => none
    | some w => match w.why with
      | .sleep _ => if t.recheck then some (execSleepRecheck sid s) else dueIf (w.ended s.cycle) (execSleepTimeout sid s)
      | _ => none

/-- What befalls a strand of a task: its rollback, its stop, the watchdog. -/
def taskDue (s : State) (sid : Nat) (t : Strand) : Option Answer :=
  if isHead sid then none
  else match s.task? (tileOf sid) with
    | none => none
    | some k =>
      let both (s : State) : Option Strand × Option Task := (s.strand? sid, s.task? (tileOf sid))
      if t.rollback.isSome then dueWhen s both (execRollback sid s)
      else if stopNow s sid k t && !stopOutranked s sid t then some (execPreemptStop sid s)
      else if mustPass k t s.cycle then some (execStopPointPass sid s)
      else if stalled s sid t then dueWhen s both (execWatchdogStall sid s)
      else none

def strandDue (s : State) (q : Nat × Strand) : Option Answer :=
  resultDue s q.1 q.2 <|> waitDue s q.1 q.2 <|> taskDue s q.1 q.2

/-- The head command of an engine completes or passes to its pushes now. -/
def completionDue (s : State) (tile : Nat) (k : Task) (e : Engine) (c : Cmd) : Bool :=
  headDone e c &&
    (if poisonRollback s (8 * tile + c.issuer) c then ((s.strand? (8 * tile + c.issuer)).bind (·.rollback)).isNone
     else k.engStop == 0 && (c.phase == 1 || (!copyHalf e c && canPush k.fifo (headPushes e c))))

/-- An engine of a task: start, unit, completion, stop. -/
def engineDue (s : State) (tile : Nat) (k : Task) (e : Engine) : Option Answer :=
  match queueOf k e with
  | [] => dueIf (preempting s tile k && !engStopped k e) (execEnginePreemptStop tile e s)
  | c :: q =>
    if completionDue s tile k e c then some (execEngineCommandComplete tile e s)
    else if preempting s tile k && !engStopped k e && !endsNow s tile k e && decide (q.length < 16) then
      some (execEnginePreemptStop tile e s)
    else if canStart s tile k e c then some (execEngineCommandStart tile e s)
    else if canMove s tile k e c then
      match e with
      | .ce => some (.next (s.moveCe tile))
      | .me => if c.opc = 0x213 then some (execMePanelFold tile s)
        else match missingLines k c with
          | [] => some (execMePanelFold tile s)
          | l :: _ => some (execOperandLineArrive tile l s)
    else none

def tileDue (s : State) (q : Nat × Tile) : Option Answer :=
  if q.2.failing then some (execTileFailure q.1 s)
  else match q.2.task with
    | none => none
    | some k =>
      let shown (s : State) : Option Task := s.task? q.1
      if (taskEnd s q.1).isSome then dueWhen s shown (execTaskComplete q.1 s)
      else if k.ended then none
      else engineDue s q.1 k .me <|> engineDue s q.1 k .ce <|>
        (if preempting s q.1 k && k.engStop == 3 then dueWhen s shown (execTaskSave q.1 s) else none)

def cowDue (s : State) (q : Nat × Cow) : Option Answer :=
  dueIf (q.2.landed.isNone && !q.2.wait.waits) (execCowCopyLand q.1 s)

/-- A gang of a launch: its throttle level, a task to be run again, a pre-emption that meets no stop point. -/
def gangDue (s : State) (lid : Nat) (l : Launch) (g : Nat × Gang) : Option Answer :=
  if s.cycle % 8 = 0 ∧ g.2.cluster.isSome ∧ gangLevel s g.2 ≠ g.2.level then some (execThrottleLevelApply lid g.1 s)
  else if g.2.preReq.isSome && (s.gangTiles lid g.1).any (fun tile => match s.task? tile with
      | some k => match k.preReq with
        | some c => !k.nosafe && decide (c + s.dev.wdint.toNat ≤ s.cycle) && !(notStopped s tile).isEmpty
        | none => false
      | none => false) then some (execPreemptNosafe lid g.1 s)
  else if !l.restart || l.cancelled || l.rest then none
  else match l.recs.find? (fun r => r.2.phase == .unplaced && r.2.placedOnce && r.1 / l.gangSize == g.1) with
    | some r => dueIf (againTile s.reserve l g.1 g.2).isSome (execTaskReexec lid r.1 s)
    | none => none

def launchDue (s : State) (q : Nat × Launch) : Option Answer :=
  if q.2.terminal.isSome then
    if q.2.recordDue then dueWhen s (fun s => (s.loom.launches, s.out)) (.next (s.retryRecord q.1)) else none
  else if !q.2.ready then dueWhen s (fun s => (s.loom.launches, s.out.priOut)) (execLaunchReady q.1 s)
  else if windowOver q.2 s.cycle then some (execClassifyWindowEnd q.1 s)
  else q.2.gangs.findSome? (gangDue s q.1 q.2)

/-- What tasks without a tile have left is released. -/
def orphanDue (s : State) : Option Answer :=
  (s.loom.orphans.zipIdx).findSome? fun q => if q.1.wait.waits then none else dueWhen s (·.loom) (.next (s.release q.2 q.1))

/-- The loom's placements, a cluster kept when nothing fits (05 R164), and its recomputation of every slack each 16,000 cycles (05 R161). -/
def loomDue (s : State) : Option Answer :=
  if s.loom.launches.isEmpty then none
  else if s.loom.swept + 16000 ≤ s.cycle then some (execSlackRecompute s)
  else if !(unchecked s).isEmpty then some (execPlaceGang s)
  else match choice s.reserve with
    | .place _ _ => some (execPlaceGang s)
    | .restore q _ => dueWhen s (·.loom) (execTaskRestore q.lid q.g s)
    | .nothing => match dueWhen s (·.loom.reserved) (execPlaceGang s) with
      | some a => some a
      | none => dueIf (preemption s).isSome (execPreemptRequest s)

/-- What a stream's own clock, its job or a waiting operation makes it do. -/
def streamDue (s : State) (q : Nat × Stream) : Option Answer :=
  if stepOver s q.2 then some (execStepEnd q.1 s)
  else if stepReleased s q.2 then some (execStepStart q.1 s)
  else if (q.2.backDue && !q.2.writeBack.waits) || !q.2.idle then dueWhen s (·.su) (.next (s.redoStream q.1))
  else dueIf (takeDue s (q.2.get cEnc)).isSome (execEncoderTake (q.2.get cEnc) s)

def encoderDue (s : State) (q : Nat × List Take) : Option Answer :=
  if q.2.any fun k => !k.wait.waits && encodeOver s k then dueWhen s (·.su) (execEncoderRecordEmit q.1 s) else none

def decoderDue (s : State) (q : Nat × DecodeJob) : Option Answer :=
  dueIf (!q.2.wait.waits) (execDecodeComplete q.1 s)

def queueDue (s : State) (q : Nat × HostQueue) : Option Answer :=
  if acceptDue s q.1 then some (execPacketAccept q.1 s) else dueIf (fetchDue s q.1) (execRingFetch q.1 s)

def cmdDue (s : State) (q : Nat × HostCmd) : Option Answer :=
  if (terminalDue s q.1).isSome then some (execCommandTerminal q.1 s)
  else if q.2.started || q.2.written || q.2.wait.waits then none
  else dueWhen s (·.cmd? q.1) (commandMeaning q.1 q.2 s)

/-- An interrupt is due, and neither a trap nor an END of the strand ranks above it (16 R414). -/
def interruptNext (s : State) : Bool := (interruptDue s).isSome && (s.strand? 1536).any fun t => interruptHolds s 1536 t

def headDue (s : State) : Option Answer :=
  if s.host.resetDue then some (execWarmReset s)
  else if s.head.failed && s.host.firmware.isSome then some (execHeadstockRestart s)
  else if sensorDue s then some (.next s.senseNow)
  else if windowDue s then some (execFaultWindowClose s)
  else if interruptNext s then some (execHeadstockInterrupt s)
  else none

/-- The first event that is due (log 5). -/
def due (s : State) : Option Answer :=
  headDue s <|> s.strands.findSome? (strandDue s) <|> s.tiles.findSome? (tileDue s) <|> s.cows.findSome? (cowDue s) <|>
    (s.moveLate.map .next) <|> orphanDue s <|> s.loom.launches.findSome? (launchDue s) <|> loomDue s <|> s.su.encoders.findSome? (encoderDue s) <|>
    s.su.decoders.findSome? (decoderDue s) <|> s.su.streams.findSome? (streamDue s) <|> s.host.cmds.findSome? (cmdDue s) <|>
    s.host.queues.findSome? (queueDue s)

/-- With nothing asked for: an event that is due, the next core of this cycle, or the end of the cycle (log 5). -/
def ownTurn (s : State) : Answer :=
  match due s with
  | some a => a
  | none => match nextCore s s.unit with
    | some u => coreTurn s u
    | none => .next s.tick

/-! ### What the environment asks for (log 4) -/

/-- A word of the table is issued by a slice; only the other rows are moves of their own. -/
def evTurn (s : State) (i : Instr) : Answer :=
  if (Decode.rawOf i).isSome then .next s
  else match i with
    | .unallocatedOpcode _ => .next s
    | .coldReset => exec .coldReset s
    | .preemptStop sid => match s.strand? sid with
      | some t => if stopOutranked s sid t then .next s else exec i s
      | none => .next s
    | .headstockInterrupt => if interruptNext s then exec i s else .next s
    | .bwaitTimeout sid => if issueOpen s (tileOf sid) then exec i s else .next s
    | .feedwaitTimeout sid => if issueOpen s (tileOf sid) then exec i s else .next s
    | i => if s.host.off then .next s else exec i s

/-- The parity of a register or queue entry fails (17 R435). -/
def State.spoilReg (s : State) (sid : Nat) (d : Logged) : State := s.updStrand sid fun t => { t with badRegs := d :: t.badRegs.filter (· != d) }

/-- One move the environment asks for. -/
def runTurn (s : State) : Turn → Answer
  | .ev i => evTurn s i
  | .issue sid sl => if s.host.off then .next s else issueTurn s sid sl
  | .ceMove tile => .next (s.moveCe tile)
  | .evict tile line => .next (s.flushLine tile line)
  | .tick => .next s.tick
  | .foreignWrite loc bs => .next (s.writeLoc loc bs)
  | .lineError tile line sector => .next (s.spoilLine tile line sector)
  | .refuse r holds =>
    let others := s.out.refused.filter (· != r)
    .next { s with out := { s.out with refused := if holds then others ++ [r] else others } }
  | .softError k => .next { s with poison := NatSet.insert s.poison k }
  | .imageLoad im => .next { s with loom := { s.loom with images := s.loom.images ++ [im] } }
  | .redo n => .next (s.redoStream n)
  | .parity sid d => .next (s.spoilReg sid d)
  | .mismatch sid sub => .next (s.updStrand sid fun t => { t with checker := some sub })
  | .bar2Size log => .next (s.resizeBar2 log)

end Sys2Proof.Machine
end

