-- ==== Sys2Proof/Machine/Step.lean ====
section
/-! DEFINITION. One step of the machine (log 4, log 5), and the placing of an instruction where the next step fetches it
(log 7). -/

namespace Sys2Proof.Machine

/-- One step: the move the environment asks for, or else what the machine does by itself. -/
def step (s : State) : Host.Outcome State Fault Refusal :=
  match s.agenda with
  | tu :: rest => runTurn { s with agenda := rest } tu
  | [] => if s.host.off then .next s else ownTurn s

/-! ### Placing an instruction -/

/-- Whether a tile runs a word; one that only the headstock accepts is placed there. -/
def tileRuns (w : IWord) : Bool := match decode .tile w with
  | .ok _ => true
  | .error _ => match decode .headstock w with
    | .ok _ => false
    | .error _ => true

/-- The task that holds tile 0 when none does: partition STRANDS 1, RF 32, ACC 32, SPAD 16. -/
def probeTask (cycle : Nat) : Task :=
  { launch := 0, index := 0, gang := 0, pasid := 0, part := 0x10102020, stack := 0x10000, entry := 0x200000, args := 0, handler := 0,
    barmask := 0, top := 0, floor := 0xF0000, guards := [],
    slots := Vector.replicate 256 { gen := 0, state := .complete, issuer := 0, unit := .other, issue := 0 }, lastSlot := 255,
    ceq := [], meq := [], fifo := Vector.replicate 6 0, order := 0, acc := [], oplines := [], kept := [], tm := [], l1 := [],
    ipins := [], l2pins := [], placed := cycle, preReq := none, nosafe := false, engStop := 0,
    failedBy := none, cancelled := false, tried := [], ending := .none }

/-- Where a strand placed here starts: the address and, in its page, the same location of the first tier. -/
def probePc : Nat := 0x200000

/-- A strand stands at its PC, with nothing of its own before the word there. -/
def Strand.readied (t : Strand) : Strand :=
  { t with run := .running, rollback := none, ewin := [], bqPopped := [], stop := none, passed := true }

/-- Strand 0 of tile 0, with a task that goes on. -/
def State.readyTile (s : State) : State :=
  let s := match s.task? 0 with
    | some _ => s.updTask 0 fun k => { k with cancelled := false, failedBy := none }
    | none => s.updTile 0 fun x => { x with task := some (probeTask s.cycle) }
  let s := match s.strand? 0, s.task? 0 with
    | none, some k => s.startStrand 0 k 0 (BitVec.ofNat 64 probePc) 0
    | _, _ => s
  s.updStrand 0 Strand.readied

/-- Strand 0 of the headstock. -/
def State.readyHead (s : State) : State :=
  let s := match s.strand? 1536 with
    | none => s.startHead 0 (BitVec.ofNat 64 probePc) 0 0
    | some _ => s
  s.updStrand 1536 Strand.readied

/-- A leaf entry with every permission, for the frame at location 0 of the first tier. -/
def probePte : Word := 0x7800000000000003

/-- A tile's translation of the page of an address, when it has none: the page at location 0x200000. -/
def State.mapTile (s : State) (a : Agent) (va : Nat) : State := match fetchPart s a va with
  | (.part _, _) => s
  | _ => s.updTile 0 fun x =>
      { x with tlb := tlbAdd x.tlb 256 { pasid := a.pasid, base := va / 2 ^ 17 * 2 ^ 17, size := 2 ^ 17, frame := probePc,
                                         pte := probePte ||| BitVec.ofNat 64 probePc, pteLoc := 0 } }

/-- The headstock's page tables for an address, when it has no translation: a PASID table entry, a CCB, three levels, a
512 MiB page at location 0. -/
def State.mapHead (s : State) (a : Agent) (va : Nat) : State := match fetchPart s a va with
  | (.part _, _) => s
  | _ =>
    let s := s.writeLocNat s.dev.qtroot.toNat 8 (0x300000 + 3)
    let s := s.writeLocNat 0x300000 8 0x301000
    let s := s.writeLocNat (0x301000 + 8 * (va / 2 ^ 47 % 2 ^ 9)) 8 (0x302000 + 1)
    let s := s.writeLocNat (0x302000 + 8 * (va / 2 ^ 38 % 2 ^ 9)) 8 (0x303000 + 1)
    s.writeLocNat (0x303000 + 8 * (va / 2 ^ 29 % 2 ^ 9)) 8 probePte.toNat

/-- A word stored where a fetch by `a` at `va` finds it: no older copy of its line is kept. -/
def State.plant (s : State) (a : Agent) (va : Nat) (w : IWord) : State := match fetchPart s a va with
  | (.part p, _) =>
    let s := setIcache s a.tile ((icacheOf s a.tile).filter fun e => e.va != va / 128 * 128)
    let s := s.dropLine a.tile (p.loc / 128)
    let s := s.writeLoc p.loc (wordBytes w)
    { s with poison := NatSet.erase s.poison (p.loc / 32) }
  | _ => s

/-- The instruction whose bits are `w`, placed where the next step fetches (log 7): at the PC of strand 0 of tile 0, or of
the headstock when only it accepts the word; that strand's slice moves next. -/
def State.withFetchWord (s : State) (nbits w : Nat) : State :=
  let word : IWord := BitVec.ofNat 128 (w % 2 ^ nbits)
  let tile := tileRuns word
  let sid := if tile then 0 else 1536
  let s := if tile then s.readyTile else s.readyHead
  match s.strand? sid with
  | none => s
  | some t =>
    let a := agentOf s sid t
    let va := t.pc.toNat
    let s := (if tile then s.mapTile a va else s.mapHead a va).plant a va word
    { s with agenda := .issue sid (wordSlice word) :: s.agenda }

end Sys2Proof.Machine
end

