-- ==== Sys2Proof/Safety.lean ====
section
/-! DEFINITION. What the claims speak of: when the word in focus issues, what its issue does beside its own effect, the
part of a strand that programs see, and the forms of the state that every step keeps. -/

namespace Sys2Proof.Machine

open Decode

/-! ### When an instruction issues -/

/-- The wrong hints of the instruction in focus (01 R27, R28): those found now, or those kept across the trap that
reported them. -/
def hintsNow (t : Strand) (cycle : Nat) (f : Focus) (r : Raw) : List Hint :=
  let old := heldHints t (pcOf t f.place)
  if old.isEmpty then hints t cycle r (useOf r) else old

/-- Whether they have been counted already. -/
def hintsCounted (t : Strand) (sl : Slice) : Bool := match sl with
  | .a => t.hintA
  | .e => t.hintE

/-- The hints of the slice's instruction are counted. -/
def markCounted (t : Strand) : Slice → Strand
  | .a => { t with hintA := true }
  | .e => { t with hintE := true }

/-- The strand once the conditions of issue hold: results that are due are written, wrong hints are counted (01 R28). -/
def opened (s : State) (f : Focus) (r : Raw) (t0 : Strand) : Strand :=
  let t := settle s.cycle t0
  markCounted (if hintsCounted t (sliceOf r) then t else noteHints t (pcOf t f.place) (seqOf t f.place) (hintsNow t s.cycle f r))
    (sliceOf r)

/-- What a strand holds apart from the bookkeeping of issue: without PC and the loop levels (03 R95), the interlocks,
scoreboards, reads, STALL counts, reuse entries and hint counts (01 R22 to R29), the waits, the words passed to E (01 R14), the
counters of PERF0 to PERF7 and the marks of the arbiter (05 R153, R154). HCTL keeps its CHK bit. -/
def Strand.bare (t : Strand) : Strand :=
  { t with
    pc := 0, loops := Vector.replicate 4 Loop.off, sbA := Vector.replicate 6 0, sbE := Vector.replicate 6 0
    reuseA := Vector.replicate 3 none, reuseE := Vector.replicate 3 none, pend := [], reads := [], young := [], early := [], stallA := 0, stallE := 0
    hintA := false, hintE := false, hintHeld := none, hctl := t.hctl &&& 1, perf := Vector.replicate 8 0
    stampA := none, stampE := none, waitA := none, waitE := none, seq := 0, ewin := [], bqPopped := []
    watchdog := false, quiet := 0, yielding := none, stop := none, passed := false, next := none }

/-- The word of `i` is in focus on the strand `t`, whose fields are `r`, and nothing holds it back: it passes the checks
of 02 R63; STALL, WAIT and the scoreboards (01 R22 to R24), the interlock (01 R26) and the distance of the slices (01
R14) let it issue; its hints are right, or they are corrected without a cause (01 R28, R29); older instructions are far
enough (`o`, log 6); no register has failed parity (17 R435). -/
structure Issues (s : State) (i : Instr) (o : Order) (f : Focus) (r : Raw) (t : Strand) : Prop where
  focus : s.focus = some f
  strand : s.strand? f.sid = some t
  word : rawOf i = some r
  formed : illFormed s.core i = none
  timing : timingOk (settle s.cycle t) s.cycle (sliceOf r) r = true
  hint : hintsCounted (settle s.cycle t) (sliceOf r) = true ∨ hintsNow (settle s.cycle t) s.cycle f r = [] ∨ t.chk = false
  operands : interlockOk (opened s f r t) s.cycle (useOf r) = true
  limit : sliceOf r = .a → limitOk (opened s f r t) = true
  order : sliceOf r = .a → orderOk (opened s f r t) s.core o = true
  parity : t.badRegs = []

/-- The state in which the instruction takes effect, and the strand in it. -/
def openedState (s : State) (f : Focus) (r : Raw) (t : Strand) : State := started s f r (opened s f r t)

def openedStrand (s : State) (f : Focus) (r : Raw) (t : Strand) : Strand :=
  readReuse { (opened s f r t) with next := none } (sliceOf r) (useOf r)

/-- `i` issues on the strand `t`: it finds the state `o`, whose strand in focus is `u`. -/
def Finds (i : Instr) (ord : Order) (s : State) (f : Focus) (r : Raw) (t : Strand) (o : State) (u : Strand) : Prop :=
  Issues s i ord f r t ∧ o = openedState s f r t ∧ u = openedStrand s f r t

/-- The instruction takes effect: `s2` is what its effect makes of the state it finds, and then it has issued and
retired. -/
def Completes (i : Instr) (s : State) (f : Focus) (r : Raw) (t : Strand) (s2 : State) : Prop :=
  exec i s = .next (finished s f r (opened s f r t) s2)

/-! ### Conditions on operands -/

/-- A target that control may pass to (03 R90). -/
abbrev GoodTarget (a : Word) : Prop := a.extractLsb' 0 4 = 0 ∧ canonical a = true

/-- None of the registers carries a poison mark (08 R263, 09 R276). -/
abbrev Unmarked (u : Strand) (ds : List Desig) : Prop := ∀ d ∈ ds, u.markOf d = none

/-- The registers that a program sees beside x, v and p: the special registers (01 R42) that the strand holds. -/
def SameSpecial (t t' : Strand) : Prop :=
  t'.xpc = t.xpc ∧ t'.xcause = t.xcause ∧ t'.xval = t.xval ∧ t'.xvec = t.xvec ∧ t'.xstat = t.xstat ∧ t'.xscr = t.xscr ∧
  t'.sbase = t.sbase ∧ t'.slimit = t.slimit ∧ t'.cePidx = t.cePidx ∧ t'.mePidx = t.mePidx ∧ t'.turn = t.turn ∧
  t'.turnPc = t.turnPc ∧ t'.fq = t.fq ∧ t'.bobbin = t.bobbin ∧ t'.issue = t.issue ∧ (t'.hctl &&& 1) = (t.hctl &&& 1)

/-- The slice queues (01 R15). -/
def SameQueues (t t' : Strand) : Prop :=
  t'.lq = t.lq ∧ t'.saq = t.saq ∧ t'.sdq = t.sdq ∧ t'.xq = t.xq ∧ t'.bq = t.bq

/-- Nothing outside the strands and the count of requests differs: memory, tiles with their caches and tasks, clusters,
the headstock's registers, the device's registers, the loom, the units and the host's side. -/
def SameWorld (s s' : State) : Prop :=
  s' = { s with strands := s'.strands, req := s'.req }

/-! ### Operands and traps, as claims name them -/

/-- Operand b of class 0: the immediate, or a register (02 R49). -/
def operandB (fl : FormS) (u : Strand) : Res (Read Word) :=
  if fl.imm then .ok { val := immVal fl, mark := none, rest := u } else readScalar u fl.b

/-- The operands of a class 0 instruction can be read, a, b, c in this order (01 R16): the queues they pop are not
frozen and hold the entry. -/
abbrev Operands (fl : FormS) (u : Strand) (a b c : Read Word) : Prop :=
  readScalar u fl.a = .ok a ∧ operandB fl a.rest = .ok b ∧ readScalar b.rest fl.c = .ok c

/-- What taking a trap leaves in the strand (01 R35): the address, the cause and the value are saved, the level and the
hold bit are saved and set, the queues are frozen, control is at the handler, and every register keeps its value. -/
def TookTrap (t t' : Strand) (pc : Word) (cause sub : BitVec 8) (val : BitVec 56) : Prop :=
  t'.xpc = pc ∧ t'.xcause = cause.setWidth 64 ∧ t'.xval = sub ++ val ∧ t'.pc = t.xvec ∧
  t'.pl = true ∧ t'.ppl = t.pl ∧ t'.inh = true ∧ t'.pinh = t.inh ∧ t'.qf = true ∧
  t'.x = t.x ∧ t'.v = t.v ∧ t'.p = t.p ∧ SameQueues t t' ∧ t'.loops = t.loops ∧
  t'.reuseA = Vector.replicate 3 none ∧ t'.reuseE = Vector.replicate 3 none

/-- The word at PC stands alone: every older instruction of the strand has completed (01 R30). -/
abbrev Alone (t : Strand) (f : Focus) : Prop := f.place = .fetch ∧ t.ewin = [] ∧ drainedBefore t t.seq = true

/-- Nothing older holds a load to the parts `ps` (08 R252, R253, R256). -/
abbrev LoadFree (u : Strand) (ps : List Part) : Prop :=
  loadReady u = .ok () ∧ meetsAtom u ps = false ∧ (sideEffect ps = false ∨ u.ewin = [])

/-- The bytes a load reads, and the state after the read: an acquire wider than the tile reads past the L1. -/
def loadRead (fl : FormM) (o : State) (f : Focus) (ps : List Part) : Got × State :=
  fetchParts (if fl.ord = .acq then o.freshen (unitOf f.sid) fl.scope ps else o) (unitOf f.sid) f.sid fl.ch ps

/-- The load in flight: its value is bound, its data has not arrived (08 R250; 09 R276 to R278). -/
def inFlight (fl : FormM) (o : State) (u : Strand) (ea : Word) (g : Got) (dst : LoadDst) (data : VReg) : Flight :=
  { req := o.own, seq := u.seq, dst, data, mark := if g.bad then some { addr := ea.setWidth 56, atomic := false } else none,
    acq := if fl.ord = .acq then some fl.scope else none, since := o.cycle }

/-- A load starts: its value is in flight. -/
def loadStarts (s2 : State) (f : Focus) (l : Flight) : State :=
  s2.updStrand f.sid fun q => { q with loads := q.loads ++ [l] }

/-! ### A form every step keeps -/

/-- The memory of a state in its canonical form: addresses strictly rising, and no byte listed that an unlisted one reads
as (log 2, log 3). -/
abbrev Canonical (s : State) : Prop := Memory.wf s.mem = true

end Sys2Proof.Machine
end

