-- ==== Sys2Proof/Certificates/Slice0/Obligations.lean ====
section
/-! DEFINITION. The statements for the provers. In most of them an instruction is in focus and issues (`Finds`, Safety):
`o` is the state it finds, `u` its strand there; `Completes … s2` says that `exec` answers the next state in which the
effect `s2` has taken place and the instruction has retired. What issue and retirement change beside that effect is
said by IssueFrame, where control goes next by ProgramCounter. -/

open Sys2Proof Sys2Proof.Machine Sys2Proof.Decode

/-! ### Issue -/

/-- The state an instruction finds differs from the state before it in the bookkeeping of its strand and the count of
requests; a completed instruction differs from its effect in the bookkeeping of its strand only (`Strand.bare`: 01
R13, R22 to R26): every register, mark and queue of the strand, its special registers and reports, every other strand
and the whole rest of the machine are as the effect left them. Readings of the model: log 6, 17. -/
def Obligations.IssueFrame : Prop :=
  ∀ (i : Instr) (s : State) (f : Focus) (r : Raw) (t : Strand) (s2 : State) (t2 : Strand),
    SameWorld s (openedState s f r t) ∧
    (openedState s f r t).strand? f.sid = some (openedStrand s f r t) ∧ (openedStrand s f r t).bare = t.bare ∧
    (∀ j, j ≠ f.sid → (openedState s f r t).strand? j = s.strand? j) ∧
    (s2.strand? f.sid = some t2 → Completes i s f r t s2 →
      ∃ s' t', exec i s = .next s' ∧ SameWorld s2 s' ∧ s'.req = s2.req ∧ s'.strand? f.sid = some t' ∧ t'.bare = t2.bare ∧
        (∀ n, t'.getX n = t2.getX n) ∧ t'.v = t2.v ∧ t'.p = t2.p ∧ SameQueues t2 t' ∧ SameSpecial t2 t' ∧
        ∀ j, j ≠ f.sid → s'.strand? j = s2.strand? j)

/-- Where control goes after a word of the path has taken effect (01 R12, 03 R95): to the target of a transfer; else to
the next word when no active level ends at this one. Of the innermost level `k` that ends here, with the levels inside it no longer
active: back to its body's start, with one iteration less, when it has more than one left; and when it has not, it is over,
and control goes to the next word, or where the level outside it sends it when that ends here too. Readings of the model:
log 6. -/
def Obligations.ProgramCounter : Prop :=
  ∀ (i : Instr) (s : State) (sid : Nat) (r : Raw) (t : Strand) (s2 : State) (t2 : Strand),
    Completes i s ⟨sid, .fetch⟩ r t s2 → s2.strand? sid = some t2 →
    ∃ s' t', exec i s = .next s' ∧ s'.strand? sid = some t' ∧
      (∀ a, t2.next = some a → t'.pc = a ∧ t'.loops = t2.loops) ∧
      (t2.next = none → (∀ k : Fin 4, k.val < t2.depth → t2.loops[k].stop ≠ t2.pc) →
        t'.pc = t2.pc + 16 ∧ t'.loops = t2.loops) ∧
      (t2.next = none → ∀ k : Fin 4, k.val < t2.depth → t2.loops[k].stop = t2.pc →
        (∀ j : Fin 4, k.val < j.val → j.val < t2.depth → t2.loops[j].stop ≠ t2.pc) →
        (1 < t2.loops[k].count → t'.pc = t2.loops[k].start ∧
          (∀ j : Fin 4, t'.loops[j] = if j.val < k.val then t2.loops[j] else if j.val = k.val then
            { t2.loops[k] with count := t2.loops[k].count - 1 } else Loop.off)) ∧
        (t2.loops[k].count ≤ 1 → let over_ : Strand := { t2 with loops := cutLoops t2.loops k.val }
          ((∀ j : Fin 4, j.val + 1 = k.val → ¬ (j.val < over_.depth ∧ over_.loops[j].stop = t2.pc)) →
            t'.pc = t2.pc + 16 ∧ t'.loops = over_.loops) ∧
          (∀ j : Fin 4, j.val + 1 = k.val → j.val < over_.depth → over_.loops[j].stop = t2.pc →
            t'.pc = (advance over_).pc ∧ t'.loops = (advance over_).loops)))

/-! ### Class 0 -/

/-- The instructions of class 0 and what each computes from its operands a, b, c (03 R79 to R88). -/
def scalarRows : List ((FormS → Instr) × (FormS → Word → Word → Word → Word)) :=
  [(.add, fun f => addOp f.ty), (.sub, fun f => subOp f.ty), (.mul, fun f => mulOp f.ty), (.mulh, fun f => mulhOp f.ty),
   (.mulhz, fun f => mulhOp f.ty), (.muladd, fun f => muladdOp f.ty), (.div, fun f => divOp f.ty),
   (.divz, fun f => divOp f.ty), (.rem, fun f => remOp f.ty), (.remz, fun f => remOp f.ty), (.and, fun f => andOp f.ty),
   (.or, fun f => orOp f.ty), (.xor, fun f => xorOp f.ty), (.andn, fun f => andnOp f.ty), (.orn, fun f => ornOp f.ty),
   (.sll, fun f => sllOp f.ty), (.srl, fun f => srlOp f.ty), (.sra, fun f => sraOp f.ty), (.ror, fun f => rorOp f.ty),
   (.min, fun f => minOp f.ty), (.max, fun f => maxOp f.ty), (.minz, fun f => minOp f.ty), (.maxz, fun f => maxOp f.ty),
   (.clz, fun f => clzOp f.ty), (.ctz, fun f => ctzOp f.ty), (.popc, fun f => popcOp f.ty), (.bext, fun f => bextOp f.ty)] ++
  [(.bins, fun f => binsOp f.ty), (.sext, fun f => extOp f.ty), (.zext, fun f => extOp f.ty), (.slt, fun f => sltOp f.ty),
   (.sltz, fun f => sltOp f.ty), (.seq, fun f => seqOp f.ty), (.sel, fun f => selOp f.ty), (.movi, fun f => moviOp f.ty),
   (.movhi, fun f => movhiOp f.imm32), (.lea, fun f => leaOp f.aux f.imm32), (.sfadd, fun _ => sfaddOp),
   (.sfmul, fun _ => sfmulOp), (.sffma, fun _ => sffmaOp), (.sfcmp, fun f => sfcmpOp f.aux),
   (.sfcvt, fun f => sfcvtOp f.aux), (.sfmin, fun _ => sfminOp), (.sfmax, fun _ => sfmaxOp)]

/-- A class 0 instruction whose operands can be read and carry no mark completes: with bit 0 of its predicate set it
writes its result to D, otherwise it only pops what it names (01 R18, R21; 03 R74, R77). -/
def Obligations.ScalarCompletes : Prop :=
  ∀ q ∈ scalarRows, ∀ (fl : FormS) (s o : State) (f : Focus) (r : Raw) (t u : Strand) (a b c : Read Word),
    Finds (q.1 fl) .ahead s f r t o u → Operands fl u a b c →
    (gateOn u fl.gate = true → a.mark = none → b.mark = none → c.mark = none →
      Completes (q.1 fl) s f r t (o.setStrand f.sid (c.rest.putD fl.d (q.2 fl a.val b.val c.val)))) ∧
    (gateOn u fl.gate = false → Completes (q.1 fl) s f r t (o.setStrand f.sid c.rest))

/-- What a class 0 instruction that completes leaves alone: every scalar register but D, the vector and predicate
registers, the special registers, SAQ, SDQ and BQ, every byte of memory, and everything outside its strand. x0 and x32
keep reading zero, also as D. -/
def Obligations.ScalarFrame : Prop :=
  ∀ q ∈ scalarRows, ∀ (fl : FormS) (s o : State) (f : Focus) (r : Raw) (t u : Strand) (a b c : Read Word),
    Finds (q.1 fl) .ahead s f r t o u → Operands fl u a b c → a.mark = none → b.mark = none → c.mark = none →
    ∃ s' t', exec (q.1 fl) s = .next s' ∧ SameWorld s s' ∧ (∀ l, Memory.read s'.mem l = Memory.read s.mem l) ∧
      s'.strand? f.sid = some t' ∧ (∀ j, j ≠ f.sid → s'.strand? j = s.strand? j) ∧
      (∀ n, fl.d ≠ .x n → t'.getX n = t.getX n) ∧ t'.getX 0 = 0 ∧ t'.getX 32 = 0 ∧ t'.v = t.v ∧ t'.p = t.p ∧
      SameSpecial t t' ∧ t'.saq = t.saq ∧ t'.sdq = t.sdq ∧ t'.bq = t.bq

/-- The arithmetic instructions and the exact value each computes from Op(a), Op(b), Op(c) (03 R79). -/
def arithmeticRows : List ((FormS → Instr) × (Ty → Int → Int → Int → Int)) :=
  [(.add, fun _ a b _ => a + b), (.sub, fun _ a b _ => a - b), (.mul, fun _ a b _ => a * b),
   (.muladd, fun _ a b c => a * b + c), (.mulh, fun ty a b _ => a * b / 2 ^ Ty.width ty),
   (.mulhz, fun ty a b _ => a * b / 2 ^ Ty.width ty)]

/-- R79: ADD, SUB, MUL, MULADD, MULH and MULHZ write Res of the exact value, which is the 64-bit word whose low W bits
are that value modulo 2^W and whose upper bits extend them as the type says (R74). -/
def Obligations.ArithmeticResults : Prop :=
  ∀ q ∈ arithmeticRows, ∀ (fl : FormS) (s o : State) (f : Focus) (r : Raw) (t u : Strand) (a b c : Read Word),
    Finds (q.1 fl) .ahead s f r t o u → Operands fl u a b c → gateOn u fl.gate = true →
    a.mark = none → b.mark = none → c.mark = none →
    ∀ n : Fin 64, fl.d = .x n → n ≠ 0 → n ≠ 32 →
    ∃ s' t', exec (q.1 fl) s = .next s' ∧ s'.strand? f.sid = some t' ∧ t'.mark? n = none ∧
      ((t'.getX n).toNat : Int) % 2 ^ Ty.width fl.ty =
        q.2 fl.ty (opInt fl.ty a.val) (opInt fl.ty b.val) (opInt fl.ty c.val) % 2 ^ Ty.width fl.ty ∧
      t'.getX n = BitVec.ofInt 64 (opInt fl.ty (t'.getX n))

/-! ### Class 1: control transfer -/

/-- NOP changes nothing; BR, BCC and BRI pass control to their target when it is aligned and canonical (03 R90, R91,
R92); a BCC whose condition fails goes on. Both registers of BCC, and BRI's, carry no mark (08 R263). -/
def Obligations.BranchesComplete : Prop :=
  ∀ (fl : FormS) (s o : State) (f : Focus) (r : Raw) (t u : Strand),
    (Finds (.nop fl) .ahead s f r t o u → Completes (.nop fl) s f r t o) ∧
    (Finds (.br fl) .ahead s f r t o u → GoodTarget (branchTarget u.pc fl.imm32) →
      Completes (.br fl) s f r t (o.setStrand f.sid (u.goto (branchTarget u.pc fl.imm32)))) ∧
    (Finds (.bcc fl) .ahead s f r t o u → Unmarked u [fl.a, fl.b] → condHolds fl.cond (u.xa fl.a) (u.xa fl.b) = true →
      GoodTarget (branchTarget u.pc fl.imm32) →
      Completes (.bcc fl) s f r t (o.setStrand f.sid (u.goto (branchTarget u.pc fl.imm32)))) ∧
    (Finds (.bcc fl) .ahead s f r t o u → Unmarked u [fl.a, fl.b] → condHolds fl.cond (u.xa fl.a) (u.xa fl.b) = false →
      Completes (.bcc fl) s f r t o) ∧
    (Finds (.bri fl) .ahead s f r t o u → Unmarked u [fl.a] → GoodTarget (u.xa fl.a) →
      Completes (.bri fl) s f r t (o.setStrand f.sid (u.goto (u.xa fl.a))))

/-- LOOP with a count of zero passes over its body; any other count enters the next free level, whose body starts at the
next word and ends `n` words after the LOOP (03 R94). LOOPX leaves as many of the innermost levels as AUX says and
passes control to its target (03 R96). -/
def Obligations.LoopsComplete : Prop :=
  ∀ (fl : FormS) (s o : State) (f : Focus) (r : Raw) (t u : Strand),
    let n := (fl.imm32.extractLsb' 0 16).toNat
    let past := u.pc + BitVec.ofNat 64 (16 * (n + 1))
    let enter (count : BitVec 32) : Strand := { u with
      loops := u.loops.set (Fin.ofNat 4 u.depth)
        { active := true, start := u.pc + 16, stop := u.pc + BitVec.ofNat 64 (16 * n), count } }
    (Finds (.loopReg fl) .ahead s f r t o u → Unmarked u [fl.a] → (u.xa fl.a).setWidth 32 = (0 : BitVec 32) →
      Completes (.loopReg fl) s f r t (o.setStrand f.sid (u.goto past))) ∧
    (Finds (.loopReg fl) .ahead s f r t o u → Unmarked u [fl.a] → (u.xa fl.a).setWidth 32 ≠ (0 : BitVec 32) → u.depth < 4 →
      Completes (.loopReg fl) s f r t (o.setStrand f.sid (enter ((u.xa fl.a).setWidth 32)))) ∧
    (Finds (.loopImm fl) .ahead s f r t o u → fl.imm32.extractLsb' 16 16 = 0 →
      Completes (.loopImm fl) s f r t (o.setStrand f.sid (u.goto past))) ∧
    (Finds (.loopImm fl) .ahead s f r t o u → fl.imm32.extractLsb' 16 16 ≠ 0 → u.depth < 4 →
      Completes (.loopImm fl) s f r t (o.setStrand f.sid (enter ((fl.imm32.extractLsb' 16 16).setWidth 32)))) ∧
    (Finds (.loopx fl) .ahead s f r t o u → GoodTarget (branchTarget u.pc fl.imm32) →
      Completes (.loopx fl) s f r t (o.setStrand f.sid { (u.goto (branchTarget u.pc fl.imm32)) with
        loops := cutLoops u.loops (u.depth - ((fl.aux.extractLsb' 0 2).toNat + 1)) }))

/-- CALL and CALLI store the return address and the depth of the loop levels at SP - 16, in the task's scratchpad, lower
SP by 16 and pass control; RET reads that record, raises SP by 16, returns, and leaves the loop levels entered since (03
R92; 01 R40, R41). While the execute slice has an older word to issue, what stood there is noted (01 R31). -/
def Obligations.CallsComplete : Prop :=
  ∀ (fl : FormS) (s o : State) (f : Focus) (r : Raw) (t u : Strand),
    let sp := u.getX 1
    let saved := leBytes 8 (u.pc + 16).toNat ++ leBytes 8 u.depth
    let kept := o.noteStore f.sid u u.seq .default [recordPart f.sid (sp - 16)]
    let pushed := storeParts kept (tileOf f.sid) f.sid .default [recordPart f.sid (sp - 16)] saved false
    let read := loadParts o (tileOf f.sid) f.sid .default [recordPart f.sid sp]
    let back : Word := BitVec.ofNat 64 (field read.1.bytes 0 8)
    (Finds (.call fl) .normal s f r t o u → checkStack o f.sid u (sp - 16) 16 = .ok () → sp.extractLsb' 0 4 = 0 →
      GoodTarget (branchTarget u.pc fl.imm32) → Unmarked u [.x 1] → storeReady u = .ok () →
      Completes (.call fl) s f r t
        (pushed.updStrand f.sid fun q => (q.setX 1 (sp - 16)).goto (branchTarget u.pc fl.imm32))) ∧
    (Finds (.calli fl) .normal s f r t o u → checkStack o f.sid u (sp - 16) 16 = .ok () → sp.extractLsb' 0 4 = 0 →
      GoodTarget (u.xa fl.a) → Unmarked u [.x 1, fl.a] → storeReady u = .ok () →
      Completes (.calli fl) s f r t (pushed.updStrand f.sid fun q => (q.setX 1 (sp - 16)).goto (u.xa fl.a))) ∧
    (Finds (.ret fl) .ahead s f r t o u → checkStack o f.sid u sp 16 = .ok () → sp.extractLsb' 0 4 = 0 →
      loadFree u [recordPart f.sid sp] = .ok () → GoodTarget back → Unmarked u [.x 1] → read.1.bad = false →
      Completes (.ret fl) s f r t (read.2.updStrand f.sid fun q =>
        { ((q.setX 1 (sp + 16)).goto back) with loops := cutLoops q.loops (field read.1.bytes 8 8 % 8) }))

/-- IPREF, IPIN and IUNPIN act on the lines of their range, in ascending order, and IPIN counts those it could not pin
(03 R98, R99); FENCEI drops every word fetched so far (03 R100). Readings of the model: log 98, 99. -/
def Obligations.FetchControlCompletes : Prop :=
  ∀ (fl : FormS) (s o : State) (f : Focus) (r : Raw) (t u : Strand),
    let lines := rangeLines (u.xa fl.a).toNat (bits (u.xa fl.b) 0 32)
    let a := agentOf o f.sid u
    let pinned := lines.foldl (fun acc va =>
      let p := pinLine a fl.aux acc.2 va
      (acc.1 + (if p.1 then 0 else 1), p.2)) (0, o)
    (Finds (.ipref fl) .ahead s f r t o u → Unmarked u [fl.a, fl.b] →
      Completes (.ipref fl) s f r t (lines.foldl (prefLine a fl.aux) o)) ∧
    (Finds (.ipin fl) .normal s f r t o u → Unmarked u [fl.a, fl.b] →
      Completes (.ipin fl) s f r t (pinned.2.updStrand f.sid fun q => q.putD fl.d (BitVec.ofNat 64 pinned.1))) ∧
    (Finds (.iunpin fl) .normal s f r t o u → Unmarked u [fl.a, fl.b] →
      Completes (.iunpin fl) s f r t (lines.foldl (unpinLine (unitOf f.sid) fl.aux) o)) ∧
    (Finds (.fencei fl) .drain s f r t o u →
      Completes (.fencei fl) s f r t (o.dropFetched (unitOf f.sid) (o.pasidOf f.sid)))

/-! ### Class 1: traps and returns -/

/-- TRAP completes by taking cause TRAPI with IMM32 in XVAL (03 R102), and a word whose opcode no row has by taking cause
ILL, subcode OPC (02 R61), in every state in which the strand's older instructions have completed (01 R30). With a
handler set and no trap being handled this is what `TookTrap` says (01 R35); memory and everything outside the strand are
as before, but for the semaphores the strand waits at. Readings of the model: log 23. -/
def Obligations.TrapCompletes : Prop :=
  ∀ (s : State) (f : Focus) (t : Strand),
    (∀ (fl : FormS) (o : State) (r : Raw) (u : Strand), Finds (.trap fl) .ahead s f r t o u → Alone (opened s f r t) f →
      exec (.trap fl) s = .next (takeTrap s f.sid (uncount (opened s f r t) t.seq) t.pc 0x0C 0 (fl.imm32.setWidth 56)) ∧
      (t.inh = false → t.xvec ≠ 0 →
        ∃ s' t', exec (.trap fl) s = .next s' ∧ s'.strand? f.sid = some t' ∧ s'.mem = s.mem ∧ s'.tiles = s.tiles ∧
          TookTrap t t' t.pc 0x0C 0 (fl.imm32.setWidth 56) ∧ ∀ j, j ≠ f.sid → s'.strand? j = s.strand? j)) ∧
    (∀ w : IWord, s.focus = some f → s.strand? f.sid = some t → Alone (settle s.cycle t) f →
      exec (.unallocatedOpcode w) s = .next (takeTrap s f.sid (uncount (settle s.cycle t) t.seq) t.pc 0x01 1 0) ∧
      (t.inh = false → t.xvec ≠ 0 →
        ∃ s' t', exec (.unallocatedOpcode w) s = .next s' ∧ s'.strand? f.sid = some t' ∧ s'.mem = s.mem ∧
          s'.tiles = s.tiles ∧ TookTrap t t' t.pc 0x01 1 0 ∧ ∀ j, j ≠ f.sid → s'.strand? j = s.strand? j))

/-- A trap on a tile while one is being handled, or without a handler, is a double trap (01 R10, R36; 16 R420): the
strand is gone, its task is to end as FAILED with the cause in its code, unless it was to end already.
Readings of the model: log 23. -/
def Obligations.DoubleTrap : Prop :=
  ∀ (s : State) (sid : Nat) (t : Strand) (k : Task) (pc : Word) (c sub : BitVec 8) (v : BitVec 56),
    t.inh = true ∨ t.xvec = 0 → isHead sid = false → s.task? (tileOf sid) = some k → k.failedBy = none →
    (takeTrap s sid t pc c sub v).strand? sid = none ∧
    ((takeTrap s sid t pc c sub v).task? (tileOf sid)).map (·.failedBy) = some (some (0x100 + c.toNat))

/-- XRET at supervisor level (01 R38): level and hold bit return, the queues run again, the reuse entries are gone, and
control is at XPC; with no report held it changes nothing else. At user level it is cause PRIV, subcode INSN.
Readings of the model: log 21. -/
def Obligations.XretCompletes : Prop :=
  ∀ (fl : FormS) (s o : State) (f : Focus) (r : Raw) (t u : Strand),
    (Finds (.xret fl) .drain s f r t o u → t.pl = true → GoodTarget u.xpc → u.guardRep = none →
      Completes (.xret fl) s f r t (o.setStrand f.sid (u.leave.goto u.xpc)) ∧
      u.leave.pl = u.ppl ∧ u.leave.inh = u.pinh ∧ u.leave.qf = false ∧ u.leave.pc = u.xpc ∧
      u.leave.reuseA = Vector.replicate 3 none ∧ u.leave.reuseE = Vector.replicate 3 none ∧ u.leave.x = u.x) ∧
    (s.focus = some f → s.strand? f.sid = some t → rawOf (.xret fl) = some r → illFormed s.core (.xret fl) = none →
      timingOk (settle s.cycle t) s.cycle (sliceOf r) r = true → t.pl = false → t.inh = false → t.xvec ≠ 0 →
      Alone (settle s.cycle t) f →
      ∃ s' t', exec (.xret fl) s = .next s' ∧ s'.strand? f.sid = some t' ∧ TookTrap t t' t.pc 0x0D 2 0)

/-- END with empty queues and no report ends the strand (03 R101). With an entry in a queue it is cause QUEUE, subcode
ENDQ, and the strand goes on in its handler (01 R20). -/
def Obligations.EndCompletes : Prop :=
  ∀ (fl : FormS) (s o : State) (f : Focus) (r : Raw) (t u : Strand), Finds (.end_ fl) .drain s f r t o u →
    t.divRep = none → t.guardRep = none → t.engRep = none →
    (t.queuesEmpty = true → Completes (.end_ fl) s f r t (o.endStrand f.sid)) ∧
    (t.queuesEmpty = false → t.inh = false → t.xvec ≠ 0 → Alone (opened s f r t) f →
      ∃ s' t', exec (.end_ fl) s = .next s' ∧ s'.strand? f.sid = some t' ∧ TookTrap t t' t.pc 0x0B 3 0)

/-! ### Class 1: special registers, waiting, work control -/

/-- KRD of a register that its level may read writes what the register holds to D, and reading HCTL clears HFIX and nothing
else; no other read changes anything (01 R29, R42, R43, R45; 05 R150, R169; 19 R453 to R456). At user level, of a register that
only supervisor level reads, it is cause PRIV, subcode SREG, with the index in XVAL. Readings of the model: log 8, 12. -/
def Obligations.KrdCompletes : Prop :=
  ∀ (fl : FormS) (s o : State) (f : Focus) (r : Raw) (t u : Strand),
    let i := sregOf fl
    (Finds (.krd fl) .normal s f r t o u → t.pl = true ∨ userReads i = true →
      Completes (.krd fl) s f r t
        ((readSreg o f.sid u i).2.updStrand f.sid fun q => q.putD fl.d (readSreg o f.sid u i).1)) ∧
    (s.focus = some f → s.strand? f.sid = some t → rawOf (.krd fl) = some r → illFormed s.core (.krd fl) = none →
      timingOk (settle s.cycle t) s.cycle (sliceOf r) r = true → t.pl = false → userReads i = false → t.inh = false →
      t.xvec ≠ 0 → Alone (settle s.cycle t) f →
      ∃ s' t', exec (.krd fl) s = .next s' ∧ s'.strand? f.sid = some t' ∧
        TookTrap t t' t.pc 0x0D 1 (BitVec.ofNat 56 i)) ∧
    (readSreg o f.sid u 0x000).1 = u.xpc ∧ (readSreg o f.sid u 0x001).1 = u.xcause ∧
    (readSreg o f.sid u 0x002).1 = u.xval ∧ (readSreg o f.sid u 0x003).1 = u.xvec ∧
    (readSreg o f.sid u 0x004).1 = u.xstat ∧ (∀ k : Fin 4, (readSreg o f.sid u (0x008 + k.val)).1 = u.xscr[k]) ∧
    (readSreg o f.sid u 0x010).1 = u.sbase ∧ (readSreg o f.sid u 0x011).1 = u.slimit ∧
    (readSreg o f.sid u 0x030).1 = BitVec.ofNat 64 o.cycle ∧ (∀ k : Fin 8, (readSreg o f.sid u (0x038 + k.val)).1 = u.perf[k]) ∧
    (readSreg o f.sid u 0x050).1 = u.cePidx ∧ (readSreg o f.sid u 0x051).1 = u.mePidx ∧
    (readSreg o f.sid u 0x012).1 = u.hctl ∧ (readSreg o f.sid u 0x012).2 = o.setStrand f.sid (clearFix u) ∧
    (∀ b < 64, (clearFix u).hctl.getLsbD b = (u.hctl.getLsbD b && !(decide (16 ≤ b) && decide (b < 32)))) ∧
    clearFix u = { u with hctl := (clearFix u).hctl, young := (clearFix u).young } ∧
    (isHead f.sid = true → ∀ j ∈ [0x021, 0x022, 0x024, 0x025, 0x040], (readSreg o f.sid u j).2 = { o with free := o.free + 1 }) ∧
    (readSreg o f.sid u 0x020).1 = BitVec.ofNat 64 (numberOf f.sid) ∧
    (readSreg o f.sid u 0x023).1 = BitVec.ofNat 64 o.out.devNum ∧
    (∀ k, isHead f.sid = false → o.task? (tileOf f.sid) = some k → (∀ j, j ≠ 0x012 → (readSreg o f.sid u j).2 = o) ∧
      (readSreg o f.sid u 0x021).1 = BitVec.ofNat 64 (tileOf f.sid % 8) ∧
      (readSreg o f.sid u 0x022).1 = BitVec.ofNat 64 (clusterOf f.sid) ∧ (readSreg o f.sid u 0x024).1 = k.id ∧
      (readSreg o f.sid u 0x025).1 = BitVec.ofNat 64 k.launch ∧ (readSreg o f.sid u 0x040).1 = k.part.setWidth 64) ∧
    (∀ k : Fin 4, (readSreg o f.sid u (0x044 + k.val)).1 = if u.loops[k].active then u.loops[k].count.setWidth 64 else 0) ∧
    (readSreg o f.sid u 0x048).1 = BitVec.ofNat 64 u.bobbin.length ∧
    (readSreg o f.sid u 0xF00).1 = o.thr.setWidth 64 ∧ (readSreg o f.sid u 0xF01).1 = o.head.talert.setWidth 64 ∧
    (readSreg o f.sid u 0xF02).1 = o.head.intpend.setWidth 64 ∧ (readSreg o f.sid u 0xF03).1 = o.head.intmask.setWidth 64 ∧
    (∀ k : Fin 32, (readSreg o f.sid u (0xF20 + k.val)).1 = o.head.tsen[k].setWidth 64)

/-- KWR of a register its level may write, from a register without a mark, sets it: registers of the strand on the
strand (01 R39, R42 to R45), THR, TALERT, INTPEND and INTMASK on the headstock (05 R169; 19 R453 to R456). The low four
bits of SBASE, SLIMIT and XVEC are ignored (01 R43), and of XSTAT only PPL, INH and PINH are written (01 R39).
Readings of the model: log 22. -/
def Obligations.KwrCompletes : Prop :=
  ∀ (fl : FormS) (s o : State) (f : Focus) (r : Raw) (t u : Strand),
    let i := sregOf fl
    let w := u.xa fl.a
    (t.pl = true ∧ supervisorWrites i = true ∨ i = 0x012) → Unmarked u [fl.a] →
    (Finds (.kwr fl) .drain s f r t o u → Completes (.kwr fl) s f r t (o.writeSreg f.sid i w)) ∧
    (Finds (.talertWrite fl) .drain s f r t o u → i = 0xF01 → Completes (.talertWrite fl) s f r t (o.writeTalert w)) ∧
    (Finds (.intpendClear fl) .drain s f r t o u → i = 0xF02 → Completes (.intpendClear fl) s f r t (o.clearInt w)) ∧
    (Finds (.thrWrite fl) .drain s f r t o u → i = 0xF00 → Completes (.thrWrite fl) s f r t (o.writeThr w)) ∧
    (u.writeSreg 0x000 w).xpc = w ∧ (u.writeSreg 0x003 w).xvec = w &&& ~~~15 ∧ (u.writeSreg 0x010 w).sbase = w &&& ~~~15 ∧
    (u.writeSreg 0x011 w).slimit = w &&& ~~~15 ∧
    (∀ b < 64, (u.writeSreg 0x004 w).xstat.getLsbD b = if b = 3 ∨ b = 4 ∨ b = 5 then w.getLsbD b else u.xstat.getLsbD b)

/-- INTPEND is write-one-to-clear (19 R456), a write of THR sets LEVEL (05 R169), and a write of TALERT sets HI, LO and
LINE, and raises INTPEND bit 0 at once when either comparison then holds (19 R455). -/
def Obligations.HeadstockRegisters : Prop :=
  ∀ (s : State) (w : Word),
    (∀ b < 32, (s.clearInt w).head.intpend.getLsbD b = (s.head.intpend.getLsbD b && !(decide (b < 5) && w.getLsbD b))) ∧
    (s.writeThr w).head.level = w.setWidth 3 ∧ (s.writeThr w).head.intpend = s.head.intpend ∧
    (s.writeTalert w).head.talertHi = w.extractLsb' 24 8 ∧ (s.writeTalert w).head.talertLo = w.extractLsb' 16 8 ∧
    (s.writeTalert w).head.talertLine = w.getLsbD 7 ∧
    (let h := (s.writeTalert w).head
     (s.writeTalert w).head.intpend = if h.above || h.below then s.head.intpend ||| 1 else s.head.intpend)

/-- The check of a SLEEP passes its checks and reads its word (03 R104, R105): `g` is what it read. -/
def SleepReads (fl : FormS) (o : State) (f : Focus) (u : Strand) (g : Got × State) : Prop :=
  let ea := u.xa fl.a
  checkBase o f.sid u fl.a ea 8 = .ok () ∧ ea.extractLsb' 0 3 = 0 ∧ Unmarked u [fl.a, fl.b, fl.c] ∧
  ∃ ps o2, accessParts o { agentOf o f.sid u with l1 := false } .load ea 8 = .ok (ps, o2) ∧ noPort ps = .ok () ∧ loadFree u ps = .ok () ∧
    g = fetchParts (o2.freshen (unitOf f.sid) .dev ps) (unitOf f.sid) f.sid .default ps ∧ g.1.bad = false

/-- SLEEP completes with 0, as an acquire, at a check that finds its word different from b: at once, or at a recheck; it
completes with 1, as an acquire too, when the word is unchanged at its timeout (03 R104; 08 R256). WAKE is a release at its scope, and every strand
in its reach that sleeps on the line will check its word again (03 R106). Readings of the model: log 28. -/
def Obligations.SleepAndWakeComplete : Prop :=
  (∀ (fl : FormS) (sid : Nat) (w : Wait) (s o : State) (f : Focus) (r : Raw) (t u : Strand) (g : Got × State),
      let differs := (BitVec.ofNat 64 (leNat g.1.bytes) : Word) ≠ u.xa fl.b
      let awake := (g.2.acquireL1 (unitOf f.sid) .dev).updStrand f.sid fun q => { (q.putD fl.d 0) with recheck := false }
      let late := (g.2.acquireL1 (unitOf f.sid) .dev).updStrand f.sid fun q => { (q.putD fl.d 1) with recheck := false }
      (Finds (.sleep fl) .normal s f r t o u → SleepReads fl o f u g → differs → Completes (.sleep fl) s f r t awake) ∧
      (sleeping s sid = some (fl, w) → Finds (.sleep fl) .normal (s.at sid) f r t o u → SleepReads fl o f u g → differs →
        exec (.sleepRecheck sid) s = .next (finished (s.at sid) f r (opened (s.at sid) f r t) awake)) ∧
      (sleeping s sid = some (fl, w) → w.ended s.cycle = true → Finds (.sleep fl) .normal (s.at sid) f r t o u →
        SleepReads fl o f u g → ¬ differs →
        exec (.sleepTimeout sid) s = .next (finished (s.at sid) f r (opened (s.at sid) f r t) late))) ∧
  (∀ (fl : FormS) (s o : State) (f : Focus) (r : Raw) (t u : Strand), Finds (.wake fl) .normal s f r t o u →
      Unmarked u [fl.a] → acquiring u = false → releaseReady o (unitOf f.sid) u (wakeScope fl.aux) = .ok () →
      let o2 := o.releaseL1 (unitOf f.sid) (wakeScope fl.aux)
      let line := (u.xa fl.a).toNat / 128
      Completes (.wake fl) s f r t { o2 with strands := o2.strands.map (wokenBy f.sid fl.aux line) } ∧
      ∀ q, (wokenBy f.sid fl.aux line q).1 = q.1 ∧
        (wokenBy f.sid fl.aux line q).2 = { q.2 with recheck := (wokenBy f.sid fl.aux line q).2.recheck } ∧
        ∀ a, sleepAddr q.2 = some a → wakeReach f.sid q.1 fl.aux = true → a.toNat / 128 = line →
          (wokenBy f.sid fl.aux line q).2.recheck = true)

/-- BARRIER of a barrier given to the strand's gang: with no report held, the last strand to arrive goes on at once; a
strand that has arrived goes on when the phase is complete, and its arrival is no longer held (03 R107; 05 R157, R158). It is a release and an acquire at
.clus. -/
def Obligations.BarrierCompletes : Prop :=
  ∀ (fl : FormS) (s o : State) (f : Focus) (r : Raw) (t u : Strand), Finds (.barrier fl) .drain s f r t o u →
    barrierLevel fl s (settle s.cycle t) = none →
    let n := barrierNo fl
    let o2 := strandArrives (o.releaseL1 (unitOf f.sid) .clus) f.sid n
    (FMap.get? u.barPend n = none → heldReport u = .ok () → strandPhase o f.sid n < strandPhase o2 f.sid n →
      Completes (.barrier fl) s f r t
        ((o2.acquireL1 (unitOf f.sid) .clus).updStrand f.sid fun q => { q with barPend := FMap.erase q.barPend n })) ∧
    (∀ ph, FMap.get? u.barPend n = some ph → ph < strandPhase o f.sid n →
      Completes (.barrier fl) s f r t
        ((o.acquireL1 (unitOf f.sid) .clus).updStrand f.sid fun q => { q with barPend := FMap.erase q.barPend n }))

/-- SPAWN starts the strand of the task with the lowest number that does not run, at the address a with x2 = b, and
writes its number to D; with none free it writes all ones (03 R108; 01 R9). CANCEL that its level allows hands the
object it names to the loom and writes the loom's answer to D, or ends the strand when the object contains it (03
R109; 05 R170, R171). Readings of the model: log 84, 85. -/
def Obligations.SpawnAndCancelComplete : Prop :=
  (∀ (fl : FormS) (s o : State) (f : Focus) (r : Raw) (t u : Strand), Finds (.spawn fl) .drain s f r t o u →
      GoodTarget (u.xa fl.a) → Unmarked u [fl.a, fl.b] →
      (∀ k n, isHead f.sid = false → o.task? (tileOf f.sid) = some k →
        freeStrand o (8 * tileOf f.sid) (k.part.extractLsb' 28 4).toNat = some n →
        Completes (.spawn fl) s f r t ((o.startStrand (tileOf f.sid) k n (u.xa fl.a) (u.xa fl.b)).updStrand f.sid fun q =>
          q.putD fl.d (BitVec.ofNat 64 n))) ∧
      (∀ k, isHead f.sid = false → o.task? (tileOf f.sid) = some k →
        freeStrand o (8 * tileOf f.sid) (k.part.extractLsb' 28 4).toNat = none →
        Completes (.spawn fl) s f r t (o.updStrand f.sid fun q => q.putD fl.d noStrandFree)) ∧
      (∀ n, isHead f.sid = true → freeStrand o 1536 4 = some n →
        Completes (.spawn fl) s f r t ((o.startHead n (u.xa fl.a) (u.xa fl.b) u.xvec).updStrand f.sid fun q =>
          q.putD fl.d (BitVec.ofNat 64 n))) ∧
      (isHead f.sid = true → freeStrand o 1536 4 = none →
        Completes (.spawn fl) s f r t (o.updStrand f.sid fun q => q.putD fl.d noStrandFree))) ∧
  (∀ (fl : FormS) (s o : State) (f : Focus) (r : Raw) (t u : Strand), Finds (.cancel fl) .drain s f r t o u →
      cancelLevel fl s (settle s.cycle t) = none → Unmarked u [fl.a] →
      let g := cancelTarget o f.sid fl.aux.toNat (u.xa fl.a)
      let within := match g with
        | some x => !isHead f.sid && (o.targetTiles x).contains (tileOf f.sid)
        | none => false
      (within = true → Completes (.cancel fl) s f r t ((o.cancel g).2.endStrand f.sid)) ∧
      (within = false → Completes (.cancel fl) s f r t
        ((o.cancel g).2.updStrand f.sid fun q => q.putD fl.d (BitVec.ofNat 64 (o.cancel g).1))))

/-! ### Class 2: loads and stores -/

/-- A scalar access of `w` bytes at `ea` passes the checks of 09 R274 and is no access of the allocator port: it lies in
the parts `ps`, and `o2` is the state after its translation. -/
def Reaches (fl : FormM) (acc : Acc) (o : State) (u : Strand) (ea : Word) (w : Nat) (ps : List Part) (o2 : State) : Prop :=
  scalarParts o u fl acc ea w = .ok (ps, o2) ∧ portOf ps = none ∧ noPort ps = .ok ()

/-- A vector access of `n` bytes at `ea` passes the checks of 09 R274, R275; a load reads as `readerOf` says. -/
def VecReaches (fl : FormM) (acc : Acc) (o : State) (f : Focus) (u : Strand) (ea : Word) (n : Nat) (ps : List Part)
    (o2 : State) : Prop :=
  n ≠ 0 ∧ checkBase o f.sid u fl.a ea n = .ok () ∧ vecAligned fl ea = .ok () ∧
  accessParts o (if acc = .store then agentOf o f.sid u else readerOf o u fl) acc ea n (acc == .store) = .ok (ps, o2) ∧
  noPort ps = .ok ()

/-- LD reads the type's bytes at its address into a register, LDQ into a new entry of LQ, VLDQ up to 512 bytes into a
new entry of LQ; a length of 0 makes an entry of zeros at once (01 R15, R16; 09 R276 to R278). Readings of the model:
log 16, 26, 102. -/
def Obligations.LoadsComplete : Prop :=
  ∀ (fl : FormM) (s o o2 : State) (f : Focus) (r : Raw) (t u : Strand) (ps : List Part),
    let ea := effAddr u fl (sizeLog fl.ty)
    let va := effAddr u fl 9
    let g := loadRead fl o2 f ps
    let scalar := (loadValue fl.ty g.1.bytes).setWidth 4096
    let queued (size : Nat) (data : Option VReg) (s2 : State) : State :=
      s2.updStrand f.sid fun q => { q with lq := q.lq ++ [{ seq := q.seq, req := s2.own, size, data, mark := none }] }
    (Finds (.ld fl) .ahead s f r t o u → Reaches fl .load o u ea (Ty.bytes fl.ty) ps o2 → Unmarked u [fl.a, fl.b] →
      LoadFree u ps →
      Completes (.ld fl) s f r t (loadStarts g.2 f (inFlight fl o2 u ea g.1 (.reg fl.d) scalar))) ∧
    (Finds (.ldq fl) .ahead s f r t o u → Reaches fl .load o u ea (Ty.bytes fl.ty) ps o2 → Unmarked u [fl.a, fl.b] →
      LoadFree u ps → u.qf = false → u.lq.length < 32 →
      Completes (.ldq fl) s f r t (queued 8 none (loadStarts g.2 f (inFlight fl o2 u ea g.1 .lq scalar)))) ∧
    (Finds (.vldq fl) .ahead s f r t o u → VecReaches fl .load o f u va (vecLen u fl) ps o2 → noAperture ps = .ok () →
      Unmarked u [fl.a, fl.b, fl.c] → LoadFree u ps → u.qf = false → u.lq.length < 32 →
      Completes (.vldq fl) s f r t
        (queued 512 none (loadStarts g.2 f (inFlight fl o2 u va g.1 .lq (vecValue g.1.bytes))))) ∧
    (Finds (.vldq fl) .ahead s f r t o u → vecLen u fl = 0 → Unmarked u [fl.a, fl.b, fl.c] → u.qf = false →
      u.lq.length < 32 → Completes (.vldq fl) s f r t (queued 512 (some 0) o))

/-- When the data of a load arrives, its register or LQ entry holds it with its mark, and the load is no longer in
flight (09 R276, R277); the write of another variable-latency result frees its registers and changes no value (01 R23).
Readings of the model: log 26. -/
def Obligations.ResultsArrive : Prop :=
  ∀ (s : State) (sid req : Nat) (t : Strand), s.strand? sid = some t →
    (∀ l, t.loads.find? (·.req == req) = some l →
      ∃ s' t', exec (.loadDataReturn sid req) s = .next s' ∧ s'.strand? sid = some t' ∧
        (∀ m ∈ t'.loads, m ∈ t.loads ∧ m.req ≠ l.req) ∧
        (∀ n, l.dst = .reg (.x n) → n ≠ 0 → n ≠ 32 → t'.getX n = l.data.setWidth 64 ∧ t'.mark? n = l.mark) ∧
        (l.dst = .lq → t'.x = t.x ∧ t'.lq = t.lq.map fun e =>
          if e.req = l.req then { e with data := some l.data, mark := l.mark } else e) ∧
        (∀ n, l.dst ≠ .reg (.x n) → t'.getX n = t.getX n) ∧ t'.v = t.v ∧ t'.p = t.p ∧ SameSpecial t t') ∧
    ((t.loads.any (·.req == req) || t.atoms.any (·.req == req)) = false →
      ∃ t', exec (.resultWrite sid req) s = .next (s.setStrand sid t') ∧ t'.bare = t.bare ∧
        ∀ p ∈ t'.pend, p ∈ t.pend ∧ ¬ (p.req = req ∧ p.ready = none))

/-- ST writes the low bytes of its data register to its address, poisoned when the register is marked (09 R279), after
the L1 steps of a release (08 R255, R259); in the headstock's register window it writes the device register (20 R463).
STA and VSTA append an address to SAQ, STD and VSTD a datum to SDQ, the whole one with any lane active, annulled when the
predicate is false, for VSTD in every lane (01 R15, R18; 09 R280, R281); what is appended is in the operand log (17 R435).
While the execute slice has an older word to issue, what stood where ST writes is noted, for a trap of that word (01 R31).
No shadow tile has found a mismatch (17 R444). Readings of the model: log 9, 16, 29, 81, 86. -/
def Obligations.StoresComplete : Prop :=
  ∀ (fl : FormM) (s o o2 o3 : State) (f : Focus) (r : Raw) (t u : Strand) (ps : List Part),
    let ea := effAddr u fl (sizeLog fl.ty)
    let va := effAddr u fl 9
    let w := Ty.bytes fl.ty
    let value := u.xa fl.c
    let addressed (ea : Word) (size : Nat) (s2 : State) : State := s2.updStrand f.sid fun q => Strand.logged { q with
      saq := q.saq ++ [{ seq := u.seq, addr := ea, size, parts := ps, ch := fl.ch, ord := fl.ord, scope := fl.scope, pl := u.pl }] }
      .saq (ea.setWidth 4096)
    let datum (q : Strand) (e : SdqEnt) : State := o.setStrand f.sid (Strand.logged { q with sdq := q.sdq ++ [e] } .sdq e.data)
    let kept := o3.noteStore f.sid u u.seq fl.ch ps
    (Finds (.st fl) .normal s f r t o u → Reaches fl .store o u ea w ps o2 → Unmarked u [fl.a, fl.b] →
      storeReady u = .ok () → u.checker ≠ some 2 → relReady o2 u fl.ord fl.scope = .ok o3 →
      (ps.any (·.space == .device) = false → Completes (.st fl) s f r t
        (publish (storeParts kept (unitOf f.sid) f.sid fl.ch ps (leBytes w value.toNat) (u.markOf fl.c).isSome) fl.ord fl.scope)) ∧
      (ps.any (·.space == .device) = true → Completes (.st fl) s f r t (storeDevice o3 ps value))) ∧
    (Finds (.sta fl) .ahead s f r t o u → Reaches fl .store o u ea w ps o2 → Unmarked u [fl.a, fl.b] → u.qf = false →
      saqFull u = false → Completes (.sta fl) s f r t (addressed ea w o2)) ∧
    (Finds (.vsta fl) .ahead s f r t o u → vecLen u fl = 0 → ps = [] → Unmarked u [fl.a, fl.b, fl.c] → u.qf = false →
      saqFull u = false → Completes (.vsta fl) s f r t (addressed va 0 o)) ∧
    (Finds (.vsta fl) .ahead s f r t o u → VecReaches fl .store o f u va (vecLen u fl) ps o2 →
      checkAperture o2 (o.pasidOf f.sid) (!u.pl) ps = .ok o3 →
      Unmarked u [fl.a, fl.b, fl.c] → u.qf = false → saqFull u = false →
      Completes (.vsta fl) s f r t (addressed va (vecLen u fl) o3)) ∧
    (∀ c, Finds (.std fl) .normal s f r t o u → readScalar u fl.c = .ok c → u.qf = false → sdqFull u = false →
      Completes (.std fl) s f r t (datum c.rest
        (if gateOn u fl.gate then { seq := o.number u, size := 8, data := BitVec.ofNat 4096 (c.val.toNat % 2 ^ Ty.width fl.ty),
                                    mark := c.mark, annul := false }
         else { seq := o.number u, size := 8, data := 0, mark := none, annul := true }))) ∧
    (∀ c, Finds (.vstd fl) .normal s f r t o u → readVector u fl.c = .ok c → u.qf = false → sdqFull u = false →
      (anyLane u fl.gate = true → c.mark = none → Completes (.vstd fl) s f r t
        (datum c.rest { seq := o.number u, size := 512, data := c.val, mark := none, annul := false })) ∧
      (anyLane u fl.gate = false → Completes (.vstd fl) s f r t
        (datum c.rest { seq := o.number u, size := 512, data := 0, mark := none, annul := true })))

/-- The pairing logic takes the oldest entries of SAQ and SDQ together: an annulled pair writes nothing; any other
writes the leading bytes of its data at its address (01 R17, R18; 09 R280, R281), and while the execute slice has an older
word to issue, what stood there is noted. A pair at which the shadow tile has found a mismatch is gone and is not written:
the turn is to roll back, or a report is held (17 R444, R445). No other strand's queues change. Readings of the model: log
9, 103. -/
def Obligations.StorePairs : Prop :=
  ∀ (s : State) (sid : Nat) (t : Strand) (a : SaqEnt) (saq : List SaqEnt) (d : SdqEnt) (sdq : List SdqEnt),
    s.strand? sid = some t → t.saq = a :: saq → t.sdq = d :: sdq → pairReady s sid t a d = true →
    t.badRegs = [] →
    let popped := s.updStrand sid fun q => { q with saq, sdq }
    let y := Nat.max a.seq d.seq
    (d.annul = true → exec (.storePair sid) s = .next (popped.noteStore sid t y a.ch [] (some a) (some d))) ∧
    (d.annul = false → a.size ≠ 0 → a.ord ≠ .rel → t.checker ≠ some 2 → a.parts.any (·.space == .device) = false →
      a.parts.any (ownAperture s) = false →
      exec (.storePair sid) s =
        .next (storeParts (popped.noteStore sid t y a.ch a.parts (some a) (some d)) (unitOf sid) sid a.ch a.parts
          (leBytes a.size d.data.toNat) d.mark.isSome)) ∧
    (d.annul = false → a.size ≠ 0 → t.checker = some 2 →
      ∃ s' t', exec (.storePair sid) s = .next s' ∧ s'.strand? sid = some t' ∧ t'.saq = saq ∧ t'.sdq = sdq ∧
        s'.tiles = s.tiles ∧ t'.checker = none ∧
        (eligible s sid t = true → s'.mem = s.mem ∧ t'.rollback = some (0x0F, 2, BitVec.ofNat 56 (tileOf sid))) ∧
        (eligible s sid t = false → t.divRep = none →
          t'.divRep = some { val := BitVec.ofNat 64 (2 * 2 ^ 56 + tileOf sid) })) ∧
    (t.ewin = [] → popped.noteStore sid t y a.ch a.parts (some a) (some d) = popped)

/-- Where a store of a run of bytes in one place lands. In a cluster window, a scratchpad without guard granules there,
general memory that is not cached, or with .na in general memory, it writes exactly its bytes, and every other byte of
memory reads as before; held in the L1, it leaves every byte of memory as it was, but for the written bytes of a line
that leaves the L1 (07 R222 to R224). CALL and CALLI store to the 16 bytes below SP and nowhere else.
Readings of the model: log 3, 16. -/
def Obligations.StoreFrame : Prop :=
  ∀ (s : State) (tile sid : Nat) (ch : CacheHint) (p : Part) (bs : List Byte) (bad : Bool),
    Memory.wf s.mem = true → bs.length = p.len →
    let s' := storeParts s tile sid ch [p] bs bad
    ((p.cacheable = false ∨ tile = 192) → (p.space = .spad → s.firstGuard tile p = none) →
      (∀ l, l < p.loc ∨ p.loc + p.len ≤ l → Memory.read s'.mem l = Memory.read s.mem l) ∧
      (∀ k < p.len, Memory.read s'.mem (p.loc + k) = bs.getD k 0)) ∧
    (p.cacheable = true → ch = .na → ∀ l, l < p.loc ∨ p.loc + p.len ≤ l → Memory.read s'.mem l = Memory.read s.mem l) ∧
    (p.cacheable = true → p.space = .general → ch ≠ .na → p.loc % 128 + p.len ≤ 128 → 0 < p.len → tile ≠ 192 →
      ∀ l, Memory.read s'.mem l = Memory.read s.mem l ∨
        l / 128 ≠ p.loc / 128 ∧ ∃ line, s.line? tile (l / 128) = some line ∧ line.written.getLsbD (l % 128) = true ∧
          Memory.read s'.mem l = lineByte line.data (l % 128)) ∧
    (∀ sp : Word, p = recordPart sid (sp - 16) → tile = tileOf sid → bad = false →
      ∀ l, l < p.loc ∨ p.loc + 16 ≤ l → Memory.read s'.mem l = Memory.read s.mem l)

/-- The instructions that compute each active element of a vector from the operands' elements (06 R185 to R190, R199). -/
def elementRows : List ((FormV → Instr) × (FormV → Nat → Nat → Nat → Nat)) :=
  [(.vadd, vaddEl), (.vsub, vsubEl), (.vmul, vmulEl), (.vfma, vfmaEl), (.vfms, vfmsEl), (.vfnma, vfnmaEl), (.vdiv, vdivEl),
   (.vsqrt, vsqrtEl), (.vrcp, vrcpEl), (.vrsq, vrsqEl), (.vexp2, vexp2El), (.vlog2, vlog2El), (.vmin, vminEl),
   (.vmax, vmaxEl), (.vabs, vabsEl), (.vneg, vnegEl), (.vclamp, vclampEl), (.vand, fun _ a b _ => a &&& b),
   (.vor, fun _ a b _ => a ||| b), (.vxor, fun _ a b _ => a ^^^ b), (.vshl, vshlEl), (.vshr, vshrEl), (.vsar, vsarEl),
   (.vmov, fun _ _ b _ => b)]

/-- Every word that pushes or pops a slice queue while the queues are frozen is cause QUEUE, subcode FROZEN, and no queue
changes (01 R37): LDQ, VLDQ, STA and VSTA once their other checks pass, MOVQ, BQPOP, STD, VSTD, BQPUSH, and a class 0 or class
3 word whose operand a is lq or xq. The event of CROSSWAIT completes, when each slice waits on what only the other can
relieve, with the trap at the execute slice's word; everything A has done since is taken back (01 R19, R30, R31); and when A
alone waits and E has no word to issue, with the trap at A's word. Readings of the model: log 6, 88. -/
def Obligations.QueueTraps : Prop :=
  (∀ (fl : FormM) (s o o2 o3 : State) (f : Focus) (r : Raw) (t u : Strand) (ps : List Part), t.qf = true → t.inh = false →
      t.xvec ≠ 0 → Alone (opened s f r t) f →
      let ea := effAddr u fl (sizeLog fl.ty)
      let va := effAddr u fl 9
      let froze (i : Instr) : Prop :=
        ∃ s' t', exec i s = .next s' ∧ s'.strand? f.sid = some t' ∧ TookTrap t t' t.pc 0x0B 2 0
      (∀ i ∈ [Instr.movq fl, .bqpop fl], Finds i .ahead s f r t o u → froze i) ∧
      (∀ i ∈ [Instr.std fl, .vstd fl, .bqpush fl], Finds i .normal s f r t o u → froze i) ∧
      (Finds (.ldq fl) .ahead s f r t o u → Reaches fl .load o u ea (Ty.bytes fl.ty) ps o2 → Unmarked u [fl.a, fl.b] →
        froze (.ldq fl)) ∧
      (Finds (.sta fl) .ahead s f r t o u → Reaches fl .store o u ea (Ty.bytes fl.ty) ps o2 → Unmarked u [fl.a, fl.b] →
        froze (.sta fl)) ∧
      (Finds (.vldq fl) .ahead s f r t o u → VecReaches fl .load o f u va (vecLen u fl) ps o2 → noAperture ps = .ok () →
        Unmarked u [fl.a, fl.b, fl.c] → froze (.vldq fl)) ∧
      (Finds (.vsta fl) .ahead s f r t o u → VecReaches fl .store o f u va (vecLen u fl) ps o2 →
        checkAperture o2 (o.pasidOf f.sid) (!u.pl) ps = .ok o3 → Unmarked u [fl.a, fl.b, fl.c] → froze (.vsta fl)) ∧
      (∀ i ∈ [Instr.vldq fl, .vsta fl], Finds i .ahead s f r t o u → vecLen u fl = 0 → Unmarked u [fl.a, fl.b, fl.c] →
        froze i)) ∧
  (∀ (s o : State) (f : Focus) (r : Raw) (t u : Strand), t.qf = true → t.inh = false → t.xvec ≠ 0 →
      Alone (opened s f r t) f →
      let froze (i : Instr) : Prop :=
        ∃ s' t', exec i s = .next s' ∧ s'.strand? f.sid = some t' ∧ TookTrap t t' t.pc 0x0B 2 0
      (∀ q ∈ scalarRows, ∀ fl : FormS, fl.a = .lq ∨ fl.a = .xq → (∀ d, u.markOf d = none) →
        Finds (q.1 fl) .ahead s f r t o u → froze (q.1 fl)) ∧
      (∀ q ∈ elementRows, ∀ fl : FormV, fl.a = .lq ∨ fl.a = .xq → (∀ d, u.markOf d = none) →
        Finds (q.1 fl) .normal s f r t o u → froze (q.1 fl))) ∧
  (∀ (s : State) (sid : Nat) (t : Strand) (e : EwEnt) (q : List EwEnt), s.strand? sid = some t → t.ewin = e :: q →
      crossWait (settle s.cycle t) = true → drainedBefore (settle s.cycle t) e.seq = true →
      let u := undoFrom (settle s.cycle t) e
      let back := s.unstore sid (undone (settle s.cycle t) e.seq)
      exec (.crosswaitDetect sid) s = .next (takeTrap back sid u e.snap.pc 0x0B 1 0) ∧
      (t.early = [] → back = s) ∧
      (t.inh = false → t.xvec ≠ 0 →
        ∃ s' t', exec (.crosswaitDetect sid) s = .next s' ∧ s'.strand? sid = some t' ∧ TookTrap u t' e.snap.pc 0x0B 1 0 ∧
          (∀ n : Fin 64, n.val < 32 → t'.x[n] = e.snap.x[n]) ∧ t'.loops = e.snap.loops ∧ t'.ewin = [] ∧
          (∀ m ∈ t'.xq, m.seq < e.seq) ∧ (∀ m ∈ t'.saq, m.seq < e.seq) ∧ s'.mem = back.mem)) ∧
  (∀ (s : State) (sid : Nat) (t : Strand) (w : Wait), s.strand? sid = some t → t.ewin = [] → t.waitA = some w →
      crossWait (settle s.cycle t) = true → drainedBefore (settle s.cycle t) t.seq = true →
      exec (.crosswaitDetect sid) s = .next (takeTrap s sid (uncount (settle s.cycle t) t.seq) t.pc 0x0B 1 0) ∧
      (t.inh = false → t.xvec ≠ 0 →
        ∃ s' t', exec (.crosswaitDetect sid) s = .next s' ∧ s'.strand? sid = some t' ∧ TookTrap t t' t.pc 0x0B 1 0 ∧
          s'.mem = s.mem))

/-- MOVQ appends to XQ and BQPUSH to BQ, each with its register's mark, BQPUSH annulled when its predicate is false,
and what is pushed is in the operand log (17 R435); BQPOP takes the oldest entry of BQ into D (01 R15, R16, R18; 09 R282).
QMARK orders younger loads after the stores queued before it (09 R283; 08 R253). -/
def Obligations.TransfersComplete : Prop :=
  ∀ (fl : FormM) (s o : State) (f : Focus) (r : Raw) (t u : Strand),
    (Finds (.movq fl) .ahead s f r t o u → u.qf = false → u.xq.length < 16 →
      Completes (.movq fl) s f r t (o.setStrand f.sid (Strand.logged { u with xq := u.xq ++
        [{ seq := u.seq, data := u.xa fl.a, mark := u.markOf fl.a, annul := false }] } (.reg .xq) ((u.xa fl.a).setWidth 4096)))) ∧
    (∀ a, Finds (.bqpush fl) .normal s f r t o u → u.qf = false → u.bq.length < 8 → readScalar u fl.a = .ok a →
      let e : QEnt := if gateOn u fl.gate then { seq := o.number u, data := a.val, mark := a.mark, annul := false }
        else { seq := o.number u, data := 0, mark := none, annul := true }
      Completes (.bqpush fl) s f r t
        (o.setStrand f.sid (Strand.logged { a.rest with bq := a.rest.bq ++ [e] } .bq (e.data.setWidth 4096)))) ∧
    (∀ e q, Finds (.bqpop fl) .ahead s f r t o u → u.qf = false → u.bq = e :: q →
      Completes (.bqpop fl) s f r t (o.setStrand f.sid
        (({ u with bq := q, bqPopped := u.bqPopped ++ [(u.seq, e)] }).putD fl.d e.data e.mark))) ∧
    (Finds (.qmark fl) .ahead s f r t o u → Completes (.qmark fl) s f r t (o.setStrand f.sid { u with qmark := u.seq }))

/-- FENCE, once the strand's loads and atomics are complete and no acquire of its is pending, takes the L1 steps of
its ordering at its scope (08 R258, R259; 09 R284). CINV writes back and drops, CWB writes back, CPREF brings in each
line of the range that general memory or the fabric window holds and may be cached (09 R285). Readings of the model:
log 16, 102. -/
def Obligations.OrderingCompletes : Prop :=
  ∀ (fl : FormM) (s o o2 : State) (f : Focus) (r : Raw) (t u : Strand),
    let tile := unitOf f.sid
    let lines := rangeLines (u.xa fl.a + fl.imm32.signExtend 64).toNat (rangeLen u fl)
    (Finds (.fence fl) .normal s f r t o u → acquiring u = false → u.loads = [] → u.atoms = [] →
      relReady o u fl.ord fl.scope = .ok o2 →
      Completes (.fence fl) s f r t (if fl.ord = .acq ∨ fl.ord = .ar then o2.acquireL1 tile fl.scope else o2)) ∧
    (Finds (.cinv fl) .normal s f r t o u → Unmarked u [fl.a, fl.c] → acquiring u = false →
      releaseReady o tile u fl.scope = .ok () →
      Completes (.cinv fl) s f r t (lines.foldl (eachLine (agentOf o f.sid u) fun q p => q.flushLine (unitOf q.sid) (p.loc / 128)) o)) ∧
    (Finds (.cwb fl) .normal s f r t o u → Unmarked u [fl.a, fl.c] → acquiring u = false →
      releaseReady o tile u fl.scope = .ok () →
      Completes (.cwb fl) s f r t (lines.foldl (eachLine (agentOf o f.sid u) fun q p => q.writeBackLine (unitOf q.sid) (p.loc / 128)) o)) ∧
    (Finds (.cpref fl) .ahead s f r t o u → Unmarked u [fl.a, fl.c] →
      Completes (.cpref fl) s f r t (lines.foldl (eachLine (agentOf o f.sid u) fun q p =>
        if fl.ch = .na ∨ (q.line? tile (p.loc / 128)).isSome then q
        else q.fetchLine tile (p.loc / 128) p (fl.ch == .nt)) o))

/-! ### Class 2: atomics and the allocator port -/

/-- The atomics, with their opcodes (09 R286). -/
def atomicRows : List ((FormM → Instr) × BitVec 10) :=
  [(.aadd, 0x120), (.amax, 0x121), (.amin, 0x122), (.amaxz, 0x123), (.aminz, 0x124), (.aand, 0x125), (.aor, 0x126),
   (.axor, 0x127), (.axchg, 0x128), (.acas, 0x129), (.afadd, 0x12A), (.afmax, 0x12B)]

/-- An aligned atomic outside the port, in one place `p`, leaves for its home with its operands: no byte of memory has
changed, but for the L1 steps of a release and the tile's own copy of the line (08 R261, R262; 09 R286 to R289). No
shadow tile has found a mismatch (17 R444). Readings of the model: log 16, 27, 86. -/
def Obligations.AtomicsIssue : Prop :=
  ∀ q ∈ atomicRows, ∀ (fl : FormM) (s o o2 o3 : State) (f : Focus) (r : Raw) (t u : Strand) (p : Part),
    let w := Ty.bytes fl.ty
    let ea := atomAddr u fl
    let o4 := if p.cacheable && !isHead f.sid then o3.flushLine (tileOf f.sid) (p.loc / 128) else o3
    Finds (q.1 fl) .normal s f r t o u → checkBase o f.sid u fl.a ea w = .ok () → ea.toNat % w = 0 →
    accessParts o (agentOf o f.sid u) .atomic ea w = .ok ([p], o2) → noAperture [p] = .ok () → p.space ≠ .port →
    Unmarked u (if q.2 = 0x129 then [fl.a, fl.b, fl.c] else [fl.a, fl.b]) → acquiring u = false → olderStores u = false →
    u.checker ≠ some 2 → relReady o2 u fl.ord fl.scope = .ok o3 →
    Completes (q.1 fl) s f r t (o4.updStrand f.sid fun x => { x with atoms := x.atoms ++
      [{ req := o4.own, seq := u.seq, opc := q.2, ty := fl.ty, part := p,
         operand := BitVec.ofNat 64 ((u.xa fl.b).toNat % 2 ^ Ty.width fl.ty), swap := u.xa fl.c,
         d := if fl.nr then none else some fl.d, acq := if fl.ord = .acq ∨ fl.ord = .ar then some fl.scope else none,
         performed := false, result := 0, mark := none, since := o4.cycle }] })

/-- What an atomic leaves at its place, from the old value `v` and the operands merged into `c` (09 R286, R287; 08 R264 for AFADD and AFMAX): ACAS
writes its third operand only where `v` equals its second. -/
def Obligations.AtomicValues : Prop :=
  ∀ (ty : Ty) (v o : Nat) (a : AtomFlight), v < 2 ^ Ty.width ty → o < 2 ^ Ty.width ty →
    applyAtom 0x120 ty v o = (v + o) % 2 ^ Ty.width ty ∧
    Ty.toInt ty (applyAtom 0x121 ty v o) = max (Ty.toInt ty v) (Ty.toInt ty o) ∧
    Ty.toInt ty (applyAtom 0x122 ty v o) = min (Ty.toInt ty v) (Ty.toInt ty o) ∧
    applyAtom 0x123 ty v o = max v o ∧ applyAtom 0x124 ty v o = min v o ∧ applyAtom 0x125 ty v o = v &&& o ∧
    applyAtom 0x126 ty v o = v ||| o ∧ applyAtom 0x127 ty v o = v ^^^ o ∧ applyAtom 0x128 ty v o = o ∧
    (a.opc = 0x129 → newValue a v o = if v = a.operand.toNat then a.swap.toNat % 2 ^ Ty.width a.ty else v) ∧
    (a.opc ≠ 0x129 → newValue a v o = applyAtom a.opc a.ty v o) ∧
    (ty = .f32 →
      let x := f32Val (BitVec.ofNat 32 v)
      let y := f32Val (BitVec.ofNat 32 o)
      applyAtom 0x12A ty v o = (f32Of (x.add y .rne)).toNat ∧
      (x.isNan = true → y.isNan = true → applyAtom 0x12B ty v o = 0x7FC00000) ∧
      (x.isNan = true → y.isNan = false → applyAtom 0x12B ty v o = (f32Of y).toNat) ∧
      (x.isNan = false → y.isNan = true → applyAtom 0x12B ty v o = (f32Of x).toNat) ∧
      (x.isNan = false → y.isNan = false → applyAtom 0x12B ty v o = (f32Of (if FVal.ltMin x y then y else x)).toNat))

/-- The performing of a group of atomics that may be performed completes (08 R262): copies of its line that its tiles
fetched meanwhile leave their L1s, it writes the bytes of its place, and no other byte of memory changes (09 R286,
R287). The response to an atomic that has been performed completes (09 R289): it is no longer in flight, and its
result is in its register. Readings of the model: log 27, 82. -/
def Obligations.AtomicsPerform : Prop :=
  ∀ (s : State) (sid : Nat),
    (∀ (m : MergeTree) (a : AtomFlight), (treeLeaves m).head?.bind s.atom? = some (sid, a) →
      groupOk s [] (treeLeaves m) none = true → sameContext s (treeLeaves m) = true →
      exec (.atomicGroupPerform m) s = .next (performGroup s m sid a) ∧
      let s1 := freshenGroup s a.part (treeLeaves m)
      (a.part.cacheable = false → s1 = s) ∧
      (a.part.space ≠ .device → (a.part.space = .spad → s1.firstGuard (unitOf sid) a.part = none) →
        isPoisoned s1.poison a.part.loc a.part.len = false →
        (performGroup s m sid a).mem = Memory.writeN s1.mem a.part.loc (leBytes a.part.len
          (newValue a (s1.readLocNat a.part.loc a.part.len) (combine s1 a.opc a.ty m))) ∧
        ∀ l, l < a.part.loc ∨ a.part.loc + a.part.len ≤ l →
          Memory.read (performGroup s m sid a).mem l = Memory.read s1.mem l)) ∧
    (∀ (req : Nat) (t : Strand) (a : AtomFlight), s.strand? sid = some t → t.atoms.find? (·.req == req) = some a →
      a.performed = true →
      ∃ s' t', exec (.atomicResponse sid req) s = .next s' ∧ s'.strand? sid = some t' ∧
        (∀ b ∈ t'.atoms, b ∈ t.atoms ∧ b.req ≠ req) ∧
        (∀ n, a.d = some (.x n) → n ≠ 0 → n ≠ 32 → t'.getX n = a.result ∧ t'.mark? n = a.mark) ∧
        (∀ n, a.d ≠ some (.x n) → t'.getX n = t.getX n) ∧ t'.v = t.v ∧ t'.p = t.p ∧ SameSpecial t t' ∧ SameQueues t t')

/-- The allocator port (07 R218 to R221): AADD at SPALLOC allocates and returns the base, or all ones; a store to SPTOP
releases down to its value; a store to SPFLOOR changes nothing; a load there reads the register. -/
def Obligations.AllocatorCompletes : Prop :=
  ∀ (fl : FormM) (s o o2 o3 : State) (f : Focus) (r : Raw) (t u : Strand) (p : Part) (k : Task),
    let ea := effAddr u fl (sizeLog fl.ty)
    let aa := atomAddr u fl
    let w := Ty.bytes fl.ty
    let got := k.alloc (u.xa fl.b)
    p.space = .port → isHead f.sid = false → o3.task? (tileOf f.sid) = some k → Unmarked u [fl.a, fl.b] →
    (Finds (.spalloc fl) .normal s f r t o u → checkBase o f.sid u fl.a aa 8 = .ok () → w = 8 → aa.toNat % 8 = 0 →
      fl.nr = false → p.loc = 0x800000 → accessParts o (agentOf o f.sid u) .atomic aa 8 = .ok ([p], o2) →
      storeReady u = .ok () → relReady o2 u fl.ord fl.scope = .ok o3 →
      Completes (.spalloc fl) s f r t (((o3.updTask (tileOf f.sid) fun _ => got.2).updStrand f.sid fun q =>
        q.putD fl.d got.1).acquireL1 (tileOf f.sid) (if fl.ord = .acq ∨ fl.ord = .ar then fl.scope else .strand))) ∧
    (scalarParts o u fl .store ea w = .ok ([p], o2) → w = 8 → storeReady u = .ok () → relReady o2 u fl.ord fl.scope = .ok o3 →
      (Finds (.sptopRelease fl) .normal s f r t o u → p.loc = 0x800008 →
        Completes (.sptopRelease fl) s f r t (o3.updTask (tileOf f.sid) (·.release (u.xa fl.c)))) ∧
      (Finds (.spfloorStore fl) .normal s f r t o u → p.loc = 0x800010 → Completes (.spfloorStore fl) s f r t o3)) ∧
    (scalarParts o u fl .load ea w = .ok ([p], o2) → w = 8 → p.loc = 0x800008 ∨ p.loc = 0x800010 → loadReady u = .ok () →
      u.ewin = [] → Finds (.ld fl) .ahead s f r t o u →
      Completes (.ld fl) s f r t (loadStarts o2 f (inFlight fl o u ea { bytes := [], bad := false, missed := false }
        (.reg fl.d) ((portRead o2 (tileOf f.sid) (p.loc - 0x800000)).setWidth 4096))))

/-! ### Class 3 -/

/-- The operands of a class 3 instruction can be read, a, b, c in this order (01 R16; 06 R179): `c.rest` is the strand after
their pops. -/
def VectorReads (fl : FormV) (u : Strand) (a b c : Read VArg) : Prop :=
  readV u fl.a fl.moda = .ok a ∧ readV a.rest fl.b fl.modb = .ok b ∧ readV b.rest fl.c .none = .ok c

/-- Results by element: active elements of the vector destination computed from the operands' elements, or from their
index, active bits of the predicate destination likewise; the others kept (06 R178). -/
def toElems (fl : FormV) (op : Nat → Nat → Nat → Nat) (g : PReg) (q : VIn) (t : Strand) : Strand :=
  let w := Ty.bytes fl.ty
  match fl.d with
  | .v n => t.setV n (mergeV w g (t.getV n) fun i => op (q.a.elem w i) (q.b.elem w i) (q.c.elem w i))
  | _ => t

def toIndexed (fl : FormV) (op : VIn → Nat → Nat) (g : PReg) (q : VIn) (t : Strand) : Strand :=
  match fl.d with
  | .v n => t.setV n (mergeV (Ty.bytes fl.ty) g (t.getV n) (op q))
  | _ => t

def toPred (fl : FormV) (op : VIn → Nat → Bool) (g : PReg) (q : VIn) (t : Strand) : Strand :=
  match fl.d with
  | .p n => t.setP n (mergeP (Ty.bytes fl.ty) (active (Ty.bytes fl.ty) g) (t.getP n) (op q))
  | _ => t

def toBits (fl : FormV) (op : VIn → Strand → PReg) (g : PReg) (q : VIn) (t : Strand) : Strand :=
  match fl.d with
  | .p n => t.setP n ((op q t &&& g) ||| (t.getP n &&& ~~~g))
  | _ => t

/-- The instructions of class 3 that write, or not, with some element active: their results by element or index (06 R191,
R192, R198 to R202). -/
def elementwiseRows : List ((FormV → Instr) × (FormV → PReg → VIn → Strand → Strand)) :=
  elementRows.map (fun q => (q.1, fun fl => toElems fl (q.2 fl))) ++
  [(.vperm, fun fl => toIndexed fl (vpermEl fl)), (.vext, fun fl => toIndexed fl (vextEl fl)),
   (.viota, fun fl => toIndexed fl (viotaEl fl)),
   (.vcmp, fun fl => toPred fl fun q i => compare fl (q.a.elem (Ty.bytes fl.ty) i) (q.b.elem (Ty.bytes fl.ty) i)),
   (.vmasklen, fun fl => toPred fl fun q i => decide (q.b.scalar.toNat + i < q.a.scalar.toNat)),
   (.vsel, fun fl g q t => toIndexed fl (fun q i => if active (Ty.bytes fl.ty) (predOf t fl.c) i
      then q.a.elem (Ty.bytes fl.ty) i else q.b.elem (Ty.bytes fl.ty) i) g q t)]

/-- A class 3 instruction of `elementwiseRows` whose operands can be read completes: with some element active, and no
mark, it writes the active elements of its destination; with none, or under negated p7, it only pops (01 R18; 06 R178).
-/
def Obligations.ElementwiseCompletes : Prop :=
  ∀ q ∈ elementwiseRows, ∀ (fl : FormV) (s o : State) (f : Focus) (r : Raw) (t u : Strand) (a b c : Read VArg),
    Finds (q.1 fl) .normal s f r t o u → VectorReads fl u a b c →
    let g := govern u fl.gate
    let some_ := !gateNever fl.gate && anyActive (Ty.bytes fl.ty) g
    (some_ = true → a.mark = none → b.mark = none → c.mark = none →
      Completes (q.1 fl) s f r t
        (o.setStrand f.sid (q.2 fl g { a := a.val, b := b.val, c := c.val } c.rest))) ∧
    (some_ = false → Completes (q.1 fl) s f r t (o.setStrand f.sid c.rest))

/-- The instructions gated as a whole by bit 0 of their predicate, and what they do (06 R178, R195, R200, R203 to R209,
R212). -/
def wholeRows : List ((FormV → Instr) × (FormV → VIn → Strand → Strand)) :=
  [(.vmovxExtract, fun fl q t => t.putD fl.d (codeWord fl.ty (q.a.elem (Ty.bytes fl.ty) fl.imm16.toNat))),
   (.vpopc, fun fl _ t => t.putD fl.d (BitVec.ofNat 64 (countP (Ty.bytes fl.ty) (predOf t fl.a)))),
   (.vcmprs, fun fl q t => match fl.d with
      | .v n => t.setV n (compress (Ty.bytes fl.ty) (predOf t fl.c) q.a)
      | _ => t),
   (.vdrain, fun fl _ t =>
      (List.range (fl.opx.toNat + 2)).foldl (fun x j =>
        x.setV (rangeReg fl.d j) (ofLanes (drainLane (t.bobbin.take 128) (fl.opx.toNat + 1) j)))
        { t with bobbin := t.bobbin.drop 128 }),
   (.vdqstat, fun fl _ t =>
      t.putD fl.d (BitVec.ofNat 64 (if fl.opx = 0 then t.bobbin.length else 1024 - t.bobbin.length))),
   (.ptox, fun fl _ t => t.putD fl.d (toX fl t))]

/-- The predicate instructions, written bit by bit (06 R210, R212). -/
def bitRows : List ((FormV → Instr) × (FormV → VIn → Strand → PReg)) :=
  [(.pand, fun fl _ t => predOf t fl.a &&& predOf t fl.b), (.por, fun fl _ t => predOf t fl.a ||| predOf t fl.b),
   (.pxor, fun fl _ t => predOf t fl.a ^^^ predOf t fl.b), (.pnot, fun fl _ t => ~~~(predOf t fl.a)),
   (.pfromx, fromX)]

/-- The rows gated as a whole complete with their effect when bit 0 of their predicate is 1, and only pop when it is 0;
the predicate rows write their bits where the predicate is 1 (06 R178, R210). -/
def Obligations.WholeAndBitsComplete : Prop :=
  ∀ (fl : FormV) (s o : State) (f : Focus) (r : Raw) (t u : Strand) (a b c : Read VArg),
    let g := govern u fl.gate
    VectorReads fl u a b c →
    (∀ q ∈ wholeRows, Finds (q.1 fl) .normal s f r t o u →
      (g.getLsbD 0 = true → a.mark = none → b.mark = none → c.mark = none →
        Completes (q.1 fl) s f r t (o.setStrand f.sid (q.2 fl { a := a.val, b := b.val, c := c.val } c.rest))) ∧
      (g.getLsbD 0 = false → Completes (q.1 fl) s f r t (o.setStrand f.sid c.rest))) ∧
    (∀ q ∈ bitRows, Finds (q.1 fl) .normal s f r t o u →
      (g ≠ 0 → a.mark = none → b.mark = none → c.mark = none →
        Completes (q.1 fl) s f r t
          (o.setStrand f.sid (toBits fl (q.2 fl) g { a := a.val, b := b.val, c := c.val } c.rest))) ∧
      (g = 0 → Completes (q.1 fl) s f r t (o.setStrand f.sid c.rest)))

/-- The record that VDEFER makes of lane l: the words of the operand registers, the lane, the tag and the count of words
(06 R206). -/
def deferred (fl : FormV) (x : Strand) (l : Nat) : BobRec :=
  { words := (List.range 4).map fun j => if j < fl.opx.toNat + 1 then lane (x.getV (rangeReg fl.a j)) l else 0,
    lane := BitVec.ofNat 16 l, tag := fl.imm16, count := BitVec.ofNat 8 (fl.opx.toNat + 1) }

/-- The 16 blocks of 32 elements that VQNT.QC4 quantises with a super-scale: the scale of each, and the code and flag of
each of its elements (06 R195). -/
def quantBlocks (fl : FormV) (x : Strand) (super : Nat) : List (Nat × List (Nat × Bool)) :=
  (List.range 16).map fun j => qc4Block (((rangeVals fl x).drop (32 * j)).take 32) (fmtF32.value super)

/-- The rest of class 3 (06 R193 to R197, R200, R205 to R207, R211; 04 R134): conversion and quantisation write the
elements of their part, VQNT with the flags of what it clamped, and for .qc4 the codes, scales and super-scale of 16 blocks; reductions combine the active elements in the balanced
tree and scans in steps of doubling distance, the identity standing for the others; VMOVX inserts one element; VDEFER
appends a record for each active lane; PFIRST finds the first active element set. Readings of the model: log 74. -/
def Obligations.OtherVectorCompletes : Prop :=
  ∀ (fl : FormV) (s o : State) (f : Focus) (r : Raw) (t u : Strand) (a b c : Read VArg),
    let g := govern u fl.gate
    let w := Ty.bytes fl.ty
    let ws := Ty.bytes fl.ty2
    let part (i : Nat) : Option Nat := cvtSource w ws fl.imm16.toNat i
    let quant (i : Nat) : Option (Nat × Bool) := (part i).map fun j =>
      quantise fl.ty fl.ty2 fl.rm fl.ftz (scaleIn fl { a := a.val, b := b.val, c := c.val }) (a.val.elem ws j)
    let x := c.rest
    let lanes := (List.range 128).filter fun l => g.getLsbD (4 * l)
    let inputs := scanInputs fl g a.val
    let scanned := scanList (combineCode fl) (scanSteps fl.ty) inputs
    VectorReads fl u a b c → gateNever fl.gate = false → a.mark = none → b.mark = none → c.mark = none →
    (∀ n, fl.d = .v n →
      (anyActive w g = true → Finds (.vcvt fl) .normal s f r t o u →
        Completes (.vcvt fl) s f r t (o.setStrand f.sid (x.setV n (mergeV w g (x.getV n) fun i => match part i with
          | some j => cvt fl.ty fl.ty2 fl.rm fl.sat fl.ftz (a.val.elem ws j)
          | none => elem w (x.getV n) i)))) ∧
      (∀ k, fl.c = .p k → anyActive w g = true → Finds (.vqnt fl) .normal s f r t o u →
        Completes (.vqnt fl) s f r t (o.setStrand f.sid
          ((x.setV n (mergeV w g (x.getV n) fun i => match quant i with
            | some p => p.1
            | none => elem w (x.getV n) i)).setP k
           (mergeP w (fun i => active w g i && (quant i).isSome) (x.getP k) fun i => match quant i with
            | some p => p.2
            | none => false)))) ∧
      (∀ k, fl.c = .p k → g.getLsbD 0 = true → Finds (.vqntQc4 fl) .normal s f r t o u →
        let super := superBits fl { a := a.val, b := b.val, c := c.val }
        let blocks := quantBlocks fl x super
        let els := blocks.flatMap (·.2)
        Completes (.vqntQc4 fl) s f r t (o.setStrand f.sid ((x.setV n (BitVec.ofNat 4096
            (packChunks 4 512 (fun i => (els.getD i (7, false)).1) +
             2 ^ (8 * 256) * packChunks 9 16 (fun j => (blocks.getD j (0x1FF, [])).1) + 2 ^ (8 * 274) * super))).setP k
          (BitVec.ofNat 512 (packChunks 1 512 fun i => if (els.getD i (7, false)).2 then 1 else 0))))) ∧
      (Finds (.vscan fl) .normal s f r t o u →
        Completes (.vscan fl) s f r t (o.setStrand f.sid (x.setV n (ofElems w fun i =>
          (if fl.imm16 = 1 then identityCode fl :: scanned else scanned).getD i 0)))) ∧
      (Finds (.vred fl) .normal s f r t o u →
        Completes (.vred fl) s f r t (o.setStrand f.sid (x.setV n
          (BitVec.ofNat 4096 ((treeList (combineCode fl) (scanSteps fl.ty) inputs).getD 0 0))))) ∧
      (anyActive w g = true → Finds (.vmovxInsert fl) .normal s f r t o u →
        Completes (.vmovxInsert fl) s f r t (o.setStrand f.sid (x.setV n (ofElems w fun i =>
          if i = fl.imm16.toNat && active w g i then b.val.elem w i else elem w (x.getV n) i))))) ∧
    (∀ n, fl.d = .x n →
      (Finds (.vred fl) .normal s f r t o u →
        Completes (.vred fl) s f r t (o.setStrand f.sid (x.setX n
          (codeWord fl.ty ((treeList (combineCode fl) (scanSteps fl.ty) inputs).getD 0 0))))) ∧
      (Finds (.vdefer fl) .normal s f r t o u → x.bobbin.length + lanes.length ≤ 1024 →
        Completes (.vdefer fl) s f r t (o.setStrand f.sid (({ x with bobbin := x.bobbin ++ lanes.map (deferred fl x) }).putD (.x n)
          (BitVec.ofNat 64 lanes.length)))) ∧
      (Finds (.vdefer fl) .normal s f r t o u → 1024 < x.bobbin.length + lanes.length →
        Completes (.vdefer fl) s f r t (o.setStrand f.sid (x.putD (.x n) (BitVec.allOnes 64))))) ∧
    (∀ n, fl.d = .p n → Finds (.pfirst fl) .normal s f r t o u →
      Completes (.pfirst fl) s f r t (o.setStrand f.sid (x.setP n
        (mergeP w (fun _ => true) 0 fun i => decide (some i = firstActive w g (predOf x fl.a))))))

/-- R192: VSEL gives each active element i of its destination a(i) when bit i x w of pc is 1, and b(i) otherwise, bit
for bit; the other elements keep their value (06 R178). R203: VPOPC with bit 0 of its predicate set writes the number of
elements i below N whose bit i x w of pa is 1; otherwise it writes nothing. -/
def Obligations.VectorResults : Prop :=
  ∀ (fl : FormV) (s o : State) (f : Focus) (r : Raw) (t u : Strand) (a b c : Read VArg),
    VectorReads fl u a b c → a.mark = none → b.mark = none → c.mark = none →
    (∀ n, Finds (.vsel fl) .normal s f r t o u → gateNever fl.gate = false → fl.d = .v n →
      ∃ s' t', exec (.vsel fl) s = .next s' ∧ s'.strand? f.sid = some t' ∧
        ∀ i, i < elemCount (Ty.bytes fl.ty) → elem (Ty.bytes fl.ty) (t'.getV n) i =
          if active (Ty.bytes fl.ty) (govern u fl.gate) i then
            (if (predOf u fl.c).getLsbD (i * Ty.bytes fl.ty) then a.val.elem (Ty.bytes fl.ty) i
             else b.val.elem (Ty.bytes fl.ty) i)
          else elem (Ty.bytes fl.ty) (u.getV n) i) ∧
    (∀ (n : Fin 64) (k : Fin 8), Finds (.vpopc fl) .normal s f r t o u → fl.d = .x n → n ≠ 0 → n ≠ 32 → fl.a = .p k →
      ∃ s' t', exec (.vpopc fl) s = .next s' ∧ s'.strand? f.sid = some t' ∧
        t'.getX n = if (govern u fl.gate).getLsbD 0 then
          BitVec.ofNat 64 ((List.range (512 / Ty.bytes fl.ty)).countP fun i => (u.getP k).getLsbD (i * Ty.bytes fl.ty))
        else u.getX n)

/-- What the elementwise and predicate instructions of class 3 leave alone: the scalar registers, every vector and
predicate register but the destination, SAQ, SDQ and BQ, the special registers, every byte of memory, the rest of the
machine. -/
def Obligations.VectorFrame : Prop :=
  ∀ make ∈ elementwiseRows.map (·.1) ++ bitRows.map (·.1), ∀ (fl : FormV) (s o : State) (f : Focus) (r : Raw) (t u : Strand)
      (a b c : Read VArg),
    Finds (make fl) .normal s f r t o u → VectorReads fl u a b c → a.mark = none → b.mark = none → c.mark = none →
    ∃ s' t', exec (make fl) s = .next s' ∧ SameWorld s s' ∧ (∀ l, Memory.read s'.mem l = Memory.read s.mem l) ∧
      s'.strand? f.sid = some t' ∧ (∀ j, j ≠ f.sid → s'.strand? j = s.strand? j) ∧
      (∀ n, t'.getX n = t.getX n) ∧ (∀ n, fl.d ≠ .v n → t'.getV n = t.getV n) ∧
      (∀ n, fl.d ≠ .p n → t'.getP n = t.getP n) ∧ t'.saq = t.saq ∧ t'.sdq = t.sdq ∧ t'.bq = t.bq ∧ SameSpecial t t'

/-! ### Class 4 -/

/-- The commands of the engines, with what each checks and the queues it enters (11 R296; 12 R322 to R340). -/
def engineRows : List ((FormE → Instr) × (FormE → EngSpec)) :=
  [(.cp, fun _ => specCp), (.cp2d, fun _ => specCp2d), (.cpg, fun f => specCpg f.aux), (.cps, fun f => specCps f.aux),
   (.cpx, fun f => specCpx f.aux), (.cpz, fun f => specCpz f.aux), (.cpmm, fun _ => specCpmm), (.cpfill, fun _ => specCpfill),
   (.cpcomb, fun f => specCpcomb f.ty), (.mm, fun _ => specMm), (.mmt, fun _ => specMmt), (.accz, fun _ => specAccz)]

/-- A command of an engine whose checks pass, with a format word when it claims one, room in its queues, and a
completion slot unless it is quiet: it joins its queues, its slot is pending and named in D, the strand's issue number
counts (11 R297 to R300, R317). A command that fails a check is cause ENGINE, precise, with the subcode and value of the
first of them (11 R309; 12 R324). Readings of the model: log 40. -/
def Obligations.CommandsIssue : Prop :=
  ∀ q ∈ engineRows, ∀ (fl : FormE) (s o : State) (f : Focus) (r : Raw) (t u : Strand) (k : Task),
    let sp := q.2 fl
    let tile := tileOf f.sid
    let regs := paramRegs fl sp.na sp.nb sp.nc
    let ps := regs.map u.xa
    let fmt : Word := if sp.claims then u.fq.headD 0 else 0
    let found := firstRefuse (sp.check o tile k fmt ps)
    Finds (q.1 fl) .normal s f r t o u → o.task? tile = some k → Unmarked u regs → (sp.claims = true → u.fq ≠ []) →
    (found = none → forkReady u = .ok () → u.checker = none → (sp.ce = true → k.ceq.length < 16) →
      (sp.me = true → k.meq.length < 16) →
      (fl.quiet = true → Completes (q.1 fl) s f r t
        ((o.updTask tile fun _ => k.enqueue sp (newCmd sp fl u f.sid k.order 0 fmt ps)).updStrand f.sid
          (·.issued sp fl true none))) ∧
      (∀ n, fl.quiet = false → k.freeSlot = some n →
        let k' := k.takeSlot n (numberOf f.sid) (slotUnitOf sp) u.issue
        Completes (q.1 fl) s f r t
          ((o.updTask tile fun _ => k'.enqueue sp (newCmd sp fl u f.sid k.order n fmt ps)).updStrand f.sid
            (·.issued sp fl true (some (k'.slotId n)))))) ∧
    (∀ sub val, found = some (sub, val) → t.inh = false → t.xvec ≠ 0 → Alone (opened s f r t) f →
      ∃ s' t', exec (q.1 fl) s = .next s' ∧ s'.strand? f.sid = some t' ∧
        TookTrap t t' t.pc 0x0E (BitVec.ofNat 8 sub) (BitVec.ofNat 56 val))

/-- MFMT queues a format word (12 R334); TKGIVE and TKTAKE push and pop the token FIFOs their bits name, when none is
full or empty, and do nothing when their predicate is false (12 R342); ACCWR and ACCLD write and read rows of the
accumulator (12 R341); CWAIT goes on, and CPOLL writes 1, when the slot has another generation or is no longer pending,
and CPOLL writes 0 otherwise (11 R301; 12 R344); TURN begins a turn (11 R316). -/
def Obligations.EngineSideCompletes : Prop :=
  ∀ (fl : FormE) (s o : State) (f : Focus) (r : Raw) (t u : Strand),
    let tile := tileOf f.sid
    let id := u.xa fl.a
    let slot := slotOf o f.sid id
    (Finds (.mfmt fl) .normal s f r t o u → Unmarked u [fl.a] → fmtOk (u.xa fl.a) = true → u.fq.length < 4 →
      Completes (.mfmt fl) s f r t (o.updStrand f.sid fun q => { q with fq := q.fq ++ [u.xa fl.a] })) ∧
    (∀ k, Finds (.tkgive fl) .normal s f r t o u → gateOn u fl.gate = true → o.task? tile = some k →
      performedBefore u (o.number u) = true → canPush k.fifo (giveTokens fl.token) = true →
      Completes (.tkgive fl) s f r t (o.updTask tile fun k => { k with fifo := pushAll k.fifo (giveTokens fl.token) })) ∧
    (Finds (.tkgive fl) .normal s f r t o u → gateOn u fl.gate = false → Completes (.tkgive fl) s f r t o) ∧
    (∀ k, Finds (.tktake fl) .normal s f r t o u → gateOn u fl.gate = true → o.task? tile = some k →
      canPop k.fifo (takeTokens fl.token) = true →
      Completes (.tktake fl) s f r t (o.updTask tile fun k => { k with fifo := popAll k.fifo (takeTokens fl.token) })) ∧
    (Finds (.tktake fl) .normal s f r t o u → gateOn u fl.gate = false → Completes (.tktake fl) s f r t o) ∧
    (∀ k v w, Finds (.accwr fl) .normal s f r t o u → o.task? tile = some k → gateOn u fl.gate = true →
      readVector u fl.a = .ok v → readScalar v.rest fl.b = .ok w → v.mark = none → w.mark = none →
      accChecks k w.val = .ok () → acquireBefore u (o.number u) = false →
      Completes (.accwr fl) s f r t ((o.setStrand f.sid w.rest).updTask tile fun k =>
        { k with acc := accWrite k.acc fl.aux w.val v.val })) ∧
    (∀ k w n, Finds (.accld fl) .normal s f r t o u → o.task? tile = some k → gateOn u fl.gate = true →
      readScalar u fl.a = .ok w → w.mark = none → accChecks k w.val = .ok () → acquireBefore u (o.number u) = false → fl.d = .v n →
      Completes (.accld fl) s f r t (o.setStrand f.sid (w.rest.setV n (accRead k.acc fl.aux w.val)))) ∧
    (Finds (.cwait fl) .normal s f r t o u → Unmarked u [fl.a] → observed u slot (idGen id) (numberOf f.sid) = .ok () →
      slot.gen ≠ idGen id ∨ slot.state ≠ .pending → Completes (.cwait fl) s f r t o) ∧
    (Finds (.cpoll fl) .normal s f r t o u → Unmarked u [fl.a] → observed u slot (idGen id) (numberOf f.sid) = .ok () →
      (slot.gen ≠ idGen id ∨ slot.state ≠ .pending →
        Completes (.cpoll fl) s f r t (o.setStrand f.sid (u.putD fl.d 1))) ∧
      (slot.gen = idGen id → slot.state = .pending →
        Completes (.cpoll fl) s f r t (o.setStrand f.sid (u.putD fl.d 0)))) ∧
    (∀ k, Finds (.turn fl) .drain s f r t o u → o.task? tile = some k → u.queuesEmpty = true →
      ∃ s2 u2, Completes (.turn fl) s f r t s2 ∧ s2.strand? f.sid = some u2 ∧ u2.turn = u.turn + 1 ∧
        u2.turnPc = u.pc + 16 ∧ u2.snap = some (u.snapshot k.fifo) ∧ u2.seqlog = [] ∧ u2.x = u.x ∧ u2.v = u.v ∧
        u2.p = u.p ∧ s2.mem = o.mem)

/-- SEMSIG adds to a semaphore, saturating, and SEMSET sets it, each a release at .dev; SEMRD reads it; SEMWAIT of 0
goes on, and any other goes on when it has been granted, with the count the smaller, each an acquire at .dev that waits for
the strand's loads and atomics (11 R313 to R315; 12 R343). Readings of the model: log 79. -/
def Obligations.SemaphoresComplete : Prop :=
  ∀ (fl : FormE) (s o : State) (f : Focus) (r : Raw) (t u : Strand),
    let a := u.xa fl.a
    let c := semCluster a
    let k := semIndex a
    let n : BitVec 32 := (u.xa fl.b).setWidth 32
    let tile := unitOf f.sid
    let m := o.sem c k
    semOk a = true → Unmarked u [fl.a, fl.b] → acquiring u = false →
    (releaseReady o tile u .dev = .ok () →
      (Finds (.semsig fl) .normal s f r t o u →
        Completes (.semsig fl) s f r t ((o.releaseL1 tile .dev).semAdd c k n) ∧
        (m.waiters = [] → (((o.releaseL1 tile .dev).semAdd c k n).sem c k).v =
          BitVec.ofNat 32 (min 0xFFFFFFFF (m.v.toNat + n.toNat)))) ∧
      (Finds (.semset fl) .normal s f r t o u →
        Completes (.semset fl) s f r t ((o.releaseL1 tile .dev).semSet c k n) ∧
        (m.waiters = [] → (((o.releaseL1 tile .dev).semSet c k n).sem c k).v = n))) ∧
    (Finds (.semrd fl) .normal s f r t o u →
      Completes (.semrd fl) s f r t (o.setStrand f.sid (u.putD fl.d (m.v.setWidth 64)))) ∧
    (Finds (.semwait fl) .normal s f r t o u → fenceReady u = true → n = 0 → Completes (.semwait fl) s f r t (o.acquireL1 tile .dev)) ∧
    (Finds (.semwait fl) .normal s f r t o u → fenceReady u = true → n ≠ 0 → m.waiters = [] → n ≤ m.v →
      Completes (.semwait fl) s f r t ((o.setSem c k { v := m.v - n, waiters := [] }).acquireL1 tile .dev)) ∧
    (Finds (.semwait fl) .normal s f r t o u → fenceReady u = true → n ≠ 0 →
      m.waiters.any (fun w => w.sid == f.sid && w.granted) = true →
      Completes (.semwait fl) s f r t
        ((o.setSem c k { m with waiters := m.waiters.filter (·.sid != f.sid) }).acquireL1 tile .dev))

/-! The copy engine's units (12 R328 to R332). -/

/-- The copy engine reads `n` bytes at `src` and writes them at `dst`, in the parts its accesses reach. -/
def Carries (x : EngCtx) (flits : Bool) (src dst n : Nat) (s s' : State) : Prop :=
  ∃ ps qs s1 s2, reach x s .load false src n = .ok (ps, s1) ∧
    reach x (engRead x ps s1).2 .store flits dst n = .ok (qs, s2) ∧ s' = engWrite x qs (engRead x ps s1).1 s2

/-- One copy after the other: source, destination, length. -/
def CarriesAll (x : EngCtx) : List (Nat × Nat × Nat) → State → State → Prop
  | [], s, s' => s' = s
  | q :: l, s, s' => ∃ m, Carries x true q.1 q.2.1 q.2.2 s m ∧ CarriesAll x l m s'

/-- The copy engine writes bytes of its own making at `dst`. -/
def Puts (x : EngCtx) (dst : Nat) (bs : List PByte) (s s' : State) : Prop :=
  ∃ qs s1, reach x s .store false dst bs.length = .ok (qs, s1) ∧ s' = engWrite x qs bs s1

/-- Element k of CPG or CPS: the index at xc + 4k is no poisoned word, the indexed side stays in its kind (12 R330). -/
def Element (x : EngCtx) (c : Cmd) (k : Nat) (s s' : State) : Prop :=
  let e := 2 ^ c.aux.toNat
  let indexed := if c.opc = 0x202 then par c.params 1 else par c.params 0
  let flat := (if c.opc = 0x202 then par c.params 0 else par c.params 1) + k * e
  ∃ j s1, readAt x s (par c.params 2 + 4 * k) 4 = .ok (j, s1) ∧ (∀ b ∈ j, b.2 = false) ∧
    let a := (indexed + leNat (j.map (·.1)) * e) % 2 ^ 64
    elementOk s1 x.tile indexed a e = true ∧
    (if c.opc = 0x202 then Carries x false a flat e s1 s' else Carries x true flat a e s1 s')

/-- Elements in order. -/
def Elements (x : EngCtx) (c : Cmd) : List Nat → State → State → Prop
  | [], s, s' => s' = s
  | k :: l, s, s' => ∃ m, Element x c k s m ∧ Elements x c l m s'

/-- The copy engine performs the next unit of its running command: CP and CPMM copy the bytes up to the end of a 2 KiB segment,
CP2D a row, CPG and CPS an element, CPFILL a segment of its pattern; CPX writes the 4,096 bytes of a block, decoded, raw or
zero with ENGINE KERF; CPZ a coded block, or the raw copy and a block that names it; CPCOMB combines a segment's
elements in order, each with the sum or maximum of its type. Units whose words lie across one another go as one (log 119). -/
def CopyUnits (s : State) (tile : Nat) (c : Cmd) : Prop :=
  let x := engCtx s tile .ce c
  let p := par c.params
  let i := c.index
  let rest (n : Nat) := List.range (n - i)
  let ends (s' : State) (c' : Cmd) : Prop :=
    runTurn s (.ceMove tile) = .next (s'.updTask tile fun k => { k with ceq := c' :: k.ceq.drop 1 })
  let at_ (n : Nat) : Cmd := { c with index := n }
  let d := kerfD c.aux
  let block (bs : List PByte) := kerfRead (c.aux.toNat / 4) (c.aux.toNat % 4) (bs.map (·.1))
  let poisoned (n : Nat) (bs : List PByte) : Bool := (bs.take n).any (·.2)
  (c.opc = 0x200 ∨ c.opc = 0x206 → ∀ s',
    let stop := if wordly (p 0 + 3 * p 1) then segmentEnd (parLo c.params 2) (p 0) i else parLo c.params 2
    Carries x true (p 1 + i) (p 0 + i) (stop - i) s s' → ends s' (at_ stop)) ∧
  (c.opc = 0x201 → ∀ s',
    let row (r : Nat) := (rowAt (p 2) (signedPar c.params 3) r, rowAt (p 0) (signedPar c.params 1) r, parLo c.params 4)
    let stop := if (∀ j < 4, p j % 4 = 0) then i + 1 else parHi c.params 4
    CarriesAll x ((rest stop).map fun j => row (i + j)) s s' → ends s' (at_ stop)) ∧
  (c.opc = 0x202 ∨ c.opc = 0x203 → ∀ s',
    let stop := if 2 ≤ c.aux.toNat ∧ p 0 % 4 = 0 ∧ p 1 % 4 = 0 then i + 1 else parLo c.params 3
    Elements x c ((rest stop).map (i + ·)) s s' → ends s' (at_ stop)) ∧
  (c.opc = 0x207 → ∀ s',
    let stop := segmentEnd (parLo c.params 2) (p 0) i
    Puts x (p 0 + i) ((rest stop).map fun k => ((leBytes 8 (p 1)).getD ((i + k) % 2 ^ c.aux.toNat) 0, false)) s s' →
    ends s' (at_ stop)) ∧
  (c.opc = 0x204 → ∀ b s1 s', readAt x s (p 1 + i * d) d = .ok (b, s1) →
    (∀ len bytes, block b = .coded len bytes → bytes.length = 4096 →
      Puts x (p 0 + i * 4096) (bytes.map fun q => (q, poisoned (32 + len) b)) s1 s' → ends s' (at_ (i + 1))) ∧
    (block b = .malformed ∨ (∃ a, block b = .spilled a ∧ spillOk s1 tile a = false) → Puts x (p 0 + i * 4096) (List.replicate 4096 (0, poisoned 32 b)) s1 s' →
      ends s' ((at_ (i + 1)).note (some (0x12, BitVec.ofNat 64 (p 1 + i * d))))) ∧
    (∀ a raw s2, block b = .spilled a → spillOk s1 tile a = true → readAt x s1 a 4096 = .ok (raw, s2) → raw.length = 4096 →
      Puts x (p 0 + i * 4096) (raw.map fun q => (q.1, q.2 || poisoned 32 b)) s2 s' → ends s' (at_ (i + 1)))) ∧
  (c.opc = 0x205 → ∀ src s1, readAt x s (p 1 + i * 4096) 4096 = .ok (src, s1) →
    let es := c.aux.toNat / 4
    let ds := c.aux.toNat % 4
    let bad := src.any (·.2)
    (∀ b s', bad = false → kerfWrite es ds (src.map (·.1)) = some b → b.length = d →
      Puts x (p 0 + i * d) (b.map (·, false)) s1 s' → ends s' (at_ (i + 1))) ∧
    (∀ n qs ws s2 s3, bad = true ∨ kerfWrite es ds (src.map (·.1)) = none → c.spills = some n →
      let a := (p 3 + 4096 * n) % 2 ^ 64
      spillOk s1 tile a = true → reach x s1 .store false a 4096 = .ok (qs, s2) → reach x s2 .store false (p 0 + i * d) d = .ok (ws, s3) →
      ends (engWrite x ws ((kerfSpill es ds a).map (·, false)) (engWrite x qs src s3))
        { at_ (i + 1) with spills := some (n + 1) })) ∧
  (c.opc = 0x208 → ∀ qs ps s1 s2,
    let n := Nat.min (parLo c.params 2 - i * 2048) 2048
    reach x s .atomic false (p 0 + i * 2048) n = .ok (qs, s1) → reach x s1 .load false (p 1 + i * 2048) n = .ok (ps, s2) →
    ends ((List.range (n / Ty.bytes c.ty)).foldl (fun s k => combElement x c.ty (c.aux == 1) qs ps k s) s2) (at_ (i + 1)))

/-- What the copy engine's accesses carry: the bytes of memory, after the tile's own copies of the lines are written back
(08 R265, R266); what it writes is what memory then holds there, and nothing else changes. An element of CPCOMB becomes the sum
or the maximum of the old value and the source's (12 R332). -/
def CopyData (s : State) (x : EngCtx) : Prop :=
  (∀ p : Part, p.space ≠ .spad →
    (engRead x [p] s).1.map (·.1) = (List.range p.len).map fun j => Memory.read (syncLines s x.tile false p).mem (p.loc + j)) ∧
  (∀ p : Part, p.space = .spad → s.firstGuard x.tile p = none →
    (engRead x [p] s).1.map (·.1) = (List.range p.len).map fun j => Memory.read (syncLines s x.tile false p).mem (p.loc + j)) ∧
  (∀ (p : Part) (bs : List PByte), Memory.wf s.mem = true → p.aperture = false → bs.length = p.len →
    (p.space = .spad → s.firstGuard x.tile p = none) →
    (∀ j < p.len, Memory.read (engWrite x [p] bs s).mem (p.loc + j) = (bs.map (·.1)).getD j 0) ∧
    (∀ l, l < p.loc ∨ p.loc + p.len ≤ l → Memory.read (engWrite x [p] bs s).mem l = Memory.read (syncLines s x.tile true p).mem l)) ∧
  (∀ old new : Nat, old < 2 ^ 32 → new < 2 ^ 32 → combCode .s32 false old new = (old + new) % 2 ^ 32 ∧
    Ty.toInt .s32 (combCode .s32 true old new) = max (Ty.toInt .s32 old) (Ty.toInt .s32 new))

/-- The engines' own events. The copy engine performs its units (`CopyUnits`, `CopyData`: 12 R328 to R331). A head command that may start pops its tokens and runs, INIT zeroing its accumulator tile
(11 R298, R302; 12 R337). ACCZ zeroes a row at a time, and a matrix command folds a panel into every cell of its tile,
when its operands have arrived and none is poisoned (12 R336, R339, R340); an operand line is noted when it arrives
(11 R311). A command that has done its accesses leaves its queue, pushes its tokens, and its slot is complete, or
failed (11 R302, R303, R310). Readings of the model: log 41, 42, 73, 78, 87, 101, 119. -/
def Obligations.EnginesRun : Prop :=
  ∀ (s : State) (tile : Nat) (k : Task), s.task? tile = some k →
    (∀ (c : Cmd) (rest : List Cmd), k.ceq = c :: rest → canMove s tile k .ce c = true → c.waiting = .none →
      CopyUnits s tile c ∧ CopyData s (engCtx s tile .ce c)) ∧
    (∀ (e : Engine) (c : Cmd) (rest : List Cmd), queueOf k e = c :: rest → canStart s tile k e c = true →
      ∃ s' k', exec (.engineCommandStart tile e) s = .next s' ∧ s'.task? tile = some k' ∧
        queueOf k' e = { c with phase := 1, index := 0 } :: rest ∧ k'.fifo = popAll k.fifo (headPops e c) ∧
        k'.slots = k.slots ∧ s'.mem = s.mem ∧ s'.strands = s.strands ∧
        (e = .me → c.opc ≠ 0x213 → fmtInit c.fmt = true → ∀ i j, i < 64 → j < 64 →
          accPair k'.acc (accKey (bits (matWord c.opc c.params) 32 16) i j) = 0)) ∧
    (∀ (c : Cmd) (rest : List Cmd), k.meq = c :: rest → c.waiting = .none →
      (canMove s tile k .me c = true → c.opc = 0x213 → ∃ s' k', exec (.mePanelFold tile) s = .next s' ∧ s'.task? tile = some k' ∧
        k'.meq = { c with index := c.index + 1 } :: rest ∧ s'.mem = s.mem ∧ s'.strands = s.strands ∧
        ∀ n, accPair k'.acc n =
          if accKey (par c.params 0 % 2 ^ 16 + c.index / 64) (c.index % 64) 0 ≤ n ∧
             n < accKey (par c.params 0 % 2 ^ 16 + c.index / 64) (c.index % 64) 0 + 64 then 0 else accPair k.acc n) ∧
      (∀ a b s1 s2 k2, canMove s tile k .me c = true → c.opc ≠ 0x213 → missingLines k c = [] →
        readRanges (engCtx s tile .me c) [panelA c c.index] s = .ok (a, s1) →
        readRanges (engCtx s tile .me c) (panelB c c.index) s1 = .ok (b, s2) →
        poisonAt ([panelA c c.index] ++ panelB c c.index) (a ++ b) = none → s2.task? tile = some k2 →
        let key := accKey (bits (matWord c.opc c.params) 32 16) 0 0
        ∃ s' k', exec (.mePanelFold tile) s = .next s' ∧ s'.task? tile = some k' ∧ s'.mem = s2.mem ∧
          k'.meq.head? = some { c with index := c.index + 1 } ∧
          k'.acc = setAccRange k2.acc key 4096 (foldPanel c (a.map (·.1)) (b.map (·.1)) (accRange k2.acc key 4096))) ∧
      (∀ line ps s1 k1, lineWanted k c = true → line ∈ missingLines k c →
        reach (engCtx s tile .me c) s .load false (128 * line) 128 = .ok (ps, s1) → s1.task? tile = some k1 →
        ∃ s' k', exec (.operandLineArrive tile line) s = .next s' ∧ s'.task? tile = some k' ∧
          k'.oplines = k1.oplines ++ [(c.order, line)] ∧ k'.acc = k1.acc ∧ s'.mem = s1.mem)) ∧
    (∀ (e : Engine) (c : Cmd) (rest : List Cmd), queueOf k e = c :: rest → headDone e c = true → k.engStop = 0 →
      c.opc ≠ 0x206 → poisonRollback s (8 * tile + c.issuer) c = false → canPush k.fifo (headPushes e c) = true →
      ∃ s' k', exec (.engineCommandComplete tile e) s = .next s' ∧ s'.task? tile = some k' ∧ queueOf k' e = rest ∧
        k'.fifo = pushAll k.fifo (headPushes e c) ∧ s'.mem = s.mem ∧ k'.acc = k.acc ∧
        (c.quiet = true → k'.slots = k.slots) ∧
        (c.quiet = false → (k'.slot c.slot).state = if c.error.isSome then .failed else .complete))

/-! ### Classes 5 and 6 -/

/-- An instruction that a unit performs at its home (13 R357, R358; 14 R400, R401): its constructor, the fields it uses and
what comes before and after, and the operation for a strand. -/
structure HomeRow where
  make : FormQ → Instr
  spec : FormQ → HomeSpec
  op : FormQ → State → Strand → Hm Word

/-- Class 5 at the home of its bolt (13 R362 to R371). -/
def bnewRow : HomeRow :=
  { make := .bnew, spec := fun _ => { opc := 0x280, useA := false, useB := true },
    op := fun f s t => bnewOp (t.xa f.b) (s.pasidOf s.sid) }
def brsvRow : HomeRow :=
  { make := .brsv, spec := fun _ => { opc := 0x281, useB := true },
    op := fun f s t => if isHead s.sid then brsvHead s.sid (t.xa f.a) (t.xa f.b) (s.pasidOf s.sid)
      else brsvTile s.sid (t.xa f.a) (t.xa f.b) (s.pasidOf s.sid) }
def bcmtRow : HomeRow :=
  { make := .bcmt, spec := fun f => { opc := 0x282, useB := true, useC := true, pre := releasePre f.scope },
    op := fun f s t => closeOp none (t.xa f.a) (t.xa f.b) (t.xa f.c) (s.pasidOf s.sid) }
def bvoidRow : HomeRow :=
  { make := .bvoid, spec := fun f => { opc := 0x283, useB := true, useC := true, pre := releasePre f.scope },
    op := fun f s t => closeOp (some (unitOf s.sid)) (t.xa f.a) (t.xa f.b) (t.xa f.c) (s.pasidOf s.sid) }
def bfellRow : HomeRow :=
  { make := .bfell, spec := fun f => { opc := 0x284, pre := acquirePre, post := acquirePost f.scope },
    op := fun f s t => bfellOp (t.xa f.a) (s.pasidOf s.sid) }
def bwaitRow : HomeRow :=
  { make := .bwait, spec := fun f => { opc := 0x285, useB := true, useC := true, pre := acquirePre, post := acquirePost f.scope },
    op := fun f s t => bwaitOp (t.xa f.a) (t.xa f.b) (t.xa f.c) (timedOut t s.cycle) (issuedAt t s.cycle) (s.pasidOf s.sid) }
def bforkRow : HomeRow :=
  { make := .bfork, spec := fun _ => { opc := 0x286, useB := true }, op := fun f s t => bforkOp (t.xa f.a) (t.xa f.b) (s.pasidOf s.sid) }
def bholdRow : HomeRow :=
  { make := .bhold, spec := fun _ => { opc := 0x287 }, op := fun f s t => bholdOp (t.xa f.a) (s.pasidOf s.sid) }
def brelRow : HomeRow :=
  { make := .brel, spec := fun _ => { opc := 0x288 }, op := fun f s t => brelOp (t.xa f.a) (s.pasidOf s.sid) }
def bstatRow : HomeRow :=
  { make := .bstat, spec := fun f => { opc := 0x28A, useB := f.aux == 5 },
    op := fun f s t => bstatOp f.aux (t.xa f.a) (t.xa f.b) (s.pasidOf s.sid) }
def bretireRow : HomeRow :=
  { make := .bretire, spec := fun _ => { opc := 0x28B, useB := true }, op := fun f s t => bretireOp (t.xa f.a) (t.xa f.b) (s.pasidOf s.sid) }
def bpinPinRow : HomeRow :=
  { make := .bpinPin, spec := fun _ => { opc := 0x28C, useB := true }, op := fun f s t => pinOp (t.xa f.a) (t.xa f.b) (s.pasidOf s.sid) }
def bpinUnpinRow : HomeRow :=
  { make := .bpinUnpin, spec := fun _ => { opc := 0x28C, useB := true }, op := fun f s t => unpinOp (t.xa f.a) (t.xa f.b) (s.pasidOf s.sid) }
def tmloadRow : HomeRow :=
  { make := .tmload, spec := fun _ => { opc := 0x290, useB := true },
    op := fun f s t => tmloadOp s.sid t (f.aux == 1) (t.xa f.a) (t.xa f.b) (s.pasidOf s.sid) }
def boltRows : List HomeRow :=
  [bnewRow, brsvRow, bcmtRow, bvoidRow, bfellRow, bwaitRow, bforkRow, bholdRow, brelRow, bstatRow, bretireRow, bpinPinRow,
   bpinUnpinRow, tmloadRow]

/-- Class 6 at the home of its stream or feed (14 R403 to R409). -/
def sheadRow : HomeRow :=
  { make := .shead,
    spec := fun f => { opc := 0x300, useB := f.aux == 0 || f.aux == 1, agent := .stream, pre := acquirePre, post := acquirePost .dev },
    op := fun f s t => sheadOp s.sid (!t.pl) f.aux (t.xa f.a) (t.xa f.b) }
def stakeRow : HomeRow :=
  { make := .stake, spec := fun _ => { opc := 0x301, useB := true, agent := .stream },
    op := fun f s t => stakeOp s.sid (!t.pl) (t.xa f.a) (t.xa f.b) }
def unpickRow : HomeRow :=
  { make := .unpick, spec := fun _ => { opc := 0x302, agent := .stream, pre := releasePre .dev },
    op := fun f s t => unpickOp s.sid (!t.pl) (t.xa f.a) }
def sframeRow : HomeRow :=
  { make := .sframe, spec := fun _ => { opc := 0x303, useB := true, agent := .stream, pre := releasePre .dev },
    op := fun f s t => sframeOp s.sid t (f.aux == 1) f.nb f.b (t.xa f.a) (t.xa f.b) }
def sfrpopRow : HomeRow :=
  { make := .sfrpop, spec := fun _ => { opc := 0x304, useB := true, agent := .stream, pre := storePre, post := acquirePost .dev },
    op := fun f s t => sfrpopOp s.sid t f.nb f.b (t.xa f.a) (t.xa f.b) }
def srungRow : HomeRow :=
  { make := .srung, spec := fun f => { opc := 0x305, useB := f.aux == 1, agent := .stream },
    op := fun f s t => srungOp s.sid (!t.pl) (f.aux == 1) (t.xa f.a) (t.xa f.b) }
def sevtRow : HomeRow :=
  { make := .sevt, spec := fun _ => { opc := 0x306, agent := .stream, pre := acquirePre, post := acquirePost .dev },
    op := fun f s t => sevtOp s.sid (!t.pl) f.nb (t.xa f.a) }
def sevtAttachRow : HomeRow :=
  { make := .sevtAttach, spec := fun _ => { opc := 0x306, agent := .stream }, op := fun f s t => sevtAttachOp s.sid (!t.pl) (t.xa f.a) }
def feedpopRow : HomeRow :=
  { make := .feedpop, spec := fun _ => { opc := 0x310, useB := true, agent := .stream, pre := storePre, post := acquirePost .dev },
    op := fun f s t => feedpopOp s.sid t f.b (t.xa f.a) (t.xa f.b) }
def feedwaitRow : HomeRow :=
  { make := .feedwait, spec := fun _ => { opc := 0x311, useC := true, agent := .stream },
    op := fun f s t => feedwaitOp s.sid (t.xa f.a) (t.xa f.c) (timedOut t s.cycle) (issuedAt t s.cycle) }
def feedpushRow : HomeRow :=
  { make := .feedpush, spec := fun _ => { opc := 0x312, useB := true, agent := .stream, pre := releasePre .dev },
    op := fun f s t => feedpushOp s.sid t f.nb f.b (t.xa f.a) (t.xa f.b) }
def streamRows : List HomeRow :=
  [sheadRow, stakeRow, unpickRow, sframeRow, sfrpopRow, srungRow, sevtRow, sevtAttachRow, feedpopRow, feedwaitRow, feedpushRow]

/-- BADDR of a headstock strand (13 R371). -/
def baddrHeadRow : HomeRow :=
  { make := .baddr, spec := fun _ => { opc := 0x289, useB := true },
    op := fun f s t => baddrHeadOp s.sid t (t.xa f.a) (t.xa f.b) (s.pasidOf s.sid) }

/-- The registers a home-path instruction reads. -/
def homeReads (h : HomeSpec) (fl : FormQ) : List Desig :=
  (if h.useA then [fl.a] else []) ++ (if h.useB then [fl.b] else []) ++ if h.useC then [fl.c] else []

/-- The strand has nothing of an earlier try, no verdict of its checker, and nothing to replay (13 R361; 17 R436, R447). -/
def Afresh (u : Strand) : Prop :=
  (∀ p sub va, u.home ≠ .on p sub va) ∧ u.answer = none ∧ u.checker = none ∧ u.replaying = false ∧ u.relog = []

/-- Fields of records, each with the record, hold the values given, read in this order; the state after the reads. -/
def holdsFields (ar : Area) : List (Nat × RecField × Nat) → State → Option State
  | [], s => some s
  | (h, k, v) :: l, s => match (ar.get h k).run s with
    | .ok (w, s1) => if w = v then holdsFields ar l s1 else none
    | .error _ => none

/-- The state after fields of records are written, in this order. -/
def writesFields (ar : Area) : List (Nat × RecField × Nat) → State → Option State
  | [], s => some s
  | (h, k, v) :: l, s => match (ar.put h k v).run s with
    | .ok (_, s1) => writesFields ar l s1
    | .error _ => none

/-- A home-path instruction issues and its checks pass: its operation is performed in the state `q`, whose strand in focus is
`u`. -/
def HomeStarts (row : HomeRow) (fl : FormQ) (s : State) (f : Focus) (r : Raw) (t u : Strand) (q : State) : Prop :=
  ∃ o o2, Finds (row.make fl) .normal s f r t o u ∧ Afresh u ∧ Unmarked u (homeReads (row.spec fl) fl) ∧
    (row.spec fl).pre o u = .ok o2 ∧ q = o2.setStrand f.sid u

/-- It completes with the unit's response `w` in D, the operation's effect `s2` and what follows it; the operation is entered
in the logs of its turn and its task. -/
def HomeAnswers (row : HomeRow) (fl : FormQ) (s : State) (f : Focus) (r : Raw) (t u : Strand) (w : Word) (s2 : State) : Prop :=
  let h := row.spec fl
  let e := homeEnt h fl u (if fl.d = .x 0 then 0 else w)
  let s3 := s2.updStrand f.sid fun q => { q with home := .none }
  Completes (row.make fl) s f r t (((h.post s3).logTask f.sid e).updStrand f.sid fun q =>
    ({ q with held := none }.logSeq e).putD fl.d w)

/-- A strand may name a live stream (14 R397). -/
def OnStream (q : State) (u : Strand) (a : Word) (n : Nat) (st : Stream) : Prop :=
  a.toNat = n ∧ n < 1024 ∧ q.liveStream n = some st ∧ (st.pasid = q.pasidOf q.sid ∨ (isHead q.sid = true ∧ u.pl = true))

/-- A strand may name a feed (14 R398). -/
def OnFeed (q : State) (a : Word) (n : Nat) (fd : Feed) : Prop :=
  a.toNat = n ∧ n < 4096 ∧ q.feed? n = some fd ∧ fd.pasid = q.pasidOf q.sid

/-- A home-path instruction whose checks pass and whose operation its unit performs completes with the unit's response
in D, the operation's effect and what follows it; the operation is entered in the logs of its turn and its task (13
R358, R360, R361). What the operations of class 6 answer and leave, on a stream with no operation waiting and on a feed
(14 R403 to R409): SHEAD reads the set, or holds a head; STAKE raises TAKE within GEN; UNPICK forks every head at TAKE and
writes the other table, or says why it could not; SFRAME pushes a descriptor and SFRPOP pops one; SRUNG reads or forces the
rung; SEVT takes the oldest event and attaches the handler; FEEDPOP and FEEDPUSH pop and push a record and FEEDWAIT
answers when there is one. Readings of the model: log 53, 54, 56, 57, 58, 89. -/
def Obligations.HomePathCompletes : Prop :=
  ∀ (fl : FormQ) (s q s1 s2 s3 : State) (f : Focus) (r : Raw) (t u : Strand),
    let a := u.xa fl.a
    let b := u.xa fl.b
    let sid := q.sid
    let starts (row : HomeRow) : Prop := HomeStarts row fl s f r t u q
    let answers (row : HomeRow) (w : Word) (s2 : State) : Prop := HomeAnswers row fl s f r t u w s2
    (∀ (row : HomeRow) (o o2 : State) (w : Word), row ∈ boltRows ++ streamRows ∨ (isHead f.sid = true ∧ row = baddrHeadRow) →
      Finds (row.make fl) .normal s f r t o u → Afresh u → Unmarked u (homeReads (row.spec fl) fl) →
      (row.spec fl).pre o u = .ok o2 → (row.op fl o2 u).run (o2.setStrand f.sid u) = .ok (w, s2) → answers row w s2) ∧
    (∀ n st, OnStream q u a n st → st.inbox = [] →
      (starts sheadRow →
        (fl.aux = 2 → answers sheadRow (BitVec.ofNat 64 (st.get cSetgen)) q) ∧
        (∀ g, fl.aux = 3 → (genOf st).run q = .ok (g, s1) → answers sheadRow (BitVec.ofNat 64 g) s1) ∧
        (fl.aux = 4 → answers sheadRow (BitVec.ofNat 64 (st.get cTake)) q) ∧
        (fl.aux = 5 → answers sheadRow (BitVec.ofNat 64 (st.get cIput)) q) ∧
        (∀ e, st.heads[b.toNat]? = some e → let w : Word := BitVec.ofNat 64 (st.get cSetgen * 2 ^ 24 + e.h)
          let ar : Area := { pasid := st.pasid, base := ccbRecbase q st.pasid }
          (fl.aux = 0 → answers sheadRow w q) ∧
          (∀ st hc, fl.aux = 1 → st ≠ 0 → holdsFields ar [(e.h, bState, st), (e.h, bHcnt, hc)] q = some s1 → hc < 0xFFFFFFFF →
            writesFields ar [(e.h, bHcnt, hc + 1)] s1 = some s2 → answers sheadRow w s2))) ∧
      (∀ g, starts stakeRow → b.toNat < 2 ^ 32 → (genOf st).run q = .ok (g, s1) → b.toNat ≤ g →
        let take := Nat.max (st.get cTake) b.toNat
        answers stakeRow (BitVec.ofNat 64 take) (s1.updStream n (·.put cTake take))) ∧
      (∀ code new made, starts unpickRow →
        let ar : Area := { pasid := st.pasid, base := ccbRecbase q st.pasid }
        let took := st.get cTake % 2 ^ 24 * 2 ^ 32
        (forkHeads ar (st.get cTake) st.heads [] []).run q = .ok ((code, new, made), s1) →
        (code ≠ 0 → (made.forM fun c => giveBack ar c).run s1 = .ok ((), s2) → s2.stream? n = some st →
          let st2 := st.post 0x04 (code + took)
          answers unpickRow (withStatus code (st2.get cSetgen)) (s2.setStream n st2)) ∧
        (code = 0 → (putUnless st.pasid (st.get (if st.get cHeadsel = 0 then cSetb else cSeta)) (new.flatMap headBytes) []).run s1 =
            .ok (true, s2) →
          ((st.heads.filter (·.q != 0)).forM fun e => giveBack ar e.h).run s2 = .ok ((), s3) → s3.stream? n = some st →
          let st2 := ({ st with heads := new }.put cHeadsel (1 - st.get cHeadsel)).bump cSetgen
          answers unpickRow (withStatus 0 ((st2.post 0x03 (st2.get cSetgen + took)).get cSetgen))
            (s3.setStream n (st2.post 0x03 (st2.get cSetgen + took))))) ∧
      (∀ d, starts sframeRow → (operandLoad sid u fl.b b 32 (alignTrap 1 b)).run q = .ok (d, s1) → descOk s1 d (fl.aux == 1) = true →
        let ring := ringOf st (fl.aux == 1)
        let k := st.get ring.2.2.1
        (ringCount st ring.2.2.1 ring.2.2.2 < ring.2.1 → answers sframeRow (BitVec.ofNat 64 k)
          ((s1.writeLoc (ringLoc (ring.1 + 32 * (k % ring.2.1))) d).updStream n (·.bump ring.2.2.1))) ∧
        (ring.2.1 ≤ ringCount st ring.2.2.1 ring.2.2.2 → fl.nb = true → answers sframeRow (withStatus 8 0) s1)) ∧
      (∀ ps, starts sfrpopRow → (operandParts sid u fl.b .store b 32 (alignTrap 1 b)).run q = .ok (ps, s1) →
        let k := st.get cLget
        let d := ringRead s1 (st.get cLring + 32 * (k % 4))
        (ringCount st cLput cLget ≠ 0 → answers sfrpopRow (BitVec.ofNat 64 k)
          (storeParts (s1.updStream n (·.bump cLget)) (unitOf sid) sid .default ps d.1 d.2)) ∧
        (ringCount st cLput cLget = 0 → fl.nb = true → answers sfrpopRow (withStatus 9 0) s1)) ∧
      (starts srungRow → fl.aux = 1 → b.toNat < st.get cNrung →
        let st2 := (st.put cRung b.toNat).put cUprun 0
        answers srungRow (BitVec.ofNat 64 (st2.get cRung * 2 ^ 56 + st2.get (cRungWord (st2.get cRung)) % 2 ^ 44)) (q.setStream n st2)) ∧
      (starts srungRow → fl.aux ≠ 1 →
        answers srungRow (BitVec.ofNat 64 (st.get cRung * 2 ^ 56 + st.get (cRungWord (st.get cRung)) % 2 ^ 44)) (q.setStream n st)) ∧
      (starts sevtRow → (st.late = none ∨ st.handledBy (taskidOf q sid) (numberOf sid) = false) →
        (∀ e es, st.events = e :: es → answers sevtRow e (q.setStream n { st with events := es })) ∧
        (st.events = [] → fl.nb = true → answers sevtRow (withStatus 9 0) q)) ∧
      (starts sevtAttachRow → answers sevtAttachRow 0
        (q.setStream n (((st.put cHtask (taskidOf q sid)).put cHsid (numberOf sid)).put cHvalid 1)))) ∧
    (∀ n fd, OnFeed q a n fd →
      (∀ ps, starts feedpopRow → (operandParts sid u fl.b .store b 64 (feedTrap 2 n)).run q = .ok (ps, s1) →
        (∀ src, fd.get ≠ fd.put → (unitParts fd.pasid .load (fd.recordVa fd.get) 64).run s1 = .ok (src, s2) →
          let rec_ := readParts s2 src
          answers feedpopRow (BitVec.ofNat 64 (fd.get % 2 ^ 48))
            (storeParts (s2.setFeed n { fd with get := fd.get + 1 }) (unitOf sid) sid .default ps rec_.1 rec_.2)) ∧
        (fd.get = fd.put → answers feedpopRow (withStatus 9 0) s1)) ∧
      (starts feedwaitRow → fd.get < fd.put → answers feedwaitRow (withStatus 0 0) q) ∧
      (∀ bs ps, starts feedpushRow → (operandLoad sid u fl.b b 64 (feedTrap 2 n)).run q = .ok (bs, s1) →
        (fd.full = false → (unitParts fd.pasid .store (fd.recordVa fd.put) bs.length).run s1 = .ok (ps, s2) →
          answers feedpushRow (BitVec.ofNat 64 fd.put) ((writeParts s2 ps bs false).setFeed n { fd with put := fd.put + 1 })) ∧
        (fd.full = true → fl.nb = true → answers feedpushRow (withStatus 8 0) s1)))

/-- The waits that end at their time (13 R365; 14 R409): a BWAIT or FEEDWAIT whose strand still waits when its time is
up is performed once more, and then answers with status TIMEOUT. -/
def Obligations.TimedWaitsComplete : Prop :=
  ∀ (fl : FormQ) (sid : Nat) (wt : Wait) (s o o2 s2 : State) (f : Focus) (r : Raw) (t u : Strand) (w : Word),
    let e := fun h => homeEnt h fl u (if fl.d = .x 0 then 0 else w)
    let s3 := s2.updStrand f.sid fun q => { q with home := .none }
    let answered (h : HomeSpec) : State := ((h.post s3).logTask f.sid (e h)).updStrand f.sid fun q =>
      ({ q with held := none }.logSeq (e h)).putD fl.d w
    wt.ended s.cycle = true → wt.entered = true → wt.pc = t.pc → Afresh u →
    (∀ h : HomeSpec, h = { opc := 0x285, useB := true, useC := true, pre := acquirePre, post := acquirePost fl.scope } →
      bwaiting s sid = some (fl, wt) → Finds (.bwait fl) .normal (s.at sid) f r t o u → Unmarked u (homeReads h fl) →
      h.pre o u = .ok o2 →
      (bwaitOp (u.xa fl.a) (u.xa fl.b) (u.xa fl.c) true wt.since (o2.pasidOf o2.sid)).run (o2.setStrand f.sid u) = .ok (w, s2) →
      exec (.bwaitTimeout sid) s = .next (finished (s.at sid) f r (opened (s.at sid) f r t) (answered h))) ∧
    (∀ h : HomeSpec, h = { opc := 0x311, useC := true, agent := .stream } →
      feedwaiting s sid = some (fl, wt) → Finds (.feedwait fl) .normal (s.at sid) f r t o u → Unmarked u (homeReads h fl) →
      (feedwaitOp o.sid (u.xa fl.a) (u.xa fl.c) true wt.since).run (o.setStrand f.sid u) = .ok (w, s2) →
      exec (.feedwaitTimeout sid) s = .next (finished (s.at sid) f r (opened (s.at sid) f r t) (answered h))) ∧
    (∀ n fd, s.feed? n = some fd → fd.pasid = s.pasidOf sid → (u.xa fl.a).toNat = n → n < 4096 →
      (feedwaitOp sid (u.xa fl.a) (u.xa fl.c) true wt.since).run s =
        .ok (withStatus (if fd.get < fd.put then 0 else 6) 0, s))

/-- The translation memory at the tile (13 R355, R371, R373, R374): BADDR answers the address of its slot and makes the
entry the most recently used; TMLOCK and TMUNLK set LOCK of the entry that covers the slot, TMUNLK of none does nothing;
TMINV drops the entries it names.
Readings of the model: log 113, 116. -/
def Obligations.TranslationMemory : Prop :=
  ∀ (fl : FormQ) (s o o2 : State) (f : Focus) (r : Raw) (t u : Strand),
    let a := u.xa fl.a
    let b := u.xa fl.b
    let l := tmOf o2 f.sid
    let hit := l.find? fun e => e.hits a.toNat b.toNat
    isHead f.sid = false → (∀ d, u.markOf d = none) → a.toNat < 2 ^ 24 → b.toNat < 2 ^ 32 →
    (tileArea o b.toNat a = .ok o2 →
      (∀ e, hit = some e → Finds (.baddr fl) .normal s f r t o u →
        Completes (.baddr fl) s f r t ((o2.setTm f.sid (touchTm l (· == e))).updStrand f.sid fun q =>
          q.putD fl.d (e.va + BitVec.ofNat 64 ((b.toNat - e.base.toNat) * 2 ^ e.slog)))) ∧
      (∀ e, hit = some e → Finds (.tmlock fl) .normal s f r t o u →
        Completes (.tmlock fl) s f r t (o2.setTm f.sid (l.erase e ++ [{ e with lock := true }]))) ∧
      (∀ e, hit = some e → Finds (.tmunlk fl) .normal s f r t o u →
        Completes (.tmunlk fl) s f r t (o2.setTm f.sid (l.erase e ++ [{ e with lock := false }]))) ∧
      (hit = none → Finds (.tmunlk fl) .normal s f r t o u → Completes (.tmunlk fl) s f r t o2)) ∧
    (∀ s3 : State, tileArea o (if fl.aux = 0 then b.toNat else 0) (if fl.aux = 2 then 0 else a) = .ok o2 →
      (∀ p sub va, u.home ≠ .on p sub va) → Finds (.tminv fl) .normal s f r t o u →
      let named := tmNamed fl.aux (if fl.aux = 2 then 0 else a) b
      (dropTm (o2.pasidOf o2.sid) (l.filter named)).run o2 = .ok ((), s3) →
      Completes (.tminv fl) s f r t
        ((s3.updStrand f.sid fun q => { q with home := .none }).setTm f.sid (l.filter fun e => !named e)))

/-- What the operations on a bolt answer and leave, its context's area being checked (`ar`) and the handle h valid there (13
R362 to R366, R368 to R373). BNEW makes a record, BRSV reserves a run and BCMT and BVOID close one; BFELL answers the fell and BWAIT
answers OK with it once it has reached the target; BFORK makes a child that shares the pages below the fork; BHOLD counts one
more handle and BREL one less; BSTAT reads a field or a slot's state; BRETIRE raises the floor; BPIN pins and unpins a page;
TMLOAD, and BADDR on the headstock, answer the address of a page. A copy that lands ends its completion object. Readings of
the model: log 53, 55, 115, 116. -/
def Obligations.BoltOperations : Prop :=
  ∀ (fl : FormQ) (s q s1 s2 s3 s4 s5 s6 s7 s8 s9 s10 : State) (f : Focus) (r : Raw) (t u : Strand) (ar : Area) (h : Nat),
    let pasid := q.pasidOf q.sid
    let sid := q.sid
    let a := u.xa fl.a
    let b := (u.xa fl.b).toNat
    let c := (u.xa fl.c).toNat
    let starts (row : HomeRow) : Prop := HomeStarts row fl s f r t u q
    let answers (row : HomeRow) (w : Word) (s2 : State) : Prop := HomeAnswers row fl s f r t u w s2
    let named (slot : Nat) : Prop := (needBolt pasid slot a).run q = .ok ((ar, h), s1)
    let count (v : Nat) : Word := BitVec.ofNat 64 v
    (starts bnewRow → 4 ≤ b → b ≤ 16 → (needArea pasid 0 0).run q = .ok (ar, s1) →
      (holdsFields ar [(0, hHfree, 0)] s1 = some s2 → answers bnewRow (withStatus 5 0) s2) ∧
      (∀ n next, n ≠ 0 → holdsFields ar [(0, hHfree, n), (n, bNext, next)] s1 = some s2 →
        writesFields ar [(0, hHfree, next)] s2 = some s3 → (uZero ar.pasid (ar.base + 1024 * n) 1024).run s3 = .ok ((), s4) →
        writesFields ar ([(n, bState, 1), (n, bSlog, b), (n, bHcnt, 1)] ++ (List.range 8).map (fun d => (n, bDir d, noPage)) ++
          [(n, bCowpg, noPage)]) s4 = some s5 → answers bnewRow (withStatus 0 n) s5)) ∧
    (starts brsvRow → named 0 → 1 ≤ b → b ≤ 4096 →
      ∀ st first copy, (reserve ar h b).run s1 = .ok ((st, first, copy), s2) →
      (∀ k slot, isHead sid = false → s1.task? (tileOf sid) = some k → k.freeSlot = some slot →
        let k' := k.takeSlot slot (numberOf sid) .sequence 0
        let w := count (st * 2 ^ 56 + (k'.slotId slot).toNat * 2 ^ 40 + first)
        (copy = none → answers brsvRow w (s2.updTask (tileOf sid) fun _ => k'.endSlot slot false)) ∧
        (∀ src dst len, copy = some (src, dst, len) →
          let cw : Cow := { pasid, handle := h, src, dst, len, sid, task := (k'.launch, k'.index),
                            slot := some (slot, (k'.slot slot).gen), first, landed := none, wait := .none }
          answers brsvRow w { (s2.updTask (tileOf sid) fun _ => k') with cows := FMap.set s2.cows s2.own cw })) ∧
      (isHead sid = true → headCow q sid = none → copy = none → answers brsvRow (withStatus st first) s2)) ∧
    (∀ key cw ok, starts brsvRow → isHead sid = true → headCow q sid = some (key, cw) → cw.landed = some ok →
      answers brsvRow (withStatus (if ok then 0 else 7) cw.first) { q with cows := FMap.erase q.cows key }) ∧
    (∀ n rsv fell slog, holdsFields ar [(h, bRsv, rsv), (h, bFell, fell), (h, bSlog, slog)] s1 = some s2 →
      let pages := (List.range ((rsv + n - 1) / sppOf slog - rsv / sppOf slog + 1)).map (rsv / sppOf slog + ·)
      (fell + 4096 < rsv + n → (reserve ar h n).run s1 = .ok ((1, rsv, none), s2)) ∧
      (rsv + n ≤ fell + 4096 → maxsOf slog < rsv + n → (reserve ar h n).run s1 = .ok ((4, rsv, none), s2)) ∧
      (∀ ents dirs free, rsv + n ≤ fell + 4096 → rsv + n ≤ maxsOf slog → (ar.entries h pages).run s2 = .ok (ents, s3) →
        let need := ents.filter fun e => !entV e.2 || entCow e.2
        (ar.absentDirs h (need.map (·.1))).run s3 = .ok (dirs, s4) → holdsFields ar [(0, hNfree, free)] s4 = some s5 →
        (free < need.length + dirs → (reserve ar h n).run s1 = .ok ((2, rsv, none), s5)) ∧
        (need.length + dirs ≤ free → (need.forM (ar.ownPage h)).run s5 = .ok ((), s6) →
          writesFields ar [(h, bRsv, rsv + n)] s6 = some s7 →
          (need.find? (fun e => entCow e.2) = none → (reserve ar h n).run s1 = .ok ((0, rsv, none), s7)) ∧
          (∀ e own, need.find? (fun e => entCow e.2) = some e → (ar.entry h e.1).run s7 = .ok (own, s8) →
            (reserve ar h n).run s1 = .ok ((0, rsv, some (entPage e.2, entPage own, entCowlim e.2 * 2 ^ slog)), s8))))) ∧
    (∀ rsv slog hole fell, named b → b < 2 ^ 32 → 1 ≤ c → c ≤ 4096 →
      holdsFields ar [(h, bRsv, rsv), (h, bSlog, slog), (h, bHole, hole), (h, bFell, fell)] s1 = some s2 → b + c ≤ rsv →
      let x := (List.range c).foldl (fun x i => if isClosed x.1 x.2.1 (b + i) then x
        else ((closeSlot x.1 x.2.1 (b + i)).1, (closeSlot x.1 x.2.1 (b + i)).2, x.2.2 + 1)) (hole, fell, 0)
      (starts bcmtRow → writesFields ar [(h, bHole, x.1), (h, bFell, x.2.1)] s2 = some s3 →
        answers bcmtRow (withStatus (if x.2.2 < c then 3 else 0) x.2.2) s3) ∧
      (∀ x, starts bvoidRow →
        (closeRun ar h slog (some (unitOf sid)) ((List.range c).map (b + ·)) (hole, fell, 0)).run s2 = .ok (x, s3) →
        writesFields ar [(h, bHole, x.1), (h, bFell, x.2.1)] s3 = some s4 →
        answers bvoidRow (withStatus (if x.2.2 < c then 3 else 0) x.2.2) s4)) ∧
    (∀ fell, named 0 → holdsFields ar [(h, bFell, fell)] s1 = some s2 →
      (starts bfellRow → answers bfellRow (count fell) s2) ∧
      (starts bwaitRow → b < 2 ^ 32 → b ≤ fell → answers bwaitRow (withStatus 0 fell) s2) ∧
      (b < 2 ^ 32 → fell < b → ∀ cycle, (bwaitOp a (u.xa fl.b) (u.xa fl.c) true cycle pasid).run q = .ok (withStatus 6 fell, s2) ∧
        (bwaitOp a (u.xa fl.b) (u.xa fl.c) false cycle pasid).run q =
          .error (.halt (.hold s2 .bwait (if u.xa fl.c = 0 then none else some (cycle + c)))))) ∧
    (∀ floor fell, starts bforkRow → named 0 → b < 2 ^ 32 → holdsFields ar [(h, bFloor, floor), (h, bFell, fell)] s1 = some s2 →
      floor ≤ b → b ≤ fell → copying pasid h s2 = false →
      (holdsFields ar [(0, hHfree, 0)] s2 = some s3 → answers bforkRow (withStatus 5 0) s3) ∧
      (∀ n slog ps free, n ≠ 0 → holdsFields ar [(0, hHfree, n), (h, bSlog, slog)] s2 = some s3 →
        (ar.validEntries h ((b + sppOf slog - 1) / sppOf slog)).run s3 = .ok (ps, s4) → holdsFields ar [(0, hNfree, free)] s4 = some s5 →
        let dirs := ((List.range 8).filter fun d => ps.any fun e => e.1 / 16384 == d).length
        (free < dirs → answers bforkRow (withStatus 2 0) s5) ∧
        (∀ next, dirs ≤ free → holdsFields ar [(h, bFloor, floor), (0, hHfree, n), (n, bNext, next)] s5 = some s6 →
          writesFields ar [(0, hHfree, next)] s6 = some s7 → (ar.fillChild n slog floor b ps).run s7 = .ok ((), s8) →
          answers bforkRow (withStatus 0 n) s8))) ∧
    (∀ n, named 0 → holdsFields ar [(h, bHcnt, n)] s1 = some s2 →
      (starts bholdRow → n < 0xFFFFFFFF → writesFields ar [(h, bHcnt, n + 1)] s2 = some s3 → answers bholdRow 0 s3) ∧
      (starts brelRow → copying pasid h s1 = false → writesFields ar [(h, bHcnt, n - 1)] s2 = some s3 →
        (n - 1 ≠ 0 → answers brelRow (count (n - 1)) s3) ∧
        (n - 1 = 0 → (ar.destroy h).run s3 = .ok ((), s4) → answers brelRow 0 s4))) ∧
    (starts bstatRow →
      (∀ p ∈ [((0 : BitVec 4), bRsv), (1, bFell), (2, bFloor), (3, bHcnt), (4, bNpages), (6, bSlog)], ∀ v, fl.aux = p.1 → named 0 →
        holdsFields ar [(h, p.2, v)] s1 = some s2 → answers bstatRow (count v) s2) ∧
      (∀ fell rsv, fl.aux = 5 → named b → b < 2 ^ 32 → holdsFields ar [(h, bFell, fell), (h, bRsv, rsv)] s1 = some s2 →
        (rsv ≤ b → answers bstatRow 0 s2) ∧
        (∀ hole, b < rsv → fell ≤ b → holdsFields ar [(h, bHole, hole)] s2 = some s3 →
          answers bstatRow (if hole.testBit (b - fell) then 2 else 1) s3) ∧
        (∀ floor, b < rsv → b < fell → holdsFields ar [(h, bFloor, floor)] s2 = some s3 →
          (floor ≤ b → answers bstatRow 3 s3) ∧
          (∀ slog e, b < floor → holdsFields ar [(h, bSlog, slog)] s3 = some s4 → (ar.entry h (b / sppOf slog)).run s4 = .ok (e, s5) →
            answers bstatRow (if entPin e then 4 else 5) s5)))) ∧
    (∀ fell floor, starts bretireRow → named 0 → b < 2 ^ 32 → holdsFields ar [(h, bFell, fell), (h, bFloor, floor)] s1 = some s2 →
      b ≤ fell →
      (b ≤ floor → answers bretireRow 0 s2) ∧
      (∀ slog ents n, floor < b → writesFields ar [(h, bFloor, b)] s2 = some s3 → holdsFields ar [(h, bSlog, slog)] s3 = some s4 →
        (ar.validEntries h (b / sppOf slog)).run s4 = .ok (ents, s5) → let ps := ents.filter fun e => !entPin e.2
        (ar.retire h ps).run s5 = .ok ((), s6) → holdsFields ar [(h, bNpages, n)] s6 = some s7 →
        writesFields ar [(h, bNpages, n - ps.length)] s7 = some s8 → answers bretireRow (count ps.length) s8)) ∧
    (∀ rsv slog e, named b → b < 2 ^ 32 → holdsFields ar [(h, bRsv, rsv), (h, bSlog, slog)] s1 = some s2 → b < rsv →
      let p := b / sppOf slog
      (ar.entry h p).run s2 = .ok (e, s3) →
      (entV e = true →
        (starts bpinPinRow → (entPin e = true → answers bpinPinRow 0 s3) ∧
          (∀ n, entPin e = false → holdsFields ar [(h, bNpins, n)] s3 = some s4 → n < 64 →
            writesFields ar [(h, bNpins, n + 1)] s4 = some s5 → (ar.putEntry h p (e + 2)).run s5 = .ok ((), s6) →
            answers bpinPinRow 0 s6)) ∧
        (starts bpinUnpinRow → (entPin e = false → answers bpinUnpinRow 0 s3) ∧
          (∀ n floor, entPin e = true → holdsFields ar [(h, bNpins, n)] s3 = some s4 →
            writesFields ar [(h, bNpins, n - 1)] s4 = some s5 → holdsFields ar [(h, bSlog, slog), (h, bFloor, floor)] s5 = some s6 →
            (floor < (p + 1) * sppOf slog → (ar.putEntry h p (e - 2)).run s6 = .ok ((), s7) → answers bpinUnpinRow 0 s7) ∧
            (∀ m, (p + 1) * sppOf slog ≤ floor → (ar.release (entPage e)).run s6 = .ok ((), s7) →
              (ar.putEntry h p 0).run s7 = .ok ((), s8) → holdsFields ar [(h, bNpages, m)] s8 = some s9 →
              writesFields ar [(h, bNpages, m - 1)] s9 = some s10 → answers bpinUnpinRow 0 s10)))) ∧
      (∀ floor va x, holdsFields ar [(h, bFloor, floor)] s3 = some s4 → floor ≤ b ∨ entPin e = true → copying pasid h s4 = false →
        (ar.pageVa (entPage e)).run s4 = .ok (va, s5) → translate s5 (agentOf s5 sid u) va .load = (.ok x, s6) →
        (starts baddrHeadRow → isHead sid = true → answers baddrHeadRow (count (va + b % sppOf slog * 2 ^ slog)) s6) ∧
        (starts tmloadRow → (ar.reference (entPage e)).run s6 = .ok ((), s7) →
          let l := tmOf s6 sid
          let ent := tmEntry { ar, h, slog, s := b, b := p, e, rsv, va } (fl.aux == 1)
          (tmVictim l ent = some none → answers tmloadRow (count va) (s7.setTm sid (l ++ [ent]))) ∧
          (∀ v, tmVictim l ent = some (some v) → (tmRelease ar v).run s7 = .ok ((), s8) →
            answers tmloadRow (count va) (s8.setTm sid (l.erase v ++
              [{ ent with lock := fl.aux == 1 || (v.handle == ent.handle && v.base == ent.base && v.lock) }])))))) ∧
    (∀ key k ar2 u1 u2 u3, FMap.get? s.cows key = some k → k.landed = none → k.wait = .none →
      (needArea k.pasid 0 0).run s = .ok (ar2, u1) → (cowMove ar2 k).run u1 = .ok ((), u2) →
      (cowFinish key k none).run u2 = .ok ((), u3) →
      exec (.cowCopyLand key) s = .next u3 ∧
      (∀ sl, k.slot = some sl → FMap.get? u3.cows key = none))

/-! ### The loom and the scheduler -/

/-- Launches and their tasks (05 R140, R142, R150, R152, R163, R164, R170; 16 R430; 17 R447). A launch with a dependence
that has not completed ends CANCELLED with DEPFAIL, any other is ready in its turn; the gang that the loom chooses
takes tiles of its cluster, and a cluster is kept for the highest-ranked one when it fits nowhere; a gang that was
pre-empted is restored when it is the one chosen; a task that is over leaves its tile, and its record says how; a
cancellation reaches the launch, or the object, that it names; a lost restartable task starts again at ENTRY, beside
its gang, or with it. Readings of the model: log 25, 35, 60, 84, 93, 104. -/
def Obligations.LaunchesRun : Prop :=
  ∀ (s : State) (lid : Nat) (l : Launch), s.launch? lid = some l →
    (depsOver s l = true → (s.depStates l).all (· == some .completed) = false →
      ∃ s' l', exec (.launchReady lid) s = .next s' ∧ s'.launch? lid = some l' ∧ l'.terminal = some .cancelled ∧ l'.code = 0x10) ∧
    (depsOver s l = true → (s.depStates l).all (· == some .completed) = true → stepInOrder s l = true → l.desc.isSome = true →
      ∃ s' l', exec (.launchReady lid) s = .next s' ∧ s'.launch? lid = some l' ∧ l'.ready = true ∧
        l'.slack = slackOf l (s.tilesHeld lid) s.cycle ∧ s'.mem = s.mem ∧ s'.strands = s.strands) ∧
    (∀ q c, q.lid = lid → unchecked s = [] → choice s.reserve = .place q c →
      ∃ s' l', exec .placeGang s = .next s' ∧ s'.launch? lid = some l' ∧
        (FMap.get? l'.gangs q.g).map (·.cluster) = some (some c) ∧
        ∀ p ∈ (openMembers q.l q.g).zip (freeTiles s.reserve c (lockstepOf s.reserve q.l)),
          ∃ k, s'.task? p.2 = some k ∧ k.launch = lid ∧ k.index = p.1 ∧ (s'.strand? (8 * p.2)).isSome = true) ∧
    (∀ q qs, candidates s = q :: qs → q.lid = lid → chooseCluster s q [] = none → s.loom.reserved = none →
      s.reserve = { s with loom := { s.loom with reserved := (reserveCluster s q).map fun c => (c, lid, q.g) } } ∧
      (unchecked s = [] → choice s.reserve = .nothing → exec .placeGang s = .next s.reserve)) ∧
    (∀ q c, q.lid = lid → choice s.reserve = .restore q c →
      exec (.taskRestore lid q.g) s = .next (s.reserve.restoreGang q c)) ∧
    (∀ tile k e, s.task? tile = some k → k.launch = lid → taskEnd s tile = some e → (∀ p sub va, k.ending ≠ .on p sub va) →
      k.tm = [] → l.desc.isSome = true →
      ∃ s' l', exec (.taskComplete tile) s = .next s' ∧ s'.task? tile = none ∧ (∀ i ∈ strandIds tile, s'.strand? i = none) ∧
        s'.launch? lid = some l' ∧ (l'.taskRec k.index).phase = .done e) ∧
    (l.terminal = none → ∃ s' l', exec (.cancelAccept 1 lid) s = .next s' ∧ s'.launch? lid = some l' ∧ l'.cancelled = true) ∧
    (∀ level id n x, s.target level id none = some (.object n) → s.object? n = some x → x.terminal = none →
      ∃ s' x', exec (.cancelAccept level id) s = .next s' ∧ s'.object? n = some x' ∧ x'.cancelled = true) ∧
    (∀ i gang, FMap.get? l.gangs (i / l.gangSize) = some gang → (l.taskRec i).phase = .unplaced →
      (l.taskRec i).placedOnce = true → l.restart = true → l.terminal = none → l.cancelled = false → l.rest = false →
      (∀ tile, againTile s.reserve l (i / l.gangSize) gang = some tile → (s.reserve.snapshot l i true).1 = true →
        ∃ s' k' t', exec (.taskReexec lid i) s = .next s' ∧ s'.task? tile = some k' ∧ k'.launch = lid ∧ k'.index = i ∧
          s'.strand? (8 * tile) = some t' ∧ t'.pc = l.entry) ∧
      (∀ q c, gang.cluster = none → choice s.reserve = .restore q c → q.lid = lid → q.g = i / l.gangSize →
        exec (.taskReexec lid i) s = .next (s.reserve.restoreGang q c)))

/-- The loom's clocks: slack is recomputed (05 R161), a launch is classified when its window has ended (05 R162), a gang
takes the level that the device and its power ask for at the start of a window of 8 cycles (05 R167, R168), a power
limit moves one gang by one step (05 R168), and a yield mark is gone 64 cycles after it was set (05 R154).
Readings of the model: log 5, 61. -/
def Obligations.LoomClocks : Prop :=
  ∀ (s : State) (lid : Nat) (l : Launch), s.launch? lid = some l →
    (l.terminal = none → l.ready = true → ∃ s' l', exec .slackRecompute s = .next s' ∧ s'.launch? lid = some l' ∧
      l' = { l with slack := slackOf l (s.tilesHeld lid) s.cycle } ∧ s'.loom.swept = s.cycle ∧ s'.mem = s.mem) ∧
    (windowOver l s.cycle = true → ∃ s', exec (.classifyWindowEnd lid) s = .next s' ∧
      ∃ l', s'.launch? lid = some l' ∧ l' = { l with classEnded := true, classified := l'.classified } ∧
        l'.classified = if l.mb = 0 ∧ l.byteCount = 0 then none
          else some (decide (l.byteCount = 0 ∧ 0 < l.mb ∨ 8 * l.byteCount ≤ l.mb * 1024))) ∧
    (∀ g gang, FMap.get? l.gangs g = some gang → s.cycle % 8 = 0 → gang.cluster.isSome = true →
      gang.level ≠ max s.head.level.toNat gang.powerLevel →
      let n := max s.head.level.toNat gang.powerLevel
      ∃ s' l', exec (.throttleLevelApply lid g) s = .next s' ∧ s'.launch? lid = some l' ∧
        FMap.get? l'.gangs g = some { gang with level := n } ∧
        ∀ tile ∈ s.gangTiles lid g, (s'.tile tile).throttle = n ∧ s'.task? tile = s.task? tile) ∧
    (∀ above p, firstBy (if above then powerBefore else fun a b => powerBefore b a) ((runningGangs s).filter fun q =>
        if above then decide (q.2.2.powerLevel < 7) else decide (0 < q.2.2.powerLevel)) = some p → p.1.1 = lid →
      ∀ gang, FMap.get? l.gangs p.2.1 = some gang →
      ∃ s' l', exec (.powerLimitChange above) s = .next s' ∧ s'.launch? lid = some l' ∧
        FMap.get? l'.gangs p.2.1 = some { gang with powerLevel := if above then gang.powerLevel + 1 else gang.powerLevel - 1 }) ∧
    (∀ sid t c, s.strand? sid = some t → t.yielding = some c → c + 64 < s.cycle →
      ∃ s', exec (.yieldMarkExpire sid) s = .next s' ∧ s'.strand? sid = some { t with yielding := none } ∧ SameWorld s s')

/-- Pre-emption (05 R165; 11 R319; 16 R418 to R425). A request reaches every task of the gangs chosen; a strand at a
stop point with every older instruction complete stops with its registers and queues as they are, and one that cannot
stop there passes it; an engine stops with its running command and its progress; a task that has stopped whole is
saved; a strand that reaches no stop point in time is reported; a stalled strand traps with cause STALLED, or is
marked while its handler runs. Readings of the model: log 24, 48, 72, 83, 95. -/
def Obligations.PreemptionRuns : Prop :=
  ∀ (s : State),
    (∀ vs, preemption s = some vs → ∃ s', exec .preemptRequest s = .next s' ∧
      s'.loom.reserved = s.loom.reserved ∧ s'.mem = s.mem ∧ s'.strands = s.strands ∧
      ∀ v ∈ vs, ∀ tile ∈ s.gangTiles v.lid v.g, ∀ k, s.task? tile = some k →
        (s'.task? tile).map (·.preReq) = some (some s.cycle)) ∧
    (∀ sid t k, s.strand? sid = some t → s.task? (tileOf sid) = some k → isHead sid = false → stopNow s sid k t = true →
      ∃ s' t', exec (.preemptStop sid) s = .next s' ∧ s'.strand? sid = some t' ∧ t'.run = .stopped ∧ t'.pc = t.pc ∧
        t'.x = t.x ∧ t'.v = t.v ∧ t'.p = t.p ∧ SameQueues t t' ∧ SameSpecial t t' ∧ s'.mem = s.mem ∧
        ∀ j, j ≠ sid → s'.strand? j = s.strand? j) ∧
    (∀ sid t k, s.strand? sid = some t → s.task? (tileOf sid) = some k → isHead sid = false → mustPass k t s.cycle = true →
      exec (.stopPointPass sid) s = .next (s.setStrand sid { t with stop := none, passed := true })) ∧
    (∀ tile e k c rest, s.task? tile = some k → queueOf k e = c :: rest → preempting s tile k = true → k.ended = false →
      engStopped k e = false → endsNow s tile k e = false → (c :: rest).length ≤ 16 →
      ∃ s' k', exec (.enginePreemptStop tile e) s = .next s' ∧ s'.task? tile = some k' ∧ s'.mem = s.mem ∧
        queueOf k' e = c.stopped e :: rest ∧ k'.engStop = k.engStop ||| engBit e ∧
        ∀ t, s.strand? (8 * tile + c.issuer) = some t → c.issuer < 8 → c.phase ≠ 0 → c.disowned = false →
          ∃ t', s'.strand? (8 * tile + c.issuer) = some t' ∧
            (e = .ce → t'.cePidx = pidxOf (c.stopped .ce)) ∧ (e = .me → t'.mePidx = pidxOf (c.stopped .me))) ∧
    (∀ tile k slot s2 s3, s.task? tile = some k → preempting s tile k = true → k.ended = false → k.engStop = 3 →
      (∀ p sub va, k.ending ≠ .on p sub va) → freeSave s k.pasid = some slot →
      s2 = (s.flushAll tile).updTask tile (fun k => { k with ipins := [], l2pins := [] }) →
      (writeImage tile slot k).run s2 = .ok ((), s3) →
      ∃ s', exec (.taskSave tile) s = .next s' ∧ s'.task? tile = none ∧ (k.pasid, slot) ∈ s'.loom.slots ∧ s'.mem = s3.mem ∧
        ∀ i ∈ strandIds tile, s'.strand? i = none) ∧
    (∀ lid g tile k c, tile ∈ s.gangTiles lid g → s.task? tile = some k → k.preReq = some c → k.nosafe = false →
      c + s.dev.wdint.toNat ≤ s.cycle → notStopped s tile ≠ [] →
      ∃ s' k', exec (.preemptNosafe lid g) s = .next s' ∧ s'.task? tile = some k' ∧ k'.nosafe = true ∧
        s'.strands = s.strands) ∧
    (∀ sid t0, s.strand? sid = some t0 → let t := settle s.cycle t0
      stalled s sid t = true →
      (t.inh = true → exec (.watchdogStall sid) s = .next (s.setStrand sid { t with watchdog := true })) ∧
      (∀ place sl i, t.inh = false → t.xvec ≠ 0 → oldestWait t = some (place, sl, i) →
        drainedBefore t (seqOf t place) = true → (place = .fetch → t.ewin = []) →
        ∃ s' t', exec (.watchdogStall sid) s = .next s' ∧ s'.strand? sid = some t' ∧
          (place = .fetch → t'.xpc = t.pc ∧ t'.x = t.x) ∧
          (∀ e rest, place = .window → t.ewin = e :: rest → t'.xpc = e.snap.pc) ∧
          t'.xcause = 0x11 ∧ t'.xval = (1 : BitVec 8) ++ BitVec.ofNat 56 (((rawOf i).map fun r => r.opc.toNat).getD 0) ∧
          t'.pc = t.xvec ∧ t'.pl = true ∧ t'.ppl = t.pl ∧ t'.inh = true ∧
          (place = .fetch ∨ t.early = [] → s'.mem = s.mem) ∧
          (place = .window →
            s'.mem = (((s.setStrand sid t).unarrive sid).unstore sid (undone t (seqOf t .window))).mem)))

/-! ### Faults, reliability, the headstock's events -/

/-- A request that waits on pair `p` as its resolution leaves it (16 R433). -/
def resolved_ (p : PagePair) (fail : Bool) : FaultWait → FaultWait
  | .on q sub va => if q = p then (if fail then .failed sub va else .none) else .on q sub va
  | w => w

/-- The gathering window (07 R237 to R239; 16 R432, R433). A fault of an engine joins the open window, or opens one, or
waits outside a full one, as a pair of its context and 128 KiB page; a window that is due is written to its buffer and
raises FAULTLIST, and what waited outside it opens the next, of at most 4,096 pairs; FLACK frees a buffer; FRES RETRY lets every request that waits on the pair go on, and FRES FAIL fails
it: of an engine, a task's end, a strand at a home, a stream, a host command, a gang, a copy, a coder or a queue, which FAIL
stops with FETCHFAIL (20 R472). Readings of the model: log 31, 46, 54, 63. -/
def Obligations.FaultWindow : Prop :=
  ∀ (s : State),
    (∀ pasid (page : Word) sub agent, gathers sub = true → ∃ s', exec (.gatheredFault pasid page sub agent) s = .next s' ∧
      s'.faults.opened.isSome = true ∧ s'.mem = s.mem ∧ s'.strands = s.strands ∧
      (s.faults.opened = none → s'.faults.opened = some s.cycle) ∧
      ∃ p ∈ s'.faults.pairs ++ s'.faults.outside, p.pasid = pasid ∧ p.page = page >>> 17 <<< 17 ∧
        p.agents &&& agentBit agent = agentBit agent) ∧
    (Memory.wf s.mem = true → windowDue s = true → ∃ s', exec .faultWindowClose s = .next s' ∧
      s'.faults.seq = s.faults.seq + 1 ∧ s'.faults.pairs = s.faults.outside.take 4096 ∧ s'.faults.outside = s.faults.outside.drop 4096 ∧
      s'.head.intpend.getLsbD 1 = true ∧
      (s.faults.seq.getLsbD 0 = false → s'.faults.busy0 = true ∧ s'.faults.busy1 = s.faults.busy1) ∧
      (s.faults.seq.getLsbD 0 = true → s'.faults.busy1 = true ∧ s'.faults.busy0 = s.faults.busy0) ∧
      ∀ k < (listBytes s.faults s.cycle).length,
        Memory.read s'.mem ((if s.faults.seq.getLsbD 0 then s.dev.flbase1 else s.dev.flbase0).toNat + k) =
          (listBytes s.faults s.cycle).getD k 0) ∧
    (∀ b, ∃ s', exec (.flack b) s = .next s' ∧ s'.faults.busy0 = (s.faults.busy0 && b) ∧
      s'.faults.busy1 = (s.faults.busy1 && !b) ∧ s'.faults.pairs = s.faults.pairs) ∧
    (∀ (pasid : BitVec 20) (page : Word) (fail : Bool),
      let p : PagePair := (pasid, page.toNat / 2 ^ 17)
      let w := resolved_ p fail
      ∃ s', exec (if fail then .fresFail pasid page else .fresRetry pasid page) s = .next s' ∧
        (∀ tile, s'.task? tile = (s.task? tile).map fun k =>
          { k with ceq := k.ceq.map (fun c => { c with waiting := w c.waiting }),
                   meq := k.meq.map (fun c => { c with waiting := w c.waiting }), ending := w k.ending }) ∧
        (∀ sid, s'.strand? sid = (s.strand? sid).map fun t => { t with home := w t.home }) ∧
        (∀ n, s'.stream? n = (s.stream? n).map fun t => { t with writeBack := w t.writeBack, unpick := w t.unpick }) ∧
        (∀ n, s'.cmd? n = (s.cmd? n).map fun c => { c with wait := w c.wait }) ∧
        (∀ n, s'.launch? n = (s.launch? n).map fun l =>
          { l with gangs := l.gangs.map fun g => (g.1, { g.2 with wait := w g.2.wait }) }) ∧
        s'.cows = s.cows.map (fun q => (q.1, { q.2 with wait := w q.2.wait })) ∧
        s'.late = s.late.map (fun o => { o with wait := w o.wait }) ∧
        s'.loom.orphans = s.loom.orphans.map (fun o => { o with wait := w o.wait }) ∧
        s'.su.encoders = s.su.encoders.map (fun q => (q.1, q.2.map fun k => { k with wait := w k.wait })) ∧
        s'.su.decoders = s.su.decoders.map (fun q => (q.1, { q.2 with wait := w q.2.wait })) ∧
        (∀ q h, Memory.wf s.mem = true → s.queue? q = some h → h.wait.isOn p = true →
          (∀ e ∈ s.host.queues, e.1 ≠ q → e.2.qcb + 64 ≤ h.qcb ∨ h.qcb + 64 ≤ e.2.qcb) →
          s'.queue? q = some { h with wait := .none } ∧
          (fail = true → qcbState s' h.qcb = qStopped ∧ s'.readLocNat (h.qcb + 0x20) 4 = 3) ∧
          (fail = false → qcbState s' h.qcb = if qcbState s h.qcb = qFetchFault then qRun else qcbState s h.qcb)))

/-- Reliability and the headstock's own events (17 R442, R446; 19 R453 to R457; 20 R480). An interrupt is delivered to
headstock strand 0; readings are taken and THERMAL raised at an edge; failed firmware starts again; a failed channel's
sectors are poisoned; a failed tile holds no task; a rollback that begins discards what the strand has queued, and one
that ends restores the snapshot at the turn's address. Readings of the model: log 38, 51, 52, 71. -/
def Obligations.RecoveryRuns : Prop :=
  ∀ (s : State),
    (∀ b k, interruptDue s = some (b, k) → b.xvec ≠ 0 → ∃ s' t', exec .headstockInterrupt s = .next s' ∧
      s'.strand? 1536 = some t' ∧ TookTrap b t' b.pc (BitVec.ofNat 8 (0x20 + k)) 0 0 ∧ s'.head = s.head ∧
      s'.mem = (unstoreHead s b).mem ∧ (∀ t, s.strand? 1536 = some t → t.early = [] → s'.mem = s.mem)) ∧
    (∀ rs : List (BitVec 16), sensorDue s = true → rs.length = 32 → ∃ s', exec (.sensorUpdate rs) s = .next s' ∧
      s'.head.sensed = some s.cycle ∧
      (∀ k : Fin 32, s'.head.tsen[k] = rs.getD k.val 0) ∧ s'.head.talertHi = s.head.talertHi ∧
      s'.head.intpend = if (s'.head.above && !s.head.above) || (s'.head.below && !s.head.below) then s.head.intpend ||| 1
        else s.head.intpend) ∧
    (∀ fw, s.host.firmware = some fw → ∃ s' t', exec .headstockRestart s = .next s' ∧ s'.strand? 1536 = some t' ∧
      t'.pc = fw.entry ∧ t'.pl = true ∧ s'.head.failed = false ∧ s'.head.intpend = s.head.intpend ∧
      ∀ k, 1536 < k → k < 1540 → s'.strand? k = none) ∧
    (∀ base len, base + len ≤ tier0Size → ∃ s', exec (.hbmChannelFailure base len) s = .next s' ∧ s'.mem = s.mem ∧
      ∀ l, base ≤ l → l < base + len → isPoisoned s'.poison l 1 = true) ∧
    (∀ tile, tile < 192 → (s.tile tile).failed = false → ∃ s', exec (.tileFailure tile) s = .next s' ∧
      (s'.tile tile).failed = true ∧ ((s.tile tile).shadow = none → s'.task? tile = none)) ∧
    (∀ sid t k r, s.strand? sid = some t → s.task? (tileOf sid) = some k → isHead sid = false → k.ended = false →
      t.rollback = some r →
      (t.rolled = false → t.ewin = [] → drained (settle s.cycle t) = true → s.unpicking sid = false →
        ∃ s' t', exec (.rollback sid) s = .next s' ∧
        s'.strand? sid = some t' ∧ t'.rolled = true ∧ t'.queuesEmpty = true ∧ t'.barPend = [] ∧ t'.x = t.x ∧
        t'.snap = t.snap) ∧
      (∀ q, t.rolled = true → t.snap = some q → refetched k (numberOf sid) t.turn = true →
        ∃ s' t' k', exec (.rollback sid) s = .next s' ∧ s'.strand? sid = some t' ∧ s'.task? (tileOf sid) = some k' ∧
          t'.x = q.x ∧ t'.v = q.v ∧ t'.p = q.p ∧ t'.marks = q.marks ∧ t'.loops = q.loops ∧ t'.hctl = q.hctl ∧ t'.fq = q.fq ∧
          t'.bobbin = q.bobbin ∧ t'.pc = t.turnPc ∧ t'.rollback = none ∧ k'.fifo = q.fifo ∧ s'.mem = s.mem))

/-! ### Streams and video -/

/-- Streams (14 R382, R383, R387 to R392). A step that is released takes the next index and deadline; one that has
ended is counted, late when its deadline has passed; an encoder takes the oldest descriptor of its stream, or discards
a stale one, reads the frame, and writes its record; a decoder delivers a picture, or an error; an input is recorded
in its ring. Readings of the model: log 15, 57, 59, 62, 90, 92. -/
def Obligations.StreamsRun : Prop :=
  ∀ (s : State),
    (∀ n t, s.stream? n = some t → stepReleased s t = true → ∃ s' t', exec (.stepStart n) s = .next s' ∧
      s'.stream? n = some t' ∧ t'.get cStepno = (t.get cStepno + 1) % 2 ^ 32 ∧ t'.get cCurdl = t.get cDeadline ∧
      t'.get cDeadline = (t.get cDeadline + t.get cPeriod) % 2 ^ 64 ∧ t'.get cStartcyc = s.cycle % 2 ^ 64 ∧
      t'.step.isSome = true ∧ s'.mem = s.mem) ∧
    (∀ n t, s.stream? n = some t → stepOver s t = true → ∃ s' t' o, exec (.stepEnd n) s = .next s' ∧
      s'.stream? n = some t' ∧ t'.step = none ∧ t.step.bind s.object? = some o ∧
      t'.get cMisses = (t.get cMisses + if t.get cCurdl < o.endCyc then 1 else 0) % 2 ^ 32 ∧
      t'.get (cCost t.stepRung) = newCost (t.get (cCost t.stepRung)) ((o.endCyc : Int) - t.get cStartcyc)) ∧
    (∀ enc n t, takeDue s enc = some (n, t) → ∃ s' t', exec (.encoderTake enc) s = .next s' ∧ s'.stream? n = some t' ∧
      s'.mem = s.mem ∧ t'.get cEget = (t.get cEget + 1) % 2 ^ 32 ∧
      let d := (ringRead s (t.get cEq + 32 * (t.get cEget % t.get cEqdepth))).1
      (staleDesc t d = true → t'.get cDiscards = (t.get cDiscards + 1) % 2 ^ 32 ∧ s'.su.encoders = s.su.encoders) ∧
      (staleDesc t d = false → ∃ k, s'.takes enc = s.takes enc ++ [k] ∧ k.stream = n ∧ k.desc = d ∧ k.frame = s.free)) ∧
    (∀ enc i k t, (s.takes enc)[i]? = some k → encodeOver s k = true →
      (∀ j q, j < i → (s.takes enc)[j]? = some q → encodeOver s q = true → (s.emitTake enc j q).su = s.su) →
      s.liveStream k.stream = some t → (∀ p sub va, k.wait ≠ .on p sub va) → t.idle = true →
      (∀ ps s1, k.readDone = false → reachRows (unitAgent t.pasid false) k.wait .load (frameRows k.desc) [] s = (.ok ps, s1) →
        let p := Config.encodedFrame (codingOf t k) (samplesOf (readParts s1 ps).1) k.frame
        ∃ s' q, exec (.encoderRecordEmit enc) s = .next s' ∧ s'.mem = s1.mem ∧ s'.takes enc = (s.takes enc).set i q ∧
          q.readDone = true ∧ q.wait = .none ∧
          (t.get cOsize < 2 * p.length → q.dropped = true ∧ q.oversize = true ∧ q.payload = k.payload) ∧
          (2 * p.length ≤ t.get cOsize → q.dropped = k.dropped ∧ q.payload = p ∧ q.key = (codingOf t k).key)) ∧
      (∀ ps qs rs s1 s2 s3, k.readDone = true →
        unitReach s (unitAgent t.pasid false) .video k.wait .load (t.get cOring) 72 = (.ok ps, s1) →
        let line := (readParts s1 ps).1
        let put := field line 0 8
        let rec_ := recordOf t k
        rec_.length ≤ t.get cOsize - put % t.get cOsize → put - field line 64 8 + rec_.length ≤ t.get cOsize →
        unitReach s1 (unitAgent t.pasid false) .video k.wait .store (t.get cOring + 128 + put % t.get cOsize) rec_.length =
          (.ok qs, s2) →
        unitReach s2 (unitAgent t.pasid false) .video k.wait .store (t.get cOring) 8 = (.ok rs, s3) →
        ∃ s', exec (.encoderRecordEmit enc) s = .next s' ∧ s'.takes enc = (s.takes enc).eraseIdx i ∧
          s'.mem = (writeParts (writeParts s3 qs rec_ false) rs (leBytes 8 (put + rec_.length)) false).mem)) ∧
    (∀ dec j ps s1, FMap.get? s.su.decoders dec = some j →
      unitReach s (unitAgent j.pasid false) .video j.wait .load j.addr.toNat j.len = (.ok ps, s1) →
      (Config.decodeOk (readParts s1 ps).1 = false →
        exec (.decodeComplete dec) s = .next (s1.deliverPicture dec j none) ∧
        FMap.get? (s1.deliverPicture dec j none).su.decoders dec = none) ∧
      (∀ qs s2, Config.decodeOk (readParts s1 ps).1 = true →
        reachRows (unitAgent j.pasid false) j.wait .store (pictureRows s1.free j.out.toNat) [] s1 = (.ok qs, s2) →
        exec (.decodeComplete dec) s = .next
          ({ (writeParts s2 qs (pictureBytes s1.free) false) with free := s1.free + 1 }.deliverPicture dec j
            (some s1.free)))) ∧
    (∀ n i t ps s1, s.liveStream n = some t → t.idle = true → t.unpick = .none → t.lost = [] → t.get cFlags % 2 = 0 →
      i.error = true ∨ t.get cPtsbase + t.get cTake * t.get cPtsstep ≤ i.pts.toNat →
      let fl := if i.error then 8 else 0
      let seq := t.get cIput
      unitAccess (s.setStream n { t with inbox := [.input i none] }) (unitAgent t.pasid false) .store
        (t.get cIring + 64 * (seq % t.get cIsize)) 64 = (.parts ps, s1) →
      ∃ s' t', exec (.inputArrive n i) s = .next s' ∧ s'.stream? n = some t' ∧ t'.get cIput = (seq + 1) % 2 ^ 32 ∧
        t'.inbox = [] ∧ t'.heads = t.heads ∧ s'.mem = (writeParts s1 ps (inputBytes t i fl seq) false).mem)

/-! ### The host's side -/

/-- A doorbell walks to the QCB of a queue that has none yet, or that is idle (20 R471). -/
def WalksAnew (s : State) (q : Nat) : Prop :=
  s.queue? q = none ∨ ∃ h, s.queue? q = some h ∧ h.absent = false ∧ qcbState s h.qcb = qIdle

/-- The host's queues (20 R470 to R475, R477, R479). A doorbell walks to the QCB of a new or an idle queue, sets TAIL and the
state of one that has work, stops it with BADTAIL when the TAIL is outside the ring, raises QABSENT when the walk finds it absent,
and is counted when its walk is ignored; QRESUME lets a queue in
FETCH_FAULT run again; a ring fetch reads the next packet, or puts the queue in FETCH_FAULT; a packet accepted is
recorded with the next SEQ and HEAD goes past it, one that repeats a token is terminal at once as DUP, a malformed one
stops the queue with BADPKT; a command whose end is decided has it written in its entry.
Readings of the model: log 63, 66. -/
def Obligations.HostQueuesRun : Prop :=
  ∀ (s : State) (q : Nat), q < 8192 → Memory.wf s.mem = true →
    (∀ h (tail : Word), s.queue? q = some h → h.absent = false → qcbOk s h.qcb = true → qcbState s h.qcb = qRun →
      ∃ s', exec (.doorbell q tail) s = .next s' ∧ qcbTail s' h.qcb = tail.toNat ∧ qcbHead s' h.qcb = qcbHead s h.qcb ∧
        (qcbHead s h.qcb ≤ tail.toNat ∧ tail.toNat ≤ qcbHead s h.qcb + qcbSize s h.qcb →
          qcbState s' h.qcb = if qcbHead s h.qcb < tail.toNat then qRun else qIdle) ∧
        (¬ (qcbHead s h.qcb ≤ tail.toNat ∧ tail.toNat ≤ qcbHead s h.qcb + qcbSize s h.qcb) →
          qcbState s' h.qcb = qStopped ∧ s'.readLocNat (h.qcb + 0x20) 4 = 1) ∧
        s'.strands = s.strands ∧ ∀ l, l < h.qcb ∨ h.qcb + 64 ≤ l → Memory.read s'.mem l = Memory.read s.mem l) ∧
    (∀ (tail : Word) c s2, WalksAnew s q → walkQueue s q = (.at c, s2) → qcbOk s2 c = true →
      qcbState s2 c = qIdle ∨ qcbState s2 c = qRun →
      ∃ s', exec (.doorbell q tail) s = .next s' ∧ qcbTail s' c = tail.toNat ∧
        s'.queue? q = some { pasid := queuePasid s q, qcb := c, absent := false, tail := tail.toNat, wait := .none } ∧
        (qcbHead s2 c ≤ tail.toNat ∧ tail.toNat ≤ qcbHead s2 c + qcbSize s2 c →
          qcbState s' c = if qcbHead s2 c < tail.toNat then qRun else qIdle) ∧
        (¬ (qcbHead s2 c ≤ tail.toNat ∧ tail.toNat ≤ qcbHead s2 c + qcbSize s2 c) →
          qcbState s' c = qStopped ∧ s'.readLocNat (c + 0x20) 4 = 1) ∧
        s'.strands = s.strands ∧ ∀ l, l < c ∨ c + 64 ≤ l → Memory.read s'.mem l = Memory.read s2.mem l) ∧
    (∀ (tail : Word) s2, WalksAnew s q → walkQueue s q = (.absent, s2) →
      ∃ s', exec (.doorbell q tail) s = .next s' ∧ s'.head.intpend.getLsbD 2 = true ∧ s'.mem = s2.mem ∧
        s'.queue? q = some { pasid := queuePasid s q, qcb := 0, absent := true, tail := tail.toNat, wait := .none }) ∧
    (∀ (tail : Word) s2, WalksAnew s q → walkQueue s q = (.ignored, s2) →
      ∃ s', exec (.doorbell q tail) s = .next s' ∧ s'.queue? q = none ∧ s'.mem = s2.mem ∧
        s'.dev.dbdrop.toNat = min 0xFFFFFFFF (s2.dev.dbdrop.toNat + 1)) ∧
    (∀ tail : Word, s.queue? q = none → entryOf s (s.dev.qtroot.toNat + 8 * (queuePasid s q).toNat) = .ignored →
      ∃ s', exec (.doorbell q tail) s = .next s' ∧ s'.dev.dbdrop.toNat = min 0xFFFFFFFF (s.dev.dbdrop.toNat + 1) ∧
        s'.mem = s.mem) ∧
    (∀ h, s.queue? q = some h → h.absent = false → qcbState s h.qcb = qFetchFault →
      ∃ s', exec (.qresume q) s = .next s' ∧ qcbState s' h.qcb = qRun ∧ s'.queue? q = some { h with wait := .none }) ∧
    (∀ h qcb c n ns, fetchDue s q = true → s.queue? q = some h → runningQcb s q = some qcb → s.ctx? q = some c →
      wanted s qcb c = n :: ns →
      let va := qcbRing s qcb + 64 * (n % qcbSize s qcb)
      (∀ ps s1, unitAccess s (unitAgent h.pasid false) .load va 64 = (.parts ps, s1) →
        exec (.ringFetch q) s =
          .next (fetchPackets q qcb h.pasid ns { c with got := c.got ++ [(n, (readParts s1 ps).1)] } s1)) ∧
      (∀ sub at_ s1, unitAccess s (unitAgent h.pasid false) .load va 64 = (.fault sub at_, s1) → gathers sub = true →
        Memory.wf s1.mem = true →
        ∃ s', exec (.ringFetch q) s = .next s' ∧ qcbState s' qcb = qFetchFault ∧ s'.faults.opened.isSome = true)) ∧
    (∀ h qcb n p, acceptable s q = some (h, qcb, n, p) →
      (packetOk p = false → ∃ s', exec (.packetAccept q) s = .next s' ∧ qcbState s' qcb = qStopped ∧
        s'.readLocNat (qcb + 0x20) 4 = 2 ∧ s'.dev = s.dev ∧ s'.host.cmds = s.host.cmds) ∧
      (packetOk p = true → journalRoom s = true → ∃ s' c, exec (.packetAccept q) s = .next s' ∧
        s'.dev.jput = s.dev.jput + 1 ∧ qcbHead s' qcb = (n + 1) % 2 ^ 64 ∧ s'.cmd? (s.dev.jput.toNat + 1) = some c ∧
        c.packet = p ∧ c.q = q ∧ c.pasid = h.pasid ∧ c.ring = n ∧ c.acc = s.cycle ∧
        (repeated s h.pasid (field p 8 8) = none → c.started = false ∧ c.written = false ∧ c.done = none) ∧
        (∀ o, repeated s h.pasid (field p 8 8) = some o →
          c.written = true ∧ c.done = some (.completed, BitVec.ofNat 32 o)))) ∧
    (∀ n d, terminalDue s n = some d → ∃ s' c', exec (.commandTerminal n) s = .next s' ∧ s'.cmd? n = some c' ∧
      c'.done = some d ∧ c'.written = true)

/-- A command of the host: its row, its OPC, what it does, and whether its effect ends it (20 R474, R475). -/
structure HostRow where
  make : Nat → Instr
  opc : Nat
  op : Nat → HostCmd → Hm Unit
  ends : Bool

/-- The commands of 20 R474 but FEED. -/
def HostRows (row : HostRow) : Prop := row ∈ ([
   ⟨.launch, 0x01, launchOp, false⟩, ⟨.close, 0x02, hostCloseOp, true⟩, ⟨.hostCancel, 0x03, hostCancelOp, true⟩,
   ⟨.feedcfgCreate, 0x05, feedcfgCreateOp, true⟩, ⟨.feedcfgDestroy, 0x05, feedcfgDestroyOp, true⟩,
   ⟨.streamCreate, 0x06, streamCreateOp, true⟩, ⟨.streamUpdate, 0x06, streamUpdateOp, true⟩,
   ⟨.streamDestroy, 0x06, streamDestroyOp, true⟩, ⟨.jobstart, 0x07, jobstartOp, false⟩, ⟨.take, 0x08, takeOp, true⟩,
   ⟨.decode, 0x09, decodeOp, false⟩, ⟨.input, 0x0A, inputOp, false⟩, ⟨.inval, 0x0B, invalOp, true⟩,
   ⟨.hostFence, 0x0C, hostFenceOp, true⟩, ⟨.signal, 0x0D, signalOp, true⟩] : List HostRow)

/-- A command that may start and whose operation can be performed runs with that operation's effect: it is COMPLETED in
its entry, or goes on as an object of the loom, a decode or an input. One that breaks a limit is FAILED with BADARG, one
whose fault was resolved as failed with CMDFAULT, with no other effect (20 R474, R475, R481).
Readings of the model: log 46, 64. -/
def Obligations.HostCommandsRun : Prop :=
  ∀ (row : HostRow) (s : State) (n : Nat) (c : HostCmd), HostRows row → startable s n row.opc = some c →
    (∀ s2, c.wait.isFailed = false → (row.op n c).run s = .ok ((), s2) →
      exec (row.make n) s = .next s2 ∧ ∃ c2, s2.cmd? n = some c2 ∧ c2.packet = c.packet ∧
        (row.ends = true → c2.written = true ∧ c2.done = some (.completed, 0)) ∧ (row.ends = false → c2.started = true)) ∧
    (c.wait.isFailed = false → (row.op n c).run s = .error (.halt badArg) →
      exec (row.make n) s = .next (s.cmdDone n .failed 0x40) ∧
      ∃ c2, (s.cmdDone n .failed 0x40).cmd? n = some c2 ∧ c2.written = true ∧ c2.done = some (.failed, 0x40)) ∧
    (c.wait.isFailed = true → exec (row.make n) s = .next (s.cmdDone n .failed 0x41))

/-- The image of a STREAM command, read in the state `s`: its block and its head set, within every limit (14 R376, R377, R379);
`take` is the TAKE that the stream goes on with, when it has one. -/
def ReadsImage (c : HostCmd) (take : Option Nat) (s s2 : State) (img : List Byte) (hs : List HeadEnt) : Prop :=
  ∃ s1 bs, let nb := field img cNbolt.1 cNbolt.2
    let tab := if field img cHeadsel.1 cHeadsel.2 = 0 then cSeta else cSetb
    (uRead c.pasid (c.arg 1) 512).run s = .ok (img, s1) ∧ blockOk s1 img (c.arg 0) c.pasid = true ∧
    (uRead c.pasid (field img tab.1 tab.2) (16 * nb)).run s1 = .ok (bs, s2) ∧ hs = (List.range nb).map (headEntry bs) ∧
    headsOk bs hs (take.getD (field img cTake.1 cTake.2)) = true

/-- What commands of the host do, from the state and their arguments (05 R140; 14 R376 to R382, R391, R392, R398; 20 R474).
Readings of the model: log 64, 65, 66, 91, 110. -/
def Obligations.HostCommandEffects : Prop :=
  ∀ (s : State) (n opc : Nat) (c : HostCmd), startable s n opc = some c → c.wait.isFailed = false →
    let ok (s : State) : State := s.cmdDone n .completed 0
    let goesOn (s : State) : State := s.updCmd n fun c => { c with started := true, wait := .none }
    let opens (r : Nat × State) : Prop := ∀ o, r.2.object? r.1 = some o → o.closed = false ∧ o.cancelled = false
    let owns (k : Nat) (t : Stream) : Prop := s.liveStream k = some t ∧ k < 1024 ∧ t.pasid = c.pasid
    (∀ bs deps s1, opc = 0x01 → c.cls ≤ 8 → c.arg 2 ≠ 0 → c.arg 2 < 2 ^ 32 → c.arg 1 % 2 ^ 32 ≠ 0 → c.arg 1 / 2 ^ 32 ≠ 0 →
      c.arg 3 ≤ 64 → (c.arg 3 = 0 ∨ c.arg 4 % 4 = 0) →
      (if c.arg 3 = 0 then bs = [] ∧ s1 = s else (uRead c.pasid (c.arg 4) (4 * c.arg 3)).run s = .ok (bs, s1)) →
      deps = (List.range (c.arg 3)).map (fun i => field bs (4 * i) 4) → (∀ d ∈ deps, knownLaunch s1 c.pasid d = true) →
      let j := s1.ensureObject .job (c.arg 2) c.pasid none
      let st := j.2.ensureObject .step (c.arg 1 / 2 ^ 32) c.pasid (some j.1)
      let g := st.2.ensureObject .graph (c.arg 1 % 2 ^ 32) c.pasid (some st.1)
      opens j → opens st → opens g →
      exec (.launch n) s = .next (goesOn
        (g.2.addLaunch c.obj.toNat c.pasid (BitVec.ofNat 64 (c.arg 0)) deps (classOver c) n g.1 none))) ∧
    (∀ s1 s2 s3 img hs,
      (opc = 0x06 → c.arg 2 = 0 → c.arg 0 < 1024 → s.liveStream (c.arg 0) = none → ReadsImage c none s s1 img hs →
        (holdHeads c.pasid hs).run s1 = .ok ((), s2) →
        exec (.streamCreate n) s = .next (ok (s2.setStream (c.arg 0) (Stream.new img (BitVec.ofNat 64 (c.arg 1)) hs)))) ∧
      (∀ t, opc = 0x06 → c.arg 2 = 1 → owns (c.arg 0) t → t.inbox = [] → ReadsImage c (some (t.get cTake)) s s1 img hs →
        (holdHeads c.pasid hs).run s1 = .ok ((), s2) → (dropHeads c.pasid t.heads).run s2 = .ok ((), s3) →
        exec (.streamUpdate n) s = .next (ok (s3.setStream (c.arg 0)
          ({ t with img, heads := hs, home := BitVec.ofNat 64 (c.arg 1) }.put cTake (t.get cTake))))) ∧
      (∀ t, opc = 0x06 → c.arg 2 = 2 → owns (c.arg 0) t → t.inbox = [] → (dropHeads c.pasid t.heads).run s = .ok ((), s1) →
        exec (.streamDestroy n) s = .next (ok (closeJob
          { s1 with su := { s1.su with streams := FMap.erase s1.su.streams (c.arg 0) } } t)))) ∧
    (∀ t head raw s1 s2, opc = 0x07 → c.cls ≤ 8 → c.arg 0 ≠ 0 → c.arg 0 < 2 ^ 32 → c.arg 2 % 8 = 0 → c.arg 3 ≠ 0 → c.arg 3 < 2 ^ 32 →
      owns (c.arg 1) t → t.inbox = [] → jobFree s t = true → (uRead c.pasid (c.arg 2) 8).run s = .ok (head, s1) →
      let k := field head 0 4
      1 ≤ k → k ≤ 16 → field head 4 4 = 0 → (uRead c.pasid (c.arg 2 + 8) (8 * k)).run s1 = .ok (raw, s2) →
      let j := s2.ensureObject .job (c.arg 0) c.pasid none
      opens j → (∀ o, j.2.object? j.1 = some o → o.cmd = 0) →
      exec (.jobstart n) s = .next (goesOn
        (((j.2.updObject j.1 fun o => { o with stream := some (c.arg 1), cmd := n }).setStream (c.arg 1)
          { t with job := some j.1, template := (List.range k).map (fun i => BitVec.ofNat 64 (field raw (8 * i) 8)), firstId := c.arg 3,
                   clsOver := classOver c, step := none }).startStep (c.arg 1)))) ∧
    (∀ t g s1, opc = 0x08 → owns (c.arg 0) t → t.inbox = [] → c.arg 1 < 2 ^ 32 → (genOf t).run s = .ok (g, s1) → c.arg 1 ≤ g →
      exec (.take n) s = .next (ok (s1.updStream (c.arg 0) (·.put cTake (Nat.max (t.get cTake) (c.arg 1)))))) ∧
    (∀ t, opc = 0x0A → owns (c.arg 0) t →
      exec (.input n) s = .next ((goesOn s).arriveInput (c.arg 0) (inputOf c) (some n))) ∧
    (opc = 0x02 → 2 ≤ c.arg 0 → c.arg 0 ≤ 4 → c.arg 1 ≠ 0 → c.arg 1 < 2 ^ 32 →
      (s.liveObject (levelOf (c.arg 0)) (c.arg 1) c.pasid = none → exec (.close n) s = .next (ok s)) ∧
      (∀ o, s.liveObject (levelOf (c.arg 0)) (c.arg 1) c.pasid = some o →
        exec (.close n) s = .next (ok ((s.updObject o fun q => { q with closed := true }).settleObject 3 o)))) ∧
    (opc = 0x03 → c.arg 0 ≤ 4 → c.arg 1 ≠ 0 → (c.arg 0 ≠ 0 → c.arg 1 < 2 ^ 32) →
      exec (.hostCancel n) s = .next (ok (s.cancel (hostTarget s c.pasid (c.arg 0) (c.arg 1))).2)) ∧
    (∀ f k bs ps s1 s2 s3, opc = 0x04 → 1 ≤ c.arg 2 → c.arg 2 ≤ 4096 → s.feed? (c.arg 0) = some f → f.pasid = c.pasid →
      k = (if c.arg 2 ≤ f.size ∧ f.room < c.arg 2 - c.progress then 0 else min (c.arg 2 - c.progress) f.room) → 0 < k →
      (if c.progress = 0 then (uRead c.pasid (c.arg 1) (64 * c.arg 2)).run s = .ok (bs, s1) else bs = c.held ∧ s1 = s) →
      (unitParts c.pasid .store f.ring.toNat (if k < c.arg 2 then 64 * f.size else 0)).run s1 = .ok (ps, s2) →
      (appendRecords c.pasid f k bs).run s2 = .ok ((), s3) →
      let fed := (s3.setFeed (c.arg 0) { f with put := f.put + k }).updCmd n fun c =>
        { c with progress := c.progress + k, held := bs.drop (64 * k), wait := .none }
      exec (.feed n) s = .next (if c.progress + k = c.arg 2 then ok fed else fed)) ∧
    (opc = 0x05 → c.arg 3 = 0 → c.arg 0 < 4096 → s.feed? (c.arg 0) = none → c.arg 1 % 64 = 0 → ringSizeOk (c.arg 2) = true →
      inGeneral (c.arg 1) (64 * c.arg 2) = true →
      exec (.feedcfgCreate n) s = .next (ok (s.setFeed (c.arg 0)
        { ring := BitVec.ofNat 64 (c.arg 1), size := c.arg 2, put := 0, get := 0, pasid := c.pasid }))) ∧
    (∀ f, opc = 0x05 → c.arg 3 = 1 → s.feed? (c.arg 0) = some f → f.pasid = c.pasid →
      exec (.feedcfgDestroy n) s = .next (ok (s.dropFeed (c.arg 0))) ∧ (s.dropFeed (c.arg 0)).feed? (c.arg 0) = none) ∧
    (∀ t, opc = 0x09 → c.arg 0 < 8 → c.arg 1 < 1024 → s.liveStream (c.arg 1) = some t → t.pasid = c.pasid →
      FMap.get? s.su.decoders (c.arg 0) = none →
      ∃ s' j, exec (.decode n) s = .next s' ∧ FMap.get? s'.su.decoders (c.arg 0) = some j ∧ j.stream = c.arg 1 ∧
        j.addr.toNat = c.arg 2 % 2 ^ 64 ∧ j.len = c.arg 3 ∧ j.out.toNat = c.arg 5 % 2 ^ 64 ∧ j.cmd = n ∧ s'.mem = s.mem) ∧
    (opc = 0x0B → c.arg 0 < 2 ^ 20 →
      exec (.inval n) s = .next (ok (s.invalidate (BitVec.ofNat 20 (c.arg 0)) (c.arg 1) (c.arg 2))) ∧
      ∀ tile e, e ∈ ((s.invalidate (BitVec.ofNat 20 (c.arg 0)) (c.arg 1) (c.arg 2)).tile tile).tlb →
        e.pasid = BitVec.ofNat 20 (c.arg 0) → overlaps (c.arg 1) (c.arg 2) e.base e.size = false) ∧
    (opc = 0x0C → earlierOver s n c.q = true → exec (.hostFence n) s = .next (ok s)) ∧
    (∀ ps s1, opc = 0x0D → c.arg 0 % 8 = 0 →
      unitAccess s (unitAgent c.pasid false) .store (c.arg 0) 8 = (.parts ps, s1) →
      exec (.signal n) s = .next (ok (writeParts s1 ps (leBytes 8 (c.arg 1)) false))) ∧
    (opc = c.opc → 0x80 ≤ opc → exec (.firmwareCommand n) s = .next (ok (s.raiseInt 2)) ∧
      (s.raiseInt 2).head.intpend.getLsbD 2 = true)

/-! ### Ports, registers and resets -/

/-- The device's registers and ports (08 R259; 16 R417; 17 R449; 20 R464 to R467, R489, R490, R492). JACK never falls; a
WINCFG write of an empty cluster sets its window; a read of DBDROP or RASCTL clears its count; WDINT stores no interval
below 0x10000; QTROOT keeps bits 51 to 23; the host does not write the headstock's registers; a write through BAR2 reaches
first-tier memory; an ATS invalidation drops every TLB entry it covers; a PRI response ends its request; a request of
another device is performed in its context here; a flit is folded and counted; a failed port is left.
Readings of the model: log 13, 30, 39, 70, 118. -/
def Obligations.DevicePorts : Prop :=
  ∀ (s : State),
    (∀ v, exec (.jackWrite v) s = .next { s with dev := { s.dev with jack := if v < s.dev.jack then s.dev.jack else v } }) ∧
    (∀ c (v : Word), c < 24 → clusterBusy s c = false →
      (v.extractLsb' 0 4 ≤ 8#4 → ∃ s', exec (.wincfgWrite c v) s = .next s' ∧
        (s'.cluster c).win = (v.extractLsb' 0 4).toNat ∧ (s'.cluster c).sems = (s.cluster c).sems ∧ s'.tiles = s.tiles ∧
        (∀ d, d ≠ c → s'.cluster d = s.cluster d) ∧
        ∀ l, l < windowLoc c 0 ∨ windowLoc c 0 + 0x4000000 ≤ l → Memory.read s'.mem l = Memory.read s.mem l) ∧
      (8#4 < v.extractLsb' 0 4 → exec (.wincfgWrite c v) s = .next s)) ∧
    exec .dbdropRead s = .next { s with dev := { s.dev with dbdrop := 0 } } ∧
    (readReg s 0x18).1 = s.dev.dbdrop.setWidth 64 ∧
    exec .rasctlRead s = .next { s with dev := { s.dev with rasdrop := 0 } } ∧
    (∀ b < 64, (readReg s 0x50).1.getLsbD b = (s.dev.rassize ++ s.dev.rasdrop ++ s.dev.rasput ++ s.dev.rasget).getLsbD b) ∧
    (∀ (v : Word) host, ∃ s', exec (.registerWrite 0x100020 v host) s = .next s' ∧
      s'.dev.wdint = (if v.extractLsb' 0 32 < 0x10000#32 then 0x10000#32 else v.extractLsb' 0 32) ∧ s'.mem = s.mem) ∧
    (∀ v : Word, ∃ s', exec (.registerWrite 0x100010 v false) s = .next s' ∧
      ∀ b < 64, s'.dev.qtroot.getLsbD b = (decide (23 ≤ b) && decide (b ≤ 51) && v.getLsbD b)) ∧
    (∀ off v, headOnly off = true → exec (.registerWrite (0x100000 + off) v true) s = .next s) ∧
    (∀ q (v : Word) host, q < 8192 → ∃ s', exec (.registerWrite (0x110000 + 8 * q) v host) s = .next s' ∧
      queuePasid s' q = v.setWidth 20) ∧
    (∀ q v, q < 8192 → exec (.registerWrite (0x2000000 + 0x1000 * q) v true) s = exec (.doorbell q v) s) ∧
    (∀ off (v : Word), off % 8 = 0 → off < bar2Size s → s.dev.hwbase.toNat + off + 8 ≤ tier0Size → s.host.off = false →
      Memory.wf s.mem = true →
      exec (.hostBar2Access off none) s = .next s ∧
      ∃ s', exec (.hostBar2Access off (some v)) s = .next s' ∧ bar2Read s' off = v ∧
        ∀ l, l < s.dev.hwbase.toNat + off ∨ s.dev.hwbase.toNat + off + 8 ≤ l →
          Memory.read s'.mem l = Memory.read s.mem l) ∧
    (∀ pasid (a : Word) len, ∃ s', exec (.atsInvalidation pasid a len) s = .next s' ∧ s'.mem = s.mem ∧
      s'.strands = s.strands ∧
      (∀ tile e, e ∈ (s'.tile tile).tlb → e.pasid = pasid → overlaps a.toNat len e.base e.size = false) ∧
      (∀ c e, e ∈ (s'.cluster c).tlb → e.pasid = pasid → overlaps a.toNat len e.base e.size = false)) ∧
    (∀ pasid (page : Word) ans, let p : PagePair := (pasid, pageOf page.toNat)
      p ∈ s.out.priOut.take pagesOut → ∃ s', exec (.priResponse pasid page ans) s = .next s' ∧ p ∉ s'.out.priOut ∧
        (∀ r w, ans = .success r w → (r || w) = true →
          ({ pasid, page := pageOf page.toNat, r, w } : HostPage) ∈ s'.out.hostPages) ∧
        (ans = .failure → s'.out.hostPages = s.out.hostPages)) ∧
    (∀ (r : FabricReq), s.host.off = false →
      (∀ n, r.op = .read n → ∃ s', exec (.fabricRequest r) s = .next s' ∧ s' = (fabricTarget s r .load n).2) ∧
      (∀ bs ps s1, r.op = .write bs → fabricTarget s r .store bs.length = (.ok ps, s1) →
        exec (.fabricRequest r) s = .next (writeParts s1 ps bs false)) ∧
      (∀ opc ty o c p s1, r.op = .atomic opc ty o c → fabricTarget s r .atomic (Ty.width ty / 8) = (.ok [p], s1) →
        exec (.fabricRequest r) s = .next (fabricAtomic s1 p opc ty o c))) ∧
    (∀ id, exec (.fabricStoreAck id) s =
      .next { s with out := { s.out with fab := s.out.fab.filter fun q => q.id != id } }) ∧
    (∀ (f : Flit) c p s1, s.host.off = false → 2 ^ 39 ≤ f.off.toNat →
      aperture s f.pasid f.user f.off.toNat 64 = (.ok (c, [p]), s1) → p.len = 64 → Memory.wf s1.mem = true →
      p.loc + 64 ≤ c.loc + 0x1C ∨ c.loc + 0x20 ≤ p.loc →
      ∃ s', exec (.collectiveFlit f) s = .next s' ∧
        s'.readLoc p.loc 64 = flitBytes (combFlit c.op (flitWords (s1.readLoc p.loc 64)) f.words) ∧
        (c.expect = 0 → s'.readLocNat (c.loc + 0x1C) 4 =
          (s1.readLocNat (c.loc + 0x1C) 4 + if c.op = 1 then 1 else f.count) % 2 ^ 32)) ∧
    (∀ port, port < 12 → ∃ s', exec (.portFailure port) s = .next s' ∧
      ∀ b < 12, s'.out.ports.getLsbD b = (s.out.ports.getLsbD b && b != port))

/-- Resets, boot and power (07 R230; 20 R483, R485 to R487). A cold reset leaves the state of reset, and the domain; a warm
or function-level reset stops every strand and task, keeps first-tier memory and the journal's registers, zeroes QTROOT and the
semaphores and releases the fault-list buffers, and failed tiles stay out of service; BOOT is 4 when an entry cannot be
read; a verified image starts headstock strand 0 at its entry, any other leaves its code in BOOT; a request to the SPDM responder
has its answer; power lost, no memory
keeps its contents and nothing moves. Readings of the model: log 2, 13, 67, 68, 69, 108. -/
def Obligations.ResetsRun : Prop :=
  ∀ (s : State),
    exec .coldReset s = .next { State.reset with
      out := { Outside.reset with devNum := s.out.devNum, reach := s.out.reach }, agenda := s.agenda, free := s.free } ∧
    (∀ (last : BitVec 2) i, (i = .warmReset ∧ last = 1) ∨ (i = .functionLevelReset ∧ last = 2) → s.host.off = false →
      s.loom.launches = [] →
      (jsizeOk s.dev.jsize.toNat = false → ∃ s', exec i s = .next s' ∧ s'.strands = [] ∧ s'.dev.lastrst = last ∧
        s'.dev.ready = false ∧ s'.dev.jput = s.dev.jput ∧ s'.dev.jack = s.dev.jack ∧ s'.dev.qtroot = 0 ∧
        s'.faults.busy0 = false ∧ s'.faults.busy1 = false ∧ s'.host.cmds = [] ∧
        (∀ tile, s'.task? tile = none ∧ ((s.tile tile).failed = true → (s'.tile tile).failed = true)) ∧
        (∀ c k, (s'.sem c k).v = 0) ∧ ∀ l, l < tier1Base → Memory.read s'.mem l = Memory.read s.mem l) ∧
      (jsizeOk s.dev.jsize.toNat = true → recoverAll (s.warm last) = none →
        ∃ s', exec i s = .next s' ∧ s'.dev.boot = 4 ∧ s'.host.cmds = [] ∧ s'.strands = [])) ∧
    (awaitsImage s = true →
      (∀ entry loc bytes, Memory.wf s.mem = true → ∃ s' t, exec (.boot (.good entry loc bytes)) s = .next s' ∧
        s'.dev.ready = true ∧ s'.dev.boot = 0 ∧ s'.strand? 1536 = some t ∧ t.pc = entry ∧ t.pl = true ∧
        (∀ k, 1536 < k → s'.strand? k = none) ∧
        ∀ k, k < bytes.length → Memory.read s'.mem (loc + k) = bytes.getD k 0) ∧
      exec (.boot .absent) s = .next { s with dev := { s.dev with boot := 1 } } ∧
      exec (.boot .badSignature) s = .next { s with dev := { s.dev with boot := 2 } } ∧
      exec (.boot .oldVersion) s = .next { s with dev := { s.dev with boot := 3 } }) ∧
    (∀ req, s.host.off = false → exec (.spdmRequest req) s =
      .next { s with host := { s.host with doe := (req, spdmAnswer s req) :: s.host.doe } }) ∧
    (∃ s', exec .powerLoss s = .next s' ∧ s'.mem = [] ∧ s'.strands = [] ∧ s'.host.off = true) ∧
    (s.host.off = true → s.agenda = [] → step s = .next s)

/-- What reset leaves, by the reset values of the spec (01 R42; 05 R169; 07 R219; 16 R417; 19 R455, R456; 20 R463, R466):
WDINT 0x0100_0000, TALERT HI 0x7F and LO 0x80, no other bit of the device's or the headstock's registers set, CYCLE 0, no
strand, no task; and memory in its canonical form, with nothing listed (log 2). Readings of the model: log 2. -/
def Obligations.ResetValues : Prop :=
  let s := State.reset
  s.dev.wdint = 0x01000000 ∧ statusReg s = 0 ∧ s.dev.qtroot = 0 ∧ s.dev.jbase0 = 0 ∧ s.dev.jbase1 = 0 ∧ s.dev.jsize = 0 ∧
  s.dev.jput = 0 ∧ s.dev.jack = 0 ∧ s.dev.jevbase = 0 ∧ s.dev.hwbase = 0 ∧ s.dev.dbdrop = 0 ∧ s.dev.flbase0 = 0 ∧
  s.dev.flbase1 = 0 ∧ s.dev.rasbase = 0 ∧ rasctl s.dev = 0 ∧ (∀ q, queuePasid s q = 0) ∧ (∀ c, (s.cluster c).win = 0) ∧
  (∀ c k, (s.sem c k).v = 0) ∧ s.head.level = 0 ∧ s.head.talertHi = 0x7F ∧ s.head.talertLo = 0x80 ∧
  s.head.talertLine = false ∧ s.head.intpend = 0 ∧ s.head.intmask = 0 ∧ s.cycle = 0 ∧ (∀ sid, s.strand? sid = none) ∧
  (∀ tile, s.task? tile = none) ∧ s.mem = [] ∧ Memory.wf s.mem = true

/-! ### Decoding, and the whole machine -/

/-- Words written out field by field from 02 R46 to R55, IMM32 first and STALL last, and what they are: ADD.s64 x5, x6, x7;
ADD.s32 x33, x34, −1 under not p2; BCC.lt x6, x7, two words back; LD.s64 x5, [x6 + 16] on scoreboard 0; VADD.f32 v1, v2, v3
rounding to zero; BFELL x5, x6 at .dev; and three malformed words: STALL of a NOP with a reserved scoreboard, an access
slice word under p0, and a headstock word of class 3. -/
def Obligations.DecodedWords : Prop :=
  let sch : Sched := { stall := 1, wait := 0, wsb := none, rsb := none, reuse := 0, psafe := false, yield := false }
  let on : Gate := { pred := 7, pneg := false }
  decode .tile (0x00000000#32 ++ 0x000#12 ++ 0x000#12 ++ 0x00#8 ++ 0x07#8 ++ 0x06#8 ++ 0x05#8 ++ 0x0#4 ++ 0x000#10 ++ 0#1 ++
      7#3 ++ 0#1 ++ 0#1 ++ 1#1 ++ 0#3 ++ 0#3 ++ 0#3 ++ 0#6 ++ 1#4) =
    .ok (.add { sch, gate := on, slice := .a, ty := .s64, d := .x 5, a := .x 6, b := .x 7, c := .x 0, aux := 0, cond := .eq,
                zx := false, imm := false, imm32 := 0 }) ∧
  decode .tile (0xFFFFFFFF#32 ++ 0x000#12 ++ 0x001#12 ++ 0x00#8 ++ 0x00#8 ++ 0x22#8 ++ 0x21#8 ++ 0x1#4 ++ 0x000#10 ++ 1#1 ++
      2#3 ++ 0#1 ++ 0#1 ++ 0#1 ++ 0#3 ++ 0#3 ++ 0#3 ++ 0#6 ++ 1#4) =
    .ok (.add { sch, gate := { pred := 2, pneg := true }, slice := .e, ty := .s32, d := .x 33, a := .x 34, b := .x 0,
                c := .x 0, aux := 0, cond := .eq, zx := false, imm := true, imm32 := 0xFFFFFFFF }) ∧
  decode .tile (0xFFFFFFFE#32 ++ 0x000#12 ++ 0x020#12 ++ 0x00#8 ++ 0x07#8 ++ 0x06#8 ++ 0x00#8 ++ 0x0#4 ++ 0x082#10 ++ 0#1 ++
      7#3 ++ 0#1 ++ 0#1 ++ 1#1 ++ 0#3 ++ 0#3 ++ 0#3 ++ 0#6 ++ 1#4) =
    .ok (.bcc { sch, gate := on, slice := .a, ty := .s64, d := .x 0, a := .x 6, b := .x 7, c := .x 0, aux := 0, cond := .lt,
                zx := false, imm := false, imm32 := 0xFFFFFFFE }) ∧
  decode .tile (0x00000010#32 ++ 0x000#12 ++ 0x000#12 ++ 0x00#8 ++ 0x00#8 ++ 0x06#8 ++ 0x05#8 ++ 0x0#4 ++ 0x100#10 ++ 0#1 ++
      7#3 ++ 0#1 ++ 0#1 ++ 1#1 ++ 0#3 ++ 0#3 ++ 1#3 ++ 0#6 ++ 1#4) =
    .ok (.ld { sch := { sch with wsb := some 0 }, gate := on, slice := .a, ty := .s64, d := .x 5, a := .x 6, b := .x 0,
               c := .x 0, ch := .default, amode := .disp, nr := false, ord := .relaxed, scope := .strand, imm32 := 16 }) ∧
  decode .tile (0x00000001#32 ++ 0x000#12 ++ 0x000#12 ++ 0x00#8 ++ 0x43#8 ++ 0x42#8 ++ 0x41#8 ++ 0x7#4 ++ 0x180#10 ++ 0#1 ++
      7#3 ++ 0#1 ++ 0#1 ++ 0#1 ++ 0#3 ++ 0#3 ++ 0#3 ++ 0#6 ++ 1#4) =
    .ok (.vadd { sch, gate := on, ty := .f32, d := .v 1, a := .v 2, b := .v 3, c := .x 0, moda := .none, modb := .none,
                 imm16 := 0, ty2 := .s64, opx := 0, cx := false, bx := false, sat := false, ftz := false, rm := .rz }) ∧
  decode .tile (0x00000000#32 ++ 0x000#12 ++ 0x003#12 ++ 0x00#8 ++ 0x00#8 ++ 0x06#8 ++ 0x05#8 ++ 0x0#4 ++ 0x284#10 ++ 0#1 ++
      7#3 ++ 0#1 ++ 0#1 ++ 1#1 ++ 0#3 ++ 0#3 ++ 0#3 ++ 0#6 ++ 1#4) =
    .ok (.bfell { sch, gate := on, d := .x 5, a := .x 6, b := .x 0, c := .x 0, aux := 0, nb := false, scope := .dev }) ∧
  decode .tile (0x00000000#32 ++ 0x000#12 ++ 0x000#12 ++ 0x00#8 ++ 0x00#8 ++ 0x00#8 ++ 0x00#8 ++ 0x0#4 ++ 0x080#10 ++ 0#1 ++
      7#3 ++ 0#1 ++ 0#1 ++ 1#1 ++ 0#3 ++ 0#3 ++ 7#3 ++ 0#6 ++ 1#4) = .error .sched ∧
  decode .tile (0x00000000#32 ++ 0x000#12 ++ 0x000#12 ++ 0x00#8 ++ 0x00#8 ++ 0x00#8 ++ 0x00#8 ++ 0x0#4 ++ 0x080#10 ++ 0#1 ++
      0#3 ++ 0#1 ++ 0#1 ++ 1#1 ++ 0#3 ++ 0#3 ++ 0#3 ++ 0#6 ++ 1#4) = .error .pred ∧
  decode .headstock (0x00000001#32 ++ 0x000#12 ++ 0x000#12 ++ 0x00#8 ++ 0x43#8 ++ 0x42#8 ++ 0x41#8 ++ 0x7#4 ++ 0x180#10 ++
      0#1 ++ 7#3 ++ 0#1 ++ 0#1 ++ 0#1 ++ 0#3 ++ 0#3 ++ 0#3 ++ 0#6 ++ 1#4) = .error .nounit

/-- Decoding and encoding agree (02 R46 to R63): the word of a well-formed instruction decodes to it, with every operand at
every value its encoding admits; and an instruction that a word decodes to is well formed and has no other word. -/
def Obligations.EncodeDecode : Prop :=
  ∀ (core : CoreKind) (i : Instr) (w : IWord),
    (WellFormed core i → encode i = some w → decode core w = .ok i) ∧
    (decode core w = .ok i → WellFormed core i ∧ encode i = some w)

/-- The memory of every state a step reaches from a canonical memory is canonical: its addresses rise strictly and no
listed byte is what an unlisted one reads as (log 2, log 3). Readings of the model: log 2, 3. -/
def Obligations.CanonicalMemory : Prop :=
  ∀ (s s' : State), Canonical s → step s = .next s' → Canonical s'

/-- A step that issues a slice runs the decoded instruction (01 R12; 03 R90). A word that is in no cache is the 16 bytes at
PC. When the word at PC decodes to an instruction of the slice whose turn it is, the step is `exec` of it there; a word of
the execute slice met by the access slice is passed to E, and the access slice goes on at the next; the oldest word passed
to E is what E executes; a malformed word raises its cause. Readings of the model: log 4, 6, 10. -/
def Obligations.StepRunsTheDecoded : Prop :=
  ∀ (s : State) (sid : Nat) (sl : Slice) (rest : List Turn) (t : Strand), s.agenda = .issue sid sl :: rest →
    s.host.off = false →
    let s0 := { s with agenda := rest }
    s0.strand? sid = some t → mayIssue s0 sid t = true → issueOpen s0 (tileOf sid) = true →
    let a := agentOf s0 sid t
    (∀ p s1, fetchPart s0 a t.pc.toNat = (.part p, s1) → t.pc.toNat % 16 = 0 → p.loc % 128 = t.pc.toNat % 128 →
      ilineFind (icacheOf s1 a.tile) a.pasid (t.pc.toNat / 128 * 128) = none →
      s1.line? a.tile (p.loc / 128) = none → s1.memPoison (p.loc / 128) = 0 → (fetchWord s0 a t.pc).1 =
        .word (wordOfBytes (s1.readLoc p.loc 16))) ∧
    (∀ w i s1, t.ewin = [] ∨ sl = .a → fetchWord s0 a t.pc = (.word w, s1) → decode (coreOf sid) w = .ok i →
      comesToStop s1 sid t i = false →
      (sliceAt i = some sl → step s = exec i (s1.at sid)) ∧
      (sl = .a → sliceAt i = some .e → limitOk t = true →
        step s = match tryA sid 65 (s1.setStrand sid (passToE t i)) with
          | .idle s2 => .next s2
          | .did r => r)) ∧
    (∀ w sub s1, t.ewin = [] ∨ sl = .a → fetchWord s0 a t.pc = (.word w, s1) → decode (coreOf sid) w = .error sub → wordSlice w = sl →
      step s = .next (deliverIll s1 sid t sl sub w)) ∧
    (∀ e q, t.ewin = e :: q → sl = .e → step s = exec e.instr (s0.at sid .window))
end

