-- ==== Sys2Proof/Laws/Issue.lean ====
section
/-! SUPPORT. What the issue of a word does: one lemma for the case in which its body takes effect, and what issue,
retirement and the settling of results leave alone. -/

namespace Sys2Proof.Machine

open Decode

/-! ### Bookkeeping -/

@[simp] theorem lowerSb_bare (t : Strand) (sl : Slice) (k : Option (Fin 6)) : (lowerSb t sl k).bare = t.bare := by
  unfold lowerSb; split <;> rfl

@[simp] theorem raiseSb_bare (t : Strand) (sl : Slice) (k : Option (Fin 6)) : (raiseSb t sl k).bare = t.bare := by
  unfold raiseSb; split <;> rfl

theorem foldl_lowerSb_bare {α : Type} (sl : α → Slice) (sb : α → Option (Fin 6)) (l : List α) (t : Strand) :
    (l.foldl (fun t p => lowerSb t (sl p) (sb p)) t).bare = t.bare := by
  induction l generalizing t with
  | nil => rfl
  | cons p l ih => rw [List.foldl_cons, ih, lowerSb_bare]

@[simp] theorem clearPend_bare (t : Strand) (g : Pend → Bool) : (clearPend t g).bare = t.bare := by
  simp only [clearPend, foldl_lowerSb_bare]
  rfl

@[simp] theorem clearReads_bare (t : Strand) (g : PendRead → Bool) : (clearReads t g).bare = t.bare := by
  simp only [clearReads, foldl_lowerSb_bare]
  rfl

@[simp] theorem settle_bare (c : Nat) (t : Strand) : (settle c t).bare = t.bare := by
  simp only [settle, clearReads_bare, clearPend_bare]

@[simp] theorem markCounted_bare (t : Strand) (sl : Slice) : (markCounted t sl).bare = t.bare := by
  cases sl <;> rfl

/-- HFIX and HLAST lie above the CHK bit (01 R29). -/
theorem hctl_and_one (n m b : Nat) (h : b < 2) :
    (BitVec.ofNat 64 (n * 2 ^ 16 + m * 2 ^ 4 + b) : Word) &&& 1 = BitVec.ofNat 64 b := by
  apply BitVec.eq_of_toNat_eq
  simp only [BitVec.toNat_and, BitVec.toNat_ofNat]
  rw [show BitVec.toNat (1 : Word) = 2 ^ 1 - 1 from rfl, Nat.and_two_pow_sub_one_eq_mod]
  omega

theorem low_hctl (w : Word) : (BitVec.ofNat 64 (bits w 0 1) : Word) = w &&& 1 := by
  apply BitVec.eq_of_toNat_eq
  simp only [BitVec.toNat_and, BitVec.toNat_ofNat, bits]
  rw [show BitVec.toNat (1 : Word) = 2 ^ 1 - 1 from rfl, Nat.and_two_pow_sub_one_eq_mod, Nat.shiftRight_zero]
  omega

theorem countHints_bare (t : Strand) (hs : List Hint) : (countHints t hs).bare = t.bare := by
  unfold countHints
  split
  · rfl
  · have hb : bits t.hctl 0 1 < 2 := Nat.mod_lt _ (by decide)
    simp only [Strand.bare, hctl_and_one _ _ _ hb, low_hctl]

theorem noteHints_bare (t : Strand) (pc : Word) (n : Nat) (hs : List Hint) : (noteHints t pc n hs).bare = t.bare := by
  simp only [noteHints]
  split <;> exact countHints_bare t hs

@[simp] theorem opened_bare (s : State) (f : Focus) (r : Raw) (t : Strand) : (opened s f r t).bare = t.bare := by
  simp only [opened, markCounted_bare]
  split
  · exact settle_bare s.cycle t
  · exact (noteHints_bare _ _ _ _).trans (settle_bare s.cycle t)

@[simp] theorem openedStrand_bare (s : State) (f : Focus) (r : Raw) (t : Strand) :
    (openedStrand s f r t).bare = t.bare := by
  unfold openedStrand readReuse
  split <;> exact opened_bare s f r t

theorem loopTest_bare (n : Nat) (t : Strand) (e : Word) : (loopTest n t e).bare = t.bare := by
  induction n generalizing t with
  | zero => rfl
  | succ n ih =>
    unfold loopTest
    split
    · rfl
    · split
      · simp only []
        split
        · exact ih _
        · rfl
      · rfl

theorem advance_bare (t : Strand) : (advance t).bare = t.bare := by
  unfold advance
  split
  · rfl
  · exact loopTest_bare 4 _ _

theorem retireSlice_bare (t : Strand) (c : Nat) (sl : Slice) (r : Raw) : (retireSlice t c sl r).bare = t.bare := by
  cases sl <;> rfl

theorem trim_bare (t : Strand) : (trim t).bare = t.bare := by
  unfold trim; split <;> rfl

theorem lookAgain_bare (t : Strand) : (lookAgain t).bare = t.bare := by
  unfold lookAgain
  split
  · split <;> rfl
  · rfl

@[simp] theorem retireFetch_bare (t : Strand) (c : Nat) (sl : Slice) (r : Raw) :
    (retireFetch t c sl r).bare = t.bare := by
  simp only [retireFetch, trim_bare]
  exact (advance_bare _).trans (retireSlice_bare t c sl r)

@[simp] theorem retireWindow_bare (t : Strand) (c : Nat) (r : Raw) : (retireWindow t c r).bare = t.bare := by
  simp only [retireWindow, trim_bare, lookAgain_bare]
  exact retireSlice_bare t c .e r

@[simp] theorem addPend_bare (t : Strand) (q n c : Nat) (sl : Slice) (r : Raw) (u : Use) :
    (addPend t q n c sl r u).bare = t.bare := by
  have h1 : ∀ regs, (addResults t q n c sl r regs).bare = t.bare := fun regs => by
    unfold addResults
    split
    · rfl
    · exact raiseSb_bare _ sl _
  have h2 : ∀ (w : Strand) regs srcs, (addReads w n c sl r regs srcs).bare = w.bare := fun w regs srcs => by
    simp only [addReads]
    split
    · rfl
    · exact raiseSb_bare _ sl _
  simp only [addPend, h1, h2]

/-! ### The map of strands -/

theorem FMap.get?_set_self {α : Type} (m : FMap α) (a : Nat) (x : α) : (m.set a x).get? a = some x := by
  induction m with
  | nil => simp [FMap.set, FMap.get?]
  | cons c m ih =>
    simp only [FMap.set]
    split
    · simp [FMap.get?]
    · split
      · simp [FMap.get?]
      · rename_i h
        simp only [FMap.get?, if_neg (Ne.symm h), ih]

theorem FMap.get?_set_ne {α : Type} (m : FMap α) {a b : Nat} (x : α) (h : a ≠ b) :
    (m.set a x).get? b = m.get? b := by
  induction m with
  | nil => simp [FMap.set, FMap.get?, h]
  | cons c m ih =>
    simp only [FMap.set]
    split
    · simp [FMap.get?, h]
    · split
      · rename_i e
        simp [FMap.get?, ← e, h]
      · simp only [FMap.get?, ih]

theorem FMap.set_set {α : Type} (m : FMap α) (a : Nat) (x y : α) : (m.set a x).set a y = m.set a y := by
  induction m with
  | nil => simp [FMap.set]
  | cons c m ih =>
    simp only [FMap.set]
    split
    · simp [FMap.set]
    · split
      · simp [FMap.set]
      · rename_i h1 h2
        simp only [FMap.set, if_neg h1, if_neg h2, ih]

@[simp] theorem strand?_setStrand (s : State) (i : Nat) (t : Strand) : (s.setStrand i t).strand? i = some t :=
  FMap.get?_set_self s.strands i t

theorem strand?_setStrand_ne (s : State) {i j : Nat} (t : Strand) (h : i ≠ j) :
    (s.setStrand i t).strand? j = s.strand? j := FMap.get?_set_ne s.strands t h

@[simp] theorem setStrand_setStrand (s : State) (i : Nat) (t u : Strand) :
    (s.setStrand i t).setStrand i u = s.setStrand i u := by
  simp only [State.setStrand, FMap.set_set]

/-! ### Issue -/

theorem openedState_eq (s : State) (f : Focus) (r : Raw) (t : Strand) :
    openedState s f r t = { (s.setStrand f.sid (openedStrand s f r t)) with req := s.req + 1 } := rfl

@[simp] theorem openedState_strand (s : State) (f : Focus) (r : Raw) (t : Strand) :
    (openedState s f r t).strand? f.sid = some (openedStrand s f r t) := strand?_setStrand s f.sid _

@[simp] theorem openedState_focus (s : State) (f : Focus) (r : Raw) (t : Strand) :
    (openedState s f r t).focus = s.focus := rfl

theorem sid_of_focus {s : State} {f : Focus} (h : s.focus = some f) : s.sid = f.sid := by
  simp only [State.sid, h]

theorem countHints_nil (t : Strand) : countHints t [] = t := rfl

/-- Lowering scoreboards changes these alone. -/
theorem foldl_lowerSb_eq {α : Type} (sl : α → Slice) (sb : α → Option (Fin 6)) (l : List α) (t : Strand) :
    ∃ a e, l.foldl (fun t p => lowerSb t (sl p) (sb p)) t = { t with sbA := a, sbE := e } := by
  induction l generalizing t with
  | nil => exact ⟨t.sbA, t.sbE, rfl⟩
  | cons p l ih =>
    obtain ⟨a, e, h⟩ := ih (lowerSb t (sl p) (sb p))
    refine ⟨a, e, ?_⟩
    rw [List.foldl_cons, h]
    unfold lowerSb
    split <;> rfl

/-- Settling changes the lists of pending results and reads and the scoreboards, nothing else. -/
theorem settle_eq (c : Nat) (t : Strand) :
    ∃ p q a e, settle c t = { t with pend := p, reads := q, sbA := a, sbE := e } := by
  obtain ⟨a, e, h⟩ := foldl_lowerSb_eq Pend.slice Pend.wsb (t.pend.filter (Pend.due · c))
    { t with pend := t.pend.filter (!Pend.due · c) }
  let u := clearPend t (Pend.due · c)
  obtain ⟨a', e', h'⟩ := foldl_lowerSb_eq PendRead.slice PendRead.rsb (u.reads.filter fun p => decide (p.done ≤ c))
    { u with reads := u.reads.filter fun p => !decide (p.done ≤ c) }
  refine ⟨u.pend, u.reads.filter fun p => !decide (p.done ≤ c), a', e', h'.trans ?_⟩
  simp only [u, clearPend, h]

@[simp] theorem settle_chk (c : Nat) (t : Strand) : (settle c t).chk = t.chk := by
  obtain ⟨p, q, a, e, h⟩ := settle_eq c t
  rw [h]; rfl

@[simp] theorem settle_ewin (c : Nat) (t : Strand) : (settle c t).ewin = t.ewin := by
  obtain ⟨p, q, a, e, h⟩ := settle_eq c t
  rw [h]

@[simp] theorem settle_badRegs (c : Nat) (t : Strand) : (settle c t).badRegs = t.badRegs := by
  obtain ⟨p, q, a, e, h⟩ := settle_eq c t
  rw [h]

/-- The hint condition of `before`, once it lets the instruction on. -/
theorem before_hints (t : Strand) (c : Nat) (f : Focus) (r : Raw)
    (hh : hintsCounted t (sliceOf r) = true ∨ hintsNow t c f r = [] ∨ t.chk = false) :
    (t.chk && !hintsCounted t (sliceOf r) && !(hintsNow t c f r).isEmpty) = false := by
  rcases hh with h | h | h <;> simp [*]

theorem opened_badRegs (s : State) (f : Focus) (r : Raw) (t : Strand) : (opened s f r t).badRegs = t.badRegs := by
  have := congrArg Strand.badRegs (opened_bare s f r t)
  exact this

/-- When the conditions of issue hold, nothing stops the instruction before its own checks. -/
theorem before_of_issues {i : Instr} {o : Order} {s : State} {f : Focus} {r : Raw} {t : Strand}
    (h : Issues s i o f r t) :
    before s (settle s.cycle t) f.place (sliceOf r) r (useOf r) o none =
      (opened s f r t, none) := by
  have hh := h.hint
  rw [← settle_chk s.cycle t] at hh
  have h2 := before_hints _ _ _ _ hh
  have ho := h.operands
  have hl := h.limit
  have hd := h.order
  cases hs : sliceOf r
  · simp only [hs, forall_const] at hl hd
    simp only [hintsNow, hintsCounted, hs] at h2
    simp only [opened, hs, hintsCounted, hintsNow, markCounted] at ho hl hd ⊢
    simp only [before, ← hs, h.timing]
    simp only [hs, Bool.not_true, Bool.false_eq_true, if_false, h2, ho, hl, hd]
    simp
  · simp only [hintsNow, hintsCounted, hs] at h2
    simp only [opened, hs, hintsCounted, hintsNow, markCounted] at ho ⊢
    simp only [before, ← hs, h.timing]
    simp only [hs, Bool.not_true, Bool.false_eq_true, if_false, h2, ho]
    simp

theorem repairRegs_nil (t : Strand) (l : List Logged) (h : t.badRegs = []) : repairRegs t l = (t, 0) := by
  simp [repairRegs, h]

theorem lostReg_nil (t : Strand) (l : List Logged) (h : t.badRegs = []) : lostReg t l = none := by
  simp [lostReg, h]

/-- An instruction that issues, and whose body takes effect, completes. -/
theorem issue_ok {i : Instr} {o : Order} {s s2 : State} {f : Focus} {r : Raw} {t : Strand}
    {priv : State → Strand → Option Halt} {body : Body} (h : Issues s i o f r t)
    (hp : priv s (settle s.cycle t) = none) (hb : body (openedState s f r t) = .ok s2) :
    issue i o priv body s = .next (finished s f r (opened s f r t) s2) := by
  have hn : (opened s f r t).badRegs = [] := (opened_badRegs s f r t).trans h.parity
  simp only [issue, h.focus, sid_of_focus h.focus, h.strand, h.word, h.formed, hp, before_of_issues h,
    lostReg_nil _ _ hn, repairRegs_nil _ _ hn, State.rasReplay]
  simp only [openedState] at hb
  rw [hb]

@[simp] theorem noteMisses_bare (t t2 : Strand) (f : Focus) : (noteMisses t t2 f).bare = t2.bare := by
  simp only [noteMisses]
  split <;> rfl

/-- The parts of the state that neither issue nor retirement touches. -/
theorem finished_eq (s : State) (f : Focus) (r : Raw) (t : Strand) (s2 : State) {t2 : Strand}
    (h : s2.strand? f.sid = some t2) :
    ∃ t3, t3.bare = t2.bare ∧ finished s f r t s2 = s2.setStrand f.sid t3 := by
  simp only [finished, h]
  refine ⟨_, ?_, rfl⟩
  split <;> split <;> simp

/-! ### What two strands with the same bare part share -/

theorem getX_of_bare {t u : Strand} (h : u.bare = t.bare) (n : Fin 64) : u.getX n = t.getX n :=
  show u.bare.getX n = t.bare.getX n from congrArg (fun q : Strand => q.getX n) h

theorem v_of_bare {t u : Strand} (h : u.bare = t.bare) : u.v = t.v :=
  show u.bare.v = t.bare.v from congrArg Strand.v h

theorem p_of_bare {t u : Strand} (h : u.bare = t.bare) : u.p = t.p :=
  show u.bare.p = t.bare.p from congrArg Strand.p h

theorem queues_of_bare {t u : Strand} (h : u.bare = t.bare) : SameQueues t u := by
  have : ∀ {α : Type} (g : Strand → α), g u.bare = g t.bare := fun g => congrArg g h
  exact ⟨this Strand.lq, this Strand.saq, this Strand.sdq, this Strand.xq, this Strand.bq⟩

theorem special_of_bare {t u : Strand} (h : u.bare = t.bare) : SameSpecial t u := by
  have : ∀ {α : Type} (g : Strand → α), g u.bare = g t.bare := fun g => congrArg g h
  exact ⟨this Strand.xpc, this Strand.xcause, this Strand.xval, this Strand.xvec, this Strand.xstat, this Strand.xscr,
    this Strand.sbase, this Strand.slimit, this Strand.cePidx, this Strand.mePidx, this Strand.turn, this Strand.turnPc,
    this Strand.fq, this Strand.bobbin, this Strand.issue, this Strand.hctl⟩

/-! ### From the state an instruction finds to its completion -/

theorem Finds.strand {i : Instr} {ord : Order} {s o : State} {f : Focus} {r : Raw} {t u : Strand}
    (h : Finds i ord s f r t o u) : o.strand? f.sid = some u := by
  obtain ⟨h, rfl, rfl⟩ := h
  exact openedState_strand s f r t

theorem Finds.sid {i : Instr} {ord : Order} {s o : State} {f : Focus} {r : Raw} {t u : Strand}
    (h : Finds i ord s f r t o u) : o.sid = f.sid := by
  obtain ⟨h, rfl, rfl⟩ := h
  exact sid_of_focus h.focus

theorem Finds.bare {i : Instr} {ord : Order} {s o : State} {f : Focus} {r : Raw} {t u : Strand}
    (h : Finds i ord s f r t o u) : u.bare = t.bare := by
  obtain ⟨h, rfl, rfl⟩ := h
  exact openedStrand_bare s f r t

/-- An instruction whose body takes effect on the state it finds completes. -/
theorem Finds.ok {i : Instr} {ord : Order} {s o s2 : State} {f : Focus} {r : Raw} {t u : Strand}
    {priv : State → Strand → Option Halt} {body : Body} (h : Finds i ord s f r t o u)
    (hp : priv s (settle s.cycle t) = none) (hb : body o = .ok s2)
    (he : exec i s = issue i ord priv body s) : Completes i s f r t s2 := by
  obtain ⟨h, rfl, rfl⟩ := h
  exact he.trans (issue_ok h hp hb)

theorem onStrand_ok {o : State} {k : Nat} {u u2 : Strand} {g : Strand → Res Strand} (hs : o.sid = k)
    (h : o.strand? k = some u) (hg : g u = .ok u2) : onStrand g o = .ok (o.setStrand k u2) := by
  subst hs
  simp [onStrand, h, hg, bind, Except.bind]

theorem withFocus_eq {o : State} {k : Nat} {u : Strand} {g : State → Strand → Res State} (hs : o.sid = k)
    (h : o.strand? k = some u) : withFocus g o = g o u := by
  subst hs
  simp [withFocus, h]

/-! ### Where control stands -/

/-- Where control stands: PC, the loop levels, the target of a transfer. Interlocks, scoreboards and hints leave it. -/
def Strand.path (t : Strand) : Word × Vector Loop 4 × Option Word := (t.pc, t.loops, t.next)

theorem lowerSb_path (t : Strand) (sl : Slice) (k : Option (Fin 6)) : (lowerSb t sl k).path = t.path := by
  unfold lowerSb; split <;> rfl

theorem raiseSb_path (t : Strand) (sl : Slice) (k : Option (Fin 6)) : (raiseSb t sl k).path = t.path := by
  unfold raiseSb; split <;> rfl

theorem foldl_lowerSb_path {α : Type} (sl : α → Slice) (sb : α → Option (Fin 6)) (l : List α) (t : Strand) :
    (l.foldl (fun t p => lowerSb t (sl p) (sb p)) t).path = t.path := by
  induction l generalizing t with
  | nil => rfl
  | cons p l ih => rw [List.foldl_cons, ih, lowerSb_path]

theorem clearPend_path (t : Strand) (g : Pend → Bool) : (clearPend t g).path = t.path := by
  simp only [clearPend, foldl_lowerSb_path]
  rfl

theorem clearReads_path (t : Strand) (g : PendRead → Bool) : (clearReads t g).path = t.path := by
  simp only [clearReads, foldl_lowerSb_path]
  rfl

@[simp] theorem settle_path (c : Nat) (t : Strand) : (settle c t).path = t.path := by
  simp only [settle, clearReads_path, clearPend_path]

@[simp] theorem addPend_path (t : Strand) (req seq cycle : Nat) (sl : Slice) (r : Raw) (u : Use) :
    (addPend t req seq cycle sl r u).path = t.path := by
  have h : (addResults t req seq cycle sl r ((u.d ++ u.hid).filter written)).path = t.path := by
    unfold addResults; split
    · rfl
    · exact raiseSb_path _ _ _
  refine Eq.trans ?_ h
  unfold addPend addReads
  simp only
  split
  · rfl
  · exact raiseSb_path _ _ _

theorem countHints_path (t : Strand) (hs : List Hint) : (countHints t hs).path = t.path := by
  unfold countHints; split <;> rfl

@[simp] theorem opened_path (s : State) (f : Focus) (r : Raw) (t : Strand) : (opened s f r t).path = t.path := by
  have hm : ∀ (q : Strand) sl, (markCounted q sl).path = q.path := fun q sl => by cases sl <;> rfl
  have hn : ∀ (q : Strand) pc n hs, (noteHints q pc n hs).path = q.path := fun q pc n hs => by
    simp only [noteHints]; split <;> exact countHints_path q hs
  simp only [opened, hm]
  split
  · exact settle_path _ _
  · exact (hn _ _ _ _).trans (settle_path _ _)

@[simp] theorem noteMisses_path (t t2 : Strand) (f : Focus) : (noteMisses t t2 f).path = t2.path := by
  unfold noteMisses; simp only; split <;> rfl

end Sys2Proof.Machine
end

