-- ==== Sys2Proof/Laws/Focus.lean ====
section
/-! SUPPORT. What the operations of memory leave alone: the focus, and each strand but for the bookkeeping they name. -/

namespace Sys2Proof.Machine

theorem foldl_inv {α β γ : Type} (g : α → γ) (step : α → β → α) (h : ∀ a b, g (step a b) = g a) (l : List β) (a : α) :
    g (l.foldl step a) = g a := by
  induction l generalizing a with
  | nil => rfl
  | cons b l ih => rw [List.foldl_cons, ih, h]

@[simp] theorem writeLoc_focus (s : State) (a : Nat) (bs : List Byte) (b : Bool) : (s.writeLoc a bs b).focus = s.focus := rfl

@[simp] theorem updStrand_focus (s : State) (i : Nat) (g : Strand → Strand) : (s.updStrand i g).focus = s.focus := rfl

@[simp] theorem updTask_focus (s : State) (t : Nat) (g : Task → Task) : (s.updTask t g).focus = s.focus := rfl

@[simp] theorem flushLine_focus (s : State) (t k : Nat) : (s.flushLine t k).focus = s.focus := by
  simp only [State.flushLine, State.dropLine, updTask_focus, State.writeBackLine]
  split <;> rfl

@[simp] theorem evictFor_focus (s : State) (t k : Nat) : (s.evictFor t k).focus = s.focus := by
  simp only [State.evictFor]
  split
  · rfl
  · split
    · exact flushLine_focus _ _ _
    · rfl

@[simp] theorem countMoved_focus (s : State) (t n : Nat) : (s.countMoved t n).focus = s.focus := by
  simp only [State.countMoved]; split <;> rfl

@[simp] theorem fetchLine_focus (s : State) (t k : Nat) (p : Part) (e : Bool) : (s.fetchLine t k p e).focus = s.focus := by
  simp only [State.fetchLine]
  split
  · rw [evictFor_focus]; exact countMoved_focus s t 128
  · exact countMoved_focus s t 128

@[simp] theorem guardReport_focus (s : State) (i : Nat) (b : BitVec 8) (o : Nat) (e : Option Engine) :
    (s.guardReport i b o e).focus = s.focus := rfl

@[simp] theorem spadWrite_focus (s : State) (t i : Nat) (b : BitVec 8) (p : Part) (bs : List Byte) (bad : Bool)
    (e : Option Engine) : (s.spadWrite t i b p bs bad e).focus = s.focus := by
  simp only [State.spadWrite]
  split
  · rfl
  · rw [foldl_inv State.focus _ (fun a b => by split <;> rfl), guardReport_focus]

@[simp] theorem spadRead_focus (s : State) (t i : Nat) (b : BitVec 8) (p : Part) (e : Option Engine) :
    (s.spadRead t i b p e).2.focus = s.focus := by
  simp only [State.spadRead]
  split <;> rfl

@[simp] theorem touchLine_focus (s : State) (t l : Nat) (bs : List Byte) (b : Bool) :
    (s.touchLine t l bs b).focus = s.focus := by
  simp only [State.touchLine]
  split <;> rfl

@[simp] theorem storeLine_focus (s : State) (t : Nat) (ch : CacheHint) (p : Part) (bs : List Byte) (b : Bool) :
    (s.storeLine t ch p bs b).2.focus = s.focus := by
  simp only [State.storeLine]
  split
  · exact touchLine_focus _ _ _ _ _
  · exact evictFor_focus _ _ _

@[simp] theorem loadLine_focus (s : State) (t : Nat) (ch : CacheHint) (p : Part) : (s.loadLine t ch p).2.focus = s.focus := by
  simp only [State.loadLine]
  repeat' split
  all_goals first
    | rfl
    | exact fetchLine_focus _ _ _ _ _

@[simp] theorem rouse_focus (s : State) (t l : Nat) : (s.rouse t l).focus = s.focus := rfl

@[simp] theorem roused_focus (s : State) (t l n : Nat) : (s.roused t l n).focus = s.focus := by
  simp only [State.roused]
  split
  · rfl
  · refine foldl_inv State.focus _ ?_ _ _
    intro a b; rfl

@[simp] theorem sendStore_focus (s : State) (t : Nat) (p : Part) : (s.sendStore t p).focus = s.focus := by
  simp only [State.sendStore]; split <;> rfl

@[simp] theorem storePart_focus (s : State) (t i : Nat) (ch : CacheHint) (p : Part) (bs : List Byte) (b : Bool) :
    (storePart s t i ch p bs b).2.focus = s.focus := by
  simp only [storePart, roused_focus, sendStore_focus]
  split
  · exact spadWrite_focus _ _ _ _ _ _ _ _
  · split
    · refine foldl_inv (fun a : Bool × State => a.2.focus) _ ?_ _ _
      intro a q; exact storeLine_focus _ _ _ _ _ _
    · rfl

@[simp] theorem loadPart_focus (s : State) (t i : Nat) (ch : CacheHint) (p : Part) :
    (loadPart s t i ch p).2.focus = s.focus := by
  simp only [loadPart]
  split
  · exact spadRead_focus _ _ _ _ _ _
  · split
    · refine foldl_inv (fun a : Got × State => a.2.focus) _ ?_ _ _
      intro a q; exact loadLine_focus _ _ _ _
    · rfl

@[simp] theorem countMiss_focus (s : State) (i : Nat) (m : Bool) : (s.countMiss i m).focus = s.focus := by
  simp only [State.countMiss]; split <;> rfl

theorem storeEach_focus (t i : Nat) (ch : CacheHint) (b : Bool) (ps : List Part) (bs : List Byte) (acc : Bool × State) :
    (storeEach t i ch b ps bs acc).2.focus = acc.2.focus := by
  induction ps generalizing bs acc with
  | nil => rfl
  | cons p ps ih => rw [storeEach, ih]; exact storePart_focus _ _ _ _ _ _ _

@[simp] theorem storeParts_focus (s : State) (t i : Nat) (ch : CacheHint) (ps : List Part) (bs : List Byte) (b : Bool) :
    (storeParts s t i ch ps bs b).focus = s.focus := by
  simp only [storeParts, countMiss_focus]
  exact storeEach_focus t i ch b ps bs (false, s)

@[simp] theorem loadParts_focus (s : State) (t i : Nat) (ch : CacheHint) (ps : List Part) :
    (loadParts s t i ch ps).2.focus = s.focus := by
  simp only [loadParts, countMiss_focus]
  refine foldl_inv (fun a : Got × State => a.2.focus) _ ?_ ps _
  intro a q; exact loadPart_focus _ _ _ _ _

theorem sid_congr {s s' : State} (h : s'.focus = s.focus) : s'.sid = s.sid := by
  simp only [State.sid, h]

@[simp] theorem storeParts_sid (s : State) (t i : Nat) (ch : CacheHint) (ps : List Part) (bs : List Byte) (b : Bool) :
    (storeParts s t i ch ps bs b).sid = s.sid := sid_congr (storeParts_focus s t i ch ps bs b)

@[simp] theorem loadParts_sid (s : State) (t i : Nat) (ch : CacheHint) (ps : List Part) :
    (loadParts s t i ch ps).2.sid = s.sid := sid_congr (loadParts_focus s t i ch ps)

@[simp] theorem writeBackLine_focus (s : State) (t k : Nat) : (s.writeBackLine t k).focus = s.focus := by
  simp only [State.writeBackLine]; split <;> rfl

@[simp] theorem writeBackAll_focus (s : State) (t : Nat) : (s.writeBackAll t).focus = s.focus := by
  simp only [State.writeBackAll]
  refine foldl_inv State.focus _ ?_ _ _
  intro a k; exact writeBackLine_focus a t k

@[simp] theorem flushAll_focus (s : State) (t : Nat) : (s.flushAll t).focus = s.focus := by
  simp only [State.flushAll, updTask_focus, writeBackAll_focus]

@[simp] theorem releaseL1_focus (s : State) (t : Nat) (sc : Scope) : (s.releaseL1 t sc).focus = s.focus := by
  simp only [State.releaseL1]; split
  · exact writeBackAll_focus s t
  · rfl

@[simp] theorem acquireL1_focus (s : State) (t : Nat) (sc : Scope) : (s.acquireL1 t sc).focus = s.focus := by
  simp only [State.acquireL1]; split
  · exact flushAll_focus s t
  · rfl

@[simp] theorem freshen_focus (s : State) (t : Nat) (sc : Scope) (ps : List Part) : (s.freshen t sc ps).focus = s.focus := by
  simp only [State.freshen]; split
  · refine foldl_inv State.focus _ ?_ _ _
    intro a p; exact flushLine_focus _ _ _
  · rfl

@[simp] theorem strandArrives_focus (s : State) (i n : Nat) : (strandArrives s i n).focus = s.focus := by
  simp only [strandArrives]
  split
  · rfl
  · split <;> rfl

@[simp] theorem releaseL1_sid (s : State) (t : Nat) (sc : Scope) : (s.releaseL1 t sc).sid = s.sid :=
  sid_congr (releaseL1_focus s t sc)

@[simp] theorem acquireL1_sid (s : State) (t : Nat) (sc : Scope) : (s.acquireL1 t sc).sid = s.sid :=
  sid_congr (acquireL1_focus s t sc)

@[simp] theorem strandArrives_sid (s : State) (i n : Nat) : (strandArrives s i n).sid = s.sid :=
  sid_congr (strandArrives_focus s i n)

/-! ### Translation -/

theorem useCcb_focus (s : State) (p : BitVec 20) : (useCcb s p).focus = s.focus := rfl

theorem tlbFill_focus (s : State) (a : Agent) (e : TlbEnt) : (s.tlbFill a e).focus = s.focus := by
  simp only [State.tlbFill]; split <;> rfl

theorem walk_focus (s : State) (a : Agent) (va : Nat) (acc : Acc) : (walk s a va acc).2.focus = s.focus := by
  simp only [walk]
  repeat' split
  all_goals first
    | rfl
    | exact tlbFill_focus _ _ _

theorem translate_focus (s : State) (a : Agent) (va : Nat) (acc : Acc) : (translate s a va acc).2.focus = s.focus := by
  have h : ∀ r : Xlate × State, r.2.focus = s.focus → (match r.1 with
      | .ok e => match permFault e.pte a.user acc with
        | some sub => (Xlate.fault sub, r.2)
        | none => r
      | _ => r).2.focus = s.focus := by
    intro r hr
    repeat' split
    all_goals exact hr
  refine h _ ?_
  repeat' split
  all_goals first
    | rfl
    | exact walk_focus _ _ _ _

theorem fabricPart_focus (s : State) (a : Agent) (va len : Nat) (acc : Acc) :
    (fabricPart s a va len acc).2.focus = s.focus := by
  simp only [fabricPart]
  repeat' split
  all_goals first
    | rfl
    | (rename_i h; exact (congrArg (fun r : Xlate × State => r.2.focus) h).symm.trans (translate_focus _ _ _ _))

theorem locate_focus (s : State) (a : Agent) (va len : Nat) (acc : Acc) : (locate s a va len acc).2.focus = s.focus := by
  simp only [locate]
  repeat' split
  all_goals first
    | rfl
    | exact fabricPart_focus _ _ _ _ _
    | (rename_i h; exact (congrArg (fun r : Xlate × State => r.2.focus) h).symm.trans (translate_focus _ _ _ _))
    | (rename_i h _; exact (congrArg (fun r : Xlate × State => r.2.focus) h).symm.trans (translate_focus _ _ _ _))

theorem pieces_focus (a : Agent) (acc : Acc) (fl : Bool) (w fuel : Nat) {s s' : State} {va len : Nat} {ps : List Part}
    (h : pieces s a acc fl w fuel va len = .ok (ps, s')) : s'.focus = s.focus := by
  induction fuel generalizing s s' va len ps with
  | zero => simp only [pieces, Except.ok.injEq, Prod.mk.injEq] at h; rw [← h.2]
  | succ n ih =>
    rw [pieces] at h
    split at h
    · simp only [Except.ok.injEq, Prod.mk.injEq] at h; rw [← h.2]
    · simp only [] at h
      split at h
      · rename_i p s1 hl
        have h1 : s1.focus = s.focus := by
          have := locate_focus s a va (Nat.min len (pieceEnd va - va)) acc
          rw [hl] at this; exact this
        simp only [bind, Except.bind] at h
        split at h
        · cases h
        · split at h
          · cases h
          · rename_i r hr
            simp only [Except.ok.injEq, Prod.mk.injEq] at h
            obtain ⟨r1, r2⟩ := r
            rw [← h.2, ← h1]; exact ih hr
      · cases h
      · cases h

theorem accessParts_focus {s s' : State} {a : Agent} {acc : Acc} {ea : Word} {len : Nat} {fl : Bool} {ps : List Part}
    (h : accessParts s a acc ea len fl = .ok (ps, s')) : s'.focus = s.focus := pieces_focus a acc fl _ _ h

theorem scalarParts_focus {s s' : State} {t : Strand} {f : FormM} {acc : Acc} {ea : Word} {w : Nat} {ps : List Part}
    (h : scalarParts s t f acc ea w = .ok (ps, s')) : s'.focus = s.focus := by
  simp only [scalarParts, bind, Except.bind] at h
  split at h
  · cases h
  · split at h
    · cases h
    · rename_i r hr
      split at h
      · cases h
      · simp only [Except.ok.injEq] at h
        subst h
        exact accessParts_focus hr

theorem relReady_focus {s s' : State} {t : Strand} {o : MemOrd} {sc : Scope} (h : relReady s t o sc = .ok s') :
    s'.focus = s.focus := by
  cases o
  · simp only [relReady, Except.ok.injEq] at h; rw [h]
  · simp only [relReady, Except.ok.injEq] at h; rw [h]
  all_goals
    simp only [relReady, bind, Except.bind] at h
    split at h
    · cases h
    · simp only [Except.ok.injEq] at h; rw [← h]; exact releaseL1_focus _ _ _

end Sys2Proof.Machine
end

