-- ==== Sys2Proof/Laws/State.lean ====
section
/-! SUPPORT. The fields of a state after each named update of it: what the update writes, and every other field as it was.
One lemma per field per update, each true by definition. -/

namespace Sys2Proof.Machine

/-! ### writeLoc -/

@[simp] theorem State.writeLoc_strands (s : State) (a : Nat) (bs : List Byte) (b : Bool) : (s.writeLoc a bs b).strands = s.strands := rfl
@[simp] theorem State.writeLoc_tiles (s : State) (a : Nat) (bs : List Byte) (b : Bool) : (s.writeLoc a bs b).tiles = s.tiles := rfl
@[simp] theorem State.writeLoc_clusters (s : State) (a : Nat) (bs : List Byte) (b : Bool) : (s.writeLoc a bs b).clusters = s.clusters := rfl
@[simp] theorem State.writeLoc_mem (s : State) (a : Nat) (bs : List Byte) (b : Bool) : (s.writeLoc a bs b).mem = Memory.writeN s.mem a bs := rfl
@[simp] theorem State.writeLoc_poison (s : State) (a : Nat) (bs : List Byte) (b : Bool) : (s.writeLoc a bs b).poison = poisonAfter s.poison a bs.length b := rfl
@[simp] theorem State.writeLoc_cycle (s : State) (a : Nat) (bs : List Byte) (b : Bool) : (s.writeLoc a bs b).cycle = s.cycle := rfl
@[simp] theorem State.writeLoc_head (s : State) (a : Nat) (bs : List Byte) (b : Bool) : (s.writeLoc a bs b).head = s.head := rfl
@[simp] theorem State.writeLoc_dev (s : State) (a : Nat) (bs : List Byte) (b : Bool) : (s.writeLoc a bs b).dev = s.dev := rfl
@[simp] theorem State.writeLoc_faults (s : State) (a : Nat) (bs : List Byte) (b : Bool) : (s.writeLoc a bs b).faults = s.faults := rfl
@[simp] theorem State.writeLoc_out (s : State) (a : Nat) (bs : List Byte) (b : Bool) : (s.writeLoc a bs b).out = s.out := rfl
@[simp] theorem State.writeLoc_loom (s : State) (a : Nat) (bs : List Byte) (b : Bool) : (s.writeLoc a bs b).loom = s.loom := rfl
@[simp] theorem State.writeLoc_cows (s : State) (a : Nat) (bs : List Byte) (b : Bool) : (s.writeLoc a bs b).cows = s.cows := rfl
@[simp] theorem State.writeLoc_late (s : State) (a : Nat) (bs : List Byte) (b : Bool) : (s.writeLoc a bs b).late = s.late := rfl
@[simp] theorem State.writeLoc_areas (s : State) (a : Nat) (bs : List Byte) (b : Bool) :
    (s.writeLoc a bs b).areas = s.areas.filter fun q => q.2.stands (Memory.writeN s.mem a bs) a bs.length := rfl
@[simp] theorem State.writeLoc_su (s : State) (a : Nat) (bs : List Byte) (b : Bool) : (s.writeLoc a bs b).su = s.su := rfl
@[simp] theorem State.writeLoc_host (s : State) (a : Nat) (bs : List Byte) (b : Bool) : (s.writeLoc a bs b).host = s.host := rfl
@[simp] theorem State.writeLoc_req (s : State) (a : Nat) (bs : List Byte) (b : Bool) : (s.writeLoc a bs b).req = s.req := rfl
@[simp] theorem State.writeLoc_agenda (s : State) (a : Nat) (bs : List Byte) (b : Bool) : (s.writeLoc a bs b).agenda = s.agenda := rfl
@[simp] theorem State.writeLoc_unit (s : State) (a : Nat) (bs : List Byte) (b : Bool) : (s.writeLoc a bs b).unit = s.unit := rfl
@[simp] theorem State.writeLoc_free (s : State) (a : Nat) (bs : List Byte) (b : Bool) : (s.writeLoc a bs b).free = s.free := rfl
@[simp] theorem State.writeLoc_focus (s : State) (a : Nat) (bs : List Byte) (b : Bool) : (s.writeLoc a bs b).focus = s.focus := rfl

/-! ### writeLocNat -/

@[simp] theorem State.writeLocNat_strands (s : State) (a n v : Nat) : (s.writeLocNat a n v).strands = s.strands := rfl
@[simp] theorem State.writeLocNat_tiles (s : State) (a n v : Nat) : (s.writeLocNat a n v).tiles = s.tiles := rfl
@[simp] theorem State.writeLocNat_clusters (s : State) (a n v : Nat) : (s.writeLocNat a n v).clusters = s.clusters := rfl
@[simp] theorem State.writeLocNat_mem (s : State) (a n v : Nat) : (s.writeLocNat a n v).mem = Memory.writeN s.mem a (leBytes n v) := rfl
@[simp] theorem State.writeLocNat_cycle (s : State) (a n v : Nat) : (s.writeLocNat a n v).cycle = s.cycle := rfl
@[simp] theorem State.writeLocNat_head (s : State) (a n v : Nat) : (s.writeLocNat a n v).head = s.head := rfl
@[simp] theorem State.writeLocNat_dev (s : State) (a n v : Nat) : (s.writeLocNat a n v).dev = s.dev := rfl
@[simp] theorem State.writeLocNat_faults (s : State) (a n v : Nat) : (s.writeLocNat a n v).faults = s.faults := rfl
@[simp] theorem State.writeLocNat_out (s : State) (a n v : Nat) : (s.writeLocNat a n v).out = s.out := rfl
@[simp] theorem State.writeLocNat_loom (s : State) (a n v : Nat) : (s.writeLocNat a n v).loom = s.loom := rfl
@[simp] theorem State.writeLocNat_cows (s : State) (a n v : Nat) : (s.writeLocNat a n v).cows = s.cows := rfl
@[simp] theorem State.writeLocNat_late (s : State) (a n v : Nat) : (s.writeLocNat a n v).late = s.late := rfl
@[simp] theorem State.writeLocNat_areas (s : State) (a n v : Nat) :
    (s.writeLocNat a n v).areas =
      s.areas.filter fun q => q.2.stands (Memory.writeN s.mem a (leBytes n v)) a (leBytes n v).length := rfl
@[simp] theorem State.writeLocNat_su (s : State) (a n v : Nat) : (s.writeLocNat a n v).su = s.su := rfl
@[simp] theorem State.writeLocNat_host (s : State) (a n v : Nat) : (s.writeLocNat a n v).host = s.host := rfl
@[simp] theorem State.writeLocNat_req (s : State) (a n v : Nat) : (s.writeLocNat a n v).req = s.req := rfl
@[simp] theorem State.writeLocNat_agenda (s : State) (a n v : Nat) : (s.writeLocNat a n v).agenda = s.agenda := rfl
@[simp] theorem State.writeLocNat_unit (s : State) (a n v : Nat) : (s.writeLocNat a n v).unit = s.unit := rfl
@[simp] theorem State.writeLocNat_free (s : State) (a n v : Nat) : (s.writeLocNat a n v).free = s.free := rfl
@[simp] theorem State.writeLocNat_focus (s : State) (a n v : Nat) : (s.writeLocNat a n v).focus = s.focus := rfl

/-! ### clearLoc -/

@[simp] theorem State.clearLoc_strands (s : State) (a n : Nat) : (s.clearLoc a n).strands = s.strands := rfl
@[simp] theorem State.clearLoc_tiles (s : State) (a n : Nat) : (s.clearLoc a n).tiles = s.tiles := rfl
@[simp] theorem State.clearLoc_clusters (s : State) (a n : Nat) : (s.clearLoc a n).clusters = s.clusters := rfl
@[simp] theorem State.clearLoc_mem (s : State) (a n : Nat) : (s.clearLoc a n).mem = Memory.clear s.mem a n := rfl
@[simp] theorem State.clearLoc_cycle (s : State) (a n : Nat) : (s.clearLoc a n).cycle = s.cycle := rfl
@[simp] theorem State.clearLoc_head (s : State) (a n : Nat) : (s.clearLoc a n).head = s.head := rfl
@[simp] theorem State.clearLoc_dev (s : State) (a n : Nat) : (s.clearLoc a n).dev = s.dev := rfl
@[simp] theorem State.clearLoc_faults (s : State) (a n : Nat) : (s.clearLoc a n).faults = s.faults := rfl
@[simp] theorem State.clearLoc_out (s : State) (a n : Nat) : (s.clearLoc a n).out = s.out := rfl
@[simp] theorem State.clearLoc_loom (s : State) (a n : Nat) : (s.clearLoc a n).loom = s.loom := rfl
@[simp] theorem State.clearLoc_cows (s : State) (a n : Nat) : (s.clearLoc a n).cows = s.cows := rfl
@[simp] theorem State.clearLoc_late (s : State) (a n : Nat) : (s.clearLoc a n).late = s.late := rfl
@[simp] theorem State.clearLoc_areas (s : State) (a n : Nat) : (s.clearLoc a n).areas = s.areas := rfl
@[simp] theorem State.clearLoc_su (s : State) (a n : Nat) : (s.clearLoc a n).su = s.su := rfl
@[simp] theorem State.clearLoc_host (s : State) (a n : Nat) : (s.clearLoc a n).host = s.host := rfl
@[simp] theorem State.clearLoc_req (s : State) (a n : Nat) : (s.clearLoc a n).req = s.req := rfl
@[simp] theorem State.clearLoc_agenda (s : State) (a n : Nat) : (s.clearLoc a n).agenda = s.agenda := rfl
@[simp] theorem State.clearLoc_unit (s : State) (a n : Nat) : (s.clearLoc a n).unit = s.unit := rfl
@[simp] theorem State.clearLoc_free (s : State) (a n : Nat) : (s.clearLoc a n).free = s.free := rfl
@[simp] theorem State.clearLoc_focus (s : State) (a n : Nat) : (s.clearLoc a n).focus = s.focus := rfl

/-! ### setStrand -/

@[simp] theorem State.setStrand_strands (s : State) (i : Nat) (t : Strand) : (s.setStrand i t).strands = s.strands.set i t := rfl
@[simp] theorem State.setStrand_tiles (s : State) (i : Nat) (t : Strand) : (s.setStrand i t).tiles = s.tiles := rfl
@[simp] theorem State.setStrand_clusters (s : State) (i : Nat) (t : Strand) : (s.setStrand i t).clusters = s.clusters := rfl
@[simp] theorem State.setStrand_mem (s : State) (i : Nat) (t : Strand) : (s.setStrand i t).mem = s.mem := rfl
@[simp] theorem State.setStrand_poison (s : State) (i : Nat) (t : Strand) : (s.setStrand i t).poison = s.poison := rfl
@[simp] theorem State.setStrand_cycle (s : State) (i : Nat) (t : Strand) : (s.setStrand i t).cycle = s.cycle := rfl
@[simp] theorem State.setStrand_head (s : State) (i : Nat) (t : Strand) : (s.setStrand i t).head = s.head := rfl
@[simp] theorem State.setStrand_dev (s : State) (i : Nat) (t : Strand) : (s.setStrand i t).dev = s.dev := rfl
@[simp] theorem State.setStrand_faults (s : State) (i : Nat) (t : Strand) : (s.setStrand i t).faults = s.faults := rfl
@[simp] theorem State.setStrand_out (s : State) (i : Nat) (t : Strand) : (s.setStrand i t).out = s.out := rfl
@[simp] theorem State.setStrand_loom (s : State) (i : Nat) (t : Strand) : (s.setStrand i t).loom = s.loom := rfl
@[simp] theorem State.setStrand_cows (s : State) (i : Nat) (t : Strand) : (s.setStrand i t).cows = s.cows := rfl
@[simp] theorem State.setStrand_late (s : State) (i : Nat) (t : Strand) : (s.setStrand i t).late = s.late := rfl
@[simp] theorem State.setStrand_areas (s : State) (i : Nat) (t : Strand) : (s.setStrand i t).areas = s.areas := rfl
@[simp] theorem State.setStrand_su (s : State) (i : Nat) (t : Strand) : (s.setStrand i t).su = s.su := rfl
@[simp] theorem State.setStrand_host (s : State) (i : Nat) (t : Strand) : (s.setStrand i t).host = s.host := rfl
@[simp] theorem State.setStrand_req (s : State) (i : Nat) (t : Strand) : (s.setStrand i t).req = s.req := rfl
@[simp] theorem State.setStrand_agenda (s : State) (i : Nat) (t : Strand) : (s.setStrand i t).agenda = s.agenda := rfl
@[simp] theorem State.setStrand_unit (s : State) (i : Nat) (t : Strand) : (s.setStrand i t).unit = s.unit := rfl
@[simp] theorem State.setStrand_free (s : State) (i : Nat) (t : Strand) : (s.setStrand i t).free = s.free := rfl
@[simp] theorem State.setStrand_focus (s : State) (i : Nat) (t : Strand) : (s.setStrand i t).focus = s.focus := rfl

/-! ### dropStrand -/

@[simp] theorem State.dropStrand_strands (s : State) (i : Nat) : (s.dropStrand i).strands = s.strands.erase i := rfl
@[simp] theorem State.dropStrand_tiles (s : State) (i : Nat) : (s.dropStrand i).tiles = s.tiles := rfl
@[simp] theorem State.dropStrand_clusters (s : State) (i : Nat) : (s.dropStrand i).clusters = s.clusters := rfl
@[simp] theorem State.dropStrand_mem (s : State) (i : Nat) : (s.dropStrand i).mem = s.mem := rfl
@[simp] theorem State.dropStrand_poison (s : State) (i : Nat) : (s.dropStrand i).poison = s.poison := rfl
@[simp] theorem State.dropStrand_cycle (s : State) (i : Nat) : (s.dropStrand i).cycle = s.cycle := rfl
@[simp] theorem State.dropStrand_head (s : State) (i : Nat) : (s.dropStrand i).head = s.head := rfl
@[simp] theorem State.dropStrand_dev (s : State) (i : Nat) : (s.dropStrand i).dev = s.dev := rfl
@[simp] theorem State.dropStrand_faults (s : State) (i : Nat) : (s.dropStrand i).faults = s.faults := rfl
@[simp] theorem State.dropStrand_out (s : State) (i : Nat) : (s.dropStrand i).out = s.out := rfl
@[simp] theorem State.dropStrand_loom (s : State) (i : Nat) : (s.dropStrand i).loom = s.loom := rfl
@[simp] theorem State.dropStrand_cows (s : State) (i : Nat) : (s.dropStrand i).cows = s.cows := rfl
@[simp] theorem State.dropStrand_late (s : State) (i : Nat) : (s.dropStrand i).late = s.late := rfl
@[simp] theorem State.dropStrand_areas (s : State) (i : Nat) : (s.dropStrand i).areas = s.areas := rfl
@[simp] theorem State.dropStrand_su (s : State) (i : Nat) : (s.dropStrand i).su = s.su := rfl
@[simp] theorem State.dropStrand_host (s : State) (i : Nat) : (s.dropStrand i).host = s.host := rfl
@[simp] theorem State.dropStrand_req (s : State) (i : Nat) : (s.dropStrand i).req = s.req := rfl
@[simp] theorem State.dropStrand_agenda (s : State) (i : Nat) : (s.dropStrand i).agenda = s.agenda := rfl
@[simp] theorem State.dropStrand_unit (s : State) (i : Nat) : (s.dropStrand i).unit = s.unit := rfl
@[simp] theorem State.dropStrand_free (s : State) (i : Nat) : (s.dropStrand i).free = s.free := rfl
@[simp] theorem State.dropStrand_focus (s : State) (i : Nat) : (s.dropStrand i).focus = s.focus := rfl

/-! ### updStrand -/

@[simp] theorem State.updStrand_strands (s : State) (i : Nat) (f : Strand → Strand) : (s.updStrand i f).strands = s.strands.update i f := rfl
@[simp] theorem State.updStrand_tiles (s : State) (i : Nat) (f : Strand → Strand) : (s.updStrand i f).tiles = s.tiles := rfl
@[simp] theorem State.updStrand_clusters (s : State) (i : Nat) (f : Strand → Strand) : (s.updStrand i f).clusters = s.clusters := rfl
@[simp] theorem State.updStrand_mem (s : State) (i : Nat) (f : Strand → Strand) : (s.updStrand i f).mem = s.mem := rfl
@[simp] theorem State.updStrand_poison (s : State) (i : Nat) (f : Strand → Strand) : (s.updStrand i f).poison = s.poison := rfl
@[simp] theorem State.updStrand_cycle (s : State) (i : Nat) (f : Strand → Strand) : (s.updStrand i f).cycle = s.cycle := rfl
@[simp] theorem State.updStrand_head (s : State) (i : Nat) (f : Strand → Strand) : (s.updStrand i f).head = s.head := rfl
@[simp] theorem State.updStrand_dev (s : State) (i : Nat) (f : Strand → Strand) : (s.updStrand i f).dev = s.dev := rfl
@[simp] theorem State.updStrand_faults (s : State) (i : Nat) (f : Strand → Strand) : (s.updStrand i f).faults = s.faults := rfl
@[simp] theorem State.updStrand_out (s : State) (i : Nat) (f : Strand → Strand) : (s.updStrand i f).out = s.out := rfl
@[simp] theorem State.updStrand_loom (s : State) (i : Nat) (f : Strand → Strand) : (s.updStrand i f).loom = s.loom := rfl
@[simp] theorem State.updStrand_cows (s : State) (i : Nat) (f : Strand → Strand) : (s.updStrand i f).cows = s.cows := rfl
@[simp] theorem State.updStrand_late (s : State) (i : Nat) (f : Strand → Strand) : (s.updStrand i f).late = s.late := rfl
@[simp] theorem State.updStrand_areas (s : State) (i : Nat) (f : Strand → Strand) : (s.updStrand i f).areas = s.areas := rfl
@[simp] theorem State.updStrand_su (s : State) (i : Nat) (f : Strand → Strand) : (s.updStrand i f).su = s.su := rfl
@[simp] theorem State.updStrand_host (s : State) (i : Nat) (f : Strand → Strand) : (s.updStrand i f).host = s.host := rfl
@[simp] theorem State.updStrand_req (s : State) (i : Nat) (f : Strand → Strand) : (s.updStrand i f).req = s.req := rfl
@[simp] theorem State.updStrand_agenda (s : State) (i : Nat) (f : Strand → Strand) : (s.updStrand i f).agenda = s.agenda := rfl
@[simp] theorem State.updStrand_unit (s : State) (i : Nat) (f : Strand → Strand) : (s.updStrand i f).unit = s.unit := rfl
@[simp] theorem State.updStrand_free (s : State) (i : Nat) (f : Strand → Strand) : (s.updStrand i f).free = s.free := rfl
@[simp] theorem State.updStrand_focus (s : State) (i : Nat) (f : Strand → Strand) : (s.updStrand i f).focus = s.focus := rfl

/-! ### setTile -/

@[simp] theorem State.setTile_strands (s : State) (t : Nat) (x : Tile) : (s.setTile t x).strands = s.strands := rfl
@[simp] theorem State.setTile_tiles (s : State) (t : Nat) (x : Tile) : (s.setTile t x).tiles = s.tiles.set t x := rfl
@[simp] theorem State.setTile_clusters (s : State) (t : Nat) (x : Tile) : (s.setTile t x).clusters = s.clusters := rfl
@[simp] theorem State.setTile_mem (s : State) (t : Nat) (x : Tile) : (s.setTile t x).mem = s.mem := rfl
@[simp] theorem State.setTile_poison (s : State) (t : Nat) (x : Tile) : (s.setTile t x).poison = s.poison := rfl
@[simp] theorem State.setTile_cycle (s : State) (t : Nat) (x : Tile) : (s.setTile t x).cycle = s.cycle := rfl
@[simp] theorem State.setTile_head (s : State) (t : Nat) (x : Tile) : (s.setTile t x).head = s.head := rfl
@[simp] theorem State.setTile_dev (s : State) (t : Nat) (x : Tile) : (s.setTile t x).dev = s.dev := rfl
@[simp] theorem State.setTile_faults (s : State) (t : Nat) (x : Tile) : (s.setTile t x).faults = s.faults := rfl
@[simp] theorem State.setTile_out (s : State) (t : Nat) (x : Tile) : (s.setTile t x).out = s.out := rfl
@[simp] theorem State.setTile_loom (s : State) (t : Nat) (x : Tile) : (s.setTile t x).loom = s.loom := rfl
@[simp] theorem State.setTile_cows (s : State) (t : Nat) (x : Tile) : (s.setTile t x).cows = s.cows := rfl
@[simp] theorem State.setTile_late (s : State) (t : Nat) (x : Tile) : (s.setTile t x).late = s.late := rfl
@[simp] theorem State.setTile_areas (s : State) (t : Nat) (x : Tile) : (s.setTile t x).areas = s.areas := rfl
@[simp] theorem State.setTile_su (s : State) (t : Nat) (x : Tile) : (s.setTile t x).su = s.su := rfl
@[simp] theorem State.setTile_host (s : State) (t : Nat) (x : Tile) : (s.setTile t x).host = s.host := rfl
@[simp] theorem State.setTile_req (s : State) (t : Nat) (x : Tile) : (s.setTile t x).req = s.req := rfl
@[simp] theorem State.setTile_agenda (s : State) (t : Nat) (x : Tile) : (s.setTile t x).agenda = s.agenda := rfl
@[simp] theorem State.setTile_unit (s : State) (t : Nat) (x : Tile) : (s.setTile t x).unit = s.unit := rfl
@[simp] theorem State.setTile_free (s : State) (t : Nat) (x : Tile) : (s.setTile t x).free = s.free := rfl
@[simp] theorem State.setTile_focus (s : State) (t : Nat) (x : Tile) : (s.setTile t x).focus = s.focus := rfl

/-! ### updTile -/

@[simp] theorem State.updTile_strands (s : State) (t : Nat) (f : Tile → Tile) : (s.updTile t f).strands = s.strands := rfl
@[simp] theorem State.updTile_tiles (s : State) (t : Nat) (f : Tile → Tile) : (s.updTile t f).tiles = s.tiles.set t (f (s.tile t)) := rfl
@[simp] theorem State.updTile_clusters (s : State) (t : Nat) (f : Tile → Tile) : (s.updTile t f).clusters = s.clusters := rfl
@[simp] theorem State.updTile_mem (s : State) (t : Nat) (f : Tile → Tile) : (s.updTile t f).mem = s.mem := rfl
@[simp] theorem State.updTile_poison (s : State) (t : Nat) (f : Tile → Tile) : (s.updTile t f).poison = s.poison := rfl
@[simp] theorem State.updTile_cycle (s : State) (t : Nat) (f : Tile → Tile) : (s.updTile t f).cycle = s.cycle := rfl
@[simp] theorem State.updTile_head (s : State) (t : Nat) (f : Tile → Tile) : (s.updTile t f).head = s.head := rfl
@[simp] theorem State.updTile_dev (s : State) (t : Nat) (f : Tile → Tile) : (s.updTile t f).dev = s.dev := rfl
@[simp] theorem State.updTile_faults (s : State) (t : Nat) (f : Tile → Tile) : (s.updTile t f).faults = s.faults := rfl
@[simp] theorem State.updTile_out (s : State) (t : Nat) (f : Tile → Tile) : (s.updTile t f).out = s.out := rfl
@[simp] theorem State.updTile_loom (s : State) (t : Nat) (f : Tile → Tile) : (s.updTile t f).loom = s.loom := rfl
@[simp] theorem State.updTile_cows (s : State) (t : Nat) (f : Tile → Tile) : (s.updTile t f).cows = s.cows := rfl
@[simp] theorem State.updTile_late (s : State) (t : Nat) (f : Tile → Tile) : (s.updTile t f).late = s.late := rfl
@[simp] theorem State.updTile_areas (s : State) (t : Nat) (f : Tile → Tile) : (s.updTile t f).areas = s.areas := rfl
@[simp] theorem State.updTile_su (s : State) (t : Nat) (f : Tile → Tile) : (s.updTile t f).su = s.su := rfl
@[simp] theorem State.updTile_host (s : State) (t : Nat) (f : Tile → Tile) : (s.updTile t f).host = s.host := rfl
@[simp] theorem State.updTile_req (s : State) (t : Nat) (f : Tile → Tile) : (s.updTile t f).req = s.req := rfl
@[simp] theorem State.updTile_agenda (s : State) (t : Nat) (f : Tile → Tile) : (s.updTile t f).agenda = s.agenda := rfl
@[simp] theorem State.updTile_unit (s : State) (t : Nat) (f : Tile → Tile) : (s.updTile t f).unit = s.unit := rfl
@[simp] theorem State.updTile_free (s : State) (t : Nat) (f : Tile → Tile) : (s.updTile t f).free = s.free := rfl
@[simp] theorem State.updTile_focus (s : State) (t : Nat) (f : Tile → Tile) : (s.updTile t f).focus = s.focus := rfl

/-! ### updTask -/

@[simp] theorem State.updTask_strands (s : State) (t : Nat) (f : Task → Task) : (s.updTask t f).strands = s.strands := rfl
@[simp] theorem State.updTask_clusters (s : State) (t : Nat) (f : Task → Task) : (s.updTask t f).clusters = s.clusters := rfl
@[simp] theorem State.updTask_mem (s : State) (t : Nat) (f : Task → Task) : (s.updTask t f).mem = s.mem := rfl
@[simp] theorem State.updTask_poison (s : State) (t : Nat) (f : Task → Task) : (s.updTask t f).poison = s.poison := rfl
@[simp] theorem State.updTask_cycle (s : State) (t : Nat) (f : Task → Task) : (s.updTask t f).cycle = s.cycle := rfl
@[simp] theorem State.updTask_head (s : State) (t : Nat) (f : Task → Task) : (s.updTask t f).head = s.head := rfl
@[simp] theorem State.updTask_dev (s : State) (t : Nat) (f : Task → Task) : (s.updTask t f).dev = s.dev := rfl
@[simp] theorem State.updTask_faults (s : State) (t : Nat) (f : Task → Task) : (s.updTask t f).faults = s.faults := rfl
@[simp] theorem State.updTask_out (s : State) (t : Nat) (f : Task → Task) : (s.updTask t f).out = s.out := rfl
@[simp] theorem State.updTask_loom (s : State) (t : Nat) (f : Task → Task) : (s.updTask t f).loom = s.loom := rfl
@[simp] theorem State.updTask_cows (s : State) (t : Nat) (f : Task → Task) : (s.updTask t f).cows = s.cows := rfl
@[simp] theorem State.updTask_late (s : State) (t : Nat) (f : Task → Task) : (s.updTask t f).late = s.late := rfl
@[simp] theorem State.updTask_areas (s : State) (t : Nat) (f : Task → Task) : (s.updTask t f).areas = s.areas := rfl
@[simp] theorem State.updTask_su (s : State) (t : Nat) (f : Task → Task) : (s.updTask t f).su = s.su := rfl
@[simp] theorem State.updTask_host (s : State) (t : Nat) (f : Task → Task) : (s.updTask t f).host = s.host := rfl
@[simp] theorem State.updTask_req (s : State) (t : Nat) (f : Task → Task) : (s.updTask t f).req = s.req := rfl
@[simp] theorem State.updTask_agenda (s : State) (t : Nat) (f : Task → Task) : (s.updTask t f).agenda = s.agenda := rfl
@[simp] theorem State.updTask_unit (s : State) (t : Nat) (f : Task → Task) : (s.updTask t f).unit = s.unit := rfl
@[simp] theorem State.updTask_free (s : State) (t : Nat) (f : Task → Task) : (s.updTask t f).free = s.free := rfl
@[simp] theorem State.updTask_focus (s : State) (t : Nat) (f : Task → Task) : (s.updTask t f).focus = s.focus := rfl

/-! ### setCluster -/

@[simp] theorem State.setCluster_strands (s : State) (c : Nat) (x : Cluster) : (s.setCluster c x).strands = s.strands := rfl
@[simp] theorem State.setCluster_tiles (s : State) (c : Nat) (x : Cluster) : (s.setCluster c x).tiles = s.tiles := rfl
@[simp] theorem State.setCluster_clusters (s : State) (c : Nat) (x : Cluster) : (s.setCluster c x).clusters = s.clusters.set c x := rfl
@[simp] theorem State.setCluster_mem (s : State) (c : Nat) (x : Cluster) : (s.setCluster c x).mem = s.mem := rfl
@[simp] theorem State.setCluster_poison (s : State) (c : Nat) (x : Cluster) : (s.setCluster c x).poison = s.poison := rfl
@[simp] theorem State.setCluster_cycle (s : State) (c : Nat) (x : Cluster) : (s.setCluster c x).cycle = s.cycle := rfl
@[simp] theorem State.setCluster_head (s : State) (c : Nat) (x : Cluster) : (s.setCluster c x).head = s.head := rfl
@[simp] theorem State.setCluster_dev (s : State) (c : Nat) (x : Cluster) : (s.setCluster c x).dev = s.dev := rfl
@[simp] theorem State.setCluster_faults (s : State) (c : Nat) (x : Cluster) : (s.setCluster c x).faults = s.faults := rfl
@[simp] theorem State.setCluster_out (s : State) (c : Nat) (x : Cluster) : (s.setCluster c x).out = s.out := rfl
@[simp] theorem State.setCluster_loom (s : State) (c : Nat) (x : Cluster) : (s.setCluster c x).loom = s.loom := rfl
@[simp] theorem State.setCluster_cows (s : State) (c : Nat) (x : Cluster) : (s.setCluster c x).cows = s.cows := rfl
@[simp] theorem State.setCluster_late (s : State) (c : Nat) (x : Cluster) : (s.setCluster c x).late = s.late := rfl
@[simp] theorem State.setCluster_areas (s : State) (c : Nat) (x : Cluster) : (s.setCluster c x).areas = s.areas := rfl
@[simp] theorem State.setCluster_su (s : State) (c : Nat) (x : Cluster) : (s.setCluster c x).su = s.su := rfl
@[simp] theorem State.setCluster_host (s : State) (c : Nat) (x : Cluster) : (s.setCluster c x).host = s.host := rfl
@[simp] theorem State.setCluster_req (s : State) (c : Nat) (x : Cluster) : (s.setCluster c x).req = s.req := rfl
@[simp] theorem State.setCluster_agenda (s : State) (c : Nat) (x : Cluster) : (s.setCluster c x).agenda = s.agenda := rfl
@[simp] theorem State.setCluster_unit (s : State) (c : Nat) (x : Cluster) : (s.setCluster c x).unit = s.unit := rfl
@[simp] theorem State.setCluster_free (s : State) (c : Nat) (x : Cluster) : (s.setCluster c x).free = s.free := rfl
@[simp] theorem State.setCluster_focus (s : State) (c : Nat) (x : Cluster) : (s.setCluster c x).focus = s.focus := rfl

/-! ### setSem -/

@[simp] theorem State.setSem_strands (s : State) (c k : Nat) (m : Sem) : (s.setSem c k m).strands = s.strands := rfl
@[simp] theorem State.setSem_tiles (s : State) (c k : Nat) (m : Sem) : (s.setSem c k m).tiles = s.tiles := rfl
@[simp] theorem State.setSem_mem (s : State) (c k : Nat) (m : Sem) : (s.setSem c k m).mem = s.mem := rfl
@[simp] theorem State.setSem_poison (s : State) (c k : Nat) (m : Sem) : (s.setSem c k m).poison = s.poison := rfl
@[simp] theorem State.setSem_cycle (s : State) (c k : Nat) (m : Sem) : (s.setSem c k m).cycle = s.cycle := rfl
@[simp] theorem State.setSem_head (s : State) (c k : Nat) (m : Sem) : (s.setSem c k m).head = s.head := rfl
@[simp] theorem State.setSem_dev (s : State) (c k : Nat) (m : Sem) : (s.setSem c k m).dev = s.dev := rfl
@[simp] theorem State.setSem_faults (s : State) (c k : Nat) (m : Sem) : (s.setSem c k m).faults = s.faults := rfl
@[simp] theorem State.setSem_out (s : State) (c k : Nat) (m : Sem) : (s.setSem c k m).out = s.out := rfl
@[simp] theorem State.setSem_loom (s : State) (c k : Nat) (m : Sem) : (s.setSem c k m).loom = s.loom := rfl
@[simp] theorem State.setSem_cows (s : State) (c k : Nat) (m : Sem) : (s.setSem c k m).cows = s.cows := rfl
@[simp] theorem State.setSem_late (s : State) (c k : Nat) (m : Sem) : (s.setSem c k m).late = s.late := rfl
@[simp] theorem State.setSem_areas (s : State) (c k : Nat) (m : Sem) : (s.setSem c k m).areas = s.areas := rfl
@[simp] theorem State.setSem_su (s : State) (c k : Nat) (m : Sem) : (s.setSem c k m).su = s.su := rfl
@[simp] theorem State.setSem_host (s : State) (c k : Nat) (m : Sem) : (s.setSem c k m).host = s.host := rfl
@[simp] theorem State.setSem_req (s : State) (c k : Nat) (m : Sem) : (s.setSem c k m).req = s.req := rfl
@[simp] theorem State.setSem_agenda (s : State) (c k : Nat) (m : Sem) : (s.setSem c k m).agenda = s.agenda := rfl
@[simp] theorem State.setSem_unit (s : State) (c k : Nat) (m : Sem) : (s.setSem c k m).unit = s.unit := rfl
@[simp] theorem State.setSem_free (s : State) (c k : Nat) (m : Sem) : (s.setSem c k m).free = s.free := rfl
@[simp] theorem State.setSem_focus (s : State) (c k : Nat) (m : Sem) : (s.setSem c k m).focus = s.focus := rfl

/-! ### semAdd -/

@[simp] theorem State.semAdd_strands (s : State) (c k : Nat) (n : BitVec 32) : (s.semAdd c k n).strands = s.strands := rfl
@[simp] theorem State.semAdd_tiles (s : State) (c k : Nat) (n : BitVec 32) : (s.semAdd c k n).tiles = s.tiles := rfl
@[simp] theorem State.semAdd_mem (s : State) (c k : Nat) (n : BitVec 32) : (s.semAdd c k n).mem = s.mem := rfl
@[simp] theorem State.semAdd_poison (s : State) (c k : Nat) (n : BitVec 32) : (s.semAdd c k n).poison = s.poison := rfl
@[simp] theorem State.semAdd_cycle (s : State) (c k : Nat) (n : BitVec 32) : (s.semAdd c k n).cycle = s.cycle := rfl
@[simp] theorem State.semAdd_head (s : State) (c k : Nat) (n : BitVec 32) : (s.semAdd c k n).head = s.head := rfl
@[simp] theorem State.semAdd_dev (s : State) (c k : Nat) (n : BitVec 32) : (s.semAdd c k n).dev = s.dev := rfl
@[simp] theorem State.semAdd_faults (s : State) (c k : Nat) (n : BitVec 32) : (s.semAdd c k n).faults = s.faults := rfl
@[simp] theorem State.semAdd_out (s : State) (c k : Nat) (n : BitVec 32) : (s.semAdd c k n).out = s.out := rfl
@[simp] theorem State.semAdd_loom (s : State) (c k : Nat) (n : BitVec 32) : (s.semAdd c k n).loom = s.loom := rfl
@[simp] theorem State.semAdd_cows (s : State) (c k : Nat) (n : BitVec 32) : (s.semAdd c k n).cows = s.cows := rfl
@[simp] theorem State.semAdd_late (s : State) (c k : Nat) (n : BitVec 32) : (s.semAdd c k n).late = s.late := rfl
@[simp] theorem State.semAdd_areas (s : State) (c k : Nat) (n : BitVec 32) : (s.semAdd c k n).areas = s.areas := rfl
@[simp] theorem State.semAdd_su (s : State) (c k : Nat) (n : BitVec 32) : (s.semAdd c k n).su = s.su := rfl
@[simp] theorem State.semAdd_host (s : State) (c k : Nat) (n : BitVec 32) : (s.semAdd c k n).host = s.host := rfl
@[simp] theorem State.semAdd_req (s : State) (c k : Nat) (n : BitVec 32) : (s.semAdd c k n).req = s.req := rfl
@[simp] theorem State.semAdd_agenda (s : State) (c k : Nat) (n : BitVec 32) : (s.semAdd c k n).agenda = s.agenda := rfl
@[simp] theorem State.semAdd_unit (s : State) (c k : Nat) (n : BitVec 32) : (s.semAdd c k n).unit = s.unit := rfl
@[simp] theorem State.semAdd_free (s : State) (c k : Nat) (n : BitVec 32) : (s.semAdd c k n).free = s.free := rfl
@[simp] theorem State.semAdd_focus (s : State) (c k : Nat) (n : BitVec 32) : (s.semAdd c k n).focus = s.focus := rfl

/-! ### semSet -/

@[simp] theorem State.semSet_strands (s : State) (c k : Nat) (n : BitVec 32) : (s.semSet c k n).strands = s.strands := rfl
@[simp] theorem State.semSet_tiles (s : State) (c k : Nat) (n : BitVec 32) : (s.semSet c k n).tiles = s.tiles := rfl
@[simp] theorem State.semSet_mem (s : State) (c k : Nat) (n : BitVec 32) : (s.semSet c k n).mem = s.mem := rfl
@[simp] theorem State.semSet_poison (s : State) (c k : Nat) (n : BitVec 32) : (s.semSet c k n).poison = s.poison := rfl
@[simp] theorem State.semSet_cycle (s : State) (c k : Nat) (n : BitVec 32) : (s.semSet c k n).cycle = s.cycle := rfl
@[simp] theorem State.semSet_head (s : State) (c k : Nat) (n : BitVec 32) : (s.semSet c k n).head = s.head := rfl
@[simp] theorem State.semSet_dev (s : State) (c k : Nat) (n : BitVec 32) : (s.semSet c k n).dev = s.dev := rfl
@[simp] theorem State.semSet_faults (s : State) (c k : Nat) (n : BitVec 32) : (s.semSet c k n).faults = s.faults := rfl
@[simp] theorem State.semSet_out (s : State) (c k : Nat) (n : BitVec 32) : (s.semSet c k n).out = s.out := rfl
@[simp] theorem State.semSet_loom (s : State) (c k : Nat) (n : BitVec 32) : (s.semSet c k n).loom = s.loom := rfl
@[simp] theorem State.semSet_cows (s : State) (c k : Nat) (n : BitVec 32) : (s.semSet c k n).cows = s.cows := rfl
@[simp] theorem State.semSet_late (s : State) (c k : Nat) (n : BitVec 32) : (s.semSet c k n).late = s.late := rfl
@[simp] theorem State.semSet_areas (s : State) (c k : Nat) (n : BitVec 32) : (s.semSet c k n).areas = s.areas := rfl
@[simp] theorem State.semSet_su (s : State) (c k : Nat) (n : BitVec 32) : (s.semSet c k n).su = s.su := rfl
@[simp] theorem State.semSet_host (s : State) (c k : Nat) (n : BitVec 32) : (s.semSet c k n).host = s.host := rfl
@[simp] theorem State.semSet_req (s : State) (c k : Nat) (n : BitVec 32) : (s.semSet c k n).req = s.req := rfl
@[simp] theorem State.semSet_agenda (s : State) (c k : Nat) (n : BitVec 32) : (s.semSet c k n).agenda = s.agenda := rfl
@[simp] theorem State.semSet_unit (s : State) (c k : Nat) (n : BitVec 32) : (s.semSet c k n).unit = s.unit := rfl
@[simp] theorem State.semSet_free (s : State) (c k : Nat) (n : BitVec 32) : (s.semSet c k n).free = s.free := rfl
@[simp] theorem State.semSet_focus (s : State) (c k : Nat) (n : BitVec 32) : (s.semSet c k n).focus = s.focus := rfl

/-! ### leaveSems -/

@[simp] theorem State.leaveSems_strands (s : State) (i : Nat) (b : Bool) : (s.leaveSems i b).strands = s.strands := rfl
@[simp] theorem State.leaveSems_tiles (s : State) (i : Nat) (b : Bool) : (s.leaveSems i b).tiles = s.tiles := rfl
@[simp] theorem State.leaveSems_mem (s : State) (i : Nat) (b : Bool) : (s.leaveSems i b).mem = s.mem := rfl
@[simp] theorem State.leaveSems_poison (s : State) (i : Nat) (b : Bool) : (s.leaveSems i b).poison = s.poison := rfl
@[simp] theorem State.leaveSems_cycle (s : State) (i : Nat) (b : Bool) : (s.leaveSems i b).cycle = s.cycle := rfl
@[simp] theorem State.leaveSems_head (s : State) (i : Nat) (b : Bool) : (s.leaveSems i b).head = s.head := rfl
@[simp] theorem State.leaveSems_dev (s : State) (i : Nat) (b : Bool) : (s.leaveSems i b).dev = s.dev := rfl
@[simp] theorem State.leaveSems_faults (s : State) (i : Nat) (b : Bool) : (s.leaveSems i b).faults = s.faults := rfl
@[simp] theorem State.leaveSems_out (s : State) (i : Nat) (b : Bool) : (s.leaveSems i b).out = s.out := rfl
@[simp] theorem State.leaveSems_loom (s : State) (i : Nat) (b : Bool) : (s.leaveSems i b).loom = s.loom := rfl
@[simp] theorem State.leaveSems_cows (s : State) (i : Nat) (b : Bool) : (s.leaveSems i b).cows = s.cows := rfl
@[simp] theorem State.leaveSems_late (s : State) (i : Nat) (b : Bool) : (s.leaveSems i b).late = s.late := rfl
@[simp] theorem State.leaveSems_areas (s : State) (i : Nat) (b : Bool) : (s.leaveSems i b).areas = s.areas := rfl
@[simp] theorem State.leaveSems_su (s : State) (i : Nat) (b : Bool) : (s.leaveSems i b).su = s.su := rfl
@[simp] theorem State.leaveSems_host (s : State) (i : Nat) (b : Bool) : (s.leaveSems i b).host = s.host := rfl
@[simp] theorem State.leaveSems_req (s : State) (i : Nat) (b : Bool) : (s.leaveSems i b).req = s.req := rfl
@[simp] theorem State.leaveSems_agenda (s : State) (i : Nat) (b : Bool) : (s.leaveSems i b).agenda = s.agenda := rfl
@[simp] theorem State.leaveSems_unit (s : State) (i : Nat) (b : Bool) : (s.leaveSems i b).unit = s.unit := rfl
@[simp] theorem State.leaveSems_free (s : State) (i : Nat) (b : Bool) : (s.leaveSems i b).free = s.free := rfl
@[simp] theorem State.leaveSems_focus (s : State) (i : Nat) (b : Bool) : (s.leaveSems i b).focus = s.focus := rfl

/-! ### failTask -/

@[simp] theorem State.failTask_strands (s : State) (t code : Nat) : (s.failTask t code).strands = s.strands := rfl
@[simp] theorem State.failTask_clusters (s : State) (t code : Nat) : (s.failTask t code).clusters = s.clusters := rfl
@[simp] theorem State.failTask_mem (s : State) (t code : Nat) : (s.failTask t code).mem = s.mem := rfl
@[simp] theorem State.failTask_poison (s : State) (t code : Nat) : (s.failTask t code).poison = s.poison := rfl
@[simp] theorem State.failTask_cycle (s : State) (t code : Nat) : (s.failTask t code).cycle = s.cycle := rfl
@[simp] theorem State.failTask_head (s : State) (t code : Nat) : (s.failTask t code).head = s.head := rfl
@[simp] theorem State.failTask_dev (s : State) (t code : Nat) : (s.failTask t code).dev = s.dev := rfl
@[simp] theorem State.failTask_faults (s : State) (t code : Nat) : (s.failTask t code).faults = s.faults := rfl
@[simp] theorem State.failTask_out (s : State) (t code : Nat) : (s.failTask t code).out = s.out := rfl
@[simp] theorem State.failTask_loom (s : State) (t code : Nat) : (s.failTask t code).loom = s.loom := rfl
@[simp] theorem State.failTask_cows (s : State) (t code : Nat) : (s.failTask t code).cows = s.cows := rfl
@[simp] theorem State.failTask_late (s : State) (t code : Nat) : (s.failTask t code).late = s.late := rfl
@[simp] theorem State.failTask_areas (s : State) (t code : Nat) : (s.failTask t code).areas = s.areas := rfl
@[simp] theorem State.failTask_su (s : State) (t code : Nat) : (s.failTask t code).su = s.su := rfl
@[simp] theorem State.failTask_host (s : State) (t code : Nat) : (s.failTask t code).host = s.host := rfl
@[simp] theorem State.failTask_req (s : State) (t code : Nat) : (s.failTask t code).req = s.req := rfl
@[simp] theorem State.failTask_agenda (s : State) (t code : Nat) : (s.failTask t code).agenda = s.agenda := rfl
@[simp] theorem State.failTask_unit (s : State) (t code : Nat) : (s.failTask t code).unit = s.unit := rfl
@[simp] theorem State.failTask_free (s : State) (t code : Nat) : (s.failTask t code).free = s.free := rfl
@[simp] theorem State.failTask_focus (s : State) (t code : Nat) : (s.failTask t code).focus = s.focus := rfl

/-! ### setStream -/

@[simp] theorem State.setStream_strands (s : State) (n : Nat) (t : Stream) : (s.setStream n t).strands = s.strands := rfl
@[simp] theorem State.setStream_tiles (s : State) (n : Nat) (t : Stream) : (s.setStream n t).tiles = s.tiles := rfl
@[simp] theorem State.setStream_clusters (s : State) (n : Nat) (t : Stream) : (s.setStream n t).clusters = s.clusters := rfl
@[simp] theorem State.setStream_mem (s : State) (n : Nat) (t : Stream) : (s.setStream n t).mem = s.mem := rfl
@[simp] theorem State.setStream_poison (s : State) (n : Nat) (t : Stream) : (s.setStream n t).poison = s.poison := rfl
@[simp] theorem State.setStream_cycle (s : State) (n : Nat) (t : Stream) : (s.setStream n t).cycle = s.cycle := rfl
@[simp] theorem State.setStream_head (s : State) (n : Nat) (t : Stream) : (s.setStream n t).head = s.head := rfl
@[simp] theorem State.setStream_dev (s : State) (n : Nat) (t : Stream) : (s.setStream n t).dev = s.dev := rfl
@[simp] theorem State.setStream_faults (s : State) (n : Nat) (t : Stream) : (s.setStream n t).faults = s.faults := rfl
@[simp] theorem State.setStream_out (s : State) (n : Nat) (t : Stream) : (s.setStream n t).out = s.out := rfl
@[simp] theorem State.setStream_loom (s : State) (n : Nat) (t : Stream) : (s.setStream n t).loom = s.loom := rfl
@[simp] theorem State.setStream_cows (s : State) (n : Nat) (t : Stream) : (s.setStream n t).cows = s.cows := rfl
@[simp] theorem State.setStream_late (s : State) (n : Nat) (t : Stream) : (s.setStream n t).late = s.late := rfl
@[simp] theorem State.setStream_areas (s : State) (n : Nat) (t : Stream) : (s.setStream n t).areas = s.areas := rfl
@[simp] theorem State.setStream_host (s : State) (n : Nat) (t : Stream) : (s.setStream n t).host = s.host := rfl
@[simp] theorem State.setStream_req (s : State) (n : Nat) (t : Stream) : (s.setStream n t).req = s.req := rfl
@[simp] theorem State.setStream_agenda (s : State) (n : Nat) (t : Stream) : (s.setStream n t).agenda = s.agenda := rfl
@[simp] theorem State.setStream_unit (s : State) (n : Nat) (t : Stream) : (s.setStream n t).unit = s.unit := rfl
@[simp] theorem State.setStream_free (s : State) (n : Nat) (t : Stream) : (s.setStream n t).free = s.free := rfl
@[simp] theorem State.setStream_focus (s : State) (n : Nat) (t : Stream) : (s.setStream n t).focus = s.focus := rfl

/-! ### updStream -/

@[simp] theorem State.updStream_strands (s : State) (n : Nat) (f : Stream → Stream) : (s.updStream n f).strands = s.strands := rfl
@[simp] theorem State.updStream_tiles (s : State) (n : Nat) (f : Stream → Stream) : (s.updStream n f).tiles = s.tiles := rfl
@[simp] theorem State.updStream_clusters (s : State) (n : Nat) (f : Stream → Stream) : (s.updStream n f).clusters = s.clusters := rfl
@[simp] theorem State.updStream_mem (s : State) (n : Nat) (f : Stream → Stream) : (s.updStream n f).mem = s.mem := rfl
@[simp] theorem State.updStream_poison (s : State) (n : Nat) (f : Stream → Stream) : (s.updStream n f).poison = s.poison := rfl
@[simp] theorem State.updStream_cycle (s : State) (n : Nat) (f : Stream → Stream) : (s.updStream n f).cycle = s.cycle := rfl
@[simp] theorem State.updStream_head (s : State) (n : Nat) (f : Stream → Stream) : (s.updStream n f).head = s.head := rfl
@[simp] theorem State.updStream_dev (s : State) (n : Nat) (f : Stream → Stream) : (s.updStream n f).dev = s.dev := rfl
@[simp] theorem State.updStream_faults (s : State) (n : Nat) (f : Stream → Stream) : (s.updStream n f).faults = s.faults := rfl
@[simp] theorem State.updStream_out (s : State) (n : Nat) (f : Stream → Stream) : (s.updStream n f).out = s.out := rfl
@[simp] theorem State.updStream_loom (s : State) (n : Nat) (f : Stream → Stream) : (s.updStream n f).loom = s.loom := rfl
@[simp] theorem State.updStream_cows (s : State) (n : Nat) (f : Stream → Stream) : (s.updStream n f).cows = s.cows := rfl
@[simp] theorem State.updStream_late (s : State) (n : Nat) (f : Stream → Stream) : (s.updStream n f).late = s.late := rfl
@[simp] theorem State.updStream_areas (s : State) (n : Nat) (f : Stream → Stream) : (s.updStream n f).areas = s.areas := rfl
@[simp] theorem State.updStream_host (s : State) (n : Nat) (f : Stream → Stream) : (s.updStream n f).host = s.host := rfl
@[simp] theorem State.updStream_req (s : State) (n : Nat) (f : Stream → Stream) : (s.updStream n f).req = s.req := rfl
@[simp] theorem State.updStream_agenda (s : State) (n : Nat) (f : Stream → Stream) : (s.updStream n f).agenda = s.agenda := rfl
@[simp] theorem State.updStream_unit (s : State) (n : Nat) (f : Stream → Stream) : (s.updStream n f).unit = s.unit := rfl
@[simp] theorem State.updStream_free (s : State) (n : Nat) (f : Stream → Stream) : (s.updStream n f).free = s.free := rfl
@[simp] theorem State.updStream_focus (s : State) (n : Nat) (f : Stream → Stream) : (s.updStream n f).focus = s.focus := rfl

/-! ### setFeed -/

@[simp] theorem State.setFeed_strands (s : State) (n : Nat) (f : Feed) : (s.setFeed n f).strands = s.strands := rfl
@[simp] theorem State.setFeed_tiles (s : State) (n : Nat) (f : Feed) : (s.setFeed n f).tiles = s.tiles := rfl
@[simp] theorem State.setFeed_clusters (s : State) (n : Nat) (f : Feed) : (s.setFeed n f).clusters = s.clusters := rfl
@[simp] theorem State.setFeed_mem (s : State) (n : Nat) (f : Feed) : (s.setFeed n f).mem = s.mem := rfl
@[simp] theorem State.setFeed_poison (s : State) (n : Nat) (f : Feed) : (s.setFeed n f).poison = s.poison := rfl
@[simp] theorem State.setFeed_cycle (s : State) (n : Nat) (f : Feed) : (s.setFeed n f).cycle = s.cycle := rfl
@[simp] theorem State.setFeed_head (s : State) (n : Nat) (f : Feed) : (s.setFeed n f).head = s.head := rfl
@[simp] theorem State.setFeed_dev (s : State) (n : Nat) (f : Feed) : (s.setFeed n f).dev = s.dev := rfl
@[simp] theorem State.setFeed_faults (s : State) (n : Nat) (f : Feed) : (s.setFeed n f).faults = s.faults := rfl
@[simp] theorem State.setFeed_out (s : State) (n : Nat) (f : Feed) : (s.setFeed n f).out = s.out := rfl
@[simp] theorem State.setFeed_loom (s : State) (n : Nat) (f : Feed) : (s.setFeed n f).loom = s.loom := rfl
@[simp] theorem State.setFeed_cows (s : State) (n : Nat) (f : Feed) : (s.setFeed n f).cows = s.cows := rfl
@[simp] theorem State.setFeed_late (s : State) (n : Nat) (f : Feed) : (s.setFeed n f).late = s.late := rfl
@[simp] theorem State.setFeed_areas (s : State) (n : Nat) (f : Feed) : (s.setFeed n f).areas = s.areas := rfl
@[simp] theorem State.setFeed_host (s : State) (n : Nat) (f : Feed) : (s.setFeed n f).host = s.host := rfl
@[simp] theorem State.setFeed_req (s : State) (n : Nat) (f : Feed) : (s.setFeed n f).req = s.req := rfl
@[simp] theorem State.setFeed_agenda (s : State) (n : Nat) (f : Feed) : (s.setFeed n f).agenda = s.agenda := rfl
@[simp] theorem State.setFeed_unit (s : State) (n : Nat) (f : Feed) : (s.setFeed n f).unit = s.unit := rfl
@[simp] theorem State.setFeed_free (s : State) (n : Nat) (f : Feed) : (s.setFeed n f).free = s.free := rfl
@[simp] theorem State.setFeed_focus (s : State) (n : Nat) (f : Feed) : (s.setFeed n f).focus = s.focus := rfl

/-! ### raiseInt -/

@[simp] theorem State.raiseInt_strands (s : State) (k : Nat) : (s.raiseInt k).strands = s.strands := rfl
@[simp] theorem State.raiseInt_tiles (s : State) (k : Nat) : (s.raiseInt k).tiles = s.tiles := rfl
@[simp] theorem State.raiseInt_clusters (s : State) (k : Nat) : (s.raiseInt k).clusters = s.clusters := rfl
@[simp] theorem State.raiseInt_mem (s : State) (k : Nat) : (s.raiseInt k).mem = s.mem := rfl
@[simp] theorem State.raiseInt_poison (s : State) (k : Nat) : (s.raiseInt k).poison = s.poison := rfl
@[simp] theorem State.raiseInt_cycle (s : State) (k : Nat) : (s.raiseInt k).cycle = s.cycle := rfl
@[simp] theorem State.raiseInt_head (s : State) (k : Nat) : (s.raiseInt k).head = { s.head with intpend := s.head.intpend ||| (1#32 <<< k) } := rfl
@[simp] theorem State.raiseInt_dev (s : State) (k : Nat) : (s.raiseInt k).dev = s.dev := rfl
@[simp] theorem State.raiseInt_faults (s : State) (k : Nat) : (s.raiseInt k).faults = s.faults := rfl
@[simp] theorem State.raiseInt_out (s : State) (k : Nat) : (s.raiseInt k).out = s.out := rfl
@[simp] theorem State.raiseInt_loom (s : State) (k : Nat) : (s.raiseInt k).loom = s.loom := rfl
@[simp] theorem State.raiseInt_cows (s : State) (k : Nat) : (s.raiseInt k).cows = s.cows := rfl
@[simp] theorem State.raiseInt_late (s : State) (k : Nat) : (s.raiseInt k).late = s.late := rfl
@[simp] theorem State.raiseInt_areas (s : State) (k : Nat) : (s.raiseInt k).areas = s.areas := rfl
@[simp] theorem State.raiseInt_su (s : State) (k : Nat) : (s.raiseInt k).su = s.su := rfl
@[simp] theorem State.raiseInt_host (s : State) (k : Nat) : (s.raiseInt k).host = s.host := rfl
@[simp] theorem State.raiseInt_req (s : State) (k : Nat) : (s.raiseInt k).req = s.req := rfl
@[simp] theorem State.raiseInt_agenda (s : State) (k : Nat) : (s.raiseInt k).agenda = s.agenda := rfl
@[simp] theorem State.raiseInt_unit (s : State) (k : Nat) : (s.raiseInt k).unit = s.unit := rfl
@[simp] theorem State.raiseInt_free (s : State) (k : Nat) : (s.raiseInt k).free = s.free := rfl
@[simp] theorem State.raiseInt_focus (s : State) (k : Nat) : (s.raiseInt k).focus = s.focus := rfl

/-! ### setLaunch -/

@[simp] theorem State.setLaunch_strands (s : State) (n : Nat) (l : Launch) : (s.setLaunch n l).strands = s.strands := rfl
@[simp] theorem State.setLaunch_tiles (s : State) (n : Nat) (l : Launch) : (s.setLaunch n l).tiles = s.tiles := rfl
@[simp] theorem State.setLaunch_clusters (s : State) (n : Nat) (l : Launch) : (s.setLaunch n l).clusters = s.clusters := rfl
@[simp] theorem State.setLaunch_mem (s : State) (n : Nat) (l : Launch) : (s.setLaunch n l).mem = s.mem := rfl
@[simp] theorem State.setLaunch_poison (s : State) (n : Nat) (l : Launch) : (s.setLaunch n l).poison = s.poison := rfl
@[simp] theorem State.setLaunch_cycle (s : State) (n : Nat) (l : Launch) : (s.setLaunch n l).cycle = s.cycle := rfl
@[simp] theorem State.setLaunch_head (s : State) (n : Nat) (l : Launch) : (s.setLaunch n l).head = s.head := rfl
@[simp] theorem State.setLaunch_dev (s : State) (n : Nat) (l : Launch) : (s.setLaunch n l).dev = s.dev := rfl
@[simp] theorem State.setLaunch_faults (s : State) (n : Nat) (l : Launch) : (s.setLaunch n l).faults = s.faults := rfl
@[simp] theorem State.setLaunch_out (s : State) (n : Nat) (l : Launch) : (s.setLaunch n l).out = s.out := rfl
@[simp] theorem State.setLaunch_cows (s : State) (n : Nat) (l : Launch) : (s.setLaunch n l).cows = s.cows := rfl
@[simp] theorem State.setLaunch_late (s : State) (n : Nat) (l : Launch) : (s.setLaunch n l).late = s.late := rfl
@[simp] theorem State.setLaunch_areas (s : State) (n : Nat) (l : Launch) : (s.setLaunch n l).areas = s.areas := rfl
@[simp] theorem State.setLaunch_su (s : State) (n : Nat) (l : Launch) : (s.setLaunch n l).su = s.su := rfl
@[simp] theorem State.setLaunch_host (s : State) (n : Nat) (l : Launch) : (s.setLaunch n l).host = s.host := rfl
@[simp] theorem State.setLaunch_req (s : State) (n : Nat) (l : Launch) : (s.setLaunch n l).req = s.req := rfl
@[simp] theorem State.setLaunch_agenda (s : State) (n : Nat) (l : Launch) : (s.setLaunch n l).agenda = s.agenda := rfl
@[simp] theorem State.setLaunch_unit (s : State) (n : Nat) (l : Launch) : (s.setLaunch n l).unit = s.unit := rfl
@[simp] theorem State.setLaunch_free (s : State) (n : Nat) (l : Launch) : (s.setLaunch n l).free = s.free := rfl
@[simp] theorem State.setLaunch_focus (s : State) (n : Nat) (l : Launch) : (s.setLaunch n l).focus = s.focus := rfl

/-! ### updLaunch -/

@[simp] theorem State.updLaunch_strands (s : State) (n : Nat) (f : Launch → Launch) : (s.updLaunch n f).strands = s.strands := rfl
@[simp] theorem State.updLaunch_tiles (s : State) (n : Nat) (f : Launch → Launch) : (s.updLaunch n f).tiles = s.tiles := rfl
@[simp] theorem State.updLaunch_clusters (s : State) (n : Nat) (f : Launch → Launch) : (s.updLaunch n f).clusters = s.clusters := rfl
@[simp] theorem State.updLaunch_mem (s : State) (n : Nat) (f : Launch → Launch) : (s.updLaunch n f).mem = s.mem := rfl
@[simp] theorem State.updLaunch_poison (s : State) (n : Nat) (f : Launch → Launch) : (s.updLaunch n f).poison = s.poison := rfl
@[simp] theorem State.updLaunch_cycle (s : State) (n : Nat) (f : Launch → Launch) : (s.updLaunch n f).cycle = s.cycle := rfl
@[simp] theorem State.updLaunch_head (s : State) (n : Nat) (f : Launch → Launch) : (s.updLaunch n f).head = s.head := rfl
@[simp] theorem State.updLaunch_dev (s : State) (n : Nat) (f : Launch → Launch) : (s.updLaunch n f).dev = s.dev := rfl
@[simp] theorem State.updLaunch_faults (s : State) (n : Nat) (f : Launch → Launch) : (s.updLaunch n f).faults = s.faults := rfl
@[simp] theorem State.updLaunch_out (s : State) (n : Nat) (f : Launch → Launch) : (s.updLaunch n f).out = s.out := rfl
@[simp] theorem State.updLaunch_cows (s : State) (n : Nat) (f : Launch → Launch) : (s.updLaunch n f).cows = s.cows := rfl
@[simp] theorem State.updLaunch_late (s : State) (n : Nat) (f : Launch → Launch) : (s.updLaunch n f).late = s.late := rfl
@[simp] theorem State.updLaunch_areas (s : State) (n : Nat) (f : Launch → Launch) : (s.updLaunch n f).areas = s.areas := rfl
@[simp] theorem State.updLaunch_su (s : State) (n : Nat) (f : Launch → Launch) : (s.updLaunch n f).su = s.su := rfl
@[simp] theorem State.updLaunch_host (s : State) (n : Nat) (f : Launch → Launch) : (s.updLaunch n f).host = s.host := rfl
@[simp] theorem State.updLaunch_req (s : State) (n : Nat) (f : Launch → Launch) : (s.updLaunch n f).req = s.req := rfl
@[simp] theorem State.updLaunch_agenda (s : State) (n : Nat) (f : Launch → Launch) : (s.updLaunch n f).agenda = s.agenda := rfl
@[simp] theorem State.updLaunch_unit (s : State) (n : Nat) (f : Launch → Launch) : (s.updLaunch n f).unit = s.unit := rfl
@[simp] theorem State.updLaunch_free (s : State) (n : Nat) (f : Launch → Launch) : (s.updLaunch n f).free = s.free := rfl
@[simp] theorem State.updLaunch_focus (s : State) (n : Nat) (f : Launch → Launch) : (s.updLaunch n f).focus = s.focus := rfl

/-! ### setObject -/

@[simp] theorem State.setObject_strands (s : State) (n : Nat) (o : Object) : (s.setObject n o).strands = s.strands := rfl
@[simp] theorem State.setObject_tiles (s : State) (n : Nat) (o : Object) : (s.setObject n o).tiles = s.tiles := rfl
@[simp] theorem State.setObject_clusters (s : State) (n : Nat) (o : Object) : (s.setObject n o).clusters = s.clusters := rfl
@[simp] theorem State.setObject_mem (s : State) (n : Nat) (o : Object) : (s.setObject n o).mem = s.mem := rfl
@[simp] theorem State.setObject_poison (s : State) (n : Nat) (o : Object) : (s.setObject n o).poison = s.poison := rfl
@[simp] theorem State.setObject_cycle (s : State) (n : Nat) (o : Object) : (s.setObject n o).cycle = s.cycle := rfl
@[simp] theorem State.setObject_head (s : State) (n : Nat) (o : Object) : (s.setObject n o).head = s.head := rfl
@[simp] theorem State.setObject_dev (s : State) (n : Nat) (o : Object) : (s.setObject n o).dev = s.dev := rfl
@[simp] theorem State.setObject_faults (s : State) (n : Nat) (o : Object) : (s.setObject n o).faults = s.faults := rfl
@[simp] theorem State.setObject_out (s : State) (n : Nat) (o : Object) : (s.setObject n o).out = s.out := rfl
@[simp] theorem State.setObject_cows (s : State) (n : Nat) (o : Object) : (s.setObject n o).cows = s.cows := rfl
@[simp] theorem State.setObject_late (s : State) (n : Nat) (o : Object) : (s.setObject n o).late = s.late := rfl
@[simp] theorem State.setObject_areas (s : State) (n : Nat) (o : Object) : (s.setObject n o).areas = s.areas := rfl
@[simp] theorem State.setObject_su (s : State) (n : Nat) (o : Object) : (s.setObject n o).su = s.su := rfl
@[simp] theorem State.setObject_host (s : State) (n : Nat) (o : Object) : (s.setObject n o).host = s.host := rfl
@[simp] theorem State.setObject_req (s : State) (n : Nat) (o : Object) : (s.setObject n o).req = s.req := rfl
@[simp] theorem State.setObject_agenda (s : State) (n : Nat) (o : Object) : (s.setObject n o).agenda = s.agenda := rfl
@[simp] theorem State.setObject_unit (s : State) (n : Nat) (o : Object) : (s.setObject n o).unit = s.unit := rfl
@[simp] theorem State.setObject_free (s : State) (n : Nat) (o : Object) : (s.setObject n o).free = s.free := rfl
@[simp] theorem State.setObject_focus (s : State) (n : Nat) (o : Object) : (s.setObject n o).focus = s.focus := rfl

/-! ### updObject -/

@[simp] theorem State.updObject_strands (s : State) (n : Nat) (f : Object → Object) : (s.updObject n f).strands = s.strands := rfl
@[simp] theorem State.updObject_tiles (s : State) (n : Nat) (f : Object → Object) : (s.updObject n f).tiles = s.tiles := rfl
@[simp] theorem State.updObject_clusters (s : State) (n : Nat) (f : Object → Object) : (s.updObject n f).clusters = s.clusters := rfl
@[simp] theorem State.updObject_mem (s : State) (n : Nat) (f : Object → Object) : (s.updObject n f).mem = s.mem := rfl
@[simp] theorem State.updObject_poison (s : State) (n : Nat) (f : Object → Object) : (s.updObject n f).poison = s.poison := rfl
@[simp] theorem State.updObject_cycle (s : State) (n : Nat) (f : Object → Object) : (s.updObject n f).cycle = s.cycle := rfl
@[simp] theorem State.updObject_head (s : State) (n : Nat) (f : Object → Object) : (s.updObject n f).head = s.head := rfl
@[simp] theorem State.updObject_dev (s : State) (n : Nat) (f : Object → Object) : (s.updObject n f).dev = s.dev := rfl
@[simp] theorem State.updObject_faults (s : State) (n : Nat) (f : Object → Object) : (s.updObject n f).faults = s.faults := rfl
@[simp] theorem State.updObject_out (s : State) (n : Nat) (f : Object → Object) : (s.updObject n f).out = s.out := rfl
@[simp] theorem State.updObject_cows (s : State) (n : Nat) (f : Object → Object) : (s.updObject n f).cows = s.cows := rfl
@[simp] theorem State.updObject_late (s : State) (n : Nat) (f : Object → Object) : (s.updObject n f).late = s.late := rfl
@[simp] theorem State.updObject_areas (s : State) (n : Nat) (f : Object → Object) : (s.updObject n f).areas = s.areas := rfl
@[simp] theorem State.updObject_su (s : State) (n : Nat) (f : Object → Object) : (s.updObject n f).su = s.su := rfl
@[simp] theorem State.updObject_host (s : State) (n : Nat) (f : Object → Object) : (s.updObject n f).host = s.host := rfl
@[simp] theorem State.updObject_req (s : State) (n : Nat) (f : Object → Object) : (s.updObject n f).req = s.req := rfl
@[simp] theorem State.updObject_agenda (s : State) (n : Nat) (f : Object → Object) : (s.updObject n f).agenda = s.agenda := rfl
@[simp] theorem State.updObject_unit (s : State) (n : Nat) (f : Object → Object) : (s.updObject n f).unit = s.unit := rfl
@[simp] theorem State.updObject_free (s : State) (n : Nat) (f : Object → Object) : (s.updObject n f).free = s.free := rfl
@[simp] theorem State.updObject_focus (s : State) (n : Nat) (f : Object → Object) : (s.updObject n f).focus = s.focus := rfl

/-! ### orphan -/

@[simp] theorem State.orphan_strands (s : State) (p : BitVec 20) (k : Option Word) (l : List TmEnt) : (s.orphan p k l).strands = s.strands := rfl
@[simp] theorem State.orphan_tiles (s : State) (p : BitVec 20) (k : Option Word) (l : List TmEnt) : (s.orphan p k l).tiles = s.tiles := rfl
@[simp] theorem State.orphan_clusters (s : State) (p : BitVec 20) (k : Option Word) (l : List TmEnt) : (s.orphan p k l).clusters = s.clusters := rfl
@[simp] theorem State.orphan_mem (s : State) (p : BitVec 20) (k : Option Word) (l : List TmEnt) : (s.orphan p k l).mem = s.mem := rfl
@[simp] theorem State.orphan_poison (s : State) (p : BitVec 20) (k : Option Word) (l : List TmEnt) : (s.orphan p k l).poison = s.poison := rfl
@[simp] theorem State.orphan_cycle (s : State) (p : BitVec 20) (k : Option Word) (l : List TmEnt) : (s.orphan p k l).cycle = s.cycle := rfl
@[simp] theorem State.orphan_head (s : State) (p : BitVec 20) (k : Option Word) (l : List TmEnt) : (s.orphan p k l).head = s.head := rfl
@[simp] theorem State.orphan_dev (s : State) (p : BitVec 20) (k : Option Word) (l : List TmEnt) : (s.orphan p k l).dev = s.dev := rfl
@[simp] theorem State.orphan_faults (s : State) (p : BitVec 20) (k : Option Word) (l : List TmEnt) : (s.orphan p k l).faults = s.faults := rfl
@[simp] theorem State.orphan_out (s : State) (p : BitVec 20) (k : Option Word) (l : List TmEnt) : (s.orphan p k l).out = s.out := rfl
@[simp] theorem State.orphan_cows (s : State) (p : BitVec 20) (k : Option Word) (l : List TmEnt) : (s.orphan p k l).cows = s.cows := rfl
@[simp] theorem State.orphan_late (s : State) (p : BitVec 20) (k : Option Word) (l : List TmEnt) : (s.orphan p k l).late = s.late := rfl
@[simp] theorem State.orphan_areas (s : State) (p : BitVec 20) (k : Option Word) (l : List TmEnt) : (s.orphan p k l).areas = s.areas := rfl
@[simp] theorem State.orphan_su (s : State) (p : BitVec 20) (k : Option Word) (l : List TmEnt) : (s.orphan p k l).su = s.su := rfl
@[simp] theorem State.orphan_host (s : State) (p : BitVec 20) (k : Option Word) (l : List TmEnt) : (s.orphan p k l).host = s.host := rfl
@[simp] theorem State.orphan_req (s : State) (p : BitVec 20) (k : Option Word) (l : List TmEnt) : (s.orphan p k l).req = s.req := rfl
@[simp] theorem State.orphan_agenda (s : State) (p : BitVec 20) (k : Option Word) (l : List TmEnt) : (s.orphan p k l).agenda = s.agenda := rfl
@[simp] theorem State.orphan_unit (s : State) (p : BitVec 20) (k : Option Word) (l : List TmEnt) : (s.orphan p k l).unit = s.unit := rfl
@[simp] theorem State.orphan_free (s : State) (p : BitVec 20) (k : Option Word) (l : List TmEnt) : (s.orphan p k l).free = s.free := rfl
@[simp] theorem State.orphan_focus (s : State) (p : BitVec 20) (k : Option Word) (l : List TmEnt) : (s.orphan p k l).focus = s.focus := rfl

/-! ### setQueue -/

@[simp] theorem State.setQueue_strands (s : State) (q : Nat) (h : HostQueue) : (s.setQueue q h).strands = s.strands := rfl
@[simp] theorem State.setQueue_tiles (s : State) (q : Nat) (h : HostQueue) : (s.setQueue q h).tiles = s.tiles := rfl
@[simp] theorem State.setQueue_clusters (s : State) (q : Nat) (h : HostQueue) : (s.setQueue q h).clusters = s.clusters := rfl
@[simp] theorem State.setQueue_mem (s : State) (q : Nat) (h : HostQueue) : (s.setQueue q h).mem = s.mem := rfl
@[simp] theorem State.setQueue_poison (s : State) (q : Nat) (h : HostQueue) : (s.setQueue q h).poison = s.poison := rfl
@[simp] theorem State.setQueue_cycle (s : State) (q : Nat) (h : HostQueue) : (s.setQueue q h).cycle = s.cycle := rfl
@[simp] theorem State.setQueue_head (s : State) (q : Nat) (h : HostQueue) : (s.setQueue q h).head = s.head := rfl
@[simp] theorem State.setQueue_dev (s : State) (q : Nat) (h : HostQueue) : (s.setQueue q h).dev = s.dev := rfl
@[simp] theorem State.setQueue_faults (s : State) (q : Nat) (h : HostQueue) : (s.setQueue q h).faults = s.faults := rfl
@[simp] theorem State.setQueue_out (s : State) (q : Nat) (h : HostQueue) : (s.setQueue q h).out = s.out := rfl
@[simp] theorem State.setQueue_loom (s : State) (q : Nat) (h : HostQueue) : (s.setQueue q h).loom = s.loom := rfl
@[simp] theorem State.setQueue_cows (s : State) (q : Nat) (h : HostQueue) : (s.setQueue q h).cows = s.cows := rfl
@[simp] theorem State.setQueue_late (s : State) (q : Nat) (h : HostQueue) : (s.setQueue q h).late = s.late := rfl
@[simp] theorem State.setQueue_areas (s : State) (q : Nat) (h : HostQueue) : (s.setQueue q h).areas = s.areas := rfl
@[simp] theorem State.setQueue_su (s : State) (q : Nat) (h : HostQueue) : (s.setQueue q h).su = s.su := rfl
@[simp] theorem State.setQueue_req (s : State) (q : Nat) (h : HostQueue) : (s.setQueue q h).req = s.req := rfl
@[simp] theorem State.setQueue_agenda (s : State) (q : Nat) (h : HostQueue) : (s.setQueue q h).agenda = s.agenda := rfl
@[simp] theorem State.setQueue_unit (s : State) (q : Nat) (h : HostQueue) : (s.setQueue q h).unit = s.unit := rfl
@[simp] theorem State.setQueue_free (s : State) (q : Nat) (h : HostQueue) : (s.setQueue q h).free = s.free := rfl
@[simp] theorem State.setQueue_focus (s : State) (q : Nat) (h : HostQueue) : (s.setQueue q h).focus = s.focus := rfl

/-! ### updQueue -/

@[simp] theorem State.updQueue_strands (s : State) (q : Nat) (f : HostQueue → HostQueue) : (s.updQueue q f).strands = s.strands := rfl
@[simp] theorem State.updQueue_tiles (s : State) (q : Nat) (f : HostQueue → HostQueue) : (s.updQueue q f).tiles = s.tiles := rfl
@[simp] theorem State.updQueue_clusters (s : State) (q : Nat) (f : HostQueue → HostQueue) : (s.updQueue q f).clusters = s.clusters := rfl
@[simp] theorem State.updQueue_mem (s : State) (q : Nat) (f : HostQueue → HostQueue) : (s.updQueue q f).mem = s.mem := rfl
@[simp] theorem State.updQueue_poison (s : State) (q : Nat) (f : HostQueue → HostQueue) : (s.updQueue q f).poison = s.poison := rfl
@[simp] theorem State.updQueue_cycle (s : State) (q : Nat) (f : HostQueue → HostQueue) : (s.updQueue q f).cycle = s.cycle := rfl
@[simp] theorem State.updQueue_head (s : State) (q : Nat) (f : HostQueue → HostQueue) : (s.updQueue q f).head = s.head := rfl
@[simp] theorem State.updQueue_dev (s : State) (q : Nat) (f : HostQueue → HostQueue) : (s.updQueue q f).dev = s.dev := rfl
@[simp] theorem State.updQueue_faults (s : State) (q : Nat) (f : HostQueue → HostQueue) : (s.updQueue q f).faults = s.faults := rfl
@[simp] theorem State.updQueue_out (s : State) (q : Nat) (f : HostQueue → HostQueue) : (s.updQueue q f).out = s.out := rfl
@[simp] theorem State.updQueue_loom (s : State) (q : Nat) (f : HostQueue → HostQueue) : (s.updQueue q f).loom = s.loom := rfl
@[simp] theorem State.updQueue_cows (s : State) (q : Nat) (f : HostQueue → HostQueue) : (s.updQueue q f).cows = s.cows := rfl
@[simp] theorem State.updQueue_late (s : State) (q : Nat) (f : HostQueue → HostQueue) : (s.updQueue q f).late = s.late := rfl
@[simp] theorem State.updQueue_areas (s : State) (q : Nat) (f : HostQueue → HostQueue) : (s.updQueue q f).areas = s.areas := rfl
@[simp] theorem State.updQueue_su (s : State) (q : Nat) (f : HostQueue → HostQueue) : (s.updQueue q f).su = s.su := rfl
@[simp] theorem State.updQueue_req (s : State) (q : Nat) (f : HostQueue → HostQueue) : (s.updQueue q f).req = s.req := rfl
@[simp] theorem State.updQueue_agenda (s : State) (q : Nat) (f : HostQueue → HostQueue) : (s.updQueue q f).agenda = s.agenda := rfl
@[simp] theorem State.updQueue_unit (s : State) (q : Nat) (f : HostQueue → HostQueue) : (s.updQueue q f).unit = s.unit := rfl
@[simp] theorem State.updQueue_free (s : State) (q : Nat) (f : HostQueue → HostQueue) : (s.updQueue q f).free = s.free := rfl
@[simp] theorem State.updQueue_focus (s : State) (q : Nat) (f : HostQueue → HostQueue) : (s.updQueue q f).focus = s.focus := rfl

/-! ### dropQueue -/

@[simp] theorem State.dropQueue_strands (s : State) (q : Nat) : (s.dropQueue q).strands = s.strands := rfl
@[simp] theorem State.dropQueue_tiles (s : State) (q : Nat) : (s.dropQueue q).tiles = s.tiles := rfl
@[simp] theorem State.dropQueue_clusters (s : State) (q : Nat) : (s.dropQueue q).clusters = s.clusters := rfl
@[simp] theorem State.dropQueue_mem (s : State) (q : Nat) : (s.dropQueue q).mem = s.mem := rfl
@[simp] theorem State.dropQueue_poison (s : State) (q : Nat) : (s.dropQueue q).poison = s.poison := rfl
@[simp] theorem State.dropQueue_cycle (s : State) (q : Nat) : (s.dropQueue q).cycle = s.cycle := rfl
@[simp] theorem State.dropQueue_head (s : State) (q : Nat) : (s.dropQueue q).head = s.head := rfl
@[simp] theorem State.dropQueue_dev (s : State) (q : Nat) : (s.dropQueue q).dev = s.dev := rfl
@[simp] theorem State.dropQueue_faults (s : State) (q : Nat) : (s.dropQueue q).faults = s.faults := rfl
@[simp] theorem State.dropQueue_out (s : State) (q : Nat) : (s.dropQueue q).out = s.out := rfl
@[simp] theorem State.dropQueue_loom (s : State) (q : Nat) : (s.dropQueue q).loom = s.loom := rfl
@[simp] theorem State.dropQueue_cows (s : State) (q : Nat) : (s.dropQueue q).cows = s.cows := rfl
@[simp] theorem State.dropQueue_late (s : State) (q : Nat) : (s.dropQueue q).late = s.late := rfl
@[simp] theorem State.dropQueue_areas (s : State) (q : Nat) : (s.dropQueue q).areas = s.areas := rfl
@[simp] theorem State.dropQueue_su (s : State) (q : Nat) : (s.dropQueue q).su = s.su := rfl
@[simp] theorem State.dropQueue_req (s : State) (q : Nat) : (s.dropQueue q).req = s.req := rfl
@[simp] theorem State.dropQueue_agenda (s : State) (q : Nat) : (s.dropQueue q).agenda = s.agenda := rfl
@[simp] theorem State.dropQueue_unit (s : State) (q : Nat) : (s.dropQueue q).unit = s.unit := rfl
@[simp] theorem State.dropQueue_free (s : State) (q : Nat) : (s.dropQueue q).free = s.free := rfl
@[simp] theorem State.dropQueue_focus (s : State) (q : Nat) : (s.dropQueue q).focus = s.focus := rfl

/-! ### freeCtx -/

@[simp] theorem State.freeCtx_strands (s : State) (q : Nat) : (s.freeCtx q).strands = s.strands := rfl
@[simp] theorem State.freeCtx_tiles (s : State) (q : Nat) : (s.freeCtx q).tiles = s.tiles := rfl
@[simp] theorem State.freeCtx_clusters (s : State) (q : Nat) : (s.freeCtx q).clusters = s.clusters := rfl
@[simp] theorem State.freeCtx_mem (s : State) (q : Nat) : (s.freeCtx q).mem = s.mem := rfl
@[simp] theorem State.freeCtx_poison (s : State) (q : Nat) : (s.freeCtx q).poison = s.poison := rfl
@[simp] theorem State.freeCtx_cycle (s : State) (q : Nat) : (s.freeCtx q).cycle = s.cycle := rfl
@[simp] theorem State.freeCtx_head (s : State) (q : Nat) : (s.freeCtx q).head = s.head := rfl
@[simp] theorem State.freeCtx_dev (s : State) (q : Nat) : (s.freeCtx q).dev = s.dev := rfl
@[simp] theorem State.freeCtx_faults (s : State) (q : Nat) : (s.freeCtx q).faults = s.faults := rfl
@[simp] theorem State.freeCtx_out (s : State) (q : Nat) : (s.freeCtx q).out = s.out := rfl
@[simp] theorem State.freeCtx_loom (s : State) (q : Nat) : (s.freeCtx q).loom = s.loom := rfl
@[simp] theorem State.freeCtx_cows (s : State) (q : Nat) : (s.freeCtx q).cows = s.cows := rfl
@[simp] theorem State.freeCtx_late (s : State) (q : Nat) : (s.freeCtx q).late = s.late := rfl
@[simp] theorem State.freeCtx_areas (s : State) (q : Nat) : (s.freeCtx q).areas = s.areas := rfl
@[simp] theorem State.freeCtx_su (s : State) (q : Nat) : (s.freeCtx q).su = s.su := rfl
@[simp] theorem State.freeCtx_req (s : State) (q : Nat) : (s.freeCtx q).req = s.req := rfl
@[simp] theorem State.freeCtx_agenda (s : State) (q : Nat) : (s.freeCtx q).agenda = s.agenda := rfl
@[simp] theorem State.freeCtx_unit (s : State) (q : Nat) : (s.freeCtx q).unit = s.unit := rfl
@[simp] theorem State.freeCtx_free (s : State) (q : Nat) : (s.freeCtx q).free = s.free := rfl
@[simp] theorem State.freeCtx_focus (s : State) (q : Nat) : (s.freeCtx q).focus = s.focus := rfl

/-! ### setCtx -/

@[simp] theorem State.setCtx_strands (s : State) (c : FetchCtx) : (s.setCtx c).strands = s.strands := rfl
@[simp] theorem State.setCtx_tiles (s : State) (c : FetchCtx) : (s.setCtx c).tiles = s.tiles := rfl
@[simp] theorem State.setCtx_clusters (s : State) (c : FetchCtx) : (s.setCtx c).clusters = s.clusters := rfl
@[simp] theorem State.setCtx_mem (s : State) (c : FetchCtx) : (s.setCtx c).mem = s.mem := rfl
@[simp] theorem State.setCtx_poison (s : State) (c : FetchCtx) : (s.setCtx c).poison = s.poison := rfl
@[simp] theorem State.setCtx_cycle (s : State) (c : FetchCtx) : (s.setCtx c).cycle = s.cycle := rfl
@[simp] theorem State.setCtx_head (s : State) (c : FetchCtx) : (s.setCtx c).head = s.head := rfl
@[simp] theorem State.setCtx_dev (s : State) (c : FetchCtx) : (s.setCtx c).dev = s.dev := rfl
@[simp] theorem State.setCtx_faults (s : State) (c : FetchCtx) : (s.setCtx c).faults = s.faults := rfl
@[simp] theorem State.setCtx_out (s : State) (c : FetchCtx) : (s.setCtx c).out = s.out := rfl
@[simp] theorem State.setCtx_loom (s : State) (c : FetchCtx) : (s.setCtx c).loom = s.loom := rfl
@[simp] theorem State.setCtx_cows (s : State) (c : FetchCtx) : (s.setCtx c).cows = s.cows := rfl
@[simp] theorem State.setCtx_late (s : State) (c : FetchCtx) : (s.setCtx c).late = s.late := rfl
@[simp] theorem State.setCtx_areas (s : State) (c : FetchCtx) : (s.setCtx c).areas = s.areas := rfl
@[simp] theorem State.setCtx_su (s : State) (c : FetchCtx) : (s.setCtx c).su = s.su := rfl
@[simp] theorem State.setCtx_req (s : State) (c : FetchCtx) : (s.setCtx c).req = s.req := rfl
@[simp] theorem State.setCtx_agenda (s : State) (c : FetchCtx) : (s.setCtx c).agenda = s.agenda := rfl
@[simp] theorem State.setCtx_unit (s : State) (c : FetchCtx) : (s.setCtx c).unit = s.unit := rfl
@[simp] theorem State.setCtx_free (s : State) (c : FetchCtx) : (s.setCtx c).free = s.free := rfl
@[simp] theorem State.setCtx_focus (s : State) (c : FetchCtx) : (s.setCtx c).focus = s.focus := rfl

/-! ### setCmd -/

@[simp] theorem State.setCmd_strands (s : State) (n : Nat) (c : HostCmd) : (s.setCmd n c).strands = s.strands := rfl
@[simp] theorem State.setCmd_tiles (s : State) (n : Nat) (c : HostCmd) : (s.setCmd n c).tiles = s.tiles := rfl
@[simp] theorem State.setCmd_clusters (s : State) (n : Nat) (c : HostCmd) : (s.setCmd n c).clusters = s.clusters := rfl
@[simp] theorem State.setCmd_mem (s : State) (n : Nat) (c : HostCmd) : (s.setCmd n c).mem = s.mem := rfl
@[simp] theorem State.setCmd_poison (s : State) (n : Nat) (c : HostCmd) : (s.setCmd n c).poison = s.poison := rfl
@[simp] theorem State.setCmd_cycle (s : State) (n : Nat) (c : HostCmd) : (s.setCmd n c).cycle = s.cycle := rfl
@[simp] theorem State.setCmd_head (s : State) (n : Nat) (c : HostCmd) : (s.setCmd n c).head = s.head := rfl
@[simp] theorem State.setCmd_dev (s : State) (n : Nat) (c : HostCmd) : (s.setCmd n c).dev = s.dev := rfl
@[simp] theorem State.setCmd_faults (s : State) (n : Nat) (c : HostCmd) : (s.setCmd n c).faults = s.faults := rfl
@[simp] theorem State.setCmd_out (s : State) (n : Nat) (c : HostCmd) : (s.setCmd n c).out = s.out := rfl
@[simp] theorem State.setCmd_loom (s : State) (n : Nat) (c : HostCmd) : (s.setCmd n c).loom = s.loom := rfl
@[simp] theorem State.setCmd_cows (s : State) (n : Nat) (c : HostCmd) : (s.setCmd n c).cows = s.cows := rfl
@[simp] theorem State.setCmd_late (s : State) (n : Nat) (c : HostCmd) : (s.setCmd n c).late = s.late := rfl
@[simp] theorem State.setCmd_areas (s : State) (n : Nat) (c : HostCmd) : (s.setCmd n c).areas = s.areas := rfl
@[simp] theorem State.setCmd_su (s : State) (n : Nat) (c : HostCmd) : (s.setCmd n c).su = s.su := rfl
@[simp] theorem State.setCmd_req (s : State) (n : Nat) (c : HostCmd) : (s.setCmd n c).req = s.req := rfl
@[simp] theorem State.setCmd_agenda (s : State) (n : Nat) (c : HostCmd) : (s.setCmd n c).agenda = s.agenda := rfl
@[simp] theorem State.setCmd_unit (s : State) (n : Nat) (c : HostCmd) : (s.setCmd n c).unit = s.unit := rfl
@[simp] theorem State.setCmd_free (s : State) (n : Nat) (c : HostCmd) : (s.setCmd n c).free = s.free := rfl
@[simp] theorem State.setCmd_focus (s : State) (n : Nat) (c : HostCmd) : (s.setCmd n c).focus = s.focus := rfl

/-! ### updCmd -/

@[simp] theorem State.updCmd_strands (s : State) (n : Nat) (f : HostCmd → HostCmd) : (s.updCmd n f).strands = s.strands := rfl
@[simp] theorem State.updCmd_tiles (s : State) (n : Nat) (f : HostCmd → HostCmd) : (s.updCmd n f).tiles = s.tiles := rfl
@[simp] theorem State.updCmd_clusters (s : State) (n : Nat) (f : HostCmd → HostCmd) : (s.updCmd n f).clusters = s.clusters := rfl
@[simp] theorem State.updCmd_mem (s : State) (n : Nat) (f : HostCmd → HostCmd) : (s.updCmd n f).mem = s.mem := rfl
@[simp] theorem State.updCmd_poison (s : State) (n : Nat) (f : HostCmd → HostCmd) : (s.updCmd n f).poison = s.poison := rfl
@[simp] theorem State.updCmd_cycle (s : State) (n : Nat) (f : HostCmd → HostCmd) : (s.updCmd n f).cycle = s.cycle := rfl
@[simp] theorem State.updCmd_head (s : State) (n : Nat) (f : HostCmd → HostCmd) : (s.updCmd n f).head = s.head := rfl
@[simp] theorem State.updCmd_dev (s : State) (n : Nat) (f : HostCmd → HostCmd) : (s.updCmd n f).dev = s.dev := rfl
@[simp] theorem State.updCmd_faults (s : State) (n : Nat) (f : HostCmd → HostCmd) : (s.updCmd n f).faults = s.faults := rfl
@[simp] theorem State.updCmd_out (s : State) (n : Nat) (f : HostCmd → HostCmd) : (s.updCmd n f).out = s.out := rfl
@[simp] theorem State.updCmd_loom (s : State) (n : Nat) (f : HostCmd → HostCmd) : (s.updCmd n f).loom = s.loom := rfl
@[simp] theorem State.updCmd_cows (s : State) (n : Nat) (f : HostCmd → HostCmd) : (s.updCmd n f).cows = s.cows := rfl
@[simp] theorem State.updCmd_late (s : State) (n : Nat) (f : HostCmd → HostCmd) : (s.updCmd n f).late = s.late := rfl
@[simp] theorem State.updCmd_areas (s : State) (n : Nat) (f : HostCmd → HostCmd) : (s.updCmd n f).areas = s.areas := rfl
@[simp] theorem State.updCmd_su (s : State) (n : Nat) (f : HostCmd → HostCmd) : (s.updCmd n f).su = s.su := rfl
@[simp] theorem State.updCmd_req (s : State) (n : Nat) (f : HostCmd → HostCmd) : (s.updCmd n f).req = s.req := rfl
@[simp] theorem State.updCmd_agenda (s : State) (n : Nat) (f : HostCmd → HostCmd) : (s.updCmd n f).agenda = s.agenda := rfl
@[simp] theorem State.updCmd_unit (s : State) (n : Nat) (f : HostCmd → HostCmd) : (s.updCmd n f).unit = s.unit := rfl
@[simp] theorem State.updCmd_free (s : State) (n : Nat) (f : HostCmd → HostCmd) : (s.updCmd n f).free = s.free := rfl
@[simp] theorem State.updCmd_focus (s : State) (n : Nat) (f : HostCmd → HostCmd) : (s.updCmd n f).focus = s.focus := rfl

/-! ### dropDoorbell -/

@[simp] theorem State.dropDoorbell_strands (s : State) : (s.dropDoorbell).strands = s.strands := rfl
@[simp] theorem State.dropDoorbell_tiles (s : State) : (s.dropDoorbell).tiles = s.tiles := rfl
@[simp] theorem State.dropDoorbell_clusters (s : State) : (s.dropDoorbell).clusters = s.clusters := rfl
@[simp] theorem State.dropDoorbell_mem (s : State) : (s.dropDoorbell).mem = s.mem := rfl
@[simp] theorem State.dropDoorbell_poison (s : State) : (s.dropDoorbell).poison = s.poison := rfl
@[simp] theorem State.dropDoorbell_cycle (s : State) : (s.dropDoorbell).cycle = s.cycle := rfl
@[simp] theorem State.dropDoorbell_head (s : State) : (s.dropDoorbell).head = s.head := rfl
@[simp] theorem State.dropDoorbell_faults (s : State) : (s.dropDoorbell).faults = s.faults := rfl
@[simp] theorem State.dropDoorbell_out (s : State) : (s.dropDoorbell).out = s.out := rfl
@[simp] theorem State.dropDoorbell_loom (s : State) : (s.dropDoorbell).loom = s.loom := rfl
@[simp] theorem State.dropDoorbell_cows (s : State) : (s.dropDoorbell).cows = s.cows := rfl
@[simp] theorem State.dropDoorbell_late (s : State) : (s.dropDoorbell).late = s.late := rfl
@[simp] theorem State.dropDoorbell_areas (s : State) : (s.dropDoorbell).areas = s.areas := rfl
@[simp] theorem State.dropDoorbell_su (s : State) : (s.dropDoorbell).su = s.su := rfl
@[simp] theorem State.dropDoorbell_host (s : State) : (s.dropDoorbell).host = s.host := rfl
@[simp] theorem State.dropDoorbell_req (s : State) : (s.dropDoorbell).req = s.req := rfl
@[simp] theorem State.dropDoorbell_agenda (s : State) : (s.dropDoorbell).agenda = s.agenda := rfl
@[simp] theorem State.dropDoorbell_unit (s : State) : (s.dropDoorbell).unit = s.unit := rfl
@[simp] theorem State.dropDoorbell_free (s : State) : (s.dropDoorbell).free = s.free := rfl
@[simp] theorem State.dropDoorbell_focus (s : State) : (s.dropDoorbell).focus = s.focus := rfl

/-! ### releaseList -/

@[simp] theorem State.releaseList_strands (s : State) (b : Bool) : (s.releaseList b).strands = s.strands := rfl
@[simp] theorem State.releaseList_tiles (s : State) (b : Bool) : (s.releaseList b).tiles = s.tiles := rfl
@[simp] theorem State.releaseList_clusters (s : State) (b : Bool) : (s.releaseList b).clusters = s.clusters := rfl
@[simp] theorem State.releaseList_mem (s : State) (b : Bool) : (s.releaseList b).mem = s.mem := rfl
@[simp] theorem State.releaseList_poison (s : State) (b : Bool) : (s.releaseList b).poison = s.poison := rfl
@[simp] theorem State.releaseList_cycle (s : State) (b : Bool) : (s.releaseList b).cycle = s.cycle := rfl
@[simp] theorem State.releaseList_head (s : State) (b : Bool) : (s.releaseList b).head = s.head := rfl
@[simp] theorem State.releaseList_dev (s : State) (b : Bool) : (s.releaseList b).dev = s.dev := rfl
@[simp] theorem State.releaseList_out (s : State) (b : Bool) : (s.releaseList b).out = s.out := rfl
@[simp] theorem State.releaseList_loom (s : State) (b : Bool) : (s.releaseList b).loom = s.loom := rfl
@[simp] theorem State.releaseList_cows (s : State) (b : Bool) : (s.releaseList b).cows = s.cows := rfl
@[simp] theorem State.releaseList_late (s : State) (b : Bool) : (s.releaseList b).late = s.late := rfl
@[simp] theorem State.releaseList_areas (s : State) (b : Bool) : (s.releaseList b).areas = s.areas := rfl
@[simp] theorem State.releaseList_su (s : State) (b : Bool) : (s.releaseList b).su = s.su := rfl
@[simp] theorem State.releaseList_host (s : State) (b : Bool) : (s.releaseList b).host = s.host := rfl
@[simp] theorem State.releaseList_req (s : State) (b : Bool) : (s.releaseList b).req = s.req := rfl
@[simp] theorem State.releaseList_agenda (s : State) (b : Bool) : (s.releaseList b).agenda = s.agenda := rfl
@[simp] theorem State.releaseList_unit (s : State) (b : Bool) : (s.releaseList b).unit = s.unit := rfl
@[simp] theorem State.releaseList_free (s : State) (b : Bool) : (s.releaseList b).free = s.free := rfl
@[simp] theorem State.releaseList_focus (s : State) (b : Bool) : (s.releaseList b).focus = s.focus := rfl

/-! ### gather -/

@[simp] theorem State.gather_strands (s : State) (p : BitVec 20) (va : Nat) (c : Byte) (g : FaultAgent) : (s.gather p va c g).strands = s.strands := rfl
@[simp] theorem State.gather_tiles (s : State) (p : BitVec 20) (va : Nat) (c : Byte) (g : FaultAgent) : (s.gather p va c g).tiles = s.tiles := rfl
@[simp] theorem State.gather_clusters (s : State) (p : BitVec 20) (va : Nat) (c : Byte) (g : FaultAgent) : (s.gather p va c g).clusters = s.clusters := rfl
@[simp] theorem State.gather_mem (s : State) (p : BitVec 20) (va : Nat) (c : Byte) (g : FaultAgent) : (s.gather p va c g).mem = s.mem := rfl
@[simp] theorem State.gather_poison (s : State) (p : BitVec 20) (va : Nat) (c : Byte) (g : FaultAgent) : (s.gather p va c g).poison = s.poison := rfl
@[simp] theorem State.gather_cycle (s : State) (p : BitVec 20) (va : Nat) (c : Byte) (g : FaultAgent) : (s.gather p va c g).cycle = s.cycle := rfl
@[simp] theorem State.gather_head (s : State) (p : BitVec 20) (va : Nat) (c : Byte) (g : FaultAgent) : (s.gather p va c g).head = s.head := rfl
@[simp] theorem State.gather_dev (s : State) (p : BitVec 20) (va : Nat) (c : Byte) (g : FaultAgent) : (s.gather p va c g).dev = s.dev := rfl
@[simp] theorem State.gather_out (s : State) (p : BitVec 20) (va : Nat) (c : Byte) (g : FaultAgent) : (s.gather p va c g).out = s.out := rfl
@[simp] theorem State.gather_loom (s : State) (p : BitVec 20) (va : Nat) (c : Byte) (g : FaultAgent) : (s.gather p va c g).loom = s.loom := rfl
@[simp] theorem State.gather_cows (s : State) (p : BitVec 20) (va : Nat) (c : Byte) (g : FaultAgent) : (s.gather p va c g).cows = s.cows := rfl
@[simp] theorem State.gather_late (s : State) (p : BitVec 20) (va : Nat) (c : Byte) (g : FaultAgent) : (s.gather p va c g).late = s.late := rfl
@[simp] theorem State.gather_areas (s : State) (p : BitVec 20) (va : Nat) (c : Byte) (g : FaultAgent) : (s.gather p va c g).areas = s.areas := rfl
@[simp] theorem State.gather_su (s : State) (p : BitVec 20) (va : Nat) (c : Byte) (g : FaultAgent) : (s.gather p va c g).su = s.su := rfl
@[simp] theorem State.gather_host (s : State) (p : BitVec 20) (va : Nat) (c : Byte) (g : FaultAgent) : (s.gather p va c g).host = s.host := rfl
@[simp] theorem State.gather_req (s : State) (p : BitVec 20) (va : Nat) (c : Byte) (g : FaultAgent) : (s.gather p va c g).req = s.req := rfl
@[simp] theorem State.gather_agenda (s : State) (p : BitVec 20) (va : Nat) (c : Byte) (g : FaultAgent) : (s.gather p va c g).agenda = s.agenda := rfl
@[simp] theorem State.gather_unit (s : State) (p : BitVec 20) (va : Nat) (c : Byte) (g : FaultAgent) : (s.gather p va c g).unit = s.unit := rfl
@[simp] theorem State.gather_free (s : State) (p : BitVec 20) (va : Nat) (c : Byte) (g : FaultAgent) : (s.gather p va c g).free = s.free := rfl
@[simp] theorem State.gather_focus (s : State) (p : BitVec 20) (va : Nat) (c : Byte) (g : FaultAgent) : (s.gather p va c g).focus = s.focus := rfl

/-! ### setLine -/

@[simp] theorem State.setLine_strands (s : State) (t k : Nat) (l : L1Line) : (s.setLine t k l).strands = s.strands := rfl
@[simp] theorem State.setLine_clusters (s : State) (t k : Nat) (l : L1Line) : (s.setLine t k l).clusters = s.clusters := rfl
@[simp] theorem State.setLine_mem (s : State) (t k : Nat) (l : L1Line) : (s.setLine t k l).mem = s.mem := rfl
@[simp] theorem State.setLine_poison (s : State) (t k : Nat) (l : L1Line) : (s.setLine t k l).poison = s.poison := rfl
@[simp] theorem State.setLine_cycle (s : State) (t k : Nat) (l : L1Line) : (s.setLine t k l).cycle = s.cycle := rfl
@[simp] theorem State.setLine_head (s : State) (t k : Nat) (l : L1Line) : (s.setLine t k l).head = s.head := rfl
@[simp] theorem State.setLine_dev (s : State) (t k : Nat) (l : L1Line) : (s.setLine t k l).dev = s.dev := rfl
@[simp] theorem State.setLine_faults (s : State) (t k : Nat) (l : L1Line) : (s.setLine t k l).faults = s.faults := rfl
@[simp] theorem State.setLine_out (s : State) (t k : Nat) (l : L1Line) : (s.setLine t k l).out = s.out := rfl
@[simp] theorem State.setLine_loom (s : State) (t k : Nat) (l : L1Line) : (s.setLine t k l).loom = s.loom := rfl
@[simp] theorem State.setLine_cows (s : State) (t k : Nat) (l : L1Line) : (s.setLine t k l).cows = s.cows := rfl
@[simp] theorem State.setLine_late (s : State) (t k : Nat) (l : L1Line) : (s.setLine t k l).late = s.late := rfl
@[simp] theorem State.setLine_areas (s : State) (t k : Nat) (l : L1Line) : (s.setLine t k l).areas = s.areas := rfl
@[simp] theorem State.setLine_su (s : State) (t k : Nat) (l : L1Line) : (s.setLine t k l).su = s.su := rfl
@[simp] theorem State.setLine_host (s : State) (t k : Nat) (l : L1Line) : (s.setLine t k l).host = s.host := rfl
@[simp] theorem State.setLine_req (s : State) (t k : Nat) (l : L1Line) : (s.setLine t k l).req = s.req := rfl
@[simp] theorem State.setLine_agenda (s : State) (t k : Nat) (l : L1Line) : (s.setLine t k l).agenda = s.agenda := rfl
@[simp] theorem State.setLine_unit (s : State) (t k : Nat) (l : L1Line) : (s.setLine t k l).unit = s.unit := rfl
@[simp] theorem State.setLine_free (s : State) (t k : Nat) (l : L1Line) : (s.setLine t k l).free = s.free := rfl
@[simp] theorem State.setLine_focus (s : State) (t k : Nat) (l : L1Line) : (s.setLine t k l).focus = s.focus := rfl

/-! ### dropLine -/

@[simp] theorem State.dropLine_strands (s : State) (t k : Nat) : (s.dropLine t k).strands = s.strands := rfl
@[simp] theorem State.dropLine_clusters (s : State) (t k : Nat) : (s.dropLine t k).clusters = s.clusters := rfl
@[simp] theorem State.dropLine_mem (s : State) (t k : Nat) : (s.dropLine t k).mem = s.mem := rfl
@[simp] theorem State.dropLine_poison (s : State) (t k : Nat) : (s.dropLine t k).poison = s.poison := rfl
@[simp] theorem State.dropLine_cycle (s : State) (t k : Nat) : (s.dropLine t k).cycle = s.cycle := rfl
@[simp] theorem State.dropLine_head (s : State) (t k : Nat) : (s.dropLine t k).head = s.head := rfl
@[simp] theorem State.dropLine_dev (s : State) (t k : Nat) : (s.dropLine t k).dev = s.dev := rfl
@[simp] theorem State.dropLine_faults (s : State) (t k : Nat) : (s.dropLine t k).faults = s.faults := rfl
@[simp] theorem State.dropLine_out (s : State) (t k : Nat) : (s.dropLine t k).out = s.out := rfl
@[simp] theorem State.dropLine_loom (s : State) (t k : Nat) : (s.dropLine t k).loom = s.loom := rfl
@[simp] theorem State.dropLine_cows (s : State) (t k : Nat) : (s.dropLine t k).cows = s.cows := rfl
@[simp] theorem State.dropLine_late (s : State) (t k : Nat) : (s.dropLine t k).late = s.late := rfl
@[simp] theorem State.dropLine_areas (s : State) (t k : Nat) : (s.dropLine t k).areas = s.areas := rfl
@[simp] theorem State.dropLine_su (s : State) (t k : Nat) : (s.dropLine t k).su = s.su := rfl
@[simp] theorem State.dropLine_host (s : State) (t k : Nat) : (s.dropLine t k).host = s.host := rfl
@[simp] theorem State.dropLine_req (s : State) (t k : Nat) : (s.dropLine t k).req = s.req := rfl
@[simp] theorem State.dropLine_agenda (s : State) (t k : Nat) : (s.dropLine t k).agenda = s.agenda := rfl
@[simp] theorem State.dropLine_unit (s : State) (t k : Nat) : (s.dropLine t k).unit = s.unit := rfl
@[simp] theorem State.dropLine_free (s : State) (t k : Nat) : (s.dropLine t k).free = s.free := rfl
@[simp] theorem State.dropLine_focus (s : State) (t k : Nat) : (s.dropLine t k).focus = s.focus := rfl

/-! ### rouse -/

@[simp] theorem State.rouse_tiles (s : State) (t l : Nat) : (s.rouse t l).tiles = s.tiles := rfl
@[simp] theorem State.rouse_clusters (s : State) (t l : Nat) : (s.rouse t l).clusters = s.clusters := rfl
@[simp] theorem State.rouse_mem (s : State) (t l : Nat) : (s.rouse t l).mem = s.mem := rfl
@[simp] theorem State.rouse_poison (s : State) (t l : Nat) : (s.rouse t l).poison = s.poison := rfl
@[simp] theorem State.rouse_cycle (s : State) (t l : Nat) : (s.rouse t l).cycle = s.cycle := rfl
@[simp] theorem State.rouse_head (s : State) (t l : Nat) : (s.rouse t l).head = s.head := rfl
@[simp] theorem State.rouse_dev (s : State) (t l : Nat) : (s.rouse t l).dev = s.dev := rfl
@[simp] theorem State.rouse_faults (s : State) (t l : Nat) : (s.rouse t l).faults = s.faults := rfl
@[simp] theorem State.rouse_out (s : State) (t l : Nat) : (s.rouse t l).out = s.out := rfl
@[simp] theorem State.rouse_loom (s : State) (t l : Nat) : (s.rouse t l).loom = s.loom := rfl
@[simp] theorem State.rouse_cows (s : State) (t l : Nat) : (s.rouse t l).cows = s.cows := rfl
@[simp] theorem State.rouse_late (s : State) (t l : Nat) : (s.rouse t l).late = s.late := rfl
@[simp] theorem State.rouse_areas (s : State) (t l : Nat) : (s.rouse t l).areas = s.areas := rfl
@[simp] theorem State.rouse_su (s : State) (t l : Nat) : (s.rouse t l).su = s.su := rfl
@[simp] theorem State.rouse_host (s : State) (t l : Nat) : (s.rouse t l).host = s.host := rfl
@[simp] theorem State.rouse_req (s : State) (t l : Nat) : (s.rouse t l).req = s.req := rfl
@[simp] theorem State.rouse_agenda (s : State) (t l : Nat) : (s.rouse t l).agenda = s.agenda := rfl
@[simp] theorem State.rouse_unit (s : State) (t l : Nat) : (s.rouse t l).unit = s.unit := rfl
@[simp] theorem State.rouse_free (s : State) (t l : Nat) : (s.rouse t l).free = s.free := rfl
@[simp] theorem State.rouse_focus (s : State) (t l : Nat) : (s.rouse t l).focus = s.focus := rfl

/-! ### at -/

@[simp] theorem State.at_strands (s : State) (i : Nat) (p : Place) : (s.at i p).strands = s.strands := rfl
@[simp] theorem State.at_tiles (s : State) (i : Nat) (p : Place) : (s.at i p).tiles = s.tiles := rfl
@[simp] theorem State.at_clusters (s : State) (i : Nat) (p : Place) : (s.at i p).clusters = s.clusters := rfl
@[simp] theorem State.at_mem (s : State) (i : Nat) (p : Place) : (s.at i p).mem = s.mem := rfl
@[simp] theorem State.at_poison (s : State) (i : Nat) (p : Place) : (s.at i p).poison = s.poison := rfl
@[simp] theorem State.at_cycle (s : State) (i : Nat) (p : Place) : (s.at i p).cycle = s.cycle := rfl
@[simp] theorem State.at_head (s : State) (i : Nat) (p : Place) : (s.at i p).head = s.head := rfl
@[simp] theorem State.at_dev (s : State) (i : Nat) (p : Place) : (s.at i p).dev = s.dev := rfl
@[simp] theorem State.at_faults (s : State) (i : Nat) (p : Place) : (s.at i p).faults = s.faults := rfl
@[simp] theorem State.at_out (s : State) (i : Nat) (p : Place) : (s.at i p).out = s.out := rfl
@[simp] theorem State.at_loom (s : State) (i : Nat) (p : Place) : (s.at i p).loom = s.loom := rfl
@[simp] theorem State.at_cows (s : State) (i : Nat) (p : Place) : (s.at i p).cows = s.cows := rfl
@[simp] theorem State.at_late (s : State) (i : Nat) (p : Place) : (s.at i p).late = s.late := rfl
@[simp] theorem State.at_areas (s : State) (i : Nat) (p : Place) : (s.at i p).areas = s.areas := rfl
@[simp] theorem State.at_su (s : State) (i : Nat) (p : Place) : (s.at i p).su = s.su := rfl
@[simp] theorem State.at_host (s : State) (i : Nat) (p : Place) : (s.at i p).host = s.host := rfl
@[simp] theorem State.at_req (s : State) (i : Nat) (p : Place) : (s.at i p).req = s.req := rfl
@[simp] theorem State.at_agenda (s : State) (i : Nat) (p : Place) : (s.at i p).agenda = s.agenda := rfl
@[simp] theorem State.at_unit (s : State) (i : Nat) (p : Place) : (s.at i p).unit = s.unit := rfl
@[simp] theorem State.at_free (s : State) (i : Nat) (p : Place) : (s.at i p).free = s.free := rfl
@[simp] theorem State.at_focus (s : State) (i : Nat) (p : Place) : (s.at i p).focus = some ⟨i, p⟩ := rfl

end Sys2Proof.Machine
end

