-- ==== Sys2Proof/Laws/Lookup.lean ====
section
/-! SUPPORT. Lookups after updates: the strand, tile, task, cluster, semaphore, stream, feed, launch, queue or command that
an update wrote, and every other one as it was. -/

namespace Sys2Proof.Machine

/-! ### Finite maps -/

theorem FMap.get?_update_self {α : Type} (m : FMap α) (a : Nat) (f : α → α) :
    (m.update a f).get? a = (m.get? a).map f := by
  simp only [FMap.update]
  split
  · rename_i x h; rw [FMap.get?_set_self, h]; rfl
  · rename_i h; rw [h]; rfl

theorem FMap.get?_update_ne {α : Type} (m : FMap α) {a b : Nat} (f : α → α) (h : a ≠ b) :
    (m.update a f).get? b = m.get? b := by
  simp only [FMap.update]
  split
  · exact FMap.get?_set_ne m _ h
  · rfl

theorem FMap.get?_erase_self {α : Type} (m : FMap α) (a : Nat) : (m.erase a).get? a = none := by
  induction m with
  | nil => rfl
  | cons c m ih =>
    simp only [FMap.erase]
    split
    · exact ih
    · rename_i h; simp only [FMap.get?, if_neg h, ih]

theorem FMap.get?_erase_ne {α : Type} (m : FMap α) {a b : Nat} (h : a ≠ b) : (m.erase a).get? b = m.get? b := by
  induction m with
  | nil => rfl
  | cons c m ih =>
    simp only [FMap.erase]
    split
    · rename_i e; simp only [FMap.get?, if_neg (e ▸ h), ih]
    · simp only [FMap.get?, ih]

theorem FMap.get?_map {α β : Type} (m : FMap α) (f : α → β) (a : Nat) :
    FMap.get? (m.map fun q => (q.1, f q.2)) a = (m.get? a).map f := by
  induction m with
  | nil => rfl
  | cons c m ih =>
    simp only [List.map_cons, FMap.get?]
    split
    · rfl
    · exact ih

/-! ### Strands -/

@[simp] theorem strand?_updStrand (s : State) (i : Nat) (f : Strand → Strand) :
    (s.updStrand i f).strand? i = (s.strand? i).map f := FMap.get?_update_self s.strands i f

theorem strand?_updStrand_ne (s : State) {i j : Nat} (f : Strand → Strand) (h : i ≠ j) :
    (s.updStrand i f).strand? j = s.strand? j := FMap.get?_update_ne s.strands f h

@[simp] theorem strand?_dropStrand (s : State) (i : Nat) : (s.dropStrand i).strand? i = none :=
  FMap.get?_erase_self s.strands i

theorem strand?_dropStrand_ne (s : State) {i j : Nat} (h : i ≠ j) : (s.dropStrand i).strand? j = s.strand? j :=
  FMap.get?_erase_ne s.strands h

/-! ### Tiles and their tasks -/

@[simp] theorem tile_setTile (s : State) (t : Nat) (x : Tile) : (s.setTile t x).tile t = x := by
  simp only [State.tile, State.setTile_tiles, FMap.get?_set_self, Option.getD_some]

theorem tile_setTile_ne (s : State) {t u : Nat} (x : Tile) (h : t ≠ u) : (s.setTile t x).tile u = s.tile u := by
  simp only [State.tile, State.setTile_tiles, FMap.get?_set_ne _ _ h]

@[simp] theorem tile_updTile (s : State) (t : Nat) (f : Tile → Tile) : (s.updTile t f).tile t = f (s.tile t) := tile_setTile s t _

theorem tile_updTile_ne (s : State) {t u : Nat} (f : Tile → Tile) (h : t ≠ u) : (s.updTile t f).tile u = s.tile u :=
  tile_setTile_ne s _ h

@[simp] theorem task?_updTask (s : State) (t : Nat) (f : Task → Task) : (s.updTask t f).task? t = (s.task? t).map f := by
  simp only [State.task?, State.updTask, tile_updTile]

theorem task?_updTask_ne (s : State) {t u : Nat} (f : Task → Task) (h : t ≠ u) : (s.updTask t f).task? u = s.task? u := by
  simp only [State.task?, State.updTask, tile_updTile_ne s _ h]

theorem task?_congr {s s' : State} (h : s'.tiles = s.tiles) (t : Nat) : s'.task? t = s.task? t := by
  simp only [State.task?, State.tile, h]

theorem strand?_congr {s s' : State} (h : s'.strands = s.strands) (i : Nat) : s'.strand? i = s.strand? i := by
  simp only [State.strand?, h]

@[simp] theorem task?_setStrand (s : State) (i : Nat) (u : Strand) (t : Nat) : (s.setStrand i u).task? t = s.task? t := rfl
@[simp] theorem task?_updStrand (s : State) (i : Nat) (f : Strand → Strand) (t : Nat) :
    (s.updStrand i f).task? t = s.task? t := rfl
@[simp] theorem strand?_updTask (s : State) (t : Nat) (f : Task → Task) (i : Nat) :
    (s.updTask t f).strand? i = s.strand? i := rfl

/-! ### Clusters and semaphores -/

@[simp] theorem cluster_setCluster (s : State) (c : Nat) (x : Cluster) : (s.setCluster c x).cluster c = x := by
  simp only [State.cluster, State.setCluster_clusters, FMap.get?_set_self, Option.getD_some]

theorem cluster_setCluster_ne (s : State) {c d : Nat} (x : Cluster) (h : c ≠ d) :
    (s.setCluster c x).cluster d = s.cluster d := by
  simp only [State.cluster, State.setCluster_clusters, FMap.get?_set_ne _ _ h]

@[simp] theorem sem_setSem (s : State) (c k : Nat) (m : Sem) : (s.setSem c k m).sem c k = m := by
  simp only [State.sem, State.setSem, cluster_setCluster]
  split
  · rename_i h; rw [FMap.get?_erase_self, h]; rfl
  · rw [FMap.get?_set_self]; rfl

/-! ### Streams, feeds, launches, objects, queues, commands -/

@[simp] theorem stream?_setStream (s : State) (n : Nat) (t : Stream) : (s.setStream n t).stream? n = some t :=
  FMap.get?_set_self _ _ _

@[simp] theorem stream?_updStream (s : State) (n : Nat) (f : Stream → Stream) :
    (s.updStream n f).stream? n = (s.stream? n).map f := FMap.get?_update_self _ _ _

@[simp] theorem feed?_setFeed (s : State) (n : Nat) (f : Feed) : (s.setFeed n f).feed? n = some f := FMap.get?_set_self _ _ _

@[simp] theorem feed?_dropFeed (s : State) (n : Nat) : (s.dropFeed n).feed? n = none := FMap.get?_erase_self _ _

@[simp] theorem launch?_setLaunch (s : State) (n : Nat) (l : Launch) : (s.setLaunch n l).launch? n = some l :=
  FMap.get?_set_self _ _ _

@[simp] theorem launch?_updLaunch (s : State) (n : Nat) (f : Launch → Launch) :
    (s.updLaunch n f).launch? n = (s.launch? n).map f := FMap.get?_update_self _ _ _

@[simp] theorem object?_updObject (s : State) (n : Nat) (f : Object → Object) :
    (s.updObject n f).object? n = (s.object? n).map f := FMap.get?_update_self _ _ _

@[simp] theorem queue?_setQueue (s : State) (q : Nat) (h : HostQueue) : (s.setQueue q h).queue? q = some h :=
  FMap.get?_set_self _ _ _

@[simp] theorem queue?_updQueue (s : State) (q : Nat) (f : HostQueue → HostQueue) :
    (s.updQueue q f).queue? q = (s.queue? q).map f := FMap.get?_update_self _ _ _

@[simp] theorem cmd?_setCmd (s : State) (n : Nat) (c : HostCmd) : (s.setCmd n c).cmd? n = some c := FMap.get?_set_self _ _ _

@[simp] theorem cmd?_updCmd (s : State) (n : Nat) (f : HostCmd → HostCmd) :
    (s.updCmd n f).cmd? n = (s.cmd? n).map f := FMap.get?_update_self _ _ _

end Sys2Proof.Machine
end

