-- ==== Sys2Proof/Laws/Memory.lean ====
section
/-! SUPPORT. Memory: a byte written is read back and no other byte changes, and every operation on memory keeps the
canonical form of log 2 and log 3. -/

namespace Sys2Proof.Machine

namespace Memory

/-! ### Reading after writing -/

theorem read_write_self {m : List Host.Cell} {lo : Nat} (h : wfFrom lo m = true) (a : Nat) (b : Byte) :
    read (write m a b) a = b := by
  induction m generalizing lo with
  | nil =>
    simp only [write]
    split
    · rename_i hb; simp [read, hb]
    · simp [read]
  | cons c m ih =>
    obtain ⟨k, v⟩ := c
    simp only [wfFrom, Bool.and_eq_true, decide_eq_true_eq] at h
    simp only [write]
    have hskip : ∀ (l : Nat) (m : List Host.Cell) (a : Nat), wfFrom l m = true → a < l → read m a = memDefault := by
      intro l m a
      induction m generalizing l with
      | nil => intros; rfl
      | cons c m ih =>
        obtain ⟨k, v⟩ := c
        intro h hl
        simp only [wfFrom, Bool.and_eq_true, decide_eq_true_eq] at h
        rw [read, if_neg (by omega)]
        exact ih (k + 1) h.2 (by omega)
    split
    · split
      · rename_i h1 h2
        rw [read, if_neg (by omega), hskip (k + 1) m a h.2 (by omega), h2]
      · simp [read]
    · split
      · split
        · rename_i h1 h2 h3
          rw [hskip (k + 1) m a h.2 (by omega), h3]
        · simp [read]
      · rename_i h1 h2
        rw [read, if_neg (by omega)]
        exact ih h.2

theorem read_write_ne (m : List Host.Cell) {a x : Nat} (b : Byte) (h : x ≠ a) : read (write m a b) x = read m x := by
  induction m with
  | nil =>
    simp only [write]
    split
    · rfl
    · simp [read, Ne.symm h]
  | cons c m ih =>
    obtain ⟨k, v⟩ := c
    simp only [write]
    split
    · split
      · rfl
      · rw [read, if_neg (Ne.symm h)]
    · split
      · rename_i h1 h2
        subst h2
        split
        · rw [read, if_neg (Ne.symm h)]
        · rw [read, if_neg (Ne.symm h), read, if_neg (Ne.symm h)]
      · simp only [read, ih]

theorem read_writeN_ne (m : List Host.Cell) (a : Nat) (bs : List Byte) {x : Nat} (h : x < a ∨ a + bs.length ≤ x) :
    read (writeN m a bs) x = read m x := by
  induction bs generalizing m a with
  | nil => rfl
  | cons b bs ih =>
    simp only [List.length_cons] at h
    rw [writeN, ih _ _ (by omega), read_write_ne _ _ (by omega)]

/-! ### The canonical form -/

theorem wfFrom_mono {m : List Host.Cell} {lo lo' : Nat} (h : wfFrom lo m = true) (hl : lo' ≤ lo) : wfFrom lo' m = true := by
  cases m with
  | nil => rfl
  | cons c m =>
    simp only [wfFrom, Bool.and_eq_true, decide_eq_true_eq] at h ⊢
    exact ⟨⟨by omega, h.1.2⟩, h.2⟩

theorem wfFrom_write {m : List Host.Cell} {lo a : Nat} (b : Byte) (h : wfFrom lo m = true) (ha : lo ≤ a) :
    wfFrom lo (write m a b) = true := by
  induction m generalizing lo with
  | nil =>
    simp only [write]
    split
    · rfl
    · rename_i hb; simp [wfFrom, ha, hb]
  | cons c m ih =>
    obtain ⟨k, v⟩ := c
    simp only [wfFrom, Bool.and_eq_true, decide_eq_true_eq] at h
    obtain ⟨⟨h1, h2⟩, h3⟩ := h
    simp only [write]
    split
    · split
      · simp [wfFrom, h1, h2, h3]
      · rename_i hlt hb
        simp only [wfFrom, Bool.and_eq_true, decide_eq_true_eq, bne_iff_ne, ne_eq]
        exact ⟨⟨ha, hb⟩, ⟨by omega, by simpa using h2⟩, h3⟩
    · split
      · split
        · exact wfFrom_mono h3 (by omega)
        · rename_i he hb
          simp only [wfFrom, Bool.and_eq_true, decide_eq_true_eq, bne_iff_ne, ne_eq]
          exact ⟨⟨ha, hb⟩, by subst he; exact h3⟩
      · rename_i hn1 hn2
        simp only [wfFrom, Bool.and_eq_true, decide_eq_true_eq]
        exact ⟨⟨h1, h2⟩, ih h3 (by omega)⟩

/-- Writing a byte keeps the canonical form. -/
theorem wf_write {m : List Host.Cell} (a : Nat) (b : Byte) (h : wf m = true) : wf (write m a b) = true :=
  wfFrom_write b h (Nat.zero_le a)

/-- Writing a run of bytes keeps the canonical form. -/
theorem wf_writeN {m : List Host.Cell} (a : Nat) (bs : List Byte) (h : wf m = true) : wf (writeN m a bs) = true := by
  induction bs generalizing m a with
  | nil => exact h
  | cons b bs ih => exact ih (a + 1) (wf_write a b h)

theorem wfFrom_filter {m : List Host.Cell} {lo : Nat} (p : Host.Cell → Bool) (h : wfFrom lo m = true) :
    wfFrom lo (m.filter p) = true := by
  induction m generalizing lo with
  | nil => rfl
  | cons c m ih =>
    obtain ⟨k, v⟩ := c
    simp only [wfFrom, Bool.and_eq_true, decide_eq_true_eq] at h
    rw [List.filter_cons]
    split
    · simp only [wfFrom, Bool.and_eq_true, decide_eq_true_eq]
      exact ⟨h.1, ih h.2⟩
    · exact wfFrom_mono (ih h.2) (by omega)

/-- Clearing a range keeps the canonical form. -/
theorem wf_clear {m : List Host.Cell} (lo n : Nat) (h : wf m = true) : wf (clear m lo n) = true := wfFrom_filter _ h

theorem read_writeN_at {m : List Host.Cell} (h : wf m = true) (a : Nat) (bs : List Byte) (k : Nat) (hk : k < bs.length) :
    read (writeN m a bs) (a + k) = bs.getD k 0 := by
  induction bs generalizing m a k with
  | nil => simp at hk
  | cons b bs ih =>
    rw [writeN]
    cases k with
    | zero =>
      rw [read_writeN_ne _ _ _ (by omega)]
      exact read_write_self h a b
    | succ k =>
      have := ih (wf_write a b h) (a + 1) k (by simpa using hk)
      rw [show a + (k + 1) = a + 1 + k by omega, this]
      rfl

/-- Equal bytes everywhere make equal memories: the form is canonical. -/
theorem ext {m n : List Host.Cell} {lo : Nat} (hm : wfFrom lo m = true) (hn : wfFrom lo n = true)
    (h : ∀ a, read m a = read n a) : m = n := by
  have hskip : ∀ (l : Nat) (m : List Host.Cell) (a : Nat), wfFrom l m = true → a < l → read m a = memDefault := by
    intro l m a
    induction m generalizing l with
    | nil => intros; rfl
    | cons c m ih =>
      obtain ⟨k, v⟩ := c
      intro h hl
      simp only [wfFrom, Bool.and_eq_true, decide_eq_true_eq] at h
      rw [read, if_neg (by omega)]
      exact ih (k + 1) h.2 (by omega)
  induction m generalizing n lo with
  | nil =>
    cases n with
    | nil => rfl
    | cons c n =>
      obtain ⟨k, v⟩ := c
      simp only [wfFrom, Bool.and_eq_true, decide_eq_true_eq, bne_iff_ne, ne_eq] at hn
      have := h k
      simp only [read, if_true] at this
      exact absurd this.symm hn.1.2
  | cons c m ih =>
    obtain ⟨k, v⟩ := c
    have hm' := hm
    simp only [wfFrom, Bool.and_eq_true, decide_eq_true_eq, bne_iff_ne, ne_eq] at hm
    cases n with
    | nil =>
      have := h k
      simp only [read, if_true] at this
      exact absurd this hm.1.2
    | cons d n =>
      obtain ⟨j, w⟩ := d
      have hn' := hn
      simp only [wfFrom, Bool.and_eq_true, decide_eq_true_eq, bne_iff_ne, ne_eq] at hn
      have hk : k = j := by
        rcases Nat.lt_trichotomy k j with hlt | heq | hgt
        · have := h k
          rw [read, if_pos rfl, read, if_neg (by omega), hskip (j + 1) n k hn.2 (by omega)] at this
          exact absurd this hm.1.2
        · exact heq
        · have := h j
          rw [read, if_neg (by omega), hskip (k + 1) m j hm.2 (by omega), read, if_pos rfl] at this
          exact absurd this.symm hn.1.2
      subst hk
      have hv : v = w := by
        have := h k
        simpa only [read, if_true] using this
      subst hv
      congr 1
      refine ih hm.2 hn.2 ?_
      intro a
      by_cases ha : a < k + 1
      · rw [hskip _ m a hm.2 ha, hskip _ n a hn.2 ha]
      · have := h a
        rwa [read, if_neg (by omega), read, if_neg (by omega)] at this

end Memory

/-- A state's memory is in canonical form. -/
abbrev MemOk (s : State) : Prop := Memory.wf s.mem = true

theorem MemOk.writeLoc {s : State} (h : MemOk s) (a : Nat) (bs : List Byte) (b : Bool) : MemOk (s.writeLoc a bs b) :=
  Memory.wf_writeN a bs h

theorem MemOk.clearLoc {s : State} (h : MemOk s) (a n : Nat) : MemOk (s.clearLoc a n) := Memory.wf_clear a n h

theorem foldl_keeps {α β : Type} {P : α → Prop} (step : α → β → α) (h : ∀ a b, P a → P (step a b)) (l : List β) (a : α)
    (ha : P a) : P (l.foldl step a) := by
  induction l generalizing a with
  | nil => exact ha
  | cons b l ih => exact ih _ (h a b ha)

theorem MemOk.writeBackLine {s : State} (h : MemOk s) (t k : Nat) : MemOk (s.writeBackLine t k) := by
  simp only [State.writeBackLine]
  split
  · exact h
  · rename_i l _
    refine foldl_keeps (P := fun m => Memory.wf m = true) _ ?_ _ s.mem h
    intro m j hm
    split
    · exact Memory.wf_write _ _ hm
    · exact hm

/-- An update that leaves memory alone keeps its form. -/
theorem MemOk.of_mem {s s' : State} (h : MemOk s) (e : s'.mem = s.mem) : MemOk s' := by
  simp only [MemOk, e]; exact h

theorem reset_memOk : MemOk State.reset := rfl

theorem MemOk.writeLocNat {s : State} (h : MemOk s) (a n v : Nat) : MemOk (s.writeLocNat a n v) := h.writeLoc a _ _

theorem MemOk.keepTier0 {s : State} (h : MemOk s) : MemOk (keepTier0 s) := Memory.wfFrom_filter _ h

theorem MemOk.copyLoc {s : State} (h : MemOk s) (src dst n : Nat) : MemOk (s.copyLoc src dst n) := by
  simp only [State.copyLoc, MemOk]
  refine foldl_keeps (P := fun m => Memory.wf m = true) _ ?_ _ _ (Memory.wf_clear dst n h)
  intro m c hm
  exact Memory.wf_write _ _ hm

theorem MemOk.writeParts {s : State} (h : MemOk s) (ps : List Part) (bs : List Byte) (bad : Bool) :
    MemOk (writeParts s ps bs bad) := by
  induction ps generalizing s bs with
  | nil => exact h
  | cons p ps ih => exact ih (h.writeLoc _ _ _) _

/-! ### The L1 (08 R246 to R250) -/

theorem MemOk.flushLine {s : State} (h : MemOk s) (t k : Nat) : MemOk (s.flushLine t k) := h.writeBackLine t k

theorem MemOk.writeBackAll {s : State} (h : MemOk s) (t : Nat) : MemOk (s.writeBackAll t) :=
  foldl_keeps (P := MemOk) _ (fun _ k hs => hs.writeBackLine t k) _ s h

theorem MemOk.flushAll {s : State} (h : MemOk s) (t : Nat) : MemOk (s.flushAll t) := h.writeBackAll t

theorem MemOk.releaseL1 {s : State} (h : MemOk s) (t : Nat) (sc : Scope) : MemOk (s.releaseL1 t sc) := by
  simp only [State.releaseL1]; split
  · exact h.writeBackAll t
  · exact h

theorem MemOk.acquireL1 {s : State} (h : MemOk s) (t : Nat) (sc : Scope) : MemOk (s.acquireL1 t sc) := by
  simp only [State.acquireL1]; split
  · exact h.flushAll t
  · exact h

theorem MemOk.freshen {s : State} (h : MemOk s) (t : Nat) (sc : Scope) (ps : List Part) : MemOk (s.freshen t sc ps) := by
  simp only [State.freshen]; split
  · exact foldl_keeps (P := MemOk) _ (fun _ _ hs => MemOk.flushLine hs _ _) _ s h
  · exact h

theorem MemOk.evictFor {s : State} (h : MemOk s) (t k : Nat) : MemOk (s.evictFor t k) := by
  simp only [State.evictFor]
  repeat' split
  all_goals first | exact h | exact h.flushLine _ _

theorem MemOk.touchLine {s : State} (h : MemOk s) (t a : Nat) (bs : List Byte) (b : Bool) : MemOk (s.touchLine t a bs b) := by
  simp only [State.touchLine]; split <;> exact h

theorem MemOk.storeLine {s : State} (h : MemOk s) (t : Nat) (ch : CacheHint) (p : Part) (bs : List Byte) (b : Bool) :
    MemOk (s.storeLine t ch p bs b).2 := by
  simp only [State.storeLine]; split
  · exact (h.writeLoc _ _ _).touchLine _ _ _ _
  · refine MemOk.evictFor ?_ _ _
    exact h.of_mem rfl

theorem MemOk.guardReport {s : State} (h : MemOk s) (i : Nat) (c : BitVec 8) (o : Nat) (e : Option Engine) :
    MemOk (s.guardReport i c o e) := h.of_mem rfl

theorem MemOk.spadWrite {s : State} (h : MemOk s) (t i : Nat) (c : BitVec 8) (p : Part) (bs : List Byte) (b : Bool)
    (e : Option Engine) : MemOk (s.spadWrite t i c p bs b e) := by
  simp only [State.spadWrite]; split
  · exact h.writeLoc _ _ _
  · refine foldl_keeps (P := MemOk) _ ?_ _ _ (h.guardReport _ _ _ _)
    intro s q hs
    split
    · exact hs
    · exact hs.writeLoc _ _ _

theorem MemOk.storePart {s : State} (h : MemOk s) (t i : Nat) (ch : CacheHint) (p : Part) (bs : List Byte) (b : Bool) :
    MemOk (storePart s t i ch p bs b).2 := by
  have hr : ∀ s : State, MemOk s → MemOk ((s.sendStore t p).roused t p.loc p.len) := by
    intro s hs
    simp only [State.sendStore, State.roused]
    repeat' split
    all_goals first
      | exact hs
      | exact foldl_keeps (P := MemOk) (fun s k => s.rouse t k) (fun s k (hk : MemOk s) => (hk : MemOk (s.rouse t k))) _ _ hs
  apply hr
  split
  · exact h.spadWrite _ _ _ _ _ _ _
  · split
    · refine foldl_keeps (P := fun r : Bool × State => MemOk r.2) _ ?_ _ _ h
      intro r q hr
      exact hr.storeLine _ _ _ _ _
    · exact h.writeLoc _ _ _

theorem MemOk.countMiss {s : State} (h : MemOk s) (i : Nat) (b : Bool) : MemOk (s.countMiss i b) := by
  simp only [State.countMiss]; split <;> exact h

theorem MemOk.storeEach {s : State} (t i : Nat) (ch : CacheHint) (b : Bool) (ps : List Part) (bs : List Byte) (m : Bool)
    (h : MemOk s) : MemOk (storeEach t i ch b ps bs (m, s)).2 := by
  induction ps generalizing s bs m with
  | nil => exact h
  | cons p ps ih => exact ih _ _ (h.storePart _ _ _ _ _ _)

/-- A store of a strand. -/
theorem MemOk.storeParts {s : State} (h : MemOk s) (t i : Nat) (ch : CacheHint) (ps : List Part) (bs : List Byte) (b : Bool) :
    MemOk (storeParts s t i ch ps bs b) := (MemOk.storeEach t i ch b ps bs false h).countMiss _ _

/-! ### Translation: the A and D bits it sets (07 R236) -/

theorem MemOk.useCcb {s : State} (h : MemOk s) (p : BitVec 20) : MemOk (useCcb s p) := h.writeLoc _ _ _

theorem MemOk.tlbFill {s : State} (h : MemOk s) (a : Agent) (e : TlbEnt) : MemOk (s.tlbFill a e) := by
  simp only [State.tlbFill]; split <;> exact h

theorem MemOk.walk {s : State} (h : MemOk s) (a : Agent) (va : Nat) (acc : Acc) : MemOk (walk s a va acc).2 := by
  simp only [Machine.walk]
  repeat' split
  all_goals first
    | exact h
    | exact h.useCcb _
    | exact (h.useCcb _).tlbFill _ _
    | exact ((h.useCcb _).writeLoc _ _ _).tlbFill _ _

theorem MemOk.translate {s : State} (h : MemOk s) (a : Agent) (va : Nat) (acc : Acc) : MemOk (translate s a va acc).2 := by
  have key : ∀ r : Xlate × State, MemOk r.2 → MemOk (match r.1 with
      | .ok e => match permFault e.pte a.user acc with
        | some sub => (Xlate.fault sub, r.2)
        | none => r
      | _ => r).2 := by
    intro r hr
    repeat' split
    all_goals exact hr
  refine key _ ?_
  repeat' split
  all_goals first
    | exact h
    | exact h.walk _ _ _

theorem MemOk.of_translate {s s' : State} (h : MemOk s) {a : Agent} {va : Nat} {acc : Acc} {x : Xlate}
    (e : Machine.translate s a va acc = (x, s')) : MemOk s' := by
  have := h.translate a va acc
  rwa [e] at this

theorem MemOk.fabricPart {s : State} (h : MemOk s) (a : Agent) (va len : Nat) (acc : Acc) :
    MemOk (fabricPart s a va len acc).2 := by
  simp only [Machine.fabricPart]
  repeat' split
  all_goals first
    | exact h
    | (rename_i e; exact h.of_translate e)

theorem MemOk.locate {s : State} (h : MemOk s) (a : Agent) (va len : Nat) (acc : Acc) : MemOk (locate s a va len acc).2 := by
  simp only [Machine.locate]
  repeat' split
  all_goals first
    | exact h
    | exact h.fabricPart _ _ _ _
    | (rename_i e; exact h.of_translate e)
    | (rename_i e _; exact h.of_translate e)

theorem MemOk.pieces {s s' : State} (h : MemOk s) (a : Agent) (acc : Acc) (fl : Bool) (w fuel : Nat) {va len : Nat} {ps : List Part}
    (e : Machine.pieces s a acc fl w fuel va len = .ok (ps, s')) : MemOk s' := by
  induction fuel generalizing s s' va len ps with
  | zero => simp only [Machine.pieces, Except.ok.injEq, Prod.mk.injEq] at e; rw [← e.2]; exact h
  | succ n ih =>
    rw [Machine.pieces] at e
    split at e
    · simp only [Except.ok.injEq, Prod.mk.injEq] at e; rw [← e.2]; exact h
    · simp only [] at e
      split at e
      · rename_i p s1 hl
        have h1 : MemOk s1 := by
          have := h.locate a va (Nat.min len (pieceEnd va - va)) acc
          rwa [hl] at this
        simp only [bind, Except.bind] at e
        split at e
        · cases e
        · split at e
          · cases e
          · rename_i r hr
            simp only [Except.ok.injEq, Prod.mk.injEq] at e
            obtain ⟨r1, r2⟩ := r
            rw [← e.2]; exact ih h1 hr
      · cases e
      · cases e

theorem MemOk.accessParts {s s' : State} (h : MemOk s) {a : Agent} {acc : Acc} {ea : Word} {len : Nat} {fl : Bool} {ps : List Part}
    (e : Machine.accessParts s a acc ea len fl = .ok (ps, s')) : MemOk s' := h.pieces a acc fl _ _ e

end Sys2Proof.Machine
end

