-- ==== Sys2Proof/Laws/Effects.lean ====
section
/-! SUPPORT. What the shared operations of the meanings do, once each: operands and results, control, traps, loads and
stores. -/

namespace Sys2Proof.Machine

open Decode

/-! ### Operands and results -/

/-- Registers without marks pass the check of marks (08 R263). -/
theorem noMarks_ok {u : Strand} {ds : List Desig} (h : Unmarked u ds) : noMarks u ds = .ok () := by
  unfold noMarks
  have : ds.findSome? u.markOf = none := by
    rw [List.findSome?_eq_none_iff]; exact h
  rw [this]

/-- A good target passes the check of targets (03 R90). -/
theorem checkTarget_ok {a : Word} (h : GoodTarget a) : checkTarget a = .ok () := by
  simp [checkTarget, h.1, h.2, need, bind, Except.bind]

/-- Reading a scalar operand changes LQ and XQ only. -/
theorem readScalar_frame {u : Strand} {d : Desig} {a : Read Word} (h : readScalar u d = .ok a) :
   ∃ l x, a.rest = { u with lq := l, xq := x } := by
  unfold readScalar at h
  split at h
  · simp only [popLq, frozen, need, bind, Except.bind] at h
    split at h
    · simp at h
    · rename_i h'
      split at h'
      · simp at h'
      · split at h'
        · simp at h'
        · split at h'
          · simp at h'
          · simp at h' h; subst h; subst h'; exact ⟨_, _, rfl⟩
  · simp only [popXq, frozen, need, bind, Except.bind] at h
    split at h
    · simp at h
    · split at h
      · simp at h
      · simp at h; subst h;  exact ⟨_, _, rfl⟩
  · simp at h; subst h;  exact ⟨u.lq, u.xq, rfl⟩
  · simp at h; subst h;  exact ⟨u.lq, u.xq, rfl⟩

/-- Reading operand b changes LQ and XQ only. -/
theorem operandB_frame {fl : FormS} {u : Strand} {a : Read Word} (h : operandB fl u = .ok a) :
   ∃ l x, a.rest = { u with lq := l, xq := x } := by
  unfold operandB at h
  split at h
  · simp at h; subst h;  exact ⟨u.lq, u.xq, rfl⟩
  · exact readScalar_frame h

/-- Writing a scalar destination changes that register, its mark and its bookkeeping only. -/
theorem putD_frame (u : Strand) (d : Desig) (w : Word) : SameSpecial u (u.putD d w) ∧ SameQueues u (u.putD d w) ∧ (u.putD d w).v = u.v ∧ (u.putD d w).p = u.p ∧ ∀ n, d ≠ .x n → (u.putD d w).getX n = u.getX n := by
  unfold Strand.putD
  split
  · rename_i n
    unfold Strand.setX
    split
    · simp [SameSpecial, SameQueues]
    · refine ⟨by simp [SameSpecial, Strand.invalidate], by simp [SameQueues, Strand.invalidate], rfl, rfl, ?_⟩
      intro m hm
      have : n ≠ m := by rintro rfl; exact hm rfl
      simp only [Strand.getX, Strand.invalidate]
      split
      · rfl
      · simp [Fin.val_ne_of_ne this]
  · simp [SameSpecial, SameQueues]

theorem pow_dvd_int {w : Nat} (h : w ≤ 64) (v : Int) : v % (2 ^ 64 : Nat) % (2 ^ w : Nat) = v % (2 ^ w : Nat) := by
  apply Int.emod_emod_of_dvd
  exact_mod_cast Nat.pow_dvd_pow 2 h

theorem width_le (ty : Ty) : Ty.width ty ≤ 64 := by cases ty <;> decide

theorem width_pos (ty : Ty) : 0 < Ty.width ty := by cases ty <;> decide

/-- The low bits of a result are its exact value (03 R74). -/
theorem resWord_mod (ty : Ty) (v : Int) : ((resWord ty v).toNat : Int) % (2 ^ Ty.width ty : Nat) = v % (2 ^ Ty.width ty : Nat) := by
  have hw := width_le ty
  simp only [resWord, BitVec.toNat_ofInt]
  have h0 : (0 : Int) < (2 ^ Ty.width ty : Nat) := Int.ofNat_lt.mpr (Nat.two_pow_pos _)
  have h1 : ((Ty.toInt ty (wrapInt (Ty.width ty) v) % (2 ^ 64 : Nat)).toNat : Int) = Ty.toInt ty (wrapInt (Ty.width ty) v) % (2 ^ 64 : Nat) :=
    Int.toNat_of_nonneg (Int.emod_nonneg _ (by decide))
  rw [h1, pow_dvd_int hw]
  have h2 : (wrapInt (Ty.width ty) v : Int) = v % (2 ^ Ty.width ty : Nat) := by
    rw [wrapInt]; exact Int.toNat_of_nonneg (Int.emod_nonneg _ (Int.ne_of_gt h0))
  unfold Ty.toInt
  split
  · rw [h2, Int.sub_emod_right, Int.emod_emod]
  · rw [h2, Int.emod_emod]

/-- The upper bits of a result extend it (03 R74). -/
theorem resWord_ext (ty : Ty) (v : Int) : resWord ty v = BitVec.ofInt 64 (opInt ty (resWord ty v)) := by
  have h := resWord_mod ty v
  have h2 : (resWord ty v).toNat % 2 ^ Ty.width ty = wrapInt (Ty.width ty) v := by
    rw [wrapInt, ← h]
    omega
  rw [opInt, h2]; rfl

/-! ### Control -/

theorem setStrand_self {i : Instr} {ord : Order} {s o : State} {f : Focus} {r : Raw} {t u : Strand}
    (h : Finds i ord s f r t o u) : o.setStrand f.sid u = o := by
  obtain ⟨h, rfl, rfl⟩ := h
  simp only [openedState_eq, State.setStrand, FMap.set_set]

/-- With no level ending here, control goes to the next word (03 R95). -/
theorem advance_none (q : Strand) (hn : q.next = none) (hk : ∀ k : Fin 4, k.val < q.depth → q.loops[k].stop ≠ q.pc) :
    (advance q).pc = q.pc + 16 ∧ (advance q).loops = q.loops := by
  have h : ∀ w n, loopAt { q with pc := w, next := n } q.pc = none := by
    intro w n
    simp only [loopAt, List.find?_eq_none]
    intro k _
    have := hk k
    simp only [Bool.and_eq_true, decide_eq_true_eq, beq_iff_eq, not_and]
    exact this
  unfold advance
  simp only [hn]
  unfold loopTest
  simp only [← hn, h]
  exact ⟨trivial, trivial⟩

theorem find_last (g : Fin 4 → Bool) (k : Fin 4) (h1 : g k = true) (h2 : ∀ j, k < j → g j = false) :
    (List.finRange 4).reverse.find? g = some k := by
  have hl : (List.finRange 4).reverse = [3, 2, 1, 0] := by decide
  rw [hl]
  have e3 : k < 3 → g 3 = false := h2 3
  have e2 : k < 2 → g 2 = false := h2 2
  have e1 : k < 1 → g 1 = false := h2 1
  clear h2
  rcases k with ⟨_ | _ | _ | _ | n, hk⟩
  · simp_all [List.find?]
  · simp_all [List.find?]
  · simp_all [List.find?]
  · simp_all [List.find?]
  · omega

/-- The innermost level that ends here and has iterations left goes back to its body (03 R95). -/
theorem advance_loop (q : Strand) (hn : q.next = none) (k : Fin 4) (hk : k.val + 1 = q.depth) (hs : q.loops[k].stop = q.pc)
   (hc : 1 < q.loops[k].count) :
    (advance q).pc = q.loops[k].start ∧ (advance q).loops[k].count = q.loops[k].count - 1 ∧
        ∀ j : Fin 4, j.val < k.val → (advance q).loops[j] = q.loops[j] := by
  have h : ∀ w n, loopAt { q with pc := w, next := n } q.pc = some k := by
    intro w n
    have hd : ∀ w n, Strand.depth { q with pc := w, next := n } = q.depth := fun _ _ => rfl
    refine find_last _ k ?_ ?_
    · have : k.val < q.depth := by omega
      simp only [hd, this, hs, decide_true, Bool.true_and, beq_self_eq_true]
    · intro j hj
      have : ¬ j.val < q.depth := by have := Fin.lt_def.mp hj; omega
      simp only [hd, this, decide_false, Bool.false_and]
  unfold advance
  simp only [hn]
  unfold loopTest
  simp only [← hn, h]
  have : ¬ q.loops[k].count ≤ 1 := by simpa using hc
  simp only [this, if_false]
  refine ⟨trivial, ?_, ?_⟩
  · simp [cutLoops]
  · intro j hj
    have : k.val ≠ j.val := by omega
    simp [cutLoops, this]
    omega

theorem settle_loops (c : Nat) (t : Strand) : (settle c t).loops = t.loops ∧ (settle c t).pc = t.pc := by
    obtain ⟨p, q, a, e, h⟩ := settle_eq c t
    rw [h]; exact ⟨rfl, rfl⟩

theorem countHints_loops (t : Strand) (hs : List Hint) : (countHints t hs).loops = t.loops ∧ (countHints t hs).pc = t.pc := by
  unfold countHints; split <;> exact ⟨rfl, rfl⟩

theorem noteHints_loops (t : Strand) (pc : Word) (n : Nat) (hs : List Hint) :
    (noteHints t pc n hs).loops = t.loops ∧ (noteHints t pc n hs).pc = t.pc := by
  simp only [noteHints]; split <;> exact countHints_loops t hs

theorem opened_loops (s : State) (f : Focus) (r : Raw) (t : Strand) : (opened s f r t).loops = t.loops ∧ (opened s f r t).pc = t.pc := by
  have hs := settle_loops s.cycle t
  simp only [opened]
  have hm : ∀ (q : Strand) sl, (markCounted q sl).loops = q.loops ∧ (markCounted q sl).pc = q.pc := by intro q sl; cases sl <;> simp [markCounted]
  rw [(hm _ _).1, (hm _ _).2]
  split
  · exact hs
  · exact ⟨(noteHints_loops _ _ _ _).1.trans hs.1, (noteHints_loops _ _ _ _).2.trans hs.2⟩

theorem settle_seq (c : Nat) (t : Strand) : (settle c t).seq = t.seq := by
  obtain ⟨p, q, a, e, h⟩ := settle_eq c t
  rw [h]

theorem noteHints_seq (t : Strand) (pc : Word) (n : Nat) (hs : List Hint) : (noteHints t pc n hs).seq = t.seq := by
  have hc : (countHints t hs).seq = t.seq := by unfold countHints; split <;> rfl
  simp only [noteHints]; split <;> exact hc

theorem opened_seq (s : State) (f : Focus) (r : Raw) (t : Strand) : (opened s f r t).seq = t.seq := by
  have hm : ∀ (q : Strand) sl, (markCounted q sl).seq = q.seq := fun q sl => by cases sl <;> rfl
  simp only [opened, hm]
  split
  · exact settle_seq _ _
  · rw [noteHints_seq]; exact settle_seq _ _

/-- A store that may be taken back is noted on its strand alone (01 R31). -/
@[simp] theorem noteStore_sid (s : State) (sid : Nat) (t : Strand) (q : Nat) (ch : CacheHint) (ps : List Part) (a : Option SaqEnt)
    (d : Option SdqEnt) : (s.noteStore sid t q ch ps a d).sid = s.sid := by
  unfold State.noteStore; split <;> rfl

theorem noteStore_empty (s : State) (sid : Nat) (t : Strand) (q : Nat) (ch : CacheHint) (ps : List Part) (a : Option SaqEnt)
    (d : Option SdqEnt) (h : t.ewin = []) : s.noteStore sid t q ch ps a d = s := by
  simp [State.noteStore, h]

/-! ### Traps -/

theorem takeTrap_ok {s : State} {sid : Nat} {t : Strand} {c sub : BitVec 8} {v : BitVec 56} (hi : t.inh = false) (hx : t.xvec ≠ 0) (pc : Word) :
    takeTrap s sid t pc c sub v = (s.leaveSems sid).setStrand sid (t.enter pc c sub v) := by
  rw [takeTrap, if_neg]
  rintro (h | h)
  · rw [hi] at h; cases h
  · exact hx h

theorem putBit_get (w : Word) (i j : Nat) (b : Bool) (hj : j < 64) : (putBit w i b).getLsbD j = if i = j then b else w.getLsbD j := by
  unfold putBit
  split
  · rename_i h; simp [h]
    by_cases h : i = j <;> simp [h, hj]
    intro h1 ; omega
  · rename_i h; simp at h; subst h; simp [hj]
    by_cases h : i = j <;> simp [h]
    omega

/-- Entering the handler (01 R35). -/
theorem enter_took (t t0 : Strand) (pc : Word) (c sub : BitVec 8) (v : BitVec 56) (h : t.bare = t0.bare) (hl : t.loops = t0.loops) :
   TookTrap t0 (t.enter pc c sub v) pc c sub v := by
  have hX : t.xstat = t0.xstat := (special_of_bare h).2.2.2.2.1
  have hV : t.xvec = t0.xvec := (special_of_bare h).2.2.2.1
  have hx : t.x = t0.x := show t.bare.x = _ by rw [h]; rfl
  obtain ⟨q1, q2, q3, q4, q5⟩ := queues_of_bare h
  unfold TookTrap
  refine ⟨rfl, rfl, rfl, hV, ?_, ?_, ?_, ?_, ?_, hx, (v_of_bare h : t.v = t0.v), (p_of_bare h : t.p = t0.p), ⟨q1, q2, q3, q4, q5⟩, hl, rfl, rfl⟩
  · show (putBit (putBit (putBit (putBit (putBit t.xstat 3 t.pl) 2 true) 5 t.inh) 4 true) 7 true).getLsbD 2 = true
    simp (disch := decide) only [putBit_get]
    rfl
  · show (putBit (putBit (putBit (putBit (putBit t.xstat 3 t.pl) 2 true) 5 t.inh) 4 true) 7 true).getLsbD 3 = _
    simp (disch := decide) only [putBit_get, Strand.pl, hX]
    rfl
  · show (putBit (putBit (putBit (putBit (putBit t.xstat 3 t.pl) 2 true) 5 t.inh) 4 true) 7 true).getLsbD 4 = true
    simp (disch := decide) only [putBit_get]
    rfl
  · show (putBit (putBit (putBit (putBit (putBit t.xstat 3 t.pl) 2 true) 5 t.inh) 4 true) 7 true).getLsbD 5 = _
    simp (disch := decide) only [putBit_get, Strand.inh, hX]
    rfl
  · show (putBit (putBit (putBit (putBit (putBit t.xstat 3 t.pl) 2 true) 5 t.inh) 4 true) 7 true).getLsbD 7 = true
    simp (disch := decide) only [putBit_get]
    rfl

theorem uncount_loops (t : Strand) (q : Nat) : (uncount t q).loops = t.loops ∧ (uncount t q).pc = t.pc := by
  unfold uncount
  split <;> exact ⟨rfl, rfl⟩

@[simp] theorem uncount_bare (t : Strand) (q : Nat) : (uncount t q).bare = t.bare := by
  unfold uncount
  split
  · rfl
  · have hb : bits t.hctl 0 1 < 2 := Nat.mod_lt _ (by decide)
    simp only [Strand.bare, hctl_and_one _ _ _ hb, low_hctl]

/-- A cause delivered at a word that stands alone is taken there; what the word has counted is no longer counted. -/
theorem deliver_trap {s : State} {f : Focus} {t : Strand} (ha : Alone t f) (sl : Slice) (i : Instr) (c sub : BitVec 8) (v : BitVec 56)
    (hc : c ≠ 0x07) (he : c ≠ 0x0E) : deliver s f.sid t f.place sl i c sub v = takeTrap s f.sid (uncount t t.seq) t.pc c sub v := by
  obtain ⟨h1, h2, h3⟩ := ha
  simp only [deliver, h1, seqOf, h3, h2, Bool.not_true, Bool.false_or, List.isEmpty_nil, Bool.and_false, Bool.false_eq_true, if_false]
  rw [if_neg (fun h => hc h.1), if_neg (fun h => h.elim hc fun h => he h.1), (uncount_loops t t.seq).2]
  rfl

/-- An issue whose body traps delivers its cause. -/
theorem issue_trap {i : Instr} {o : Order} {s : State} {f : Focus} {r : Raw} {t : Strand}
    {priv : State → Strand → Option Halt} {body : Body} {c sub : BitVec 8} {v : BitVec 56} (h : Issues s i o f r t)
    (hp : priv s (settle s.cycle t) = none) (hb : body (openedState s f r t) = .error (.trap c sub v)) :
    issue i o priv body s = .next (deliver s f.sid (opened s f r t) f.place (sliceOf r) i c sub v) := by
  have hn : (opened s f r t).badRegs = [] := (opened_badRegs s f r t).trans h.parity
  simp only [issue, h.focus, sid_of_focus h.focus, h.strand, h.word, h.formed, hp, before_of_issues h,
    lostReg_nil _ _ hn, repairRegs_nil _ _ hn, State.rasReplay]
  simp only [openedState] at hb
  rw [hb]

/-- The trap of a strand that has changed in its bookkeeping only is the strand's own (01 R35). -/
theorem takeTrap_took {s : State} {sid : Nat} {t q : Strand} (hb : q.bare = t.bare) (hl : q.loops = t.loops) (hi : t.inh = false)
    (hx : t.xvec ≠ 0) (pc : Word) (c sub : BitVec 8) (v : BitVec 56) :
    takeTrap s sid q pc c sub v = (s.leaveSems sid).setStrand sid (q.enter pc c sub v) ∧ TookTrap t (q.enter pc c sub v) pc c sub v := by
  refine ⟨takeTrap_ok ?_ ?_ pc, enter_took q t pc c sub v hb hl⟩
  · simp only [Strand.inh, (special_of_bare hb).2.2.2.2.1]; exact hi
  · rw [(special_of_bare hb).2.2.2.1]; exact hx

/-- Hints kept for a word that does not issue yet are bookkeeping. -/
theorem keepHints_bare (t : Strand) (pc : Word) (hs : List Hint) :
    (keepHints t pc hs).bare = t.bare ∧ (keepHints t pc hs).loops = t.loops ∧ (keepHints t pc hs).pc = t.pc ∧
      (keepHints t pc hs).seq = t.seq := by
  unfold keepHints; split <;> exact ⟨rfl, rfl, rfl, rfl⟩

theorem keepHints_alone {t : Strand} {f : Focus} (pc : Word) (hs : List Hint) (h : Alone t f) : Alone (keepHints t pc hs) f := by
  unfold keepHints; split
  · exact h
  · exact h

/-- A word that its level may not run takes its cause, alone (01 R33, R34). -/
theorem issue_priv {i : Instr} {o : Order} {s : State} {f : Focus} {r : Raw} {t : Strand} {priv : State → Strand → Option Halt}
    {body : Body} {c sub : BitVec 8} {v : BitVec 56} (h1 : s.focus = some f) (h2 : s.strand? f.sid = some t) (h3 : rawOf i = some r)
    (h4 : illFormed s.core i = none) (h5 : timingOk (settle s.cycle t) s.cycle (sliceOf r) r = true)
    (hp : priv s (settle s.cycle t) = some (.trap c sub v)) (ha : Alone (settle s.cycle t) f) (hc : c ≠ 0x07) (he : c ≠ 0x0E)
    (hi : t.inh = false) (hx : t.xvec ≠ 0) :
    ∃ s' t', issue i o priv body s = .next s' ∧ s'.strand? f.sid = some t' ∧ TookTrap t t' t.pc c sub v := by
  obtain ⟨q, hq, hb, hl, hpc, ha2⟩ : ∃ q : Strand, issue i o priv body s = .next (deliver s f.sid q f.place (sliceOf r) i c sub v) ∧
      q.bare = t.bare ∧ q.loops = t.loops ∧ q.pc = t.pc ∧ Alone q f := by
    have hl := settle_loops s.cycle t
    have key : ∀ (b : Bool) (pc : Word) (hs : List Hint), let q := if b = true then settle s.cycle t else keepHints (settle s.cycle t) pc hs
        q.bare = t.bare ∧ q.loops = t.loops ∧ q.pc = t.pc ∧ Alone q f := by
      intro b pc hs
      obtain ⟨k1, k2, k3, _⟩ := keepHints_bare (settle s.cycle t) pc hs
      cases b with
      | true => exact ⟨settle_bare s.cycle t, hl.1, hl.2, ha⟩
      | false => exact ⟨k1.trans (settle_bare s.cycle t), k2.trans hl.1, k3.trans hl.2, keepHints_alone _ _ ha⟩
    simp only [issue, h1, sid_of_focus h1, h2, h3, h4, before, h5, hp, Bool.not_true, if_false, Bool.false_eq_true]
    exact ⟨_, rfl, key _ _ _⟩
  have hu := uncount_loops q q.seq
  obtain ⟨e1, e2⟩ := takeTrap_took (s := s) (sid := f.sid) ((uncount_bare q q.seq).trans hb) (hu.1.trans hl) hi hx t.pc c sub v
  refine ⟨(s.leaveSems f.sid).setStrand f.sid _, _, ?_, strand?_setStrand _ _ _, e2⟩
  rw [hq, deliver_trap ha2 _ _ _ _ _ hc he, hpc, e1]

/-- A word that issues and whose body traps takes its cause, alone (01 R30). -/
theorem issue_took {i : Instr} {o : Order} {s : State} {f : Focus} {r : Raw} {t : Strand} {priv : State → Strand → Option Halt}
    {body : Body} {c sub : BitVec 8} {v : BitVec 56} (h : Issues s i o f r t) (hp : priv s (settle s.cycle t) = none)
    (hb : body (openedState s f r t) = .error (.trap c sub v)) (ha : Alone (opened s f r t) f) (hc : c ≠ 0x07) (he : c ≠ 0x0E)
    (hi : t.inh = false) (hx : t.xvec ≠ 0) :
    ∃ s' t', issue i o priv body s = .next s' ∧ s'.strand? f.sid = some t' ∧ TookTrap t t' t.pc c sub v := by
  have hl := opened_loops s f r t
  have hu := uncount_loops (opened s f r t) (opened s f r t).seq
  obtain ⟨e1, e2⟩ := takeTrap_took (s := s) (sid := f.sid) ((uncount_bare _ (opened s f r t).seq).trans (opened_bare s f r t))
    (hu.1.trans hl.1) hi hx t.pc c sub v
  refine ⟨(s.leaveSems f.sid).setStrand f.sid _, _, ?_, strand?_setStrand _ _ _, e2⟩
  rw [issue_trap h hp hb, deliver_trap ha _ _ _ _ _ hc he, hl.2, e1]

/-! ### Operands while the queues are frozen -/

/-- A scalar operand read of a frozen strand is a register's, with its mark (01 R37). -/
theorem readScalar_frozen {u : Strand} {d : Desig} {a : Read Word} (hq : u.qf = true) (h : readScalar u d = .ok a) :
    a.mark = u.markOf d ∧ a.rest = u := by
  unfold readScalar at h
  split at h <;> simp [popLq, popXq, frozen, need, hq, bind, Except.bind] at h <;> subst h <;> simp [Strand.markOf]

theorem readV_frozen {u : Strand} {d : Desig} {m : SrcMod} {a : Read VArg} (hq : u.qf = true) (h : readV u d m = .ok a) :
    a.mark = u.markOf d ∧ a.rest = u := by
  cases d <;>
    simp [readV, readScalar, readVector, popLq, popXq, frozen, need, hq, bind, Except.bind] at h <;> subst h <;> simp [Strand.markOf]

/-- The registers of a class 0 instruction that reads its operands without a mark do not hold it while the queues are
frozen (01 R33). -/
theorem frozenMarks_operands {fl : FormS} {u : Strand} {a b c : Read Word} (h : Operands fl u a b c) (on : Bool)
    (m : on = true → a.mark = none ∧ b.mark = none ∧ c.mark = none) :
    frozenMarks u on (fl.a :: (if fl.imm then [fl.c] else [fl.b, fl.c])) = .ok () := by
  obtain ⟨ha, hb, hc⟩ := h
  cases on with
  | false => simp [frozenMarks]
  | true =>
    obtain ⟨m1, m2, m3⟩ := m rfl
    by_cases hq : u.qf = true
    · obtain ⟨h1, h2⟩ := readScalar_frozen hq ha
      rw [h2] at hb
      simp only [operandB] at hb
      split at hb
      · rename_i hi
        simp only [Except.ok.injEq] at hb; subst hb
        obtain ⟨h5, _⟩ := readScalar_frozen (u := u) hq hc
        simp [frozenMarks, noMarks, hq, hi, ← h1, ← h5, m1, m3, List.findSome?]
      · rename_i hi
        obtain ⟨h3, h4⟩ := readScalar_frozen hq hb
        rw [h4] at hc
        obtain ⟨h5, _⟩ := readScalar_frozen hq hc
        simp [frozenMarks, noMarks, hq, hi, ← h1, ← h3, ← h5, m1, m2, m3, List.findSome?]
    · simp [frozenMarks, hq]

theorem frozenMarks_vector {u : Strand} {da db dc : Desig} {ma mb mc : SrcMod} {a b c : Read VArg} (ha : readV u da ma = .ok a)
    (hb : readV a.rest db mb = .ok b) (hc : readV b.rest dc mc = .ok c) (on : Bool)
    (m : on = true → a.mark = none ∧ b.mark = none ∧ c.mark = none) : frozenMarks u on [da, db, dc] = .ok () := by
  cases on with
  | false => simp [frozenMarks]
  | true =>
    obtain ⟨m1, m2, m3⟩ := m rfl
    by_cases hq : u.qf = true
    · obtain ⟨h1, h2⟩ := readV_frozen hq ha
      rw [h2] at hb
      obtain ⟨h3, h4⟩ := readV_frozen hq hb
      rw [h4] at hc
      obtain ⟨h5, _⟩ := readV_frozen hq hc
      simp [frozenMarks, noMarks, hq, ← h1, ← h3, ← h5, m1, m2, m3, List.findSome?]
    · simp [frozenMarks, hq]

/-! ### Loads and stores -/

theorem lqRoom_ok {u : Strand} (h1 : u.qf = false) (h2 : u.lq.length < 32) : lqRoom u = .ok () := by
  simp [lqRoom, frozen, need, h1, h2, bind, Except.bind]

theorem saqRoom_ok {u : Strand} (h1 : u.qf = false) (h2 : saqFull u = false) : saqRoom u = .ok () := by
  simp [saqRoom, frozen, need, h1, h2, bind, Except.bind]

theorem sdqRoom_ok {u : Strand} (h1 : u.qf = false) (h2 : sdqFull u = false) : sdqRoom u = .ok () := by
  simp [sdqRoom, frozen, need, h1, h2, bind, Except.bind]

theorem startLoad_ok {fl : FormM} {o2 : State} {f : Focus} {u : Strand} {ps : List Part} (hs : o2.sid = f.sid) (h : LoadFree u ps) (ea : Word) (dst : LoadDst) (sh : List Byte → VReg) :
    startLoad o2 u fl ps ea dst sh = .ok (loadStarts (loadRead fl o2 f ps).2 f (inFlight fl o2 u ea (loadRead fl o2 f ps).1 dst (sh (loadRead fl o2 f ps).1.bytes))) := by
  obtain ⟨h1, h2, h3⟩ := h
  have h4 : (!sideEffect ps || u.ewin.isEmpty) = true := by
    rcases h3 with h | h <;> simp [h]
  simp only [startLoad, loadFree, h1, h2, hs, h4, need, bind, Except.bind, if_true, Bool.not_false]
  rfl

theorem takeBytes_self {bs : List Byte} {n : Nat} (h : bs.length = n) : takeBytes bs 0 n = bs := by
  simp [takeBytes, ← h]

theorem sendStore_mem (s : State) (t : Nat) (p : Part) : (s.sendStore t p).mem = s.mem := by
  simp only [State.sendStore]; split <;> rfl

theorem roused_mem (s : State) (t l n : Nat) : (s.roused t l n).mem = s.mem := by
  simp only [State.roused]; split
  · rfl
  · refine foldl_inv State.mem _ ?_ _ _
    intro a b; rfl

theorem countMiss_mem (s : State) (i : Nat) (m : Bool) : (s.countMiss i m).mem = s.mem := by
  simp only [State.countMiss]; split <;> rfl

theorem setLine_mem (s : State) (t k : Nat) (l : L1Line) : (s.setLine t k l).mem = s.mem := rfl

theorem touchLine_mem (s : State) (t l : Nat) (bs : List Byte) (b : Bool) : (s.touchLine t l bs b).mem = s.mem := by
  simp only [State.touchLine]; split <;> rfl

theorem storeParts_single (s : State) (tile sid : Nat) (ch : CacheHint) (p : Part) (bs : List Byte) (bad : Bool) (h : bs.length = p.len) :
    (storeParts s tile sid ch [p] bs bad).mem = (if p.space = .spad then (s.spadWrite tile sid 2 p bs bad)
    else if p.cacheable && tile != 192 then
      ((cuts p).foldl (fun acc q =>
        let r := acc.2.storeLine tile ch q (takeBytes bs (q.loc - p.loc) q.len) bad
        (acc.1 || r.1, r.2)) (false, s)).2
    else s.writeLoc p.loc bs bad).mem := by
  simp only [storeParts, storeEach, countMiss_mem, storePart, roused_mem, sendStore_mem, takeBytes_self h]
  split
  · rfl
  · split <;> rfl

theorem spadWrite_noGuard {s : State} {tile sid : Nat} {b : BitVec 8} {p : Part} {bs : List Byte} {bad : Bool} (h : s.firstGuard tile p = none) :
   s.spadWrite tile sid b p bs bad = s.writeLoc p.loc bs bad := by
  simp only [State.spadWrite, h]

theorem cuts_one {p : Part} (h1 : p.loc % 128 + p.len ≤ 128) (h2 : 0 < p.len) : cuts p = [p] := by
  simp only [cuts, lineCuts]
  rw [if_pos (by omega), if_neg (by omega)]

theorem cuts_range (p : Part) : ∀ q ∈ cuts p, p.loc ≤ q.loc ∧ q.loc + q.len ≤ p.loc + p.len := by
  have : ∀ (n : Nat) (p : Part), ∀ q ∈ lineCuts p n, p.loc ≤ q.loc ∧ q.loc + q.len ≤ p.loc + p.len := by
    intro n
    induction n with
    | zero => intro p q h; simp [lineCuts] at h
    | succ n ih =>
      intro p q h
      simp only [lineCuts] at h
      split at h
      · split at h
        · simp at h
        · simp at h; subst h; simp
      · rcases List.mem_cons.mp h with rfl | h
        · simp; omega
        · have := ih _ q h
          simp at this; omega
  exact this _ p

end Sys2Proof.Machine
end

