-- ==== Sys2Proof/Laws/PerInstr.lean ====
section
/-! SUPPORT. What holds of every instruction as syntax, one lemma per constructor: the word of an instruction holds its
fields, each where 02 R46 puts it. -/

namespace Sys2Proof.Laws.Fields

open Sys2Proof.Decode

/-- The fields of an instruction's word, packed into it, are read back from it. -/
def Statement (i : Instr) : Prop := ∀ r, rawOf i = some r → unpack (pack r) = r

/-- Packing and unpacking the fields of a word. -/
theorem unpackPack (r : Raw) : unpack (pack r) = r := by
  obtain ⟨a, b, c, d, e, f, g, h, i, j, k, l, m, n, o, p, q, s, t⟩ := r
  simp only [unpack, pack, Raw.mk.injEq]
  refine ⟨?_, ?_, ?_, ?_, ?_, ?_, ?_, ?_, ?_, ?_, ?_, ?_, ?_, ?_, ?_, ?_, ?_, ?_, ?_⟩ <;>
    (apply BitVec.eq_of_getElem_eq
     intro z hz
     simp only [BitVec.getLsbD_append, BitVec.getElem_extractLsb']
     repeat (first | rw [if_pos (by omega)] | rw [if_neg (by omega)])
     rw [BitVec.getLsbD_eq_getElem (by omega)]
     congr 1
     try omega)

end Sys2Proof.Laws.Fields

theorem Sys2Proof.Laws.Fields.add (f : FormS) : Sys2Proof.Laws.Fields.Statement (.add f) := fun r _ => unpackPack r
theorem Sys2Proof.Laws.Fields.sub (f : FormS) : Sys2Proof.Laws.Fields.Statement (.sub f) := fun r _ => unpackPack r
theorem Sys2Proof.Laws.Fields.mul (f : FormS) : Sys2Proof.Laws.Fields.Statement (.mul f) := fun r _ => unpackPack r
theorem Sys2Proof.Laws.Fields.mulh (f : FormS) : Sys2Proof.Laws.Fields.Statement (.mulh f) := fun r _ => unpackPack r
theorem Sys2Proof.Laws.Fields.mulhz (f : FormS) : Sys2Proof.Laws.Fields.Statement (.mulhz f) := fun r _ => unpackPack r
theorem Sys2Proof.Laws.Fields.muladd (f : FormS) : Sys2Proof.Laws.Fields.Statement (.muladd f) := fun r _ => unpackPack r
theorem Sys2Proof.Laws.Fields.div (f : FormS) : Sys2Proof.Laws.Fields.Statement (.div f) := fun r _ => unpackPack r
theorem Sys2Proof.Laws.Fields.divz (f : FormS) : Sys2Proof.Laws.Fields.Statement (.divz f) := fun r _ => unpackPack r
theorem Sys2Proof.Laws.Fields.rem (f : FormS) : Sys2Proof.Laws.Fields.Statement (.rem f) := fun r _ => unpackPack r
theorem Sys2Proof.Laws.Fields.remz (f : FormS) : Sys2Proof.Laws.Fields.Statement (.remz f) := fun r _ => unpackPack r
theorem Sys2Proof.Laws.Fields.and (f : FormS) : Sys2Proof.Laws.Fields.Statement (.and f) := fun r _ => unpackPack r
theorem Sys2Proof.Laws.Fields.or (f : FormS) : Sys2Proof.Laws.Fields.Statement (.or f) := fun r _ => unpackPack r
theorem Sys2Proof.Laws.Fields.xor (f : FormS) : Sys2Proof.Laws.Fields.Statement (.xor f) := fun r _ => unpackPack r
theorem Sys2Proof.Laws.Fields.andn (f : FormS) : Sys2Proof.Laws.Fields.Statement (.andn f) := fun r _ => unpackPack r
theorem Sys2Proof.Laws.Fields.orn (f : FormS) : Sys2Proof.Laws.Fields.Statement (.orn f) := fun r _ => unpackPack r
theorem Sys2Proof.Laws.Fields.sll (f : FormS) : Sys2Proof.Laws.Fields.Statement (.sll f) := fun r _ => unpackPack r
theorem Sys2Proof.Laws.Fields.srl (f : FormS) : Sys2Proof.Laws.Fields.Statement (.srl f) := fun r _ => unpackPack r
theorem Sys2Proof.Laws.Fields.sra (f : FormS) : Sys2Proof.Laws.Fields.Statement (.sra f) := fun r _ => unpackPack r
theorem Sys2Proof.Laws.Fields.ror (f : FormS) : Sys2Proof.Laws.Fields.Statement (.ror f) := fun r _ => unpackPack r
theorem Sys2Proof.Laws.Fields.min (f : FormS) : Sys2Proof.Laws.Fields.Statement (.min f) := fun r _ => unpackPack r
theorem Sys2Proof.Laws.Fields.max (f : FormS) : Sys2Proof.Laws.Fields.Statement (.max f) := fun r _ => unpackPack r
theorem Sys2Proof.Laws.Fields.minz (f : FormS) : Sys2Proof.Laws.Fields.Statement (.minz f) := fun r _ => unpackPack r
theorem Sys2Proof.Laws.Fields.maxz (f : FormS) : Sys2Proof.Laws.Fields.Statement (.maxz f) := fun r _ => unpackPack r
theorem Sys2Proof.Laws.Fields.clz (f : FormS) : Sys2Proof.Laws.Fields.Statement (.clz f) := fun r _ => unpackPack r
theorem Sys2Proof.Laws.Fields.ctz (f : FormS) : Sys2Proof.Laws.Fields.Statement (.ctz f) := fun r _ => unpackPack r
theorem Sys2Proof.Laws.Fields.popc (f : FormS) : Sys2Proof.Laws.Fields.Statement (.popc f) := fun r _ => unpackPack r
theorem Sys2Proof.Laws.Fields.bext (f : FormS) : Sys2Proof.Laws.Fields.Statement (.bext f) := fun r _ => unpackPack r
theorem Sys2Proof.Laws.Fields.bins (f : FormS) : Sys2Proof.Laws.Fields.Statement (.bins f) := fun r _ => unpackPack r
theorem Sys2Proof.Laws.Fields.sext (f : FormS) : Sys2Proof.Laws.Fields.Statement (.sext f) := fun r _ => unpackPack r
theorem Sys2Proof.Laws.Fields.zext (f : FormS) : Sys2Proof.Laws.Fields.Statement (.zext f) := fun r _ => unpackPack r
theorem Sys2Proof.Laws.Fields.slt (f : FormS) : Sys2Proof.Laws.Fields.Statement (.slt f) := fun r _ => unpackPack r
theorem Sys2Proof.Laws.Fields.sltz (f : FormS) : Sys2Proof.Laws.Fields.Statement (.sltz f) := fun r _ => unpackPack r
theorem Sys2Proof.Laws.Fields.seq (f : FormS) : Sys2Proof.Laws.Fields.Statement (.seq f) := fun r _ => unpackPack r
theorem Sys2Proof.Laws.Fields.sel (f : FormS) : Sys2Proof.Laws.Fields.Statement (.sel f) := fun r _ => unpackPack r
theorem Sys2Proof.Laws.Fields.movi (f : FormS) : Sys2Proof.Laws.Fields.Statement (.movi f) := fun r _ => unpackPack r
theorem Sys2Proof.Laws.Fields.movhi (f : FormS) : Sys2Proof.Laws.Fields.Statement (.movhi f) := fun r _ => unpackPack r
theorem Sys2Proof.Laws.Fields.lea (f : FormS) : Sys2Proof.Laws.Fields.Statement (.lea f) := fun r _ => unpackPack r
theorem Sys2Proof.Laws.Fields.sfadd (f : FormS) : Sys2Proof.Laws.Fields.Statement (.sfadd f) := fun r _ => unpackPack r
theorem Sys2Proof.Laws.Fields.sfmul (f : FormS) : Sys2Proof.Laws.Fields.Statement (.sfmul f) := fun r _ => unpackPack r
theorem Sys2Proof.Laws.Fields.sffma (f : FormS) : Sys2Proof.Laws.Fields.Statement (.sffma f) := fun r _ => unpackPack r
theorem Sys2Proof.Laws.Fields.sfcmp (f : FormS) : Sys2Proof.Laws.Fields.Statement (.sfcmp f) := fun r _ => unpackPack r
theorem Sys2Proof.Laws.Fields.sfcvt (f : FormS) : Sys2Proof.Laws.Fields.Statement (.sfcvt f) := fun r _ => unpackPack r
theorem Sys2Proof.Laws.Fields.sfmin (f : FormS) : Sys2Proof.Laws.Fields.Statement (.sfmin f) := fun r _ => unpackPack r
theorem Sys2Proof.Laws.Fields.sfmax (f : FormS) : Sys2Proof.Laws.Fields.Statement (.sfmax f) := fun r _ => unpackPack r
theorem Sys2Proof.Laws.Fields.nop (f : FormS) : Sys2Proof.Laws.Fields.Statement (.nop f) := fun r _ => unpackPack r
theorem Sys2Proof.Laws.Fields.br (f : FormS) : Sys2Proof.Laws.Fields.Statement (.br f) := fun r _ => unpackPack r
theorem Sys2Proof.Laws.Fields.bcc (f : FormS) : Sys2Proof.Laws.Fields.Statement (.bcc f) := fun r _ => unpackPack r
theorem Sys2Proof.Laws.Fields.bri (f : FormS) : Sys2Proof.Laws.Fields.Statement (.bri f) := fun r _ => unpackPack r
theorem Sys2Proof.Laws.Fields.call (f : FormS) : Sys2Proof.Laws.Fields.Statement (.call f) := fun r _ => unpackPack r
theorem Sys2Proof.Laws.Fields.calli (f : FormS) : Sys2Proof.Laws.Fields.Statement (.calli f) := fun r _ => unpackPack r
theorem Sys2Proof.Laws.Fields.ret (f : FormS) : Sys2Proof.Laws.Fields.Statement (.ret f) := fun r _ => unpackPack r
theorem Sys2Proof.Laws.Fields.loopReg (f : FormS) : Sys2Proof.Laws.Fields.Statement (.loopReg f) := fun r _ => unpackPack r
theorem Sys2Proof.Laws.Fields.loopImm (f : FormS) : Sys2Proof.Laws.Fields.Statement (.loopImm f) := fun r _ => unpackPack r
theorem Sys2Proof.Laws.Fields.loopx (f : FormS) : Sys2Proof.Laws.Fields.Statement (.loopx f) := fun r _ => unpackPack r
theorem Sys2Proof.Laws.Fields.ipref (f : FormS) : Sys2Proof.Laws.Fields.Statement (.ipref f) := fun r _ => unpackPack r
theorem Sys2Proof.Laws.Fields.ipin (f : FormS) : Sys2Proof.Laws.Fields.Statement (.ipin f) := fun r _ => unpackPack r
theorem Sys2Proof.Laws.Fields.iunpin (f : FormS) : Sys2Proof.Laws.Fields.Statement (.iunpin f) := fun r _ => unpackPack r
theorem Sys2Proof.Laws.Fields.fencei (f : FormS) : Sys2Proof.Laws.Fields.Statement (.fencei f) := fun r _ => unpackPack r
theorem Sys2Proof.Laws.Fields.end_ (f : FormS) : Sys2Proof.Laws.Fields.Statement (.end_ f) := fun r _ => unpackPack r
theorem Sys2Proof.Laws.Fields.trap (f : FormS) : Sys2Proof.Laws.Fields.Statement (.trap f) := fun r _ => unpackPack r
theorem Sys2Proof.Laws.Fields.xret (f : FormS) : Sys2Proof.Laws.Fields.Statement (.xret f) := fun r _ => unpackPack r
theorem Sys2Proof.Laws.Fields.krd (f : FormS) : Sys2Proof.Laws.Fields.Statement (.krd f) := fun r _ => unpackPack r
theorem Sys2Proof.Laws.Fields.kwr (f : FormS) : Sys2Proof.Laws.Fields.Statement (.kwr f) := fun r _ => unpackPack r
theorem Sys2Proof.Laws.Fields.talertWrite (f : FormS) : Sys2Proof.Laws.Fields.Statement (.talertWrite f) := fun r _ => unpackPack r
theorem Sys2Proof.Laws.Fields.intpendClear (f : FormS) : Sys2Proof.Laws.Fields.Statement (.intpendClear f) := fun r _ => unpackPack r
theorem Sys2Proof.Laws.Fields.thrWrite (f : FormS) : Sys2Proof.Laws.Fields.Statement (.thrWrite f) := fun r _ => unpackPack r
theorem Sys2Proof.Laws.Fields.sleep (f : FormS) : Sys2Proof.Laws.Fields.Statement (.sleep f) := fun r _ => unpackPack r
theorem Sys2Proof.Laws.Fields.sleepRecheck (sid : Nat) : Sys2Proof.Laws.Fields.Statement (.sleepRecheck sid) := fun r _ => unpackPack r
theorem Sys2Proof.Laws.Fields.sleepTimeout (sid : Nat) : Sys2Proof.Laws.Fields.Statement (.sleepTimeout sid) := fun r _ => unpackPack r
theorem Sys2Proof.Laws.Fields.wake (f : FormS) : Sys2Proof.Laws.Fields.Statement (.wake f) := fun r _ => unpackPack r
theorem Sys2Proof.Laws.Fields.barrier (f : FormS) : Sys2Proof.Laws.Fields.Statement (.barrier f) := fun r _ => unpackPack r
theorem Sys2Proof.Laws.Fields.spawn (f : FormS) : Sys2Proof.Laws.Fields.Statement (.spawn f) := fun r _ => unpackPack r
theorem Sys2Proof.Laws.Fields.cancel (f : FormS) : Sys2Proof.Laws.Fields.Statement (.cancel f) := fun r _ => unpackPack r
theorem Sys2Proof.Laws.Fields.ld (f : FormM) : Sys2Proof.Laws.Fields.Statement (.ld f) := fun r _ => unpackPack r
theorem Sys2Proof.Laws.Fields.ldq (f : FormM) : Sys2Proof.Laws.Fields.Statement (.ldq f) := fun r _ => unpackPack r
theorem Sys2Proof.Laws.Fields.loadDataReturn (sid : Nat) (req : Nat) : Sys2Proof.Laws.Fields.Statement (.loadDataReturn sid req) := fun r _ => unpackPack r
theorem Sys2Proof.Laws.Fields.st (f : FormM) : Sys2Proof.Laws.Fields.Statement (.st f) := fun r _ => unpackPack r
theorem Sys2Proof.Laws.Fields.sta (f : FormM) : Sys2Proof.Laws.Fields.Statement (.sta f) := fun r _ => unpackPack r
theorem Sys2Proof.Laws.Fields.std (f : FormM) : Sys2Proof.Laws.Fields.Statement (.std f) := fun r _ => unpackPack r
theorem Sys2Proof.Laws.Fields.storePair (sid : Nat) : Sys2Proof.Laws.Fields.Statement (.storePair sid) := fun r _ => unpackPack r
theorem Sys2Proof.Laws.Fields.vldq (f : FormM) : Sys2Proof.Laws.Fields.Statement (.vldq f) := fun r _ => unpackPack r
theorem Sys2Proof.Laws.Fields.vsta (f : FormM) : Sys2Proof.Laws.Fields.Statement (.vsta f) := fun r _ => unpackPack r
theorem Sys2Proof.Laws.Fields.vstd (f : FormM) : Sys2Proof.Laws.Fields.Statement (.vstd f) := fun r _ => unpackPack r
theorem Sys2Proof.Laws.Fields.movq (f : FormM) : Sys2Proof.Laws.Fields.Statement (.movq f) := fun r _ => unpackPack r
theorem Sys2Proof.Laws.Fields.bqpush (f : FormM) : Sys2Proof.Laws.Fields.Statement (.bqpush f) := fun r _ => unpackPack r
theorem Sys2Proof.Laws.Fields.bqpop (f : FormM) : Sys2Proof.Laws.Fields.Statement (.bqpop f) := fun r _ => unpackPack r
theorem Sys2Proof.Laws.Fields.crosswaitDetect (sid : Nat) : Sys2Proof.Laws.Fields.Statement (.crosswaitDetect sid) := fun r _ => unpackPack r
theorem Sys2Proof.Laws.Fields.qmark (f : FormM) : Sys2Proof.Laws.Fields.Statement (.qmark f) := fun r _ => unpackPack r
theorem Sys2Proof.Laws.Fields.fence (f : FormM) : Sys2Proof.Laws.Fields.Statement (.fence f) := fun r _ => unpackPack r
theorem Sys2Proof.Laws.Fields.cinv (f : FormM) : Sys2Proof.Laws.Fields.Statement (.cinv f) := fun r _ => unpackPack r
theorem Sys2Proof.Laws.Fields.cwb (f : FormM) : Sys2Proof.Laws.Fields.Statement (.cwb f) := fun r _ => unpackPack r
theorem Sys2Proof.Laws.Fields.cpref (f : FormM) : Sys2Proof.Laws.Fields.Statement (.cpref f) := fun r _ => unpackPack r
theorem Sys2Proof.Laws.Fields.aadd (f : FormM) : Sys2Proof.Laws.Fields.Statement (.aadd f) := fun r _ => unpackPack r
theorem Sys2Proof.Laws.Fields.amax (f : FormM) : Sys2Proof.Laws.Fields.Statement (.amax f) := fun r _ => unpackPack r
theorem Sys2Proof.Laws.Fields.amin (f : FormM) : Sys2Proof.Laws.Fields.Statement (.amin f) := fun r _ => unpackPack r
theorem Sys2Proof.Laws.Fields.amaxz (f : FormM) : Sys2Proof.Laws.Fields.Statement (.amaxz f) := fun r _ => unpackPack r
theorem Sys2Proof.Laws.Fields.aminz (f : FormM) : Sys2Proof.Laws.Fields.Statement (.aminz f) := fun r _ => unpackPack r
theorem Sys2Proof.Laws.Fields.aand (f : FormM) : Sys2Proof.Laws.Fields.Statement (.aand f) := fun r _ => unpackPack r
theorem Sys2Proof.Laws.Fields.aor (f : FormM) : Sys2Proof.Laws.Fields.Statement (.aor f) := fun r _ => unpackPack r
theorem Sys2Proof.Laws.Fields.axor (f : FormM) : Sys2Proof.Laws.Fields.Statement (.axor f) := fun r _ => unpackPack r
theorem Sys2Proof.Laws.Fields.axchg (f : FormM) : Sys2Proof.Laws.Fields.Statement (.axchg f) := fun r _ => unpackPack r
theorem Sys2Proof.Laws.Fields.acas (f : FormM) : Sys2Proof.Laws.Fields.Statement (.acas f) := fun r _ => unpackPack r
theorem Sys2Proof.Laws.Fields.afadd (f : FormM) : Sys2Proof.Laws.Fields.Statement (.afadd f) := fun r _ => unpackPack r
theorem Sys2Proof.Laws.Fields.afmax (f : FormM) : Sys2Proof.Laws.Fields.Statement (.afmax f) := fun r _ => unpackPack r
theorem Sys2Proof.Laws.Fields.atomicGroupPerform (t : MergeTree) : Sys2Proof.Laws.Fields.Statement (.atomicGroupPerform t) := fun r _ => unpackPack r
theorem Sys2Proof.Laws.Fields.atomicResponse (sid : Nat) (req : Nat) : Sys2Proof.Laws.Fields.Statement (.atomicResponse sid req) := fun r _ => unpackPack r
theorem Sys2Proof.Laws.Fields.spalloc (f : FormM) : Sys2Proof.Laws.Fields.Statement (.spalloc f) := fun r _ => unpackPack r
theorem Sys2Proof.Laws.Fields.sptopRelease (f : FormM) : Sys2Proof.Laws.Fields.Statement (.sptopRelease f) := fun r _ => unpackPack r
theorem Sys2Proof.Laws.Fields.spfloorStore (f : FormM) : Sys2Proof.Laws.Fields.Statement (.spfloorStore f) := fun r _ => unpackPack r
theorem Sys2Proof.Laws.Fields.vadd (f : FormV) : Sys2Proof.Laws.Fields.Statement (.vadd f) := fun r _ => unpackPack r
theorem Sys2Proof.Laws.Fields.vsub (f : FormV) : Sys2Proof.Laws.Fields.Statement (.vsub f) := fun r _ => unpackPack r
theorem Sys2Proof.Laws.Fields.vmul (f : FormV) : Sys2Proof.Laws.Fields.Statement (.vmul f) := fun r _ => unpackPack r
theorem Sys2Proof.Laws.Fields.vfma (f : FormV) : Sys2Proof.Laws.Fields.Statement (.vfma f) := fun r _ => unpackPack r
theorem Sys2Proof.Laws.Fields.vfms (f : FormV) : Sys2Proof.Laws.Fields.Statement (.vfms f) := fun r _ => unpackPack r
theorem Sys2Proof.Laws.Fields.vfnma (f : FormV) : Sys2Proof.Laws.Fields.Statement (.vfnma f) := fun r _ => unpackPack r
theorem Sys2Proof.Laws.Fields.vdiv (f : FormV) : Sys2Proof.Laws.Fields.Statement (.vdiv f) := fun r _ => unpackPack r
theorem Sys2Proof.Laws.Fields.vsqrt (f : FormV) : Sys2Proof.Laws.Fields.Statement (.vsqrt f) := fun r _ => unpackPack r
theorem Sys2Proof.Laws.Fields.vrcp (f : FormV) : Sys2Proof.Laws.Fields.Statement (.vrcp f) := fun r _ => unpackPack r
theorem Sys2Proof.Laws.Fields.vrsq (f : FormV) : Sys2Proof.Laws.Fields.Statement (.vrsq f) := fun r _ => unpackPack r
theorem Sys2Proof.Laws.Fields.vexp2 (f : FormV) : Sys2Proof.Laws.Fields.Statement (.vexp2 f) := fun r _ => unpackPack r
theorem Sys2Proof.Laws.Fields.vlog2 (f : FormV) : Sys2Proof.Laws.Fields.Statement (.vlog2 f) := fun r _ => unpackPack r
theorem Sys2Proof.Laws.Fields.vmin (f : FormV) : Sys2Proof.Laws.Fields.Statement (.vmin f) := fun r _ => unpackPack r
theorem Sys2Proof.Laws.Fields.vmax (f : FormV) : Sys2Proof.Laws.Fields.Statement (.vmax f) := fun r _ => unpackPack r
theorem Sys2Proof.Laws.Fields.vabs (f : FormV) : Sys2Proof.Laws.Fields.Statement (.vabs f) := fun r _ => unpackPack r
theorem Sys2Proof.Laws.Fields.vneg (f : FormV) : Sys2Proof.Laws.Fields.Statement (.vneg f) := fun r _ => unpackPack r
theorem Sys2Proof.Laws.Fields.vclamp (f : FormV) : Sys2Proof.Laws.Fields.Statement (.vclamp f) := fun r _ => unpackPack r
theorem Sys2Proof.Laws.Fields.vcmp (f : FormV) : Sys2Proof.Laws.Fields.Statement (.vcmp f) := fun r _ => unpackPack r
theorem Sys2Proof.Laws.Fields.vsel (f : FormV) : Sys2Proof.Laws.Fields.Statement (.vsel f) := fun r _ => unpackPack r
theorem Sys2Proof.Laws.Fields.vand (f : FormV) : Sys2Proof.Laws.Fields.Statement (.vand f) := fun r _ => unpackPack r
theorem Sys2Proof.Laws.Fields.vor (f : FormV) : Sys2Proof.Laws.Fields.Statement (.vor f) := fun r _ => unpackPack r
theorem Sys2Proof.Laws.Fields.vxor (f : FormV) : Sys2Proof.Laws.Fields.Statement (.vxor f) := fun r _ => unpackPack r
theorem Sys2Proof.Laws.Fields.vshl (f : FormV) : Sys2Proof.Laws.Fields.Statement (.vshl f) := fun r _ => unpackPack r
theorem Sys2Proof.Laws.Fields.vshr (f : FormV) : Sys2Proof.Laws.Fields.Statement (.vshr f) := fun r _ => unpackPack r
theorem Sys2Proof.Laws.Fields.vsar (f : FormV) : Sys2Proof.Laws.Fields.Statement (.vsar f) := fun r _ => unpackPack r
theorem Sys2Proof.Laws.Fields.vcvt (f : FormV) : Sys2Proof.Laws.Fields.Statement (.vcvt f) := fun r _ => unpackPack r
theorem Sys2Proof.Laws.Fields.vqnt (f : FormV) : Sys2Proof.Laws.Fields.Statement (.vqnt f) := fun r _ => unpackPack r
theorem Sys2Proof.Laws.Fields.vqntQc4 (f : FormV) : Sys2Proof.Laws.Fields.Statement (.vqntQc4 f) := fun r _ => unpackPack r
theorem Sys2Proof.Laws.Fields.vred (f : FormV) : Sys2Proof.Laws.Fields.Statement (.vred f) := fun r _ => unpackPack r
theorem Sys2Proof.Laws.Fields.vscan (f : FormV) : Sys2Proof.Laws.Fields.Statement (.vscan f) := fun r _ => unpackPack r
theorem Sys2Proof.Laws.Fields.vperm (f : FormV) : Sys2Proof.Laws.Fields.Statement (.vperm f) := fun r _ => unpackPack r
theorem Sys2Proof.Laws.Fields.vmov (f : FormV) : Sys2Proof.Laws.Fields.Statement (.vmov f) := fun r _ => unpackPack r
theorem Sys2Proof.Laws.Fields.vmovxExtract (f : FormV) : Sys2Proof.Laws.Fields.Statement (.vmovxExtract f) := fun r _ => unpackPack r
theorem Sys2Proof.Laws.Fields.vmovxInsert (f : FormV) : Sys2Proof.Laws.Fields.Statement (.vmovxInsert f) := fun r _ => unpackPack r
theorem Sys2Proof.Laws.Fields.vext (f : FormV) : Sys2Proof.Laws.Fields.Statement (.vext f) := fun r _ => unpackPack r
theorem Sys2Proof.Laws.Fields.viota (f : FormV) : Sys2Proof.Laws.Fields.Statement (.viota f) := fun r _ => unpackPack r
theorem Sys2Proof.Laws.Fields.vmasklen (f : FormV) : Sys2Proof.Laws.Fields.Statement (.vmasklen f) := fun r _ => unpackPack r
theorem Sys2Proof.Laws.Fields.vpopc (f : FormV) : Sys2Proof.Laws.Fields.Statement (.vpopc f) := fun r _ => unpackPack r
theorem Sys2Proof.Laws.Fields.vcmprs (f : FormV) : Sys2Proof.Laws.Fields.Statement (.vcmprs f) := fun r _ => unpackPack r
theorem Sys2Proof.Laws.Fields.vdefer (f : FormV) : Sys2Proof.Laws.Fields.Statement (.vdefer f) := fun r _ => unpackPack r
theorem Sys2Proof.Laws.Fields.vdrain (f : FormV) : Sys2Proof.Laws.Fields.Statement (.vdrain f) := fun r _ => unpackPack r
theorem Sys2Proof.Laws.Fields.vdqstat (f : FormV) : Sys2Proof.Laws.Fields.Statement (.vdqstat f) := fun r _ => unpackPack r
theorem Sys2Proof.Laws.Fields.pand (f : FormV) : Sys2Proof.Laws.Fields.Statement (.pand f) := fun r _ => unpackPack r
theorem Sys2Proof.Laws.Fields.por (f : FormV) : Sys2Proof.Laws.Fields.Statement (.por f) := fun r _ => unpackPack r
theorem Sys2Proof.Laws.Fields.pxor (f : FormV) : Sys2Proof.Laws.Fields.Statement (.pxor f) := fun r _ => unpackPack r
theorem Sys2Proof.Laws.Fields.pnot (f : FormV) : Sys2Proof.Laws.Fields.Statement (.pnot f) := fun r _ => unpackPack r
theorem Sys2Proof.Laws.Fields.pfirst (f : FormV) : Sys2Proof.Laws.Fields.Statement (.pfirst f) := fun r _ => unpackPack r
theorem Sys2Proof.Laws.Fields.pfromx (f : FormV) : Sys2Proof.Laws.Fields.Statement (.pfromx f) := fun r _ => unpackPack r
theorem Sys2Proof.Laws.Fields.ptox (f : FormV) : Sys2Proof.Laws.Fields.Statement (.ptox f) := fun r _ => unpackPack r
theorem Sys2Proof.Laws.Fields.cp (f : FormE) : Sys2Proof.Laws.Fields.Statement (.cp f) := fun r _ => unpackPack r
theorem Sys2Proof.Laws.Fields.cp2d (f : FormE) : Sys2Proof.Laws.Fields.Statement (.cp2d f) := fun r _ => unpackPack r
theorem Sys2Proof.Laws.Fields.cpg (f : FormE) : Sys2Proof.Laws.Fields.Statement (.cpg f) := fun r _ => unpackPack r
theorem Sys2Proof.Laws.Fields.cps (f : FormE) : Sys2Proof.Laws.Fields.Statement (.cps f) := fun r _ => unpackPack r
theorem Sys2Proof.Laws.Fields.cpx (f : FormE) : Sys2Proof.Laws.Fields.Statement (.cpx f) := fun r _ => unpackPack r
theorem Sys2Proof.Laws.Fields.cpz (f : FormE) : Sys2Proof.Laws.Fields.Statement (.cpz f) := fun r _ => unpackPack r
theorem Sys2Proof.Laws.Fields.cpmm (f : FormE) : Sys2Proof.Laws.Fields.Statement (.cpmm f) := fun r _ => unpackPack r
theorem Sys2Proof.Laws.Fields.cpfill (f : FormE) : Sys2Proof.Laws.Fields.Statement (.cpfill f) := fun r _ => unpackPack r
theorem Sys2Proof.Laws.Fields.cpcomb (f : FormE) : Sys2Proof.Laws.Fields.Statement (.cpcomb f) := fun r _ => unpackPack r
theorem Sys2Proof.Laws.Fields.mfmt (f : FormE) : Sys2Proof.Laws.Fields.Statement (.mfmt f) := fun r _ => unpackPack r
theorem Sys2Proof.Laws.Fields.mm (f : FormE) : Sys2Proof.Laws.Fields.Statement (.mm f) := fun r _ => unpackPack r
theorem Sys2Proof.Laws.Fields.mmt (f : FormE) : Sys2Proof.Laws.Fields.Statement (.mmt f) := fun r _ => unpackPack r
theorem Sys2Proof.Laws.Fields.accz (f : FormE) : Sys2Proof.Laws.Fields.Statement (.accz f) := fun r _ => unpackPack r
theorem Sys2Proof.Laws.Fields.accwr (f : FormE) : Sys2Proof.Laws.Fields.Statement (.accwr f) := fun r _ => unpackPack r
theorem Sys2Proof.Laws.Fields.accld (f : FormE) : Sys2Proof.Laws.Fields.Statement (.accld f) := fun r _ => unpackPack r
theorem Sys2Proof.Laws.Fields.tkgive (f : FormE) : Sys2Proof.Laws.Fields.Statement (.tkgive f) := fun r _ => unpackPack r
theorem Sys2Proof.Laws.Fields.tktake (f : FormE) : Sys2Proof.Laws.Fields.Statement (.tktake f) := fun r _ => unpackPack r
theorem Sys2Proof.Laws.Fields.semwait (f : FormE) : Sys2Proof.Laws.Fields.Statement (.semwait f) := fun r _ => unpackPack r
theorem Sys2Proof.Laws.Fields.semsig (f : FormE) : Sys2Proof.Laws.Fields.Statement (.semsig f) := fun r _ => unpackPack r
theorem Sys2Proof.Laws.Fields.semset (f : FormE) : Sys2Proof.Laws.Fields.Statement (.semset f) := fun r _ => unpackPack r
theorem Sys2Proof.Laws.Fields.semrd (f : FormE) : Sys2Proof.Laws.Fields.Statement (.semrd f) := fun r _ => unpackPack r
theorem Sys2Proof.Laws.Fields.cwait (f : FormE) : Sys2Proof.Laws.Fields.Statement (.cwait f) := fun r _ => unpackPack r
theorem Sys2Proof.Laws.Fields.cpoll (f : FormE) : Sys2Proof.Laws.Fields.Statement (.cpoll f) := fun r _ => unpackPack r
theorem Sys2Proof.Laws.Fields.turn (f : FormE) : Sys2Proof.Laws.Fields.Statement (.turn f) := fun r _ => unpackPack r
theorem Sys2Proof.Laws.Fields.engineCommandStart (tile : Nat) (e : Engine) : Sys2Proof.Laws.Fields.Statement (.engineCommandStart tile e) := fun r _ => unpackPack r
theorem Sys2Proof.Laws.Fields.mePanelFold (tile : Nat) : Sys2Proof.Laws.Fields.Statement (.mePanelFold tile) := fun r _ => unpackPack r
theorem Sys2Proof.Laws.Fields.operandLineArrive (tile : Nat) (line : Nat) : Sys2Proof.Laws.Fields.Statement (.operandLineArrive tile line) := fun r _ => unpackPack r
theorem Sys2Proof.Laws.Fields.engineCommandComplete (tile : Nat) (e : Engine) : Sys2Proof.Laws.Fields.Statement (.engineCommandComplete tile e) := fun r _ => unpackPack r
theorem Sys2Proof.Laws.Fields.bnew (f : FormQ) : Sys2Proof.Laws.Fields.Statement (.bnew f) := fun r _ => unpackPack r
theorem Sys2Proof.Laws.Fields.brsv (f : FormQ) : Sys2Proof.Laws.Fields.Statement (.brsv f) := fun r _ => unpackPack r
theorem Sys2Proof.Laws.Fields.cowCopyLand (copy : Nat) : Sys2Proof.Laws.Fields.Statement (.cowCopyLand copy) := fun r _ => unpackPack r
theorem Sys2Proof.Laws.Fields.bcmt (f : FormQ) : Sys2Proof.Laws.Fields.Statement (.bcmt f) := fun r _ => unpackPack r
theorem Sys2Proof.Laws.Fields.bvoid (f : FormQ) : Sys2Proof.Laws.Fields.Statement (.bvoid f) := fun r _ => unpackPack r
theorem Sys2Proof.Laws.Fields.bfell (f : FormQ) : Sys2Proof.Laws.Fields.Statement (.bfell f) := fun r _ => unpackPack r
theorem Sys2Proof.Laws.Fields.bwait (f : FormQ) : Sys2Proof.Laws.Fields.Statement (.bwait f) := fun r _ => unpackPack r
theorem Sys2Proof.Laws.Fields.bwaitTimeout (sid : Nat) : Sys2Proof.Laws.Fields.Statement (.bwaitTimeout sid) := fun r _ => unpackPack r
theorem Sys2Proof.Laws.Fields.bfork (f : FormQ) : Sys2Proof.Laws.Fields.Statement (.bfork f) := fun r _ => unpackPack r
theorem Sys2Proof.Laws.Fields.bhold (f : FormQ) : Sys2Proof.Laws.Fields.Statement (.bhold f) := fun r _ => unpackPack r
theorem Sys2Proof.Laws.Fields.brel (f : FormQ) : Sys2Proof.Laws.Fields.Statement (.brel f) := fun r _ => unpackPack r
theorem Sys2Proof.Laws.Fields.baddr (f : FormQ) : Sys2Proof.Laws.Fields.Statement (.baddr f) := fun r _ => unpackPack r
theorem Sys2Proof.Laws.Fields.bstat (f : FormQ) : Sys2Proof.Laws.Fields.Statement (.bstat f) := fun r _ => unpackPack r
theorem Sys2Proof.Laws.Fields.bretire (f : FormQ) : Sys2Proof.Laws.Fields.Statement (.bretire f) := fun r _ => unpackPack r
theorem Sys2Proof.Laws.Fields.bpinPin (f : FormQ) : Sys2Proof.Laws.Fields.Statement (.bpinPin f) := fun r _ => unpackPack r
theorem Sys2Proof.Laws.Fields.bpinUnpin (f : FormQ) : Sys2Proof.Laws.Fields.Statement (.bpinUnpin f) := fun r _ => unpackPack r
theorem Sys2Proof.Laws.Fields.tmload (f : FormQ) : Sys2Proof.Laws.Fields.Statement (.tmload f) := fun r _ => unpackPack r
theorem Sys2Proof.Laws.Fields.tmlock (f : FormQ) : Sys2Proof.Laws.Fields.Statement (.tmlock f) := fun r _ => unpackPack r
theorem Sys2Proof.Laws.Fields.tmunlk (f : FormQ) : Sys2Proof.Laws.Fields.Statement (.tmunlk f) := fun r _ => unpackPack r
theorem Sys2Proof.Laws.Fields.tminv (f : FormQ) : Sys2Proof.Laws.Fields.Statement (.tminv f) := fun r _ => unpackPack r
theorem Sys2Proof.Laws.Fields.shead (f : FormQ) : Sys2Proof.Laws.Fields.Statement (.shead f) := fun r _ => unpackPack r
theorem Sys2Proof.Laws.Fields.stake (f : FormQ) : Sys2Proof.Laws.Fields.Statement (.stake f) := fun r _ => unpackPack r
theorem Sys2Proof.Laws.Fields.unpick (f : FormQ) : Sys2Proof.Laws.Fields.Statement (.unpick f) := fun r _ => unpackPack r
theorem Sys2Proof.Laws.Fields.sframe (f : FormQ) : Sys2Proof.Laws.Fields.Statement (.sframe f) := fun r _ => unpackPack r
theorem Sys2Proof.Laws.Fields.sfrpop (f : FormQ) : Sys2Proof.Laws.Fields.Statement (.sfrpop f) := fun r _ => unpackPack r
theorem Sys2Proof.Laws.Fields.srung (f : FormQ) : Sys2Proof.Laws.Fields.Statement (.srung f) := fun r _ => unpackPack r
theorem Sys2Proof.Laws.Fields.sevt (f : FormQ) : Sys2Proof.Laws.Fields.Statement (.sevt f) := fun r _ => unpackPack r
theorem Sys2Proof.Laws.Fields.sevtAttach (f : FormQ) : Sys2Proof.Laws.Fields.Statement (.sevtAttach f) := fun r _ => unpackPack r
theorem Sys2Proof.Laws.Fields.feedpop (f : FormQ) : Sys2Proof.Laws.Fields.Statement (.feedpop f) := fun r _ => unpackPack r
theorem Sys2Proof.Laws.Fields.feedwait (f : FormQ) : Sys2Proof.Laws.Fields.Statement (.feedwait f) := fun r _ => unpackPack r
theorem Sys2Proof.Laws.Fields.feedwaitTimeout (sid : Nat) : Sys2Proof.Laws.Fields.Statement (.feedwaitTimeout sid) := fun r _ => unpackPack r
theorem Sys2Proof.Laws.Fields.feedpush (f : FormQ) : Sys2Proof.Laws.Fields.Statement (.feedpush f) := fun r _ => unpackPack r
theorem Sys2Proof.Laws.Fields.unallocatedOpcode (w : IWord) : Sys2Proof.Laws.Fields.Statement (.unallocatedOpcode w) := fun r _ => unpackPack r
theorem Sys2Proof.Laws.Fields.yieldMarkExpire (sid : Nat) : Sys2Proof.Laws.Fields.Statement (.yieldMarkExpire sid) := fun r _ => unpackPack r
theorem Sys2Proof.Laws.Fields.launchReady (lid : Nat) : Sys2Proof.Laws.Fields.Statement (.launchReady lid) := fun r _ => unpackPack r
theorem Sys2Proof.Laws.Fields.placeGang : Sys2Proof.Laws.Fields.Statement (.placeGang) := fun r _ => unpackPack r
theorem Sys2Proof.Laws.Fields.slackRecompute : Sys2Proof.Laws.Fields.Statement (.slackRecompute) := fun r _ => unpackPack r
theorem Sys2Proof.Laws.Fields.classifyWindowEnd (lid : Nat) : Sys2Proof.Laws.Fields.Statement (.classifyWindowEnd lid) := fun r _ => unpackPack r
theorem Sys2Proof.Laws.Fields.preemptRequest : Sys2Proof.Laws.Fields.Statement (.preemptRequest) := fun r _ => unpackPack r
theorem Sys2Proof.Laws.Fields.preemptStop (sid : Nat) : Sys2Proof.Laws.Fields.Statement (.preemptStop sid) := fun r _ => unpackPack r
theorem Sys2Proof.Laws.Fields.enginePreemptStop (tile : Nat) (e : Engine) : Sys2Proof.Laws.Fields.Statement (.enginePreemptStop tile e) := fun r _ => unpackPack r
theorem Sys2Proof.Laws.Fields.taskSave (tile : Nat) : Sys2Proof.Laws.Fields.Statement (.taskSave tile) := fun r _ => unpackPack r
theorem Sys2Proof.Laws.Fields.taskRestore (lid : Nat) (gang : Nat) : Sys2Proof.Laws.Fields.Statement (.taskRestore lid gang) := fun r _ => unpackPack r
theorem Sys2Proof.Laws.Fields.preemptNosafe (lid : Nat) (gang : Nat) : Sys2Proof.Laws.Fields.Statement (.preemptNosafe lid gang) := fun r _ => unpackPack r
theorem Sys2Proof.Laws.Fields.watchdogStall (sid : Nat) : Sys2Proof.Laws.Fields.Statement (.watchdogStall sid) := fun r _ => unpackPack r
theorem Sys2Proof.Laws.Fields.throttleLevelApply (lid : Nat) (gang : Nat) : Sys2Proof.Laws.Fields.Statement (.throttleLevelApply lid gang) := fun r _ => unpackPack r
theorem Sys2Proof.Laws.Fields.taskComplete (tile : Nat) : Sys2Proof.Laws.Fields.Statement (.taskComplete tile) := fun r _ => unpackPack r
theorem Sys2Proof.Laws.Fields.stopPointPass (sid : Nat) : Sys2Proof.Laws.Fields.Statement (.stopPointPass sid) := fun r _ => unpackPack r
theorem Sys2Proof.Laws.Fields.resultWrite (sid : Nat) (req : Nat) : Sys2Proof.Laws.Fields.Statement (.resultWrite sid req) := fun r _ => unpackPack r
theorem Sys2Proof.Laws.Fields.faultWindowClose : Sys2Proof.Laws.Fields.Statement (.faultWindowClose) := fun r _ => unpackPack r
theorem Sys2Proof.Laws.Fields.headstockInterrupt : Sys2Proof.Laws.Fields.Statement (.headstockInterrupt) := fun r _ => unpackPack r
theorem Sys2Proof.Laws.Fields.rollback (sid : Nat) : Sys2Proof.Laws.Fields.Statement (.rollback sid) := fun r _ => unpackPack r
theorem Sys2Proof.Laws.Fields.taskReexec (lid : Nat) (task : Nat) : Sys2Proof.Laws.Fields.Statement (.taskReexec lid task) := fun r _ => unpackPack r
theorem Sys2Proof.Laws.Fields.stepStart (stream : Nat) : Sys2Proof.Laws.Fields.Statement (.stepStart stream) := fun r _ => unpackPack r
theorem Sys2Proof.Laws.Fields.stepEnd (stream : Nat) : Sys2Proof.Laws.Fields.Statement (.stepEnd stream) := fun r _ => unpackPack r
theorem Sys2Proof.Laws.Fields.encoderTake (enc : Nat) : Sys2Proof.Laws.Fields.Statement (.encoderTake enc) := fun r _ => unpackPack r
theorem Sys2Proof.Laws.Fields.encoderRecordEmit (enc : Nat) : Sys2Proof.Laws.Fields.Statement (.encoderRecordEmit enc) := fun r _ => unpackPack r
theorem Sys2Proof.Laws.Fields.decodeComplete (dec : Nat) : Sys2Proof.Laws.Fields.Statement (.decodeComplete dec) := fun r _ => unpackPack r
theorem Sys2Proof.Laws.Fields.ringFetch (q : Nat) : Sys2Proof.Laws.Fields.Statement (.ringFetch q) := fun r _ => unpackPack r
theorem Sys2Proof.Laws.Fields.packetAccept (q : Nat) : Sys2Proof.Laws.Fields.Statement (.packetAccept q) := fun r _ => unpackPack r
theorem Sys2Proof.Laws.Fields.launch (cmd : Nat) : Sys2Proof.Laws.Fields.Statement (.launch cmd) := fun r _ => unpackPack r
theorem Sys2Proof.Laws.Fields.close (cmd : Nat) : Sys2Proof.Laws.Fields.Statement (.close cmd) := fun r _ => unpackPack r
theorem Sys2Proof.Laws.Fields.hostCancel (cmd : Nat) : Sys2Proof.Laws.Fields.Statement (.hostCancel cmd) := fun r _ => unpackPack r
theorem Sys2Proof.Laws.Fields.feed (cmd : Nat) : Sys2Proof.Laws.Fields.Statement (.feed cmd) := fun r _ => unpackPack r
theorem Sys2Proof.Laws.Fields.feedcfgCreate (cmd : Nat) : Sys2Proof.Laws.Fields.Statement (.feedcfgCreate cmd) := fun r _ => unpackPack r
theorem Sys2Proof.Laws.Fields.feedcfgDestroy (cmd : Nat) : Sys2Proof.Laws.Fields.Statement (.feedcfgDestroy cmd) := fun r _ => unpackPack r
theorem Sys2Proof.Laws.Fields.streamCreate (cmd : Nat) : Sys2Proof.Laws.Fields.Statement (.streamCreate cmd) := fun r _ => unpackPack r
theorem Sys2Proof.Laws.Fields.streamUpdate (cmd : Nat) : Sys2Proof.Laws.Fields.Statement (.streamUpdate cmd) := fun r _ => unpackPack r
theorem Sys2Proof.Laws.Fields.streamDestroy (cmd : Nat) : Sys2Proof.Laws.Fields.Statement (.streamDestroy cmd) := fun r _ => unpackPack r
theorem Sys2Proof.Laws.Fields.jobstart (cmd : Nat) : Sys2Proof.Laws.Fields.Statement (.jobstart cmd) := fun r _ => unpackPack r
theorem Sys2Proof.Laws.Fields.take (cmd : Nat) : Sys2Proof.Laws.Fields.Statement (.take cmd) := fun r _ => unpackPack r
theorem Sys2Proof.Laws.Fields.decode (cmd : Nat) : Sys2Proof.Laws.Fields.Statement (.decode cmd) := fun r _ => unpackPack r
theorem Sys2Proof.Laws.Fields.input (cmd : Nat) : Sys2Proof.Laws.Fields.Statement (.input cmd) := fun r _ => unpackPack r
theorem Sys2Proof.Laws.Fields.inval (cmd : Nat) : Sys2Proof.Laws.Fields.Statement (.inval cmd) := fun r _ => unpackPack r
theorem Sys2Proof.Laws.Fields.hostFence (cmd : Nat) : Sys2Proof.Laws.Fields.Statement (.hostFence cmd) := fun r _ => unpackPack r
theorem Sys2Proof.Laws.Fields.signal (cmd : Nat) : Sys2Proof.Laws.Fields.Statement (.signal cmd) := fun r _ => unpackPack r
theorem Sys2Proof.Laws.Fields.firmwareCommand (cmd : Nat) : Sys2Proof.Laws.Fields.Statement (.firmwareCommand cmd) := fun r _ => unpackPack r
theorem Sys2Proof.Laws.Fields.commandTerminal (cmd : Nat) : Sys2Proof.Laws.Fields.Statement (.commandTerminal cmd) := fun r _ => unpackPack r
theorem Sys2Proof.Laws.Fields.inputArrive (stream : Nat) (inp : StreamInput) : Sys2Proof.Laws.Fields.Statement (.inputArrive stream inp) := fun r _ => unpackPack r
theorem Sys2Proof.Laws.Fields.gatheredFault (pasid : BitVec 20) (page : Word) (sub : Byte) (agent : FaultAgent) : Sys2Proof.Laws.Fields.Statement (.gatheredFault pasid page sub agent) := fun r _ => unpackPack r
theorem Sys2Proof.Laws.Fields.fresRetry (pasid : BitVec 20) (page : Word) : Sys2Proof.Laws.Fields.Statement (.fresRetry pasid page) := fun r _ => unpackPack r
theorem Sys2Proof.Laws.Fields.fresFail (pasid : BitVec 20) (page : Word) : Sys2Proof.Laws.Fields.Statement (.fresFail pasid page) := fun r _ => unpackPack r
theorem Sys2Proof.Laws.Fields.flack (buf : Bool) : Sys2Proof.Laws.Fields.Statement (.flack buf) := fun r _ => unpackPack r
theorem Sys2Proof.Laws.Fields.cancelAccept (level : Nat) (id : Nat) : Sys2Proof.Laws.Fields.Statement (.cancelAccept level id) := fun r _ => unpackPack r
theorem Sys2Proof.Laws.Fields.powerLimitChange (above : Bool) : Sys2Proof.Laws.Fields.Statement (.powerLimitChange above) := fun r _ => unpackPack r
theorem Sys2Proof.Laws.Fields.sensorUpdate (readings : List (BitVec 16)) : Sys2Proof.Laws.Fields.Statement (.sensorUpdate readings) := fun r _ => unpackPack r
theorem Sys2Proof.Laws.Fields.tileFailure (tile : Nat) : Sys2Proof.Laws.Fields.Statement (.tileFailure tile) := fun r _ => unpackPack r
theorem Sys2Proof.Laws.Fields.hbmChannelFailure (base : Nat) (len : Nat) : Sys2Proof.Laws.Fields.Statement (.hbmChannelFailure base len) := fun r _ => unpackPack r
theorem Sys2Proof.Laws.Fields.headstockRestart : Sys2Proof.Laws.Fields.Statement (.headstockRestart) := fun r _ => unpackPack r
theorem Sys2Proof.Laws.Fields.doorbell (q : Nat) (tail : Word) : Sys2Proof.Laws.Fields.Statement (.doorbell q tail) := fun r _ => unpackPack r
theorem Sys2Proof.Laws.Fields.qresume (q : Nat) : Sys2Proof.Laws.Fields.Statement (.qresume q) := fun r _ => unpackPack r
theorem Sys2Proof.Laws.Fields.jackWrite (v : Word) : Sys2Proof.Laws.Fields.Statement (.jackWrite v) := fun r _ => unpackPack r
theorem Sys2Proof.Laws.Fields.wincfgWrite (c : Nat) (v : Word) : Sys2Proof.Laws.Fields.Statement (.wincfgWrite c v) := fun r _ => unpackPack r
theorem Sys2Proof.Laws.Fields.dbdropRead : Sys2Proof.Laws.Fields.Statement (.dbdropRead) := fun r _ => unpackPack r
theorem Sys2Proof.Laws.Fields.rasctlRead : Sys2Proof.Laws.Fields.Statement (.rasctlRead) := fun r _ => unpackPack r
theorem Sys2Proof.Laws.Fields.registerWrite (off : Nat) (v : Word) (host : Bool) : Sys2Proof.Laws.Fields.Statement (.registerWrite off v host) := fun r _ => unpackPack r
theorem Sys2Proof.Laws.Fields.hostBar2Access (off : Nat) (write : Option Word) : Sys2Proof.Laws.Fields.Statement (.hostBar2Access off write) := fun r _ => unpackPack r
theorem Sys2Proof.Laws.Fields.atsInvalidation (pasid : BitVec 20) (addr : Word) (len : Nat) : Sys2Proof.Laws.Fields.Statement (.atsInvalidation pasid addr len) := fun r _ => unpackPack r
theorem Sys2Proof.Laws.Fields.priResponse (pasid : BitVec 20) (page : Word) (ans : PriAnswer) : Sys2Proof.Laws.Fields.Statement (.priResponse pasid page ans) := fun r _ => unpackPack r
theorem Sys2Proof.Laws.Fields.coldReset : Sys2Proof.Laws.Fields.Statement (.coldReset) := fun r _ => unpackPack r
theorem Sys2Proof.Laws.Fields.warmReset : Sys2Proof.Laws.Fields.Statement (.warmReset) := fun r _ => unpackPack r
theorem Sys2Proof.Laws.Fields.functionLevelReset : Sys2Proof.Laws.Fields.Statement (.functionLevelReset) := fun r _ => unpackPack r
theorem Sys2Proof.Laws.Fields.boot (image : BootImage) : Sys2Proof.Laws.Fields.Statement (.boot image) := fun r _ => unpackPack r
theorem Sys2Proof.Laws.Fields.spdmRequest (req : List Byte) : Sys2Proof.Laws.Fields.Statement (.spdmRequest req) := fun r _ => unpackPack r
theorem Sys2Proof.Laws.Fields.fabricRequest (r : FabricReq) : Sys2Proof.Laws.Fields.Statement (.fabricRequest r) := fun r _ => unpackPack r
theorem Sys2Proof.Laws.Fields.fabricStoreAck (id : Nat) : Sys2Proof.Laws.Fields.Statement (.fabricStoreAck id) := fun r _ => unpackPack r
theorem Sys2Proof.Laws.Fields.collectiveFlit (f : Flit) : Sys2Proof.Laws.Fields.Statement (.collectiveFlit f) := fun r _ => unpackPack r
theorem Sys2Proof.Laws.Fields.portFailure (port : Nat) : Sys2Proof.Laws.Fields.Statement (.portFailure port) := fun r _ => unpackPack r
theorem Sys2Proof.Laws.Fields.powerLoss : Sys2Proof.Laws.Fields.Statement (.powerLoss) := fun r _ => unpackPack r
end

