-- ==== Sys2Proof/Tests/Slice0.lean ====
section
/-! SUPPORT. Tests: words written out from the spec and what they decode to, ill-formed terms that the checks refuse,
small steps with results worked out by hand from the spec, and for every statement a state that meets its hypotheses. -/

set_option Elab.async false

namespace Sys2Proof.Machine.Test

open Sys2Proof.Decode

/-! ### Small states -/

/-- Whether a word issues on a strand (Safety), as a Bool. -/
def issuesB (i : Instr) (o : Order) (s : State) (f : Focus) (r : Raw) (t : Strand) : Bool :=
  decide (illFormed s.core i = none) && timingOk (settle s.cycle t) s.cycle (sliceOf r) r &&
  (hintsCounted (settle s.cycle t) (sliceOf r) || decide (hintsNow (settle s.cycle t) s.cycle f r = []) ||
    !t.chk) &&
  interlockOk (opened s f r t) s.cycle (useOf r) && (decide (sliceOf r ≠ .a) || limitOk (opened s f r t)) &&
  (decide (sliceOf r ≠ .a) || orderOk (opened s f r t) s.core o) && t.badRegs.isEmpty

theorem issuesB_sound {i : Instr} {o : Order} {s : State} {f : Focus} {r : Raw} {t : Strand} (h1 : s.focus = some f)
    (h2 : s.strand? f.sid = some t) (h3 : rawOf i = some r) (h : issuesB i o s f r t = true) : Issues s i o f r t := by
  simp only [issuesB, Bool.and_eq_true, Bool.or_eq_true, decide_eq_true_eq, Bool.not_eq_true', List.isEmpty_iff] at h
  obtain ⟨⟨⟨⟨⟨⟨h4, h5⟩, h6⟩, h7⟩, h8⟩, h9⟩, h10⟩ := h
  refine ⟨h1, h2, h3, h4, h5, ?_, h7, fun ha => h8.resolve_left fun h => h ha, fun ha => h9.resolve_left fun h => h ha, h10⟩
  rcases h6 with (h | h) | h
  · exact Or.inl h
  · exact Or.inr (Or.inl h)
  · exact Or.inr (Or.inr h)

/-- The focus of a state, the fields of a word, the strand in focus. -/
def foc (s : State) : Focus := s.focus.getD ⟨0, .fetch⟩
def raw (i : Instr) : Raw := (rawOf i).getD (unpack 0)
def str (s : State) : Strand := (s.strand? (foc s).sid).getD (Strand.start 0 0 0 0 0)

/-- What an instruction finds in a state: the state, its strand. -/
def fnd (i : Instr) (s : State) : State := openedState s (foc s) (raw i) (str s)
def own (i : Instr) (s : State) : Strand := openedStrand s (foc s) (raw i) (str s)

/-- An instruction issues in a state: there is a strand in focus, a word, and nothing holds it back. -/
def issuesIn (i : Instr) (o : Order) (s : State) : Bool :=
  s.focus.isSome && (s.strand? (foc s).sid).isSome && (rawOf i).isSome && issuesB i o s (foc s) (raw i) (str s)

theorem eq_getD {α : Type} {x : Option α} {d : α} (h : x.isSome = true) : x = some (x.getD d) := by
  cases x with
  | none => cases h
  | some v => rfl

theorem issuesIn_sound {i : Instr} {o : Order} {s : State} (h : issuesIn i o s = true) :
    Issues s i o (foc s) (raw i) (str s) := by
  simp only [issuesIn, Bool.and_eq_true] at h
  exact issuesB_sound (eq_getD h.1.1.1) (eq_getD h.1.1.2) (eq_getD h.1.2) h.2

/-- A state in which an instruction issues and finds what `P` says: hypotheses of that form are met. -/
theorem meets {i : Instr} {o : Order} {s : State} (h : issuesIn i o s = true) :
    Finds i o s (foc s) (raw i) (str s) (fnd i s) (own i s) := ⟨issuesIn_sound h, rfl, rfl⟩

def sched0 : Sched := { stall := 1, wait := 0, wsb := none, rsb := none, reuse := 0, psafe := false, yield := false }
def always : Gate := { pred := 7, pneg := false }

/-- Fields of each format with every operand x0, or x32. -/
def fS (sl : Slice) : FormS :=
  { sch := sched0, gate := always, slice := sl, ty := .s64, d := .x 0, a := .x 0, b := .x 0, c := .x 0, aux := 0, cond := .eq,
    zx := false, imm := false, imm32 := 0 }
def fM : FormM :=
  { sch := sched0, gate := always, slice := .a, ty := .s64, d := .x 0, a := .x 0, b := .x 0, c := .x 0, ch := .default,
    amode := .disp, nr := false, ord := .relaxed, scope := .strand, imm32 := 0 }
def fV : FormV :=
  { sch := sched0, gate := always, ty := .f32, d := .x 0, a := .x 0, b := .x 0, c := .x 0, moda := .none, modb := .none, imm16 := 0,
    ty2 := .s64, opx := 0, cx := false, bx := false, sat := false, ftz := false, rm := .rne }
def fE : FormE :=
  { sch := sched0, gate := always, slice := .a, ty := .s64, d := .x 0, a := .x 0, b := .x 0, c := .x 0, aux := 0, quiet := false,
    token := 0 }
def fQ : FormQ :=
  { sch := sched0, gate := always, d := .x 0, a := .x 0, b := .x 0, c := .x 0, aux := 0, nb := false, scope := .strand }

/-- Tile 0 with a task and strand 0 of it, which stands at its first word; registers set by `g`. -/
def tileS (g : Strand → Strand := id) (k : Task → Task := id) : State :=
  (((State.reset.readyTile).updStrand 0 g).updTask 0 k).at 0

/-- The headstock's strand 0, at supervisor level. -/
def headS (g : Strand → Strand := id) : State := ((State.reset.readyHead).updStrand 1536 g).at 1536

/-- A strand with registers set. -/
def regs (l : List (Fin 64 × Word)) (t : Strand) : Strand := { t with x := l.foldl (fun v q => v.set q.1 q.2) t.x }

/-! ### Words written out field by field (02 R46 to R60) -/

/-- A word by its fields, in the order of 02 R46 from the top: IMM32, MODB, MODA or FX12, C, B, A, D, TYPE, OPC, PNEG, PRED,
YIELD, PSAFE, AX, REUSE, RSB, WSB, WAIT, STALL. -/
def fields (imm : BitVec 32) (modb fx : BitVec 12) (c b a d : BitVec 8) (ty : BitVec 4) (opc : BitVec 10) (pneg : BitVec 1)
    (pred : BitVec 3) (yield psafe ax : BitVec 1) (reuse rsb wsb : BitVec 3) (wait : BitVec 6) (stall : BitVec 4) : IWord :=
  imm ++ modb ++ fx ++ c ++ b ++ a ++ d ++ ty ++ opc ++ pneg ++ pred ++ yield ++ psafe ++ ax ++ reuse ++ rsb ++ wsb ++ wait ++ stall

/-- What a word decodes to, or why it is refused. -/
def reads (core : CoreKind) (w : IWord) : Option Instr := (decode core w).toOption
def refuses (core : CoreKind) (w : IWord) : Option IllSub := match decode core w with
  | .error e => some e
  | .ok _ => none

/-- An access-slice word under p7 with STALL 1, and an execute-slice word. -/
def wordA (opc : BitVec 10) (ty : BitVec 4) (d a b c : BitVec 8) (fx : BitVec 12) (imm : BitVec 32) : IWord :=
  fields imm 0 fx c b a d ty opc 0 7 0 0 1 0 0 0 0 1
def wordE (opc : BitVec 10) (ty : BitVec 4) (d a b c : BitVec 8) (fx : BitVec 12) (imm : BitVec 32) : IWord :=
  fields imm 0 fx c b a d ty opc 0 7 0 0 0 0 0 0 0 1

/-- 02 R46: STALL 9, WAIT on scoreboard 2, WSB 1, RSB 6, REUSE of b, PSAFE, YIELD: NOP with every scheduling field used. -/
theorem test_decode_nop_scheduling :
    reads .tile (fields 0 0 0 0 0 0 0 0 0x080 0 7 1 1 1 2 6 1 4 9) = some (.nop { fS .a with
      sch := { stall := 9, wait := 4, wsb := some 0, rsb := some 5, reuse := 2, psafe := true, yield := true } }) := by
  decide +kernel

/-- 03 R78: MULADD.z32 x33, x34, x35, xq under not p3. -/
theorem test_decode_muladd : reads .tile (fields 0 0 0 0x91 0x23 0x22 0x21 2 0x005 1 3 0 0 0 0 0 0 0 1) =
    some (.muladd { fS .e with gate := { pred := 3, pneg := true }, ty := .z32, d := .x 33, a := .x 34, b := .x 35, c := .xq }) := by
  decide +kernel

/-- 03 R85: SFCMP with AUX 2. -/
theorem test_decode_sfcmp : reads .tile (wordE 0x043 7 0x21 0x22 0x90 0 0x200 0) =
    some (.sfcmp { fS .e with ty := .f32, d := .x 33, a := .x 34, b := .lq, aux := 2 }) := by decide +kernel

/-- 03 R89, R94: LOOP of 5 times over 3 words. -/
theorem test_decode_loop : reads .tile (wordA 0x087 0 0 0 0 0 1 0x00050003) =
    some (.loopImm { fS .a with imm := true, imm32 := 0x00050003 }) := by decide +kernel

/-- 19 R456: KWR of INTPEND. -/
theorem test_decode_kwr_intpend : reads .headstock (wordA 0x091 0 0 6 0 0 0 0xF02) =
    some (.intpendClear { fS .a with a := .x 6, imm32 := 0xF02 }) := by decide +kernel

/-- 09 R272: ST.s32 [x6 + x7 × 4 + 8], x8, .na, a release at .dev. -/
theorem test_decode_st : reads .tile (wordA 0x102 1 0 6 7 8 0x293 8) =
    some (.st { fM with ty := .s32, a := .x 6, b := .x 7, c := .x 8, ch := .na, amode := .scaled, ord := .rel,
                        scope := .dev, imm32 := 8 }) := by decide +kernel

/-- 09 R286: ACAS.z32, acquire and release at .dom. -/
theorem test_decode_acas : reads .tile (wordA 0x129 2 5 6 7 8 0x01C 0) =
    some (.acas { fM with ty := .z32, d := .x 5, a := .x 6, b := .x 7, c := .x 8, ord := .ar, scope := .dom }) := by decide +kernel

/-- 09 R272: VSTD of lq. -/
theorem test_decode_vstd : reads .tile (wordE 0x107 0 0 0 0 0x90 0 0) =
    some (.vstd { fM with slice := .e, c := .lq }) := by decide +kernel

/-- 02 R58, 06 R181: VFMA.f32 v1, v2 rotated by 3 in segments of 8, lq, xq broadcast, rounding down. -/
theorem test_decode_vfma : reads .tile (fields 0x00000023 0 0x583 0x91 0x90 0x42 0x41 7 0x183 0 7 0 0 0 0 0 0 0 1) =
    some (.vfma { fV with d := .v 1, a := .v 2, b := .lq, c := .xq, moda := .rot 3 3, cx := true, rm := .rd }) := by decide +kernel

/-- 06 R181: VQNT.s8 v1, v2, x33 with TYPE2 .f32 and part 1, under p2 at position c. -/
theorem test_decode_vqnt : reads .tile (wordE 0x19A 5 0x41 0x42 0x21 0x82 0 0x00017010) =
    some (.vqnt { fV with ty := .s8, ty2 := .f32, d := .v 1, a := .v 2, b := .x 33, c := .p 2, bx := true, imm16 := 1 }) := by
  decide +kernel

/-- 06 R181: PTOX x40, p5, chunk 7. -/
theorem test_decode_ptox : reads .tile (wordE 0x1B6 0 0x28 0x85 0 0 0 0x00070000) =
    some (.ptox { fV with ty := .s64, d := .x 40, a := .p 5, imm16 := 7 }) := by decide +kernel

/-- 12 R322, 02 R52: CP x5, x6, x8, x10, popping TF_MC and pushing TF_CV. -/
theorem test_decode_cp : reads .tile (wordA 0x200 0 5 6 8 10 0x009 0) =
    some (.cp { fE with d := .x 5, a := .x 6, b := .x 8, c := .x 10, token := 9 }) := by decide +kernel

/-- 12 R322: TKTAKE of TF_MV, on the execute slice. -/
theorem test_decode_tktake : reads .tile (wordE 0x221 0 0 0 0 0 0x002 0) =
    some (.tktake { fE with slice := .e, token := 2 }) := by decide +kernel

/-- 13 R357: BPIN with AUX 1. -/
theorem test_decode_bpin : reads .tile (wordA 0x28C 0 0 6 7 0 0x100 0) =
    some (.bpinUnpin { fQ with a := .x 6, b := .x 7, aux := 1 }) := by decide +kernel

/-- 14 R400: SFRAME, AUX 1, non-blocking. -/
theorem test_decode_sframe : reads .tile (wordA 0x303 0 5 6 7 0 0x108 0) =
    some (.sframe { fQ with d := .x 5, a := .x 6, b := .x 7, aux := 1, nb := true }) := by decide +kernel

/-- 02 R61: the first code of class 7 is no instruction. -/
theorem test_decode_unallocated : reads .tile (wordA 0x380 0 0 0 0 0 0 0) = some (.unallocatedOpcode (wordA 0x380 0 0 0 0 0 0 0)) := by
  decide +kernel

/-! ### Ill-formed words and terms, one for each check (02 R46 to R63) -/

/-- 02 R47: a nonzero unused designator; R46: MODB outside format V. -/
theorem test_ill_mbz : refuses .tile (wordA 0x080 0 0 1 0 0 0 0) = some .mbz ∧
    refuses .tile (wordE 0x023 0 0x21 0x22 5 0 0 0) = some .mbz ∧
    refuses .tile (fields 0 1 0 0 0 0 0 0 0x080 0 7 0 0 1 0 0 0 0 1) = some .mbz := by decide +kernel

/-- 02 R57: an instruction without a type takes 0x0 only. -/
theorem test_ill_type : refuses .tile (wordA 0x080 1 0 0 0 0 0 0) = some .type := by decide +kernel

/-- 02 R56, worked: an access-slice word that names v5 is NOUNIT on the headstock, SLICE on a tile; one that names x40 and
0x88 is SLICE; one that names 0x88 alone is DESIG. -/
theorem test_ill_designators : refuses .headstock (wordA 0x000 0 5 0x45 7 0 0 0) = some .nounit ∧
    refuses .tile (wordA 0x000 0 5 0x45 7 0 0 0) = some .slice ∧
    refuses .tile (wordA 0x000 0 5 0x28 0x88 0 0 0) = some .slice ∧
    refuses .tile (wordA 0x000 0 5 6 0x88 0 0 0) = some .desig := by decide +kernel

/-- 02 R58: a butterfly whose distance is no power of two; a modifier on a scalar operand. -/
theorem test_ill_mod : refuses .tile (fields 0 0 0x983 0 0x43 0x42 0x41 7 0x180 0 7 0 0 0 0 0 0 0 1) = some .mod ∧
    refuses .tile (fields 0x10 0x481 0 0 0x21 0x42 0x41 7 0x180 0 7 0 0 0 0 0 0 0 1) = some .mod := by decide +kernel

/-- 02 R46: a scoreboard code 7; PRED other than 7 on the access slice; AX against the opcode; an absent special register
(01 R42). -/
theorem test_ill_fields : refuses .tile (fields 0 0 0 0 0 0 0 0 0x080 0 7 0 0 1 0 0 7 0 1) = some .sched ∧
    refuses .tile (fields 0 0 0 0 0 0 0 0 0x080 0 2 0 0 1 0 0 0 0 1) = some .pred ∧
    refuses .tile (wordE 0x080 0 0 0 0 0 0 0) = some .slice ∧
    refuses .tile (wordA 0x090 0 5 0 0 0 0 0x041) = some .sreg ∧
    refuses .tile (wordA 0x090 0 5 0 0 0 0 0xF02) = some .sreg := by decide +kernel

/-- The same checks refuse terms: a register of the other slice, a vector register at a scalar position, a type ADD does
not take, a reserved AUX, a class 3 term on the headstock, a row's variant that its fields do not select. -/
theorem test_wellFormed_refuses : illFormed .tile (.add { fS .a with a := .x 40 }) = some .slice ∧
    illFormed .tile (.add { fS .e with d := .x 33, a := .v 3, b := .x 34 }) = some .desig ∧
    illFormed .tile (.add { fS .a with ty := .f32 }) = some .type ∧
    illFormed .tile (.wake { fS .a with aux := 3 }) = some .mbz ∧
    illFormed .headstock (.vadd { fV with d := .v 1, a := .v 2, b := .v 3 }) = some .nounit ∧
    illFormed .tile (.vadd { fV with d := .v 1, a := .v 2, b := .v 3, moda := .bfly 2 4 }) = some .mod ∧
    illFormed .tile (.nop { fS .a with gate := { pred := 1, pneg := false } }) = some .pred ∧
    illFormed .tile (.krd { fS .a with imm32 := 0x005 }) = some .sreg ∧
    variantOk (.loopImm (fS .a)) = false ∧ ¬ WellFormed .tile (.unallocatedOpcode (wordA 0x080 0 0 0 0 0 0 0)) := by
  refine ⟨?_, ?_, ?_, ?_, ?_, ?_, ?_, ?_, ?_, ?_⟩ <;> first | decide +kernel | (simp only [WellFormed]; decide +kernel)

/-! ### States that meet the hypotheses of the statements: classes 0 and 1 -/

/-- An instruction issues in a state, and finds there what its claims call `o` and `u`. -/
abbrev Meets (i : Instr) (ord : Order) (s : State) : Prop := Finds i ord s (foc s) (raw i) (str s) (fnd i s) (own i s)

/-- What an operation answers. -/
def got {α : Type} (x : Res α) (d : α) : α := match x with
  | .ok v => v
  | .error _ => d

theorem got_eq {α : Type} {x : Res α} {d : α} (h : x.toOption.isSome = true) : x = .ok (got x d) := by
  cases x with
  | ok v => rfl
  | error e => cases h

theorem okay {x : Res Unit} (h : x.toOption.isSome = true) : x = .ok () := by
  cases x with
  | ok v => rfl
  | error e => cases h

/-- The operands of a class 0 instruction. -/
def opA (fl : FormS) (u : Strand) : Read Word := got (readScalar u fl.a) ⟨0, none, u⟩
def opB (fl : FormS) (u : Strand) : Read Word := got (operandB fl (opA fl u).rest) ⟨0, none, u⟩
def opC (fl : FormS) (u : Strand) : Read Word := got (readScalar (opB fl u).rest fl.c) ⟨0, none, u⟩

theorem operands {fl : FormS} {u : Strand} (h : (readScalar u fl.a).toOption.isSome = true)
    (h2 : (operandB fl (opA fl u).rest).toOption.isSome = true)
    (h3 : (readScalar (opB fl u).rest fl.c).toOption.isSome = true) : Operands fl u (opA fl u) (opB fl u) (opC fl u) :=
  ⟨got_eq h, got_eq h2, got_eq h3⟩

/-- A handler is set. -/
def handled (t : Strand) : Strand := { t with xvec := 0x4000 }
/-- A handler is set, at supervisor level. -/
def superv (t : Strand) : Strand := { t with xvec := 0x4000, xstat := t.xstat ||| 4 }

/-- x6 the most negative number, x7 one. -/
def st67 : State := tileS fun t => regs [(6, 0x8000000000000000), (7, 1)] (handled t)
def fl567 : FormS := { fS .a with d := .x 5, a := .x 6, b := .x 7 }
/-- The same words under p7 in the E registers, and a predicate that is false. -/
def stE : State := tileS fun t => regs [(34, 0xFFFFFFFF), (35, 2)] (handled t)
def flE (g : Gate) : FormS := { fS .e with gate := g, ty := .z32, d := .x 33, a := .x 34, b := .x 35, c := .x 35 }
def off2 : Gate := { pred := 2, pneg := false }

/-- SUB of the least and the largest step, and MULADD of the E registers: their operands are read, the predicate is
true, and false. -/
theorem witness_ScalarCompletes :
    (Meets (.sub fl567) .ahead st67 ∧
      Operands fl567 (own (.sub fl567) st67) (opA fl567 (own (.sub fl567) st67)) (opB fl567 (own (.sub fl567) st67))
        (opC fl567 (own (.sub fl567) st67)) ∧ gateOn (own (.sub fl567) st67) fl567.gate = true ∧
      (opA fl567 (own (.sub fl567) st67)).mark = none ∧ (opB fl567 (own (.sub fl567) st67)).mark = none ∧
      (opC fl567 (own (.sub fl567) st67)).mark = none) ∧
    (Meets (.muladd (flE off2)) .ahead stE ∧
      Operands (flE off2) (own (.muladd (flE off2)) stE) (opA (flE off2) (own (.muladd (flE off2)) stE))
        (opB (flE off2) (own (.muladd (flE off2)) stE)) (opC (flE off2) (own (.muladd (flE off2)) stE)) ∧
      gateOn (own (.muladd (flE off2)) stE) off2 = false) :=
  ⟨⟨meets (by decide +kernel), operands (by decide +kernel) (by decide +kernel) (by decide +kernel), by decide +kernel,
      by decide +kernel, by decide +kernel, by decide +kernel⟩,
    meets (by decide +kernel), operands (by decide +kernel) (by decide +kernel) (by decide +kernel), by decide +kernel⟩

/-- The frame's and the results' hypotheses, at a destination beside x0 and x32. -/
theorem witness_ScalarFrame_ArithmeticResults :
    Meets (.sub fl567) .ahead st67 ∧
    Operands fl567 (own (.sub fl567) st67) (opA fl567 (own (.sub fl567) st67)) (opB fl567 (own (.sub fl567) st67))
      (opC fl567 (own (.sub fl567) st67)) ∧ gateOn (own (.sub fl567) st67) fl567.gate = true ∧
    (opA fl567 (own (.sub fl567) st67)).mark = none ∧ (opB fl567 (own (.sub fl567) st67)).mark = none ∧
    (opC fl567 (own (.sub fl567) st67)).mark = none ∧ fl567.d = .x 5 :=
  ⟨witness_ScalarCompletes.1.1, witness_ScalarCompletes.1.2.1, witness_ScalarCompletes.1.2.2.1,
    witness_ScalarCompletes.1.2.2.2.1, witness_ScalarCompletes.1.2.2.2.2.1, witness_ScalarCompletes.1.2.2.2.2.2, rfl⟩

/-- A branch two words back, and one from the first word to the highest forward target. -/
def back2 : FormS := { fS .a with imm32 := 0xFFFFFFFE }
def flBcc (k : Cond) : FormS := { back2 with a := .x 6, b := .x 7, cond := k }
def stPc : State := tileS fun t => regs [(6, 0x8000000000000000), (7, 0x200010)] (handled t)

theorem witness_BranchesComplete :
    Meets (.nop (fS .a)) .ahead stPc ∧
    (Meets (.br back2) .ahead stPc ∧ GoodTarget (branchTarget (own (.br back2) stPc).pc back2.imm32)) ∧
    (Meets (.bcc (flBcc .lt)) .ahead stPc ∧ Unmarked (own (.bcc (flBcc .lt)) stPc) [.x 6, .x 7] ∧
      condHolds .lt ((own (.bcc (flBcc .lt)) stPc).xa (.x 6)) ((own (.bcc (flBcc .lt)) stPc).xa (.x 7)) = true) ∧
    (Meets (.bcc (flBcc .ltz)) .ahead stPc ∧
      condHolds .ltz ((own (.bcc (flBcc .ltz)) stPc).xa (.x 6)) ((own (.bcc (flBcc .ltz)) stPc).xa (.x 7)) = false) ∧
    (Meets (.bri { fS .a with a := .x 7 }) .ahead stPc ∧ Unmarked (own (.bri { fS .a with a := .x 7 }) stPc) [.x 7] ∧
      GoodTarget ((own (.bri { fS .a with a := .x 7 }) stPc).xa (.x 7))) :=
  ⟨meets (by decide +kernel), ⟨meets (by decide +kernel), by decide +kernel⟩,
    ⟨meets (by decide +kernel), by decide +kernel, by decide +kernel⟩, ⟨meets (by decide +kernel), by decide +kernel⟩,
    meets (by decide +kernel), by decide +kernel, by decide +kernel⟩

/-- A NOP with nothing around it; at the end of a loop body that has two iterations left; a branch back. -/
def loop2 (t : Strand) : Strand :=
  { t with loops := t.loops.set 0 { active := true, start := 0x1FFFF0, stop := 0x200000, count := 2 } }

theorem witness_IssueFrame_ProgramCounter :
    (Completes (.nop (fS .a)) stPc (foc stPc) (raw (.nop (fS .a))) (str stPc) (fnd (.nop (fS .a)) stPc) ∧
      (foc stPc).place = .fetch ∧ ((fnd (.nop (fS .a)) stPc).strand? 0).map (fun q => (q.next, q.depth)) = some (none, 0)) ∧
    (Completes (.nop (fS .a)) (tileS loop2) (foc (tileS loop2)) (raw (.nop (fS .a))) (str (tileS loop2))
        (fnd (.nop (fS .a)) (tileS loop2)) ∧
      ((fnd (.nop (fS .a)) (tileS loop2)).strand? 0).map (fun q => (q.next, q.depth, (q.loops[0]).stop == q.pc)) =
        some (none, 1, true)) ∧
    (let s2 := (fnd (.br back2) stPc).setStrand 0 ((own (.br back2) stPc).goto 0x1FFFE0)
     Completes (.br back2) stPc (foc stPc) (raw (.br back2)) (str stPc) s2 ∧
      (s2.strand? 0).map (·.next) = some (some 0x1FFFE0)) :=
  ⟨⟨rfl, by decide +kernel, by decide +kernel⟩, ⟨rfl, by decide +kernel⟩, rfl, by decide +kernel⟩

/-- Loops: a count of zero and of one in a register, with the deepest level free; zero and the largest in the word; a
LOOPX of the innermost level. -/
def loop3 (t : Strand) : Strand :=
  { t with loops := Vector.ofFn fun (k : Fin 4) => { active := decide (k.val < 3), start := 0x1FFFF0, stop := 0x200100, count := 9 } }
def stLoop : State := tileS fun t => loop3 (regs [(6, 0), (7, 1)] (handled t))
def flLoop (n : BitVec 32) : FormS := { fS .a with imm := true, imm32 := n }

theorem witness_LoopsComplete :
    (Meets (.loopReg { fS .a with a := .x 6, imm32 := 3 }) .ahead stLoop ∧
      Unmarked (own (.loopReg { fS .a with a := .x 6, imm32 := 3 }) stLoop) [.x 6] ∧
      ((own (.loopReg { fS .a with a := .x 6, imm32 := 3 }) stLoop).xa (.x 6)).setWidth 32 = (0 : BitVec 32)) ∧
    (Meets (.loopReg { fS .a with a := .x 7, imm32 := 3 }) .ahead stLoop ∧
      ((own (.loopReg { fS .a with a := .x 7, imm32 := 3 }) stLoop).xa (.x 7)).setWidth 32 ≠ (0 : BitVec 32) ∧
      (own (.loopReg { fS .a with a := .x 7, imm32 := 3 }) stLoop).depth = 3) ∧
    Meets (.loopImm (flLoop 0x00000003)) .ahead stLoop ∧
    (Meets (.loopImm (flLoop 0xFFFF0001)) .ahead stLoop ∧ (own (.loopImm (flLoop 0xFFFF0001)) stLoop).depth = 3) ∧
    (Meets (.loopx { fS .a with imm32 := 0x10 }) .ahead stLoop ∧
      GoodTarget (branchTarget (own (.loopx { fS .a with imm32 := 0x10 }) stLoop).pc 0x10)) :=
  ⟨⟨meets (by decide +kernel), by decide +kernel, by decide +kernel⟩,
    ⟨meets (by decide +kernel), by decide +kernel, by decide +kernel⟩, meets (by decide +kernel),
    ⟨meets (by decide +kernel), by decide +kernel⟩, meets (by decide +kernel), by decide +kernel⟩

/-- A stack of 256 bytes at the scratchpad's base; SP at its top, and one record down. -/
def stacked (down : Word) (t : Strand) : Strand :=
  regs [(1, 0x00FFF00000000100 - down), (6, 0x00FFF00000000040), (7, 0x200010)]
    { (handled t) with sbase := 0x00FFF00000000000, slimit := 0x00FFF00000000100 }
/-- The record at SP - 16: the return address 0x200010, no level. -/
def withRecord (s : State) : State := s.writeLocNat (spadLoc 0 0xF0) 8 0x200010

theorem witness_CallsComplete :
    (let i := Instr.call { fS .a with imm32 := 4 }
     let s := tileS (stacked 0)
     Meets i .normal s ∧ (checkStack (fnd i s) 0 (own i s) ((own i s).getX 1 - 16) 16).toOption.isSome = true ∧
      (own i s).getX 1 = 0x00FFF00000000100 ∧ GoodTarget (branchTarget (own i s).pc 4) ∧ Unmarked (own i s) [.x 1] ∧
      (storeReady (own i s)).toOption.isSome = true) ∧
    (let i := Instr.calli { fS .a with a := .x 7 }
     let s := tileS (stacked 0xF0)
     Meets i .normal s ∧ (checkStack (fnd i s) 0 (own i s) ((own i s).getX 1 - 16) 16).toOption.isSome = true ∧
      (own i s).getX 1 = 0x00FFF00000000010 ∧ GoodTarget ((own i s).xa (.x 7)) ∧ Unmarked (own i s) [.x 1, .x 7]) ∧
    (let i := Instr.ret (fS .a)
     let s := withRecord (tileS (stacked 0x10))
     let read := loadParts (fnd i s) 0 0 .default [recordPart 0 ((own i s).getX 1)]
     Meets i .ahead s ∧ (checkStack (fnd i s) 0 (own i s) ((own i s).getX 1) 16).toOption.isSome = true ∧
      (loadFree (own i s) [recordPart 0 ((own i s).getX 1)]).toOption.isSome = true ∧
      GoodTarget (BitVec.ofNat 64 (field read.1.bytes 0 8)) ∧ Unmarked (own i s) [.x 1] ∧ read.1.bad = false) :=
  ⟨⟨meets (by decide +kernel), by decide +kernel, by decide +kernel, by decide +kernel, by decide +kernel, by decide +kernel⟩,
    ⟨meets (by decide +kernel), by decide +kernel, by decide +kernel, by decide +kernel, by decide +kernel⟩,
    meets (by decide +kernel), by decide +kernel, by decide +kernel, by decide +kernel, by decide +kernel, by decide +kernel⟩

def flRange : FormS := { fS .a with d := .x 5, a := .x 6, b := .x 7 }
def flRange0 : FormS := { fS .a with a := .x 6, b := .x 7 }
def stRange : State := tileS fun t => regs [(6, 0x200000), (7, 256)] (handled t)

theorem witness_FetchControlCompletes :
    (Meets (.ipref flRange0) .ahead stRange ∧ Unmarked (own (.ipref flRange0) stRange) [.x 6, .x 7]) ∧
    (Meets (.ipin flRange) .normal stRange ∧ Unmarked (own (.ipin flRange) stRange) [.x 6, .x 7]) ∧
    (Meets (.iunpin flRange0) .normal stRange ∧ Unmarked (own (.iunpin flRange0) stRange) [.x 6, .x 7]) ∧
    Meets (.fencei (fS .a)) .drain stRange :=
  ⟨⟨meets (by decide +kernel), by decide +kernel⟩, ⟨meets (by decide +kernel), by decide +kernel⟩,
    ⟨meets (by decide +kernel), by decide +kernel⟩, meets (by decide +kernel)⟩

/-! ### Traps, waiting, work control -/

/-- A strand without a handler; one in its handler. -/
def inHandler (t : Strand) : Strand := { t with xvec := 0x4000, xstat := 0x94 }

theorem witness_TrapCompletes :
    (str stPc).inh = false ∧ (str stPc).xvec ≠ 0 ∧ Meets (.trap { fS .a with imm32 := 0xFFFFFFFF }) .ahead stPc ∧
    Alone (opened stPc (foc stPc) (raw (.trap { fS .a with imm32 := 0xFFFFFFFF })) (str stPc)) (foc stPc) ∧
    Alone (settle stPc.cycle (str stPc)) (foc stPc) :=
  ⟨by decide +kernel, by decide +kernel, meets (by decide +kernel), by decide +kernel, by decide +kernel⟩

theorem witness_DoubleTrap :
    ((tileS inHandler).strand? 0).map (·.inh) = some true ∧ ((tileS).strand? 0).map (·.xvec) = some 0 ∧
    ((tileS).task? 0).map (·.failedBy) = some none := by decide +kernel

/-- At supervisor level in its handler, with XPC set; at user level. -/
def stXret : State := tileS fun t => { (superv t) with xpc := 0x200040, xstat := 0x94 }

theorem witness_XretCompletes :
    (Meets (.xret (fS .a)) .drain stXret ∧ (str stXret).pl = true ∧ GoodTarget (own (.xret (fS .a)) stXret).xpc ∧
      (own (.xret (fS .a)) stXret).guardRep = none) ∧
    (stPc.focus = some (foc stPc) ∧ (str stPc).pl = false ∧ (str stPc).inh = false ∧ (str stPc).xvec ≠ 0 ∧
      illFormed stPc.core (.xret (fS .a)) = none ∧
      timingOk (settle stPc.cycle (str stPc)) stPc.cycle .a (raw (.xret (fS .a))) = true ∧
      Alone (settle stPc.cycle (str stPc)) (foc stPc)) :=
  ⟨⟨meets (by decide +kernel), by decide +kernel⟩, by decide +kernel⟩

/-- One datum queued, nothing else in flight. -/
def oneXq (t : Strand) : Strand := { (handled t) with xq := [{ seq := 0, data := 7, mark := none, annul := false }], seq := 1 }

theorem witness_EndCompletes :
    (Meets (.end_ (fS .a)) .drain stPc ∧ (str stPc).divRep = none ∧ (str stPc).guardRep = none ∧ (str stPc).engRep = none ∧
      (str stPc).queuesEmpty = true) ∧
    (Meets (.end_ (fS .a)) .drain (tileS oneXq) ∧ (str (tileS oneXq)).queuesEmpty = false ∧ (str (tileS oneXq)).inh = false ∧
      Alone (opened (tileS oneXq) (foc (tileS oneXq)) (raw (.end_ (fS .a))) (str (tileS oneXq))) (foc (tileS oneXq))) :=
  ⟨⟨meets (by decide +kernel), by decide +kernel⟩, meets (by decide +kernel), by decide +kernel⟩

def flKrd (i : Nat) : FormS := { fS .a with d := .x 5, imm32 := BitVec.ofNat 32 i }
def flKwr (i : Nat) : FormS := { fS .a with a := .x 6, imm32 := BitVec.ofNat 32 i }

theorem witness_KrdCompletes :
    (Meets (.krd (flKrd 0x030)) .normal stPc ∧ userReads (sregOf (flKrd 0x030)) = true) ∧
    (Meets (.krd (flKrd 0x000)) .normal (tileS superv) ∧ (str (tileS superv)).pl = true) ∧
    ((str stPc).pl = false ∧ userReads (sregOf (flKrd 0x000)) = false ∧ illFormed stPc.core (.krd (flKrd 0x000)) = none ∧
      timingOk (settle stPc.cycle (str stPc)) stPc.cycle .a (raw (.krd (flKrd 0x000))) = true) :=
  ⟨⟨meets (by decide +kernel), by decide +kernel⟩, ⟨meets (by decide +kernel), by decide +kernel⟩, by decide +kernel⟩

/-- The headstock's strand 0 with a value in x6. -/
def headR : State := headS fun t => regs [(6, 0x00000000801F7F80)] (superv t)
def superR : State := tileS fun t => regs [(6, 0xFFFFFFFFFFFFFFFF)] (superv t)

theorem witness_KwrCompletes :
    (Meets (.kwr (flKwr 0x003)) .drain superR ∧ (str superR).pl = true ∧ supervisorWrites (sregOf (flKwr 0x003)) = true ∧
      Unmarked (own (.kwr (flKwr 0x003)) superR) [.x 6]) ∧
    (Meets (.kwr (flKwr 0x012)) .drain stPc ∧ sregOf (flKwr 0x012) = 0x012) ∧
    (Meets (.talertWrite (flKwr 0xF01)) .drain headR ∧ supervisorWrites (sregOf (flKwr 0xF01)) = true ∧ (str headR).pl = true) ∧
    (Meets (.intpendClear (flKwr 0xF02)) .drain headR ∧ supervisorWrites (sregOf (flKwr 0xF02)) = true) ∧
    (Meets (.thrWrite (flKwr 0xF00)) .drain headR ∧ supervisorWrites (sregOf (flKwr 0xF00)) = true) :=
  ⟨⟨meets (by decide +kernel), by decide +kernel⟩, ⟨meets (by decide +kernel), by decide +kernel⟩,
    ⟨meets (by decide +kernel), by decide +kernel⟩, ⟨meets (by decide +kernel), by decide +kernel⟩,
    meets (by decide +kernel), by decide +kernel⟩

/-- The line slept on, in the scratchpad; a wait at it since cycle 0 that ends at its timeout, which is now. -/
def flSleep : FormS := { fS .a with d := .x 5, a := .x 6, b := .x 7, c := .x 8 }
def sleeper (b : Word) (t : Strand) : Strand :=
  { regs [(6, 0x00FFF00000000038), (7, b), (8, 100)] (handled t) with
    waitA := some { why := .sleep (0x00FFF00000000038 / 128), since := 0, deadline := some 100, instr := .sleep flSleep, pc := 0x200000 } }
def stSleep (b : Word) : State := { tileS (sleeper b) with cycle := 100 }
def sleepParts (s : State) : Res (List Part × State) :=
  accessParts (fnd (.sleep flSleep) s) { agentOf (fnd (.sleep flSleep) s) 0 (own (.sleep flSleep) s) with l1 := false } .load
    ((own (.sleep flSleep) s).xa (.x 6)) 8
def sleepRead (s : State) : Got × State :=
  let r := got (sleepParts s) ([], s)
  fetchParts (r.2.freshen 0 .dev r.1) 0 0 .default r.1

theorem sleepReads {s : State} (h1 : (checkBase (fnd (.sleep flSleep) s) 0 (own (.sleep flSleep) s) (.x 6)
      ((own (.sleep flSleep) s).xa (.x 6)) 8).toOption.isSome = true)
    (h2 : ((own (.sleep flSleep) s).xa (.x 6)).extractLsb' 0 3 = 0 ∧ Unmarked (own (.sleep flSleep) s) [.x 6, .x 7, .x 8])
    (h3 : (sleepParts s).toOption.isSome = true)
    (h4 : (noPort (got (sleepParts s) ([], s)).1).toOption.isSome = true ∧
      (loadFree (own (.sleep flSleep) s) (got (sleepParts s) ([], s)).1).toOption.isSome = true)
    (h5 : (sleepRead s).1.bad = false) :
    SleepReads flSleep (fnd (.sleep flSleep) s) ⟨0, .fetch⟩ (own (.sleep flSleep) s) (sleepRead s) :=
  ⟨okay h1, h2.1, h2.2, _, _, got_eq (d := ([], s)) h3, okay h4.1, okay h4.2, rfl, h5⟩

theorem witness_SleepComplete :
    (Meets (.sleep flSleep) .normal (stSleep 1) ∧
      SleepReads flSleep (fnd (.sleep flSleep) (stSleep 1)) ⟨0, .fetch⟩ (own (.sleep flSleep) (stSleep 1)) (sleepRead (stSleep 1)) ∧
      (BitVec.ofNat 64 (leNat (sleepRead (stSleep 1)).1.bytes) : Word) ≠ (own (.sleep flSleep) (stSleep 1)).xa (.x 7)) ∧
    (Meets (.sleep flSleep) .normal (stSleep 0) ∧
      SleepReads flSleep (fnd (.sleep flSleep) (stSleep 0)) ⟨0, .fetch⟩ (own (.sleep flSleep) (stSleep 0)) (sleepRead (stSleep 0)) ∧
      ¬ (BitVec.ofNat 64 (leNat (sleepRead (stSleep 0)).1.bytes) : Word) ≠ (own (.sleep flSleep) (stSleep 0)).xa (.x 7) ∧
      ∃ w, sleeping (stSleep 0) 0 = some (flSleep, w) ∧ w.ended 100 = true ∧ (stSleep 0).focus = some ⟨0, .fetch⟩) := by
  refine ⟨⟨meets (by decide +kernel), ?_, by decide +kernel⟩, meets (by decide +kernel), ?_, by decide +kernel,
    { why := .sleep (0x00FFF00000000038 / 128), since := 0, deadline := some 100, instr := .sleep flSleep, pc := 0x200000 },
    by decide +kernel, by decide +kernel, by decide +kernel⟩
  · exact sleepReads (by decide +kernel) (by decide +kernel) (by decide +kernel) (by decide +kernel) (by decide +kernel)
  · exact sleepReads (by decide +kernel) (by decide +kernel) (by decide +kernel) (by decide +kernel) (by decide +kernel)

theorem witness_WakeComplete :
    Meets (.wake { fS .a with a := .x 6, aux := 2 }) .normal (stSleep 0) ∧
    acquiring (own (.wake { fS .a with a := .x 6, aux := 2 }) (stSleep 0)) = false ∧
    (releaseReady (fnd (.wake { fS .a with a := .x 6, aux := 2 }) (stSleep 0)) 0
      (own (.wake { fS .a with a := .x 6, aux := 2 }) (stSleep 0)) (wakeScope 2)).toOption.isSome = true ∧
    sleepAddr (str (stSleep 0)) = some 0x00FFF00000000038 ∧ wakeReach 0 0 2 = true :=
  ⟨meets (by decide +kernel), by decide +kernel, by decide +kernel, by decide +kernel, by decide +kernel⟩

/-- A launch of one task, index 0, which holds tile 0, in the one gang it has, in cluster 0. -/
def rec0 : TaskRec :=
  { phase := .running 0, placedOnce := true, cancelled := false, ran := 0, kept := [], queued := ([], []), tm := [], phases := [],
    replay := [], snapOk := false }
def gang0 : Gang :=
  { cluster := some 0, barriers := [], saved := [], placedAt := 0, preReq := none, level := 0, powerLevel := 0, wait := .none }
def launch1 : Launch :=
  { Launch.new 0 0x10000 [] none 1 0 1 none with
    desc := some [], checked := true, entry := 0x200000, part := 0x10102020, tasks := 1, stack := 0x100, gangSize := 1,
    barmask := 0x8000000000000001, ready := true, recs := [(0, rec0)], gangs := [(0, gang0)], nextGang := 1 }
def loom1 (l : Launch) : Loom :=
  { Loom.reset with launches := [(1, l)], nextLaunch := 2, serial := 2,
                    objects := [(1, { Object.new .graph 7 0 none true with children := [1] })] }
def held (k : Task) : Task := { k with launch := 1, barmask := 0x8000000000000001 }
def stLoom (g : Strand → Strand := id) (l : Launch := launch1) (k : Task → Task := id) : State :=
  { tileS g (fun x => k (held x)) with loom := loom1 l }

def flBar (n : BitVec 32) : FormS := { fS .a with imm32 := n }
def arrived63 (t : Strand) : Strand := { (handled t) with barPend := [(63, 0)] }
def phase1 : Launch := { launch1 with gangs := [(0, { gang0 with barriers := [(63, { phase := 1, arrived := [] })] })] }

/-- The gang's only strand arrives at barriers 0 and 63; it had arrived at 63, whose phase is complete. -/
theorem witness_BarrierCompletes :
    (Meets (.barrier (flBar 0)) .drain (stLoom handled) ∧
      barrierLevel (flBar 0) (stLoom handled) (settle 0 (str (stLoom handled))) = none ∧
      (heldReport (own (.barrier (flBar 0)) (stLoom handled))).toOption.isSome = true ∧
      FMap.get? (own (.barrier (flBar 0)) (stLoom handled)).barPend 0 = none ∧
      (let o := fnd (.barrier (flBar 0)) (stLoom handled)
       strandPhase o 0 0 < strandPhase (strandArrives (o.releaseL1 0 .clus) 0 0) 0 0)) ∧
    (Meets (.barrier (flBar 63)) .drain (stLoom arrived63 phase1) ∧
      barrierLevel (flBar 63) (stLoom arrived63 phase1) (settle 0 (str (stLoom arrived63 phase1))) = none ∧
      FMap.get? (own (.barrier (flBar 63)) (stLoom arrived63 phase1)).barPend 63 = some 0 ∧
      0 < strandPhase (fnd (.barrier (flBar 63)) (stLoom arrived63 phase1)) 0 63) :=
  ⟨⟨meets (by decide +kernel), by decide +kernel, by decide +kernel, by decide +kernel, by decide +kernel⟩,
    meets (by decide +kernel), by decide +kernel, by decide +kernel, by decide +kernel⟩

def flSpawn : FormS := { fS .a with d := .x 5, a := .x 6, b := .x 7 }
def target6 (t : Strand) : Strand := regs [(6, 0x200100), (7, 9)] (handled t)
def two (k : Task) : Task := { k with part := 0x20102020 }
def headFull : State := ((((headS target6).startHead 1 0x200000 0 0).startHead 2 0x200000 0 0).startHead 3 0x200000 0 0).at 1536

/-- SPAWN: strand 1 of two is free; the one there is runs; headstock strand 1 is free; all four run. -/
theorem witness_SpawnComplete :
    (Meets (.spawn flSpawn) .drain (tileS target6 two) ∧ GoodTarget ((own (.spawn flSpawn) (tileS target6 two)).xa (.x 6)) ∧
      ((fnd (.spawn flSpawn) (tileS target6 two)).task? 0).map (fun k => freeStrand (fnd (.spawn flSpawn) (tileS target6 two)) 0
        (k.part.extractLsb' 28 4).toNat) = some (some 1)) ∧
    (Meets (.spawn flSpawn) .drain (tileS target6) ∧
      ((fnd (.spawn flSpawn) (tileS target6)).task? 0).map (fun k => freeStrand (fnd (.spawn flSpawn) (tileS target6)) 0
        (k.part.extractLsb' 28 4).toNat) = some none) ∧
    (Meets (.spawn flSpawn) .drain (headS target6) ∧ freeStrand (fnd (.spawn flSpawn) (headS target6)) 1536 4 = some 1) ∧
    (Meets (.spawn flSpawn) .drain headFull ∧ freeStrand (fnd (.spawn flSpawn) headFull) 1536 4 = none) :=
  ⟨⟨meets (by decide +kernel), by decide +kernel, by decide +kernel⟩, ⟨meets (by decide +kernel), by decide +kernel⟩,
    ⟨meets (by decide +kernel), by decide +kernel⟩, meets (by decide +kernel), by decide +kernel⟩

/-- CANCEL of the strand's own task, which contains it; of a launch that does not exist, at supervisor level. -/
theorem witness_CancelComplete :
    (let f : FormS := { fS .a with d := .x 5, aux := 0 }
     Meets (.cancel f) .drain (stLoom handled) ∧ cancelLevel f (stLoom handled) (settle 0 (str (stLoom handled))) = none ∧
      (cancelTarget (fnd (.cancel f) (stLoom handled)) 0 0 0).map
        (fun x => ((fnd (.cancel f) (stLoom handled)).targetTiles x).contains 0) = some true) ∧
    (let f : FormS := { fS .a with d := .x 5, a := .x 6, aux := 1 }
     let s := stLoom (fun t => regs [(6, 99)] (superv t))
     Meets (.cancel f) .drain s ∧ cancelLevel f s (settle 0 (str s)) = none ∧ cancelTarget (fnd (.cancel f) s) 0 1 99 = none) :=
  ⟨⟨meets (by decide +kernel), by decide +kernel, by decide +kernel⟩, meets (by decide +kernel), by decide +kernel, by decide +kernel⟩

/-! ### Class 2 -/

/-- Tile 0 with a translation of the page at 0x200000, to the same location of the first tier. -/
def tlb2 (pte : Word) : TlbEnt := { pasid := 0, base := 0x200000, size := 2 ^ 17, frame := 0x200000, pte, pteLoc := 0 }
def tileM (g : Strand → Strand := id) (k : Task → Task := id) : State :=
  (tileS g k).updTile 0 fun x => { x with tlb := [tlb2 0x780000000020000F] }

/-- What the checks of a scalar access answer where it issues. -/
def scalarTry (i : Instr) (fl : FormM) (acc : Acc) (s : State) : Res (List Part × State) :=
  scalarParts (fnd i s) (own i s) fl acc (effAddr (own i s) fl (sizeLog fl.ty)) (Ty.bytes fl.ty)
def scalarPs (i : Instr) (fl : FormM) (acc : Acc) (s : State) : List Part := (got (scalarTry i fl acc s) ([], s)).1
def scalarO (i : Instr) (fl : FormM) (acc : Acc) (s : State) : State := (got (scalarTry i fl acc s) ([], s)).2
abbrev ScalarReaches (i : Instr) (fl : FormM) (acc : Acc) (s : State) : Prop :=
  Reaches fl acc (fnd i s) (own i s) (effAddr (own i s) fl (sizeLog fl.ty)) (Ty.bytes fl.ty) (scalarPs i fl acc s)
    (scalarO i fl acc s)

theorem scalarReaches {i : Instr} {fl : FormM} {acc : Acc} {s : State}
    (h : (scalarTry i fl acc s).toOption.isSome = true ∧ portOf (scalarPs i fl acc s) = none ∧
      (noPort (scalarPs i fl acc s)).toOption.isSome = true) : ScalarReaches i fl acc s :=
  ⟨got_eq (d := ([], s)) h.1, h.2.1, okay h.2.2⟩

/-- The same of a vector access. -/
def vecTry (i : Instr) (fl : FormM) (acc : Acc) (s : State) : Res (List Part × State) :=
  accessParts (fnd i s) (if acc = .store then agentOf (fnd i s) (foc s).sid (own i s) else readerOf (fnd i s) (own i s) fl) acc
    (effAddr (own i s) fl 9) (vecLen (own i s) fl) (acc == .store)
def vecPs (i : Instr) (fl : FormM) (acc : Acc) (s : State) : List Part := (got (vecTry i fl acc s) ([], s)).1
def vecO (i : Instr) (fl : FormM) (acc : Acc) (s : State) : State := (got (vecTry i fl acc s) ([], s)).2
abbrev VectorReaches (i : Instr) (fl : FormM) (acc : Acc) (s : State) : Prop :=
  VecReaches fl acc (fnd i s) (foc s) (own i s) (effAddr (own i s) fl 9) (vecLen (own i s) fl) (vecPs i fl acc s) (vecO i fl acc s)

theorem vectorReaches {i : Instr} {fl : FormM} {acc : Acc} {s : State}
    (h : vecLen (own i s) fl ≠ 0 ∧
      (checkBase (fnd i s) (foc s).sid (own i s) fl.a (effAddr (own i s) fl 9) (vecLen (own i s) fl)).toOption.isSome = true ∧
      (vecAligned fl (effAddr (own i s) fl 9)).toOption.isSome = true ∧ (vecTry i fl acc s).toOption.isSome = true ∧
      (noPort (vecPs i fl acc s)).toOption.isSome = true) : VectorReaches i fl acc s :=
  ⟨h.1, okay h.2.1, okay h.2.2.1, got_eq (d := ([], s)) h.2.2.2.1, okay h.2.2.2.2⟩

theorem free {u : Strand} {ps : List Part}
    (h : (loadReady u).toOption.isSome = true ∧ meetsAtom u ps = false ∧ sideEffect ps = false) : LoadFree u ps :=
  ⟨okay h.1, h.2.1, Or.inl h.2.2⟩

/-- x6 eight bytes below the end of the mapped page; x7 the start of the scratchpad; x8 a length of four bytes. -/
def pointers (t : Strand) : Strand :=
  regs [(6, 0x21FFF8), (7, 0x00FFF00000000000), (8, 0x1122334455667788), (9, 4), (10, 0)] (handled t)
def full31 (t : Strand) : Strand :=
  { pointers t with lq := List.replicate 31 { seq := 0, req := 0, size := 8, data := some 0, mark := none } }
def flMem (a : Fin 64) : FormM := { fM with d := .x 5, a := .x a }
def flQ (a : Fin 64) : FormM := { fM with a := .x a }
def flLen (n : Fin 64) : FormM := { fM with ty := .z32, a := .x 7, c := .x n }

theorem witness_LoadsComplete :
    (Meets (.ld (flMem 6)) .ahead (tileM pointers) ∧ ScalarReaches (.ld (flMem 6)) (flMem 6) .load (tileM pointers) ∧
      Unmarked (own (.ld (flMem 6)) (tileM pointers)) [.x 6, .x 0] ∧
      LoadFree (own (.ld (flMem 6)) (tileM pointers))
        (scalarPs (.ld (flMem 6)) (flMem 6) .load (tileM pointers))) ∧
    (Meets (.ldq (flQ 6)) .ahead (tileM full31) ∧ ScalarReaches (.ldq (flQ 6)) (flQ 6) .load (tileM full31) ∧
      LoadFree (own (.ldq (flQ 6)) (tileM full31))
        (scalarPs (.ldq (flQ 6)) (flQ 6) .load (tileM full31)) ∧
      (own (.ldq (flQ 6)) (tileM full31)).qf = false ∧ (own (.ldq (flQ 6)) (tileM full31)).lq.length = 31) ∧
    (Meets (.vldq (flLen 9)) .ahead (tileS pointers) ∧ VectorReaches (.vldq (flLen 9)) (flLen 9) .load (tileS pointers) ∧
      (noAperture (vecPs (.vldq (flLen 9)) (flLen 9) .load (tileS pointers))).toOption.isSome = true ∧
      LoadFree (own (.vldq (flLen 9)) (tileS pointers))
        (vecPs (.vldq (flLen 9)) (flLen 9) .load (tileS pointers))) ∧
    (Meets (.vldq (flLen 10)) .ahead (tileS pointers) ∧ vecLen (own (.vldq (flLen 10)) (tileS pointers)) (flLen 10) = 0) :=
  ⟨⟨meets (by decide +kernel), scalarReaches (by decide +kernel), by decide +kernel, free (by decide +kernel)⟩,
    ⟨meets (by decide +kernel), scalarReaches (by decide +kernel), free (by decide +kernel), by decide +kernel,
      by decide +kernel⟩,
    ⟨meets (by decide +kernel), vectorReaches (by decide +kernel), by decide +kernel, free (by decide +kernel)⟩,
    meets (by decide +kernel), by decide +kernel⟩

/-- A load to x5 in flight, and one to LQ; a long result of x5 not yet written. -/
def flying (t : Strand) : Strand :=
  { t with loads := [{ req := 7, seq := 0, dst := .reg (.x 5), data := 9, mark := none, acq := none, since := 0 },
                     { req := 8, seq := 1, dst := .lq, data := 3, mark := none, acq := none, since := 0 }]
           lq := [{ seq := 1, req := 8, size := 8, data := none, mark := none }]
           pend := [{ req := 9, seq := 2, slice := .a, regs := [.x 5], ready := none, wsb := none, since := 0 }] }

theorem witness_ResultsArrive :
    ((tileS flying).strand? 0).map (fun t => ((t.loads.find? (·.req == 7)).map (·.dst), (t.loads.find? (·.req == 8)).map (·.dst),
      t.loads.any (·.req == 9) || t.atoms.any (·.req == 9))) = some (some (.reg (.x 5)), some .lq, false) := by decide +kernel

/-- The data of the load arrives: x5 is written. -/
theorem test_load_arrives : (match exec (.loadDataReturn 0 7) (tileS flying) with
    | .next s => (s.strand? 0).map fun t => (t.getX 5, t.loads.length)
    | _ => none) = some (9, 1) := by decide +kernel

def flSt (o : MemOrd) : FormM := { fM with a := .x 6, c := .x 8, ord := o, scope := if o = .rel then .dev else .strand }
def flDev : FormM := { fM with a := .x 6, c := .x 8 }
/-- A headstock strand that addresses WDINT through page tables whose leaf names its page of the register window. -/
def headDev : State :=
  let s := headS fun t => regs [(6, 0x200020), (8, 0x20000)] (superv t)
  let s := (s.writeLocNat 0 8 0x300003).writeLocNat 0x300000 8 0x301000
  let s := (s.writeLocNat 0x301000 8 0x302001).writeLocNat 0x302000 8 0x303001
  let s := (s.writeLocNat 0x303000 8 0x304001).writeLocNat 0x304000 8 0x305001
  s.writeLocNat (0x305000 + 8 * 16) 8 0x3E0001000010000F

def stdOk (i : Instr) (fl : FormM) (s : State) : Read Word := got (readScalar (own i s) fl.c) ⟨0, none, own i s⟩
def flStd (g : Gate) : FormM := { fM with slice := .e, gate := g, c := .x 40 }
def flVstd (g : Gate) : FormM := { fM with slice := .e, gate := g, c := .v 3 }

theorem witness_StoresComplete :
    (Meets (.st (flSt .relaxed)) .normal (tileM pointers) ∧
      ScalarReaches (.st (flSt .relaxed)) (flSt .relaxed) .store (tileM pointers) ∧
      (storeReady (own (.st (flSt .relaxed)) (tileM pointers))).toOption.isSome = true ∧
      (own (.st (flSt .relaxed)) (tileM pointers)).checker = none ∧
      (scalarPs (.st (flSt .relaxed)) (flSt .relaxed) .store (tileM pointers)).any (·.space == .device) = false) ∧
    (Meets (.st (flSt .rel)) .normal (tileM pointers) ∧ ScalarReaches (.st (flSt .rel)) (flSt .rel) .store (tileM pointers) ∧
      (relReady (scalarO (.st (flSt .rel)) (flSt .rel) .store (tileM pointers)) (own (.st (flSt .rel)) (tileM pointers)) .rel
        .dev).toOption.isSome = true) ∧
    (Meets (.st flDev) .normal headDev ∧ ScalarReaches (.st flDev) flDev .store headDev ∧
      (scalarPs (.st flDev) flDev .store headDev).any (·.space == .device) = true) ∧
    (Meets (.sta (flQ 6)) .ahead (tileM pointers) ∧ ScalarReaches (.sta (flQ 6)) (flQ 6) .store (tileM pointers) ∧
      (own (.sta (flQ 6)) (tileM pointers)).qf = false ∧ saqFull (own (.sta (flQ 6)) (tileM pointers)) = false) ∧
    (Meets (.vsta (flLen 10)) .ahead (tileS pointers) ∧ vecLen (own (.vsta (flLen 10)) (tileS pointers)) (flLen 10) = 0 ∧
      saqFull (own (.vsta (flLen 10)) (tileS pointers)) = false) ∧
    (Meets (.vsta (flLen 9)) .ahead (tileS pointers) ∧ VectorReaches (.vsta (flLen 9)) (flLen 9) .store (tileS pointers) ∧
      (checkAperture (vecO (.vsta (flLen 9)) (flLen 9) .store (tileS pointers)) 0 true
        (vecPs (.vsta (flLen 9)) (flLen 9) .store (tileS pointers))).toOption.isSome = true) ∧
    (Meets (.std (flStd always)) .normal (tileS handled) ∧ Meets (.std (flStd off2)) .normal (tileS handled) ∧
      sdqFull (own (.std (flStd always)) (tileS handled)) = false ∧ sdqFull (own (.std (flStd off2)) (tileS handled)) = false ∧
      readScalar (own (.std (flStd always)) (tileS handled)) (.x 40) =
        .ok (stdOk (.std (flStd always)) (flStd always) (tileS handled))) ∧
    (Meets (.vstd (flVstd always)) .normal (tileS handled) ∧ Meets (.vstd (flVstd off2)) .normal (tileS handled) ∧
      anyLane (own (.vstd (flVstd always)) (tileS handled)) always = true ∧
      anyLane (own (.vstd (flVstd off2)) (tileS handled)) off2 = false ∧
      (readVector (own (.vstd (flVstd always)) (tileS handled)) (.v 3)).toOption.isSome = true ∧
      (got (readVector (own (.vstd (flVstd always)) (tileS handled)) (.v 3))
        ⟨0, none, own (.vstd (flVstd always)) (tileS handled)⟩).mark = none) :=
  ⟨⟨meets (by decide +kernel), scalarReaches (by decide +kernel), by decide +kernel, by decide +kernel, by decide +kernel⟩,
    ⟨meets (by decide +kernel), scalarReaches (by decide +kernel), by decide +kernel⟩,
    ⟨meets (by decide +kernel), scalarReaches (by decide +kernel), by decide +kernel⟩,
    ⟨meets (by decide +kernel), scalarReaches (by decide +kernel), by decide +kernel, by decide +kernel⟩,
    ⟨meets (by decide +kernel), by decide +kernel, by decide +kernel⟩,
    ⟨meets (by decide +kernel), vectorReaches (by decide +kernel), by decide +kernel⟩,
    ⟨meets (by decide +kernel), meets (by decide +kernel), by decide +kernel, by decide +kernel, got_eq (by decide +kernel)⟩,
    meets (by decide +kernel), meets (by decide +kernel), by decide +kernel, by decide +kernel, by decide +kernel,
    by decide +kernel⟩

/-- A pair ready: an address in the scratchpad and its datum; an annulled one. -/
def spadPart0 : Part := { va := 0x00FFF00000000008, loc := spadLoc 0 8, len := 8, space := .spad, nc := true }
def saq0 : SaqEnt :=
  { seq := 0, addr := 0x00FFF00000000008, size := 8, parts := [spadPart0], ch := .default, ord := .relaxed, scope := .strand, pl := false }
def sdq0 (annul : Bool) : SdqEnt := { seq := 1, size := 8, data := 0x0102030405060708, mark := none, annul }
def paired (annul : Bool) (t : Strand) : Strand := { t with saq := [saq0], sdq := [sdq0 annul], seq := 2 }

theorem witness_StorePairs :
    ((tileS (paired false)).strand? 0).map (fun t => (t.saq, t.sdq)) = some ([saq0], [sdq0 false]) ∧
    pairReady (tileS (paired false)) 0 (paired false (str (tileS (paired false)))) saq0 (sdq0 false) = true ∧
    pairReady (tileS (paired true)) 0 (paired true (str (tileS (paired true)))) saq0 (sdq0 true) = true ∧
    (str (tileS (paired false))).checker = none ∧ saq0.parts.any (·.space == .device) = false ∧
    saq0.parts.find? (ownAperture (tileS (paired false))) = none := by decide +kernel

/-- The pair is stored little-endian, the annulled one is not. -/
theorem test_store_pair :
    (match exec (.storePair 0) (tileS (paired false)) with
      | .next s => (Memory.read s.mem (spadLoc 0 8), Memory.read s.mem (spadLoc 0 15))
      | _ => (0, 0)) = (0x08, 0x01) ∧
    (match exec (.storePair 0) (tileS (paired true)) with
      | .next s => (s.mem, ((s.strand? 0).map fun t => t.saq.length + t.sdq.length))
      | _ => ([], none)) = ([], some 0) := by decide +kernel

/-- A part in general memory that is not cached, one that is, at the end of a line; in the scratchpad without guards. -/
def gen (nc : Bool) : Part := { va := 0x20007C, loc := 0x20007C, len := 4, space := .general, nc }

theorem witness_StoreFrame :
    Memory.wf (tileM).mem = true ∧ (gen true).cacheable = false ∧ (gen false).cacheable = true ∧
    (gen false).loc % 128 + (gen false).len = 128 ∧ spadPart0.cacheable = false ∧
    (tileS).firstGuard 0 spadPart0 = none ∧ [0#8, 0, 0, 0].length = (gen true).len := by decide +kernel

/-- Frozen queues outside a handler. -/
def frozenS (t : Strand) : Strand := { (handled t) with xstat := 0x80 }
def flBqpop : FormM := { fM with d := .x 5 }
def addXq : FormS := { fS .e with d := .x 33, a := .xq, b := .x 34 }
/-- A waits to push the full LQ, E to pop the empty XQ, word 3 of the program. -/
def crossed (t : Strand) : Strand :=
  { (handled t) with
    lq := List.replicate 32 { seq := 0, req := 0, size := 8, data := some 0, mark := none }
    waitA := some { why := .lqFull, since := 0, deadline := none, instr := .ldq fM, pc := 0x200010 }
    waitE := some { why := .xqEmpty, since := 0, deadline := none, instr := .add addXq, pc := 0x200000 }
    ewin := [{ instr := .add addXq, pc := 0x200000, seq := 3,
               snap := { pc := 0x200000, x := t.x, marks := [], loops := t.loops, perf0 := 0, stallA := 0, oplog := [] } }]
    seq := 5, pc := 0x200010 }

theorem witness_QueueTraps :
    ((str (tileS frozenS)).qf = true ∧ (str (tileS frozenS)).inh = false ∧ (str (tileS frozenS)).xvec ≠ 0 ∧
      Alone (opened (tileS frozenS) (foc (tileS frozenS)) (raw (.bqpop flBqpop)) (str (tileS frozenS))) (foc (tileS frozenS)) ∧
      issuesIn (.bqpop flBqpop) .ahead (tileS frozenS) = true ∧ issuesIn (.movq { fM with a := .x 6 }) .ahead (tileS frozenS) = true) ∧
    (crossWait (settle 0 (str (tileS crossed))) = true ∧ (str (tileS crossed)).ewin.map (·.seq) = [3] ∧
      drainedBefore (settle 0 (str (tileS crossed))) 3 = true ∧ (str (tileS crossed)).inh = false ∧ (str (tileS crossed)).xvec ≠ 0) := by
  decide +kernel

/-- XQ with room for one, BQ with room for one. -/
def nearly (t : Strand) : Strand :=
  { pointers t with xq := List.replicate 15 { seq := 0, data := 1, mark := none, annul := false }
                    bq := List.replicate 7 { seq := 0, data := 2, mark := none, annul := false }, seq := 1 }
def flBqpush (g : Gate) : FormM := { fM with slice := .e, gate := g, a := .x 40 }

theorem witness_TransfersComplete :
    (Meets (.movq { fM with a := .x 6 }) .ahead (tileS nearly) ∧ (own (.movq { fM with a := .x 6 }) (tileS nearly)).qf = false ∧
      (own (.movq { fM with a := .x 6 }) (tileS nearly)).xq.length = 15) ∧
    (Meets (.bqpush (flBqpush always)) .normal (tileS nearly) ∧ Meets (.bqpush (flBqpush off2)) .normal (tileS nearly) ∧
      (own (.bqpush (flBqpush always)) (tileS nearly)).bq.length = 7 ∧
      (readScalar (own (.bqpush (flBqpush always)) (tileS nearly)) (.x 40)).toOption.isSome = true) ∧
    (Meets (.bqpop flBqpop) .ahead (tileS nearly) ∧ (own (.bqpop flBqpop) (tileS nearly)).bq ≠ []) ∧
    Meets (.qmark fM) .ahead (tileS nearly) :=
  ⟨⟨meets (by decide +kernel), by decide +kernel, by decide +kernel⟩,
    ⟨meets (by decide +kernel), meets (by decide +kernel), by decide +kernel, by decide +kernel⟩,
    ⟨meets (by decide +kernel), by decide +kernel⟩, meets (by decide +kernel)⟩

def flFence : FormM := { fM with ord := .ar, scope := .dom }
def flCache : FormM := { fM with a := .x 6, c := .x 9 }
def flInv : FormM := { flCache with scope := .clus }

theorem witness_OrderingCompletes :
    (Meets (.fence flFence) .normal (tileM pointers) ∧ acquiring (own (.fence flFence) (tileM pointers)) = false ∧
      (own (.fence flFence) (tileM pointers)).loads = [] ∧ (own (.fence flFence) (tileM pointers)).atoms = [] ∧
      (relReady (fnd (.fence flFence) (tileM pointers)) (own (.fence flFence) (tileM pointers)) .ar .dom).toOption.isSome = true) ∧
    (Meets (.cinv flInv) .normal (tileM pointers) ∧ Unmarked (own (.cinv flInv) (tileM pointers)) [.x 6, .x 9] ∧
      (releaseReady (fnd (.cinv flInv) (tileM pointers)) 0 (own (.cinv flInv) (tileM pointers)) .clus).toOption.isSome = true) ∧
    Meets (.cwb flInv) .normal (tileM pointers) ∧ Meets (.cpref flCache) .ahead (tileM pointers) :=
  ⟨⟨meets (by decide +kernel), by decide +kernel, by decide +kernel, by decide +kernel, by decide +kernel⟩,
    ⟨meets (by decide +kernel), by decide +kernel, by decide +kernel⟩, meets (by decide +kernel), meets (by decide +kernel)⟩

/-- An atomic at the last word of the page, with and without release. -/
def flAtom (o : MemOrd) : FormM :=
  { fM with d := .x 5, a := .x 6, b := .x 8, ord := o, scope := if o = .ar then .dev else .strand }
def atomTry (i : Instr) (fl : FormM) (s : State) : Res (List Part × State) :=
  accessParts (fnd i s) (agentOf (fnd i s) 0 (own i s)) .atomic (atomAddr (own i s) fl) (Ty.bytes fl.ty)

theorem witness_AtomicsIssue :
    Meets (.aadd (flAtom .relaxed)) .normal (tileM pointers) ∧ Meets (.aadd (flAtom .ar)) .normal (tileM pointers) ∧
    (checkBase (fnd (.aadd (flAtom .ar)) (tileM pointers)) 0 (own (.aadd (flAtom .ar)) (tileM pointers)) (.x 6)
      (atomAddr (own (.aadd (flAtom .ar)) (tileM pointers)) (flAtom .ar)) 8).toOption.isSome = true ∧
    (atomAddr (own (.aadd (flAtom .ar)) (tileM pointers)) (flAtom .ar)).toNat % 8 = 0 ∧
    (got (atomTry (.aadd (flAtom .ar)) (flAtom .ar) (tileM pointers)) ([], (tileM))).1 =
      [{ va := 0x21FFF8, loc := 0x21FFF8, len := 8, space := .general, nc := false }] ∧
    acquiring (own (.aadd (flAtom .ar)) (tileM pointers)) = false ∧ olderStores (own (.aadd (flAtom .ar)) (tileM pointers)) = false ∧
    (own (.aadd (flAtom .ar)) (tileM pointers)).checker = none ∧
    (relReady (fnd (.aadd (flAtom .ar)) (tileM pointers)) (own (.aadd (flAtom .ar)) (tileM pointers)) .ar .dev).toOption.isSome = true :=
  ⟨meets (by decide +kernel), meets (by decide +kernel), by decide +kernel, by decide +kernel, by decide +kernel,
    by decide +kernel, by decide +kernel, by decide +kernel, by decide +kernel⟩

/-- An atomic on its way to a word of general memory, and one performed. -/
def atom0 (performed : Bool) : AtomFlight :=
  { req := 4, seq := 0, opc := 0x129, ty := .z32, part := { gen false with loc := 0x200000, va := 0x200000 }, operand := 0, swap := 0x1FFFFFFFF,
    d := some (.x 5), acq := none, performed, result := 6, mark := none, since := 0 }
def atomS (performed : Bool) : State := tileM fun t => { t with atoms := [atom0 performed] }

theorem witness_AtomicsPerform :
    ((treeLeaves (.leaf 4)).head?.bind (atomS false).atom?).map (·.1) = some 0 ∧
    groupOk (atomS false) [] (treeLeaves (.leaf 4)) none = true ∧ sameContext (atomS false) (treeLeaves (.leaf 4)) = true ∧
    isPoisoned (freshenGroup (atomS false) (atom0 false).part [4]).poison 0x200000 4 = false ∧ (atom0 false).part.space = .general ∧
    ((atomS true).strand? 0).map (fun t => (t.atoms.find? (·.req == 4)).map (·.performed)) = some (some true) := by decide +kernel

/-- 09 R286: the comparison holds, so the low 32 bits of the third operand are written, and no byte beyond them; the response
brings the old value. -/
theorem test_acas :
    (match exec (.atomicGroupPerform (.leaf 4)) (atomS false) with
      | .next s => (s.readLocNat 0x200000 8, ((s.strand? 0).map fun t => t.atoms.map fun a => (a.performed, a.result)))
      | _ => (0, none)) = (0xFFFFFFFF, some [(true, 0)]) ∧
    (match exec (.atomicResponse 0 4) (atomS true) with
      | .next s => (s.strand? 0).map fun t => (t.getX 5, t.atoms.length)
      | _ => none) = some (6, 0) := by decide +kernel

theorem witness_AtomicValues : (0xFF : Nat) < 2 ^ Ty.width .s8 ∧ (0 : Nat) < 2 ^ Ty.width .s8 ∧
    (atom0 false).opc = 0x129 ∧ ({ atom0 false with opc := 0x120 }).opc ≠ 0x129 := by decide

/-- Granules of the port: x6 names SPALLOC, x7 SPTOP, x9 SPFLOOR; x8 is a request. -/
def ported (t : Strand) : Strand :=
  regs [(6, 0x00FFF00000800000), (7, 0x00FFF00000800008), (9, 0x00FFF00000800010), (8, 64), (10, 0)] (handled t)
def flAlloc : FormM := { fM with d := .x 5, a := .x 6, b := .x 8 }
def flPort (a : Fin 64) (ld : Bool) : FormM := { fM with d := if ld then .x 5 else .x 0, a := .x a, c := if ld then .x 0 else .x 10 }

theorem witness_AllocatorCompletes :
    (Meets (.spalloc flAlloc) .normal (tileS ported) ∧
      (got (atomTry (.spalloc flAlloc) flAlloc (tileS ported)) ([], tileS)).1.map (fun p => (p.space, p.loc)) = [(.port, 0x800000)] ∧
      (storeReady (own (.spalloc flAlloc) (tileS ported))).toOption.isSome = true) ∧
    (Meets (.sptopRelease (flPort 7 false)) .normal (tileS ported) ∧
      (scalarPs (.sptopRelease (flPort 7 false)) (flPort 7 false) .store (tileS ported)).map (fun p => (p.space, p.loc)) =
        [(.port, 0x800008)]) ∧
    (Meets (.spfloorStore (flPort 9 false)) .normal (tileS ported) ∧
      (scalarPs (.spfloorStore (flPort 9 false)) (flPort 9 false) .store (tileS ported)).map (fun p => (p.space, p.loc)) =
        [(.port, 0x800010)]) ∧
    (Meets (.ld (flPort 9 true)) .ahead (tileS ported) ∧
      (scalarPs (.ld (flPort 9 true)) (flPort 9 true) .load (tileS ported)).map (fun p => (p.space, p.loc)) = [(.port, 0x800010)] ∧
      (loadReady (own (.ld (flPort 9 true)) (tileS ported))).toOption.isSome = true ∧
      (own (.ld (flPort 9 true)) (tileS ported)).ewin = []) :=
  ⟨⟨meets (by decide +kernel), by decide +kernel, by decide +kernel⟩, ⟨meets (by decide +kernel), by decide +kernel⟩,
    ⟨meets (by decide +kernel), by decide +kernel⟩, meets (by decide +kernel), by decide +kernel, by decide +kernel, by decide +kernel⟩

/-! ### Class 3 -/

/-- The operands of a class 3 instruction where it issues. -/
def vA (fl : FormV) (u : Strand) : Read VArg := got (readV u fl.a fl.moda) ⟨.word 0, none, u⟩
def vB (fl : FormV) (u : Strand) : Read VArg := got (readV (vA fl u).rest fl.b fl.modb) ⟨.word 0, none, u⟩
def vC (fl : FormV) (u : Strand) : Read VArg := got (readV (vB fl u).rest fl.c .none) ⟨.word 0, none, u⟩

/-- They can be read, and carry no mark. -/
def vReads (fl : FormV) (u : Strand) : Bool :=
  (readV u fl.a fl.moda).toOption.isSome && (readV (vA fl u).rest fl.b fl.modb).toOption.isSome &&
  (readV (vB fl u).rest fl.c .none).toOption.isSome && (vA fl u).mark.isNone && (vB fl u).mark.isNone && (vC fl u).mark.isNone

/-- The hypotheses all statements of class 3 share. -/
abbrev VectorMeets (i : Instr) (fl : FormV) (s : State) : Prop :=
  Meets i .normal s ∧ VectorReads fl (own i s) (vA fl (own i s)) (vB fl (own i s)) (vC fl (own i s)) ∧
  (vA fl (own i s)).mark = none ∧ (vB fl (own i s)).mark = none ∧ (vC fl (own i s)).mark = none

theorem vectorMeets {i : Instr} {fl : FormV} {s : State} (h : issuesIn i .normal s = true ∧ vReads fl (own i s) = true) :
    VectorMeets i fl s := by
  have h2 := h.2
  simp only [vReads, Bool.and_eq_true, Option.isNone_iff_eq_none] at h2
  exact ⟨meets h.1, ⟨got_eq h2.1.1.1.1.1, got_eq h2.1.1.1.1.2, got_eq h2.1.1.1.2⟩, h2.1.1.2, h2.1.2, h2.2⟩

/-- v2 and v3 hold 1.0 and 2.0 in every element, p1 the elements 0 and 127 of four bytes, p2 nothing; one entry of LQ. -/
def vecs (t : Strand) : Strand :=
  { (regs [(34, 3), (35, 1)] (handled t)) with
    v := (t.v.set 2 (ofElems 4 fun _ => 0x3F800000)).set 3 (ofElems 4 fun _ => 0x40000000)
    p := t.p.set 1 ((15#512 <<< 508) ||| 15)
    lq := [{ seq := 0, req := 0, size := 512, data := some (ofElems 4 fun i => i), mark := none }], seq := 1 }
def stVec : State := tileS vecs
def onP (n : Fin 8) (neg : Bool) : Gate := { pred := n, pneg := neg }
def flVadd (g : Gate) : FormV := { fV with gate := g, d := .v 1, a := .v 2, b := .v 3 }
def flCmp : FormV := { fV with d := .p 4, a := .v 2, b := .lq }

/-- VADD with two elements active, with none, under not p7; VCMP of an LQ entry into a predicate. -/
theorem witness_Elementwise_VectorFrame :
    (VectorMeets (.vadd (flVadd (onP 1 false))) (flVadd (onP 1 false)) stVec ∧
      (!gateNever (onP 1 false) && anyActive 4 (govern (own (.vadd (flVadd (onP 1 false))) stVec) (onP 1 false))) = true) ∧
    (VectorMeets (.vadd (flVadd (onP 2 false))) (flVadd (onP 2 false)) stVec ∧
      (!gateNever (onP 2 false) && anyActive 4 (govern (own (.vadd (flVadd (onP 2 false))) stVec) (onP 2 false))) = false) ∧
    (VectorMeets (.vadd (flVadd (onP 7 true))) (flVadd (onP 7 true)) stVec ∧ gateNever (onP 7 true) = true) ∧
    VectorMeets (.vcmp flCmp) flCmp stVec :=
  ⟨⟨vectorMeets (by decide +kernel), by decide +kernel⟩, ⟨vectorMeets (by decide +kernel), by decide +kernel⟩,
    ⟨vectorMeets (by decide +kernel), by decide +kernel⟩, vectorMeets (by decide +kernel)⟩

/-- What becomes of the strand that issues an instruction. -/
def ran (i : Instr) (s : State) : Option Strand := match exec i s with
  | .next s2 => s2.strand? s.sid
  | _ => none

/-- 06 R178, R185: 1.0 + 2.0 in the active elements 0 and 127, the others kept. -/
theorem test_vadd : (ran (.vadd (flVadd (onP 1 false))) stVec).map (fun t =>
    (elem 4 (t.getV 1) 0, elem 4 (t.getV 1) 1, elem 4 (t.getV 1) 127)) = some (0x40400000, 0, 0x40400000) := by decide +kernel

def flPopc (g : Gate) : FormV := { fV with gate := g, ty := .z32, d := .x 33, a := .p 1 }
def flPand (g : Gate) : FormV := { fV with gate := g, ty := .s64, d := .p 4, a := .p 1, b := .p 1 }

/-- VPOPC with bit 0 of its predicate 1, and 0; PAND where it is 1 somewhere, and nowhere. -/
theorem witness_WholeAndBits :
    (VectorMeets (.vpopc (flPopc (onP 1 false))) (flPopc (onP 1 false)) stVec ∧
      (govern (own (.vpopc (flPopc (onP 1 false))) stVec) (onP 1 false)).getLsbD 0 = true) ∧
    (VectorMeets (.vpopc (flPopc (onP 1 true))) (flPopc (onP 1 true)) stVec ∧
      (govern (own (.vpopc (flPopc (onP 1 true))) stVec) (onP 1 true)).getLsbD 0 = false) ∧
    (VectorMeets (.pand (flPand (onP 1 false))) (flPand (onP 1 false)) stVec ∧
      govern (own (.pand (flPand (onP 1 false))) stVec) (onP 1 false) ≠ 0) ∧
    (VectorMeets (.pand (flPand (onP 2 false))) (flPand (onP 2 false)) stVec ∧
      govern (own (.pand (flPand (onP 2 false))) stVec) (onP 2 false) = 0) :=
  ⟨⟨vectorMeets (by decide +kernel), by decide +kernel⟩, ⟨vectorMeets (by decide +kernel), by decide +kernel⟩,
    ⟨vectorMeets (by decide +kernel), by decide +kernel⟩, vectorMeets (by decide +kernel), by decide +kernel⟩

/-- 06 R203: p1 has two elements of four bytes. -/
theorem test_vpopc : (ran (.vpopc (flPopc (onP 1 false))) stVec).map (·.getX 33) = some 2 := by decide +kernel

def flCvt : FormV := { fV with ty := .f16, ty2 := .f32, d := .v 1, a := .v 2, imm16 := 1 }
def flQnt : FormV := { fV with ty := .s8, ty2 := .f32, d := .v 1, a := .v 2, b := .x 34, c := .p 4, bx := true, imm16 := 3 }
def flQc4 : FormV := { fV with ty := .qc4, ty2 := .f32, d := .v 1, a := .v 2, b := .x 34, c := .p 4, bx := true }
def flRed (d : Desig) : FormV := { fV with d, a := .v 2 }
def flMovx : FormV := { fV with ty := .f32, d := .v 1, a := .x 0, b := .x 34, bx := true, opx := 1, imm16 := 127 }
def flDefer : FormV := { fV with ty := .s64, gate := onP 1 false, d := .x 33, a := .v 2, opx := 0, imm16 := 0xFFFF }
def bobbed (n : Nat) (t : Strand) : Strand :=
  { (vecs t) with bobbin := List.replicate n { words := [0, 0, 0, 0], lane := 0, tag := 0, count := 1 } }
def flFirst : FormV := { fV with ty := .z32, d := .p 4, a := .p 1 }

/-- Conversions, a reduction into a vector and into a scalar register, a scan, an insertion, a deferral that fills the
bobbin, one that does not fit, PFIRST. -/
theorem witness_OtherVector :
    (VectorMeets (.vcvt flCvt) flCvt stVec ∧ anyActive 2 (govern (own (.vcvt flCvt) stVec) always) = true) ∧
    VectorMeets (.vqnt flQnt) flQnt stVec ∧ VectorMeets (.vqntQc4 flQc4) flQc4 stVec ∧
    VectorMeets (.vscan (flRed (.v 1))) (flRed (.v 1)) stVec ∧ VectorMeets (.vred (flRed (.v 1))) (flRed (.v 1)) stVec ∧
    VectorMeets (.vred (flRed (.x 33))) (flRed (.x 33)) stVec ∧ VectorMeets (.vmovxInsert flMovx) flMovx stVec ∧
    (VectorMeets (.vdefer flDefer) flDefer (tileS (bobbed 1022)) ∧
      (own (.vdefer flDefer) (tileS (bobbed 1022))).bobbin.length = 1022 ∧
      ((List.range 128).filter fun l => (govern (own (.vdefer flDefer) (tileS (bobbed 1022))) (onP 1 false)).getLsbD (4 * l)).length = 2) ∧
    (VectorMeets (.vdefer flDefer) flDefer (tileS (bobbed 1023)) ∧
      (own (.vdefer flDefer) (tileS (bobbed 1023))).bobbin.length = 1023) ∧
    VectorMeets (.pfirst flFirst) flFirst stVec :=
  ⟨⟨vectorMeets (by decide +kernel), by decide +kernel⟩, vectorMeets (by decide +kernel), vectorMeets (by decide +kernel),
    vectorMeets (by decide +kernel), vectorMeets (by decide +kernel), vectorMeets (by decide +kernel),
    vectorMeets (by decide +kernel), ⟨vectorMeets (by decide +kernel), by decide +kernel, by decide +kernel⟩,
    ⟨vectorMeets (by decide +kernel), by decide +kernel⟩, vectorMeets (by decide +kernel)⟩

/-- 06 R195: the sum of 128 ones. 06 R206: two records, for lanes 0 and 127. -/
theorem test_vred : (ran (.vred (flRed (.x 33))) stVec).map (·.getX 33) = some 0x43000000 := by decide +kernel
theorem test_vdefer : (ran (.vdefer flDefer) stVec).map (fun t => (t.getX 33, t.bobbin.map fun b => (b.words.headD 0, b.lane, b.tag))) =
    some (2, [(0x3F800000, 0, 0xFFFF), (0x3F800000, 127, 0xFFFF)]) := by decide +kernel

def flSel : FormV := { fV with ty := .f32, d := .v 3, a := .lq, b := .v 2, c := .p 1 }

theorem witness_VectorResults :
    (VectorMeets (.vsel flSel) flSel stVec ∧ gateNever flSel.gate = false ∧ flSel.d = .v 3) ∧
    (VectorMeets (.vpopc (flPopc (onP 1 false))) (flPopc (onP 1 false)) stVec ∧ (flPopc (onP 1 false)).d = .x 33 ∧
      (flPopc (onP 1 false)).a = .p 1) :=
  ⟨⟨vectorMeets (by decide +kernel), rfl, rfl⟩, vectorMeets (by decide +kernel), rfl, rfl⟩

/-! ### Class 4 -/

/-- x6 and x7: a row count of the accumulator; x8 to x10: two places of the scratchpad and a length; x12 a format word for
eight-bit floats, INIT set. -/
def cmdRegs (t : Strand) : Strand :=
  { (regs [(6, 63), (7, 1), (8, 0x00FFF00000000000), (9, 0x00FFF00000000040), (10, 64), (11, 64), (12, 0x2BA)] (handled t)) with
    issue := 5 }
def flAccz (quiet : Bool) (a : Fin 64) : FormE := { fE with d := if quiet then .x 0 else .x 5, a := .x a, b := .x 7, quiet }
def flCp : FormE := { fE with d := .x 5, a := .x 8, b := .x 9, c := .x 10, token := 0 }
def bigAcc (k : Task) : Task := { k with part := 0x10102020 }
def full15 (k : Task) : Task := { k with ceq := List.replicate 15 cmdA }
  where cmdA : Cmd := { opc := 0x200, ty := .s64, aux := 0, token := 0, quiet := true, issuer := 0, user := true, slot := 0, phase := 0,
                        index := 0, turn := 0, order := 0, fmt := 0, params := [0, 0, 0], issue := 0, error := none, disowned := false, waiting := .none,
                        copied := false, spills := some 0 }
def checksOf (sp : EngSpec) (fl : FormE) (i : Instr) (s : State) (k : Task) : Option Refuse :=
  firstRefuse (sp.check (fnd i s) 0 k 0 ((paramRegs fl sp.na sp.nb sp.nc).map (own i s).xa))

/-- CP between two adjacent ranges of the scratchpad with room for one command; ACCZ of the last tile, quiet; ACCZ beyond
the accumulator. -/
theorem witness_CommandsIssue :
    (Meets (.cp flCp) .normal (tileS cmdRegs full15) ∧
      ((fnd (.cp flCp) (tileS cmdRegs full15)).task? 0).map (fun k => (checksOf specCp flCp (.cp flCp) (tileS cmdRegs full15) k,
        decide (k.ceq.length = 15), k.freeSlot.isSome)) = some (none, true, true) ∧
      Unmarked (own (.cp flCp) (tileS cmdRegs full15)) (paramRegs flCp 1 1 1) ∧
      (forkReady (own (.cp flCp) (tileS cmdRegs full15))).toOption.isSome = true ∧
      (own (.cp flCp) (tileS cmdRegs full15)).checker = none) ∧
    (Meets (.accz (flAccz true 6)) .normal (tileS cmdRegs bigAcc) ∧
      ((fnd (.accz (flAccz true 6)) (tileS cmdRegs bigAcc)).task? 0).map (fun k =>
        checksOf specAccz (flAccz true 6) (.accz (flAccz true 6)) (tileS cmdRegs bigAcc) k) = some none) ∧
    (Meets (.accz (flAccz false 10)) .normal (tileS cmdRegs bigAcc) ∧
      ((fnd (.accz (flAccz false 10)) (tileS cmdRegs bigAcc)).task? 0).map (fun k =>
        checksOf specAccz (flAccz false 10) (.accz (flAccz false 10)) (tileS cmdRegs bigAcc) k) = some (some (2, 64)) ∧
      (str (tileS cmdRegs bigAcc)).inh = false ∧
      Alone (opened (tileS cmdRegs bigAcc) (foc (tileS cmdRegs bigAcc)) (raw (.accz (flAccz false 10))) (str (tileS cmdRegs bigAcc)))
        (foc (tileS cmdRegs bigAcc))) :=
  ⟨⟨meets (by decide +kernel), by decide +kernel, by decide +kernel, by decide +kernel, by decide +kernel⟩,
    ⟨meets (by decide +kernel), by decide +kernel⟩, meets (by decide +kernel), by decide +kernel, by decide +kernel, by decide +kernel⟩

def flMfmt : FormE := { fE with a := .x 12 }
def fq3 (t : Strand) : Strand := { (cmdRegs t) with fq := [0, 0, 0] }
def flTk (n : BitVec 4) (g : Gate) : FormE := { fE with slice := .e, gate := g, token := n }
/-- Token FIFOs: TF_MV full but for one, TF_VM holds one; slot 3 is pending in generation 2. -/
def slot3 : Slot := { gen := 2, state := .pending, issuer := 0, unit := .ce, issue := 4 }
def tokens (k : Task) : Task :=
  { k with fifo := #v[15, 0, 1, 14, 1, 14], slots := k.slots.set 3 slot3 }
def flAccwr : FormE := { fE with slice := .e, a := .v 2, b := .x 40 }
def flAccld : FormE := { fE with slice := .e, d := .v 2, a := .x 40 }
def idRegs (w : Word) (t : Strand) : Strand := regs [(6, w)] (handled t)
def flId (poll : Bool) : FormE := { fE with d := if poll then .x 5 else .x 0, a := .x 6 }

theorem witness_EngineSide :
    (Meets (.mfmt flMfmt) .normal (tileS fq3) ∧ fmtOk ((own (.mfmt flMfmt) (tileS fq3)).xa (.x 12)) = true ∧
      (own (.mfmt flMfmt) (tileS fq3)).fq.length = 3 ∧ Unmarked (own (.mfmt flMfmt) (tileS fq3)) [.x 12]) ∧
    (Meets (.tkgive (flTk 8 always)) .normal (tileS handled tokens) ∧
      gateOn (own (.tkgive (flTk 8 always)) (tileS handled tokens)) always = true ∧
      ((fnd (.tkgive (flTk 8 always)) (tileS handled tokens)).task? 0).map (fun k => canPush k.fifo (giveTokens 8)) = some true ∧
      performedBefore (own (.tkgive (flTk 8 always)) (tileS handled tokens))
        ((fnd (.tkgive (flTk 8 always)) (tileS handled tokens)).number (own (.tkgive (flTk 8 always)) (tileS handled tokens))) = true) ∧
    (Meets (.tkgive (flTk 8 off2)) .normal (tileS handled tokens) ∧
      gateOn (own (.tkgive (flTk 8 off2)) (tileS handled tokens)) off2 = false) ∧
    (Meets (.tktake (flTk 2 always)) .normal (tileS handled tokens) ∧
      ((fnd (.tktake (flTk 2 always)) (tileS handled tokens)).task? 0).map (fun k => canPop k.fifo (takeTokens 2)) = some true) ∧
    Meets (.tktake (flTk 2 off2)) .normal (tileS handled tokens) ∧
    (Meets (.accwr flAccwr) .normal (tileS vecs) ∧ (readVector (own (.accwr flAccwr) (tileS vecs)) (.v 2)).toOption.isSome = true ∧
      acquireBefore (own (.accwr flAccwr) (tileS vecs)) ((fnd (.accwr flAccwr) (tileS vecs)).number (own (.accwr flAccwr) (tileS vecs))) =
        false ∧
      ((fnd (.accwr flAccwr) (tileS vecs)).task? 0).map (fun k => (accChecks k 0).toOption.isSome) = some true) ∧
    (Meets (.accld flAccld) .normal (tileS vecs) ∧ (readScalar (own (.accld flAccld) (tileS vecs)) (.x 40)).toOption.isSome = true) ∧
    (Meets (.cwait (flId false)) .normal (tileS (idRegs 0x103) tokens) ∧
      (slotOf (fnd (.cwait (flId false)) (tileS (idRegs 0x103) tokens)) 0 0x103).gen ≠ idGen 0x103 ∧
      (observed (own (.cwait (flId false)) (tileS (idRegs 0x103) tokens)) slot3 1 0).toOption.isSome = true) ∧
    (Meets (.cpoll (flId true)) .normal (tileS (idRegs 0x203) tokens) ∧
      slotOf (fnd (.cpoll (flId true)) (tileS (idRegs 0x203) tokens)) 0 0x203 = slot3 ∧ idGen 0x203 = 2) ∧
    (Meets (.cpoll (flId true)) .normal (tileS (idRegs 0x204) tokens) ∧
      (slotOf (fnd (.cpoll (flId true)) (tileS (idRegs 0x204) tokens)) 0 0x204).state = .complete) ∧
    (Meets (.turn fE) .drain (tileS handled) ∧ (own (.turn fE) (tileS handled)).queuesEmpty = true) :=
  ⟨⟨meets (by decide +kernel), by decide +kernel, by decide +kernel, by decide +kernel⟩,
    ⟨meets (by decide +kernel), by decide +kernel, by decide +kernel, by decide +kernel⟩,
    ⟨meets (by decide +kernel), by decide +kernel⟩, ⟨meets (by decide +kernel), by decide +kernel⟩, meets (by decide +kernel),
    ⟨meets (by decide +kernel), by decide +kernel, by decide +kernel, by decide +kernel⟩, ⟨meets (by decide +kernel), by decide +kernel⟩,
    ⟨meets (by decide +kernel), by decide +kernel, by decide +kernel⟩, ⟨meets (by decide +kernel), by decide +kernel, by decide +kernel⟩,
    ⟨meets (by decide +kernel), by decide +kernel⟩, meets (by decide +kernel), by decide +kernel⟩

/-- Semaphores: 255 of cluster 23 holds nearly all it can; 0 of cluster 0 holds 5; strand 0 has been granted 1 of cluster 0. -/
def semS (name n : Word) (s : Strand → Strand := id) : State :=
  (((tileS fun t => s (regs [(6, name), (7, n)] (handled t))).setSem 23 255 { v := 0xFFFFFFFE, waiters := [] }).setSem 0 0
    { v := 5, waiters := [] }).setSem 0 1 { v := 0, waiters := [{ sid := 0, n := 2, granted := true }] }
def flSem : FormE := { fE with a := .x 6, b := .x 7 }
def flSemrd : FormE := { fE with d := .x 5, a := .x 6 }

theorem witness_Semaphores :
    (Meets (.semsig flSem) .normal (semS 0x17FF 2) ∧ semOk 0x17FF = true ∧
      Unmarked (own (.semsig flSem) (semS 0x17FF 2)) [.x 6, .x 7] ∧ acquiring (own (.semsig flSem) (semS 0x17FF 2)) = false ∧
      (releaseReady (fnd (.semsig flSem) (semS 0x17FF 2)) 0 (own (.semsig flSem) (semS 0x17FF 2)) .dev).toOption.isSome = true ∧
      (fnd (.semsig flSem) (semS 0x17FF 2)).sem (semCluster 0x17FF) (semIndex 0x17FF) = { v := 0xFFFFFFFE, waiters := [] }) ∧
    Meets (.semset flSem) .normal (semS 0x17FF 2) ∧ Meets (.semrd flSemrd) .normal (semS 0x17FF 2) ∧
    Meets (.semwait flSem) .normal (semS 0 0) ∧ fenceReady (own (.semwait flSem) (semS 0 5)) = true ∧
    (Meets (.semwait flSem) .normal (semS 0 5) ∧ (fnd (.semwait flSem) (semS 0 5)).sem 0 0 = { v := 5, waiters := [] }) ∧
    (Meets (.semwait flSem) .normal (semS 1 2) ∧
      ((fnd (.semwait flSem) (semS 1 2)).sem 0 1).waiters.any (fun w => w.sid == 0 && w.granted) = true) :=
  ⟨⟨meets (by decide +kernel), by decide +kernel, by decide +kernel, by decide +kernel, by decide +kernel, by decide +kernel⟩,
    meets (by decide +kernel), meets (by decide +kernel), meets (by decide +kernel), by decide +kernel,
    ⟨meets (by decide +kernel), by decide +kernel⟩, meets (by decide +kernel), by decide +kernel⟩

/-- 11 R314: SEMSIG saturates. -/
theorem test_semsig_saturates : (match exec (.semsig flSem) (semS 0x17FF 2) with
    | .next s => (s.sem 23 255).v
    | _ => 0) = 0xFFFFFFFF := by decide +kernel

/-- MM of one panel, A in the scratchpad and B at 0x200000, whose lines have arrived; ACCZ of one tile at its last row; a copy
that is done, quiet and not. -/
def mm1 (phase : Nat) : Cmd :=
  { full15.cmdA with opc := 0x211, phase, fmt := 0x2BA, params := [0x00FFF00000000000, 0x200000, 16], order := 3 }
def accz1 : Cmd := { full15.cmdA with opc := 0x213, phase := 1, index := 63, params := [1, 1] }
def copied (quiet : Bool) : Cmd := { full15.cmdA with phase := 1, quiet, slot := 3, token := 8, params := [0, 0, 0] }
def engS (k : Task → Task) : State := tileM handled fun t => k { t with part := 0x10202020 }
def lines3 : List (Nat × Nat) := (List.range 8).map fun j => (3, 0x200000 / 128 + j)

theorem witness_EnginesRun :
    ((engS fun k => { k with meq := [mm1 0] }).task? 0).map (fun k =>
      (k.meq, canStart (engS fun k => { k with meq := [mm1 0] }) 0 k .me (mm1 0), fmtInit (mm1 0).fmt)) = some ([mm1 0], true, true) ∧
    ((engS fun k => { k with meq := [accz1] }).task? 0).map (fun k => (canMove (engS fun k => { k with meq := [accz1] }) 0 k .me accz1, accz1.waiting)) = some (true, .none) ∧
    ((engS fun k => { k with meq := [mm1 1], oplines := lines3 }).task? 0).map (fun k =>
      (canMove (engS fun k => { k with meq := [mm1 1], oplines := lines3 }) 0 k .me (mm1 1), missingLines k (mm1 1))) = some (true, []) ∧
    ((engS fun k => { k with meq := [mm1 1] }).task? 0).map (fun k =>
      (lineWanted k (mm1 1), (missingLines k (mm1 1)).contains (0x200000 / 128))) = some (true, true) ∧
    (∀ q ∈ [true, false], ((engS fun k => { k with ceq := [copied q] }).task? 0).map (fun k =>
      (headDone .ce (copied q), k.engStop, poisonRollback (engS fun k => { k with ceq := [copied q] }) 0 (copied q),
        canPush k.fifo (headPushes .ce (copied q)))) = some (true, 0, false, true)) := by decide +kernel

/-- The same command's panel, line and end: their accesses are performed. -/
theorem witness_EnginesRun_accesses :
    (let s := engS fun k => { k with meq := [mm1 1], oplines := lines3 }
     (match readRanges (engCtx s 0 .me (mm1 1)) [panelA (mm1 1) 0] s with
      | .ok (a, s1) => match readRanges (engCtx s 0 .me (mm1 1)) (panelB (mm1 1) 0) s1 with
        | .ok (b, s2) => (poisonAt ([panelA (mm1 1) 0] ++ panelB (mm1 1) 0) (a ++ b)).isNone && (s2.task? 0).isSome
        | .error _ => false
      | .error _ => false) = true) ∧
    (let s := engS fun k => { k with meq := [mm1 1] }
     (match reach (engCtx s 0 .me (mm1 1)) s .load false 0x200000 128 with
      | .ok (_, s1) => (s1.task? 0).isSome
      | .error _ => false) = true) := by decide +kernel

/-- 12 R340: ACCZ zeroes a row at a time: a full accumulator row 63 of tile 1 becomes zero, the row above stays. -/
theorem test_accz : (match exec (.mePanelFold 0) (engS fun k => { k with meq := [accz1], acc := [(accKey 1 62 63, 9), (accKey 1 63 0, 7), (accKey 1 63 63, 8)] }) with
    | .next s => (s.task? 0).map fun k => (k.acc, k.meq.map (·.index))
    | _ => none) = some ([(accKey 1 62 63, 9)], [64]) := by decide +kernel

/-! ### Classes 5 and 6 -/

/-- The first cluster's shared window, and context 0, whose RECBASE lies in it at 0x400000. -/
def win0 : Nat := windowLoc 0 0
def context0 : List Host.Cell := [(0x0, 0x03), (0x2, 0x30), (0x300012, 0x40), (0x300015, 0xE0), (0x300016, 0xFF)]
/-- A bolt area of four records and eight pages: bolt 1 in use, reserved to 6, fell 5, one handle, page 2 its only page. -/
def records : List Host.Cell :=
  ([(0x400000, 0x04), (0x400004, 0x03), (0x40000B, 0x01), (0x40000D, 0xE0), (0x40000E, 0xFF), (0x400010, 0x08), (0x400014, 0x03),
    (0x40001A, 0x50), (0x40001D, 0xE0), (0x40001E, 0xFF), (0x400020, 0x05), (0x400400, 0x01), (0x400404, 0x04), (0x400408, 0x06),
    (0x40040C, 0x05), (0x400414, 0x01), (0x400418, 0x01), (0x400420, 0x01), (0x500000, 0x02), (0x500004, 0x01),
    (0x500008, 0x01)] : List Host.Cell).map fun q => (win0 + q.1, q.2)
def directory : List Host.Cell := [(0x1020000, 0x01), (0x1020002, 0x02)]
/-- A machine with that area; one whose pages lie in general memory, behind page tables for the 512 MiB from address 0. -/
def withCells (m : List Host.Cell) (s : State) : State :=
  { s.setCluster 0 { Cluster.cleared with win := 8 } with
    mem := m, areas := [(0, { base := 0x00FFE00000400000, ok := true, loc := 0x300010 })] }
def withArea : State → State := withCells (context0 ++ records ++ directory.map fun q => (win0 + q.1, q.2))
def generalPages : List Host.Cell :=
  [(0x0, 0x03), (0x2, 0x30), (0x300001, 0x10), (0x300002, 0x30), (0x300012, 0x40), (0x300015, 0xE0), (0x300016, 0xFF),
   (0x301000, 0x01), (0x301001, 0x20), (0x301002, 0x30), (0x302000, 0x01), (0x302001, 0x30), (0x302002, 0x30), (0x303000, 0x0F),
   (0x303007, 0x78)] ++ directory ++ records.filter fun q => q.1 ≠ win0 + 0x40000D ∧ q.1 ≠ win0 + 0x40000E
def flHome : FormQ := { fQ with d := .x 5, a := .x 6 }
def flB : FormQ := { fQ with d := .x 5, a := .x 6, b := .x 7 }
def flBC : FormQ := { fQ with d := .x 5, a := .x 6, b := .x 7, c := .x 8 }
def flAC : FormQ := { fQ with d := .x 5, a := .x 6, c := .x 8 }
def handles (b c : Word) (t : Strand) : Strand := regs [(6, 1), (7, b), (8, c)] (handled t)
def boltS (b c : Word) (g : Strand → Strand := id) (k : Task → Task := id) : State :=
  withArea (tileS (fun t => g (handles b c t)) k)
def boltHead (b : Word) : State := withCells generalPages (headS fun t => { handles b 0 t with xstat := 4 })
/-- Feed 1 of context 0, its ring in that window, holding one record. -/
def feed1 : Feed := { ring := 0x00FFE00000600000, size := 16, put := 1, get := 0, pasid := 0 }

/-- BFELL and BWAIT on a tile, BADDR on the headstock, FEEDWAIT: checks pass and the unit performs the operation. -/
theorem witness_HomePath :
    (Meets (.bfell flHome) .normal (boltS 0 0) ∧ (acquirePre (fnd (.bfell flHome) (boltS 0 0)) (own (.bfell flHome) (boltS 0 0))).toOption.isSome = true ∧
      Unmarked (own (.bfell flHome) (boltS 0 0)) [.x 6] ∧
      ((bfellOp 1 0).run ((fnd (.bfell flHome) (boltS 0 0)).setStrand 0 (own (.bfell flHome) (boltS 0 0)))).toOption.map (·.1) = some 5) ∧
    Afresh (own (.bfell flHome) (boltS 0 0)) ∧
    (Meets (.bwait flBC) .normal (boltS 5 0) ∧
      ((bwaitOp 1 5 0 false 0 0).run ((fnd (.bwait flBC) (boltS 5 0)).setStrand 0 (own (.bwait flBC) (boltS 5 0)))).toOption.map (·.1) =
        some 5) ∧
    (Meets (.baddr flB) .normal (boltHead 3) ∧ Afresh (own (.baddr flB) (boltHead 3)) ∧
      ((baddrHeadOp 1536 (own (.baddr flB) (boltHead 3)) 1 3 0).run
        ((fnd (.baddr flB) (boltHead 3)).setStrand 1536 (own (.baddr flB) (boltHead 3)))).toOption.map (·.1) = some 0x1040030) ∧
    (Meets (.feedwait flAC) .normal ((boltS 0 0).setFeed 1 feed1) ∧
      ((feedwaitOp 0 1 0 false 0).run ((fnd (.feedwait flAC) ((boltS 0 0).setFeed 1 feed1)).setStrand 0
        (own (.feedwait flAC) ((boltS 0 0).setFeed 1 feed1)))).toOption.map (·.1) = some 0) :=
  ⟨⟨meets (by decide +kernel), by decide +kernel, by decide +kernel, by decide +kernel⟩, afresh (by decide +kernel),
    ⟨meets (by decide +kernel), by decide +kernel⟩, ⟨meets (by decide +kernel), afresh (by decide +kernel), by decide +kernel⟩,
    meets (by decide +kernel), by decide +kernel⟩
where
  afresh {u : Strand} (h : u.home = .none ∧ u.answer = none ∧ u.checker = none ∧ u.replaying = false ∧ u.relog = []) : Afresh u :=
    ⟨fun p sub va => by rw [h.1]; exact fun h => FaultWait.noConfusion h, h.2⟩

/-- 13 R365, R367: BFELL reads the fell; BHOLD counts a handle. -/
theorem test_bfell_bhold :
    (ran (.bfell flHome) (boltS 0 0)).map (·.getX 5) = some 5 ∧
    (match exec (.bhold { fQ with a := .x 6 }) (boltS 0 0) with
      | .next s => s.readLocNat (win0 + 0x400414) 4
      | _ => 0) = 2 := by decide +kernel

/-- Waits that end now: for a fell of 6 of bolt 1, and for feed 1, which is empty. -/
def waiting (why : WaitWhy) (i : Instr) (t : Strand) : Strand :=
  { t with waitA := some { why, since := 0, deadline := some 100, instr := i, pc := 0x200000, entered := true } }
def stBwait : State := { boltS 6 100 (waiting .bwait (.bwait flBC)) with cycle := 100 }
def stFeedwait : State :=
  { (boltS 0 100 (waiting .feedwait (.feedwait flAC))).setFeed 1 { feed1 with put := 0 } with cycle := 100 }

theorem witness_TimedWaits :
    ((bwaiting stBwait 0).map (fun q => (q.1, q.2.ended stBwait.cycle)) = some (flBC, true) ∧ Meets (.bwait flBC) .normal stBwait ∧
      stBwait.focus = some ⟨0, .fetch⟩ ∧
      ((bwaitOp 1 6 100 true 0 0).run ((fnd (.bwait flBC) stBwait).setStrand 0 (own (.bwait flBC) stBwait))).toOption.map (·.1) =
        some 0x0600000000000005) ∧
    ((feedwaiting stFeedwait 0).map (fun q => (q.1, q.2.ended stFeedwait.cycle)) = some (flAC, true) ∧
      Meets (.feedwait flAC) .normal stFeedwait ∧
      ((feedwaitOp 0 1 100 true 0).run ((fnd (.feedwait flAC) stFeedwait).setStrand 0 (own (.feedwait flAC) stFeedwait))).toOption.map
        (·.1) = some 0x0600000000000000) ∧
    ((stFeedwait.feed? 1).map (·.pasid) = some (stFeedwait.pasidOf 0)) :=
  ⟨⟨by decide +kernel, meets (by decide +kernel), by decide +kernel, by decide +kernel⟩,
    ⟨by decide +kernel, meets (by decide +kernel), by decide +kernel⟩, by decide +kernel⟩

/-- One entry of the translation memory: slots 0 to 8191 of bolt 1. -/
def tm1 : TmEnt := { handle := 1, slog := 4, base := 0, va := 0x00FFE00001040000, limit := 8192, lock := false }
def withTm (k : Task) : Task := { k with tm := [{ tm1 with handle := 2 }, tm1] }
def flTm : FormQ := { fQ with a := .x 6, b := .x 7 }
def tmS (slot : Word) : State := boltS slot 0 id withTm
def areaOk (i : Instr) (s : State) : Bool := (tileArea (fnd i s) ((own i s).xa (.x 7)).toNat 1).toOption.isSome

theorem witness_TranslationMemory :
    (Meets (.baddr flB) .normal (tmS 8191) ∧ areaOk (.baddr flB) (tmS 8191) = true ∧
      (tmOf (fnd (.baddr flB) (tmS 8191)) 0).find? (fun e => e.hits 1 8191) = some tm1) ∧
    Meets (.tmlock flTm) .normal (tmS 0) ∧ Meets (.tmunlk flTm) .normal (tmS 0) ∧ areaOk (.tmunlk flTm) (tmS 0) = true ∧
    (Meets (.tmunlk flTm) .normal (tmS 8192) ∧
      (tmOf (fnd (.tmunlk flTm) (tmS 8192)) 0).find? (fun e => e.hits 1 8192) = none) ∧
    (Meets (.tminv flTm) .normal (tmS 0) ∧
      ((dropTm 0 ((tmOf (tmS 0) 0).filter (tmNamed 0 1 0))).run (fnd (.tminv flTm) (tmS 0))).toOption.isSome = true) :=
  ⟨⟨meets (by decide +kernel), by decide +kernel, by decide +kernel⟩, meets (by decide +kernel), meets (by decide +kernel),
    by decide +kernel, ⟨meets (by decide +kernel), by decide +kernel⟩, meets (by decide +kernel), by decide +kernel⟩

/-- 13 R371: BADDR of the last slot of the page. -/
theorem test_baddr : (ran (.baddr flB) (tmS 8191)).map (·.getX 5) = some 0x00FFE0000105FFF0 := by decide +kernel

/-- A copy of one page of bolt 1, for a tile's strand. -/
def cow1 : Cow :=
  { pasid := 0, handle := 1, src := 0, dst := 4, len := 64, sid := 0, task := (0, 0), slot := some (3, 2), first := 0, landed := none,
    wait := .none }
def stCow : State := { boltS 5 0 id tokens with cows := [(9, cow1)] }

theorem witness_BoltOperations :
    ((needBolt 0 0 1).run (boltS 5 0)).toOption.map (·.1) = some (⟨0, 0x00FFE00000400000⟩, 1) ∧
    ((Area.get ⟨0, 0x00FFE00000400000⟩ 1 bFell).run (boltS 5 0)).toOption.map (·.1) = some 5 ∧
    ((Area.get ⟨0, 0x00FFE00000400000⟩ 1 bHcnt).run (boltS 5 0)).toOption.map (·.1) = some 1 ∧
    ((Area.put ⟨0, 0x00FFE00000400000⟩ 1 bHcnt 2).run (boltS 5 0)).toOption.isSome = true ∧
    FMap.get? stCow.cows 9 = some cow1 ∧
    (match (needArea 0 0 0).run stCow with
      | .ok (q, u1) => match (cowMove q cow1).run u1 with
        | .ok (_, u2) => ((cowFinish 9 cow1 none).run u2).toOption.isSome
        | .error _ => false
      | .error _ => false) = true := by decide +kernel

/-! ### The loom -/

/-- A state with launches of one graph. -/
def loomS (s : State) (ls : List (Nat × Launch)) (g : Loom → Loom := id) : State :=
  { s with loom := g { Loom.reset with launches := ls, nextLaunch := 9, serial := 9,
                                       objects := [(1, { Object.new .graph 7 0 none true with children := ls.map (·.1) })] } }
/-- A launch accepted as number 2, not ready; with a descriptor read. -/
def launch2 : Launch := { Launch.new 0 0x20000 [] none 2 0 1 none with tasks := 1, gangSize := 1, part := 0x10102020, stack := 0x100, entry := 0x200000 }
def dep1 : Launch := { launch2 with deps := [1] }
def read2 : Launch := { launch2 with desc := some [] }
/-- Ready and checked; one whose gang was pre-empted. -/
def ready2 : Launch := { read2 with ready := true, checked := true, slack := some 0 }
def pre2 : Launch := { ready2 with gangs := [(0, { gang0 with cluster := none })], nextGang := 1 }

theorem witness_LaunchesRun_ready :
    (let s := loomS (tileS) [(1, { launch1 with terminal := some .failed }), (2, dep1)]
     s.launch? 2 = some dep1 ∧ depsOver s dep1 = true ∧ (s.depStates dep1).all (· == some .completed) = false) ∧
    (let s := loomS (tileS) [(2, read2)]
     depsOver s read2 = true ∧ (s.depStates read2).all (· == some .completed) = true ∧ stepInOrder s read2 = true ∧
      read2.desc.isSome = true) ∧
    (let s := loomS (tileS) [(2, ready2)]
     unchecked s = [] ∧ (match choice s.reserve with
      | .place q c => (q.lid, c)
      | _ => (0, 0)) = (2, 1)) ∧
    (match choice (loomS (tileS) [(2, pre2)]).reserve with
      | .restore q _ => q.lid
      | _ => 0) = 2 := by decide +kernel

/-- A gang of eight that fits in no cluster: every other cluster has a failed tile, and cluster 0 holds a task. -/
def big2 : Launch := { ready2 with tasks := 8, gangSize := 8 }
def failedTiles : List Nat := (List.range 23).map fun c => 8 * (c + 1)
def stBig : State :=
  let s := loomS (tileS) [(2, big2)]
  { s with tiles := s.tiles ++ failedTiles.map fun t => (t, { Tile.idle with failed := true }) }

theorem witness_LaunchesRun_reserve :
    (match candidates stBig with
      | q :: _ => decide (q.lid = 2) && (chooseCluster stBig q []).isNone
      | [] => false) = true ∧ stBig.loom.reserved = none ∧ unchecked stBig = [] ∧
    (match choice stBig.reserve with
      | .nothing => true
      | _ => false) = true := by decide +kernel

/-- Tile 0 holds task 0 of launch 1 and no strand. -/
def idle1 : State := (stLoom).dropStrand 0

theorem witness_LaunchesRun_end :
    (idle1.task? 0).map (fun k => (k.launch, taskEnd idle1 0, k.ending, k.tm)) = some (1, some .completed, .none, []) ∧
    (stLoom).launch? 1 = some launch1 ∧ launch1.terminal = none ∧ launch1.desc.isSome = true ∧ (stLoom).target 2 7 none = some (.object 1) ∧
    ((stLoom).object? 1).map (·.terminal) = some none := by decide +kernel

/-- A restartable launch whose task was lost. -/
def lost1 : Launch := { launch1 with restart := true, recs := [(0, { rec0 with phase := .unplaced })] }

/-- The same when its gang holds no tile. -/
def lostAll : Launch := { lost1 with gangs := [(0, { gang0 with cluster := none })] }

theorem witness_LaunchesRun_reexec :
    (let s := loomS (tileS) [(1, lost1)]
     FMap.get? lost1.gangs (0 / lost1.gangSize) = some gang0 ∧ (lost1.taskRec 0).phase = .unplaced ∧
      (lost1.taskRec 0).placedOnce = true ∧ (againTile s.reserve lost1 0 gang0).isSome = true ∧
      (s.reserve.snapshot lost1 0 true).1 = true) ∧
    (let s := loomS (tileS) [(1, lostAll)]
     FMap.get? lostAll.gangs (0 / lostAll.gangSize) = some { gang0 with cluster := none } ∧ lostAll.terminal = none ∧
      lostAll.cancelled = false ∧ lostAll.rest = false ∧
      (match choice s.reserve with
        | .restore q _ => (q.lid, q.g)
        | _ => (0, 9)) = (1, 0)) := by
  decide +kernel

/-- 05 R172, 16 R420: a failed task leaves its tile, and its launch carries the code. -/
theorem test_task_fails : (match exec (.taskComplete 0) (stLoom id launch1 fun k => { k with failedBy := some 0x10C }) with
    | .next s => ((s.task? 0).isNone, (s.strand? 0).isNone, (s.launch? 1).map fun l => (l.terminal, l.code))
    | _ => (false, false, none)) = (true, true, some (some .failed, 0x10C)) := by decide +kernel

/-- A launch placed at cycle 0, at the end of its window, with one byte for 8 accumulations folded. -/
def classed : Launch := { launch1 with firstPlaced := some 0, mb := 1, byteCount := 128 }
def late (c : Nat) (s : State) : State := { s with cycle := c }
def yielded (t : Strand) : Strand := { (handled t) with yielding := some 8 }

theorem witness_LoomClocks :
    (launch1.terminal = none ∧ launch1.ready = true) ∧
    (windowOver classed 80000 = true ∧ windowOver classed 79999 = false) ∧
    (let s := late 8 { stLoom with head := { (stLoom).head with level := 3 } }
     s.cycle % 8 = 0 ∧ gang0.cluster.isSome = true ∧ gang0.level ≠ max s.head.level.toNat gang0.powerLevel ∧
      FMap.get? launch1.gangs 0 = some gang0) ∧
    ((firstBy powerBefore ((runningGangs (stLoom)).filter fun q => decide (q.2.2.powerLevel < 7))).map (fun p => (p.1.1, p.2.1)) =
      some (1, 0)) ∧
    (((late 73 (stLoom yielded)).strand? 0).map (·.yielding) = some (some 8) ∧ 8 + 64 < (late 73 (stLoom yielded)).cycle) := by
  decide +kernel

/-! ### Pre-emption -/

/-- Launch 1 runs without a deadline; launch 2 is ready with slack 0 and needs eight tiles: every other tile is failed. -/
def stPre : State :=
  { loomS (stLoom handled) [(1, launch1), (2, big2)] with
    tiles := (stLoom handled).tiles ++ failedTiles.map fun t => (t, { Tile.idle with failed := true })
    mem := [(0x0, 0x03), (0x2, 0x30), (0x300001, 0x10), (0x300002, 0x30), (0x300020, 0x02)] }

theorem witness_Preempt_request :
    (preemption stPre).map (fun vs => vs.map fun v => (v.lid, v.g)) = some [(1, 0)] := by decide +kernel

/-- A task with a pre-emption request; its strand at a stop point since cycle 4; in its handler there. -/
def asked (k : Task) : Task := { k with preReq := some 0 }
def atStop (t : Strand) : Strand := { (handled t) with stop := some 4 }
def atStopH (t : Strand) : Strand := { (inHandler t) with stop := some 4 }
def stopped (t : Strand) : Strand := { (handled t) with run := .stopped }
def withCe (k : Task) : Task := { (asked k) with ceq := [{ full15.cmdA with phase := 1, params := [0, 0, 64], quiet := false, slot := 3 }] }
/-- Stalled in a CWAIT for WDINT cycles; in its handler. -/
def cwaiting (t : Strand) : Strand :=
  { t with waitA := some { why := .completion, since := 0, deadline := none, instr := .cwait (flId false), pc := 0x200000 } }
def popWait (t : Strand) : Strand :=
  { (handled t) with
    waitE := some { why := .lqEmpty, since := 0, deadline := none, instr := .nop (fS .e), pc := 0x200000 }
    ewin := [{ instr := .nop (fS .e), pc := 0x200000, seq := 3,
               snap := { pc := 0x200000, x := t.x, marks := [], loops := t.loops, perf0 := 0, stallA := 0, oplog := [] } }]
    seq := 5, pc := 0x200010 }

theorem witness_PreemptionRuns :
    (((stLoom atStop launch1 asked).strand? 0).bind fun t => ((stLoom atStop launch1 asked).task? 0).map fun k =>
      stopNow (stLoom atStop launch1 asked) 0 k t) = some true ∧
    (((stLoom atStopH launch1 asked).strand? 0).bind fun t => ((stLoom atStopH launch1 asked).task? 0).map fun k =>
      (stopNow (stLoom atStopH launch1 asked) 0 k t, mustPass k t 4)) = some (false, true) ∧
    ((stLoom stopped launch1 withCe).task? 0).map (fun k => (preempting (stLoom stopped launch1 withCe) 0 k, k.ended,
      engStopped k .ce, endsNow (stLoom stopped launch1 withCe) 0 k .ce, (queueOf k .ce).length)) = some (true, false, false, false, 1) ∧
    (let s := late 0x1000000 (stLoom handled launch1 asked)
     s.gangTiles 1 0 = [0] ∧ (s.task? 0).map (fun k => (k.preReq, k.nosafe)) = some (some 0, false) ∧
      0 + s.dev.wdint.toNat ≤ s.cycle ∧ notStopped s 0 = [0]) := by decide +kernel

theorem witness_PreemptionRuns_stalls :
    (let s := late 0x1000000 (stLoom fun t => cwaiting (handled t))
     ((s.strand? 0).map (settle s.cycle)).map (fun t => (stalled s 0 t && !t.inh && drainedBefore t (seqOf t .fetch) && t.ewin.isEmpty,
      (oldestWait t).map (·.1))) = some (true, some .fetch)) ∧
    (let s := late 0x1000000 (stLoom fun t => cwaiting (inHandler t))
     ((s.strand? 0).map (settle s.cycle)).map (fun t => (stalled s 0 t, t.inh)) = some (true, true)) ∧
    (let s := late 0x1000000 (stLoom popWait)
     ((s.strand? 0).map (settle s.cycle)).map (fun t => (stalled s 0 t, (oldestWait t).map (·.1), drainedBefore t (seqOf t .window), t.ewin.length)) =
      some (true, some .window, true, 1)) := by decide +kernel

/-- 16 R418: STALLED, subcode 1, with the opcode of the CWAIT in XVAL. -/
theorem test_stalled : (match exec (.watchdogStall 0) (late 0x1000000 (stLoom fun t => cwaiting (handled t))) with
    | .next s => (s.strand? 0).map fun t => (t.xcause, t.xval, t.xpc, t.pc)
    | _ => none) = some (0x11, 0x0100000000000226, 0x200000, 0x4000) := by decide +kernel

/-- A task of the smallest partition, stopped whole; its context has one
save slot, at the start of the
first cluster's shared window. -/
def small (k : Task) : Task := { (asked k) with part := 0, engStop := 3 }
def stSave : State :=
  { (stLoom stopped { launch1 with part := 0 } small).setCluster 0 { Cluster.cleared with win := 8 } with
    mem := [(0x0, 0x03), (0x2, 0x30), (0x30001D, 0xE0), (0x30001E, 0xFF), (0x300020, 0x01)] }

theorem witness_Preempt_save :
    (stSave.task? 0).map (fun k => (preempting stSave 0 k, k.ended, k.engStop, freeSave stSave k.pasid)) =
      some (true, false, 3, some 0) := by decide +kernel

theorem witness_Preempt_image :
    (stSave.task? 0).map (fun k =>
      ((writeImage 0 0 k).run ((stSave.flushAll 0).updTask 0 fun k => { k with ipins := [], l2pins := [] })).toOption.isSome) =
      some true := by decide +kernel

/-! ### Faults and recovery -/

def pairs0 (n : Nat) : List FaultPair := (List.range n).map fun k => { pasid := 1, page := BitVec.ofNat 64 (k * 0x20000), cause := 1, agents := 1, hits := 1 }
/-- A window open since cycle 0 with two pairs, due at cycle 3200, for buffer 0 and for buffer 1. -/
def stWin (odd : Bool) (busy : Bool) : State :=
  { late 3200 State.reset with
    faults := { FaultUnit.reset with pairs := pairs0 2, opened := some 0, seq := if odd then 7 else 8, busy0 := busy, busy1 := busy } }

theorem witness_FaultWindow :
    gathers 1 = true ∧ State.reset.faults.opened = none ∧
    (Memory.wf (stWin false false).mem = true ∧ windowDue (stWin false false) = true ∧ (stWin false false).faults.seq.getLsbD 0 = false) ∧
    (windowDue (stWin true false) = true ∧ (stWin true false).faults.seq.getLsbD 0 = true) ∧
    windowDue (stWin true true) = false ∧ windowDue (late 3199 (stWin true false)) = false := by decide +kernel

/-- 16 R432: the list is written to buffer 0: version, sequence number, count, and FAULTLIST is raised. -/
theorem test_fault_window : (match exec .faultWindowClose (stWin false false) with
    | .next s => (s.faults.busy0, s.faults.seq, s.head.intpend)
    | _ => (false, 0, 0)) = (true, 9, 2) := by decide +kernel

/-- Interrupts 1 and 3 pending, 3 enabled alone; a handler on strand 0. -/
def stInt : State := { headS superv with head := { State.reset.head with intpend := 0xA, intmask := 0x8 } }
def turned (t : Strand) : Strand :=
  { (handled t) with turn := 3, turnPc := 0x200100, rolled := false, rollback := some (1, 0, 0)
                     snap := some { x := t.x, v := t.v, p := t.p, marks := [], loops := t.loops, hctl := 1, fq := [5], bobbin := [],
                                    fifo := Vector.replicate 6 2 } }

theorem witness_RecoveryRuns :
    ((interruptDue stInt).map fun q => (q.2, q.1.xvec)) = some (3, 0x4000) ∧
    sensorDue (late 160000 State.reset) = true ∧ (str stInt).early = [] ∧ (List.replicate 32 (0#16)).length = 32 ∧
    ({ State.reset with host := { State.reset.host with firmware := some { entry := 0x1000, loc := 0, bytes := [] } } } : State).host.firmware.isSome = true ∧
    0 + 32 ≤ tier0Size ∧ (State.reset.tile 191).failed = false ∧ (State.reset.tile 191).shadow = none ∧
    (stLoom turned).unpicking 0 = false ∧
    (((stLoom turned).strand? 0).map fun t => (t.rollback.isSome, t.rolled, t.ewin.isEmpty, drained (settle 0 t))) = some (true, false, true, true) ∧
    (((stLoom fun t => { (turned t) with rolled := true }).strand? 0).map fun t => (t.rolled, t.snap.isSome)) = some (true, true) ∧
    (((stLoom turned).task? 0).map fun k => (k.ended, refetched k 0 3)) = some (false, true) := by decide +kernel

/-- 19 R457: the lowest interrupt that is pending and enabled is taken, and stays pending. -/
theorem test_interrupt : (match exec .headstockInterrupt stInt with
    | .next s => (s.strand? 1536).map fun t => (t.xcause, t.pc, s.head.intpend)
    | _ => none) = some (0x23, 0x4000, 0xA) := by decide +kernel

/-- 17 R442: the turn begins again at its address, with its snapshot. -/
theorem test_rollback_ends : (match exec (.rollback 0) (stLoom fun t => { (turned t) with rolled := true, hctl := 0, pc := 0x200400 }) with
    | .next s => (s.strand? 0).map fun t => (t.pc, t.hctl, t.fq, ((s.task? 0).map fun k => k.fifo[0]))
    | _ => none) = some (0x200100, 1, [5], some 2) := by decide +kernel

/-! ### Streams -/

/-- A control block with fields set. -/
def block (l : List (RecField × Nat)) : List Byte := l.foldl (fun b q => setField b q.1.1 q.1.2 q.2) (List.replicate 512 0)
/-- Stream 5 of context 0: live, period 1000, its encoder queue and input ring in the first cluster's window. -/
def block5 : List (RecField × Nat) :=
  [(cState, 1), (cStream, 5), (cPeriod, 1000), (cDeadline, 2000), (cCurdl, 1500), (cStartcyc, 400), (cEqdepth, 4), (cEq, 0x00FFE00000000000),
   (cEput, 1), (cIring, 0x00FFE00000010000), (cIsize, 16), (cIput, 3), (cOring, 0x00FFE00000020000), (cOsize, 4096)]
def stream5 : Stream := { Stream.new (block block5) 0 [] with job := some 3 }
def job3 : Object := Object.new .job 9 0 none false
def winS : State := State.reset.setCluster 0 { Cluster.cleared with win := 8 }
def streamS (t : Stream) (g : Loom → Loom := id) : State :=
  { (late 1000 winS).setStream 5 t with loom := g { Loom.reset with objects := [(3, job3)] } }
def step4 (l : Loom) : Loom :=
  { l with objects := [(3, job3), (4, { Object.new .step 1 0 (some 3) true with terminal := some .completed })] }
def stepping : Stream := { stream5 with step := some 4 }

theorem witness_StreamsRun :
    stepReleased (streamS stream5) stream5 = true ∧
    (stepOver (late 1600 (streamS stepping step4)) stepping = true ∧ stepping.get cCurdl < 1600) ∧
    (takeDue (streamS stream5) 0).map (·.1) = some 5 ∧
    (staleDesc stream5 (List.replicate 32 0) = true ∧
      staleDesc { stream5 with heads := [{ h := 0, q := 0, kind := 0 }] } (List.replicate 32 0) = false) := by decide +kernel

/-- An input in order, a take that has been read and dropped: their accesses are performed. -/
def input0 : StreamInput := { error := false, pts := 0, source := 0, addr := 0, width := 0, height := 0, pitch := 0 }
def dropTake : Take :=
  { stream := 5, desc := List.replicate 32 0, rung := 0, setgen := 0, frame := 0, readDone := true, payload := [], key := false, dropped := true,
    oversize := false,
    wait := .none, since := 0 }
def freshTake : Take := { dropTake with readDone := false, dropped := false }
def decode0 : DecodeJob :=
  { stream := 5, addr := 0x00FFE00000040000, len := 64, pts := 0, out := 0x00FFE00000080000, pasid := 0, cmd := 1, wait := .none }
def isOk : UnitRes × State → Bool
  | (.ok _, _) => true
  | _ => false

/-- Encoder 0 with one take. -/
def taking (k : Take) : State := (streamS stream5).setTakes 0 [k]

theorem witness_StreamsRun_accesses :
    isOk (unitReach (streamS stream5) (unitAgent 0 false) .stream .none .store 0x00FFE000000100C0 64) = true ∧
    isOk (reachRows (unitAgent 0 false) .none .load (frameRows freshTake.desc) [] (streamS stream5)) = true ∧
    isOk (unitReach (streamS stream5) (unitAgent 0 false) .video .none .load 0x00FFE00000020000 72) = true ∧
    (recordOf stream5 dropTake).length = 32 ∧
    isOk (unitReach (streamS stream5) (unitAgent 0 false) .video .none .store 0x00FFE00000020080 32) = true ∧
    isOk (unitReach (streamS stream5) (unitAgent 0 false) .video .none .load decode0.addr.toNat decode0.len) = true ∧
    ((streamS stream5).liveStream 5).isSome = true ∧ stream5.idle = true ∧ stream5.get cFlags % 2 = 0 ∧
    stream5.get cPtsbase + stream5.get cTake * stream5.get cPtsstep ≤ input0.pts.toNat ∧
    ((taking dropTake).takes 0)[0]? = some dropTake ∧ encodeOver (taking dropTake) dropTake = true ∧
    ((taking freshTake).takes 0)[0]? = some freshTake ∧ encodeOver (taking freshTake) freshTake = true := by decide +kernel

/-! ### The host's side -/

/-- A queue of context 0: its QCB at 0x10000, a ring of 16 packets in the first cluster's window, packet 4 next of 5. -/
def qcbFields : List (Nat × Nat × Nat) :=
  [(0x10000, 8, 0x00FFE00000000000), (0x10008, 4, 16), (0x1000C, 1, 1), (0x10010, 8, 4), (0x10018, 8, 5)]
def poke (s : State) (l : List (Nat × Nat × Nat)) : State := l.foldl (fun s q => s.writeLocNat q.1 q.2.1 q.2.2) s
def queue7 : HostQueue := { pasid := 0, qcb := 0x10000, absent := false, tail := 0, wait := .none }
def readyDev (s : State) : State := { s with dev := { s.dev with ready := true, jsize := 12, jbase0 := 0x100000, jbase1 := 0x4000000000 } }
def hostS (l : List (Nat × Nat × Nat) := []) (ctxs : List FetchCtx := []) : State :=
  let s := readyDev (poke winS (qcbFields ++ l))
  { s with host := { s.host with queues := [(7, queue7)], ctxs } }
/-- A packet: opcode, flags and class, token, arguments. -/
def packet (opc irq cls token : Nat) (args : List Nat) : List Byte :=
  takeBytes (leBytes 1 opc ++ leBytes 1 irq ++ leBytes 6 cls ++ leBytes 8 token ++ args.flatMap (leBytes 8)) 0 64
def got4 (p : List Byte) : List FetchCtx := [{ q := 7, got := [(4, p)] }]
def command (opc : Nat) (args : List Nat) : HostCmd :=
  { q := 7, pasid := 0, ring := 3, packet := packet opc 0 0 0 args, obj := 1, started := false, done := none, written := false, acc := 0,
    progress := 0, wait := .none, vec := 0xFFFF, held := [] }
def cmdS (c : HostCmd) (s : State := hostS) : State := s.setCmd 1 c

theorem witness_HostQueuesRun :
    (Memory.wf (hostS).mem = true ∧ (hostS).queue? 7 = some queue7 ∧ qcbOk (hostS) 0x10000 = true ∧ qcbState (hostS) 0x10000 = qRun ∧
      qcbHead (hostS) 0x10000 ≤ (20#64).toNat ∧ (20#64).toNat ≤ qcbHead (hostS) 0x10000 + qcbSize (hostS) 0x10000 ∧
      ¬ (21#64).toNat ≤ qcbHead (hostS) 0x10000 + qcbSize (hostS) 0x10000 ∧ ¬ qcbHead (hostS) 0x10000 ≤ (3#64).toNat) ∧
    (State.reset.queue? 7 = none ∧ (match entryOf State.reset (State.reset.dev.qtroot.toNat + 8 * (queuePasid State.reset 7).toNat) with
      | .ignored => true
      | _ => false) = true) ∧
    qcbState (hostS [(0x1000C, 1, 2)]) 0x10000 = qFetchFault ∧
    (fetchDue (hostS [] [{ q := 7, got := [] }]) 7 = true ∧ runningQcb (hostS) 7 = some 0x10000 ∧ wanted (hostS) 0x10000 { q := 7, got := [] } = [4]) := by
  decide +kernel

theorem witness_HostQueuesRun_fetch :
    (match unitAccess (hostS) (unitAgent 0 false) .load 0x00FFE00000000100 64 with
      | (.parts _, _) => true
      | _ => false) = true ∧
    (match unitAccess (hostS [(0x10000, 8, 0)]) (unitAgent 0 false) .load 0x100 64 with
      | (.fault sub _, s) => gathers sub && Memory.wf s.mem
      | _ => false) = true ∧
    (acceptable (hostS [] (got4 (packet 0xFF 9 0 0 []))) 7).map (fun r => packetOk r.2.2.2) = some false ∧
    (acceptable (hostS [] (got4 (packet 0x0C 0 0 0 []))) 7).map (fun r => (packetOk r.2.2.2, r.2.2.1)) = some (true, 4) ∧
    journalRoom (hostS) = true ∧ repeated (hostS) 0 0 = none ∧
    repeated (cmdS { command 0x0C [] with packet := packet 0x0C 0 0 77 [] }) 0 77 = some 0 ∧
    terminalDue (cmdS { command 0x0C [] with done := some (.completed, 0) }) 1 = some (.completed, 0) := by decide +kernel

def closeOk : HostCmd := command 0x02 [2, 7]
def closeBad : HostCmd := command 0x02 [9, 7]

theorem witness_HostCommandsRun :
    HostRows ⟨.close, 0x02, hostCloseOp, true⟩ ∧
    (startable (cmdS closeOk) 1 0x02 = some closeOk ∧ closeOk.wait.isFailed = false ∧
      ((hostCloseOp 1 closeOk).run (cmdS closeOk)).toOption.isSome = true) ∧
    (startable (cmdS closeBad) 1 0x02 = some closeBad ∧
      (match (hostCloseOp 1 closeBad).run (cmdS closeBad) with
        | .error (.halt h) => decide (h = badArg)
        | _ => false) = true) ∧
    startable (cmdS { closeOk with wait := .failed 1 0 }) 1 0x02 = some { closeOk with wait := .failed 1 0 } :=
  ⟨by simp [HostRows], by decide +kernel, by decide +kernel, by decide +kernel⟩

def graphS (s : State) : State := { s with loom := { s.loom with objects := [(1, Object.new .graph 7 0 none false)] } }

theorem witness_HostCommandEffects :
    (startable (cmdS closeOk) 1 0x02 = some closeOk ∧ closeOk.arg 0 = 2 ∧ closeOk.arg 1 = 7 ∧
      (cmdS closeOk).liveObject (levelOf 2) 7 0 = none ∧ (graphS (cmdS closeOk)).liveObject (levelOf 2) 7 0 = some 1) ∧
    (let c := command 0x03 [0, 2 ^ 32 + 1]
     startable (cmdS c) 1 0x03 = some c ∧ c.arg 0 ≤ 4 ∧ c.arg 1 ≠ 0) ∧
    (let c := command 0x05 [4095, 0x1000, 16, 0]
     startable (cmdS c) 1 0x05 = some c ∧ c.arg 3 = 0 ∧ c.arg 0 < 4096 ∧ (cmdS c).feed? 4095 = none ∧ c.arg 1 % 64 = 0 ∧
      ringSizeOk (c.arg 2) = true ∧ inGeneral (c.arg 1) (64 * c.arg 2) = true) ∧
    (let c := command 0x05 [1, 0, 0, 1]
     startable (cmdS c ((hostS).setFeed 1 feed1)) 1 0x05 = some c ∧ (cmdS c ((hostS).setFeed 1 feed1)).feed? 1 = some feed1) ∧
    (let c := command 0x09 [7, 5, 0x00FFE00000040000, 64, 0, 0x00FFE00000080000]
     startable (cmdS c ((hostS).setStream 5 stream5)) 1 0x09 = some c ∧
      ((cmdS c ((hostS).setStream 5 stream5)).liveStream 5).map (·.pasid) = some c.pasid) ∧
    (let c := command 0x0B [1, 0, 0]
     startable (cmdS c) 1 0x0B = some c ∧ c.arg 0 < 2 ^ 20) := by decide +kernel

theorem witness_HostCommandEffects_more :
    (startable (cmdS (command 0x0C [])) 1 0x0C = some (command 0x0C []) ∧ earlierOver (cmdS (command 0x0C [])) 1 7 = true) ∧
    (let c := command 0x0D [0x00FFE00000000008, 9]
     startable (cmdS c) 1 0x0D = some c ∧ c.arg 0 % 8 = 0 ∧
      (match unitAccess (cmdS c) (unitAgent 0 false) .store (c.arg 0) 8 with
        | (.parts _, _) => true
        | _ => false) = true) ∧
    (startable (cmdS (command 0x80 [])) 1 0x80 = some (command 0x80 []) ∧ (command 0x80 []).opc = 0x80) := by decide +kernel

/-! ### Ports and resets -/

/-- Context 5 takes fabric accesses: its CCB at 0x300000, a 512 MiB page at 0, one collective buffer of `op` in the first
cluster's window. -/
def domS (op : Nat) : State :=
  poke winS [(40, 8, 0x300003), (0x300000, 8, 0x301000), (0x301000, 8, 0x302001), (0x302000, 8, 0x303001), (0x303000, 8, probePte.toNat),
             (0x300024, 4, 2), (0x300030, 8, 0x304000), (0x300038, 4, 1), (0x304000, 8, 0x00FFE00000000000), (0x304008, 4, 4096),
             (0x30400C, 1, op), (0x304010, 2, 0), (0x304012, 2, 4)]
def req (op : FabricOp) : FabricReq := { src := 1, pasid := 5, user := false, off := 0x2000#40, op }
def flit (k : BitVec 32) : Flit := { src := 1, pasid := 5, user := false, off := 0x8000000040#40, words := List.replicate 16 k, count := 1 }

theorem witness_DevicePorts :
    (clusterBusy State.reset 23 = false ∧ (8#64).extractLsb' 0 4 ≤ 8#4 ∧ 8#4 < (9#64).extractLsb' 0 4) ∧
    headOnly 0x10 = true ∧
    (tier0Size - 8) % 8 = 0 ∧ tier0Size - 8 < bar2Size State.reset ∧ State.reset.dev.hwbase.toNat + (tier0Size - 8) + 8 ≤ tier0Size ∧
    (((5#20 : BitVec 20), pageOf (0x20000#64).toNat) ∈ ({ State.reset with out := { State.reset.out with priOut := [(5, 1)] } } : State).out.priOut.take pagesOut) ∧
    (match fabricTarget (domS 1) (req (.write [1, 2])) .store 2 with
      | (.ok _, _) => true
      | _ => false) = true ∧
    (match fabricTarget (domS 1) (req (.atomic 0x120 .s64 1 0)) .atomic 8 with
      | (.ok [_], _) => true
      | _ => false) = true := by decide +kernel

theorem witness_DevicePorts_flit : ([1, 2, 3, 4].all fun op =>
    match aperture (domS op) 5 false (flit 1).off.toNat 64 with
      | (.ok (c, [p]), s) => decide (c.op = op ∧ p.len = 64 ∧ (p.loc + 64 ≤ c.loc + 0x1C ∨ c.loc + 0x20 ≤ p.loc) ∧ c.expect = 0) && Memory.wf s.mem
      | _ => false) = true := by decide +kernel

/-- 20 R491: 1.0 folded twice by the sum is 2.0, and two flits are counted. -/
theorem test_flit_sum : (match exec (.collectiveFlit (flit 0x3F800000)) (domS 2) with
    | .next s => (match exec (.collectiveFlit (flit 0x3F800000)) s with
      | .next t => (t.readLocNat (windowLoc 0 0x40) 4, t.readLocNat 0x30401C 4)
      | _ => (0, 0))
    | _ => (0, 0)) = (0x40000000, 2) := by decide +kernel

/-- A device whose journal holds one entry, poisoned in both copies. -/
def journalS : State := { State.reset with poison := [0x8000, 0x10000], dev := { State.reset.dev with jsize := 12, jput := 1, jbase0 := 0x100000, jbase1 := 0x200000 } }

theorem witness_ResetsRun :
    (State.reset.host.off = false ∧ State.reset.loom.launches = [] ∧ jsizeOk State.reset.dev.jsize.toNat = false) ∧
    (journalS.loom.launches = [] ∧ jsizeOk journalS.dev.jsize.toNat = true ∧ recoverAll (journalS.warm 1) = none ∧
      recoverAll (journalS.warm 2) = none) ∧
    awaitsImage State.reset = true ∧ Memory.wf State.reset.mem = true ∧
    ({ State.reset with host := { State.reset.host with off := true } } : State).agenda = [] := by decide +kernel

/-! ### Decoding, and a step -/

theorem witness_EncodeDecode :
    let i : Instr := .muladd { fS .e with ty := .z32, d := .x 33, a := .x 34, b := .x 35, c := .xq }
    WellFormed .tile i ∧ encode i = some (wordE 0x005 2 0x21 0x22 0x23 0x91 0 0) ∧
      reads .tile (wordE 0x005 2 0x21 0x22 0x23 0x91 0 0) = some i := by
  refine ⟨?_, by decide +kernel, by decide +kernel⟩
  simp only [WellFormed]; decide +kernel

def goesOn : Answer → Bool
  | .next _ => true
  | _ => false

theorem witness_CanonicalMemory : Canonical State.reset ∧ (∃ s, step State.reset = .next s) := by
  refine ⟨?_, ?_⟩
  · simp only [Canonical]; decide +kernel
  · cases h : step State.reset with
    | next s => exact ⟨s, rfl⟩
    | fault e => exact absurd (show goesOn (step State.reset) = true by decide +kernel) (by simp [h, goesOn])
    | refused e => exact absurd (show goesOn (step State.reset) = true by decide +kernel) (by simp [h, goesOn])

/-- A word placed where the next step fetches, and what a fetch at its PC brings. -/
def placed (w : IWord) : State := State.reset.withFetchWord 128 w.toNat
def taken (s : State) : State := { s with agenda := [] }
def fetchedAt (s : State) (sid : Nat) : Fetched × State :=
  match s.strand? sid with
  | some t => fetchWord s (agentOf s sid t) t.pc
  | none => (.wait, s)

/-- ADD.s64 x5, x6, 7; the same on E with x33, x34; a word with a reserved scoreboard. -/
def addA : IWord := fields 7 0 1 0 0 6 5 0 0x000 0 7 0 0 1 0 0 0 0 1
def addE : IWord := fields 7 0 1 0 0 34 33 0 0x000 0 7 0 0 0 0 0 0 0 1
def badA : IWord := fields 0 0 0 0 0 0 0 0 0x080 0 7 0 0 1 0 0 7 0 1

theorem witness_StepRunsTheDecoded :
    (placed addA).agenda = [.issue 0 .a] ∧ (placed addA).host.off = false ∧
    ((placed addA).strand? 0).map (fun t => (runnable (taken (placed addA)) 0 t, t.ewin, limitOk t, t.pc.toNat % 16)) =
      some (true, [], true, 0) ∧ issueOpen (taken (placed addA)) 0 = true ∧
    (match fetchedAt (taken (placed addA)) 0 with
      | (.word w, s1) => decide (w = addA) && (match decode .tile w, s1.strand? 0 with
          | .ok i, some t => decide (sliceAt i = some .a) && !comesToStop s1 0 t i
          | _, _ => false)
      | _ => false) = true ∧
    (placed addE).agenda = [.issue 0 .e] ∧
    (match fetchedAt (taken (placed addE)) 0 with
      | (.word w, s1) => (match decode .tile w, s1.strand? 0 with
          | .ok i, some t => decide (sliceAt i = some .e) && !comesToStop s1 0 t i
          | _, _ => false)
      | _ => false) = true ∧
    (match fetchedAt (taken (placed badA)) 0 with
      | (.word w, _) => decide (refuses .tile w = some .sched ∧ wordSlice w = .a)
      | _ => false) = true := by decide +kernel

theorem witness_StepRunsTheDecoded_fetch :
    (match ((taken (placed addA)).strand? 0).map (fun t => (t, agentOf (taken (placed addA)) 0 t)) with
      | some (t, a) => (match fetchPart (taken (placed addA)) a t.pc.toNat with
          | (.part p, s1) => decide (p.loc % 128 = t.pc.toNat % 128 ∧ ilineFind (icacheOf s1 a.tile) a.pasid (t.pc.toNat / 128 * 128) = none ∧
              s1.line? a.tile (p.loc / 128) = none ∧ s1.memPoison (p.loc / 128) = 0)
          | _ => false)
      | none => false) = true ∧
    (((tileS crossed).strand? 0).map fun t => t.ewin.isEmpty) = some false := by
  decide +kernel

/-! ### Whole steps -/

/-- A register after one step from reset with a word placed. -/
def after (w : IWord) (r : Fin 64) (g : Strand → Strand := id) : Option Word :=
  match step ((placed w).updStrand 0 g) with
  | .next s => (s.strand? 0).map fun t => t.x.get r
  | _ => none

/-- 03 R79: x6 + 7, and a difference that wraps: 0 − 1. -/
theorem test_step_add : after addA 5 (regs [(6, -3)]) = some 4 := by decide +kernel
theorem test_step_sub : after (wordA 0x001 0 5 6 7 0 0 0) 5 (regs [(7, 1)]) = some (-1) := by decide +kernel

/-- 03 R79: MULADD.z32 of 0xFFFFFFFF × 2 + 3 keeps 32 bits, with zeros above. -/
theorem test_step_muladd :
    after (fields 0 0 0 0x24 0x23 0x22 0x21 2 0x005 0 7 0 0 0 0 0 0 0 1) 33 (regs [(34, 0xFFFFFFFF), (35, 2), (36, 3)]) = some 1 := by
  decide +kernel

/-! ### Operations of class 5, clause by clause -/

/-- What follows an operation, a reading and a writing of record fields, when they can be performed. -/
def thenH {α : Type} (m : Hm α) (s : State) (k : α → State → Bool) : Bool := match m.run s with
  | .ok (a, s1) => k a s1
  | .error _ => false
def holdsB (ar : Area) (l : List (Nat × RecField × Nat)) (s : State) (k : State → Bool) : Bool := match holdsFields ar l s with
  | some s1 => k s1
  | none => false
def writesB (ar : Area) (l : List (Nat × RecField × Nat)) (s : State) (k : State → Bool) : Bool := match writesFields ar l s with
  | some s1 => k s1
  | none => false

/-- A home-path instruction starts, with what its row reads and does before. -/
def preOf (row : HomeRow) (fl : FormQ) (s : State) : Res State :=
  (row.spec fl).pre (fnd (row.make fl) s) (own (row.make fl) s)
def startB (row : HomeRow) (fl : FormQ) (s : State) : Bool :=
  let u := own (row.make fl) s
  issuesIn (row.make fl) .normal s && decide (u.home = .none ∧ u.answer = none ∧ u.checker = none ∧ u.replaying = false ∧ u.relog = []) &&
    decide (Unmarked u (homeReads (row.spec fl) fl)) && (preOf row fl s).toOption.isSome
def started (row : HomeRow) (fl : FormQ) (s : State) : State := (got (preOf row fl s) s).setStrand (foc s).sid (own (row.make fl) s)

abbrev Starts (row : HomeRow) (fl : FormQ) (s : State) : Prop :=
  HomeStarts row fl s (foc s) (raw (row.make fl)) (str s) (own (row.make fl) s) (started row fl s)

theorem startsAt {row : HomeRow} {fl : FormQ} {s : State} (h : startB row fl s = true) : Starts row fl s := by
  simp only [startB, Bool.and_eq_true, decide_eq_true_eq] at h
  exact ⟨_, _, meets h.1.1.1, witness_HomePath.afresh h.1.1.2, h.1.2, got_eq (d := s) h.2, rfl⟩

/-- Bolt 1 with fields of the area changed, on a tile and on the headstock; the handle it names, and what comes after. -/
def ar1 : Area := ⟨0, 0x00FFE00000400000⟩
def boltP (b c : Word) (l : List (Nat × Nat × Nat)) : State := poke (boltS b c) l
def headP (b : Word) (l : List (Nat × Nat × Nat)) : State := poke (boltHead b) l
def named1 (slot : Nat) (s : State) (k : State → Bool) : Bool :=
  thenH (needBolt 0 slot 1) s fun r s1 => decide (r = (ar1, 1)) && k s1
/-- Fields of record 1 and of the area's header, for `boltP`: FELL, RSV, FLOOR, HCNT, SLOG, the first page's entry; HFREE, NFREE. -/
def pFell : Nat := win0 + 0x40040C
def pRsv : Nat := win0 + 0x400408
def pFloor : Nat := win0 + 0x400410
def pHcnt : Nat := win0 + 0x400414
def pSlog : Nat := win0 + 0x400404
def pEntry : Nat := win0 + 0x1020000
def pHfree : Nat := win0 + 0x400004
def pNfree : Nat := win0 + 0x400020

/-- BNEW of the smallest and the largest slot, with a handle free and with none. -/
theorem witness_Bolt_bnew :
    Starts bnewRow { flB with a := .x 0 } (boltP 16 0 []) ∧ Starts bnewRow { flB with a := .x 0 } (boltP 4 0 [(pHfree, 4, 0)]) ∧
    (thenH (needArea 0 0 0) (started bnewRow { flB with a := .x 0 } (boltP 16 0 [])) fun ar s1 =>
      holdsB ar [(0, hHfree, 3), (3, bNext, 0)] s1 fun s2 => writesB ar [(0, hHfree, 0)] s2 fun s3 =>
        thenH (uZero ar.pasid (ar.base + 1024 * 3) 1024) s3 fun _ s4 => writesB ar ([(3, bState, 1), (3, bSlog, 16), (3, bHcnt, 1)] ++
          (List.range 8).map (fun d => (3, bDir d, noPage)) ++ [(3, bCowpg, noPage)]) s4 fun _ => true) = true ∧
    (thenH (needArea 0 0 0) (started bnewRow { flB with a := .x 0 } (boltP 4 0 [(pHfree, 4, 0)])) fun ar s1 =>
      holdsB ar [(0, hHfree, 0)] s1 fun _ => true) = true :=
  ⟨startsAt (by decide +kernel), startsAt (by decide +kernel), by decide +kernel, by decide +kernel⟩

/-- BRSV: a slot of the page there is; a slot of a page shared by a fork, which is copied; a copy that has landed. -/
theorem witness_Bolt_brsv :
    Starts brsvRow flB (boltP 1 0 []) ∧ Starts brsvRow flB (headP 1 []) ∧
    (named1 0 (started brsvRow flB (boltP 1 0 [])) fun s1 => thenH (reserve ar1 1 1) s1 fun r s2 =>
      decide (r = (0, 6, none)) && ((s1.task? 0).bind Task.freeSlot).isSome && (s2.task? 0).isSome) = true ∧
    (named1 0 (boltP 1 0 [(pEntry, 8, 0x2002D)]) fun s1 => thenH (reserve ar1 1 1) s1 fun r _ =>
      decide (r.1 = 0 ∧ r.2.1 = 6) && r.2.2.isSome) = true ∧
    (named1 0 (started brsvRow flB (headP 1 [])) fun s1 => thenH (reserve ar1 1 1) s1 fun r _ =>
      decide (r = (0, 6, none)) && (headCow (started brsvRow flB (headP 1 [])) 1536).isNone) = true ∧
    (let s := { headP 1 [] with cows := [(9, { cow1 with sid := 1536, slot := none, landed := some true })] }
     startB brsvRow flB s && (headCow (started brsvRow flB s) 1536).any (fun q => q.2.landed == some true)) = true :=
  ⟨startsAt (by decide +kernel), startsAt (by decide +kernel), by decide +kernel, by decide +kernel, by decide +kernel, by decide +kernel⟩

/-- A run: one slot too many for the window and the last that fits it; one past the bolt's end; no page free; a page taken. -/
theorem witness_Bolt_reserve :
    (holdsB ar1 [(1, bRsv, 6), (1, bFell, 5), (1, bSlog, 4)] (boltP 0 0 []) fun _ => decide (5 + 4096 < 6 + 4096) && !decide (5 + 4096 < 6 + 4095)) = true ∧
    (holdsB ar1 [(1, bRsv, 0x40000), (1, bFell, 0x40000), (1, bSlog, 16)] (boltP 0 0 [(pRsv, 4, 0x40000), (pFell, 4, 0x40000), (pSlog, 1, 16)])
      fun _ => decide (maxsOf 16 < 0x40000 + 1)) = true ∧
    (holdsB ar1 [(1, bRsv, 6), (1, bFell, 5), (1, bSlog, 4)] (boltP 0 0 [(pEntry, 8, 0), (pNfree, 4, 0)]) fun s2 =>
      thenH (ar1.entries 1 [0]) s2 fun ents s3 => thenH (ar1.absentDirs 1 [0]) s3 fun dirs s4 =>
        holdsB ar1 [(0, hNfree, 0)] s4 fun _ => decide (ents = [(0, 0)] ∧ dirs = 0)) = true ∧
    (holdsB ar1 [(1, bRsv, 6), (1, bFell, 5), (1, bSlog, 4)] (boltP 0 0 [(pEntry, 8, 0)]) fun s2 =>
      thenH (ar1.entries 1 [0]) s2 fun ents s3 => thenH (ar1.absentDirs 1 [0]) s3 fun _ s4 => holdsB ar1 [(0, hNfree, 5)] s4 fun s5 =>
        thenH (ents.forM (ar1.ownPage 1)) s5 fun _ s6 => writesB ar1 [(1, bRsv, 7)] s6 fun _ => true) = true := by decide +kernel

/-- BCMT and BVOID of the last slot reserved; BFELL; BWAIT for the fell, and for one slot more. -/
theorem witness_Bolt_close :
    Starts bcmtRow flBC (boltP 5 1 []) ∧ Starts bvoidRow flBC (boltP 5 1 []) ∧
    Starts bfellRow flHome (boltP 0 0 []) ∧ Starts bwaitRow flBC (boltP 5 0 []) ∧
    (named1 5 (started bcmtRow flBC (boltP 5 1 [])) fun s1 =>
      holdsB ar1 [(1, bRsv, 6), (1, bSlog, 4), (1, bHole, 0), (1, bFell, 5)] s1 fun s2 =>
        writesB ar1 [(1, bHole, (closeSlot 0 5 5).1), (1, bFell, (closeSlot 0 5 5).2)] s2 fun _ => !isClosed 0 5 5) = true ∧
    (named1 5 (started bvoidRow flBC (boltP 5 1 [])) fun s1 =>
      holdsB ar1 [(1, bRsv, 6), (1, bSlog, 4), (1, bHole, 0), (1, bFell, 5)] s1 fun s2 =>
        thenH (closeRun ar1 1 4 (some 0) [5] (0, 5, 0)) s2 fun x s3 =>
          writesB ar1 [(1, bHole, x.1), (1, bFell, x.2.1)] s3 fun _ => decide (x.2.2 = 1)) = true ∧
    (named1 0 (started bfellRow flHome (boltP 0 0 [])) fun s1 => holdsB ar1 [(1, bFell, 5)] s1 fun _ => true) = true ∧
    (named1 0 (boltP 6 100 []) fun s1 => holdsB ar1 [(1, bFell, 5)] s1 fun _ => true) = true :=
  ⟨startsAt (by decide +kernel), startsAt (by decide +kernel), startsAt (by decide +kernel), startsAt (by decide +kernel),
    by decide +kernel, by decide +kernel, by decide +kernel, by decide +kernel⟩

/-- BFORK at the fell: a child; with no handle free; with no page free for its directory. -/
theorem witness_Bolt_bfork :
    Starts bforkRow flB (boltP 5 0 []) ∧
    (named1 0 (started bforkRow flB (boltP 5 0 [])) fun s1 => holdsB ar1 [(1, bFloor, 0), (1, bFell, 5)] s1 fun s2 => !copying 0 1 s2 &&
      holdsB ar1 [(0, hHfree, 3), (1, bSlog, 4)] s2 fun s3 => thenH (ar1.validEntries 1 1) s3 fun ps s4 => decide (ps = [(0, 0x20001)]) &&
        holdsB ar1 [(0, hNfree, 5)] s4 fun s5 => holdsB ar1 [(1, bFloor, 0), (0, hHfree, 3), (3, bNext, 0)] s5 fun s6 =>
          writesB ar1 [(0, hHfree, 0)] s6 fun s7 => thenH (ar1.fillChild 3 4 0 5 ps) s7 fun _ _ => true) = true ∧
    (named1 0 (boltP 5 0 [(pHfree, 4, 0)]) fun s1 => holdsB ar1 [(1, bFloor, 0), (1, bFell, 5)] s1 fun s2 =>
      holdsB ar1 [(0, hHfree, 0)] s2 fun _ => true) = true ∧
    (named1 0 (boltP 5 0 [(pNfree, 4, 0)]) fun s1 => holdsB ar1 [(1, bFloor, 0), (1, bFell, 5)] s1 fun s2 =>
      holdsB ar1 [(0, hHfree, 3), (1, bSlog, 4)] s2 fun s3 => thenH (ar1.validEntries 1 1) s3 fun _ s4 =>
        holdsB ar1 [(0, hNfree, 0)] s4 fun _ => true) = true :=
  ⟨startsAt (by decide +kernel), by decide +kernel, by decide +kernel, by decide +kernel⟩

/-- BHOLD; BREL of one of two handles and of the last; BSTAT of every field, and of a slot not reserved, one open, one fallen
and one retired; BRETIRE at the floor, and past a page. -/
theorem witness_Bolt_counts :
    Starts bholdRow { fQ with a := .x 6 } (boltP 0 0 []) ∧ Starts brelRow flHome (boltP 0 0 []) ∧
    (named1 0 (started bholdRow { fQ with a := .x 6 } (boltP 0 0 [])) fun s1 => holdsB ar1 [(1, bHcnt, 1)] s1 fun s2 =>
      writesB ar1 [(1, bHcnt, 2)] s2 fun _ => true) = true ∧
    (named1 0 (boltP 0 0 [(pHcnt, 4, 2)]) fun s1 => !copying 0 1 s1 && holdsB ar1 [(1, bHcnt, 2)] s1 fun s2 =>
      writesB ar1 [(1, bHcnt, 1)] s2 fun _ => true) = true ∧
    (named1 0 (started brelRow flHome (boltP 0 0 [])) fun s1 => !copying 0 1 s1 && holdsB ar1 [(1, bHcnt, 1)] s1 fun s2 =>
      writesB ar1 [(1, bHcnt, 0)] s2 fun s3 => thenH (ar1.destroy 1) s3 fun _ _ => true) = true ∧
    Starts bstatRow flHome (boltP 0 0 []) ∧ Starts bstatRow { flHome with aux := 6 } (boltP 0 0 []) ∧
    Starts bstatRow { flB with aux := 5 } (boltP 6 0 []) ∧
    (named1 6 (boltP 6 0 []) fun s1 => holdsB ar1 [(1, bFell, 5), (1, bRsv, 6)] s1 fun _ => true) = true ∧
    (named1 5 (boltP 5 0 []) fun s1 => holdsB ar1 [(1, bFell, 5), (1, bRsv, 6)] s1 fun s2 => holdsB ar1 [(1, bHole, 0)] s2 fun _ => true) = true ∧
    (named1 4 (boltP 4 0 []) fun s1 => holdsB ar1 [(1, bFell, 5), (1, bRsv, 6)] s1 fun s2 => holdsB ar1 [(1, bFloor, 0)] s2 fun _ => true) = true ∧
    (named1 4 (boltP 4 0 [(pFloor, 4, 5)]) fun s1 => holdsB ar1 [(1, bFell, 5), (1, bRsv, 6)] s1 fun s2 => holdsB ar1 [(1, bFloor, 5)] s2 fun s3 =>
      holdsB ar1 [(1, bSlog, 4)] s3 fun s4 => thenH (ar1.entry 1 0) s4 fun e _ => !entPin e) = true :=
  ⟨startsAt (by decide +kernel), startsAt (by decide +kernel), by decide +kernel, by decide +kernel, by decide +kernel,
    startsAt (by decide +kernel), startsAt (by decide +kernel), startsAt (by decide +kernel), by decide +kernel, by decide +kernel, by decide +kernel,
    by decide +kernel⟩

/-- BRETIRE at the floor, and up to the end of the bolt's first page, which is given back; BPIN and its opposite, of a page in
use and of one below the floor. -/
theorem witness_Bolt_pages :
    Starts bretireRow flB (boltP 0 0 []) ∧ Starts bretireRow flB (boltP 8192 0 [(pFell, 4, 8192), (pRsv, 4, 8193)]) ∧
    Starts bpinPinRow flTm (boltP 5 0 []) ∧ Starts bpinUnpinRow { flTm with aux := 1 } (boltP 5 0 [(pEntry, 8, 0x20003)]) ∧
    (named1 0 (started bretireRow flB (boltP 0 0 [])) fun s1 => holdsB ar1 [(1, bFell, 5), (1, bFloor, 0)] s1 fun _ => true) = true ∧
    (named1 0 (started bretireRow flB (boltP 8192 0 [(pFell, 4, 8192), (pRsv, 4, 8193)])) fun s1 =>
      holdsB ar1 [(1, bFell, 8192), (1, bFloor, 0)] s1 fun s2 => writesB ar1 [(1, bFloor, 8192)] s2 fun s3 =>
        holdsB ar1 [(1, bSlog, 4)] s3 fun s4 => thenH (ar1.validEntries 1 1) s4 fun ents s5 => decide (ents.length = 1) &&
          thenH (ar1.retire 1 ents) s5 fun _ s6 => holdsB ar1 [(1, bNpages, 1)] s6 fun s7 => writesB ar1 [(1, bNpages, 0)] s7 fun _ => true) = true ∧
    (named1 5 (started bpinPinRow flTm (boltP 5 0 [])) fun s1 => holdsB ar1 [(1, bRsv, 6), (1, bSlog, 4)] s1 fun s2 =>
      thenH (ar1.entry 1 0) s2 fun e s3 => entV e && !entPin e && holdsB ar1 [(1, bNpins, 0)] s3 fun s4 => writesB ar1 [(1, bNpins, 1)] s4 fun s5 =>
        thenH (ar1.putEntry 1 0 (e + 2)) s5 fun _ _ => true) = true ∧
    (named1 5 (boltP 5 0 [(pEntry, 8, 0x20003), (win0 + 0x40041C, 2, 1)]) fun s1 => holdsB ar1 [(1, bRsv, 6), (1, bSlog, 4)] s1 fun s2 =>
      thenH (ar1.entry 1 0) s2 fun e s3 => entPin e && holdsB ar1 [(1, bNpins, 1)] s3 fun s4 => writesB ar1 [(1, bNpins, 0)] s4 fun s5 =>
        holdsB ar1 [(1, bSlog, 4), (1, bFloor, 0)] s5 fun s6 => thenH (ar1.putEntry 1 0 (e - 2)) s6 fun _ _ => true) = true ∧
    (named1 5 (boltP 5 0 [(pEntry, 8, 0x20003), (win0 + 0x40041C, 2, 1), (pFell, 4, 8192), (pRsv, 4, 8193), (pFloor, 4, 8192)]) fun s1 =>
      holdsB ar1 [(1, bRsv, 8193), (1, bSlog, 4)] s1 fun s2 => thenH (ar1.entry 1 0) s2 fun e s3 => holdsB ar1 [(1, bNpins, 1)] s3 fun s4 =>
        writesB ar1 [(1, bNpins, 0)] s4 fun s5 => holdsB ar1 [(1, bSlog, 4), (1, bFloor, 8192)] s5 fun s6 => thenH (ar1.release (entPage e)) s6 fun _ s7 =>
          thenH (ar1.putEntry 1 0 0) s7 fun _ s8 => holdsB ar1 [(1, bNpages, 1)] s8 fun s9 => writesB ar1 [(1, bNpages, 0)] s9 fun _ => true) = true :=
  ⟨startsAt (by decide +kernel), startsAt (by decide +kernel), startsAt (by decide +kernel), startsAt (by decide +kernel), by decide +kernel,
    by decide +kernel, by decide +kernel, by decide +kernel, by decide +kernel⟩

/-- What TMLOAD and BADDR of slot 5 reach: the page's address can be loaded from. -/
def tmReach (sid : Nat) (u : Strand) (s : State) (k : State → Bool) : Bool :=
  named1 5 s fun s1 => holdsB ar1 [(1, bRsv, 6), (1, bSlog, 4)] s1 fun s2 => thenH (ar1.entry 1 0) s2 fun e s3 => entV e &&
    holdsB ar1 [(1, bFloor, 0)] s3 fun s4 => !copying 0 1 s4 && thenH (ar1.pageVa (entPage e)) s4 fun va s5 =>
      match translate s5 (agentOf s5 sid u) va .load with
      | (.ok _, s6) => k s6
      | _ => false
def tmEnt1 : TmEnt := tmEntry { ar := ar1, h := 1, slog := 4, s := 5, b := 0, e := 0x20001, rsv := 6, va := 0x1040000 } false
/-- A tile whose pages lie in general memory, without an entry and with one for bolt 1's first page. -/
def boltG (k : Task → Task := id) : State := withCells generalPages (tileS (handles 5 0) k)
def tmG : TmEnt := { tm1 with va := 0x1040000 }
def withTmG (k : Task) : Task := { k with tm := [tmG] }

theorem witness_Bolt_translation :
    Starts baddrHeadRow flB (headP 5 []) ∧ Starts tmloadRow flB boltG ∧ Starts tmloadRow flB (boltG withTmG) ∧
    tmReach 1536 (own (.baddr flB) (headP 5 [])) (started baddrHeadRow flB (headP 5 [])) (fun _ => true) = true ∧
    tmReach 0 (own (.tmload flB) boltG) (started tmloadRow flB boltG) (fun s6 =>
      decide (tmVictim (tmOf s6 0) tmEnt1 = some none) && thenH (ar1.reference 2) s6 fun _ _ => true) = true ∧
    tmReach 0 (own (.tmload flB) (boltG withTmG)) (started tmloadRow flB (boltG withTmG)) (fun s6 =>
      decide (tmVictim (tmOf s6 0) tmEnt1 = some (some tmG)) && thenH (ar1.reference 2) s6 fun _ s7 =>
        thenH (tmRelease ar1 tmG) s7 fun _ _ => true) = true :=
  ⟨startsAt (by decide +kernel), startsAt (by decide +kernel), startsAt (by decide +kernel), by decide +kernel, by decide +kernel,
    by decide +kernel⟩

/-! ### Operations of class 6, clause by clause -/

/-- Stream 5 with one head, bolt 1 in units of one slot, its delivery ring and its other table in the first window. -/
def block6 : List (RecField × Nat) :=
  block5 ++ [(cNrung, 2), (cNbolt, 1), (cTake, 5), (cLring, 0x00FFE00000030000), (cLput, 1), (cSetb, 0x00FFE00000050000), (cSetgen, 7)]
def stream6 (l : List (RecField × Nat) := []) (es : List Word := []) : Stream :=
  { Stream.new (block (block6 ++ l)) 0 [{ h := 1, q := 1, kind := 0 }] with events := es }
def onStream (b : Word) (t : Stream) : State := (withArea (tileS fun u => regs [(6, 5), (7, b)] (handled u))).setStream 5 t
def onFeed (f : Feed) : State := (withArea (tileS fun u => regs [(6, 1), (7, 0x00FFF00000000040)] (handled u))).setFeed 1 f
/-- What a strand must find to name the stream, where it starts. -/
def liveB (row : HomeRow) (fl : FormQ) (s : State) (t : Stream) : Bool :=
  let q := started row fl s
  (q.liveStream 5 == some t) && t.inbox.isEmpty && decide (t.pasid = q.pasidOf q.sid)
def spad32 : Word := 0x00FFF00000000020

theorem witness_Stream_heads :
    Starts sheadRow { flHome with aux := 2 } (onStream 0 (stream6)) ∧ Starts sheadRow { flB with aux := 1 } (onStream 0 (stream6)) ∧
    Starts stakeRow flB (onStream 5 (stream6)) ∧ Starts unpickRow flHome (onStream 0 (stream6)) ∧
    liveB sheadRow { flB with aux := 1 } (onStream 0 (stream6)) (stream6) = true ∧
    thenH (genOf (stream6)) (started sheadRow { flHome with aux := 3 } (onStream 0 (stream6))) (fun g _ => decide (g = 5)) = true ∧
    holdsB ar1 [(1, bState, 1), (1, bHcnt, 1)] (started sheadRow { flB with aux := 1 } (onStream 0 (stream6))) (fun s1 =>
      writesB ar1 [(1, bHcnt, 2)] s1 fun _ => true) = true ∧
    thenH (genOf (stream6)) (started stakeRow flB (onStream 5 (stream6))) (fun g _ => decide (5 ≤ g)) = true ∧
    thenH (forkHeads ar1 6 (stream6).heads [] []) (started unpickRow flHome (onStream 0 (stream6 [(cTake, 6)]))) (fun r s1 =>
      decide (r.1 = 0x0A ∧ r.2.2 = []) && (s1.stream? 5).isSome) = true ∧
    thenH (forkHeads ar1 5 (stream6).heads [] []) (started unpickRow flHome (onStream 0 (stream6))) (fun r s1 => decide (r.1 = 0) &&
      thenH (putUnless 0 ((stream6).get cSetb) (r.2.1.flatMap headBytes) []) s1 fun ok s2 => ok &&
        thenH (((stream6).heads.filter (·.q != 0)).forM fun e => giveBack ar1 e.h) s2 fun _ s3 => (s3.stream? 5).isSome) = true :=
  ⟨startsAt (by decide +kernel), startsAt (by decide +kernel), startsAt (by decide +kernel), startsAt (by decide +kernel), by decide +kernel,
    by decide +kernel, by decide +kernel, by decide +kernel, by decide +kernel, by decide +kernel⟩

/-- SFRAME with room in the ring for one, and with none; SFRPOP of one frame, and of none. -/
theorem witness_Stream_rings :
    Starts sframeRow flB (onStream spad32 (stream6 [(cLput, 3)])) ∧ Starts sframeRow { flB with nb := true } (onStream spad32 (stream6 [(cLput, 4)])) ∧
    Starts sfrpopRow flB (onStream spad32 (stream6)) ∧ Starts sfrpopRow { flB with nb := true } (onStream spad32 (stream6 [(cLput, 0)])) ∧
    thenH (operandLoad 0 (own (.sframe flB) (onStream spad32 (stream6 [(cLput, 3)]))) (.x 7) spad32 32 (alignTrap 1 spad32))
      (started sframeRow flB (onStream spad32 (stream6 [(cLput, 3)]))) (fun d s1 => descOk s1 d false) = true ∧
    ringCount (stream6 [(cLput, 3)]) cLput cLget = 3 ∧ ringCount (stream6 [(cLput, 4)]) cLput cLget = 4 ∧
    thenH (operandParts 0 (own (.sfrpop flB) (onStream spad32 (stream6))) (.x 7) .store spad32 32 (alignTrap 1 spad32))
      (started sfrpopRow flB (onStream spad32 (stream6))) (fun _ _ => true) = true ∧
    ringCount (stream6) cLput cLget = 1 ∧ ringCount (stream6 [(cLput, 0)]) cLput cLget = 0 :=
  ⟨startsAt (by decide +kernel), startsAt (by decide +kernel), startsAt (by decide +kernel), startsAt (by decide +kernel), by decide +kernel,
    by decide +kernel, by decide +kernel, by decide +kernel, by decide +kernel, by decide +kernel⟩

/-- SRUNG of the last rung, and read; SEVT of one event, of none; its handler attached. -/
theorem witness_Stream_events :
    Starts srungRow { flB with aux := 1 } (onStream 1 (stream6)) ∧ Starts srungRow flHome (onStream 0 (stream6)) ∧ (stream6).get cNrung = 2 ∧
    Starts sevtRow flHome (onStream 0 (stream6 [] [9])) ∧ Starts sevtRow { flHome with nb := true } (onStream 0 (stream6)) ∧
    Starts sevtAttachRow { flHome with aux := 1 } (onStream 0 (stream6)) ∧ (stream6).late = none ∧
    liveB sevtRow flHome (onStream 0 (stream6 [] [9])) (stream6 [] [9]) = true :=
  ⟨startsAt (by decide +kernel), startsAt (by decide +kernel), by decide +kernel, startsAt (by decide +kernel), startsAt (by decide +kernel),
    startsAt (by decide +kernel), by decide +kernel, by decide +kernel⟩

/-- Feed 1 with one record, with none, and full. -/
def feed0 : Feed := { feed1 with put := 0 }
def feedFull : Feed := { feed1 with put := 16 }

theorem witness_Feeds :
    Starts feedpopRow flB (onFeed feed1) ∧ Starts feedpopRow flB (onFeed feed0) ∧ Starts feedwaitRow flAC (onFeed feed1) ∧
    Starts feedpushRow flB (onFeed feed0) ∧ Starts feedpushRow { flB with nb := true } (onFeed feedFull) ∧
    thenH (operandParts 0 (own (.feedpop flB) (onFeed feed1)) (.x 7) .store 0x00FFF00000000040 64 (feedTrap 2 1))
      (started feedpopRow flB (onFeed feed1)) (fun _ s1 => thenH (unitParts 0 .load (feed1.recordVa feed1.get) 64) s1 fun _ _ => true) = true ∧
    thenH (operandLoad 0 (own (.feedpush flB) (onFeed feed0)) (.x 7) 0x00FFF00000000040 64 (feedTrap 2 1))
      (started feedpushRow flB (onFeed feed0)) (fun bs s1 => thenH (unitParts 0 .store (feed0.recordVa feed0.put) bs.length) s1 fun _ _ => true) = true ∧
    feed0.full = false ∧ feedFull.full = true ∧ ((started feedwaitRow flAC (onFeed feed1)).feed? 1) = some feed1 :=
  ⟨startsAt (by decide +kernel), startsAt (by decide +kernel), startsAt (by decide +kernel), startsAt (by decide +kernel),
    startsAt (by decide +kernel), by decide +kernel, by decide +kernel, by decide +kernel, by decide +kernel, by decide +kernel⟩

/-! ### Commands of the host, clause by clause -/

/-- A host with bolt areas; a command of it, as number 1. -/
def hostA : State :=
  let s := readyDev (withArea State.reset)
  { poke s qcbFields with host := { s.host with queues := [(7, queue7)] } }
def cmdA (c : HostCmd) (s : State := hostA) : State := s.setCmd 1 c
def mayStart (opc : Nat) (c : HostCmd) (s : State) : Bool := (startable s 1 opc == some c) && !c.wait.isFailed
/-- Objects that are open, and one after the other. -/
def openB (r : Nat × State) : Bool := (r.2.object? r.1).all fun o => !o.closed && !o.cancelled

/-- LAUNCH of a descriptor at 0x20000 with no dependence, and with one, launch 1, whose entry is kept. -/
def launchC (k : Nat) : HostCmd := command 0x01 [0x20000, 2 ^ 32 * 8 + 6, 9, k, 0x00FFE00000060000]
def launchS (k : Nat) : State := cmdA (launchC k) (poke (loomS hostA [(1, { launch1 with cmd := 1 })]) [(win0 + 0x60000, 4, 1)])

theorem witness_HostLaunch :
    (mayStart 0x01 (launchC 0) (launchS 0) && mayStart 0x01 (launchC 1) (launchS 1)) = true ∧
    (launchC 1).cls = 0 ∧ (launchC 1).arg 2 = 9 ∧ (launchC 1).arg 1 = 2 ^ 32 * 8 + 6 ∧ (launchC 1).arg 3 = 1 ∧ (launchC 1).arg 4 % 4 = 0 ∧
    thenH (uRead 0 ((launchC 1).arg 4) 4) (launchS 1) (fun bs s1 => decide (field bs 0 4 = 1) && knownLaunch s1 0 1) = true ∧
    (let j := (launchS 0).ensureObject .job 9 0 none
     let st := j.2.ensureObject .step 8 0 (some j.1)
     openB j && openB st && openB (st.2.ensureObject .graph 6 0 (some st.1))) = true := by decide +kernel

/-- The image of stream 5: its block at 0x60000 of the window, its head set, bolt 1, at 0x70000. -/
def imageFields : List (RecField × Nat) :=
  block6 ++ [(cPtsstep, 1), (cSeta, 0x00FFE00000070000), (cOring, 0x8000000), (cOsize, 2 ^ 24), (cIring, 0x4000000),
    (cRungWord 0, 2 ^ 32 + 1), (cRungWord 1, 2 ^ 32 + 1), (cEnc, 31)]
def imageS (s : State := hostA) : State :=
  poke s (imageFields.map (fun q => (win0 + 0x60000 + q.1.1, q.1.2, q.2)) ++ [(win0 + 0x70000, 4, 1), (win0 + 0x70004, 4, 1)])
def streamC (op : Nat) : HostCmd := command 0x06 [5, 0x00FFE00000060000, op]
def ownS (op : Nat) : State :=
  let s := hostA.setStream 5 (stream6)
  cmdA (streamC op) (if op = 1 then imageS s else s)

/-- The image read in a state, within its limits. -/
def imageB (c : HostCmd) (take : Option Nat) (s : State) (k : State → List HeadEnt → Bool) : Bool :=
  thenH (uRead c.pasid (c.arg 1) 512) s fun img s1 => blockOk s1 img (c.arg 0) c.pasid &&
    thenH (uRead c.pasid (field img cSeta.1 cSeta.2) 16) s1 fun bs s2 => let hs := [headEntry bs 0]
      (field img cNbolt.1 cNbolt.2 == 1 && field img cHeadsel.1 cHeadsel.2 == 0 && headsOk bs hs (take.getD (field img cTake.1 cTake.2))) && k s2 hs

theorem witness_HostStream :
    (mayStart 0x06 (streamC 0) (cmdA (streamC 0) (imageS)) && mayStart 0x06 (streamC 1) (ownS 1) && mayStart 0x06 (streamC 2) (ownS 2)) = true ∧
    (streamC 0).arg 0 = 5 ∧ (streamC 0).arg 2 = 0 ∧ (streamC 1).arg 2 = 1 ∧ (streamC 2).arg 2 = 2 ∧ ((cmdA (streamC 0) (imageS)).liveStream 5).isNone = true ∧
    (((ownS 1).liveStream 5).map fun t => (t.pasid, t.inbox)) = some (0, []) ∧
    imageB (streamC 0) none (cmdA (streamC 0) (imageS)) (fun s1 hs => thenH (holdHeads 0 hs) s1 fun _ _ => true) = true ∧
    imageB (streamC 1) (some ((stream6).get cTake)) (ownS 1) (fun s1 hs => thenH (holdHeads 0 hs) s1 fun _ s2 =>
      thenH (dropHeads 0 (stream6).heads) s2 fun _ _ => true) = true ∧
    thenH (dropHeads 0 (stream6).heads) (ownS 2) (fun _ _ => true) = true := by decide +kernel

/-- JOBSTART of job 9 on stream 5 with a template of one launch; TAKE of all there is; INPUT. -/
def jobC : HostCmd := command 0x07 [9, 5, 0x00FFE00000060000, 3]
def jobS : State := cmdA jobC (poke (hostA.setStream 5 (stream6)) [(win0 + 0x60000, 4, 1), (win0 + 0x60008, 8, 0x20000)])
def takeC : HostCmd := command 0x08 [5, 5]
def inputC : HostCmd := command 0x0A [5]

theorem witness_HostJob :
    (mayStart 0x07 jobC jobS && jobFree jobS (stream6) && ((jobS.liveStream 5) == some (stream6))) = true ∧
    (jobC.arg 0 = 9 ∧ jobC.arg 1 = 5 ∧ jobC.arg 2 % 8 = 0 ∧ jobC.arg 3 = 3 ∧ (stream6).inbox = []) ∧
    thenH (uRead 0 (jobC.arg 2) 8) jobS (fun head s1 => decide (field head 0 4 = 1 ∧ field head 4 4 = 0) &&
      thenH (uRead 0 (jobC.arg 2 + 8) 8) s1 fun _ s2 => let j := s2.ensureObject .job 9 0 none
        openB j && (j.2.object? j.1).all (·.cmd == 0)) = true ∧
    (let s := cmdA takeC (hostA.setStream 5 (stream6))
     mayStart 0x08 takeC s && ((s.liveStream 5) == some (stream6)) && thenH (genOf (stream6)) s (fun g _ => decide (takeC.arg 1 ≤ g))) = true ∧
    (let s := cmdA inputC (hostA.setStream 5 (stream6))
     mayStart 0x0A inputC s && ((s.liveStream 5) == some (stream6))) = true := by decide +kernel

/-- FEED of 16 records to an empty ring of 16, at once; of 17, piece by piece. -/
def feedC (n : Nat) : HostCmd := command 0x04 [1, 0x00FFE00000060000, n]
def feedS (n : Nat) : State := cmdA (feedC n) (hostA.setFeed 1 feed0)

theorem witness_HostFeed :
    (mayStart 0x04 (feedC 16) (feedS 16) && mayStart 0x04 (feedC 17) (feedS 17)) = true ∧ feed0.room = 16 ∧ feed0.size = 16 ∧
    thenH (uRead 0 ((feedC 16).arg 1) (64 * 16)) (feedS 16) (fun bs s1 => thenH (unitParts 0 .store feed0.ring.toNat 0) s1 fun _ s2 =>
      thenH (appendRecords 0 feed0 16 bs) s2 fun _ _ => true) = true ∧
    thenH (uRead 0 ((feedC 17).arg 1) (64 * 17)) (feedS 17) (fun bs s1 => thenH (unitParts 0 .store feed0.ring.toNat (64 * 16)) s1 fun _ s2 =>
      thenH (appendRecords 0 feed0 16 bs) s2 fun _ _ => true) = true := by decide +kernel

/-! ### The copy engine's units -/

/-- The engine's accesses can be performed: a copy, a write. -/
def carriesB (x : EngCtx) (flits : Bool) (src dst n : Nat) (s : State) : Bool := match reach x s .load false src n with
  | .ok (ps, s1) => (match reach x (engRead x ps s1).2 .store flits dst n with
    | .ok _ => true
    | .error _ => false)
  | .error _ => false
def putsB (x : EngCtx) (dst n : Nat) (s : State) : Bool := match reach x s .store false dst n with
  | .ok _ => true
  | .error _ => false

/-- Places in the scratchpad, and one in the first cluster's window. -/
def pad0 : Word := 0x00FFF00000000000
def padAt (n : Nat) : Word := pad0 + BitVec.ofNat 64 n
def spill0 : Word := 0x00FFE00000010000
/-- A running command of the copy engine, alone in its queue. -/
def moving (opc : BitVec 10) (aux : BitVec 4) (ps : List Word) : Cmd := { full15.cmdA with opc, aux, phase := 1, params := ps }
def moveS (c : Cmd) (l : List (Nat × Nat × Nat) := []) : State :=
  poke ((engS fun k => { k with ceq := [c] }).setCluster 0 { Cluster.cleared with win := 8 }) l
def movesB (c : Cmd) (s : State) : Bool := ((s.task? 0).map fun k => decide (k.ceq = [c]) && canMove s 0 k .ce c) == some true
def ctxOf (c : Cmd) (s : State) : EngCtx := engCtx s 0 .ce c

/-- CP whose words lie across one another, of all but the last byte of a segment and one byte more; CP2D of two rows at odd
places; CPG of two bytes, CPS of one word; CPFILL across a segment's end. -/
def cpC : Cmd := moving 0x200 0 [padAt 1, padAt 0x1002, 2048]
def cp2C : Cmd := moving 0x201 0 [padAt 0, 64, padAt 0x1001, -64, 2 ^ 32 * 2 + 3]
def cpgC : Cmd := moving 0x202 0 [padAt 0, padAt 0x1000, padAt 0x2000, 2]
def cpsC : Cmd := moving 0x203 2 [padAt 0x1000, padAt 0, padAt 0x2000, 1]
def cpfC : Cmd := moving 0x207 0 [padAt 2047, 7, 2]
/-- CPCOMB of the last element of its second segment. -/
def cpcC : Cmd := { moving 0x208 0 [padAt 0, padAt 0x1000, 2052] with ty := .s32, index := 1 }

theorem witness_CopyUnits_plain :
    (movesB cpC (moveS cpC) && movesB cp2C (moveS cp2C) && movesB cpgC (moveS cpgC) && movesB cpsC (moveS cpsC) &&
      movesB cpfC (moveS cpfC) && movesB cpcC (moveS cpcC)) = true ∧
    wordly (par cpC.params 0 + 3 * par cpC.params 1) = false ∧
    carriesB (ctxOf cpC (moveS cpC)) true (par cpC.params 1) (par cpC.params 0) 2048 (moveS cpC) = true ∧
    (List.range 2).map (fun r => rowAt (par cp2C.params 2) (signedPar cp2C.params 3) r) = [(padAt 0x1001).toNat, (padAt 0xFC1).toNat] ∧
    carriesB (ctxOf cp2C (moveS cp2C)) true (padAt 0xFC1).toNat (padAt 64).toNat 3 (moveS cp2C) = true ∧
    carriesB (ctxOf cpgC (moveS cpgC)) false (padAt 0x1000).toNat (padAt 1).toNat 1 (moveS cpgC) = true ∧
    elementOk (moveS cpsC) 0 (par cpsC.params 0) (padAt 0x1000).toNat 4 = true ∧
    segmentEnd 2 (par cpfC.params 0) 0 = 1 ∧ putsB (ctxOf cpfC (moveS cpfC)) (par cpfC.params 0) 1 (moveS cpfC) = true ∧
    (match reach (ctxOf cpcC (moveS cpcC)) (moveS cpcC) .atomic false (padAt 2048).toNat 4 with
      | .ok (_, s1) => (match reach (ctxOf cpcC (moveS cpcC)) s1 .load false (padAt 0x1800).toNat 4 with
        | .ok _ => true
        | .error _ => false)
      | .error _ => false) = true := by decide +kernel

/-- CPX of a coded block, all of whose chunks are zero, of one whose header holds a reserved bit, and of one that names a raw
copy in the window; CPZ of a block that codes, and of one that is poisoned. -/
def cpxC : Cmd := moving 0x204 0 [padAt 0x1000, padAt 0, 1]
def cpzC : Cmd := moving 0x205 0 [padAt 0, padAt 0x1000, 1, spill0]
def blockAt (h : Nat) : State := moveS cpxC [(spadLoc 0 0, 32, h)]
def blockOf (s : State) : Option KerfBlock := match readAt (ctxOf cpxC s) s pad0.toNat 1024 with
  | .ok (b, _) => some (kerfRead 0 0 (b.map (·.1)))
  | .error _ => none
def spilledWord : Nat := { spill := spill0.toNat, reserved := 0, dsize := 0, esize := 0, bmode := 1, len := 0, map := 0 : KerfHead }.word

theorem witness_CopyUnits_kerf :
    (movesB cpxC (blockAt 0) && movesB cpzC (moveS cpzC)) = true ∧
    (match blockOf (blockAt 0) with
      | some (.coded 0 bytes) => decide (bytes.length = 4096)
      | _ => false) = true ∧
    putsB (ctxOf cpxC (blockAt 0)) (padAt 0x1000).toNat 4096 (blockAt 0) = true ∧
    (match blockOf (blockAt spilledWord) with
      | some (.spilled a) => a == spill0.toNat && spillOk (blockAt spilledWord) 0 a
      | _ => false) = true ∧
    blockOf (blockAt (2 ^ 150)) = some .malformed ∧
    (let s := moveS cpzC
     match readAt (ctxOf cpzC s) s (padAt 0x1000).toNat 4096 with
      | .ok (src, s1) => !src.any (·.2) && ((kerfWrite 0 0 (src.map (·.1))).map (·.length) == some 1024) && putsB (ctxOf cpzC s) pad0.toNat 1024 s1
      | .error _ => false) = true ∧
    (let s := { moveS cpzC with poison := [spadLoc 0 0x1000 / 32] }
     match readAt (ctxOf cpzC s) s (padAt 0x1000).toNat 4096 with
      | .ok (src, s1) => src.any (·.2) && spillOk s1 0 spill0.toNat && (cpzC.spills == some 0) && putsB (ctxOf cpzC s) spill0.toNat 4096 s1 &&
        putsB (ctxOf cpzC s) pad0.toNat 1024 s1
      | .error _ => false) = true := by decide +kernel

/-- What CopyData speaks of: a piece of the window, one of the scratchpad without guards, and memory in its form. -/
theorem witness_CopyData :
    Memory.wf (moveS cpC).mem = true ∧ spadPart0.space = .spad ∧ (moveS cpC).firstGuard 0 spadPart0 = none ∧ (gen false).space ≠ .spad ∧
    (gen false).aperture = false ∧ spadPart0.aperture = false ∧ (2 ^ 32 - 1 < 2 ^ 32) := by decide +kernel

/-! ### More hypotheses met -/

/-- The last iteration of a level alone; of two levels, each of which ends here. -/
def lastOf (n : Nat) (outer : BitVec 32) (t : Strand) : Strand :=
  { t with loops := Vector.ofFn fun (k : Fin 4) => { active := decide (k.val < n), start := 0x1FFFF0, stop := 0x200000, count := if k.val + 1 = n then 1 else outer } }

theorem witness_ProgramCounter_last :
    (∀ q ∈ [(1, 9), (2, 9), (2, 1)], issuesIn (.nop (fS .a)) .ahead (tileS (lastOf q.1 (BitVec.ofNat 32 q.2))) = true ∧
      ((fnd (.nop (fS .a)) (tileS (lastOf q.1 (BitVec.ofNat 32 q.2)))).strand? 0).map (fun t => (t.next, t.depth, (t.loops[0]).stop == t.pc)) = some (none, q.1, true)) ∧
    ((str (tileS (lastOf 1 9))).loops[0]).count = 1 ∧ ((str (tileS (lastOf 2 9))).loops[1]).count = 1 ∧ ((str (tileS (lastOf 2 9))).loops[0]).count = 9 ∧
    ((str (tileS (lastOf 2 1))).loops[0]).count = 1 := by decide +kernel

/-- Frozen queues, outside a handler, with addresses: every word that pushes or pops. -/
def frozenM (t : Strand) : Strand := { (pointers t) with xstat := 0x80 }
abbrev Frozen (i : Instr) (s : State) : Prop :=
  (str s).qf = true ∧ (str s).inh = false ∧ (str s).xvec ≠ 0 ∧ Alone (opened s (foc s) (raw i) (str s)) (foc s)
def addLq : FormS := { addXq with a := .lq }
def vaddLq : FormV := { fV with d := .v 1, a := .lq, b := .v 3 }

theorem witness_QueueTraps_frozen :
    (Frozen (.ldq (flQ 6)) (tileM frozenM) ∧ Meets (.ldq (flQ 6)) .ahead (tileM frozenM) ∧ ScalarReaches (.ldq (flQ 6)) (flQ 6) .load (tileM frozenM) ∧
      Unmarked (own (.ldq (flQ 6)) (tileM frozenM)) [.x 6, .x 0]) ∧
    (Meets (.sta (flQ 6)) .ahead (tileM frozenM) ∧ ScalarReaches (.sta (flQ 6)) (flQ 6) .store (tileM frozenM)) ∧
    (Frozen (.vldq (flLen 9)) (tileS frozenM) ∧ Meets (.vldq (flLen 9)) .ahead (tileS frozenM) ∧
      VectorReaches (.vldq (flLen 9)) (flLen 9) .load (tileS frozenM) ∧
      (noAperture (vecPs (.vldq (flLen 9)) (flLen 9) .load (tileS frozenM))).toOption.isSome = true) ∧
    (Meets (.vsta (flLen 9)) .ahead (tileS frozenM) ∧ VectorReaches (.vsta (flLen 9)) (flLen 9) .store (tileS frozenM) ∧
      (checkAperture (vecO (.vsta (flLen 9)) (flLen 9) .store (tileS frozenM)) 0 true
        (vecPs (.vsta (flLen 9)) (flLen 9) .store (tileS frozenM))).toOption.isSome = true) ∧
    (Meets (.vldq (flLen 10)) .ahead (tileS frozenM) ∧ vecLen (own (.vldq (flLen 10)) (tileS frozenM)) (flLen 10) = 0) ∧
    (Frozen (.std (flStd always)) (tileS frozenM) ∧ Meets (.std (flStd always)) .normal (tileS frozenM) ∧ Meets (.vstd (flVstd always)) .normal (tileS frozenM) ∧
      Meets (.bqpush (flBqpush always)) .normal (tileS frozenM)) ∧
    (Frozen (.add addLq) (tileS frozenM) ∧ Meets (.add addLq) .ahead (tileS frozenM) ∧ Frozen (.vadd vaddLq) (tileS frozenM) ∧
      Meets (.vadd vaddLq) .normal (tileS frozenM) ∧ (own (.add addLq) (tileS frozenM)).marks = [] ∧ (own (.vadd vaddLq) (tileS frozenM)).marks = []) :=
  ⟨⟨by decide +kernel, meets (by decide +kernel), scalarReaches (by decide +kernel), by decide +kernel⟩,
    ⟨meets (by decide +kernel), scalarReaches (by decide +kernel)⟩,
    ⟨by decide +kernel, meets (by decide +kernel), vectorReaches (by decide +kernel), by decide +kernel⟩,
    ⟨meets (by decide +kernel), vectorReaches (by decide +kernel), by decide +kernel⟩, ⟨meets (by decide +kernel), by decide +kernel⟩,
    ⟨by decide +kernel, meets (by decide +kernel), meets (by decide +kernel), meets (by decide +kernel)⟩,
    by decide +kernel, meets (by decide +kernel), by decide +kernel, meets (by decide +kernel), by decide +kernel, by decide +kernel⟩

/-- A alone waits at a BQPOP of the empty BQ. -/
def aloneAt (t : Strand) : Strand :=
  { (handled t) with waitA := some { why := .bqEmpty, since := 0, deadline := none, instr := .bqpop flBqpop, pc := 0x200000 } }

theorem witness_QueueTraps_alone :
    crossWait (settle 0 (str (tileS aloneAt))) = true ∧ (str (tileS aloneAt)).ewin = [] ∧ (str (tileS aloneAt)).waitA.isSome = true ∧
    drainedBefore (settle 0 (str (tileS aloneAt))) (str (tileS aloneAt)).seq = true ∧ (str (tileS aloneAt)).inh = false ∧
    (str (tileS aloneAt)).xvec ≠ 0 := by decide +kernel

/-- A pair at which the shadow tile has found a mismatch, on a strand that can roll back, and on one that cannot. -/
def checked (t : Strand) : Strand := { (paired false t) with checker := some 2 }
def turnedPair (t : Strand) : Strand := { (checked t) with snap := some (t.snapshot (Vector.replicate 6 0)), turn := 1, turnPc := 0x200000 }
def restarting : Launch := { launch1 with restart := true }

theorem witness_StorePairs_checked :
    (let s := stLoom turnedPair restarting (two ·)
     (s.strand? 0).map (fun t => (pairReady s 0 t saq0 (sdq0 false), t.badRegs, t.checker, eligible s 0 t)) = some (true, [], some 2, true)) ∧
    (let s := tileS checked
     (s.strand? 0).map (fun t => (pairReady s 0 t saq0 (sdq0 false), eligible s 0 t, t.divRep.isNone, t.ewin.isEmpty)) = some (true, false, true, true)) := by
  decide +kernel

/-- KRD on the headstock, of a sensor; CLUS there is a free value. -/
theorem witness_KrdCompletes_head :
    Meets (.krd (flKrd 0xF20)) .normal headR ∧ (str headR).pl = true ∧ isHead 1536 = true ∧ (headR.sid = 1536) :=
  ⟨meets (by decide +kernel), by decide +kernel, by decide +kernel, by decide +kernel⟩

/-- Words that are numbers of f32, and are none. -/
theorem witness_AtomicValues_float :
    (f32Val 0x7F800001).isNan = true ∧ (f32Val 0x3F800000).isNan = false ∧ (0x7F800001 : Nat) < 2 ^ Ty.width .f32 := by decide +kernel

/-- A queue whose ring fetch waits on page 3 of context 0. -/
def waitQ : State :=
  let s := hostS [(0x1000C, 1, 2)]
  { s with host := { s.host with queues := [(7, { queue7 with wait := .on (0, 3) 1 0x60000 })] } }

theorem witness_FaultWindow_queue :
    Memory.wf waitQ.mem = true ∧ (waitQ.queue? 7).map (fun h => h.wait.isOn (0, (0x60000 : Word).toNat / 2 ^ 17)) = some true ∧
    qcbState waitQ 0x10000 = qFetchFault ∧ waitQ.host.queues.length = 1 := by decide +kernel

/-- The walk of a new queue finds its QCB, finds it absent, is ignored; that of an idle queue finds its QCB again. -/
def walkS (entry : Nat) : State :=
  { poke (hostS) [(0x0, 8, 0x300003), (0x300008, 8, 0x310000), (0x310000 + 8 * 7, 8, entry)] with
    host := { (hostS).host with queues := [] } }
def idleS (entry : Nat) : State :=
  { poke (hostS [(0x1000C, 1, 0)]) [(0x0, 8, 0x300003), (0x300008, 8, 0x310000), (0x310000 + 8 * 7, 8, entry)] with host := (hostS).host }

theorem witness_HostQueuesRun_walk :
    (walkS 0x10003).queue? 7 = none ∧ Memory.wf (walkS 0x10003).mem = true ∧
    (let r := walkQueue (walkS 0x10003) 7
     decide (r.1 = .at 0x10000) && qcbOk r.2 0x10000 && decide (qcbState r.2 0x10000 = qRun)) = true ∧
    (walkQueue (walkS 0x10001) 7).1 = .absent ∧ (walkQueue (walkS 0x10000) 7).1 = .ignored ∧
    (idleS 0x10003).queue? 7 = some queue7 ∧ qcbState (idleS 0x10003) 0x10000 = qIdle ∧ queue7.absent = false ∧
    (let r := walkQueue (idleS 0x10003) 7
     decide (r.1 = .at 0x10000) && qcbOk r.2 0x10000 && decide (qcbState r.2 0x10000 = qIdle)) = true := by decide +kernel

end Sys2Proof.Machine.Test
end

section
namespace Sys2Proof.Machine

open Decode

/-! ### What issue and retirement leave alone -/

theorem SameWorld.refl (s : State) : SameWorld s s := rfl

theorem SameWorld.trans {s s' s'' : State} (h : SameWorld s s') (h' : SameWorld s' s'') : SameWorld s s'' := by
  unfold SameWorld at *
  rw [h', h]

theorem SameWorld.mem {s s' : State} (h : SameWorld s s') : s'.mem = s.mem := by rw [h]

theorem sameWorld_setStrand (s : State) (i : Nat) (t : Strand) : SameWorld s (s.setStrand i t) := rfl

/-- The state an instruction finds: one strand's bookkeeping and the count of requests are new (01 R13). -/
theorem openedState_frame (s : State) (f : Focus) (r : Raw) (t : Strand) :
    SameWorld s (openedState s f r t) ∧ ∀ j, j ≠ f.sid → (openedState s f r t).strand? j = s.strand? j :=
  ⟨rfl, fun _ h => strand?_setStrand_ne s _ (Ne.symm h)⟩

/-- A completed instruction differs from its effect in the bookkeeping of its strand (01 R22 to R26). -/
theorem Completes.frame {i : Instr} {s : State} {f : Focus} {r : Raw} {t : Strand} {s2 : State} {t2 : Strand}
    (h : Completes i s f r t s2) (h2 : s2.strand? f.sid = some t2) :
    ∃ t', exec i s = .next (s2.setStrand f.sid t') ∧ t'.bare = t2.bare := by
  obtain ⟨t', hb, he⟩ := finished_eq s f r (opened s f r t) s2 h2
  exact ⟨t', he ▸ h, hb⟩

/-- Settles O1: the opened and the finished state are updates of one strand whose bare part they keep. -/
theorem issueFrame : Obligations.IssueFrame := by
  intro i s f r t s2 t2
  obtain ⟨hw, hj⟩ := openedState_frame s f r t
  refine ⟨hw, openedState_strand s f r t, openedStrand_bare s f r t, hj, fun h2 hc => ?_⟩
  obtain ⟨t', he, hb⟩ := hc.frame h2
  exact ⟨_, t', he, sameWorld_setStrand s2 f.sid t', rfl, strand?_setStrand s2 f.sid t', hb, getX_of_bare hb, v_of_bare hb,
    p_of_bare hb, queues_of_bare hb, special_of_bare hb, fun j hj => strand?_setStrand_ne s2 t' (Ne.symm hj)⟩

/-- An instruction whose effect is on its strand alone leaves everything else as it found it. -/
theorem Completes.frame_setStrand {i : Instr} {ord : Order} {s o : State} {f : Focus} {r : Raw} {t u w : Strand}
    (hf : Finds i ord s f r t o u) (h : Completes i s f r t (o.setStrand f.sid w)) :
    ∃ s' t', exec i s = .next s' ∧ SameWorld s s' ∧ (∀ l, Memory.read s'.mem l = Memory.read s.mem l) ∧
      s'.strand? f.sid = some t' ∧ (∀ j, j ≠ f.sid → s'.strand? j = s.strand? j) ∧ t'.bare = w.bare := by
  obtain ⟨t', he, hb⟩ := h.frame (strand?_setStrand o f.sid w)
  obtain ⟨_, rfl, rfl⟩ := hf
  obtain ⟨hw, hj⟩ := openedState_frame s f r t
  rw [setStrand_setStrand] at he
  have hw' := hw.trans (sameWorld_setStrand _ f.sid t')
  exact ⟨_, t', he, hw', fun l => by rw [hw'.mem], strand?_setStrand _ f.sid t',
    fun j hne => (strand?_setStrand_ne _ t' (Ne.symm hne)).trans (hj j hne), hb⟩

/-! ### Loop levels that end at one word (03 R95) -/

theorem loopAt_congr {t u : Strand} (h : t.loops = u.loops) (e : Word) : loopAt t e = loopAt u e := by
  simp only [loopAt, Strand.depth, h]
  rfl

/-- The innermost level that ends at `e`: it is active, and no active level inside it ends there. -/
theorem loopAt_eq_some {t : Strand} {e : Word} {k : Fin 4} (hk : k.val < t.depth) (hs : t.loops[k].stop = e)
    (hi : ∀ j : Fin 4, k.val < j.val → j.val < t.depth → t.loops[j].stop ≠ e) : loopAt t e = some k := by
  refine find_last _ k (by simp [hk, ← hs]) fun j hj => ?_
  by_cases hd : j.val < t.depth
  · have := hi j hj hd
    simp_all
  · simp [hd]

theorem loopAt_some {t : Strand} {e : Word} {k : Fin 4} (h : loopAt t e = some k) :
    k.val < t.depth ∧ t.loops[k].stop = e := by
  simpa using List.find?_some h

theorem loopAt_eq_none_of_depth {t : Strand} (h : t.depth = 0) (e : Word) : loopAt t e = none := by
  cases hl : loopAt t e with
  | none => rfl
  | some k => have := (loopAt_some hl).1; omega

@[simp] theorem getElem_cutLoops (l : Vector Loop 4) (n : Nat) {j : Nat} (hj : j < 4) :
    (cutLoops l n)[j] = if n ≤ j then Loop.off else l[j] := by
  simp [cutLoops]

/-- Levels cut from `n` on stay cut from `n` on when more are kept first. -/
theorem cutLoops_cutLoops (l : Vector Loop 4) {n m : Nat} (h : n ≤ m) : cutLoops (cutLoops l m) n = cutLoops l n := by
  ext j hj : 1
  simp only [getElem_cutLoops]
  split
  · rfl
  · rw [if_neg (by omega)]

/-- The active levels are counted from the outermost: none from the first inactive one on. -/
theorem depth_le_of_off {t : Strand} (k : Fin 4) (h : t.loops[k].active = false) : t.depth ≤ k.val := by
  have hk : k.val < t.loops.toList.length := by simp
  have hf : (t.loops.toList[k.val]).active = false := by simpa using h
  refine Nat.le_of_not_lt fun hd => ?_
  have hlt : k.val < (t.loops.toList.takeWhile (·.active)).length := hd
  have ha := List.all_eq_true.mp (List.all_takeWhile (p := fun l : Loop => l.active) (l := t.loops.toList)) _ (List.getElem_mem hlt)
  rw [(List.takeWhile_prefix _).getElem hlt, hf] at ha
  cases ha

theorem depth_cutLoops (t : Strand) (k : Fin 4) : Strand.depth { t with loops := cutLoops t.loops k.val } ≤ k.val :=
  depth_le_of_off k (by simp [Loop.off])

theorem loopTest_of_last {n : Nat} {t : Strand} {e : Word} {k : Fin 4} (hk : loopAt t e = some k)
    (hc : t.loops[k].count ≤ 1) :
    loopTest (n + 1) t e =
      if k.val ≠ 0 ∧ loopAt { t with loops := cutLoops t.loops k.val } e = some (Fin.ofNat 4 (k.val - 1))
      then loopTest n { t with loops := cutLoops t.loops k.val } e else { t with loops := cutLoops t.loops k.val } := by
  simp only [loopTest, hk, if_pos hc, cutLoops_cutLoops t.loops (Nat.le_succ k.val)]

/-- The fuel of the iteration test is enough for the levels there are: a level more changes nothing. -/
theorem loopTest_succ (n : Nat) {t : Strand} (e : Word) (h : t.depth ≤ n) : loopTest (n + 1) t e = loopTest n t e := by
  induction n generalizing t with
  | zero => simp only [loopTest, loopAt_eq_none_of_depth (Nat.le_zero.mp h)]
  | succ n ih =>
    rw [loopTest, loopTest]
    split
    · rfl
    next k hk =>
      have hd := (loopAt_some hk).1
      have hc : Strand.depth { t with loops := cutLoops (cutLoops t.loops (k.val + 1)) k.val } ≤ n := by
        rw [cutLoops_cutLoops t.loops (Nat.le_succ _)]
        have := depth_cutLoops t k
        omega
      simp only [ih hc]

/-- Two strands with control at one place, whatever else they hold, pass the iteration test alike. -/
theorem loopTest_path (n : Nat) {t u : Strand} (e : Word) (h : t.path = u.path) :
    (loopTest n t e).path = (loopTest n u e).path := by
  induction n generalizing t u with
  | zero => exact h
  | succ n ih =>
    obtain ⟨hp, hl, hn⟩ : t.pc = u.pc ∧ t.loops = u.loops ∧ t.next = u.next := by simpa [Strand.path] using h
    have ha : ∀ l, loopAt { t with loops := l } e = loopAt { u with loops := l } e := fun _ => rfl
    simp only [loopTest, loopAt_congr hl e, hl]
    split
    · exact h
    · split
      · rw [ha]
        split
        · exact ih (by simp [Strand.path, hp, hn])
        · simp [Strand.path, hp, hn]
      · simp [Strand.path, hn]

/-- Where control goes depends on where it stands alone. -/
theorem advance_path {t u : Strand} (h : t.path = u.path) : (advance t).path = (advance u).path := by
  obtain ⟨hp, hl, hn⟩ : t.pc = u.pc ∧ t.loops = u.loops ∧ t.next = u.next := by simpa [Strand.path] using h
  simp only [advance, hn]
  split
  · simp only [Strand.path, hl]
  · rw [hp]
    exact loopTest_path 4 u.pc (by simp only [Strand.path, hl])

theorem retireFetch_path (t : Strand) (c : Nat) (sl : Slice) (r : Raw) :
    ((retireFetch t c sl r).pc, (retireFetch t c sl r).loops) = ((advance t).pc, (advance t).loops) := by
  have hr : (retireSlice t c sl r).path = t.path := by cases sl <;> rfl
  have h := advance_path hr
  simp only [Strand.path, Prod.mk.injEq] at h
  simp only [retireFetch, trim, Prod.mk.injEq]
  exact ⟨h.1, h.2.1⟩

/-- Control after a word of the path that has completed stands where `advance` takes it from the word's effect. -/
theorem Completes.advance {i : Instr} {s : State} {sid : Nat} {r : Raw} {t : Strand} {s2 : State} {t2 : Strand}
    (h : Completes i s ⟨sid, .fetch⟩ r t s2) (h2 : s2.strand? sid = some t2) :
    ∃ s' t', exec i s = .next s' ∧ s'.strand? sid = some t' ∧
      t'.pc = (Machine.advance t2).pc ∧ t'.loops = (Machine.advance t2).loops := by
  simp only [Completes, finished, h2] at h
  refine ⟨_, _, h, strand?_setStrand _ _ _, ?_⟩
  rw [← Prod.mk.injEq, retireFetch_path]
  have := advance_path ((addPend_path (noteMisses (opened s ⟨sid, .fetch⟩ r t) t2 ⟨sid, .fetch⟩) s.req
    (seqOf (opened s ⟨sid, .fetch⟩ r t) .fetch) s.cycle (sliceOf r) r
    (if isHomePath s.core r || !executes (opened s ⟨sid, .fetch⟩ r t) r then noUse else useOf r)).trans
      (noteMisses_path (opened s ⟨sid, .fetch⟩ r t) t2 ⟨sid, .fetch⟩))
  simp only [Strand.path, Prod.mk.injEq] at this ⊢
  exact ⟨this.1, this.2.1⟩

theorem advance_eq_loopTest {t : Strand} (hn : t.next = none) :
    advance t = loopTest 4 { t with pc := t.pc + 16 } t.pc := by
  unfold advance
  split
  · rename_i h; rw [hn] at h; cases h
  · rfl

/-- A level that ends here and has iterations left: back to its body's start (03 R95). -/
theorem advance_of_more {t : Strand} {k : Fin 4} (hn : t.next = none) (hk : loopAt t t.pc = some k)
    (hc : 1 < t.loops[k].count) :
    advance t = { t with loops := (cutLoops t.loops (k.val + 1)).set k { t.loops[k] with count := t.loops[k].count - 1 }
                         pc := t.loops[k].start } := by
  have hk' : loopAt { t with pc := t.pc + 16 } t.pc = some k := hk
  simp only [advance_eq_loopTest hn, loopTest, hk', if_neg (BitVec.not_le.mpr hc)]

/-- A level that ends here with its last iteration is over: control goes on, or where the level outside it sends it when
that ends here too (03 R95). -/
theorem advance_of_last {t : Strand} {k : Fin 4} (hn : t.next = none) (hk : loopAt t t.pc = some k)
    (hc : t.loops[k].count ≤ 1) :
    advance t = if k.val ≠ 0 ∧ loopAt { t with loops := cutLoops t.loops k.val } t.pc = some (Fin.ofNat 4 (k.val - 1))
      then advance { t with loops := cutLoops t.loops k.val }
      else { t with pc := t.pc + 16, loops := cutLoops t.loops k.val } := by
  have hk' : loopAt { t with pc := t.pc + 16 } t.pc = some k := hk
  have hd : Strand.depth { t with pc := t.pc + 16, loops := cutLoops t.loops k.val } ≤ 3 :=
    Nat.le_trans (depth_cutLoops t k) (Nat.le_of_lt_succ k.isLt)
  have hn' : Strand.next { t with loops := cutLoops t.loops k.val } = none := hn
  rw [advance_eq_loopTest hn', loopTest_succ 3 t.pc hd, advance_eq_loopTest hn]
  exact loopTest_of_last hk' hc

/-- Settles O2: where `advance` goes, by the innermost level that ends at the word. -/
theorem programCounter : Obligations.ProgramCounter := by
  intro i s sid r t s2 t2 hc h2
  obtain ⟨s', t', he, hs', hpc, hl⟩ := hc.advance h2
  refine ⟨s', t', he, hs', fun a ha => ?_, fun hn hk => ?_, fun hn k hk hs hi => ?_⟩
  · rw [hpc, hl]
    simp only [advance, ha, and_self]
  · rw [hpc, hl]
    exact advance_none t2 hn hk
  · have hat := loopAt_eq_some hk hs hi
    refine ⟨fun hm => ?_, fun hle => ⟨fun hout => ?_, fun j hj hd hjs => ?_⟩⟩
    · rw [hpc, hl, advance_of_more hn hat hm]
      refine ⟨rfl, fun j => ?_⟩
      simp only [Fin.getElem_fin, Vector.getElem_set, getElem_cutLoops]
      rcases Nat.lt_trichotomy j.val k.val with h | h | h
      · rw [if_neg (by omega), if_neg (by omega), if_pos h]
      · rw [if_pos h.symm, if_neg (by omega), if_pos h]
      · rw [if_neg (by omega), if_pos (by omega), if_neg (by omega), if_neg (by omega)]
    · rw [hpc, hl, advance_of_last hn hat hle, if_neg]
      · exact ⟨rfl, rfl⟩
      · rintro ⟨h0, ho⟩
        refine hout (Fin.ofNat 4 (k.val - 1)) ?_ (loopAt_some ho)
        simp only [Fin.val_ofNat]
        omega
    · have ho : loopAt { t2 with loops := cutLoops t2.loops k.val } t2.pc = some j := by
        refine loopAt_eq_some hd hjs fun m hjm hm => ?_
        have := depth_cutLoops t2 k
        omega
      rw [hpc, hl, advance_of_last hn hat hle, if_pos]
      · exact ⟨rfl, rfl⟩
      · rw [ho]
        refine ⟨by omega, congrArg some (Fin.ext ?_)⟩
        simp only [Fin.val_ofNat]
        omega

end Sys2Proof.Machine
end

section
namespace Sys2Proof.Machine

open Decode

/-! ### Class 0 (03 R74, R77) -/

/-- Each row of class 0 is one call of the meaning that all share, with its own operation. -/
theorem exec_scalarRow : ∀ q ∈ scalarRows, ∀ (fl : FormS) (s : State),
    exec (q.1 fl) s = issue (q.1 fl) .ahead anyLevel (runS fl (q.2 fl)) s := by
  simp only [scalarRows, List.cons_append, List.nil_append, List.forall_mem_cons, List.not_mem_nil, false_imp_iff,
    implies_true, and_true]
  and_intros <;> exact fun _ _ => rfl

theorem noMark_ok {a b c : Option Mark} (ha : a = none) (hb : b = none) (hc : c = none) :
    noMark [a, b, c] = .ok () := by
  subst ha hb hc
  rfl

/-- The meaning of class 0, with operand b as the statements name it (02 R49). -/
theorem runS_eq (fl : FormS) (op : Word → Word → Word → Word) : runS fl op = onStrand (fun t => do
    frozenMarks t (gateOn t fl.gate) (fl.a :: (if fl.imm then [fl.c] else [fl.b, fl.c]))
    let a ← readScalar t fl.a
    let b ← operandB fl a.rest
    let c ← readScalar b.rest fl.c
    if gateOn t fl.gate then do
      noMark [a.mark, b.mark, c.mark]
      .ok (c.rest.putD fl.d (op a.val b.val c.val))
    else .ok c.rest) := by
  cases hi : fl.imm <;> simp only [runS, operandB, hi, if_true, Bool.false_eq_true, if_false]

/-- What a class 0 instruction computes, once its operands can be read (03 R74): its result when its predicate lets it
run, and the pops alone when not. -/
theorem runS_ok {fl : FormS} {o : State} {sid : Nat} {u : Strand} {a b c : Read Word} (op : Word → Word → Word → Word)
    (hs : o.sid = sid) (hu : o.strand? sid = some u) (h : Operands fl u a b c)
    (hm : gateOn u fl.gate = true → a.mark = none ∧ b.mark = none ∧ c.mark = none) :
    runS fl op o = .ok (o.setStrand sid
      (if gateOn u fl.gate then c.rest.putD fl.d (op a.val b.val c.val) else c.rest)) := by
  obtain ⟨ha, hb, hc⟩ := h
  rw [runS_eq]
  refine onStrand_ok hs hu ?_
  simp only [frozenMarks_operands ⟨ha, hb, hc⟩ _ hm, bind, Except.bind, ha, hb, hc]
  split
  · obtain ⟨ma, mb, mc⟩ := hm ‹_›
    simp only [noMark_ok ma mb mc]
  · rfl

theorem Finds.scalar {q : (FormS → Instr) × (FormS → Word → Word → Word → Word)} (hq : q ∈ scalarRows) {fl : FormS}
    {s o : State} {f : Focus} {r : Raw} {t u : Strand} {a b c : Read Word} (hf : Finds (q.1 fl) .ahead s f r t o u)
    (h : Operands fl u a b c) (hm : gateOn u fl.gate = true → a.mark = none ∧ b.mark = none ∧ c.mark = none) :
    Completes (q.1 fl) s f r t (o.setStrand f.sid
      (if gateOn u fl.gate then c.rest.putD fl.d (q.2 fl a.val b.val c.val) else c.rest)) :=
  hf.ok rfl (runS_ok (q.2 fl) hf.sid hf.strand h hm) (exec_scalarRow q hq fl s)

/-- Settles O3: the shared meaning of class 0 in its two cases. -/
theorem scalarCompletes : Obligations.ScalarCompletes := by
  intro q hq fl s o f r t u a b c hf h
  refine ⟨fun hg ma mb mc => ?_, fun hg => ?_⟩
  · simpa only [hg, if_true] using hf.scalar hq h fun _ => ⟨ma, mb, mc⟩
  · have := hf.scalar hq h fun hg' => absurd hg' (by simp [hg])
    simpa only [hg, Bool.false_eq_true, if_false] using this

/-- The strand `t'` differs from `t` in what it has popped off LQ and XQ and in the bookkeeping of issue alone. -/
def PopsOnly (t t' : Strand) : Prop := ∃ l x, t'.bare = Strand.bare { t with lq := l, xq := x }

/-- Pops leave every register and the other queues. -/
theorem PopsOnly.kept {t t' : Strand} (h : PopsOnly t t') :
    SameSpecial t t' ∧ t'.saq = t.saq ∧ t'.sdq = t.sdq ∧ t'.bq = t.bq ∧ t'.v = t.v ∧ t'.p = t.p ∧
      ∀ n, t'.getX n = t.getX n := by
  obtain ⟨l, x, h⟩ := h
  have e : ∀ {α : Type} (g : Strand → α), g t'.bare = g (Strand.bare { t with lq := l, xq := x }) :=
    fun g => congrArg g h
  exact ⟨(special_of_bare h : SameSpecial { t with lq := l, xq := x } t'), e Strand.saq, e Strand.sdq, e Strand.bq,
    e Strand.v, e Strand.p, fun n => e (Strand.getX · n)⟩

/-- Reading the operands of class 0 pops at most LQ and XQ. -/
theorem Operands.popsOnly {fl : FormS} {t u : Strand} {a b c : Read Word} (h : Operands fl u a b c) (hb : u.bare = t.bare) :
    PopsOnly t c.rest := by
  obtain ⟨ha, hb', hc⟩ := h
  obtain ⟨l1, x1, e1⟩ := readScalar_frame ha
  obtain ⟨l2, x2, e2⟩ := operandB_frame hb'
  obtain ⟨l3, x3, e3⟩ := readScalar_frame hc
  refine ⟨l3, x3, ?_⟩
  rw [e3, e2, e1]
  exact congrArg (fun q : Strand => { q with lq := l3, xq := x3 }) hb

theorem SameSpecial.trans {t t' t'' : Strand} (h : SameSpecial t t') (h' : SameSpecial t' t'') : SameSpecial t t'' := by
  simp only [SameSpecial] at *
  simp only [h', h, and_self]

@[simp] theorem getX_zero (t : Strand) : t.getX 0 = 0 := by simp [Strand.getX]

@[simp] theorem getX_thirtyTwo (t : Strand) : t.getX 32 = 0 := by simp [Strand.getX]

/-- A write of D, when the predicate lets it be, changes D alone (03 R77). -/
theorem gatedPutD_frame (q : Strand) (on : Bool) (d : Desig) (v : Word) :
    let w := if on then q.putD d v else q
    SameSpecial q w ∧ SameQueues q w ∧ w.v = q.v ∧ w.p = q.p ∧ ∀ n, d ≠ .x n → w.getX n = q.getX n := by
  cases on
  · simp [SameSpecial, SameQueues]
  · exact putD_frame q d v

/-- Settles O4: the effect of class 0 is a write of D after the pops of LQ and XQ, on its strand alone. -/
theorem scalarFrame : Obligations.ScalarFrame := by
  intro q hq fl s o f r t u a b c hf h ma mb mc
  obtain ⟨s', t', he, hw, hmem, hs', hj, hb⟩ := Completes.frame_setStrand hf (hf.scalar hq h fun _ => ⟨ma, mb, mc⟩)
  refine ⟨s', t', he, hw, hmem, hs', hj, ?_⟩
  obtain ⟨sp0, saq0, sdq0, bq0, v0, p0, x0⟩ := (h.popsOnly hf.bare).kept
  obtain ⟨sp, ⟨-, saq, sdq, -, bq⟩, v, p, x⟩ :=
    gatedPutD_frame c.rest (gateOn u fl.gate) fl.d (q.2 fl a.val b.val c.val)
  obtain ⟨-, saq', sdq', -, bq'⟩ := queues_of_bare hb
  exact ⟨fun n hn => (getX_of_bare hb n).trans ((x n hn).trans (x0 n)), getX_zero t', getX_thirtyTwo t',
    (v_of_bare hb).trans (v.trans v0), (p_of_bare hb).trans (p.trans p0), (sp0.trans sp).trans (special_of_bare hb),
    saq'.trans (saq.trans saq0), sdq'.trans (sdq.trans sdq0), bq'.trans (bq.trans bq0)⟩

end Sys2Proof.Machine
end

section
namespace Sys2Proof.Machine

open Decode

/-! ### A double trap (01 R36) -/

@[simp] theorem ras_tiles (s : State) (r : RasRec) : (s.ras r).tiles = s.tiles := by
  simp only [State.ras, apply_ite State.tiles, State.raiseInt_tiles, State.writeLoc_tiles, ite_self]

@[simp] theorem lose_tiles (s : State) (i : Nat) : (s.lose i).tiles = s.tiles := rfl

@[simp] theorem strand?_lose (s : State) (i : Nat) : (s.lose i).strand? i = none := strand?_dropStrand _ i

/-- Settles O11: the strand goes, and its task is marked with the cause. -/
theorem doubleTrap : Obligations.DoubleTrap := by
  intro s sid t k pc c sub v hd hh hk hf
  have ht : ∀ r, ((s.ras r).lose sid).task? (tileOf sid) = some k := fun r => by
    rw [← hk]
    exact task?_congr ((lose_tiles _ sid).trans (ras_tiles s r)) _
  simp only [takeTrap, if_pos hd, hh, Bool.false_eq_true, if_false, State.failTask]
  exact ⟨strand?_lose _ sid, by simp [ht, hf]⟩

/-! ### XRET (01 R38) -/

theorem pl_of_bare {t u : Strand} (h : u.bare = t.bare) : u.pl = t.pl :=
  show u.bare.pl = t.bare.pl from congrArg Strand.pl h

theorem leave_bits (t : Strand) : t.leave.pl = t.ppl ∧ t.leave.inh = t.pinh ∧ t.leave.qf = false := by
  simp (disch := decide) only [Strand.leave, Strand.noReuse, Strand.pl, Strand.inh, Strand.qf, putBit_get]
  exact ⟨rfl, rfl, rfl⟩

/-- Settles O12: the return when the level allows it, the cause of privilege when it does not. -/
theorem xretCompletes : Obligations.XretCompletes := by
  intro fl s o f r t u
  refine ⟨fun hf hp hg hr => ?_, fun hfo hst hw hill htm hp hi hx ha => ?_⟩
  · obtain ⟨hpl, hin, hqf⟩ := leave_bits u
    have hpriv : supervisorOnly s (settle s.cycle t) = none := by
      simp [supervisorOnly, pl_of_bare (settle_bare s.cycle t), hp]
    have hl : u.leave.guardRep = none := hr
    refine ⟨hf.ok hpriv ?_ (rfl : _ = execXret fl s), hpl, hin, hqf, rfl, rfl, rfl, rfl⟩
    rw [withFocus_eq hf.sid hf.strand]
    simp only [checkTarget_ok hg, hl, bind, Except.bind, hf.sid]
    rfl
  · have hpriv : supervisorOnly s (settle s.cycle t) = some privInsn := by
      simp [supervisorOnly, pl_of_bare (settle_bare s.cycle t), hp]
    exact issue_priv hfo hst hw hill htm hpriv ha (by decide) (by decide) hi hx

/-! ### Special registers (01 R42 to R45) -/

/-- The places of the bits of HFIX (01 R29). -/
theorem hfix_bits : ∀ b < 64, (0xFFFF0000 : Word).getLsbD b = (decide (16 ≤ b) && decide (b < 32)) := by decide

theorem clearFix_hctl (t : Strand) (b : Nat) (hb : b < 64) :
    (clearFix t).hctl.getLsbD b = (t.hctl.getLsbD b && !(decide (16 ≤ b) && decide (b < 32))) := by
  simp only [clearFix, BitVec.getLsbD_and, BitVec.getLsbD_not, hfix_bits b hb, hb, decide_true, Bool.true_and]

/-- What a read of a register that describes the strand's task answers, and that it changes nothing (05 R150). -/
theorem ofTask_some {s : State} {sid : Nat} {k : Task} (hh : isHead sid = false) (hk : s.task? (tileOf sid) = some k)
    (g : Task → Nat) (w : Nat) : ofTask s sid g w = (BitVec.ofNat 64 (g k), s) := by
  simp [ofTask, hh, hk]

theorem ofTask_head {s : State} {sid : Nat} (hh : isHead sid = true) (g : Task → Nat) (w : Nat) :
    (ofTask s sid g w).2 = { s with free := s.free + 1 } := by
  simp [ofTask, hh]

theorem readSreg_xscr (s : State) (sid : Nat) (t : Strand) (k : Fin 4) :
    (readSreg s sid t (0x008 + k.val)).1 = t.xscr[k] := by
  have hk : Fin.ofNat 4 (0x008 + k.val - 0x008) = k := by ext; simp
  unfold readSreg
  rw [if_pos (by omega)]
  simp only [hk]

theorem readSreg_perf (s : State) (sid : Nat) (t : Strand) (k : Fin 8) :
    (readSreg s sid t (0x038 + k.val)).1 = t.perf[k] := by
  have hk : Fin.ofNat 8 (0x038 + k.val - 0x038) = k := by ext; simp
  unfold readSreg
  rw [if_neg (by omega), if_pos (by omega)]
  simp only [hk]

theorem readSreg_loop (s : State) (sid : Nat) (t : Strand) (k : Fin 4) :
    (readSreg s sid t (0x044 + k.val)).1 = if t.loops[k].active then t.loops[k].count.setWidth 64 else 0 := by
  have hk : Fin.ofNat 4 (0x044 + k.val - 0x044) = k := by ext; simp
  unfold readSreg
  rw [if_neg (by omega), if_neg (by omega), if_pos (by omega)]
  simp only [hk]

theorem readSreg_tsen (s : State) (sid : Nat) (t : Strand) (k : Fin 32) :
    (readSreg s sid t (0xF20 + k.val)).1 = s.head.tsen[k].setWidth 64 := by
  have hk : Fin.ofNat 32 (0xF20 + k.val - 0xF20) = k := by rw [Nat.add_sub_cancel_left, Fin.ofNat_val_eq_self]
  unfold readSreg
  rw [if_neg (by omega), if_neg (by omega), if_neg (by omega), if_pos (by omega)]
  simp only [hk]

/-- The headstock's own registers (05 R169; 19 R453 to R456). -/
theorem readSreg_headstock (s : State) (sid : Nat) (t : Strand) :
    (readSreg s sid t 0xF00).1 = s.thr.setWidth 64 ∧ (readSreg s sid t 0xF01).1 = s.head.talert.setWidth 64 ∧
      (readSreg s sid t 0xF02).1 = s.head.intpend.setWidth 64 ∧ (readSreg s sid t 0xF03).1 = s.head.intmask.setWidth 64 := by
  simp [readSreg]

/-- On a tile no read but HCTL's changes anything (01 R42): every other branch answers the state it was given. -/
theorem readSreg_state {s : State} {sid : Nat} {k : Task} (t : Strand) (hh : isHead sid = false)
    (hk : s.task? (tileOf sid) = some k) {j : Nat} (hj : j ≠ 0x012) : (readSreg s sid t j).2 = s := by
  unfold readSreg
  simp only [ofTask_some hh hk]
  repeat' split
  any_goals rfl
  · exact absurd rfl hj

/-- Settles O14: the read by its level, and what each register answers, by the lemmas above. -/
theorem krdCompletes : Obligations.KrdCompletes := by
  intro fl s o f r t u
  obtain ⟨thr, talert, intpend, intmask⟩ := readSreg_headstock o f.sid u
  refine ⟨fun hf hl => ?_, fun hfo hst hw hill htm hp hu hi hx ha => ?_, rfl, rfl, rfl, rfl, rfl,
    readSreg_xscr o f.sid u, rfl, rfl, rfl, readSreg_perf o f.sid u, rfl, rfl, rfl, rfl, clearFix_hctl u, rfl,
    fun hh j hj => ?_, rfl, rfl, fun k hh hk => ⟨fun j hj => readSreg_state u hh hk hj, ?_⟩, readSreg_loop o f.sid u,
    rfl, thr, talert, intpend, intmask, readSreg_tsen o f.sid u⟩
  · have hpriv : readLevel fl s (settle s.cycle t) = none := by
      simp only [readLevel, pl_of_bare (settle_bare s.cycle t)]
      exact if_pos (by simpa using hl)
    refine hf.ok hpriv ?_ (rfl : _ = execKrd fl s)
    rw [withFocus_eq hf.sid hf.strand, hf.sid]
  · have hpriv : readLevel fl s (settle s.cycle t) = some (privSreg (sregOf fl)) := by
      simp only [readLevel, pl_of_bare (settle_bare s.cycle t), hp, hu]
      rfl
    exact issue_priv hfo hst hw hill htm hpriv ha (by decide) (by decide) hi hx
  · simp only [List.mem_cons, List.not_mem_nil, or_false] at hj
    rcases hj with rfl | rfl | rfl | rfl | rfl <;> exact ofTask_head hh _ _
  · have h : ∀ (g : Task → Nat) (w : Nat), (ofTask o f.sid g w).1 = BitVec.ofNat 64 (g k) := fun g w => by
      rw [ofTask_some hh hk]
    refine ⟨h _ _, h _ _, (h _ _).trans ?_, h _ _, (h _ _).trans ?_⟩
    · rw [BitVec.ofNat_toNat, BitVec.setWidth_eq]
    · rw [BitVec.ofNat_toNat]

end Sys2Proof.Machine
end

section
namespace Sys2Proof.Machine

open Decode

/-! ### KWR (01 R39, R43) -/

theorem writeLevel_ok {fl : FormS} {s : State} {t : Strand}
    (h : t.pl = true ∧ supervisorWrites (sregOf fl) = true ∨ sregOf fl = 0x012) :
    writeLevel fl s (settle s.cycle t) = none := by
  rw [writeLevel, pl_of_bare (settle_bare s.cycle t), if_pos]
  simpa using h

theorem kwrBody_ok {fl : FormS} {o : State} {sid : Nat} {u : Strand} (hs : o.sid = sid) (hu : o.strand? sid = some u)
    (hm : Unmarked u [fl.a]) : kwrBody fl o = .ok (o.writeSreg sid (sregOf fl) (u.xa fl.a)) := by
  rw [kwrBody, withFocus_eq hs hu, noMarks_ok hm, hs]
  rfl

/-- The bits of XSTAT that KWR writes (01 R39). -/
theorem xstatMask_bits : ∀ b < 64, xstatMask.getLsbD b = decide (b = 3 ∨ b = 4 ∨ b = 5) := by decide

theorem writeSreg_xstat (t : Strand) (w : Word) (b : Nat) (hb : b < 64) :
    (t.writeSreg 0x004 w).xstat.getLsbD b = if b = 3 ∨ b = 4 ∨ b = 5 then w.getLsbD b else t.xstat.getLsbD b := by
  have h : (t.writeSreg 0x004 w).xstat = (t.xstat &&& ~~~xstatMask) ||| (w &&& xstatMask) := rfl
  simp only [h, BitVec.getLsbD_or, BitVec.getLsbD_and, BitVec.getLsbD_not, xstatMask_bits b hb, hb]
  split <;> simp [*]

/-- Settles O15: the four rows of KWR share one body. -/
theorem kwrCompletes : Obligations.KwrCompletes := by
  intro fl s o f r t u i w hl hm
  have hp : writeLevel fl s (settle s.cycle t) = none := writeLevel_ok hl
  have key : ∀ (ins : Instr), Finds ins .drain s f r t o u → exec ins s = issue ins .drain (writeLevel fl) (kwrBody fl) s →
      Completes ins s f r t (o.writeSreg f.sid i w) := fun _ hf he => hf.ok hp (kwrBody_ok hf.sid hf.strand hm) he
  refine ⟨fun hf => key _ hf rfl, fun hf hi => ?_, fun hf hi => ?_, fun hf hi => ?_, rfl, rfl, rfl, rfl,
    fun b hb => writeSreg_xstat u w b hb⟩
  · simpa only [hi, State.writeSreg] using key _ hf rfl
  · simpa only [hi, State.writeSreg] using key _ hf rfl
  · simpa only [hi, State.writeSreg] using key _ hf rfl

/-! ### Loads (09 R276 to R278) -/

@[simp] theorem readReg_focus (s : State) (off : Nat) : (readReg s off).2.focus = s.focus := by
  simp only [readReg]
  split
  · rfl
  split
  · rfl
  split <;> rfl

@[simp] theorem readBar_focus (s : State) (off : Nat) : (readBar s off).2.focus = s.focus := by
  simp only [readBar, apply_ite Prod.snd, apply_ite State.focus, readReg_focus, ite_self]

@[simp] theorem fetchParts_focus (s : State) (tile sid : Nat) (ch : CacheHint) (ps : List Part) :
    (fetchParts s tile sid ch ps).2.focus = s.focus := by
  simp only [fetchParts]
  split
  · simp only [apply_ite Prod.snd, apply_ite State.focus, readBar_focus, loadParts_focus, ite_self]
  · simp only [apply_ite Prod.snd, apply_ite State.focus, loadParts_focus, ite_self]

theorem loadRead_focus (fl : FormM) (s : State) (f : Focus) (ps : List Part) : (loadRead fl s f ps).2.focus = s.focus := by
  simp only [loadRead, fetchParts_focus, apply_ite State.focus, freshen_focus, ite_self]

/-- The strand at work is the same after a load has started. -/
theorem loadStarts_sid {s : State} {f : Focus} (hs : s.sid = f.sid) (fl : FormM) (ps : List Part) (l : Flight) :
    (loadStarts (loadRead fl s f ps).2 f l).sid = f.sid :=
  (sid_congr ((updStrand_focus _ _ _).trans (loadRead_focus fl s f ps))).trans hs

theorem pushLq_eq {s : State} {sid : Nat} (hs : s.sid = sid) (size : Nat) (data : Option VReg) :
    pushLq s size data =
      s.updStrand sid fun q => { q with lq := q.lq ++ [{ seq := q.seq, req := s.own, size, data, mark := none }] } := by
  rw [pushLq, hs]

/-- Settles O20: each load's checks pass, its value is in flight, and the queued forms append their entry to LQ. -/
theorem loadsComplete : Obligations.LoadsComplete := by
  intro fl s o o2 f r t u ps
  dsimp only
  refine ⟨fun hf hr hm hfree => ?_, fun hf hr hm hfree hq hroom => ?_, fun hf hr ha hm hfree hq hroom => ?_,
    fun hf hn hm hq hroom => ?_⟩
  · obtain ⟨hp, hport, hno⟩ := hr
    have hs : o2.sid = f.sid := (sid_congr (scalarParts_focus hp)).trans hf.sid
    refine hf.ok rfl ?_ (rfl : _ = execLd fl s)
    rw [withFocus_eq hf.sid hf.strand]
    simp only [hp, hport, hno, noMarks_ok hm, bind, Except.bind]
    exact startLoad_ok hs hfree _ (.reg fl.d) _
  · obtain ⟨hp, hport, hno⟩ := hr
    have hs : o2.sid = f.sid := (sid_congr (scalarParts_focus hp)).trans hf.sid
    refine hf.ok rfl ?_ (rfl : _ = execLdq fl s)
    rw [withFocus_eq hf.sid hf.strand]
    simp only [hp, hno, noMarks_ok hm, lqRoom_ok hq hroom, bind, Except.bind, startLoad_ok hs hfree]
    rw [pushLq_eq (loadStarts_sid hs fl ps _)]
  · obtain ⟨hn, hb, hal, hp, hno⟩ := hr
    replace hp : accessParts o (readerOf o u fl) .load (effAddr u fl 9) (vecLen u fl) = .ok (ps, o2) := hp
    have hs : o2.sid = f.sid := (sid_congr (accessParts_focus hp)).trans hf.sid
    refine hf.ok rfl ?_ (rfl : _ = execVldq fl s)
    rw [withFocus_eq hf.sid hf.strand]
    simp only [if_neg hn, hf.sid, hb, hal, hp, ha, hno, noMarks_ok hm, lqRoom_ok hq hroom, bind, Except.bind,
      startLoad_ok hs hfree]
    rw [pushLq_eq (loadStarts_sid hs fl ps _)]
  · refine hf.ok rfl ?_ (rfl : _ = execVldq fl s)
    rw [withFocus_eq hf.sid hf.strand]
    simp only [if_pos hn, noMarks_ok hm, lqRoom_ok hq hroom, bind, Except.bind]
    rw [pushLq_eq hf.sid]

end Sys2Proof.Machine
end

section
namespace Sys2Proof.Machine

open Decode

/-! ### Class 3, by element (06 R178) -/

/-- Each elementwise row is one call of the meaning that class 3 shares, with its own result. -/
theorem exec_elementwiseRow : ∀ q ∈ elementwiseRows, ∀ (fl : FormV) (s : State), exec (q.1 fl) s =
    issue (q.1 fl) .normal anyLevel (runV fl (anyActive (Ty.bytes fl.ty)) false (q.2 fl)) s := by
  simp only [elementwiseRows, elementRows, List.map_cons, List.map_nil, List.cons_append, List.nil_append,
    List.forall_mem_cons, List.not_mem_nil, false_imp_iff, implies_true, and_true]
  and_intros <;> exact fun _ _ => rfl

/-- Each predicate row is one call of it too, bit by bit (06 R210). -/
theorem exec_bitRow : ∀ q ∈ bitRows, ∀ (fl : FormV) (s : State), exec (q.1 fl) s =
    issue (q.1 fl) .normal anyLevel (runV fl (fun g => g != 0) false (toBits fl (q.2 fl))) s := by
  simp only [bitRows, List.forall_mem_cons, List.not_mem_nil, false_imp_iff, implies_true, and_true]
  and_intros <;> exact fun _ _ => rfl

/-- What a class 3 word leaves in its strand, once its operands can be read: its result when its predicate lets it
consume them, and the pops alone when not (01 R18). -/
def vectorEffect (fl : FormV) (consumes : PReg → Bool) (res : PReg → VIn → Strand → Strand) (u : Strand)
    (a b c : Read VArg) : Strand :=
  if !gateNever fl.gate && consumes (govern u fl.gate) then
    res (govern u fl.gate) { a := a.val, b := b.val, c := c.val } c.rest
  else c.rest

theorem runV_ok {fl : FormV} {o : State} {sid : Nat} {u : Strand} {a b c : Read VArg} (consumes : PReg → Bool)
    (res : PReg → VIn → Strand → Strand) (hs : o.sid = sid) (hu : o.strand? sid = some u) (h : VectorReads fl u a b c)
    (hm : (!gateNever fl.gate && consumes (govern u fl.gate)) = true → a.mark = none ∧ b.mark = none ∧ c.mark = none) :
    runV fl consumes false res o = .ok (o.setStrand sid (vectorEffect fl consumes res u a b c)) := by
  obtain ⟨ha, hb, hc⟩ := h
  rw [runV]
  refine onStrand_ok hs hu ?_
  simp only [frozenMarks_vector ha hb hc _ hm, bind, Except.bind, ha, hb, hc, vectorEffect]
  cases hn : gateNever fl.gate
  · cases hg : consumes (govern u fl.gate)
    · rfl
    · obtain ⟨ma, mb, mc⟩ := hm (by rw [hn, hg]; rfl)
      simp only [noMark_ok ma mb mc]
      rfl
  · rfl

theorem Finds.vector {i : Instr} {fl : FormV} {consumes : PReg → Bool} {res : PReg → VIn → Strand → Strand} {s o : State}
    {f : Focus} {r : Raw} {t u : Strand} {a b c : Read VArg} (hf : Finds i .normal s f r t o u)
    (he : exec i s = issue i .normal anyLevel (runV fl consumes false res) s) (h : VectorReads fl u a b c)
    (hm : (!gateNever fl.gate && consumes (govern u fl.gate)) = true → a.mark = none ∧ b.mark = none ∧ c.mark = none) :
    Completes i s f r t (o.setStrand f.sid (vectorEffect fl consumes res u a b c)) :=
  hf.ok rfl (runV_ok consumes res hf.sid hf.strand h hm) he

/-- Settles O32: the shared meaning of class 3, with an element active and with none. -/
theorem elementwiseCompletes : Obligations.ElementwiseCompletes := by
  intro q hq fl s o f r t u a b c hf h
  have he := exec_elementwiseRow q hq fl s
  refine ⟨fun hg ma mb mc => ?_, fun hg => ?_⟩
  · simpa only [vectorEffect, hg, if_true] using hf.vector he h fun _ => ⟨ma, mb, mc⟩
  · have := hf.vector he h fun hg' => absurd (hg.symm.trans hg') Bool.false_ne_true
    simpa only [vectorEffect, hg, Bool.false_eq_true, if_false] using this

/-- A computation that answers has its first part's answer. -/
theorem bind_ok {α β : Type} {x : Res α} {g : α → Res β} {b : β} (h : (x >>= g) = .ok b) :
    ∃ a, x = .ok a ∧ g a = .ok b := by
  cases x with
  | error e => cases h
  | ok a => exact ⟨a, rfl, h⟩

/-- Reading a vector operand changes LQ only. -/
theorem readVector_frame {u : Strand} {d : Desig} {a : Read VReg} (h : readVector u d = .ok a) :
    ∃ l, a.rest = { u with lq := l } := by
  cases d with
  | lq =>
    obtain ⟨_, -, h⟩ := bind_ok h
    split at h
    · cases h
    · split at h
      · cases h
      · cases h
        exact ⟨_, rfl⟩
  | _ => cases h; exact ⟨u.lq, rfl⟩

/-- Reading a class 3 operand changes LQ and XQ only. -/
theorem readV_frame {u : Strand} {d : Desig} {m : SrcMod} {a : Read VArg} (h : readV u d m = .ok a) :
    ∃ l x, a.rest = { u with lq := l, xq := x } := by
  unfold readV at h
  split at h
  · obtain ⟨r, hr, ⟨⟩⟩ := bind_ok h
    exact readScalar_frame hr
  · obtain ⟨r, hr, ⟨⟩⟩ := bind_ok h
    exact readScalar_frame hr
  · cases h
    exact ⟨u.lq, u.xq, rfl⟩
  · obtain ⟨r, hr, ⟨⟩⟩ := bind_ok h
    obtain ⟨l, e⟩ := readVector_frame hr
    exact ⟨l, u.xq, e⟩

theorem VectorReads.popsOnly {fl : FormV} {t u : Strand} {a b c : Read VArg} (h : VectorReads fl u a b c)
    (hb : u.bare = t.bare) : PopsOnly t c.rest := by
  obtain ⟨ha, hb', hc⟩ := h
  obtain ⟨l1, x1, e1⟩ := readV_frame ha
  obtain ⟨l2, x2, e2⟩ := readV_frame hb'
  obtain ⟨l3, x3, e3⟩ := readV_frame hc
  refine ⟨l3, x3, ?_⟩
  rw [e3, e2, e1]
  exact congrArg (fun q : Strand => { q with lq := l3, xq := x3 }) hb

/-- The strand `t'` differs from `t` in the vector or predicate register that `d` names and in bookkeeping alone. -/
def OnlyD (d : Desig) (t t' : Strand) : Prop :=
  SameSpecial t t' ∧ SameQueues t t' ∧ (∀ n, t'.getX n = t.getX n) ∧ (∀ n, d ≠ .v n → t'.getV n = t.getV n) ∧
    ∀ n, d ≠ .p n → t'.getP n = t.getP n

theorem OnlyD.refl (d : Desig) (t : Strand) : OnlyD d t t := by simp [OnlyD, SameSpecial, SameQueues]

theorem setV_onlyD (t : Strand) (n : Fin 64) (w : VReg) : OnlyD (.v n) t (t.setV n w) := by
  refine ⟨by simp [SameSpecial, Strand.setV, Strand.invalidate], by simp [SameQueues, Strand.setV, Strand.invalidate],
    fun _ => rfl, fun m hm => ?_, fun _ _ => rfl⟩
  have : n.val ≠ m.val := fun h => hm (congrArg Desig.v (Fin.ext h))
  simp [Strand.getV, Strand.setV, Strand.invalidate, this]

theorem setP_onlyD (t : Strand) (n : Fin 8) (w : PReg) : OnlyD (.p n) t (t.setP n w) := by
  unfold Strand.setP
  split
  · exact OnlyD.refl _ t
  · refine ⟨by simp [SameSpecial, Strand.invalidate], by simp [SameQueues, Strand.invalidate], fun _ => rfl,
      fun _ _ => rfl, fun m hm => ?_⟩
    have : n.val ≠ m.val := fun h => hm (congrArg Desig.p (Fin.ext h))
    simp [Strand.getP, Strand.invalidate, this]

theorem toElems_onlyD (fl : FormV) (op : Nat → Nat → Nat → Nat) (g : PReg) (q : VIn) (t : Strand) :
    OnlyD fl.d t (toElems fl op g q t) := by
  simp only [toElems]
  split
  next n h => rw [h]; exact setV_onlyD t n _
  next => exact OnlyD.refl _ t

theorem toIndexed_onlyD (fl : FormV) (op : VIn → Nat → Nat) (g : PReg) (q : VIn) (t : Strand) :
    OnlyD fl.d t (toIndexed fl op g q t) := by
  simp only [toIndexed]
  split
  next n h => rw [h]; exact setV_onlyD t n _
  next => exact OnlyD.refl _ t

theorem toPred_onlyD (fl : FormV) (op : VIn → Nat → Bool) (g : PReg) (q : VIn) (t : Strand) :
    OnlyD fl.d t (toPred fl op g q t) := by
  simp only [toPred]
  split
  next n h => rw [h]; exact setP_onlyD t n _
  next => exact OnlyD.refl _ t

theorem toBits_onlyD (fl : FormV) (op : VIn → Strand → PReg) (g : PReg) (q : VIn) (t : Strand) :
    OnlyD fl.d t (toBits fl op g q t) := by
  simp only [toBits]
  split
  next n h => rw [h]; exact setP_onlyD t n _
  next => exact OnlyD.refl _ t

/-- The result of each elementwise row is a write of its destination. -/
theorem elementwiseRow_onlyD : ∀ q ∈ elementwiseRows, ∀ (fl : FormV) (g : PReg) (i : VIn) (t : Strand),
    OnlyD fl.d t (q.2 fl g i t) := by
  simp only [elementwiseRows, List.forall_mem_append, List.forall_mem_map, List.forall_mem_cons, List.not_mem_nil,
    false_imp_iff, implies_true, and_true]
  exact ⟨fun e _ fl => toElems_onlyD fl (e.2 fl), fun fl => toIndexed_onlyD fl _, fun fl => toIndexed_onlyD fl _,
    fun fl => toIndexed_onlyD fl _, fun fl => toPred_onlyD fl _, fun fl => toPred_onlyD fl _,
    fun fl g i t => toIndexed_onlyD fl _ g i t⟩

/-- The elementwise and the predicate rows share their meaning, and each writes its destination alone. -/
theorem exec_vectorRow : ∀ make ∈ elementwiseRows.map (·.1) ++ bitRows.map (·.1), ∀ fl : FormV, ∃ consumes res,
    (∀ s, exec (make fl) s = issue (make fl) .normal anyLevel (runV fl consumes false res) s) ∧
      ∀ g i t, OnlyD fl.d t (res g i t) := by
  intro make hm fl
  rcases List.mem_append.mp hm with hm | hm
  · obtain ⟨q, hq, rfl⟩ := List.mem_map.mp hm
    exact ⟨_, _, exec_elementwiseRow q hq fl, elementwiseRow_onlyD q hq fl⟩
  · obtain ⟨q, hq, rfl⟩ := List.mem_map.mp hm
    exact ⟨_, _, exec_bitRow q hq fl, toBits_onlyD fl _⟩

theorem vectorEffect_onlyD {fl : FormV} {res : PReg → VIn → Strand → Strand} (h : ∀ g i t, OnlyD fl.d t (res g i t))
    (consumes : PReg → Bool) (u : Strand) (a b c : Read VArg) :
    OnlyD fl.d c.rest (vectorEffect fl consumes res u a b c) := by
  unfold vectorEffect
  split
  · exact h _ _ _
  · exact OnlyD.refl _ _

/-- Settles O36: the effect is a write of the destination after the pops of LQ and XQ, on its strand alone. -/
theorem vectorFrame : Obligations.VectorFrame := by
  intro make hmake fl s o f r t u a b c hf h ma mb mc
  obtain ⟨consumes, res, he, hres⟩ := exec_vectorRow make hmake fl
  obtain ⟨s', t', he, hw, hmem, hs', hj, hb⟩ :=
    Completes.frame_setStrand hf (hf.vector (he s) h fun _ => ⟨ma, mb, mc⟩)
  obtain ⟨sp0, saq0, sdq0, bq0, v0, p0, x0⟩ := (VectorReads.popsOnly h hf.bare).kept
  obtain ⟨sp, ⟨-, saq, sdq, -, bq⟩, x, v, p⟩ := vectorEffect_onlyD hres consumes u a b c
  obtain ⟨-, saq', sdq', -, bq'⟩ := queues_of_bare hb
  refine ⟨s', t', he, hw, hmem, hs', hj, fun n => (getX_of_bare hb n).trans ((x n).trans (x0 n)), fun n hn => ?_,
    fun n hn => ?_, saq'.trans (saq.trans saq0), sdq'.trans (sdq.trans sdq0), bq'.trans (bq.trans bq0),
    (sp0.trans sp).trans (special_of_bare hb)⟩
  · refine Eq.trans ?_ ((v n hn).trans ?_)
    · simp only [Strand.getV, v_of_bare hb]
    · simp only [Strand.getV, v0]
  · refine Eq.trans ?_ ((p n hn).trans ?_)
    · simp only [Strand.getP, p_of_bare hb]
    · simp only [Strand.getP, p0]

end Sys2Proof.Machine
end

section
namespace Sys2Proof.Machine

open Decode

/-! ### The pairing logic (01 R17, R18) -/

@[simp] theorem ras_strands (s : State) (r : RasRec) : (s.ras r).strands = s.strands := by
  simp only [State.ras, apply_ite State.strands, State.raiseInt_strands, State.writeLoc_strands, ite_self]

/-- An update of a strand that is there is a write of its new value, whatever stood at its place last. -/
theorem setStrand_updStrand {s : State} {sid : Nat} {t : Strand} (h : s.strand? sid = some t) (g : Strand → Strand) :
    (s.setStrand sid t).updStrand sid g = s.updStrand sid g := by
  have h' : s.strands.get? sid = some t := h
  simp only [State.updStrand, State.setStrand, FMap.update, FMap.get?_set_self, h', FMap.set_set]

theorem eligible_congr {s s' : State} (ht : s'.tiles = s.tiles) (hl : s'.loom = s.loom) (sid : Nat) (t : Strand) :
    eligible s' sid t = eligible s sid t := by
  simp only [eligible, task?_congr ht, hl]

/-- With no bad register a pair that is ready goes by the verdict of the shadow tile alone. -/
theorem execStorePair_eq {s : State} {sid : Nat} {t : Strand} {a : SaqEnt} {saq : List SaqEnt} {d : SdqEnt}
    {sdq : List SdqEnt} (hs : s.strand? sid = some t) (ha : t.saq = a :: saq) (hd : t.sdq = d :: sdq)
    (hr : pairReady s sid t a d = true) (hb : t.badRegs = []) :
    execStorePair sid s =
      let popped := s.updStrand sid fun q => { q with saq, sdq }
      let out (s : State) : State := if a.ord = .rel ∧ !d.annul then s.releaseL1 (unitOf sid) a.scope else s
      .next (match (if d.annul || a.size == 0 then .pass else accessVerdict (s.setStrand sid t) sid t) with
        | .pass => out (performStore (out (popped.noteStore sid t (Nat.max a.seq d.seq) a.ch
            (if d.annul then [] else a.parts) (some a) (some d))) sid a d)
        | .rollback sub => divergeRollback popped sid sub 0x103
        | .diverge sub => divergeReport popped sid sub 0x103) := by
  simp only [execStorePair, hs, ha, hd, hr, lostReg_nil _ _ hb, repairRegs_nil _ _ hb, State.rasReplay,
    setStrand_updStrand hs]
  rfl

theorem ownAperture_noteStore (s : State) (sid : Nat) (t : Strand) (q : Nat) (ch : CacheHint) (ps : List Part)
    (a : Option SaqEnt) (d : Option SdqEnt) : ownAperture (s.noteStore sid t q ch ps a d) = ownAperture s := by
  unfold State.noteStore
  split <;> rfl

theorem ownAperture_updStrand (s : State) (sid : Nat) (g : Strand → Strand) :
    ownAperture (s.updStrand sid g) = ownAperture s := rfl

theorem noteMismatch_two (s : State) (sid : Nat) : s.noteMismatch sid 2 = s := if_neg fun h => absurd h.1 (by decide)

/-- A rollback that the shadow tile asks for is set on its strand alone (17 R445). -/
theorem divergeRollback_two (s : State) (sid : Nat) (opc : BitVec 10) : divergeRollback s sid 2 opc =
    s.updStrand sid fun q => { q with checker := none, rollback := some (0x0F, 2, BitVec.ofNat 56 (tileOf sid)) } := by
  rw [divergeRollback, noteMismatch_two]
  rfl

/-- A report of the shadow tile is held by its strand, which keeps the first; the tiles stay (17 R445). -/
theorem divergeReport_two {s : State} {sid : Nat} {t : Strand} (hs : s.strand? sid = some t) (opc : BitVec 10) :
    (divergeReport s sid 2 opc).tiles = s.tiles ∧ (divergeReport s sid 2 opc).strand? sid = some { t with
      checker := none,
      divRep := match t.divRep with
        | some r => some r
        | none => some { val := BitVec.ofNat 64 (2 * 2 ^ 56 + tileOf sid) } } := by
  have hr : ∀ r, (s.ras r).strand? sid = some t := fun r => (strand?_congr (ras_strands s r) sid).trans hs
  simp only [divergeReport, noteMismatch_two, State.updStrand_tiles, ras_tiles, strand?_updStrand, hr]
  exact ⟨trivial, rfl⟩

/-- Settles O23: the pair leaves both queues, and is annulled, performed, or dropped at a mismatch. -/
theorem storePairs : Obligations.StorePairs := by
  intro s sid t a saq d sdq hs ha hd hr hb
  have he := execStorePair_eq hs ha hd hr hb
  have hp : (s.updStrand sid fun q => { q with saq, sdq }).strand? sid = some { t with saq, sdq } := by
    rw [strand?_updStrand, hs]
    rfl
  refine ⟨fun hn => ?_, fun hn hz hrel hc hdev hap => ?_, fun hn hz hc => ?_, fun hw => noteStore_empty _ _ _ _ _ _ _ _ hw⟩
  · refine he.trans ?_
    simp only [hn, Bool.true_or, if_true, Bool.not_true, Bool.false_eq_true, and_false, if_false, performStore]
  · refine he.trans ?_
    simp only [hn, hrel, accessVerdict, hc, performStore, hdev, ownAperture_noteStore, ownAperture_updStrand, hap, dataBytes,
      beq_eq_false_iff_ne.mpr hz, Bool.or_self, Bool.false_eq_true, if_false, ite_self, false_and]
  · have hv : accessVerdict (s.setStrand sid t) sid t = if eligible s sid t then .rollback 2 else .diverge 2 := by
      simp only [accessVerdict, verdict, hc, if_true,
        eligible_congr (State.setStrand_tiles s sid t) (State.setStrand_loom s sid t)]
    simp only [hn, hv, beq_eq_false_iff_ne.mpr hz, Bool.or_self, Bool.false_eq_true, if_false] at he
    cases hel : eligible s sid t
    · obtain ⟨htiles, hstr⟩ := divergeReport_two hp 0x103
      simp only [hel, Bool.false_eq_true, if_false] at he
      exact ⟨_, _, he, hstr, rfl, rfl, htiles, rfl, fun h => absurd h Bool.false_ne_true, fun _ hdr => by simp only [hdr]⟩
    · simp only [hel, if_true, divergeRollback_two] at he
      exact ⟨_, _, he, by rw [strand?_updStrand, hp]; rfl, rfl, rfl, rfl, rfl, fun _ => ⟨rfl, rfl⟩,
        fun h => absurd h.symm Bool.false_ne_true⟩

end Sys2Proof.Machine
end

section
namespace Sys2Proof.Machine

open Decode

/-! ### Reset (01 R42) -/

/-- Settles O56: each register of the reset state is its literal, and every table is empty. -/
theorem resetValues : Obligations.ResetValues := by
  have hm : State.reset.mem = [] := rfl
  refine ⟨rfl, rfl, rfl, rfl, rfl, rfl, rfl, rfl, rfl, rfl, rfl, rfl, rfl, rfl, rfl, fun _ => rfl, fun _ => rfl,
    fun _ _ => rfl, rfl, rfl, rfl, rfl, rfl, rfl, rfl, fun _ => rfl, fun _ => rfl, hm, ?_⟩
  rw [hm]
  rfl

/-! ### Bytes of a line (03 R90) -/

theorem leNat_lt (bs : List Byte) : leNat bs < 2 ^ (8 * bs.length) := by
  induction bs with
  | nil => simp [leNat]
  | cons b bs ih =>
    have hb := b.isLt
    rw [leNat, List.length_cons, Nat.mul_succ, Nat.pow_add]
    omega

theorem leNat_append (as bs : List Byte) : leNat (as ++ bs) = leNat as + 2 ^ (8 * as.length) * leNat bs := by
  induction as with
  | nil => simp [leNat]
  | cons a as ih =>
    rw [List.cons_append, leNat, leNat, ih, List.length_cons, Nat.mul_succ, Nat.pow_add, Nat.mul_add, Nat.add_assoc,
      Nat.mul_assoc, Nat.mul_left_comm]

theorem readN_length (m : List Host.Cell) (a n : Nat) : (Memory.readN m a n).length = n := by
  induction n generalizing a with
  | zero => rfl
  | succ n ih => rw [Memory.readN, List.length_cons, ih]

theorem readN_add (m : List Host.Cell) (a i j : Nat) :
    Memory.readN m a (i + j) = Memory.readN m a i ++ Memory.readN m (a + i) j := by
  induction i generalizing a with
  | zero => simp [Memory.readN]
  | succ i ih => rw [Nat.succ_add, Memory.readN, Memory.readN, ih, Nat.succ_add_eq_add_succ]; rfl

theorem wordOfBytes_eq (bs : List Byte) : wordOfBytes bs = BitVec.ofNat 128 (leNat bs) := by
  rw [wordOfBytes]
  congr 1
  induction bs with
  | nil => rfl
  | cons b bs ih => rw [List.foldr_cons, leNat, ih]

/-- The bits at byte `o` of a run of bytes are the bytes that stand there. -/
theorem extract_readN (m : List Host.Cell) (base o j k : Nat) :
    (BitVec.ofNat (8 * (o + (j + k))) (leNat (Memory.readN m base (o + (j + k))))).extractLsb' (8 * o) (8 * j) =
      BitVec.ofNat (8 * j) (leNat (Memory.readN m (base + o) j)) := by
  have hlt := leNat_lt (Memory.readN m base (o + (j + k)))
  have hA := leNat_lt (Memory.readN m base o)
  have hB := leNat_lt (Memory.readN m (base + o) j)
  rw [readN_length] at hlt hA hB
  apply BitVec.eq_of_toNat_eq
  rw [BitVec.extractLsb'_toNat, BitVec.toNat_ofNat, BitVec.toNat_ofNat, Nat.mod_eq_of_lt hlt, Nat.mod_eq_of_lt hB, readN_add,
    readN_add, leNat_append, leNat_append, readN_length, readN_length, Nat.shiftRight_eq_div_pow,
    Nat.add_mul_div_left _ _ (Nat.two_pow_pos _), Nat.div_eq_of_lt hA, Nat.zero_add, Nat.add_mul_mod_self_left,
    Nat.mod_eq_of_lt hB]

/-- The 128 bits at byte `o` of a line are the word of the 16 bytes that stand there in memory. -/
theorem extract_line (m : List Host.Cell) (base o k : Nat) (hk : o + (16 + k) = 128) :
    (BitVec.ofNat 1024 (leNat (Memory.readN m base 128))).extractLsb' (8 * o) 128 =
      wordOfBytes (Memory.readN m (base + o) 16) := by
  have h := extract_readN m base o 16 k
  rw [hk] at h
  rw [wordOfBytes_eq]
  exact h

/-! ### The word at PC (03 R90) -/

theorem icacheOf_setIcache (s : State) (tile : Nat) (l : List ILine) : icacheOf (setIcache s tile l) tile = l := by
  by_cases h : tile = 192
  · simp [icacheOf, setIcache, h]
  · simp [icacheOf, setIcache, h]

/-- A line just loaded is in the cache: the newest line always stays (03 R98). -/
theorem ilineFind_loadIline (s : State) (tile : Nat) (pasid : BitVec 20) (va loc : Nat) :
    ilineFind (icacheOf (loadIline s tile pasid va loc) tile) pasid va =
      some { pasid, va, data := BitVec.ofNat 1024 (leNat (viewLine s tile loc)), poison := viewPoison s tile loc } := by
  rw [loadIline, icacheOf_setIcache, show icacheLines = 1023 + 1 from rfl, trimLines]
  exact List.find?_cons_of_pos (by simp)

/-- A word that is in no cache and stands in no poisoned sector is the 16 bytes at PC. -/
theorem fetchWord_memory {s s1 : State} {a : Agent} {pc : Word} {p : Part}
    (hp : fetchPart s a pc.toNat = (.part p, s1)) (ha : pc.toNat % 16 = 0) (hl : p.loc % 128 = pc.toNat % 128)
    (hi : ilineFind (icacheOf s1 a.tile) a.pasid (pc.toNat / 128 * 128) = none)
    (hn : s1.line? a.tile (p.loc / 128) = none) (hz : s1.memPoison (p.loc / 128) = 0) :
    (fetchWord s a pc).1 = .word (wordOfBytes (s1.readLoc p.loc 16)) := by
  have hd : p.loc / 128 * 128 / 128 = p.loc / 128 := Nat.mul_div_cancel _ (by omega)
  have hv : viewLine s1 a.tile (p.loc / 128 * 128) = Memory.readN s1.mem (p.loc / 128 * 128) 128 := by
    simp only [viewLine, hd, hn, State.readLoc]
  have hq : viewPoison s1 a.tile (p.loc / 128 * 128) = 0 := by
    simp only [viewPoison, hd, hn, hz]
  have hw := extract_line s1.mem (p.loc / 128 * 128) (pc.toNat % 128) (112 - pc.toNat % 128) (by omega)
  rw [show p.loc / 128 * 128 + pc.toNat % 128 = p.loc by omega] at hw
  simp only [fetchWord, hp, hi, Option.isSome_none, Bool.false_eq_true, if_false, ilineFind_loadIline, hv, hq, hw,
    State.readLoc]
  exact congrArg Prod.fst (if_neg (by simp))

/-! ### A turn in which a slice issues (01 R12, R14) -/

theorem step_issue {s : State} {sid : Nat} {sl : Slice} {rest : List Turn} {t : Strand}
    (hag : s.agenda = .issue sid sl :: rest) (hoff : s.host.off = false)
    (hs : State.strand? { s with agenda := rest } sid = some t) (hm : mayIssue { s with agenda := rest } sid t = true)
    (ho : issueOpen { s with agenda := rest } (tileOf sid) = true) :
    step s = match (match sl with
      | .a => tryA sid 66 { s with agenda := rest }
      | .e => tryE { s with agenda := rest } sid t) with
      | .idle s => .next s
      | .did a => a := by
  simp only [step, hag, runTurn, hoff, issueTurn, hs, hm, ho, tryIssue, Bool.and_self, Bool.false_eq_true, if_false,
    if_true] <;> rfl

theorem atPc_insn {s s1 : State} {sid : Nat} {t : Strand} {w : IWord} {i : Instr}
    (hf : fetchWord s (agentOf s sid t) t.pc = (.word w, s1)) (hd : decode (coreOf sid) w = .ok i) :
    atPc s sid t = .insn i s1 := by
  simp only [atPc, hf, hd]

theorem atPc_ill {s s1 : State} {sid : Nat} {t : Strand} {w : IWord} {sub : IllSub}
    (hf : fetchWord s (agentOf s sid t) t.pc = (.word w, s1)) (hd : decode (coreOf sid) w = .error sub) :
    atPc s sid t = .ill sub w s1 := by
  simp only [atPc, hf, hd]

/-- The access slice passes a word of E on and goes on at the next (01 R14). -/
theorem tryA_passes {n : Nat} {s s1 : State} {sid : Nat} {t : Strand} {i : Instr} (hs : s.strand? sid = some t)
    (hat : atPc s sid t = .insn i s1) (hc : comesToStop s1 sid t i = false) (hi : sliceAt i = some .e)
    (hl : limitOk t = true) : tryA sid (n + 1) s = tryA sid n (s1.setStrand sid (passToE t i)) := by
  simp only [tryA, hs, hat, hc, hi, hl, Bool.false_eq_true, if_false, if_true]

/-- Settles O60: what a slice whose turn it is makes of the word at PC, or E of the oldest word passed to it. -/
theorem stepRunsTheDecoded : Obligations.StepRunsTheDecoded := by
  intro s sid sl rest t hag hoff
  dsimp only
  intro hs hm ho
  have hstep := step_issue hag hoff hs hm ho
  refine ⟨fun p s1 => fetchWord_memory, fun w i s1 hw hf hd hc => ?_, fun w sub s1 hw hf hd hsl => ?_,
    fun e q he hsl => ?_⟩
  · have hat := atPc_insn hf hd
    refine ⟨fun hi => ?_, fun hsl hi hl => ?_⟩
    · cases sl with
      | a => simp only [hstep, tryA, hs, hat, hc, hi, Bool.false_eq_true, if_false]
      | e =>
        have he : t.ewin = [] := hw.resolve_right (by decide)
        simp only [hstep, tryE, he, hat, hc, hi, Bool.false_eq_true, if_false]
    · subst hsl
      rw [hstep]
      simp only [tryA_passes (n := 65) hs hat hc hi hl] <;> rfl
  · have hat := atPc_ill hf hd
    cases sl with
    | a => simp only [hstep, tryA, hs, hat, hsl]
    | e =>
      have he : t.ewin = [] := hw.resolve_right (by decide)
      simp only [hstep, tryE, he, hat, hsl]
  · subst hsl
    simp only [hstep, tryE, he]

end Sys2Proof.Machine
end

section
namespace Sys2Proof.Machine

open Decode

/-! ### Frozen queues (01 R37) -/

theorem qf_of_bare {t u : Strand} (h : u.bare = t.bare) : u.qf = t.qf :=
  show u.bare.qf = t.bare.qf from congrArg Strand.qf h

theorem frozen_trap {u : Strand} (h : u.qf = true) : frozen u = .error (queueTrap 2) := by
  simp [frozen, need, h]

theorem lqRoom_frozen {u : Strand} (h : u.qf = true) : lqRoom u = .error (queueTrap 2) := by
  rw [lqRoom, frozen_trap h]
  rfl

theorem saqRoom_frozen {u : Strand} (h : u.qf = true) : saqRoom u = .error (queueTrap 2) := by
  rw [saqRoom, frozen_trap h]
  rfl

theorem sdqRoom_frozen {u : Strand} (h : u.qf = true) : sdqRoom u = .error (queueTrap 2) := by
  rw [sdqRoom, frozen_trap h]
  rfl

theorem popLq_frozen {u : Strand} (h : u.qf = true) : popLq u = .error (queueTrap 2) := by
  rw [popLq, frozen_trap h]
  rfl

theorem popXq_frozen {u : Strand} (h : u.qf = true) : popXq u = .error (queueTrap 2) := by
  rw [popXq, frozen_trap h]
  rfl

/-- An operand that pops a queue is the cause while the queues are frozen. -/
theorem readScalar_queue_frozen {u : Strand} {d : Desig} (h : u.qf = true) (hd : d = .lq ∨ d = .xq) :
    readScalar u d = .error (queueTrap 2) := by
  rcases hd with rfl | rfl
  · rw [readScalar, popLq_frozen h]
    rfl
  · exact popXq_frozen h

theorem readV_queue_frozen {u : Strand} {d : Desig} (m : SrcMod) (h : u.qf = true) (hd : d = .lq ∨ d = .xq) :
    readV u d m = .error (queueTrap 2) := by
  rcases hd with rfl | rfl
  · simp only [readV, readVector, popLq_frozen h]
    rfl
  · simp only [readV, readScalar, popXq_frozen h]
    rfl

theorem frozenMarks_unmarked {u : Strand} (h : ∀ d, u.markOf d = none) (on : Bool) (ds : List Desig) :
    frozenMarks u on ds = .ok () := by
  rw [frozenMarks, noMarks_ok fun d _ => h d, ite_self]

theorem onStrand_error {o : State} {k : Nat} {u : Strand} {g : Strand → Res Strand} {e : Halt} (hs : o.sid = k)
    (h : o.strand? k = some u) (hg : g u = .error e) : onStrand g o = .error e := by
  subst hs
  simp [onStrand, h, hg, bind, Except.bind]

theorem runS_frozen {fl : FormS} {o : State} {sid : Nat} {u : Strand} (op : Word → Word → Word → Word) (hs : o.sid = sid)
    (hu : o.strand? sid = some u) (hq : u.qf = true) (ha : fl.a = .lq ∨ fl.a = .xq) (hm : ∀ d, u.markOf d = none) :
    runS fl op o = .error (queueTrap 2) := by
  rw [runS_eq]
  refine onStrand_error hs hu ?_
  simp only [frozenMarks_unmarked hm, readScalar_queue_frozen hq ha, bind, Except.bind]

theorem runV_frozen {fl : FormV} {o : State} {sid : Nat} {u : Strand} (consumes : PReg → Bool) (always : Bool)
    (res : PReg → VIn → Strand → Strand) (hs : o.sid = sid) (hu : o.strand? sid = some u) (hq : u.qf = true)
    (ha : fl.a = .lq ∨ fl.a = .xq) (hm : ∀ d, u.markOf d = none) :
    runV fl consumes always res o = .error (queueTrap 2) := by
  rw [runV]
  refine onStrand_error hs hu ?_
  simp only [frozenMarks_unmarked hm, readV_queue_frozen _ hq ha, bind, Except.bind]

/-- The instruction is not executed: its strand is at the handler with QUEUE FROZEN. -/
def Froze (i : Instr) (s : State) (f : Focus) (t : Strand) : Prop :=
  ∃ s' t', exec i s = .next s' ∧ s'.strand? f.sid = some t' ∧ TookTrap t t' t.pc 0x0B 2 0

/-- A strand whose queues are frozen, and that takes a trap of the word in focus at that word. -/
def FrozenAlone (s : State) (f : Focus) (r : Raw) (t : Strand) : Prop :=
  t.qf = true ∧ t.inh = false ∧ t.xvec ≠ 0 ∧ Alone (opened s f r t) f

theorem Finds.froze {i : Instr} {ord : Order} {s o : State} {f : Focus} {r : Raw} {t u : Strand} {body : Body}
    (hf : Finds i ord s f r t o u) (hz : FrozenAlone s f r t) (he : exec i s = issue i ord anyLevel body s)
    (hb : body o = .error (queueTrap 2)) : Froze i s f t := by
  obtain ⟨h, rfl, rfl⟩ := hf
  obtain ⟨-, hi, hx, ha⟩ := hz
  rw [Froze, he]
  exact issue_took h rfl hb ha (by decide) (by decide) hi hx

theorem Finds.froze_withFocus {i : Instr} {ord : Order} {s o : State} {f : Focus} {r : Raw} {t u : Strand}
    {g : State → Strand → Res State} (hf : Finds i ord s f r t o u) (hz : FrozenAlone s f r t)
    (he : exec i s = issue i ord anyLevel (withFocus g) s) (hb : g o u = .error (queueTrap 2)) : Froze i s f t :=
  hf.froze hz he ((withFocus_eq hf.sid hf.strand).trans hb)

theorem Finds.qf {i : Instr} {ord : Order} {s o : State} {f : Focus} {r : Raw} {t u : Strand}
    (hf : Finds i ord s f r t o u) (hz : FrozenAlone s f r t) : u.qf = true :=
  (qf_of_bare hf.bare).trans hz.1

/-- MOVQ, BQPOP, STD, VSTD and BQPUSH look at the queues first. -/
theorem froze_first {fl : FormM} {s o : State} {f : Focus} {r : Raw} {t u : Strand} (hz : FrozenAlone s f r t) :
    (∀ i ∈ [Instr.movq fl, .bqpop fl], Finds i .ahead s f r t o u → Froze i s f t) ∧
    ∀ i ∈ [Instr.std fl, .vstd fl, .bqpush fl], Finds i .normal s f r t o u → Froze i s f t := by
  simp only [List.forall_mem_cons, List.not_mem_nil, false_imp_iff, implies_true, and_true]
  refine ⟨⟨fun hf => hf.froze_withFocus hz (rfl : _ = execMovq fl s) ?_,
    fun hf => hf.froze_withFocus hz (rfl : _ = execBqpop fl s) ?_⟩,
    fun hf => hf.froze_withFocus hz (rfl : _ = execStd fl s) ?_,
    fun hf => hf.froze_withFocus hz (rfl : _ = execVstd fl s) ?_,
    fun hf => hf.froze_withFocus hz (rfl : _ = execBqpush fl s) ?_⟩
  · rw [frozen_trap (hf.qf hz)]; rfl
  · rw [frozen_trap (hf.qf hz)]; rfl
  · rw [sdqRoom_frozen (hf.qf hz)]; rfl
  · rw [sdqRoom_frozen (hf.qf hz)]; rfl
  · rw [frozen_trap (hf.qf hz)]; rfl

/-- LDQ and STA look at the queue once the checks of their address have passed. -/
theorem froze_scalar {fl : FormM} {s o o2 : State} {f : Focus} {r : Raw} {t u : Strand} {ps : List Part}
    (hz : FrozenAlone s f r t) (hm : Unmarked u [fl.a, fl.b]) :
    (Finds (.ldq fl) .ahead s f r t o u → Reaches fl .load o u (effAddr u fl (sizeLog fl.ty)) (Ty.bytes fl.ty) ps o2 →
      Froze (.ldq fl) s f t) ∧
    (Finds (.sta fl) .ahead s f r t o u → Reaches fl .store o u (effAddr u fl (sizeLog fl.ty)) (Ty.bytes fl.ty) ps o2 →
      Froze (.sta fl) s f t) := by
  refine ⟨fun hf ⟨hp, _, hno⟩ => hf.froze_withFocus hz (rfl : _ = execLdq fl s) ?_,
    fun hf ⟨hp, _, hno⟩ => hf.froze_withFocus hz (rfl : _ = execSta fl s) ?_⟩
  · simp only [hp, hno, noMarks_ok hm, lqRoom_frozen (hf.qf hz), bind, Except.bind]
  · simp only [hp, hno, noMarks_ok hm, saqRoom_frozen (hf.qf hz), bind, Except.bind]

/-- VLDQ and VSTA likewise. -/
theorem froze_vector {fl : FormM} {s o o2 o3 : State} {f : Focus} {r : Raw} {t u : Strand} {ps : List Part}
    (hz : FrozenAlone s f r t) (hm : Unmarked u [fl.a, fl.b, fl.c]) :
    (Finds (.vldq fl) .ahead s f r t o u → VecReaches fl .load o f u (effAddr u fl 9) (vecLen u fl) ps o2 →
      noAperture ps = .ok () → Froze (.vldq fl) s f t) ∧
    (Finds (.vsta fl) .ahead s f r t o u → VecReaches fl .store o f u (effAddr u fl 9) (vecLen u fl) ps o2 →
      checkAperture o2 (o.pasidOf f.sid) (!u.pl) ps = .ok o3 → Froze (.vsta fl) s f t) := by
  refine ⟨fun hf ⟨hn, hb, hal, hp, hno⟩ ha => hf.froze_withFocus hz (rfl : _ = execVldq fl s) ?_,
    fun hf ⟨hn, hb, hal, hp, hno⟩ ha => hf.froze_withFocus hz (rfl : _ = execVsta fl s) ?_⟩
  · replace hp : accessParts o (readerOf o u fl) .load (effAddr u fl 9) (vecLen u fl) = .ok (ps, o2) := hp
    simp only [if_neg hn, hf.sid, hb, hal, hp, ha, hno, noMarks_ok hm, lqRoom_frozen (hf.qf hz), bind, Except.bind]
  · replace hp : accessParts o (agentOf o f.sid u) .store (effAddr u fl 9) (vecLen u fl) true = .ok (ps, o2) := hp
    simp only [if_neg hn, hf.sid, hb, hal, hp, ha, hno, noMarks_ok hm, saqRoom_frozen (hf.qf hz), bind, Except.bind]

/-- With a length of 0 there is no address to check. -/
theorem froze_empty {fl : FormM} {s o : State} {f : Focus} {r : Raw} {t u : Strand} (hz : FrozenAlone s f r t)
    (hn : vecLen u fl = 0) (hm : Unmarked u [fl.a, fl.b, fl.c]) :
    ∀ i ∈ [Instr.vldq fl, .vsta fl], Finds i .ahead s f r t o u → Froze i s f t := by
  simp only [List.forall_mem_cons, List.not_mem_nil, false_imp_iff, implies_true, and_true]
  refine ⟨fun hf => hf.froze_withFocus hz (rfl : _ = execVldq fl s) ?_,
    fun hf => hf.froze_withFocus hz (rfl : _ = execVsta fl s) ?_⟩
  · simp only [if_pos hn, noMarks_ok hm, lqRoom_frozen (hf.qf hz), bind, Except.bind]
  · simp only [if_pos hn, noMarks_ok hm, saqRoom_frozen (hf.qf hz), bind, Except.bind]

/-- A word of class 0 or an elementwise word of class 3 whose operand a is a queue (01 R16). -/
theorem froze_operand {s o : State} {f : Focus} {r : Raw} {t u : Strand} (hz : FrozenAlone s f r t) :
    (∀ q ∈ scalarRows, ∀ fl : FormS, fl.a = .lq ∨ fl.a = .xq → (∀ d, u.markOf d = none) →
      Finds (q.1 fl) .ahead s f r t o u → Froze (q.1 fl) s f t) ∧
    ∀ q ∈ elementRows, ∀ fl : FormV, fl.a = .lq ∨ fl.a = .xq → (∀ d, u.markOf d = none) →
      Finds (q.1 fl) .normal s f r t o u → Froze (q.1 fl) s f t := by
  refine ⟨fun q hq fl ha hm hf => ?_, fun q hq fl ha hm hf => ?_⟩
  · exact hf.froze hz (exec_scalarRow q hq fl s) (runS_frozen _ hf.sid hf.strand (hf.qf hz) ha hm)
  · have hrow : (q.1, fun fl => toElems fl (q.2 fl)) ∈ elementwiseRows :=
      List.mem_append_left _ (List.mem_map_of_mem hq)
    exact hf.froze hz (exec_elementwiseRow _ hrow fl s) (runV_frozen _ _ _ hf.sid hf.strand (hf.qf hz) ha hm)

/-! ### CROSSWAIT (01 R19, R31) -/

theorem unstore_nil {s : State} {sid : Nat} {t : Strand} (q : Nat) (h : t.early = []) :
    s.unstore sid (undone t q) = s := by
  rw [undone, h]
  rfl

@[simp] theorem settle_early (c : Nat) (t : Strand) : (settle c t).early = t.early := by
  obtain ⟨p, q, a, e, h⟩ := settle_eq c t
  rw [h]

@[simp] theorem settle_waitA (c : Nat) (t : Strand) : (settle c t).waitA = t.waitA := by
  obtain ⟨p, q, a, e, h⟩ := settle_eq c t
  rw [h]

theorem handler_of_bare {t u : Strand} (h : u.bare = t.bare) : u.inh = t.inh ∧ u.xvec = t.xvec :=
  ⟨show u.bare.inh = t.bare.inh from congrArg Strand.inh h, show u.bare.xvec = t.bare.xvec from congrArg Strand.xvec h⟩

/-- What the access slice has done since a word of E is taken back; where a trap leads is not of it. -/
theorem undoFrom_handler (t : Strand) (e : EwEnt) : (undoFrom t e).inh = t.inh ∧ (undoFrom t e).xvec = t.xvec := by
  have hb : (uncount (clearReads (clearPend t fun p => decide (e.seq ≤ p.seq)) fun p => decide (e.seq ≤ p.seq)) e.seq).bare =
      t.bare := by rw [uncount_bare, clearReads_bare, clearPend_bare]
  simp only [undoFrom, Strand.inh]
  obtain ⟨hi, hx⟩ := handler_of_bare hb
  exact ⟨hi, hx⟩

/-- Control, level and the saved state are the handler's; registers, levels of loops and queues are kept (01 R35). -/
theorem enter_kept (t : Strand) (pc : Word) (c sub : BitVec 8) (v : BitVec 56) :
    (t.enter pc c sub v).x = t.x ∧ (t.enter pc c sub v).loops = t.loops ∧ (t.enter pc c sub v).ewin = t.ewin ∧
      (t.enter pc c sub v).xq = t.xq ∧ (t.enter pc c sub v).saq = t.saq :=
  ⟨rfl, rfl, rfl, rfl, rfl⟩

/-- The registers of A are those it had at the word of E, and what it has queued since is gone (01 R31). -/
theorem undoFrom_back (t : Strand) (e : EwEnt) :
    (∀ n : Fin 64, n.val < 32 → (undoFrom t e).x[n] = e.snap.x[n]) ∧ (∀ m ∈ (undoFrom t e).xq, m.seq < e.seq) ∧
      ∀ m ∈ (undoFrom t e).saq, m.seq < e.seq := by
  refine ⟨fun n hn => ?_, fun m hm => ?_, fun m hm => ?_⟩
  · simp [undoFrom, hn]
  · simpa using (List.mem_filter.mp hm).2
  · simpa using (List.mem_filter.mp hm).2

/-- The trap at the word of E that each slice waits at: everything A has done since is taken back first. -/
theorem crosswait_window {s : State} {sid : Nat} {t : Strand} {e : EwEnt} {q : List EwEnt} (hs : s.strand? sid = some t)
    (hw : t.ewin = e :: q) (hc : crossWait (settle s.cycle t) = true)
    (hd : drainedBefore (settle s.cycle t) e.seq = true) :
    execCrosswaitDetect sid s = .next (takeTrap (s.unstore sid (undone (settle s.cycle t) e.seq)) sid
      (undoFrom (settle s.cycle t) e) e.snap.pc 0x0B 1 0) := by
  have hw' : (settle s.cycle t).ewin = e :: q := (settle_ewin s.cycle t).trans hw
  simp only [execCrosswaitDetect, hs, hc, hw', hd, deliver, seqOf, Bool.not_true, Bool.false_or, Bool.false_eq_true, if_false,
    if_true]
  rfl

/-- The trap at the word of A, when E has none to issue. -/
theorem crosswait_fetch {s : State} {sid : Nat} {t : Strand} {w : Wait} (hs : s.strand? sid = some t) (hw : t.ewin = [])
    (ha : t.waitA = some w) (hc : crossWait (settle s.cycle t) = true)
    (hd : drainedBefore (settle s.cycle t) t.seq = true) :
    execCrosswaitDetect sid s = .next (takeTrap s sid (uncount (settle s.cycle t) t.seq) t.pc 0x0B 1 0) := by
  have hw' : (settle s.cycle t).ewin = [] := (settle_ewin s.cycle t).trans hw
  have ha' : (settle s.cycle t).waitA = some w := (settle_waitA s.cycle t).trans ha
  have hq : (settle s.cycle t).seq = t.seq := settle_seq s.cycle t
  have halone : Alone (settle s.cycle t) ⟨sid, .fetch⟩ := ⟨rfl, hw', by rw [hq]; exact hd⟩
  have ht := deliver_trap (s := s) halone .a w.instr 0x0B 1 0 (by decide) (by decide)
  rw [hq, (settle_loops s.cycle t).2] at ht
  simp only [execCrosswaitDetect, hs, hc, hw', ha', hq, hd, Bool.not_true, Bool.false_eq_true, if_false, if_true, ht]

/-- Settles O25: the words in their groups, each with the check that it meets first, and the two forms of CROSSWAIT. -/
theorem queueTraps : Obligations.QueueTraps := by
  refine ⟨fun fl s o o2 o3 f r t u ps hq hi hx ha => ?_, fun s o f r t u hq hi hx ha => froze_operand ⟨hq, hi, hx, ha⟩,
    fun s sid t e q hs hw hc hd => ?_, fun s sid t w hs hw ha hc hd => ?_⟩
  · have hz : FrozenAlone s f r t := ⟨hq, hi, hx, ha⟩
    exact ⟨(froze_first hz).1, (froze_first hz).2, fun hf hr hm => (froze_scalar hz hm).1 hf hr,
      fun hf hr hm => (froze_scalar hz hm).2 hf hr, fun hf hr hp hm => (froze_vector (o3 := o3) hz hm).1 hf hr hp,
      fun hf hr hp hm => (froze_vector hz hm).2 hf hr hp, fun i hmem hf hn hm => froze_empty hz hn hm i hmem hf⟩
  · have he := crosswait_window hs hw hc hd
    obtain ⟨hinh, hxvec⟩ := undoFrom_handler (settle s.cycle t) e
    obtain ⟨hinh', hxvec'⟩ := handler_of_bare (settle_bare s.cycle t)
    obtain ⟨hback, hxq, hsaq⟩ := undoFrom_back (settle s.cycle t) e
    refine ⟨he, fun h => unstore_nil e.seq ((settle_early s.cycle t).trans h), fun hi hx => ?_⟩
    obtain ⟨ht, htook⟩ := takeTrap_took (s := s.unstore sid (undone (settle s.cycle t) e.seq)) (sid := sid)
      (t := undoFrom (settle s.cycle t) e) rfl rfl ((hinh.trans hinh').trans hi)
      (fun h => hx ((hxvec.trans hxvec').symm.trans h)) e.snap.pc 0x0B 1 0
    obtain ⟨kx, kl, kw, kxq, ksaq⟩ := enter_kept (undoFrom (settle s.cycle t) e) e.snap.pc 0x0B 1 0
    refine ⟨_, _, he.trans (congrArg _ ht), strand?_setStrand _ _ _, htook, fun n hn => ?_, kl, kw, ?_, ?_, rfl⟩
    · rw [kx]
      exact hback n hn
    · rw [kxq]
      exact hxq
    · rw [ksaq]
      exact hsaq
  · have he := crosswait_fetch hs hw ha hc hd
    have hb : (uncount (settle s.cycle t) t.seq).bare = t.bare := (uncount_bare _ _).trans (settle_bare s.cycle t)
    have hl : (uncount (settle s.cycle t) t.seq).loops = t.loops :=
      (uncount_loops _ _).1.trans (settle_loops s.cycle t).1
    refine ⟨he, fun hi hx => ?_⟩
    obtain ⟨ht, htook⟩ := takeTrap_took (s := s) (sid := sid) hb hl hi hx t.pc 0x0B 1 0
    exact ⟨_, _, he.trans (congrArg _ ht), strand?_setStrand _ _ _, htook, rfl⟩

end Sys2Proof.Machine
end

section
namespace Sys2Proof.Machine

open Decode

/-! ### Arithmetic (03 R74, R79) -/

theorem FMap.get?_filter_ne {α : Type} (m : FMap α) (k : Nat) : FMap.get? (m.filter fun q => q.1 != k) k = none := by
  induction m with
  | nil => rfl
  | cons c m ih =>
    rw [List.filter_cons]
    split
    next h => simpa [FMap.get?, by simpa using h] using ih
    next => exact ih

/-- A write of a register other than x0 and x32: it holds the value and carries no mark (08 R263). -/
theorem setX_self (q : Strand) {n : Fin 64} (w : Word) (h0 : n ≠ 0) (h32 : n ≠ 32) :
    (q.setX n w).getX n = w ∧ (q.setX n w).mark? n = none := by
  have hn : ¬(n = 0 ∨ n = 32) := by simp [h0, h32]
  simp only [Strand.setX, Strand.getX, Strand.mark?, Strand.invalidate, if_neg hn]
  exact ⟨by simp, FMap.get?_filter_ne q.marks n.val⟩

/-- Each arithmetic row is the row of class 0 whose result is Res of its exact value. -/
theorem arithmeticRow_res : ∀ q ∈ arithmeticRows, ∃ op, (q.1, op) ∈ scalarRows ∧ ∀ (fl : FormS) (a b c : Word),
    op fl a b c = resWord fl.ty (q.2 fl.ty (opInt fl.ty a) (opInt fl.ty b) (opInt fl.ty c)) := by
  have high : ∀ (fl : FormS) (a b c : Word),
      mulhOp fl.ty a b c = resWord fl.ty (opInt fl.ty a * opInt fl.ty b / 2 ^ Ty.width fl.ty) := fun fl a b c => by
    rw [mulhOp, Int.natCast_pow]
    rfl
  simp only [arithmeticRows, List.forall_mem_cons, List.not_mem_nil, false_imp_iff, implies_true, and_true]
  exact ⟨⟨_, List.mem_of_getElem? (i := 0) rfl, fun _ _ _ _ => rfl⟩,
    ⟨_, List.mem_of_getElem? (i := 1) rfl, fun _ _ _ _ => rfl⟩,
    ⟨_, List.mem_of_getElem? (i := 2) rfl, fun _ _ _ _ => rfl⟩,
    ⟨_, List.mem_of_getElem? (i := 5) rfl, fun _ _ _ _ => rfl⟩,
    ⟨_, List.mem_of_getElem? (i := 3) rfl, high⟩, ⟨_, List.mem_of_getElem? (i := 4) rfl, high⟩⟩

/-- Settles O5: what class 0 writes to D is Res of the exact value, and D keeps it when the instruction retires. -/
theorem arithmeticResults : Obligations.ArithmeticResults := by
  intro q hq fl s o f r t u a b c hf h hg ma mb mc n hd h0 h32
  obtain ⟨op, hrow, hres⟩ := arithmeticRow_res q hq
  have hc := Finds.scalar hrow hf h fun _ => ⟨ma, mb, mc⟩
  obtain ⟨s', t', he, -, -, hs', -, hb⟩ := Completes.frame_setStrand hf hc
  obtain ⟨hx, hm⟩ := setX_self c.rest (op fl a.val b.val c.val) h0 h32
  simp only [if_pos hg, hd, Strand.putD] at hb
  have hx' : t'.getX n = resWord fl.ty _ := (getX_of_bare hb n).trans (hx.trans (hres fl a.val b.val c.val))
  have hm' : t'.mark? n = none := (congrArg (Strand.mark? · n) hb : t'.bare.mark? n = _).trans hm
  refine ⟨s', t', he, hs', hm', ?_, ?_⟩
  · rw [hx']
    exact_mod_cast resWord_mod fl.ty _
  · rw [hx', ← resWord_ext]

end Sys2Proof.Machine
end

section
namespace Sys2Proof.Machine

open Decode

/-! ### Control transfer (03 R90 to R92) -/

/-- An instruction whose effect is on its strand alone. -/
theorem Finds.ok_onStrand {i : Instr} {ord : Order} {s o : State} {f : Focus} {r : Raw} {t u w : Strand}
    {g : Strand → Res Strand} (hf : Finds i ord s f r t o u) (hg : g u = .ok w)
    (he : exec i s = issue i ord anyLevel (onStrand g) s) : Completes i s f r t (o.setStrand f.sid w) :=
  hf.ok rfl (onStrand_ok hf.sid hf.strand hg) he

/-- Settles O6: each body on the strand it finds; one that keeps the strand keeps the state. -/
theorem branchesComplete : Obligations.BranchesComplete := by
  intro fl s o f r t u
  refine ⟨fun hf => ?_, fun hf hg => hf.ok_onStrand ?_ (rfl : _ = execBr fl s),
    fun hf hm hc hg => hf.ok_onStrand ?_ (rfl : _ = execBcc fl s), fun hf hm hc => ?_,
    fun hf hm hg => hf.ok_onStrand ?_ (rfl : _ = execBri fl s)⟩
  · simpa only [setStrand_self hf] using hf.ok_onStrand rfl (rfl : _ = execNop fl s)
  · simp only [checkTarget_ok hg, bind, Except.bind]
  · simp only [hc, if_true, checkTarget_ok hg, noMarks_ok hm, bind, Except.bind]
  · rw [← setStrand_self hf]
    refine hf.ok_onStrand ?_ (rfl : _ = execBcc fl s)
    simp only [hc, Bool.false_eq_true, if_false, noMarks_ok hm, bind, Except.bind]
  · simp only [checkTarget_ok hg, noMarks_ok hm, bind, Except.bind]

/-! ### Calls and returns (03 R92; 01 R40, R41) -/

/-- What CALL and CALLI do once every check of theirs passes. -/
theorem callTo_ok {o : State} {sid : Nat} {u : Strand} {marks : List Desig} {target : Strand → Word} (hs : o.sid = sid)
    (hu : o.strand? sid = some u) (hst : checkStack o sid u (u.getX 1 - 16) 16 = .ok ())
    (hal : (u.getX 1).extractLsb' 0 4 = 0) (hg : GoodTarget (target u)) (hm : Unmarked u (.x 1 :: marks))
    (hr : storeReady u = .ok ()) :
    let part := recordPart sid (u.getX 1 - 16)
    let kept := o.noteStore sid u u.seq .default [part]
    let saved := leBytes 8 (u.pc + 16).toNat ++ leBytes 8 u.depth
    callTo marks target o = .ok ((storeParts kept (tileOf sid) sid .default [part] saved false).updStrand sid
      fun q => (q.setX 1 (u.getX 1 - 16)).goto (target u)) := by
  intro part kept saved
  rw [callTo, withFocus_eq hs hu]
  simp only [hs, hst, hal, need, checkTarget_ok hg, noMarks_ok hm, hr, noteStore_sid, storeParts_sid, beq_self_eq_true,
    if_true, bind, Except.bind, part, kept, saved]

/-- Settles O8: CALL and CALLI are one body with two targets; RET's checks pass in turn. -/
theorem callsComplete : Obligations.CallsComplete := by
  intro fl s o f r t u
  dsimp only
  refine ⟨fun hf hst hal hg hm hr => ?_, fun hf hst hal hg hm hr => ?_, fun hf hst hal hl hg hm hb => ?_⟩
  · exact hf.ok rfl (callTo_ok hf.sid hf.strand hst hal hg hm hr) (rfl : _ = execCall fl s)
  · exact hf.ok rfl (callTo_ok hf.sid hf.strand hst hal hg hm hr) (rfl : _ = execCalli fl s)
  · refine hf.ok rfl ?_ (rfl : _ = execRet fl s)
    rw [withFocus_eq hf.sid hf.strand]
    simp only [hf.sid, hst, hal, need, hl, checkTarget_ok hg, noMarks_ok hm, hb, beq_self_eq_true, Bool.not_false,
      if_true, bind, Except.bind]

/-! ### Instruction prefetch and pinning (03 R98 to R100) -/

/-- Settles O9: with registers free of marks each body is its walk over the lines of the range. -/
theorem fetchControlCompletes : Obligations.FetchControlCompletes := by
  intro fl s o f r t u
  dsimp only
  refine ⟨fun hf hm => hf.ok rfl ?_ (rfl : _ = execIpref fl s), fun hf hm => hf.ok rfl ?_ (rfl : _ = execIpin fl s),
    fun hf hm => hf.ok rfl ?_ (rfl : _ = execIunpin fl s), fun hf => hf.ok rfl ?_ (rfl : _ = execFencei fl s)⟩
  all_goals rw [withFocus_eq hf.sid hf.strand]
  · simp only [noMarks_ok hm, hf.sid, bind, Except.bind, insnLines]
  · simp only [noMarks_ok hm, hf.sid, bind, Except.bind, insnLines]
  · simp only [noMarks_ok hm, hf.sid, bind, Except.bind, insnLines]
  · rw [hf.sid]

end Sys2Proof.Machine
end

section
namespace Sys2Proof.Machine

open Decode

/-! ### A LOOP whose fields contradict its form (03 R89, R94) -/

/-- The form that counts by a register, here x0, with IMM set: no word decodes to it (`variantOk`). Its word is one of the
other form, so issue looks at no register, while its own check of the level looks at x0. -/
def loopOfBothForms : FormS :=
  { sch := { stall := 1, wait := 0, wsb := none, rsb := none, reuse := 0, psafe := false, yield := false }
    gate := { pred := 7, pneg := false }, slice := .a, ty := .s64, d := .x 0, a := .x 0, b := .x 0, c := .x 0, aux := 0
    cond := .eq, zx := false, imm := true, imm32 := 1 }

def loopOfBothFormsRaw : Raw := rawS 0x087 loopOfBothForms

/-- Every loop level is active, wrong hints trap, and x0 counts as pending. -/
def Strand.fullLevels (t : Strand) : Strand :=
  { t with
    loops := Vector.replicate 4 { active := true, start := 0, stop := 0, count := 9 }, hctl := 1
    pend := [{ req := 0, seq := 0, slice := .a, regs := [.x 0], ready := none, wsb := none, since := 0 }] }

def fullStrand : Strand := ((State.reset.readyTile.strand? 0).getD (Strand.start 0 0 0 0 0)).fullLevels

/-- Strand 0 of tile 0 with all its levels in use, at its first word. -/
def fullState : State := (State.reset.readyTile.setStrand 0 fullStrand).at 0

/-- The number of strand 0's next word in the state that an instruction answers. -/
def nextWord : Answer → Option Nat
  | .next s => (s.strand? 0).map (·.seq)
  | _ => none

theorem loopOfBothForms_issues :
    Issues fullState (.loopReg loopOfBothForms) .ahead ⟨0, .fetch⟩ loopOfBothFormsRaw fullStrand where
  focus := rfl
  strand := strand?_setStrand _ _ _
  word := rfl
  formed := by decide
  timing := by decide
  hint := Or.inr (Or.inl (by decide))
  operands := by decide
  limit := by decide
  order := by decide
  parity := by decide

/-- The check of the level waits for x0: the word has not retired. -/
theorem loopOfBothForms_waits : nextWord (exec (.loopReg loopOfBothForms) fullState) = some 0 := by decide

/-- Refutes O7: its first clause asks neither for a free level nor for IMM to be clear in the form that counts by a register.
With both against it a count of zero does not pass over the body: the check of the level waits for x0, which issue does not
look at. -/
theorem not_loopsComplete : ¬ Obligations.LoopsComplete := by
  intro h
  obtain ⟨hzero, -⟩ := h loopOfBothForms fullState _ ⟨0, .fetch⟩ loopOfBothFormsRaw fullStrand _
  have hc := hzero ⟨loopOfBothForms_issues, rfl, rfl⟩ (by decide) (by decide)
  have hw := loopOfBothForms_waits
  rw [hc] at hw
  exact absurd hw (by decide)

end Sys2Proof.Machine
end

section
namespace Sys2Proof.Machine

open Decode

/-! ### Traps (01 R30, R35) -/

/-- An instruction that takes its cause on a strand changed in its bookkeeping alone leaves what `TookTrap` says, and nothing
outside the strand but the semaphores it waits at is new. -/
theorem took_of_takeTrap {i : Instr} {s : State} {sid n : Nat} {t q : Strand} {pc : Word} {c sub : BitVec 8} {v : BitVec 56}
    (he : exec i s = .next (takeTrap s sid (uncount q n) pc c sub v)) (hb : q.bare = t.bare) (hl : q.loops = t.loops)
    (hi : t.inh = false) (hx : t.xvec ≠ 0) :
    ∃ s' t', exec i s = .next s' ∧ s'.strand? sid = some t' ∧ s'.mem = s.mem ∧ s'.tiles = s.tiles ∧
      TookTrap t t' pc c sub v ∧ ∀ j, j ≠ sid → s'.strand? j = s.strand? j := by
  obtain ⟨ht, htook⟩ := takeTrap_took (s := s) (sid := sid) ((uncount_bare q n).trans hb) ((uncount_loops q n).1.trans hl)
    hi hx pc c sub v
  exact ⟨_, _, he.trans (congrArg _ ht), strand?_setStrand _ _ _, rfl, rfl, htook,
    fun j hj => strand?_setStrand_ne _ _ (Ne.symm hj)⟩

/-- Settles O10: the word stands alone, so its cause is taken there (01 R30). -/
theorem trapCompletes : Obligations.TrapCompletes := by
  intro s f t
  refine ⟨fun fl o r u hf ha => ?_, fun w hfo hst ha => ?_⟩
  · obtain ⟨hloops, hpc⟩ := opened_loops s f r t
    have hb := onStrand_error hf.sid hf.strand (g := fun _ => .error (.trap 0x0C 0 (fl.imm32.setWidth 56))) rfl
    obtain ⟨hiss, rfl, rfl⟩ := hf
    have he : exec (.trap fl) s =
        .next (takeTrap s f.sid (uncount (opened s f r t) t.seq) t.pc 0x0C 0 (fl.imm32.setWidth 56)) := by
      refine (issue_trap hiss rfl hb : execTrap fl s = _).trans ?_
      rw [deliver_trap ha _ _ _ _ _ (by decide) (by decide), opened_seq, hpc]
    exact ⟨he, took_of_takeTrap he (opened_bare s f r t) hloops⟩
  · obtain ⟨hloops, hpc⟩ := settle_loops s.cycle t
    have he : exec (.unallocatedOpcode w) s =
        .next (takeTrap s f.sid (uncount (settle s.cycle t) t.seq) t.pc 0x01 1 0) := by
      refine (rfl : _ = execUnallocatedOpcode w s).trans ?_
      simp only [execUnallocatedOpcode, hfo, sid_of_focus hfo, hst]
      rw [deliver_trap ha _ _ _ _ _ (by decide) (by decide), settle_seq, hpc]
    exact ⟨he, took_of_takeTrap he (settle_bare s.cycle t) hloops⟩

/-! ### END (03 R101; 16 R415) -/

/-- A strand that holds no report has none to deliver. -/
theorem heldReport_none {t u : Strand} (h : u.bare = t.bare) (hd : t.divRep = none) (hg : t.guardRep = none)
    (he : t.engRep = none) : heldReport u = .ok () := by
  have key : ∀ {α : Type} (g : Strand → Option α), g t.bare = none → g u.bare = none :=
    fun g ht => (congrArg g h).trans ht
  have hd' : u.divRep = none := key Strand.divRep hd
  have hg' : u.guardRep = none := key Strand.guardRep hg
  have he' : u.engRep = none := key Strand.engRep he
  simp only [heldReport, hd', hg', he', ite_self]

theorem queuesEmpty_of_bare {t u : Strand} (h : u.bare = t.bare) : u.queuesEmpty = t.queuesEmpty :=
  show u.bare.queuesEmpty = t.bare.queuesEmpty from congrArg Strand.queuesEmpty h

/-- Settles O13: with no report to deliver, the queues decide. -/
theorem endCompletes : Obligations.EndCompletes := by
  intro fl s o f r t u hf hd hg he
  have hbody : ∀ g : State → Strand → Res State, withFocus g o = g o u := fun g => withFocus_eq hf.sid hf.strand
  have hrep := heldReport_none hf.bare hd hg he
  have hq := queuesEmpty_of_bare hf.bare
  have hsid := hf.sid
  refine ⟨fun hemp => hf.ok rfl ?_ (rfl : _ = execEnd fl s), fun hemp hi hx ha => ?_⟩
  · rw [hbody]
    simp only [hrep, hq, hemp, need, hsid, if_true, bind, Except.bind]
  · obtain ⟨hiss, rfl, rfl⟩ := hf
    refine issue_took hiss (rfl : anyLevel _ _ = none) ?_ ha (by decide) (by decide) hi hx
    rw [hbody]
    simp only [hrep, hq, hemp, need, Bool.false_eq_true, if_false, bind, Except.bind]
    rfl

end Sys2Proof.Machine
end

section
namespace Sys2Proof.Machine

open Decode

/-! ### SLEEP and WAKE (03 R104 to R106) -/

/-- A SLEEP goes on with `v` in D, as an acquire (08 R256). -/
def sleepEnds (fl : FormS) (s : State) (f : Focus) (v : Word) : State :=
  (s.acquireL1 (unitOf f.sid) .dev).updStrand f.sid fun q => { (q.putD fl.d v) with recheck := false }

/-- A check of SLEEP whose read passes: the word decides, and then the timeout. -/
theorem sleepBody_reads {fl : FormS} {o : State} {f : Focus} {u : Strand} {g : Got × State} (hs : o.sid = f.sid)
    (hu : o.strand? f.sid = some u) (h : SleepReads fl o f u g) :
    ((BitVec.ofNat 64 (leNat g.1.bytes) : Word) ≠ u.xa fl.b →
        ∀ timeUp, sleepBody fl timeUp o = .ok (sleepEnds fl g.2 f 0)) ∧
      (¬ (BitVec.ofNat 64 (leNat g.1.bytes) : Word) ≠ u.xa fl.b → sleepBody fl true o = .ok (sleepEnds fl g.2 f 1)) := by
  obtain ⟨hbase, hal, hm, ps, o2, hp, hport, hfree, rfl, hbad⟩ := h
  refine ⟨fun hd timeUp => ?_, fun hd => ?_⟩
  all_goals
    rw [sleepBody, withFocus_eq hs hu]
    simp only [hs, hbase, hal, need, hp, hport, noMarks_ok hm, hfree, hbad, beq_self_eq_true, Bool.not_false, if_true, bind,
      Except.bind]
  · exact if_pos hd
  · exact if_neg hd

/-- What a WAKE does to one strand: it marks it for a recheck, or leaves it. -/
theorem wokenBy_eq (by_ : Nat) (sc : BitVec 4) (line : Nat) (q : Nat × Strand) :
    (wokenBy by_ sc line q).1 = q.1 ∧
      (wokenBy by_ sc line q).2 = { q.2 with recheck := (wokenBy by_ sc line q).2.recheck } := by
  unfold wokenBy
  split
  · split <;> exact ⟨rfl, rfl⟩
  · exact ⟨rfl, rfl⟩

theorem wokenBy_reaches {by_ : Nat} {sc : BitVec 4} {line : Nat} {q : Nat × Strand} {a : Word} (hsl : sleepAddr q.2 = some a)
    (hr : wakeReach by_ q.1 sc = true) (hl : a.toNat / 128 = line) : (wokenBy by_ sc line q).2.recheck = true := by
  simp [wokenBy, hsl, hr, hl]

theorem execSleepRecheck_eq {s : State} {sid : Nat} {fl : FormS} {w : Wait} (h : sleeping s sid = some (fl, w)) :
    exec (.sleepRecheck sid) s = issue (.sleep fl) .normal anyLevel (sleepBody fl false) (s.at sid) := by
  refine (rfl : _ = execSleepRecheck sid s).trans ?_
  simp only [execSleepRecheck, h]

theorem execSleepTimeout_eq {s : State} {sid : Nat} {fl : FormS} {w : Wait} (h : sleeping s sid = some (fl, w))
    (he : w.ended s.cycle = true) :
    exec (.sleepTimeout sid) s = issue (.sleep fl) .normal anyLevel (sleepBody fl true) (s.at sid) := by
  refine (rfl : _ = execSleepTimeout sid s).trans ?_
  simp only [execSleepTimeout, h, he, if_true]

/-- Settles O17: the three checks of SLEEP share one body, and WAKE maps the strands. -/
theorem sleepAndWakeComplete : Obligations.SleepAndWakeComplete := by
  refine ⟨fun fl sid w s o f r t u g => ⟨fun hf h hd => ?_, fun hsl hf h hd => ?_, fun hsl he hf h hd => ?_⟩,
    fun fl s o f r t u hf hm ha hr => ⟨hf.ok rfl ?_ (rfl : _ = execWake fl s), fun q => ?_⟩⟩
  · exact hf.ok rfl ((sleepBody_reads hf.sid hf.strand h).1 hd false) (rfl : _ = execSleep fl s)
  · have hb := (sleepBody_reads hf.sid hf.strand h).1 hd false
    obtain ⟨hiss, rfl, rfl⟩ := hf
    exact (execSleepRecheck_eq hsl).trans (issue_ok hiss rfl hb)
  · have hb := (sleepBody_reads hf.sid hf.strand h).2 hd
    obtain ⟨hiss, rfl, rfl⟩ := hf
    exact (execSleepTimeout_eq hsl he).trans (issue_ok hiss rfl hb)
  · rw [withFocus_eq hf.sid hf.strand]
    simp only [noMarks_ok hm, ha, hf.sid, hr, Bool.false_eq_true, if_false, releaseL1_sid, bind, Except.bind]
  · obtain ⟨h1, h2⟩ := wokenBy_eq f.sid fl.aux ((u.xa fl.a).toNat / 128) q
    exact ⟨h1, h2, fun a => wokenBy_reaches⟩

/-! ### BARRIER (03 R107; 05 R157, R158) -/

theorem leaveBarrier_eq {s : State} {sid : Nat} (hs : s.sid = sid) (n : Nat) :
    leaveBarrier s n =
      (s.acquireL1 (unitOf sid) .clus).updStrand sid fun q => { q with barPend := FMap.erase q.barPend n } := by
  rw [leaveBarrier, hs]

/-- Settles O18: the strand arrives and completes the phase, or finds the phase it waits for complete. -/
theorem barrierCompletes : Obligations.BarrierCompletes := by
  intro fl s o f r t u hf hl
  refine ⟨fun hn hrep hph => hf.ok hl ?_ (rfl : _ = execBarrier fl s),
    fun ph hp hph => hf.ok hl ?_ (rfl : _ = execBarrier fl s)⟩
  all_goals rw [barrierBody, withFocus_eq hf.sid hf.strand]
  · have hs : (strandArrives (o.releaseL1 (unitOf f.sid) .clus) f.sid (barrierNo fl)).sid = f.sid := by
      rw [strandArrives_sid, releaseL1_sid, hf.sid]
    simp only [hn, hrep, hf.sid, hs, hph, leaveBarrier_eq hs, if_true, bind, Except.bind]
  · simp only [hp, hf.sid, hph, leaveBarrier_eq hf.sid, if_true]

/-! ### SPAWN and CANCEL (03 R108, R109) -/

/-- Settles O19: SPAWN by the core and by whether a strand is free, CANCEL by whether its object contains the strand. -/
theorem spawnAndCancelComplete : Obligations.SpawnAndCancelComplete := by
  refine ⟨fun fl s o f r t u hf hg hm => ?_, fun fl s o f r t u hf hl hm => ?_⟩
  · refine ⟨fun k n hh hk hn => ?_, fun k hh hk hn => ?_, fun n hh hn => ?_, fun hh hn => ?_⟩
    all_goals
      refine hf.ok rfl ?_ (rfl : _ = execSpawn fl s)
      rw [withFocus_eq hf.sid hf.strand]
      simp only [checkTarget_ok hg, noMarks_ok hm, hf.sid, hh, if_true, Bool.false_eq_true, if_false, bind, Except.bind]
    · simp only [hk, hn]
    · simp only [hk, hn]
    · simp only [hn]
    · simp only [hn]
  · refine ⟨fun hw => ?_, fun hw => ?_⟩
    all_goals
      refine hf.ok hl ?_ (rfl : _ = execCancel fl s)
      rw [withFocus_eq hf.sid hf.strand]
      simp only [noMarks_ok hm, hf.sid, bind, Except.bind]
    · exact if_pos hw
    · exact if_neg (ne_true_of_eq_false hw)

end Sys2Proof.Machine
end

section
namespace Sys2Proof.Machine

open Decode

/-! ### Class 3, gated as a whole and bit by bit (06 R178, R210) -/

/-- Each row gated as a whole is one call of the meaning that class 3 shares. -/
theorem exec_wholeRow : ∀ q ∈ wholeRows, ∀ (fl : FormV) (s : State), exec (q.1 fl) s =
    issue (q.1 fl) .normal anyLevel (runV fl (fun g => g.getLsbD 0) false fun _ i x => q.2 fl i x) s := by
  simp only [wholeRows, List.forall_mem_cons, List.not_mem_nil, false_imp_iff, implies_true, and_true]
  and_intros <;> exact fun _ _ => rfl

/-- Under negated p7 no bit of the governing predicate is 1 (06 R178). -/
theorem govern_of_gateNever {g : Gate} (t : Strand) (h : gateNever g = true) : govern t g = 0 := by
  simp only [gateNever, Bool.and_eq_true, beq_iff_eq] at h
  simp [govern, Strand.getP, h.1, h.2]

/-- Where a predicate of zeros holds an instruction back, negated p7 needs no case of its own. -/
theorem vectorEffect_of_consumes_zero {fl : FormV} {consumes : PReg → Bool} (h0 : consumes 0 = false) {u : Strand}
    (res : PReg → VIn → Strand → Strand) (a b c : Read VArg) :
    vectorEffect fl consumes res u a b c = if consumes (govern u fl.gate) then
      res (govern u fl.gate) { a := a.val, b := b.val, c := c.val } c.rest else c.rest := by
  cases hn : gateNever fl.gate
  · simp only [vectorEffect, hn, Bool.not_false, Bool.true_and]
  · simp only [vectorEffect, hn, govern_of_gateNever u hn, h0, Bool.not_true, Bool.false_and]

/-- An instruction that its predicate alone can hold back: its result where the predicate lets it run, else its pops. -/
theorem Finds.gatedVector {i : Instr} {fl : FormV} {consumes : PReg → Bool} {res : PReg → VIn → Strand → Strand}
    {s o : State} {f : Focus} {r : Raw} {t u : Strand} {a b c : Read VArg} (hf : Finds i .normal s f r t o u)
    (he : exec i s = issue i .normal anyLevel (runV fl consumes false res) s) (h0 : consumes 0 = false)
    (h : VectorReads fl u a b c) :
    (consumes (govern u fl.gate) = true → a.mark = none → b.mark = none → c.mark = none →
      Completes i s f r t (o.setStrand f.sid
        (res (govern u fl.gate) { a := a.val, b := b.val, c := c.val } c.rest))) ∧
    (consumes (govern u fl.gate) = false → Completes i s f r t (o.setStrand f.sid c.rest)) := by
  refine ⟨fun hg ma mb mc => ?_, fun hg => ?_⟩
  · simpa only [vectorEffect_of_consumes_zero h0, hg, if_true] using hf.vector he h fun _ => ⟨ma, mb, mc⟩
  · have := hf.vector he h fun hg' => absurd hg' (by simp [hg])
    simpa only [vectorEffect_of_consumes_zero h0, hg, Bool.false_eq_true, if_false] using this

/-- Settles O33: both kinds of rows are gated by their predicate alone, by its bit 0 or by any bit of it. -/
theorem wholeAndBitsComplete : Obligations.WholeAndBitsComplete := by
  intro fl s o f r t u a b c g h
  refine ⟨fun q hq hf => hf.gatedVector (exec_wholeRow q hq fl s) BitVec.getLsbD_zero h, fun q hq hf => ?_⟩
  obtain ⟨hon, hoff⟩ := hf.gatedVector (exec_bitRow q hq fl s) (bne_self_eq_false 0) h
  exact ⟨fun hg => hon (bne_iff_ne.mpr hg), fun hg => hoff (bne_eq_false_iff_eq.mpr hg)⟩

/-! ### Elements of a register (06 R177, R178) -/

/-- The first of the packed numbers is lowest. -/
theorem packChunks_succ (cw n : Nat) (f : Nat → Nat) :
    packChunks cw (n + 1) f = f 0 + 2 ^ cw * packChunks cw n fun i => f (i + 1) := by
  rw [packChunks, List.range_succ_eq_map, List.foldr_cons, List.foldr_map]
  rfl

theorem packChunks_lt {cw n : Nat} {f : Nat → Nat} (hf : ∀ i, f i < 2 ^ cw) : packChunks cw n f < 2 ^ (cw * n) := by
  induction n generalizing f with
  | zero => exact Nat.two_pow_pos _
  | succ n ih =>
    rw [packChunks_succ, Nat.mul_succ, Nat.add_comm (cw * n), Nat.pow_add]
    calc f 0 + 2 ^ cw * packChunks cw n (fun i => f (i + 1))
        < 2 ^ cw + 2 ^ cw * packChunks cw n (fun i => f (i + 1)) := Nat.add_lt_add_right (hf 0) _
      _ = 2 ^ cw * (packChunks cw n (fun i => f (i + 1)) + 1) := by rw [Nat.mul_succ, Nat.add_comm]
      _ ≤ 2 ^ cw * 2 ^ (cw * n) := Nat.mul_le_mul_left _ (ih fun i => hf (i + 1))

/-- Each packed number can be read back. -/
theorem packChunks_chunk {cw n i : Nat} {f : Nat → Nat} (hf : ∀ i, f i < 2 ^ cw) (hi : i < n) :
    (packChunks cw n f >>> (cw * i)) % 2 ^ cw = f i := by
  induction n generalizing f i with
  | zero => exact absurd hi (Nat.not_lt_zero i)
  | succ n ih =>
    rw [packChunks_succ]
    cases i with
    | zero => rw [Nat.mul_zero, Nat.shiftRight_zero, Nat.add_mul_mod_self_left, Nat.mod_eq_of_lt (hf 0)]
    | succ i =>
      rw [Nat.mul_succ, Nat.add_comm (cw * i), Nat.shiftRight_add, Nat.shiftRight_eq_div_pow _ cw,
        Nat.add_mul_div_left _ _ (Nat.two_pow_pos cw), Nat.div_eq_of_lt (hf 0), Nat.zero_add]
      exact ih (fun j => hf (j + 1)) (Nat.lt_of_succ_lt_succ hi)

theorem toNat_ofNat_of_lt_two_pow {m k n : Nat} (h : m < 2 ^ k) (hk : k ≤ n) : (BitVec.ofNat n m).toNat = m := by
  rw [BitVec.toNat_ofNat, Nat.mod_eq_of_lt (Nat.lt_of_lt_of_le h (Nat.pow_le_pow_right Nat.two_pos hk))]

theorem elem_lt (w : Nat) (v : VReg) (i : Nat) : elem w v i < 2 ^ (8 * w) := Nat.mod_lt _ (Nat.two_pow_pos _)

theorem VArg.elem_lt (w : Nat) (a : VArg) (i : Nat) : a.elem w i < 2 ^ (8 * w) := by
  cases a with
  | vec v => exact Machine.elem_lt w v i
  | word x => exact Nat.mod_lt _ (Nat.two_pow_pos _)

/-- A register made of elements has these elements. -/
theorem elem_ofElems {w i : Nat} {f : Nat → Nat} (hf : ∀ i, f i < 2 ^ (8 * w)) (hi : i < elemCount w) :
    elem w (ofElems w f) i = f i := by
  have hb : 8 * w * elemCount w ≤ 4096 := by
    have := Nat.mul_div_le 512 w
    rw [elemCount, Nat.mul_assoc]
    omega
  rw [elem, ofElems, toNat_ofNat_of_lt_two_pow (packChunks_lt hf) hb, packChunks_chunk hf hi]

/-- A merge computes the active elements and keeps the others. -/
theorem elem_mergeV {w i : Nat} {f : Nat → Nat} (g : PReg) (old : VReg) (hf : ∀ i, f i < 2 ^ (8 * w))
    (hi : i < elemCount w) : elem w (mergeV w g old f) i = if active w g i then f i else elem w old i := by
  refine elem_ofElems (fun j => ?_) hi
  split
  · exact hf j
  · exact elem_lt w old j

theorem active_of_not_anyActive {w i : Nat} {g : PReg} (h : anyActive w g = false) (hi : i < elemCount w) :
    active w g i = false := by
  simpa using List.any_eq_false.mp h i (List.mem_range.mpr hi)

@[simp] theorem anyActive_zero (w : Nat) : anyActive w 0 = false := by
  simp [anyActive, active]

@[simp] theorem getV_setV_self (t : Strand) (n : Fin 64) (v : VReg) : (t.setV n v).getV n = v := by
  simp [Strand.setV, Strand.getV, Strand.invalidate]

theorem predOf_of_p {t t' : Strand} (h : t'.p = t.p) (d : Desig) : predOf t' d = predOf t d := by
  cases d <;> simp only [predOf, Strand.getP, h]

theorem getV_of_v {t t' : Strand} (h : t'.v = t.v) (n : Fin 64) : t'.getV n = t.getV n := by
  simp only [Strand.getV, h]

/-! ### VSEL and VPOPC (06 R192, R203) -/

/-- What VSEL gives element `i` (06 R192). -/
def selected (fl : FormV) (t : Strand) (q : VIn) (i : Nat) : Nat :=
  if active (Ty.bytes fl.ty) (predOf t fl.c) i then q.a.elem (Ty.bytes fl.ty) i else q.b.elem (Ty.bytes fl.ty) i

theorem selected_lt (fl : FormV) (t : Strand) (q : VIn) (i : Nat) : selected fl t q i < 2 ^ (8 * Ty.bytes fl.ty) := by
  unfold selected
  split
  · exact q.a.elem_lt _ i
  · exact q.b.elem_lt _ i

theorem exec_vsel (fl : FormV) (s : State) : exec (.vsel fl) s = issue (.vsel fl) .normal anyLevel
    (runV fl (anyActive (Ty.bytes fl.ty)) false fun g q t => toIndexed fl (selected fl t) g q t) s := rfl

/-- The elements of VSEL's destination, with some element active and with none. -/
theorem elem_vselEffect {fl : FormV} {n : Fin 64} (hd : fl.d = .v n) {i : Nat} (hi : i < elemCount (Ty.bytes fl.ty))
    (u : Strand) (a b c : Read VArg) :
    elem (Ty.bytes fl.ty) ((vectorEffect fl (anyActive (Ty.bytes fl.ty)) (fun g q t => toIndexed fl (selected fl t) g q t)
        u a b c).getV n) i =
      if active (Ty.bytes fl.ty) (govern u fl.gate) i then selected fl c.rest { a := a.val, b := b.val, c := c.val } i
      else elem (Ty.bytes fl.ty) (c.rest.getV n) i := by
  rw [vectorEffect_of_consumes_zero (anyActive_zero _)]
  cases hg : anyActive (Ty.bytes fl.ty) (govern u fl.gate)
  · simp only [active_of_not_anyActive hg hi, Bool.false_eq_true, if_false]
  · simp only [if_true, toIndexed, hd, getV_setV_self]
    exact elem_mergeV _ _ (selected_lt fl c.rest _) hi

theorem exec_vpopc (fl : FormV) (s : State) : exec (.vpopc fl) s = issue (.vpopc fl) .normal anyLevel
    (runV fl (fun g => g.getLsbD 0) false fun _ _ t =>
      t.putD fl.d (BitVec.ofNat 64 (countP (Ty.bytes fl.ty) (predOf t fl.a)))) s := rfl

theorem countP_eq_countP_range (w : Nat) (p : PReg) :
    countP w p = (List.range (512 / w)).countP fun i => p.getLsbD (i * w) := List.countP_eq_length_filter.symm

/-- Settles O35: the destination after the effect of each, which neither pops nor retirement touch again. -/
theorem vectorResults : Obligations.VectorResults := by
  intro fl s o f r t u a b c h ma mb mc
  obtain ⟨-, -, -, -, hv, hp, hx⟩ := (VectorReads.popsOnly h (rfl : u.bare = u.bare)).kept
  refine ⟨fun n hf _ hd => ?_, fun n k hf hd h0 h32 ha => ?_⟩
  · obtain ⟨s', t', he, -, -, hs', -, hb⟩ :=
      Completes.frame_setStrand hf (hf.vector (exec_vsel fl s) h fun _ => ⟨ma, mb, mc⟩)
    refine ⟨s', t', he, hs', fun i hi => ?_⟩
    rw [getV_of_v (v_of_bare hb), elem_vselEffect hd hi, getV_of_v hv, selected, predOf_of_p hp]
    rfl
  · obtain ⟨s', t', he, -, -, hs', -, hb⟩ :=
      Completes.frame_setStrand hf (hf.vector (exec_vpopc fl s) h fun _ => ⟨ma, mb, mc⟩)
    refine ⟨s', t', he, hs', ?_⟩
    rw [getX_of_bare hb, vectorEffect_of_consumes_zero BitVec.getLsbD_zero]
    split
    · rw [hd, Strand.putD, (setX_self _ _ h0 h32).1, predOf_of_p hp, ha, predOf, countP_eq_countP_range]
    · exact hx n

end Sys2Proof.Machine
end

section
namespace Sys2Proof.Machine

open Decode

/-! ### A VDEFER and the operand log (06 R206, 17 R435) -/

/-- VDEFER of one word a lane, from v2 into x33, under p1. -/
def deferOne : FormV :=
  { sch := { stall := 1, wait := 0, wsb := none, rsb := none, reuse := 0, psafe := false, yield := false }
    gate := { pred := 1, pneg := false }, ty := .s64, d := .x 33, a := .v 2, b := .x 0, c := .x 0, moda := .none, modb := .none
    imm16 := 0, ty2 := .s64, opx := 0, cx := false, bx := false, sat := false, ftz := false, rm := .rne }

def deferOneRaw : Raw := rawV 0x1A5 deferOne

/-- Lane 0 alone is active under each of p0 to p6; the bobbin and the operand log are empty, as a strand starts. -/
def oneLaneStrand : Strand :=
  { ((State.reset.readyTile.strand? 0).getD (Strand.start 0 0 0 0 0)) with p := Vector.replicate 8 1 }

/-- Strand 0 of tile 0 with one lane active, at its first word. -/
def oneLaneState : State := (State.reset.readyTile.setStrand 0 oneLaneStrand).at 0

theorem deferOne_issues : Issues oneLaneState (.vdefer deferOne) .normal ⟨0, .fetch⟩ deferOneRaw oneLaneStrand where
  focus := rfl
  strand := strand?_setStrand _ _ _
  word := rfl
  formed := by decide
  timing := by decide
  hint := Or.inr (Or.inl (by decide))
  operands := by decide
  limit := by decide
  order := by decide
  parity := by decide

/-- How many writes the operand log of strand 0 holds in the state that an instruction answers. -/
def loggedWrites : Answer → Option Nat
  | .next s => (s.strand? 0).map (·.oplog.length)
  | _ => none

/-- The record enters the log, and then the count in x33 does (17 R435). -/
theorem deferOne_logs : loggedWrites (exec (.vdefer deferOne) oneLaneState) = some 2 := by decide +kernel

/-- Refutes O34: its clause on VDEFER with room in the bobbin asks for a strand in whose operand log the count in D alone is
new, while the model enters each record there as well. -/
theorem not_otherVectorCompletes : ¬ Obligations.OtherVectorCompletes := by
  intro h
  obtain ⟨-, hx, -⟩ := h deferOne oneLaneState _ ⟨0, .fetch⟩ deferOneRaw oneLaneStrand
    (openedStrand oneLaneState ⟨0, .fetch⟩ deferOneRaw oneLaneStrand) _ _ _ ⟨rfl, rfl, rfl⟩ rfl rfl rfl rfl
  obtain ⟨-, hroom, -⟩ := hx 33 rfl
  have hc := hroom ⟨deferOne_issues, rfl, rfl⟩ (by decide +kernel)
  have hw := deferOne_logs
  rw [hc] at hw
  exact absurd hw (by decide +kernel)

end Sys2Proof.Machine
end

section
namespace Sys2Proof.Machine

open Decode

/-! ### FENCE and cache maintenance (08 R258, R259; 09 R284, R285) -/

theorem relReady_sid {s s' : State} {t : Strand} {ord : MemOrd} {sc : Scope} (h : relReady s t ord sc = .ok s') :
    s'.sid = s.sid := sid_congr (relReady_focus h)

/-- The body of CINV and CWB, once its checks pass: the action on each line of the range (09 R285). -/
theorem maintain_ok {fl : FormM} {act : State → Part → State} {o : State} {sid : Nat} {u : Strand} (hs : o.sid = sid)
    (hu : o.strand? sid = some u) (hm : Unmarked u [fl.a, fl.c]) (ha : acquiring u = false)
    (hr : releaseReady o (unitOf sid) u fl.scope = .ok ()) :
    maintain fl act o = .ok ((rangeLines (u.xa fl.a + fl.imm32.signExtend 64).toNat (rangeLen u fl)).foldl
      (eachLine (agentOf o sid u) act) o) := by
  rw [maintain, withFocus_eq hs hu]
  simp only [noMarks_ok hm, ha, hs, hr, Bool.false_eq_true, if_false, bind, Except.bind]

/-- Settles O27: the checks of each of the four pass, and what is left of its body is the step at the L1. -/
theorem orderingCompletes : Obligations.OrderingCompletes := by
  intro fl s o o2 f r t u
  dsimp only
  refine ⟨fun hf ha hl hat hr => hf.ok rfl ?_ (rfl : _ = execFence fl s),
    fun hf hm ha hr => hf.ok rfl (maintain_ok hf.sid hf.strand hm ha hr) (rfl : _ = execCinv fl s),
    fun hf hm ha hr => hf.ok rfl (maintain_ok hf.sid hf.strand hm ha hr) (rfl : _ = execCwb fl s),
    fun hf hm => hf.ok rfl ?_ (rfl : _ = execCpref fl s)⟩
  all_goals rw [withFocus_eq hf.sid hf.strand]
  · have hs : o2.sid = f.sid := (relReady_sid hr).trans hf.sid
    simp only [ha, hl, hat, hr, hs, need, List.isEmpty_nil, Bool.and_self, Bool.false_eq_true, if_true, if_false, bind,
      Except.bind]
    cases fl.ord <;> rfl
  · simp only [noMarks_ok hm, hf.sid, bind, Except.bind]

/-! ### Atomics at issue (08 R261, R262; 09 R286 to R289) -/

/-- Each atomic is one call of the meaning that all share, with its own opcode. -/
theorem exec_atomicRow : ∀ q ∈ atomicRows, ∀ (fl : FormM) (s : State),
    exec (q.1 fl) s = issue (q.1 fl) .normal anyLevel (atomBody q.2 fl) s := by
  simp only [atomicRows, List.forall_mem_cons, List.not_mem_nil, false_imp_iff, implies_true, and_true]
  and_intros <;> exact fun _ _ => rfl

/-- An atomic leaves the tile when no shadow tile has found a mismatch (17 R444). -/
theorem leaveTile_pass {t : Strand} (h : t.checker ≠ some 2) (s : State) (opc : BitVec 10) (go : Res State)
    (stay : State → State) : leaveTile s t opc go stay = go := by
  rw [leaveTile, accessVerdict, if_neg h]

/-- Settles O28: every check passes, and the atomic joins those in flight. -/
theorem atomicsIssue : Obligations.AtomicsIssue := by
  intro q hq fl s o o2 o3 f r t u p
  dsimp only
  intro hf hb hal hp hno hport hm ha hold hch hr
  have h3 : o3.sid = f.sid := ((relReady_sid hr).trans (sid_congr (accessParts_focus hp))).trans hf.sid
  have h4 : (if p.cacheable && !isHead f.sid then o3.flushLine (tileOf f.sid) (p.loc / 128) else o3).sid = f.sid := by
    split
    · exact (sid_congr (flushLine_focus _ _ _)).trans h3
    · exact h3
  refine hf.ok rfl ?_ (exec_atomicRow q hq fl s)
  rw [atomBody, withFocus_eq hf.sid hf.strand]
  simp only [hf.sid, hb, hal, hp, hno, if_neg hport, noMarks_ok hm, ha, hold, hr, h3, h4, need, leaveTile_pass hch,
    beq_self_eq_true, Bool.not_false, Bool.false_eq_true, if_true, if_false, bind, Except.bind]

end Sys2Proof.Machine
end

section
namespace Sys2Proof.Machine

open Decode

/-! ### At the home (08 R262, R263; 09 R286, R287) -/

@[simp] theorem leBytes_length (n v : Nat) : (leBytes n v).length = n := by
  induction n generalizing v with
  | zero => rfl
  | succ n ih => rw [leBytes, List.length_cons, ih]

@[simp] theorem setAtom_mem (s : State) (q : Nat) (g : AtomFlight → AtomFlight) : (setAtom s q g).mem = s.mem := by
  unfold setAtom
  split <;> rfl

/-- The results of a group go to strands: no byte of memory is new. -/
theorem giveResults_mem (s : State) (opc : BitVec 10) (ty : Ty) (v : Nat) (qs : List Nat) :
    (giveResults s opc ty v qs).mem = s.mem := by
  induction qs generalizing s v with
  | nil => rfl
  | cons q qs ih => exact (ih _ _).trans (setAtom_mem s q _)

/-- A group whose place is sound memory writes the new value there, and nothing else. -/
theorem performGroup_mem {s : State} {m : MergeTree} {sid : Nat} {a : AtomFlight} (hd : a.part.space ≠ .device)
    (hg : a.part.space = .spad → (freshenGroup s a.part (treeLeaves m)).firstGuard (unitOf sid) a.part = none)
    (hp : isPoisoned (freshenGroup s a.part (treeLeaves m)).poison a.part.loc a.part.len = false) :
    (performGroup s m sid a).mem =
      let s1 := freshenGroup s a.part (treeLeaves m)
      Memory.writeN s1.mem a.part.loc (leBytes a.part.len
        (newValue a (s1.readLocNat a.part.loc a.part.len) (combine s1 a.opc a.ty m))) := by
  have hguard : (if a.part.space = .spad
      then (freshenGroup s a.part (treeLeaves m)).firstGuard (unitOf sid) a.part else none) = none := by
    split
    next h => exact hg h
    next => rfl
  simp only [performGroup, hguard, if_neg hd, hp, Bool.false_eq_true, if_false]
  refine (foldl_inv State.mem _ (fun q k => ?_) _ _).trans ?_
  · split
    · exact roused_mem _ _ _ _
    · rfl
  · rw [State.writeLoc_mem, giveResults_mem]

theorem atomicGroupPerform_performed {s : State} {m : MergeTree} {sid : Nat} {a : AtomFlight}
    (ha : (treeLeaves m).head?.bind s.atom? = some (sid, a)) (hg : groupOk s [] (treeLeaves m) none = true)
    (hc : sameContext s (treeLeaves m) = true) : exec (.atomicGroupPerform m) s = .next (performGroup s m sid a) := by
  refine (rfl : _ = execAtomicGroupPerform m s).trans ?_
  simp only [execAtomicGroupPerform, ha, hg, hc, Bool.and_self, if_true]

/-! ### The response to an atomic (09 R286, R289) -/

theorem writeBackLine_strands (s : State) (t k : Nat) : (s.writeBackLine t k).strands = s.strands := by
  unfold State.writeBackLine
  split <;> rfl

/-- The L1 step of an acquire leaves every strand. -/
theorem acquireL1_strands (s : State) (t : Nat) (sc : Scope) : (s.acquireL1 t sc).strands = s.strands := by
  unfold State.acquireL1
  split
  · exact foldl_inv State.strands _ (fun s k => writeBackLine_strands s t k) _ s
  · rfl

@[simp] theorem backfill_bare (t : Strand) (n : Nat) (d : Desig) (w : Word) (m : Option Mark) :
    (t.backfill n d w m).bare = t.bare := by
  unfold Strand.backfill
  split
  · split <;> rfl
  · rfl

/-- The mark that is written with a register is the only difference it makes. -/
theorem putD_mark_eq (t : Strand) (d : Desig) (w : Word) (m : Option Mark) :
    t.putD d w m = { t.putD d w with marks := (t.putD d w m).marks } := by
  unfold Strand.putD
  split
  · unfold Strand.setX
    split <;> rfl
  · rfl

theorem putD_marked_frame (t : Strand) (d : Desig) (w : Word) (m : Option Mark) :
    SameSpecial t (t.putD d w m) ∧ SameQueues t (t.putD d w m) ∧ (t.putD d w m).v = t.v ∧ (t.putD d w m).p = t.p ∧
      ∀ n, d ≠ .x n → (t.putD d w m).getX n = t.getX n := by
  rw [putD_mark_eq]
  exact putD_frame t d w

theorem putD_atoms (t : Strand) (d : Desig) (w : Word) (m : Option Mark) : (t.putD d w m).atoms = t.atoms := by
  unfold Strand.putD
  split
  · unfold Strand.setX
    split <;> rfl
  · rfl

/-- A register other than x0 and x32 holds what is written to it, with its mark (08 R263). -/
theorem setX_marked (t : Strand) {n : Fin 64} (w : Word) (m : Option Mark) (h0 : n ≠ 0) (h32 : n ≠ 32) :
    (t.setX n w m).getX n = w ∧ (t.setX n w m).mark? n = m := by
  have hn : ¬(n = 0 ∨ n = 32) := by simp [h0, h32]
  simp only [Strand.setX, Strand.getX, Strand.mark?, Strand.invalidate, if_neg hn]
  refine ⟨by simp, ?_⟩
  cases m with
  | none => exact FMap.get?_filter_ne t.marks n.val
  | some k => exact FMap.get?_set_self _ _ _

/-- The strand without the atomic `a`, and its result in its register. -/
def answered (t : Strand) (a : AtomFlight) : Strand :=
  let t := { t with atoms := t.atoms.filter (·.req != a.req) }
  match a.d with
  | some d => t.putD d a.result a.mark
  | none => t

theorem answered_atoms (t : Strand) (a : AtomFlight) :
    (answered t a).atoms = t.atoms.filter (·.req != a.req) := by
  unfold answered
  cases a.d with
  | none => rfl
  | some d => exact putD_atoms _ d _ _

theorem answered_result (t : Strand) {a : AtomFlight} {n : Fin 64} (hd : a.d = some (.x n)) (h0 : n ≠ 0) (h32 : n ≠ 32) :
    (answered t a).getX n = a.result ∧ (answered t a).mark? n = a.mark := by
  simp only [answered, hd, Strand.putD]
  exact setX_marked _ _ _ h0 h32

theorem answered_frame (t : Strand) (a : AtomFlight) :
    SameSpecial t (answered t a) ∧ SameQueues t (answered t a) ∧ (answered t a).v = t.v ∧ (answered t a).p = t.p ∧
      ∀ n, a.d ≠ some (.x n) → (answered t a).getX n = t.getX n := by
  unfold answered
  cases a.d with
  | none => simp [SameSpecial, SameQueues, Strand.getX]
  | some d =>
    obtain ⟨hsp, hq, hv, hp, hx⟩ :=
      putD_marked_frame { t with atoms := t.atoms.filter (·.req != a.req) } d a.result a.mark
    exact ⟨hsp, hq, hv, hp, fun n hn => hx n fun h => hn (congrArg some h)⟩

/-- The response leaves its strand as `answered` says, but for the bookkeeping of issue. -/
theorem atomicResponse_answered {s : State} {sid req : Nat} {t : Strand} {a : AtomFlight} (hs : s.strand? sid = some t)
    (ha : t.atoms.find? (·.req == req) = some a) (hp : a.performed = true) :
    ∃ s' t', exec (.atomicResponse sid req) s = .next s' ∧ s'.strand? sid = some t' ∧ t'.bare = (answered t a).bare := by
  have hreq : a.req = req := by simpa using List.find?_some ha
  subst hreq
  have key : ∀ (w : Strand), w.bare = (answered t a).bare →
      ∃ t', (match a.acq with
        | some sc => (s.setStrand sid (clearPend w fun p => p.req == a.req)).acquireL1 (unitOf sid) sc
        | none => s.setStrand sid (clearPend w fun p => p.req == a.req)).strand? sid = some t' ∧
        t'.bare = (answered t a).bare := fun w hw => by
    refine ⟨clearPend w fun p => p.req == a.req, ?_, (clearPend_bare w _).trans hw⟩
    split
    · exact (strand?_congr (acquireL1_strands _ _ _) sid).trans (strand?_setStrand _ _ _)
    · exact strand?_setStrand _ _ _
  have he : exec (.atomicResponse sid a.req) s = _ := (rfl : _ = execAtomicResponse sid a.req s)
  simp only [execAtomicResponse, hs, ha, hp, Bool.not_true, Bool.false_eq_true, if_false] at he
  refine (key _ ?_).elim fun t' ht => ⟨_, t', he, ht⟩
  unfold answered
  cases a.d with
  | none => rfl
  | some d => exact backfill_bare _ _ _ _ _

/-- Settles O30: the group at its home by its new value, the response by what it leaves in its strand. -/
theorem atomicsPerform : Obligations.AtomicsPerform := by
  intro s sid
  refine ⟨fun m a ha hg hc => ⟨atomicGroupPerform_performed ha hg hc, fun hn => if_neg (by simp [hn]),
    fun hd hguard hp => ?_⟩, fun req t a hs ha hp => ?_⟩
  · have hm := performGroup_mem hd hguard hp
    refine ⟨hm, fun l hl => ?_⟩
    rw [hm]
    exact Memory.read_writeN_ne _ _ _ (by rwa [leBytes_length])
  · obtain ⟨s', t', he, hs', hb⟩ := atomicResponse_answered hs ha hp
    obtain ⟨hsp, hq, hv, hp', hx⟩ := answered_frame t a
    have hatoms : t'.atoms = t.atoms.filter (·.req != a.req) :=
      (congrArg Strand.atoms hb : t'.bare.atoms = _).trans (answered_atoms t a)
    have hreq : a.req = req := by simpa using List.find?_some ha
    refine ⟨s', t', he, hs', fun b hmem => ?_, fun n hd h0 h32 => ?_, fun n hd => (getX_of_bare hb n).trans (hx n hd),
      (v_of_bare hb).trans hv, (p_of_bare hb).trans hp', hsp.trans (special_of_bare hb), ?_⟩
    · rw [hatoms] at hmem
      simpa [hreq] using hmem
    · obtain ⟨hr, hmark⟩ := answered_result t hd h0 h32
      exact ⟨(getX_of_bare hb n).trans hr, (congrArg (Strand.mark? · n) hb : t'.bare.mark? n = _).trans hmark⟩
    · obtain ⟨q1, q2, q3, q4, q5⟩ := hq
      obtain ⟨r1, r2, r3, r4, r5⟩ := queues_of_bare hb
      exact ⟨r1.trans q1, r2.trans q2, r3.trans q3, r4.trans q4, r5.trans q5⟩

end Sys2Proof.Machine
end

section
namespace Sys2Proof.Machine

open Decode

/-! ### Runs of bytes in memory (00 R3; log 3) -/

theorem leNat_leBytes (n v : Nat) : leNat (leBytes n v) = v % 2 ^ (8 * n) := by
  induction n generalizing v with
  | zero => rw [leBytes, leNat, Nat.mul_zero, Nat.pow_zero, Nat.mod_one]
  | succ n ih =>
    rw [leBytes, leNat, ih, BitVec.toNat_ofNat, Nat.mul_succ, Nat.add_comm (8 * n), Nat.pow_add]
    exact (Nat.mod_mul).symm

theorem readN_eq_map (m : List Host.Cell) (a n : Nat) :
    Memory.readN m a n = (List.range n).map fun k => Memory.read m (a + k) := by
  induction n generalizing a with
  | zero => rfl
  | succ n ih =>
    rw [Memory.readN, ih, List.range_succ_eq_map, List.map_cons, List.map_map]
    simp only [Function.comp_def, Nat.add_zero, Nat.succ_eq_add_one, Nat.add_assoc, Nat.add_comm 1]

/-- A run of bytes reads as it was written. -/
theorem readN_writeN_self {m : List Host.Cell} (h : Memory.wf m = true) (a : Nat) (bs : List Byte) :
    Memory.readN (Memory.writeN m a bs) a bs.length = bs := by
  rw [readN_eq_map]
  refine List.ext_getElem (by simp) fun k hk hk' => ?_
  simp [Memory.read_writeN_at h a bs k hk', hk']

/-- A run of bytes reads as before after a write outside it. -/
theorem readN_writeN_ne (m : List Host.Cell) {a b n : Nat} (bs : List Byte) (h : b + n ≤ a ∨ a + bs.length ≤ b) :
    Memory.readN (Memory.writeN m a bs) b n = Memory.readN m b n := by
  rw [readN_eq_map, readN_eq_map]
  refine List.map_congr_left fun k hk => Memory.read_writeN_ne m a bs ?_
  have := List.mem_range.mp hk
  omega

/-- A number that fits its bytes reads as it was written. -/
theorem readLocNat_of_writeN {s s' : State} {a n v : Nat} (h : Memory.wf s.mem = true)
    (hm : s'.mem = Memory.writeN s.mem a (leBytes n v)) : s'.readLocNat a n = v % 2 ^ (8 * n) := by
  have := readN_writeN_self h a (leBytes n v)
  rw [leBytes_length] at this
  rw [State.readLocNat, State.readLoc, hm, this, leNat_leBytes]

theorem Memory.read_clear_ne (m : List Host.Cell) {lo n x : Nat} (h : x < lo ∨ lo + n ≤ x) :
    Memory.read (Memory.clear m lo n) x = Memory.read m x := by
  induction m with
  | nil => rfl
  | cons c m ih =>
    obtain ⟨k, v⟩ := c
    simp only [Memory.clear] at ih ⊢
    rw [List.filter_cons]
    split
    · rw [Memory.read, Memory.read, ih]
    next hk =>
      have hx : k ≠ x := by
        rintro rfl
        exact hk (by simpa using h)
      rw [ih, Memory.read, if_neg hx]

/-! ### Fields of a register (20 R466) -/

theorem bits_eq_extract (v : Word) (i n : Nat) : bits v i n = (v.extractLsb' i n).toNat := by
  rw [bits, BitVec.extractLsb'_toNat]

/-- A field kept in place: its bits, and zeros around it. -/
theorem keepBits_getLsbD (v : Word) {lo hi b : Nat} (hl : lo ≤ hi) (hb : b < 64) :
    (keepBits v lo hi).getLsbD b = (decide (lo ≤ b) && decide (b ≤ hi) && v.getLsbD b) := by
  rw [keepBits, bits, BitVec.getLsbD_ofNat, Nat.testBit_mul_two_pow, Nat.testBit_mod_two_pow, Nat.testBit_shiftRight]
  by_cases hlo : lo ≤ b
  · have hlt : b - lo < hi + 1 - lo ↔ b ≤ hi := by omega
    simp [hb, hlo, hlt, Nat.add_sub_cancel' hlo, BitVec.getLsbD]
  · simp [hlo]

/-- RASCTL holds its four fields side by side (17 R449). -/
theorem rasctl_eq (d : DevRegs) : rasctl d = d.rassize ++ d.rasdrop ++ d.rasput ++ d.rasget := by
  apply BitVec.eq_of_toNat_eq
  have h1 := d.rassize.isLt
  have h2 := d.rasdrop.isLt
  have h3 := d.rasput.isLt
  have h4 := d.rasget.isLt
  simp only [rasctl, BitVec.toNat_ofNat, BitVec.toNat_append]
  rw [← Nat.shiftLeft_add_eq_or_of_lt h4, ← Nat.shiftLeft_add_eq_or_of_lt h3, ← Nat.shiftLeft_add_eq_or_of_lt h2]
  simp only [Nat.shiftLeft_eq]
  omega

/-! ### The register block of BAR0 (20 R463, R466, R467) -/

theorem writeBar_register (s : State) {off : Nat} (v : Word) (host : Bool) (h8 : off % 8 = 0) (hlt : off < 0x20000) :
    writeBar s (0x100000 + off) v host = writeReg s off v host := by
  have hm : isMsix (0x100000 + off) = false := by
    simp only [isMsix, Bool.and_eq_false_iff, decide_eq_false_iff_not]
    omega
  rw [writeBar, if_neg (by omega), hm, if_neg Bool.false_ne_true, if_pos (by omega), Nat.add_sub_cancel_left]

theorem headOnly_lt {off : Nat} (h : headOnly off = true) : off < 0x160 := by
  simp only [headOnly, Bool.or_eq_true, Bool.and_eq_true, beq_iff_eq, decide_eq_true_eq] at h
  omega

/-- WDINT stores no interval below 0x10000 (20 R466). -/
theorem writeReg_wdint (s : State) (v : Word) (host : Bool) : writeReg s 0x20 v host = { s with dev := { s.dev with
    wdint := if v.extractLsb' 0 32 < 0x10000#32 then 0x10000#32 else v.extractLsb' 0 32 } } := by
  have h : writeReg s 0x20 v host = { s with dev := { s.dev with
      wdint := if bits v 0 32 < 0x10000 then 0x10000 else v.setWidth 32 } } := by cases host <;> rfl
  simp only [h, bits_eq_extract, BitVec.setWidth_eq_extractLsb' (show 32 ≤ 64 by decide), BitVec.lt_def]
  rfl

/-- The host does not write the headstock's registers. -/
theorem writeBar_headOnly (s : State) {off : Nat} (v : Word) (h : headOnly off = true) :
    writeBar s (0x100000 + off) v true = s := by
  by_cases h8 : off % 8 = 0
  · have := headOnly_lt h
    exact (writeBar_register s v true h8 (by omega)).trans (if_pos (by rw [h]; rfl))
  · rw [writeBar, if_pos (by omega)]

/-- A write of a queue's context register (20 R466). -/
theorem queuePasid_writeReg (s : State) (q : Nat) (v : Word) (host : Bool) (h : q < 8192) :
    queuePasid (writeReg s (0x10000 + 8 * q) v host) q = v.setWidth 20 := by
  have hh : headOnly (0x10000 + 8 * q) = false := by
    rw [Bool.eq_false_iff]
    intro ht
    have := headOnly_lt ht
    omega
  have hq : (0x10000 + 8 * q - 0x10000) / 8 = q := by omega
  refine (congrArg (queuePasid · q) ((if_neg (by simp [hh])).trans (if_pos (by omega)))).trans ?_
  simp only [hq, queuePasid]
  split
  next hz => rw [FMap.get?_erase_self, hz]; rfl
  next => rw [FMap.get?_set_self]; rfl

theorem writeBar_doorbell (s : State) {q : Nat} (v : Word) (h : q < 8192) :
    writeBar s (0x2000000 + 0x1000 * q) v true = ringDoorbell s q v.toNat := by
  have hm : isMsix (0x2000000 + 0x1000 * q) = false := by
    simp only [isMsix, Bool.and_eq_false_iff, decide_eq_false_iff_not]
    omega
  rw [writeBar, if_neg (by omega), hm, if_neg Bool.false_ne_true, if_neg (by omega),
    if_pos ⟨by omega, by omega, rfl⟩, show (0x2000000 + 0x1000 * q - 0x2000000) / 0x1000 = q by omega]

theorem writeJack_eq (s : State) (v : Word) :
    writeJack s v = { s with dev := { s.dev with jack := if v < s.dev.jack then s.dev.jack else v } } := by
  unfold writeJack
  split <;> rfl

/-- WINCFG of an empty cluster sets its window; of the memory only the window may change (20 R467). -/
theorem writeWincfg_sets (s : State) {c : Nat} {v : Word} (hc : c < 24) (hb : clusterBusy s c = false)
    (hv : bits v 0 4 ≤ 8) :
    ((writeWincfg s c v).cluster c).win = bits v 0 4 ∧ ((writeWincfg s c v).cluster c).sems = (s.cluster c).sems ∧
      (writeWincfg s c v).tiles = s.tiles ∧ (∀ d, d ≠ c → (writeWincfg s c v).cluster d = s.cluster d) ∧
      ∀ l, l < windowLoc c 0 ∨ windowLoc c 0 + 0x4000000 ≤ l →
        Memory.read (writeWincfg s c v).mem l = Memory.read s.mem l := by
  have hcl : ∀ s1 : State, s1.clusters = s.clusters → ∀ d, s1.cluster d = s.cluster d := fun s1 h d => by
    rw [State.cluster, State.cluster, h]
  rw [writeWincfg, if_pos ⟨hc, hv, by simp [hb]⟩]
  dsimp only
  split
  next =>
    exact ⟨by simp, by simp, rfl, fun d hd => cluster_setCluster_ne _ _ (Ne.symm hd), fun _ _ => rfl⟩
  next =>
    refine ⟨by simp, ?_, rfl, fun d hd => ?_, fun l hl => Memory.read_clear_ne s.mem hl⟩
    · rw [cluster_setCluster, hcl _ (State.clearLoc_clusters s _ _)]
    · rw [cluster_setCluster_ne _ _ (Ne.symm hd), hcl _ (State.clearLoc_clusters s _ _)]

theorem writeWincfg_large (s : State) (c : Nat) {v : Word} (hv : 8 < bits v 0 4) : writeWincfg s c v = s :=
  if_neg fun h => absurd h.2.1 (by omega)

/-! ### BAR2 and the translation service (20 R464, R465) -/

/-- What the host writes through BAR2 it reads there, and no other byte is new. -/
theorem bar2_written {s : State} {off : Nat} (v : Word) (h8 : off % 8 = 0) (hs : off < bar2Size s)
    (ht : s.dev.hwbase.toNat + off + 8 ≤ tier0Size) (hon : s.host.off = false) (hw : Memory.wf s.mem = true) :
    ∃ s', exec (.hostBar2Access off (some v)) s = .next s' ∧ bar2Read s' off = v ∧
      ∀ l, l < s.dev.hwbase.toNat + off ∨ s.dev.hwbase.toNat + off + 8 ≤ l →
        Memory.read s'.mem l = Memory.read s.mem l := by
  have he : exec (.hostBar2Access off (some v)) s =
      .next (s.writeLocNat (s.dev.hwbase.toNat + off) 8 v.toNat) := by
    refine (rfl : _ = execHostBar2Access off (some v) s).trans ?_
    have hc : (bar2Size s ≤ off || off % 8 != 0 || decide (tier0Size < s.dev.hwbase.toNat + off + 8) || s.host.off) =
        false := by simp [hs, h8, ht, hon]
    simp only [execHostBar2Access, hc, Bool.false_eq_true, if_false]
  refine ⟨_, he, ?_, fun l hl => Memory.read_writeN_ne _ _ _ (by rwa [leBytes_length])⟩
  have hr := readLocNat_of_writeN hw (State.writeLocNat_mem s (s.dev.hwbase.toNat + off) 8 v.toNat)
  have hc : ¬(bar2Size s ≤ off ∨ tier0Size < s.dev.hwbase.toNat + off + 8) := by omega
  refine (if_neg hc).trans ?_
  rw [State.writeLocNat_dev, hr, Nat.mod_eq_of_lt v.isLt, BitVec.ofNat_toNat, BitVec.setWidth_eq]

/-- What an invalidation leaves of a tile: its task, and the entries and fetched lines that it does not cover. -/
def Tile.invalidated (pasid : BitVec 20) (a len : Nat) (x : Tile) : Tile :=
  { x with
    tlb := x.tlb.filter fun e => !(e.pasid == pasid && overlaps a len e.base e.size)
    icache := x.icache.filter fun l => !(l.pasid == pasid && overlaps a len l.va 128) }

def Cluster.invalidated (pasid : BitVec 20) (a len : Nat) (x : Cluster) : Cluster :=
  { x with tlb := x.tlb.filter fun e => !(e.pasid == pasid && overlaps a len e.base e.size) }

theorem tile_invalidate (s : State) (pasid : BitVec 20) (a len tile : Nat) :
    (s.invalidate pasid a len).tile tile = (s.tile tile).invalidated pasid a len := by
  have h : (s.invalidate pasid a len).tiles.get? tile = _ := FMap.get?_map s.tiles (Tile.invalidated pasid a len) tile
  rw [State.tile, State.tile, h]
  cases s.tiles.get? tile <;> rfl

theorem cluster_invalidate (s : State) (pasid : BitVec 20) (a len c : Nat) :
    (s.invalidate pasid a len).cluster c = (s.cluster c).invalidated pasid a len := by
  have h : (s.invalidate pasid a len).clusters.get? c = _ :=
    FMap.get?_map s.clusters (Cluster.invalidated pasid a len) c
  rw [State.cluster, State.cluster, h]
  cases s.clusters.get? c <;> rfl

/-- An entry that passes the filter of an invalidation is of another context, or the range does not cover it. -/
theorem not_overlaps_of_kept {pasid : BitVec 20} {a len : Nat} {e : TlbEnt} {l : List TlbEnt}
    (h : e ∈ l.filter fun e => !(e.pasid == pasid && overlaps a len e.base e.size)) (hp : e.pasid = pasid) :
    overlaps a len e.base e.size = false := by
  simpa [hp] using (List.mem_filter.mp h).2

/-- No entry of a TLB that the invalidation covers is left (07 R236). -/
theorem invalidate_tlb (s : State) (pasid : BitVec 20) (a len : Nat) :
    (∀ tile e, e ∈ ((s.invalidate pasid a len).tile tile).tlb → e.pasid = pasid → overlaps a len e.base e.size = false) ∧
      ∀ c e, e ∈ ((s.invalidate pasid a len).cluster c).tlb → e.pasid = pasid → overlaps a len e.base e.size = false := by
  refine ⟨fun tile e he => ?_, fun c e he => ?_⟩
  · rw [tile_invalidate] at he
    exact not_overlaps_of_kept he
  · rw [cluster_invalidate] at he
    exact not_overlaps_of_kept he

theorem resolveQueue_out (s : State) (fail : Bool) (q : Nat) : (s.resolveQueue fail q).out = s.out := by
  unfold State.resolveQueue
  split
  · rfl
  · dsimp only
    split
    · rfl
    · split <;> rfl

/-- A pair resolved in the device leaves what stands outside it. -/
theorem resolvePair_out (s : State) (p : PagePair) (fail : Bool) : (s.resolvePair p fail).out = s.out :=
  foldl_inv State.out _ (fun s q => resolveQueue_out s fail q) _ _

/-- A response ends its request; a success brings the page that the host now reports (20 R465). -/
theorem priResponse_ends {s : State} {pasid : BitVec 20} {page : Word}
    (h : ((pasid, pageOf page.toNat) : PagePair) ∈ s.out.priOut.take pagesOut) (ans : PriAnswer) :
    ∃ s', exec (.priResponse pasid page ans) s = .next s' ∧ ((pasid, pageOf page.toNat) : PagePair) ∉ s'.out.priOut ∧
      (∀ r w, ans = .success r w → (r || w) = true →
        ({ pasid, page := pageOf page.toNat, r, w } : HostPage) ∈ s'.out.hostPages) ∧
      (ans = .failure → s'.out.hostPages = s.out.hostPages) := by
  have he : exec (.priResponse pasid page ans) s = _ := (rfl : _ = execPriResponse pasid page ans s)
  simp only [execPriResponse, List.contains_iff_mem.mpr h, Bool.not_true, Bool.false_eq_true, if_false] at he
  refine ⟨_, he, ?_⟩
  cases ans with
  | success r w =>
    simp only [resolvePair_out]
    refine ⟨by simp, fun r' w' heq hrw => ?_, fun heq => by cases heq⟩
    cases heq
    simp [hrw]
  | failure =>
    simp only [resolvePair_out]
    refine ⟨?_, fun r w heq => (by cases heq), fun _ => ?_⟩
    · split <;> simp
    · split <;> rfl

/-! ### Flits and ports (20 R489, R492) -/

theorem flitBytes_length (ws : List (BitVec 32)) : (flitBytes ws).length = 64 := by
  simp only [flitBytes, List.length_flatMap, leBytes_length]
  rfl

/-- Counting writes the count of the buffer alone: with no EXPECT, the count and the flits. -/
theorem countFlits_mem (s : State) (c : Coll) (n : Nat) :
    ∃ v, (countFlits s c n).mem = Memory.writeN s.mem (c.loc + 0x1C) (leBytes 4 v) ∧
      (c.expect = 0 → v = (s.readLocNat (c.loc + 0x1C) 4 + n) % 2 ^ 32) := by
  unfold countFlits
  split
  · exact ⟨_, rfl, fun _ => rfl⟩
  next h => exact ⟨_, rfl, fun h0 => absurd h0 h⟩

/-- Landing in one part writes the folded flit there, before the count. -/
theorem landFlit_writes {s : State} {c : Coll} {p : Part} {ws : List (BitVec 32)} {n : Nat} (bad : Bool) (hl : p.len = 64) :
    ∃ s1, s1.mem = Memory.writeN s.mem p.loc (flitBytes (combFlit c.op (flitWords (s.readLoc p.loc 64)) ws)) ∧
      landFlit s c [p] ws n bad = countFlits s1 c n := by
  refine ⟨_, ?_, rfl⟩
  simp only [writeParts, State.writeLoc_mem, readParts, List.flatMap_cons, List.flatMap_nil, List.append_nil, hl]
  rw [takeBytes_self (flitBytes_length _)]

/-- A flit that lands in one part beside the buffer's count is folded there, and counted. -/
theorem landFlit_one {s : State} {c : Coll} {p : Part} {ws : List (BitVec 32)} {n : Nat} (bad : Bool) (hl : p.len = 64)
    (hw : Memory.wf s.mem = true) (hd : p.loc + 64 ≤ c.loc + 0x1C ∨ c.loc + 0x20 ≤ p.loc) :
    (landFlit s c [p] ws n bad).readLoc p.loc 64 = flitBytes (combFlit c.op (flitWords (s.readLoc p.loc 64)) ws) ∧
      (c.expect = 0 → (landFlit s c [p] ws n bad).readLocNat (c.loc + 0x1C) 4 =
        (s.readLocNat (c.loc + 0x1C) 4 + n) % 2 ^ 32) := by
  obtain ⟨s1, hs1, hland⟩ := landFlit_writes (s := s) (c := c) (ws := ws) (n := n) bad hl
  obtain ⟨v, hv, hcount⟩ := countFlits_mem s1 c n
  have hf := flitBytes_length (combFlit c.op (flitWords (s.readLoc p.loc 64)) ws)
  generalize flitBytes (combFlit c.op (flitWords (s.readLoc p.loc 64)) ws) = fold at hs1 hf ⊢
  have hw1 : Memory.wf s1.mem = true := hs1 ▸ Memory.wf_writeN _ _ hw
  have hfold := readN_writeN_self hw p.loc fold
  rw [hf] at hfold
  rw [hland]
  refine ⟨?_, fun h0 => ?_⟩
  · rw [State.readLoc, hv, readN_writeN_ne _ _ (by rw [leBytes_length]; omega), hs1, hfold]
  · have hold : s1.readLocNat (c.loc + 0x1C) 4 = s.readLocNat (c.loc + 0x1C) 4 := by
      rw [State.readLocNat, State.readLoc, hs1, readN_writeN_ne _ _ (by rw [hf]; omega)]
      rfl
    rw [readLocNat_of_writeN hw1 hv, hcount h0, hold]
    exact Nat.mod_mod _ _

/-- A failed port is left, and the others stay (20 R489). -/
theorem ports_without (ports : BitVec 12) {port b : Nat} (hb : b < 12) :
    (ports &&& ~~~(1#12 <<< port)).getLsbD b = (ports.getLsbD b && b != port) := by
  have h : (1#12 <<< port).getLsbD b = decide (b = port) := by
    rw [← BitVec.twoPow_eq, BitVec.getLsbD_twoPow, ← Bool.decide_and, decide_eq_decide]
    omega
  rw [BitVec.getLsbD_and, BitVec.getLsbD_not, h, decide_eq_true hb, Bool.true_and]
  rfl

/-- A flit that the aperture takes lands in its buffer (20 R492). -/
theorem collectiveFlit_lands {s s1 : State} {f : Flit} {c : Coll} {p : Part} (hon : s.host.off = false)
    (hoff : 2 ^ 39 ≤ f.off.toNat) (ha : aperture s f.pasid f.user f.off.toNat 64 = (.ok (c, [p]), s1)) :
    exec (.collectiveFlit f) s = .next (landFlit s1 c [p] f.words (if c.op = 1 then 1 else f.count) false) := by
  refine (rfl : _ = execCollectiveFlit f s).trans ?_
  simp only [execCollectiveFlit, hon, Nat.not_lt.mpr hoff, ha, decide_false, Bool.or_self, Bool.false_eq_true, if_false]

/-- A request of another device is performed where its context puts it here (20 R490). -/
theorem fabricRequest_performed {s : State} {r : FabricReq} (hon : s.host.off = false) :
    (∀ n, r.op = .read n → exec (.fabricRequest r) s = .next (fabricTarget s r .load n).2) ∧
    (∀ bs ps s1, r.op = .write bs → fabricTarget s r .store bs.length = (.ok ps, s1) →
      exec (.fabricRequest r) s = .next (writeParts s1 ps bs false)) ∧
    ∀ opc ty o c p s1, r.op = .atomic opc ty o c → fabricTarget s r .atomic (Ty.width ty / 8) = (.ok [p], s1) →
      exec (.fabricRequest r) s = .next (fabricAtomic s1 p opc ty o c) := by
  refine ⟨fun n hr => ?_, fun bs ps s1 hr ht => ?_, fun opc ty o c p s1 hr ht => ?_⟩
  all_goals refine (rfl : _ = execFabricRequest r s).trans ?_
  · simp only [execFabricRequest, hon, hr, Bool.false_eq_true, if_false]
  · simp only [execFabricRequest, hon, hr, ht, Bool.false_eq_true, if_false]
  · simp only [execFabricRequest, hon, hr, ht, Bool.false_eq_true, if_false]

/-- A port that fails is no longer among those in use (20 R489). -/
theorem portFailure_leaves (s : State) {port : Nat} (h : port < 12) :
    ∃ s', exec (.portFailure port) s = .next s' ∧
      ∀ b < 12, s'.out.ports.getLsbD b = (s.out.ports.getLsbD b && b != port) :=
  ⟨{ s with out := { s.out with ports := s.out.ports &&& ~~~(1#12 <<< port) } },
    congrArg Host.Outcome.next (if_pos h), fun _ hb => ports_without s.out.ports hb⟩

/-- The registers of the device that a write reaches through BAR0 (20 R466, R467). -/
theorem registerWrite_registers (s : State) :
    (∀ (v : Word) host, ∃ s', exec (.registerWrite 0x100020 v host) s = .next s' ∧
      s'.dev.wdint = (if v.extractLsb' 0 32 < 0x10000#32 then 0x10000#32 else v.extractLsb' 0 32) ∧ s'.mem = s.mem) ∧
    (∀ v : Word, ∃ s', exec (.registerWrite 0x100010 v false) s = .next s' ∧
      ∀ b < 64, s'.dev.qtroot.getLsbD b = (decide (23 ≤ b) && decide (b ≤ 51) && v.getLsbD b)) ∧
    ∀ q (v : Word) host, q < 8192 → ∃ s', exec (.registerWrite (0x110000 + 8 * q) v host) s = .next s' ∧
      queuePasid s' q = v.setWidth 20 := by
  refine ⟨fun v host => ?_, fun v => ?_, fun q v host hq => ?_⟩
  · have hw := (writeBar_register (off := 0x20) s v host rfl (by decide)).trans (writeReg_wdint s v host)
    exact ⟨_, congrArg Host.Outcome.next hw, rfl, rfl⟩
  · have hw := writeBar_register (off := 0x10) s v false rfl (by decide)
    exact ⟨_, congrArg Host.Outcome.next hw, fun b hb => keepBits_getLsbD v (by decide) hb⟩
  · have hw := writeBar_register (off := 0x10000 + 8 * q) s v host (by omega) (by omega)
    rw [← Nat.add_assoc] at hw
    exact ⟨_, congrArg Host.Outcome.next hw, queuePasid_writeReg s q v host hq⟩

/-- Settles O54: register by register and port by port, by the lemmas above. -/
theorem devicePorts : Obligations.DevicePorts := by
  intro s
  obtain ⟨hwdint, hqtroot, hqueue⟩ := registerWrite_registers s
  refine ⟨fun v => congrArg Host.Outcome.next (writeJack_eq s v), fun c v hc hb => ⟨fun hv => ?_, fun hv => ?_⟩, rfl, rfl,
    rfl, fun b _ => congrArg (BitVec.getLsbD · b) (rasctl_eq s.dev), hwdint, hqtroot,
    fun off v h => congrArg Host.Outcome.next (writeBar_headOnly s v h), hqueue, fun q v hq => ?_,
    fun off v h8 hs ht hon hw => ⟨rfl, bar2_written v h8 hs ht hon hw⟩,
    fun pasid a len => ⟨_, rfl, rfl, rfl, invalidate_tlb s pasid a.toNat len⟩,
    fun pasid page ans h => priResponse_ends h ans, fun r hon => ?_, fun id => rfl,
    fun f c p s1 hon hoff ha hl hw hd => ⟨_, collectiveFlit_lands hon hoff ha, landFlit_one false hl hw hd⟩,
    fun port hport => portFailure_leaves s hport⟩
  · have h := bits_eq_extract v 0 4
    obtain ⟨hwin, hrest⟩ := writeWincfg_sets s hc hb (Nat.le_trans (Nat.le_of_eq h) (BitVec.le_def.mp hv))
    exact ⟨_, rfl, hwin.trans h, hrest⟩
  · exact congrArg Host.Outcome.next (writeWincfg_large s c ((bits_eq_extract v 0 4).symm ▸ BitVec.lt_def.mp hv))
  · have hring : exec (.doorbell q v) s = .next (ringDoorbell s q v.toNat) := congrArg Host.Outcome.next (if_pos hq)
    exact (congrArg Host.Outcome.next (writeBar_doorbell s v hq)).trans hring.symm
  · obtain ⟨hread, hwrite, hatomic⟩ := fabricRequest_performed (r := r) hon
    exact ⟨fun n hr => ⟨_, hread n hr, rfl⟩, hwrite, hatomic⟩

end Sys2Proof.Machine
end

section
namespace Sys2Proof.Machine

/-! ### What an atomic leaves at its place (09 R286, R287; 08 R264) -/

/-- AMAX leaves the larger of the two as integers of its type. -/
theorem toInt_applyAtom_max (ty : Ty) (v o : Nat) :
    Ty.toInt ty (applyAtom 0x121 ty v o) = max (Ty.toInt ty v) (Ty.toInt ty o) := by
  refine (apply_ite (Ty.toInt ty) (Ty.toInt ty v < Ty.toInt ty o) o v).trans ?_
  split
  next h => exact (Int.max_eq_right (Int.le_of_lt h)).symm
  next h => exact (Int.max_eq_left (Int.not_lt.mp h)).symm

/-- AMIN leaves the smaller. -/
theorem toInt_applyAtom_min (ty : Ty) (v o : Nat) :
    Ty.toInt ty (applyAtom 0x122 ty v o) = min (Ty.toInt ty v) (Ty.toInt ty o) := by
  refine (apply_ite (Ty.toInt ty) (Ty.toInt ty o < Ty.toInt ty v) o v).trans ?_
  split
  next h => exact (Int.min_eq_right (Int.le_of_lt h)).symm
  next h => exact (Int.min_eq_left (Int.not_lt.mp h)).symm

theorem pickMax_nan_left {x : FVal} (h : x.isNan = true) (y : FVal) : pickMax x y = y := if_pos h

theorem pickMax_nan_right {x y : FVal} (hx : x.isNan = false) (hy : y.isNan = true) : pickMax x y = x := by
  simp only [pickMax, hx, hy, Bool.false_eq_true, if_false, if_true]

/-- Of two numbers the larger is picked, +0 above -0 (06 R186). -/
theorem pickMax_numbers {x y : FVal} (hx : x.isNan = false) (hy : y.isNan = false) :
    pickMax x y = if FVal.ltMin x y then y else x := by
  simp only [pickMax, hx, hy, Bool.false_eq_true, if_false]

theorem eq_nan_of_isNan {x : FVal} (h : x.isNan = true) : x = .nan := by
  cases x with
  | nan => rfl
  | inf n => cases h
  | fin n m e => cases h

/-- The canonical NaN of binary32 (04 R115). -/
theorem f32Of_nan : (f32Of .nan).toNat = 0x7FC00000 := rfl

/-- AFMAX picks one of the two values; one NaN gives the other (08 R264). -/
theorem applyAtom_fmax (ty : Ty) (v o : Nat) :
    applyAtom 0x12B ty v o = (f32Of (pickMax (f32Val (BitVec.ofNat 32 v)) (f32Val (BitVec.ofNat 32 o)))).toNat := rfl

/-- ACAS writes its third operand on equality only (09 R287). -/
theorem newValue_acas {a : AtomFlight} (h : a.opc = 0x129) (v c : Nat) :
    newValue a v c = if v = a.operand.toNat then a.swap.toNat % 2 ^ Ty.width a.ty else v := if_pos h

theorem newValue_apply {a : AtomFlight} (h : a.opc ≠ 0x129) (v c : Nat) : newValue a v c = applyAtom a.opc a.ty v c :=
  if_neg h

/-- Settles O29: opcode by opcode, AMAX and AMIN in the order of the type, AFMAX by which operand is a NaN. -/
theorem atomicValues : Obligations.AtomicValues := by
  intro ty v o a _ _
  refine ⟨rfl, toInt_applyAtom_max ty v o, toInt_applyAtom_min ty v o, rfl, rfl, rfl, rfl, rfl, rfl,
    fun h => newValue_acas h v o, fun h => newValue_apply h v o, fun _ => ⟨rfl, fun hx hy => ?_, fun hx hy => ?_,
      fun hx hy => ?_, fun hx hy => ?_⟩⟩
  · rw [applyAtom_fmax, pickMax_nan_left hx, eq_nan_of_isNan hy, f32Of_nan]
  · rw [applyAtom_fmax, pickMax_nan_left hx]
  · rw [applyAtom_fmax, pickMax_nan_right hx hy]
  · rw [applyAtom_fmax, pickMax_numbers hx hy]

end Sys2Proof.Machine
end

section
namespace Sys2Proof.Machine

/-! ### The data of a load arrives (09 R276, R277) -/

/-- A write of D touches registers, their marks and their bookkeeping, and nothing else of the strand. -/
theorem putD_eq (t : Strand) (d : Desig) (w : Word) (m : Option Mark) :
    ∃ x marks oplog reuseA reuseE badRegs,
      t.putD d w m = { t with x, marks, oplog, reuseA, reuseE, badRegs } := by
  unfold Strand.putD
  split
  · unfold Strand.setX
    split
    · exact ⟨_, _, _, _, _, _, rfl⟩
    · exact ⟨_, _, _, _, _, _, rfl⟩
  · exact ⟨_, _, _, _, _, _, rfl⟩

theorem putD_loads (t : Strand) (d : Desig) (w : Word) (m : Option Mark) : (t.putD d w m).loads = t.loads := by
  obtain ⟨_, _, _, _, _, _, h⟩ := putD_eq t d w m
  rw [h]

/-- The LQ entry that waits for the load `l` holds its data and its mark. -/
def filled (l : Flight) (e : LqEnt) : LqEnt := if e.req = l.req then { e with data := some l.data, mark := l.mark } else e

/-- The strand without the load `l` in flight, and its data where it belongs. -/
def landed (t : Strand) (l : Flight) : Strand :=
  let t := { t with loads := t.loads.filter (·.req != l.req) }
  match l.dst with
  | .reg d => t.putD d (l.data.setWidth 64) l.mark
  | .lq => Strand.logged { t with lq := t.lq.map (filled l) } (.reg .lq) l.data

/-- The arrival does what `landed` says, but for the bookkeeping of issue. -/
theorem arrive_bare (t : Strand) (l : Flight) : (t.arrive l).bare = (landed t l).bare := by
  unfold Strand.arrive landed
  rw [clearPend_bare]
  cases l.dst with
  | reg d => exact backfill_bare _ _ _ _ _
  | lq => rfl

theorem landed_loads (t : Strand) (l : Flight) : (landed t l).loads = t.loads.filter (·.req != l.req) := by
  unfold landed
  cases l.dst with
  | reg d => exact putD_loads _ d _ _
  | lq => rfl

theorem landed_result (t : Strand) {l : Flight} {n : Fin 64} (hd : l.dst = .reg (.x n)) (h0 : n ≠ 0) (h32 : n ≠ 32) :
    (landed t l).getX n = l.data.setWidth 64 ∧ (landed t l).mark? n = l.mark := by
  simp only [landed, hd, Strand.putD]
  exact setX_marked _ _ _ h0 h32

theorem landed_lq (t : Strand) {l : Flight} (hd : l.dst = .lq) :
    (landed t l).x = t.x ∧ (landed t l).lq = t.lq.map (filled l) := by
  simp only [landed, hd, Strand.logged, and_self]

theorem landed_frame (t : Strand) (l : Flight) :
    SameSpecial t (landed t l) ∧ (landed t l).v = t.v ∧ (landed t l).p = t.p ∧
      ∀ n, l.dst ≠ .reg (.x n) → (landed t l).getX n = t.getX n := by
  unfold landed
  cases l.dst with
  | reg d =>
    obtain ⟨hsp, -, hv, hp, hx⟩ :=
      putD_marked_frame { t with loads := t.loads.filter (·.req != l.req) } d (l.data.setWidth 64) l.mark
    exact ⟨hsp, hv, hp, fun n hn => hx n fun h => hn (congrArg LoadDst.reg h)⟩
  | lq => simp [SameSpecial, Strand.logged, Strand.getX]

/-- The response to a load in flight completes: its strand is the one the data has arrived at. -/
theorem loadDataReturn_arrives {s : State} {sid req : Nat} {t : Strand} {l : Flight} (hs : s.strand? sid = some t)
    (hl : t.loads.find? (·.req == req) = some l) :
    ∃ s', exec (.loadDataReturn sid req) s = .next s' ∧ s'.strand? sid = some (t.arrive l) := by
  have he : exec (.loadDataReturn sid req) s = _ := (rfl : _ = execLoadDataReturn sid req s)
  simp only [execLoadDataReturn, hs, hl] at he
  refine ⟨_, he, ?_⟩
  split
  · exact (strand?_congr (acquireL1_strands _ _ _) sid).trans (strand?_setStrand _ _ _)
  · exact strand?_setStrand _ _ _

/-! ### The write of another result (01 R23) -/

theorem clearPend_pend (t : Strand) (g : Pend → Bool) : (clearPend t g).pend = t.pend.filter (!g ·) := by
  obtain ⟨a, e, h⟩ := foldl_lowerSb_eq Pend.slice Pend.wsb (t.pend.filter g) { t with pend := t.pend.filter (!g ·) }
  rw [clearPend, h]

theorem resultWrite_clears {s : State} {sid req : Nat} {t : Strand} (hs : s.strand? sid = some t)
    (h : (t.loads.any (·.req == req) || t.atoms.any (·.req == req)) = false) :
    exec (.resultWrite sid req) s =
      .next (s.setStrand sid (clearPend t fun p => p.req == req && p.ready.isNone)) := by
  refine (rfl : _ = execResultWrite sid req s).trans ?_
  simp only [execResultWrite, hs, h, Bool.false_eq_true, if_false]

/-- Settles O21: the load's strand is the landed one but for bookkeeping; the other result leaves bookkeeping alone. -/
theorem resultsArrive : Obligations.ResultsArrive := by
  intro s sid req t hs
  refine ⟨fun l hl => ?_, fun h => ⟨_, resultWrite_clears hs h, clearPend_bare _ _, fun p hp => ?_⟩⟩
  · obtain ⟨s', he, hs'⟩ := loadDataReturn_arrives hs hl
    have hb := arrive_bare t l
    obtain ⟨hsp, hv, hp, hx⟩ := landed_frame t l
    have hloads : (t.arrive l).loads = t.loads.filter (·.req != l.req) :=
      (congrArg Strand.loads hb : (t.arrive l).bare.loads = _).trans (landed_loads t l)
    refine ⟨s', t.arrive l, he, hs', fun m hm => ?_, fun n hd h0 h32 => ?_, fun hd => ?_,
      fun n hd => (getX_of_bare hb n).trans (hx n hd), (v_of_bare hb).trans hv, (p_of_bare hb).trans hp,
      hsp.trans (special_of_bare hb)⟩
    · rw [hloads] at hm
      simpa using hm
    · obtain ⟨hr, hmark⟩ := landed_result t hd h0 h32
      exact ⟨(getX_of_bare hb n).trans hr, (congrArg (Strand.mark? · n) hb : (t.arrive l).bare.mark? n = _).trans hmark⟩
    · obtain ⟨hregs, hlq⟩ := landed_lq t hd
      exact ⟨(congrArg Strand.x hb : (t.arrive l).bare.x = _).trans hregs,
        (congrArg Strand.lq hb : (t.arrive l).bare.lq = _).trans hlq⟩
  · rw [clearPend_pend] at hp
    obtain ⟨hmem, hkept⟩ := List.mem_filter.mp hp
    refine ⟨hmem, fun ⟨hreq, hready⟩ => ?_⟩
    simp only [hreq, hready, beq_self_eq_true, Option.isNone_none, Bool.and_self, Bool.not_true,
      Bool.false_eq_true] at hkept

end Sys2Proof.Machine
end

section
namespace Sys2Proof.Machine

/-! ### ST (09 R279) -/

/-- The effect of a store from the register `fl.c` to the parts `ps`, once its release steps are done: a device register
is written, or the bytes are (20 R463; 09 R279). -/
def stored (fl : FormM) (s : State) (sid : Nat) (u : Strand) (ps : List Part) : State :=
  if ps.any (·.space == .device) then storeDevice s ps (u.xa fl.c)
  else publish (storeParts (s.noteStore sid u u.seq fl.ch ps) (unitOf sid) sid fl.ch ps
    (leBytes (Ty.bytes fl.ty) (u.xa fl.c).toNat) (u.markOf fl.c).isSome) fl.ord fl.scope

/-- The body of ST, once its checks pass and no shadow tile has found a mismatch. -/
theorem storeBody_ok {fl : FormM} {o o2 o3 : State} {sid : Nat} {u : Strand} {ps : List Part} (hs : o.sid = sid)
    (hu : o.strand? sid = some u) (hr : Reaches fl .store o u (effAddr u fl (sizeLog fl.ty)) (Ty.bytes fl.ty) ps o2)
    (hm : Unmarked u [fl.a, fl.b]) (hready : storeReady u = .ok ()) (hch : u.checker ≠ some 2)
    (hrel : relReady o2 u fl.ord fl.scope = .ok o3) : storeBody fl o = .ok (stored fl o3 sid u ps) := by
  obtain ⟨hp, hport, hno⟩ := hr
  have h3 : o3.sid = sid := ((relReady_sid hrel).trans (sid_congr (scalarParts_focus hp))).trans hs
  rw [storeBody, withFocus_eq hs hu]
  simp only [hp, hport, hno, noMarks_ok hm, hready, hrel, leaveTile_pass hch, h3, bind, Except.bind]
  rfl

/-! ### The halves of queued stores (09 R280, R281) -/

theorem unitPieces_focus (a : Agent) (acc : Acc) (fuel : Nat) (s : State) (va len : Nat) (ps : List Part) :
    (unitPieces s a acc fuel va len ps).2.focus = s.focus := by
  induction fuel generalizing s va len ps with
  | zero => rfl
  | succ fuel ih =>
    have hl := locate_focus s a va (Nat.min len (chunkEnd va - va)) acc
    simp only [unitPieces]
    split
    · rfl
    · split
      next h => rw [h] at hl; exact (ih _ _ _ _).trans hl
      next h => rw [h] at hl; exact hl
      next h => rw [h] at hl; exact hl

/-- Finding the place of a flit in a collective buffer leaves the same strand at work. -/
theorem aperture_focus (s : State) (pasid : BitVec 20) (user : Bool) (off len : Nat) :
    (aperture s pasid user off len).2.focus = s.focus := by
  unfold aperture
  split
  · rfl
  · split
    · rfl
    · next c _ =>
      simp only []
      split
      · rfl
      · split
        · rfl
        · have hu := unitPieces_focus (unitAgent pasid user) (if c.op = 1 then .store else .atomic) (len / 0x10000 + 3) s
            (c.base + off % 2 ^ 30) len []
          rw [← unitAccess] at hu
          split
          all_goals
            next h => rw [h] at hu; exact hu

/-- The check of an access to a collective buffer leaves the same strand at work. -/
theorem checkAperture_focus {s s' : State} {pasid : BitVec 20} {user : Bool} {ps : List Part}
    (h : checkAperture s pasid user ps = .ok s') : s'.focus = s.focus := by
  induction ps generalizing s with
  | nil => cases h; rfl
  | cons p ps ih =>
    rw [checkAperture] at h
    split at h
    · split at h
      · cases h
      · split at h
        · exact ih h
        · have ha := aperture_focus s pasid user (p.loc % 2 ^ 40) p.len
          split at h
          next he => rw [he] at ha; exact (ih h).trans ha
          next => cases h
    · exact ih h

/-- Settles O22: the checks of each pass, and its body writes the bytes or appends its half. -/
theorem storesComplete : Obligations.StoresComplete := by
  intro fl s o o2 o3 f r t u ps
  dsimp only
  refine ⟨fun hf hr hm hready hch hrel => ?_, fun hf hr hm hq hroom => ?_, fun hf hn hps hm hq hroom => ?_,
    fun hf hr ha hm hq hroom => ?_, fun c hf hc hq hroom => ?_, fun c hf hc hq hroom => ?_⟩
  · have hbody := storeBody_ok hf.sid hf.strand hr hm hready hch hrel
    refine ⟨fun hdev => hf.ok rfl ?_ (rfl : _ = execSt fl s), fun hdev => hf.ok rfl ?_ (rfl : _ = execSt fl s)⟩
    · rw [hbody, stored, hdev, if_neg Bool.false_ne_true]
    · rw [hbody, stored, hdev, if_pos rfl]
  · obtain ⟨hp, -, hno⟩ := hr
    have hs : o2.sid = f.sid := (sid_congr (scalarParts_focus hp)).trans hf.sid
    refine hf.ok rfl ?_ (rfl : _ = execSta fl s)
    rw [withFocus_eq hf.sid hf.strand]
    simp only [hp, hno, noMarks_ok hm, saqRoom_ok hq hroom, pushSaq, hs, bind, Except.bind]
  · subst hps
    refine hf.ok rfl ?_ (rfl : _ = execVsta fl s)
    rw [withFocus_eq hf.sid hf.strand]
    simp only [if_pos hn, noMarks_ok hm, saqRoom_ok hq hroom, pushSaq, hf.sid, bind, Except.bind]
  · obtain ⟨hn, hb, hal, hp, hno⟩ := hr
    replace hp : accessParts o (agentOf o f.sid u) .store (effAddr u fl 9) (vecLen u fl) true = .ok (ps, o2) := hp
    have hs : o3.sid = f.sid := (sid_congr ((checkAperture_focus ha).trans (accessParts_focus hp))).trans hf.sid
    refine hf.ok rfl ?_ (rfl : _ = execVsta fl s)
    rw [withFocus_eq hf.sid hf.strand]
    simp only [if_neg hn, hf.sid, hb, hal, hp, ha, hno, noMarks_ok hm, saqRoom_ok hq hroom, pushSaq, hs, bind,
      Except.bind]
  · refine hf.ok rfl ?_ (rfl : _ = execStd fl s)
    rw [withFocus_eq hf.sid hf.strand]
    simp only [sdqRoom_ok hq hroom, hc, pushSdq, hf.sid, bind, Except.bind]
  · refine ⟨fun hany hmark => hf.ok rfl ?_ (rfl : _ = execVstd fl s),
      fun hany => hf.ok rfl ?_ (rfl : _ = execVstd fl s)⟩
    all_goals rw [withFocus_eq hf.sid hf.strand]
    · simp only [sdqRoom_ok hq hroom, hc, hany, hmark, pushSdq, hf.sid, bind, Except.bind, if_true]
    · simp only [sdqRoom_ok hq hroom, hc, hany, pushSdq, hf.sid, bind, Except.bind, Bool.false_eq_true, if_false]

end Sys2Proof.Machine
end

section
namespace Sys2Proof.Machine

open Decode

/-! ### Engine commands (11 R296 to R300, R309, R317; 12 R324) -/

/-- Each command is one call of the meaning that all share, with its own queues and checks. -/
theorem exec_engineRow : ∀ q ∈ engineRows, ∀ (fl : FormE) (s : State),
    exec (q.1 fl) s = issue (q.1 fl) .normal anyLevel (engineBody (q.2 fl) fl) s := by
  simp only [engineRows, List.forall_mem_cons, List.not_mem_nil, false_imp_iff, implies_true, and_true]
  and_intros <;> exact fun _ _ => rfl

theorem need_ok {b : Bool} (h : b = true) (e : Halt) : need b e = .ok () := if_pos h

theorem refuse_none {l : List Refuse} (h : firstRefuse l = none) : refuse l = .ok () := by
  rw [refuse, h]

theorem refuse_some {l : List Refuse} {sub val : Nat} (h : firstRefuse l = some (sub, val)) :
    refuse l = .error (.trap 0x0E (BitVec.ofNat 8 sub) (BitVec.ofNat 56 val)) := by
  have hv : (BitVec.ofNat 64 val).setWidth 56 = BitVec.ofNat 56 val := BitVec.setWidth_ofNat_of_le (by decide) val
  simp only [refuse, h, engineTrap, hv]

/-- The format word a command claims (12 R334). -/
def claimed (sp : EngSpec) (u : Strand) : Word := if sp.claims then u.fq.headD 0 else 0

/-- A command's parameters, in the order of its fields (12 R322). -/
def paramsOf (sp : EngSpec) (fl : FormE) (u : Strand) : List Word := (paramRegs fl sp.na sp.nb sp.nc).map u.xa

/-- The first of a command's checks that fails (12 R324). -/
def firstFailed (sp : EngSpec) (fl : FormE) (o : State) (sid : Nat) (u : Strand) (k : Task) : Option Refuse :=
  firstRefuse (sp.check o (tileOf sid) k (claimed sp u) (paramsOf sp fl u))

/-- A command comes to its checks: its parameters carry no mark, and a format word is there when it claims one. -/
structure ToChecks (sp : EngSpec) (fl : FormE) (o : State) (sid : Nat) (u : Strand) (k : Task) : Prop where
  focus : o.sid = sid
  strand : o.strand? sid = some u
  task : o.task? (tileOf sid) = some k
  marks : Unmarked u (paramRegs fl sp.na sp.nb sp.nc)
  format : sp.claims = true → u.fq ≠ []

/-- The checks of a command pass, its fork edge is met (08 R265), its queues have room, and no checker has found a
mismatch (17 R436). -/
structure Passes (sp : EngSpec) (fl : FormE) (o : State) (sid : Nat) (u : Strand) (k : Task) : Prop where
  checks : firstFailed sp fl o sid u k = none
  fork : forkReady u = .ok ()
  checker : u.checker = none
  ce : sp.ce = true → k.ceq.length < 16
  me : sp.me = true → k.meq.length < 16

/-- A command in its queues, on the task `k` as its slot `n` leaves it, and the strand with `id` in D. -/
def joined (sp : EngSpec) (fl : FormE) (o : State) (sid : Nat) (u : Strand) (k : Task) (n : Nat) (id : Option Word) : State :=
  (o.updTask (tileOf sid) fun _ => k.enqueue sp (newCmd sp fl u sid k.order n (claimed sp u) (paramsOf sp fl u))).updStrand sid
    (·.issued sp fl true id)

section
variable {sp : EngSpec} {fl : FormE} {o : State} {sid : Nat} {u : Strand} {k : Task}

/-- The test for a format word passes when one is there to claim. -/
theorem claim_passes {α : Type} (h : sp.claims = true → u.fq ≠ []) (e : Halt) (x : Res α) :
    (if sp.claims = true then (do need (!u.fq.isEmpty) e; x) else x) = x := by
  split
  next hc =>
    rw [need_ok (by simpa using h hc)]
    rfl
  next => rfl

theorem Passes.room (h : Passes sp fl o sid u k) :
    ((!sp.ce || decide (k.ceq.length < 16)) && (!sp.me || decide (k.meq.length < 16))) = true := by
  have hused : ∀ {b : Bool} {n : Nat}, (b = true → n < 16) → (!b || decide (n < 16)) = true := fun {b n} hn => by
    cases b with
    | false => rfl
    | true => exact decide_eq_true (hn rfl)
  rw [hused h.ce, hused h.me, Bool.and_self]

/-- A command with a failed check is cause ENGINE with the subcode and value of the first (11 R309). -/
theorem engineBody_refused {sub val : Nat} (h : ToChecks sp fl o sid u k)
    (hf : firstFailed sp fl o sid u k = some (sub, val)) :
    engineBody sp fl o = .error (.trap 0x0E (BitVec.ofNat 8 sub) (BitVec.ofNat 56 val)) := by
  obtain ⟨hs, hu, hk, hm, hq⟩ := h
  rw [firstFailed, claimed, paramsOf] at hf
  rw [engineBody, withFocus_eq hs hu]
  simp only [hs, noMarks_ok hm, claim_passes hq, hk, refuse_some hf]
  rfl

/-- A command that passes joins its queues: without a slot when it is quiet, else with the free slot pending (11 R300). -/
theorem engineBody_joins (h : ToChecks sp fl o sid u k) (hp : Passes sp fl o sid u k) :
    (fl.quiet = true → engineBody sp fl o = .ok (joined sp fl o sid u k 0 none)) ∧
      ∀ n, fl.quiet = false → k.freeSlot = some n →
        let k' := k.takeSlot n (numberOf sid) (slotUnitOf sp) u.issue
        engineBody sp fl o = .ok (joined sp fl o sid u k' n (some (k'.slotId n))) := by
  have hroom := hp.room
  obtain ⟨hf, hfork, hch, -, -⟩ := hp
  obtain ⟨hs, hu, hk, hm, hq⟩ := h
  rw [firstFailed, claimed, paramsOf] at hf
  have hpass : verdict o sid u = .pass := by rw [verdict, hch]
  refine ⟨fun hqu => ?_, fun n hqu hn => ?_⟩
  all_goals
    rw [engineBody, withFocus_eq hs hu]
    simp only [hs, noMarks_ok hm, claim_passes hq, hk, refuse_none hf, hfork, need_ok hroom, hpass, hqu, if_true,
      Bool.false_eq_true, if_false]
  · rfl
  · simp only [hn]
    rfl

end

/-- A cause other than DATA at a word that stands alone is taken there, whatever record the headstock gets of it. -/
theorem deliver_taken {s : State} {f : Focus} {t : Strand} (ha : Alone t f) (sl : Slice) (i : Instr) {c : BitVec 8}
    (sub : BitVec 8) (v : BitVec 56) (hc : c ≠ 0x07) :
    ∃ s1, deliver s f.sid t f.place sl i c sub v = takeTrap s1 f.sid (uncount t t.seq) t.pc c sub v := by
  obtain ⟨hp, hw, hd⟩ := ha
  have hpc : (uncount t t.seq).pc = t.pc := (uncount_loops t t.seq).2
  simp only [deliver, hp, seqOf, hd, hw, List.isEmpty_nil, Bool.not_true, Bool.and_false, Bool.or_false,
    Bool.false_eq_true, if_false, hc, false_and, false_or, id_eq, hpc]
  exact ⟨_, rfl⟩

/-- A word that issues and whose body meets a cause other than DATA takes it, alone (01 R30). -/
theorem issue_taken {i : Instr} {o : Order} {s : State} {f : Focus} {r : Raw} {t : Strand}
    {priv : State → Strand → Option Halt} {body : Body} {c sub : BitVec 8} {v : BitVec 56} (h : Issues s i o f r t)
    (hp : priv s (settle s.cycle t) = none) (hb : body (openedState s f r t) = .error (.trap c sub v))
    (ha : Alone (opened s f r t) f) (hc : c ≠ 0x07) (hi : t.inh = false) (hx : t.xvec ≠ 0) :
    ∃ s' t', issue i o priv body s = .next s' ∧ s'.strand? f.sid = some t' ∧ TookTrap t t' t.pc c sub v := by
  obtain ⟨hl, hpc⟩ := opened_loops s f r t
  obtain ⟨s1, hd⟩ := deliver_taken (s := s) ha (sliceOf r) i sub v hc
  obtain ⟨ht, htook⟩ := takeTrap_took (s := s1) (sid := f.sid) (q := uncount (opened s f r t) (opened s f r t).seq)
    ((uncount_bare _ _).trans (opened_bare s f r t)) ((uncount_loops _ _).1.trans hl) hi hx t.pc c sub v
  exact ⟨_, _, by rw [issue_trap h hp hb, hd, hpc, ht], strand?_setStrand _ _ _, htook⟩

/-- Settles O37: a command whose checks pass joins its queues, and any other takes its first failed check as a cause. -/
theorem commandsIssue : Obligations.CommandsIssue := by
  intro q hq fl s o f r t u k
  dsimp only
  intro hf hk hm hfmt
  have hto : ToChecks (q.2 fl) fl o f.sid u k := ⟨hf.sid, hf.strand, hk, hm, hfmt⟩
  have he := exec_engineRow q hq fl s
  refine ⟨fun hfound hfork hch hce hme => ?_, fun sub val hfound hi hx ha => ?_⟩
  · obtain ⟨hquiet, hslot⟩ := engineBody_joins hto ⟨hfound, hfork, hch, hce, hme⟩
    exact ⟨fun hqu => hf.ok rfl (hquiet hqu) he, fun n hqu hn => hf.ok rfl (hslot n hqu hn) he⟩
  · have hb := engineBody_refused hto hfound
    obtain ⟨hiss, rfl, rfl⟩ := hf
    rw [he]
    exact issue_taken hiss rfl hb ha (by decide) hi hx

end Sys2Proof.Machine
end

section
namespace Sys2Proof.Machine

open Decode

/-! ### Semaphores (11 R313 to R315; 12 R343) -/

theorem writeBackLine_clusters (s : State) (t k : Nat) : (s.writeBackLine t k).clusters = s.clusters := by
  unfold State.writeBackLine
  split <;> rfl

/-- The L1 step of a release leaves every semaphore. -/
theorem sem_releaseL1 (s : State) (t : Nat) (sc : Scope) (c k : Nat) : (s.releaseL1 t sc).sem c k = s.sem c k := by
  have h : (s.releaseL1 t sc).clusters = s.clusters := by
    unfold State.releaseL1
    split
    · exact foldl_inv State.clusters _ (fun s k => writeBackLine_clusters s t k) _ s
    · rfl
  simp only [State.sem, State.cluster, h]

/-- With nobody waiting, a count is kept as it is. -/
theorem grant_nil (v : BitVec 32) : Sem.grant { v, waiters := [] } = { v, waiters := [] } := rfl

/-- A strand that asks alone for no more than the count is granted at once. -/
theorem grant_alone {sid : Nat} {n v : BitVec 32} (h : n ≤ v) :
    Sem.grant { v, waiters := [{ sid, n, granted := false }] } =
      { v := v - n, waiters := [{ sid, n, granted := true }] } := by
  simp only [Sem.grant, grantWaiters, if_pos h, Bool.false_eq_true, if_false]

theorem sem_semAdd {s : State} {c k : Nat} (h : (s.sem c k).waiters = []) (n : BitVec 32) :
    ((s.semAdd c k n).sem c k).v = satAdd (s.sem c k).v n := by
  rw [State.semAdd, sem_setSem, h, grant_nil]

theorem sem_semSet {s : State} {c k : Nat} (h : (s.sem c k).waiters = []) (n : BitVec 32) :
    ((s.semSet c k n).sem c k).v = n := by
  rw [State.semSet, sem_setSem, h, grant_nil]

theorem semChecks_ok {u : Strand} {ds : List Desig} {name : Word} (hm : Unmarked u ds) (hn : semOk name = true) :
    semChecks u ds name = .ok () := by
  simp only [semChecks, noMarks_ok hm, hn, need, if_true, bind, Except.bind]

theorem semRelease_ok {o : State} {sid : Nat} {u : Strand} (hs : o.sid = sid) (ha : acquiring u = false)
    (hr : releaseReady o (unitOf sid) u .dev = .ok ()) :
    semRelease o u = .ok (o.releaseL1 (unitOf sid) .dev) := by
  simp only [semRelease, ha, hs, hr, Bool.false_eq_true, if_false, bind, Except.bind]

theorem updStrand_eq {o : State} {sid : Nat} {u : Strand} (h : o.strand? sid = some u) (g : Strand → Strand) :
    o.updStrand sid g = o.setStrand sid (g u) := by
  have h' : o.strands.get? sid = some u := h
  simp only [State.updStrand, State.setStrand, FMap.update, h']

/-- Settles O39: the checks of each pass; a wait that is granted now or has been is no longer among the waiters. -/
theorem semaphoresComplete : Obligations.SemaphoresComplete := by
  intro fl s o f r t u
  dsimp only
  intro hn hm ha
  have hchecks := semChecks_ok hm hn
  have hbody : ∀ {i ord} (g : State → Strand → Res State), Finds i ord s f r t o u → withFocus g o = g o u :=
    fun g hf => withFocus_eq hf.sid hf.strand
  refine ⟨fun hr => ⟨fun hf => ⟨hf.ok rfl ?_ (rfl : _ = execSemsig fl s), fun hw => ?_⟩,
      fun hf => ⟨hf.ok rfl ?_ (rfl : _ = execSemset fl s), fun hw => ?_⟩⟩,
    fun hf => hf.ok rfl ?_ (rfl : _ = execSemrd fl s), fun hf hfence hz => hf.ok rfl ?_ (rfl : _ = execSemwait fl s),
    fun hf hfence hz hw hle => hf.ok rfl ?_ (rfl : _ = execSemwait fl s),
    fun hf hfence hz hg => hf.ok rfl ?_ (rfl : _ = execSemwait fl s)⟩
  · rw [hbody _ hf]
    simp only [hchecks, semRelease_ok hf.sid ha hr, bind, Except.bind]
  · rw [sem_semAdd ((congrArg Sem.waiters (sem_releaseL1 _ _ _ _ _)).trans hw), sem_releaseL1, satAdd]
  · rw [hbody _ hf]
    simp only [hchecks, semRelease_ok hf.sid ha hr, bind, Except.bind]
  · rw [sem_semSet ((congrArg Sem.waiters (sem_releaseL1 _ _ _ _ _)).trans hw)]
  · have hname := semChecks_ok (ds := [fl.a]) (List.forall_mem_singleton.mpr (hm fl.a List.mem_cons_self)) hn
    rw [hbody _ hf]
    simp only [hname, ha, hf.sid, Bool.false_eq_true, if_false, bind, Except.bind, updStrand_eq hf.strand]
  · rw [hbody _ hf]
    simp only [hchecks, ha, hf.sid, hz, hfence, need, Bool.false_eq_true, if_false, if_true, bind, Except.bind]
  · rw [hbody _ hf]
    simp only [hchecks, ha, hf.sid, hz, hfence, hw, Bool.false_eq_true, if_false, bind, Except.bind]
    simp [grant_alone hle]
  · have hmine : ((o.sem (semCluster (u.xa fl.a)) (semIndex (u.xa fl.a))).waiters.any (·.sid == f.sid)) = true := by
      obtain ⟨w, hw, hs⟩ := List.any_eq_true.mp hg
      exact List.any_eq_true.mpr ⟨w, hw, (Bool.and_eq_true_iff.mp hs).1⟩
    rw [hbody _ hf]
    simp only [hchecks, ha, hf.sid, hz, hfence, hmine, hg, Bool.false_eq_true, if_false, if_true, Bool.and_self, bind,
      Except.bind]

end Sys2Proof.Machine
end

section
namespace Sys2Proof.Machine

/-! ### The engines' side of the execute slice (11 R301, R316; 12 R334, R341, R342, R344) -/

/-- A vector operand that is read while the queues are frozen pops none. -/
theorem readVector_frozen {u : Strand} {d : Desig} {a : Read VReg} (hq : u.qf = true) (h : readVector u d = .ok a) :
    a.rest = u := by
  cases d with
  | lq => exact absurd ((popLq_frozen hq).symm.trans h) nofun
  | v n =>
    cases h
    rfl
  | _ =>
    cases h
    rfl

/-- A scalar operand that is read without a mark does not hold its instruction while the queues are frozen (01 R33);
`t` is the strand after the operands before it. -/
theorem frozenMarks_scalar {u t : Strand} {d : Desig} {w : Read Word} (ht : u.qf = true → t = u)
    (h : readScalar t d = .ok w) (hm : w.mark = none) (on : Bool) : frozenMarks u on [d] = .ok () := by
  unfold frozenMarks
  split
  next hq =>
    have hqf : u.qf = true := (Bool.and_eq_true_iff.mp hq).1
    rw [ht hqf] at h
    exact noMarks_ok (List.forall_mem_singleton.mpr ((readScalar_frozen hqf h).1.symm.trans hm))
  next => rfl

/-- An observation reports completion of a slot with another generation, or that is no longer pending (11 R301). -/
theorem resolved_iff (q : Slot) (gen : BitVec 8) : resolved q gen = true ↔ q.gen ≠ gen ∨ q.state ≠ .pending := by
  rw [resolved, Bool.or_eq_true, bne_iff_ne, bne_iff_ne, ne_comm]

/-- Which commands of the copy engine stay kept when a strand begins a turn: its own of two turns ago do not (11 R317). -/
def Task.keepRecent (k : Task) (number : Nat) (now : BitVec 32) : Task :=
  { k with kept := k.kept.filter fun c => c.issuer != number || c.turn == now || c.turn == now - 1 }

/-- The strand in its new turn. -/
def Strand.beginTurn (t : Strand) (fifo : Vector Nat 6) : Strand :=
  { t with turn := t.turn + 1, turnPc := t.pc + 16, snap := some (t.snapshot fifo), rolled := false, seqlog := [],
           seqFull := false, replaying := false, seqNext := 0 }

/-- What TURN makes of the state it finds (11 R316). -/
theorem Finds.turn_completes {fl : FormE} {s o : State} {f : Focus} {r : Decode.Raw} {t u : Strand} {k : Task}
    (hf : Finds (.turn fl) .drain s f r t o u) (hk : o.task? (tileOf f.sid) = some k) (he : u.queuesEmpty = true) :
    Completes (.turn fl) s f r t ((o.updTask (tileOf f.sid) (·.keepRecent (numberOf f.sid) (u.turn + 1))).setStrand f.sid
      (u.beginTurn k.fifo)) := by
  refine hf.ok rfl ?_ (rfl : _ = execTurn fl s)
  have hu : ∀ g, (o.updTask (tileOf f.sid) g).strand? f.sid = some u := fun _ => hf.strand
  have hs : ∀ g, (o.updTask (tileOf f.sid) g).sid = f.sid := fun _ => hf.sid
  rw [withFocus_eq hf.sid hf.strand]
  simp only [he, need, hf.sid, hk, hs, updStrand_eq (hu _), if_true, bind, Except.bind]
  rfl

/-- Settles O38: the checks of each pass, and what is left of its body is the effect it states. -/
theorem engineSideCompletes : Obligations.EngineSideCompletes := by
  intro fl s o f r t u
  dsimp only
  have hbody : ∀ {i ord} (g : State → Strand → Res State), Finds i ord s f r t o u → withFocus g o = g o u :=
    fun g hf => withFocus_eq hf.sid hf.strand
  refine ⟨fun hf hm hok hroom => hf.ok rfl ?_ (rfl : _ = execMfmt fl s),
    fun k hf hg hk hp hpush => hf.ok rfl ?_ (rfl : _ = execTkgive fl s),
    fun hf hg => hf.ok rfl ?_ (rfl : _ = execTkgive fl s),
    fun k hf hg hk hpop => hf.ok rfl ?_ (rfl : _ = execTktake fl s),
    fun hf hg => hf.ok rfl ?_ (rfl : _ = execTktake fl s),
    fun k v w hf hk hg hv hw hvm hwm hacc hacq => hf.ok rfl ?_ (rfl : _ = execAccwr fl s),
    fun k w n hf hk hg hw hwm hacc hacq hd => hf.ok rfl ?_ (rfl : _ = execAccld fl s),
    fun hf hm hobs hres => hf.ok rfl ?_ (rfl : _ = execCwait fl s),
    fun hf hm hobs => ⟨fun hres => hf.ok rfl ?_ (rfl : _ = execCpoll fl s),
      fun hgen hpend => hf.ok rfl ?_ (rfl : _ = execCpoll fl s)⟩,
    fun k hf hk he => ⟨_, _, hf.turn_completes hk he, strand?_setStrand _ _ _, rfl, rfl, rfl, rfl, rfl, rfl, rfl, rfl⟩⟩
  · rw [hbody _ hf]
    simp only [noMarks_ok hm, need, hok, hroom, hf.sid, updStrand_eq hf.strand, if_true, decide_true, bind, Except.bind]
  · rw [hbody _ hf]
    simp only [hg, hf.sid, hk, hp, hpush, need, if_true, bind, Except.bind]
  · rw [hbody _ hf]
    simp only [hg, Bool.false_eq_true, if_false]
  · rw [hbody _ hf]
    simp only [hg, hf.sid, hk, hpop, need, if_true, bind, Except.bind]
  · rw [hbody _ hf]
    simp only [hg, Bool.false_eq_true, if_false]
  · have hfrozen := frozenMarks_scalar (fun hq => readVector_frozen hq hv) hw hwm true
    have hmarks : noMark [v.mark, w.mark] = .ok () := by rw [hvm, hwm]; rfl
    have hnum : (o.setStrand f.sid w.rest).number u = o.number u := rfl
    rw [hbody _ hf]
    simp only [hg, hfrozen, hv, hw, hf.sid, task?_setStrand, hk, hmarks, hacc, hnum, hacq, need, Bool.not_false,
      if_true, bind, Except.bind]
  · have hfrozen := frozenMarks_scalar (fun _ => rfl) hw hwm true
    have hmark : noMark [w.mark] = .ok () := by rw [hwm]; rfl
    have hnum : (o.setStrand f.sid w.rest).number u = o.number u := rfl
    have hsid : (o.setStrand f.sid w.rest).sid = f.sid := hf.sid
    rw [hbody _ hf]
    simp only [hg, hfrozen, hw, hf.sid, hsid, task?_setStrand, hk, hmark, hacc, hnum, hacq, hd, need, Bool.not_false,
      if_true, bind, Except.bind, updStrand_eq (strand?_setStrand _ _ _), setStrand_setStrand]
  · rw [hbody _ hf]
    simp only [noMarks_ok hm, hf.sid, hobs, (resolved_iff _ _).mpr hres, need, if_true, bind, Except.bind]
  · rw [hbody _ hf]
    simp only [noMarks_ok hm, hf.sid, hobs, updStrand_eq hf.strand, (resolved_iff _ _).mpr hres, flagWord, if_true, bind,
      Except.bind]
  · have hpending : resolved (slotOf o f.sid (u.xa fl.a)) (idGen (u.xa fl.a)) = false := by
      rw [← Bool.not_eq_true, resolved_iff]
      exact fun h => h.elim (· hgen) (· hpend)
    rw [hbody _ hf]
    simp only [noMarks_ok hm, hf.sid, hobs, updStrand_eq hf.strand, hpending, flagWord, Bool.false_eq_true, if_false,
      bind, Except.bind]

end Sys2Proof.Machine
end

section
namespace Sys2Proof.Machine

/-! ### One unit of the copy engine (12 R328 to R332) -/

/-- What a unit done makes of its command. -/
def Cmd.after (c : Cmd) (u : UnitDone) : Cmd :=
  { (c.note u.err) with index := u.next, spills := u.spills, waiting := .none }

theorem Cmd.note_none (c : Cmd) : c.note none = c := by
  cases h : c.error <;> simp only [Cmd.note, h] <;> rw [← h]

/-- A command that waits for nothing waits for nothing after its unit. -/
theorem Cmd.after_eq {c : Cmd} (hw : c.waiting = .none) (u : UnitDone) :
    c.after u = { (c.note u.err) with index := u.next, spills := u.spills } := by
  simp only [Cmd.after, Cmd.note, ← hw]

theorem Cmd.after_plainUnit {c : Cmd} (hw : c.waiting = .none) (n : Nat) (s : State) :
    c.after (plainUnit c n s) = { c with index := n } := by
  simp only [Cmd.after_eq hw, plainUnit, Cmd.note_none]

theorem Cmd.advance_ok {c : Cmd} (hw : c.waiting = .none) (s : State) (u : UnitDone) :
    c.advance s (.ok u) = (u.s, c.after u) := by
  simp only [Cmd.advance, hw, unitOutcome, Cmd.after]

section
variable {s : State} {tile : Nat} {k : Task} {c : Cmd} {rest : List Cmd}

/-- A copy command whose unit is done goes on from its next index. -/
theorem ceMove_unit (hk : s.task? tile = some k) (hq : k.ceq = c :: rest) (hm : canMove s tile k .ce c = true)
    (hw : c.waiting = .none) {u : UnitDone} (hu : copyUnit (engCtx s tile .ce c) c s = .ok u) :
    runTurn s (.ceMove tile) = .next (u.s.updTask tile fun k => { k with ceq := c.after u :: k.ceq.drop 1 }) := by
  simp only [runTurn, State.moveCe, hk, hq, hm, hu, Cmd.advance_ok hw, if_true]

end

section
variable {x : EngCtx} {c : Cmd} {s s' : State}

/-- A copy, by the two accesses it consists of. -/
theorem copy_of_carries {fl : Bool} {src dst n : Nat} (h : Carries x fl src dst n s s') {α : Type} (g : State → Eng α) :
    (do let d ← readAt x s src n
        let w ← reach x d.2 .store fl dst n
        g (engWrite x w.1 d.1 w.2)) = g s' := by
  obtain ⟨ps, qs, s1, s2, hr, hw, rfl⟩ := h
  simp only [readAt, hr, hw, bind, Except.bind]

/-- A write of given bytes, by its one access. -/
theorem write_of_puts {dst n : Nat} {bs : List PByte} (hn : bs.length = n) (h : Puts x dst bs s s') {α : Type}
    (g : State → Eng α) : (do let w ← reach x s .store false dst n; g (engWrite x w.1 bs w.2)) = g s' := by
  obtain ⟨qs, s1, hw, rfl⟩ := h
  rw [hn] at hw
  simp only [hw, bind, Except.bind]

/-- CP, and the copy of CPMM (12 R328). -/
theorem unitCp_ok {stop : Nat} (hs : stop = if wordly (par c.params 0 + 3 * par c.params 1)
      then segmentEnd (parLo c.params 2) (par c.params 0) c.index else parLo c.params 2)
    (h : Carries x true (par c.params 1 + c.index) (par c.params 0 + c.index) (stop - c.index) s s') :
    unitCp x c s = .ok (plainUnit c stop s') := by
  subst hs
  exact copy_of_carries h fun s => .ok (plainUnit c _ s)

theorem copyRow_ok {r : Nat} (h : Carries x true (rowAt (par c.params 2) (signedPar c.params 3) r)
      (rowAt (par c.params 0) (signedPar c.params 1) r) (parLo c.params 4) s s') : copyRow x c r s = .ok s' :=
  copy_of_carries h .ok

theorem copyElement_ok {k : Nat} (h : Element x c k s s') : copyElement x c k s = .ok s' := by
  obtain ⟨j, s1, hj, hclean, hin, hc⟩ := h
  have hany : j.any (·.2) = false := List.any_eq_false.mpr fun b hb => by rw [hclean b hb]; exact Bool.false_ne_true
  by_cases hg : c.opc = 0x202
  · simp only [hg, if_true] at hin hc
    simp only [copyElement, hj, hany, hg, hin, beq_self_eq_true, Bool.not_true, Bool.false_eq_true, if_true, if_false,
      bind, Except.bind]
    exact copy_of_carries hc .ok
  · simp only [hg, if_false] at hin hc
    simp only [copyElement, hj, hany, beq_eq_false_iff_ne.mpr hg, hin, Bool.not_false, Bool.false_eq_true, if_true,
      if_false, bind, Except.bind]
    exact copy_of_carries hc .ok

/-- Items that are copies, one after the other. -/
theorem foldlM_ok_of_carriesAll {item : Nat → State → Eng State} {row : Nat → Nat × Nat × Nat}
    (hitem : ∀ j s s', Carries x true (row j).1 (row j).2.1 (row j).2.2 s s' → item j s = .ok s') (l : List Nat)
    (h : CarriesAll x (l.map row) s s') : l.foldlM (fun s j => item j s) s = .ok s' := by
  induction l generalizing s with
  | nil => rw [show s' = s from h]; rfl
  | cons j l ih =>
    obtain ⟨m, hm, h⟩ := h
    rw [List.foldlM_cons, hitem j _ _ hm]
    exact ih h

theorem foldlM_ok_of_elements (i : Nat) (l : List Nat) (h : Elements x c (l.map (i + ·)) s s') :
    l.foldlM (fun s j => copyElement x c (i + j) s) s = .ok s' := by
  induction l generalizing s with
  | nil => rw [show s' = s from h]; rfl
  | cons j l ih =>
    obtain ⟨m, hm, h⟩ := h
    rw [List.foldlM_cons, copyElement_ok hm]
    exact ih h

/-- Items in order, alone or all that are left. -/
theorem unitItems_ok {alone : Bool} {p : Prop} [Decidable p] {count stop : Nat} {item : Nat → State → Eng State}
    (ha : alone = true ↔ p) (hs : stop = if p then c.index + 1 else count)
    (h : (List.range (stop - c.index)).foldlM (fun s j => item (c.index + j) s) s = .ok s') :
    unitItems c alone count item s = .ok (plainUnit c stop s') := by
  subst hs
  simp only [unitItems, ha, h, waitWhole]

/-- CP2D: rows (12 R329). -/
theorem unitRow_ok {stop : Nat} (hs : stop = if ∀ j < 4, par c.params j % 4 = 0 then c.index + 1 else parHi c.params 4)
    (h : CarriesAll x ((List.range (stop - c.index)).map fun j =>
      (rowAt (par c.params 2) (signedPar c.params 3) (c.index + j),
        rowAt (par c.params 0) (signedPar c.params 1) (c.index + j), parLo c.params 4)) s s') :
    unitRow x c s = .ok (plainUnit c stop s') := by
  refine unitItems_ok ?_ hs (foldlM_ok_of_carriesAll (fun _ _ _ => copyRow_ok) _ h)
  simp only [List.all_eq_true, List.mem_range, wordly, beq_iff_eq]

/-- CPG and CPS: elements (12 R330). -/
theorem unitElement_ok {stop : Nat} (hs : stop = if 2 ≤ c.aux.toNat ∧ par c.params 0 % 4 = 0 ∧ par c.params 1 % 4 = 0
      then c.index + 1 else parLo c.params 3)
    (h : Elements x c ((List.range (stop - c.index)).map (c.index + ·)) s s') :
    unitElement x c s = .ok (plainUnit c stop s') := by
  refine unitItems_ok ?_ hs (foldlM_ok_of_elements _ _ h)
  simp only [Bool.and_eq_true, decide_eq_true_eq, wordly, beq_iff_eq, and_assoc]

/-- CPFILL: a segment of its pattern (12 R328). -/
theorem unitFill_ok {stop : Nat} (hs : stop = segmentEnd (parLo c.params 2) (par c.params 0) c.index)
    (h : Puts x (par c.params 0 + c.index) ((List.range (stop - c.index)).map fun k =>
      ((leBytes 8 (par c.params 1)).getD ((c.index + k) % 2 ^ c.aux.toNat) 0, false)) s s') :
    unitFill x c s = .ok (plainUnit c stop s') := by
  subst hs
  exact write_of_puts (by simp) h fun s => .ok (plainUnit c _ s)

/-! CPX (07 R243) -/

/-- What the slot of a block holds, by the command's element and slot sizes. -/
abbrev kerfOf (c : Cmd) (b : List PByte) : KerfBlock := kerfRead (c.aux.toNat / 4) (c.aux.toNat % 4) (b.map (·.1))

/-- ENGINE KERF at the block a command is at. -/
abbrev malformedAt (c : Cmd) : Option (BitVec 8 × Word) :=
  some (0x12, BitVec.ofNat 64 (par c.params 1 + c.index * kerfD c.aux))

/-- A byte of the first `n` of a block is poisoned. -/
def headPoisoned (n : Nat) (b : List PByte) : Bool := (b.take n).any (·.2)

/-- What a unit leaves that has expanded a block, with an error it found there. -/
def expandedUnit (c : Cmd) (err : Option (BitVec 8 × Word)) (s : State) : UnitDone :=
  { s, next := c.index + 1, err, spills := c.spills }

section
variable {b : List PByte} {s1 : State}
  (hb : readAt x s (par c.params 1 + c.index * kerfD c.aux) (kerfD c.aux) = .ok (b, s1))
include hb

theorem unitExpand_coded {len : Nat} {bytes : List Byte} (hk : kerfOf c b = .coded len bytes)
    (hl : bytes.length = 4096)
    (hp : Puts x (par c.params 0 + c.index * 4096) (bytes.map fun q => (q, headPoisoned (32 + len) b)) s1 s') :
    unitExpand x c s = .ok (plainUnit c (c.index + 1) s') := by
  simp only [unitExpand, hb, hk, bind, Except.bind]
  exact write_of_puts (by simpa using hl) hp fun s => .ok (plainUnit c _ s)

/-- A malformed block, or one that names no storage for its raw copy, expands to zeros. -/
theorem unitExpand_zeros
    (hk : kerfOf c b = .malformed ∨ ∃ a, kerfOf c b = .spilled a ∧ spillOk s1 x.tile a = false)
    (hp : Puts x (par c.params 0 + c.index * 4096) (List.replicate 4096 (0, headPoisoned 32 b)) s1 s') :
    unitExpand x c s = .ok (expandedUnit c (malformedAt c) s') := by
  have hput := write_of_puts (List.length_replicate ..) hp fun s => .ok (expandedUnit c (malformedAt c) s)
  rcases hk with hk | ⟨a, hk, hno⟩
  · simp only [unitExpand, hb, hk, bind, Except.bind]
    exact hput
  · simp only [unitExpand, hb, hk, hno, bind, Except.bind, Bool.false_eq_true, if_false]
    exact hput

theorem unitExpand_spilled {a : Nat} {raw : List PByte} {s2 : State} (hk : kerfOf c b = .spilled a)
    (hok : spillOk s1 x.tile a = true) (hr : readAt x s1 a 4096 = .ok (raw, s2)) (hl : raw.length = 4096)
    (hp : Puts x (par c.params 0 + c.index * 4096) (raw.map fun q => (q.1, q.2 || headPoisoned 32 b)) s2 s') :
    unitExpand x c s = .ok (plainUnit c (c.index + 1) s') := by
  simp only [unitExpand, hb, hk, hok, hr, bind, Except.bind, if_true]
  exact write_of_puts (by simpa using hl) hp fun s => .ok (plainUnit c _ s)

end

/-! CPZ (07 R242) -/

/-- The code of a block's source, when it fits. -/
abbrev codeOf (c : Cmd) (src : List PByte) : Option (List Byte) :=
  kerfWrite (c.aux.toNat / 4) (c.aux.toNat % 4) (src.map (·.1))

/-- Slot `n` of the spill buffer. -/
abbrev spillAt (c : Cmd) (n : Nat) : Nat := (par c.params 3 + 4096 * n) % 2 ^ 64

section
variable {src : List PByte} {s1 : State} (hs : readAt x s (par c.params 1 + c.index * 4096) 4096 = .ok (src, s1))
include hs

theorem unitCompress_coded {b : List Byte} (hclean : src.any (·.2) = false) (hk : codeOf c src = some b)
    (hl : b.length = kerfD c.aux)
    (hp : Puts x (par c.params 0 + c.index * kerfD c.aux) (b.map (·, false)) s1 s') :
    unitCompress x c s = .ok (plainUnit c (c.index + 1) s') := by
  simp only [unitCompress, hs, hclean, hk, bind, Except.bind, Bool.false_eq_true, if_false]
  exact write_of_puts (by simpa using hl) hp fun s => .ok (plainUnit c _ s)

/-- A block with a poisoned byte, or whose code does not fit, takes the next slot of the spill buffer. -/
theorem unitCompress_spills {n : Nat} {qs ws : List Part} {s2 s3 : State}
    (hno : src.any (·.2) = true ∨ codeOf c src = none) (hn : c.spills = some n)
    (hok : spillOk s1 x.tile (spillAt c n) = true)
    (hq : reach x s1 .store false (spillAt c n) 4096 = .ok (qs, s2))
    (hw : reach x s2 .store false (par c.params 0 + c.index * kerfD c.aux) (kerfD c.aux) = .ok (ws, s3)) :
    unitCompress x c s = .ok
      { s := engWrite x ws ((kerfSpill (c.aux.toNat / 4) (c.aux.toNat % 4) (spillAt c n)).map (·, false))
          (engWrite x qs src s3)
        next := c.index + 1, err := none, spills := some (n + 1) } := by
  have hcoded : (if src.any (·.2) = true then none else codeOf c src) = none := by
    rcases hno with h | h <;> simp [h]
  simp only [unitCompress, hs, hcoded, countSpills, hn, hok, hq, hw, bind, Except.bind, if_true]

end

/-- Bytes of the segment a CPCOMB is at. -/
abbrev combBytes (c : Cmd) : Nat := Nat.min (parLo c.params 2 - c.index * 2048) 2048

/-- CPCOMB: a segment's elements, in order (12 R332). -/
theorem unitComb_ok {qs ps : List Part} {s1 s2 : State}
    (hq : reach x s .atomic false (par c.params 0 + c.index * 2048) (combBytes c) = .ok (qs, s1))
    (hp : reach x s1 .load false (par c.params 1 + c.index * 2048) (combBytes c) = .ok (ps, s2)) :
    unitComb x c s = .ok (plainUnit c (c.index + 1)
      ((List.range (combBytes c / Ty.bytes c.ty)).foldl (fun s k => combElement x c.ty (c.aux == 1) qs ps k s) s2)) := by
  simp only [unitComb, hq, hp, bind, Except.bind]

/-- Which unit each copy command performs. -/
theorem copyUnit_cases (x : EngCtx) (c : Cmd) (s : State) :
    (c.opc = 0x200 ∨ c.opc = 0x206 → copyUnit x c s = unitCp x c s) ∧
    (c.opc = 0x201 → copyUnit x c s = unitRow x c s) ∧
    (c.opc = 0x202 ∨ c.opc = 0x203 → copyUnit x c s = unitElement x c s) ∧
    (c.opc = 0x207 → copyUnit x c s = unitFill x c s) ∧
    (c.opc = 0x204 → copyUnit x c s = unitExpand x c s) ∧
    (c.opc = 0x205 → copyUnit x c s = unitCompress x c s) ∧
    (c.opc = 0x208 → copyUnit x c s = unitComb x c s) := by
  refine ⟨?_, ?_, ?_, ?_, ?_, ?_, ?_⟩
  case refine_1 | refine_3 =>
    rintro (h | h) <;> rw [copyUnit, h] <;> rfl
  all_goals
    intro h
    rw [copyUnit, h]
    rfl

end

/-- The copy engine's units, each by the accesses it consists of. -/
theorem copyUnits_of_canMove {s : State} {tile : Nat} {k : Task} {c : Cmd} {rest : List Cmd} (hk : s.task? tile = some k)
    (hq : k.ceq = c :: rest) (hm : canMove s tile k .ce c = true) (hw : c.waiting = .none) : CopyUnits s tile c := by
  have done : ∀ {u}, copyUnit (engCtx s tile .ce c) c s = .ok u → runTurn s (.ceMove tile) =
      .next (u.s.updTask tile fun k => { k with ceq := c.after u :: k.ceq.drop 1 }) := ceMove_unit hk hq hm hw
  have plain : ∀ {n s'}, copyUnit (engCtx s tile .ce c) c s = .ok (plainUnit c n s') → runTurn s (.ceMove tile) =
      .next (s'.updTask tile fun k => { k with ceq := { c with index := n } :: k.ceq.drop 1 }) := fun hu => by
    rw [done hu, Cmd.after_plainUnit hw]
    rfl
  obtain ⟨hcp, hrow, helement, hfill, hexpand, hcompress, hcomb⟩ := copyUnit_cases (engCtx s tile .ce c) c s
  unfold CopyUnits
  intro x p i rest ends at_ d block poisoned
  refine ⟨fun ho s' h => plain ((hcp ho).trans (unitCp_ok rfl h)),
    fun ho s' h => plain ((hrow ho).trans (unitRow_ok rfl h)),
    fun ho s' h => plain ((helement ho).trans (unitElement_ok rfl h)),
    fun ho s' h => plain ((hfill ho).trans (unitFill_ok rfl h)),
    fun ho b s1 s' hb => ⟨fun len bytes hbl hl hp => plain ((hexpand ho).trans (unitExpand_coded hb hbl hl hp)),
      fun hbl hp => ?_,
      fun a raw s2 hbl hok hr hl hp => plain ((hexpand ho).trans (unitExpand_spilled hb hbl hok hr hl hp))⟩,
    fun ho src s1 hs => ⟨fun b s' hbad hkw hl hp => plain ((hcompress ho).trans (unitCompress_coded hs hbad hkw hl hp)),
      fun n qs ws s2 s3 hno hn hok hqs hws => ?_⟩,
    fun ho qs ps s1 s2 hqs hps => plain ((hcomb ho).trans (unitComb_ok hqs hps))⟩
  · exact (done ((hexpand ho).trans (unitExpand_zeros hb hbl hp))).trans (by rw [Cmd.after_eq hw]; rfl)
  · exact (done ((hcompress ho).trans (unitCompress_spills hs hno hn hok hqs hws))).trans
      (by rw [Cmd.after_eq hw, Cmd.note_none])

end Sys2Proof.Machine
end

section
namespace Sys2Proof.Machine

/-! ### What the copy engine's accesses carry (08 R265, R266; 12 R332) -/

/-! Guards (07 R216): what the engine's bookkeeping leaves of them. -/

theorem guardAt_eq (s : State) (tile o : Nat) :
    s.guardAt tile o = ((s.task? tile).map Task.guards).any (·.contains (o / 256)) := by
  unfold State.guardAt
  split <;> simp [*]

theorem firstGuard_eq_none_iff (s : State) (tile : Nat) (p : Part) :
    s.firstGuard tile p = none ↔ ∀ j < p.len, s.guardAt tile (p.loc - spadLoc tile 0 + j) = false := by
  simp [State.firstGuard, List.findSome?_eq_none_iff]

theorem guards_updTask (s : State) (tile : Nat) {g : Task → Task} (hg : ∀ k, (g k).guards = k.guards) :
    ((s.updTask tile g).task? tile).map Task.guards = (s.task? tile).map Task.guards := by
  rw [task?_updTask, Option.map_map]
  congr 1
  exact funext hg

theorem guards_writeBackLine (s : State) (tile k : Nat) :
    ((s.writeBackLine tile k).task? tile).map Task.guards = (s.task? tile).map Task.guards := by
  unfold State.writeBackLine
  split
  · rfl
  · exact guards_updTask _ tile fun _ => rfl

theorem guards_syncLines (s : State) (tile : Nat) (write : Bool) (p : Part) :
    ((syncLines s tile write p).task? tile).map Task.guards = (s.task? tile).map Task.guards := by
  refine foldl_inv (fun s : State => (s.task? tile).map Task.guards) _ (fun s k => ?_) _ s
  split
  · exact (guards_updTask _ tile (g := fun t => { t with l1 := FMap.erase t.l1 k }) fun _ => rfl).trans
      (guards_writeBackLine s tile k)
  · exact guards_writeBackLine s tile k

theorem movedPart_eq (s : State) (tile : Nat) (p : Part) : ∃ l, movedPart s tile p = { s with loom := l } := by
  unfold movedPart State.countMoved
  split
  · split
    · exact ⟨s.loom, rfl⟩
    · exact ⟨_, rfl⟩
  · exact ⟨s.loom, rfl⟩

/-- The state in which the engine accesses a part: the tile's own copies of its lines written back. -/
def synced (s : State) (tile : Nat) (write : Bool) (p : Part) : State := movedPart (syncLines s tile write p) tile p

theorem synced_mem (s : State) (tile : Nat) (write : Bool) (p : Part) :
    (synced s tile write p).mem = (syncLines s tile write p).mem := by
  obtain ⟨l, h⟩ := movedPart_eq (syncLines s tile write p) tile p
  rw [synced, h]

theorem synced_guardAt (s : State) (tile : Nat) (write : Bool) (p : Part) (o : Nat) :
    (synced s tile write p).guardAt tile o = s.guardAt tile o := by
  obtain ⟨l, h⟩ := movedPart_eq (syncLines s tile write p) tile p
  rw [synced, h, guardAt_eq, guardAt_eq, ← guards_syncLines s tile write p]
  rfl

theorem synced_firstGuard {s : State} {tile : Nat} (write : Bool) {p : Part} (h : s.firstGuard tile p = none) :
    (synced s tile write p).firstGuard tile p = none := by
  simpa only [firstGuard_eq_none_iff, synced_guardAt] using h

theorem MemOk.syncLines {s : State} (h : MemOk s) (tile : Nat) (write : Bool) (p : Part) :
    MemOk (syncLines s tile write p) := by
  refine foldl_keeps (P := MemOk) _ (fun s k hs => ?_) _ s h
  split
  · exact hs.flushLine tile k
  · exact hs.writeBackLine tile k

/-- The bytes a read of one part carries are those of memory. -/
theorem engRead_bytes {x : EngCtx} {s : State} {p : Part} (hg : p.space = .spad → s.firstGuard x.tile p = none) :
    (engRead x [p] s).1.map (·.1) =
      (List.range p.len).map fun j => Memory.read (syncLines s x.tile false p).mem (p.loc + j) := by
  have hbytes : (if p.space = .spad then (synced s x.tile false p).spadRead x.tile x.sid 3 p (some x.e)
      else ({ bytes := (synced s x.tile false p).readLoc p.loc p.len, bad := false, missed := false : Got },
        synced s x.tile false p)).1.bytes = (synced s x.tile false p).readLoc p.loc p.len := by
    split
    next h => simp only [State.spadRead, synced_firstGuard false (hg h)]
    next => rfl
  have hlen : ((synced s x.tile false p).readLoc p.loc p.len).length ≤
      (poisonFlags (synced s x.tile false p) p).length := by
    simp [State.readLoc, readN_length, poisonFlags]
  calc (engRead x [p] s).1.map (·.1)
      = (((synced s x.tile false p).readLoc p.loc p.len).zip (poisonFlags (synced s x.tile false p) p) ++ [] :
          List PByte).map (·.1) := by
        rw [← hbytes]; rfl
    _ = (synced s x.tile false p).readLoc p.loc p.len := by
        rw [List.append_nil]
        exact List.map_fst_zip hlen
    _ = _ := by rw [State.readLoc, synced_mem, readN_eq_map]

/-! Writes, sector by sector -/

theorem spadWrite_unguarded {s : State} {tile sid : Nat} {sub : BitVec 8} {p : Part} {bs : List Byte} {bad : Bool}
    {e : Option Engine} (h : s.firstGuard tile p = none) :
    s.spadWrite tile sid sub p bs bad e = s.writeLoc p.loc bs bad := by
  simp only [State.spadWrite, h]

theorem writeN_append (m : List Host.Cell) (a : Nat) (bs cs : List Byte) :
    Memory.writeN m a (bs ++ cs) = Memory.writeN (Memory.writeN m a bs) (a + bs.length) cs := by
  induction bs generalizing m a with
  | nil => rfl
  | cons b bs ih =>
    rw [List.cons_append, Memory.writeN, Memory.writeN, ih, List.length_cons, Nat.add_assoc, Nat.add_comm 1]

/-- One sector written, where no guard lies. -/
theorem writeSectors_cons {x : EngCtx} {s : State} {p : Part} (ps : List Part) (bs : List PByte)
    (hg : p.space = .spad → s.firstGuard x.tile p = none) :
    writeSectors x (p :: ps) bs s = writeSectors x ps (bs.drop p.len)
      (s.writeLoc p.loc ((bs.take p.len).map (·.1)) ((bs.take p.len).any (·.2))) := by
  rw [writeSectors]
  split
  next h => rw [spadWrite_unguarded (hg h)]
  next => rfl

/-- The first `n` bytes of a part. -/
def Part.upTo (p : Part) (n : Nat) : Part := { p with len := n }

/-- A part without its first `n` bytes. -/
def Part.beyond (p : Part) (n : Nat) : Part := { p with va := p.va + n, loc := p.loc + n, len := p.len - n }

/-- No guard lies in a piece of a part in which none lies. -/
theorem firstGuard_piece {s : State} {tile d : Nat} {p q : Part} (hq : q.loc = p.loc + d) (hd : d + q.len ≤ p.len)
    (h : s.firstGuard tile p = none) : s.firstGuard tile q = none := by
  rw [firstGuard_eq_none_iff] at h ⊢
  intro j hj
  have := h (q.loc - spadLoc tile 0 + j - (p.loc - spadLoc tile 0)) (by omega)
  rwa [Nat.add_sub_cancel' (by omega)] at this

theorem sectorCuts_cons {p : Part} (h : 32 - p.loc % 32 < p.len) (fuel : Nat) : sectorCuts p (fuel + 1) =
    p.upTo (32 - p.loc % 32) :: sectorCuts (p.beyond (32 - p.loc % 32)) fuel := if_neg (Nat.not_le.mpr h)

/-- The sectors of a part, one after the other, are its bytes. -/
theorem writeSectors_mem (x : EngCtx) (fuel : Nat) {s : State} {p : Part} {bs : List PByte} (hl : bs.length = p.len)
    (hf : p.loc % 32 + p.len ≤ 32 * fuel) (hg : p.space = .spad → s.firstGuard x.tile p = none) :
    (writeSectors x (sectorCuts p fuel) bs s).mem = Memory.writeN s.mem p.loc (bs.map (·.1)) := by
  induction fuel generalizing s p bs with
  | zero =>
    obtain rfl : bs = [] := List.length_eq_zero_iff.mp (by omega)
    rfl
  | succ fuel ih =>
    by_cases hle : p.len ≤ 32 - p.loc % 32
    · rw [sectorCuts, if_pos hle]
      split
      next h0 =>
        obtain rfl : bs = [] := List.length_eq_zero_iff.mp (by omega)
        rfl
      next =>
        rw [writeSectors_cons _ _ hg, List.take_of_length_le (Nat.le_of_eq hl)]
        rfl
    · generalize hn : 32 - p.loc % 32 = n at *
      have hfirst : p.space = .spad → s.firstGuard x.tile (p.upTo n) = none := fun h =>
        firstGuard_piece (p := p) (d := 0) rfl (by simp only [Part.upTo]; omega) (hg h)
      have hlast : p.space = .spad → s.firstGuard x.tile (p.beyond n) = none := fun h =>
        firstGuard_piece (p := p) (d := n) rfl (by simp only [Part.beyond]; omega) (hg h)
      have hlen : ((bs.take n).map (·.1)).length = n := by rw [List.length_map, List.length_take]; omega
      rw [sectorCuts_cons (by omega), hn, writeSectors_cons _ _ hfirst,
        ih (by rw [List.length_drop]; simp only [Part.beyond, Part.upTo]; omega) (by simp only [Part.beyond]; omega) hlast]
      calc Memory.writeN (Memory.writeN s.mem p.loc ((bs.take n).map (·.1))) (p.loc + n) ((bs.drop n).map (·.1))
          = Memory.writeN s.mem p.loc ((bs.take n).map (·.1) ++ (bs.drop n).map (·.1)) := by rw [writeN_append, hlen]
        _ = _ := by rw [← List.map_append, List.take_append_drop]

/-- What a write of one part leaves in memory. -/
theorem engWrite_mem {x : EngCtx} {s : State} {p : Part} {bs : List PByte} (ha : p.aperture = false) (hl : bs.length = p.len)
    (hg : p.space = .spad → s.firstGuard x.tile p = none) :
    (engWrite x [p] bs s).mem = Memory.writeN (syncLines s x.tile true p).mem p.loc (bs.map (·.1)) := by
  have hsectors := writeSectors_mem x (p.len / 32 + 2) hl (by omega) (s := synced s x.tile true p)
    fun h => synced_firstGuard true (hg h)
  simp only [engWrite, ha, Bool.false_and, Bool.false_eq_true, if_false, roused_mem, sendStore_mem]
  rw [List.take_of_length_le (Nat.le_of_eq hl), ← synced_mem, ← hsectors]
  rfl

/-! CPCOMB (12 R332) -/

theorem toInt_mod (ty : Ty) (n : Nat) : Ty.toInt ty n % (2 ^ Ty.width ty : Nat) = (n : Int) % (2 ^ Ty.width ty : Nat) := by
  unfold Ty.toInt
  split
  · rw [Int.sub_emod_right]
  · rfl

/-- Without saturation, a sum keeps the low bits. -/
theorem fit_toInt_add (ty : Ty) (a b : Nat) :
    Ty.fit ty false (Ty.toInt ty a + Ty.toInt ty b) = (a + b) % 2 ^ Ty.width ty := by
  have h : (Ty.toInt ty a + Ty.toInt ty b) % (2 ^ Ty.width ty : Nat) = ((a + b) % 2 ^ Ty.width ty : Nat) := by
    rw [Int.add_emod, toInt_mod, toInt_mod, ← Int.add_emod]
    norm_cast
  rw [Ty.fit, wrapInt, if_neg Bool.false_ne_true, h, Int.toNat_natCast]

/-- What the copy engine's accesses carry, by what a read and a write of one part are. -/
theorem copyData (s : State) (x : EngCtx) : CopyData s x := by
  refine ⟨fun p hp => engRead_bytes fun h => absurd h hp, fun p _ hg => engRead_bytes fun _ => hg,
    fun p bs hm ha hl hg => ?_, fun old new _ _ => ⟨fit_toInt_add .s32 old new, toInt_applyAtom_max .s32 old new⟩⟩
  have hlen : (bs.map (·.1)).length = p.len := (List.length_map _).trans hl
  rw [engWrite_mem ha hl hg]
  exact ⟨fun j hj => Memory.read_writeN_at (MemOk.syncLines hm ..) _ _ _ (hlen ▸ hj),
    fun l h => Memory.read_writeN_ne _ _ _ (hlen ▸ h)⟩

end Sys2Proof.Machine
end

section
namespace Sys2Proof.Machine

/-! ### The accumulator and the matrix engine (11 R298, R306, R311; 12 R336 to R340) -/

theorem FMap.get?_append {α : Type} (m n : FMap α) (a : Nat) : FMap.get? (m ++ n) a = (m.get? a).or (n.get? a) := by
  induction m with
  | nil => rfl
  | cons q m ih =>
    simp only [List.cons_append, FMap.get?]
    split
    · rfl
    · exact ih

theorem FMap.get?_filter {α : Type} (m : FMap α) (p : Nat → Bool) (a : Nat) :
    FMap.get? (m.filter fun q => p q.1) a = if p a then m.get? a else none := by
  induction m with
  | nil => simp [FMap.get?]
  | cons q m ih =>
    rw [List.filter_cons]
    by_cases hp : p q.1 = true
    · rw [if_pos hp, FMap.get?, FMap.get?, ih]
      split
      next h => rw [← h, if_pos hp]
      next => rfl
    · rw [if_neg hp, FMap.get?, ih]
      split
      next h =>
        split
        next e => exact absurd (e ▸ h) hp
        next => rfl
      next => rfl

/-- Pairs that are zeroed read (+0, +0); every other is as it was. -/
theorem accPair_zeroed (acc : FMap (BitVec 64)) (k n x : Nat) :
    accPair (setAccRange acc k n []) x = if k ≤ x ∧ x < k + n then 0 else accPair acc x := by
  have hkey : (setAccRange acc k n []).get? x =
      (if decide (x < k) then acc.get? x else none).or (if decide (k + n ≤ x) then acc.get? x else none) := by
    rw [← FMap.get?_filter acc fun a => decide (a < k), ← FMap.get?_filter acc fun a => decide (k + n ≤ a),
      ← FMap.get?_append]
    simp [setAccRange]
  rw [accPair, hkey]
  simp only [decide_eq_true_eq]
  by_cases hin : k ≤ x ∧ x < k + n
  · rw [if_pos hin, if_neg (by omega), if_neg (by omega)]
    rfl
  · rw [if_neg hin]
    by_cases hx : x < k
    · rw [if_pos hx, if_neg (by omega), Option.or_none]
      rfl
    · rw [if_neg hx, if_pos (by omega), Option.none_or]
      rfl

section
variable {s : State} {tile : Nat} {k : Task} {c : Cmd} {rest : List Cmd}

/-- The head of a queue starts: it pops its tokens and is running. -/
theorem engineCommandStart_starts {e : Engine} (hk : s.task? tile = some k) (hq : queueOf k e = c :: rest)
    (hs : canStart s tile k e c = true) :
    exec (.engineCommandStart tile e) s = .next (s.updTask tile fun k =>
      putQueue { k with fifo := popAll k.fifo (headPops e c), acc := startAcc k e c } e
        ({ c with phase := 1, index := 0 } :: rest)) := by
  show Host.Outcome.next (s.startCmd tile e) = _
  simp only [State.startCmd, hk, hq, hs, if_true]

theorem queueOf_putQueue (k : Task) (e : Engine) (q : List Cmd) : queueOf (putQueue k e q) e = q := by
  cases e <;> rfl

/-- A queue put back leaves the rest of the task. -/
theorem putQueue_frame (k : Task) (e : Engine) (q : List Cmd) :
    (putQueue k e q).fifo = k.fifo ∧ (putQueue k e q).slots = k.slots ∧ (putQueue k e q).acc = k.acc := by
  cases e <;> exact ⟨rfl, rfl, rfl⟩

/-- INIT zeroes the tile a matrix command folds into (12 R337). -/
theorem accPair_startAcc {e : Engine} (he : e = .me) (ho : c.opc ≠ 0x213) (hi : fmtInit c.fmt = true) {i j : Nat}
    (hi64 : i < 64) (hj64 : j < 64) :
    accPair (startAcc k e c) (accKey (bits (matWord c.opc c.params) 32 16) i j) = 0 := by
  rw [startAcc, if_pos ⟨he, ho, hi⟩, accPair_zeroed, if_pos]
  simp only [accKey]
  omega

/-- One unit of a matrix command. -/
abbrev meUnit (x : EngCtx) (c : Cmd) (s : State) : Eng UnitDone :=
  if c.opc = 0x213 then unitRowZero x c s else unitPanel x c s

/-- A matrix command whose unit is done goes on from its next index. -/
theorem mePanelFold_unit (hk : s.task? tile = some k) (hq : k.meq = c :: rest) (hm : canMove s tile k .me c = true)
    (hw : c.waiting = .none) (ho : c.opc = 0x213 ∨ missingLines k c = []) {n : Nat} {s' : State}
    (hu : meUnit (engCtx s tile .me c) c s = .ok (plainUnit c n s')) :
    exec (.mePanelFold tile) s =
      .next (s'.updTask tile fun k => { k with meq := { c with index := n } :: k.meq.drop 1 }) := by
  have hready : (c.opc == 0x213 || (missingLines k c).isEmpty || c.waiting.isFailed) = true := by
    rcases ho with h | h <;> simp [h]
  show Host.Outcome.next (s.moveMe tile) = _
  simp only [State.moveMe, hk, hq, hm, hready, hu, Cmd.advance_ok hw, Cmd.after_plainUnit hw, Bool.and_self, if_true]
  rfl

/-- Where the accumulator tile of a matrix command begins. -/
abbrev tileKey (c : Cmd) : Nat := accKey (bits (matWord c.opc c.params) 32 16) 0 0

/-- The row of the accumulator at which an ACCZ is, zeroed (12 R340). -/
theorem meUnit_accz (ho : c.opc = 0x213) (x : EngCtx) (s : State) : meUnit x c s =
    .ok (plainUnit c (c.index + 1) (s.updTask x.tile fun k => { k with
      acc := setAccRange k.acc (accKey (par c.params 0 % 2 ^ 16 + c.index / 64) (c.index % 64) 0) 64 [] })) := if_pos ho

/-- A panel whose operands are read and not poisoned is folded into every cell (12 R336, R339). -/
theorem meUnit_panel (ho : c.opc ≠ 0x213) {x : EngCtx} {a b : List PByte} {s1 s2 : State}
    (ha : readRanges x [panelA c c.index] s = .ok (a, s1)) (hb : readRanges x (panelB c c.index) s1 = .ok (b, s2))
    (hp : poisonAt ([panelA c c.index] ++ panelB c c.index) (a ++ b) = none) : meUnit x c s =
    .ok (plainUnit c (c.index + 1) ((s2.countFold x.tile).updTask x.tile fun k => { k with
      acc := setAccRange k.acc (tileKey c) 4096
        (foldPanel c (a.map (·.1)) (b.map (·.1)) (accRange k.acc (tileKey c) 4096)) })) := by
  simp only [meUnit, if_neg ho, unitPanel, ha, hb, hp, bind, Except.bind]

theorem countFold_eq (s : State) (tile : Nat) : ∃ l, s.countFold tile = { s with loom := l } := by
  unfold State.countFold
  split
  · exact ⟨s.loom, rfl⟩
  · exact ⟨_, rfl⟩

/-- An operand line that is reached is noted (11 R311). -/
theorem operandLineArrive_notes {line : Nat} {ps : List Part} {s1 : State} (hk : s.task? tile = some k)
    (hq : k.meq = c :: rest) (hl : lineWanted k c = true) (hm : line ∈ missingLines k c)
    (hr : reach (engCtx s tile .me c) s .load false (128 * line) 128 = .ok (ps, s1)) :
    exec (.operandLineArrive tile line) s = .next (s1.updTask tile fun k =>
      { k with oplines := k.oplines ++ [(c.order, line)], meq := { c with waiting := .none } :: rest }) := by
  show Host.Outcome.next (s.bringLine tile line) = _
  simp only [State.bringLine, hk, hq, hl, List.contains_iff_mem.mpr hm, hr, Bool.and_self, if_true]

/-! Completion (11 R302, R303, R310) -/

/-- The task without the head command of a queue: the tokens are pushed, the command's operand lines go. -/
def Task.leave (k : Task) (e : Engine) (c : Cmd) : Task :=
  { (putQueue k e ((queueOf k e).drop 1)) with
    fifo := pushAll k.fifo (headPushes e c), oplines := k.oplines.filter (·.1 != c.order) }

theorem Task.leave_frame (k : Task) (e : Engine) (c : Cmd) :
    queueOf (k.leave e c) e = (queueOf k e).drop 1 ∧ (k.leave e c).fifo = pushAll k.fifo (headPushes e c) ∧
      (k.leave e c).acc = k.acc ∧ (k.leave e c).slots = k.slots := by
  cases e <;> exact ⟨rfl, rfl, rfl, rfl⟩

theorem Task.endSlot_frame (k : Task) (n : Nat) (failed : Bool) (e : Engine) :
    queueOf (k.endSlot n failed) e = queueOf k e ∧ (k.endSlot n failed).fifo = k.fifo ∧
      (k.endSlot n failed).acc = k.acc := by
  cases e <;> exact ⟨rfl, rfl, rfl⟩

theorem Task.endSlot_state (k : Task) (n : Nat) (failed : Bool) :
    ((k.endSlot n failed).slot n).state = if failed then .failed else .complete := by
  simp [Task.endSlot, Task.setSlot, Task.slot]

/-- The end of a command other than CPMM. -/
theorem Task.finish_eq {e : Engine} (ho : c.opc ≠ 0x206) (k : Task) :
    k.finish e c = if c.quiet then k.leave e c else (k.leave e c).endSlot c.slot c.error.isSome := by
  simp only [Task.finish, if_neg ho, Task.leave]

theorem Task.finish_frame {e : Engine} (ho : c.opc ≠ 0x206) (k : Task) :
    queueOf (k.finish e c) e = (queueOf k e).drop 1 ∧ (k.finish e c).fifo = pushAll k.fifo (headPushes e c) ∧
      (k.finish e c).acc = k.acc ∧ (c.quiet = true → (k.finish e c).slots = k.slots) ∧
      (c.quiet = false → ((k.finish e c).slot c.slot).state = if c.error.isSome then .failed else .complete) := by
  obtain ⟨hq, hf, ha, hs⟩ := k.leave_frame e c
  obtain ⟨hq', hf', ha'⟩ := (k.leave e c).endSlot_frame c.slot c.error.isSome e
  rw [Task.finish_eq ho]
  cases c.quiet with
  | true => exact ⟨hq, hf, ha, fun _ => hs, nofun⟩
  | false => exact ⟨hq'.trans hq, hf'.trans hf, ha'.trans ha, nofun, fun _ => Task.endSlot_state ..⟩

theorem engineCommandComplete_finishes {e : Engine} (hk : s.task? tile = some k) (hq : queueOf k e = c :: rest)
    (hd : headDone e c = true) (hes : k.engStop = 0) (ho : c.opc ≠ 0x206)
    (hr : poisonRollback s (8 * tile + c.issuer) c = false) (hp : canPush k.fifo (headPushes e c) = true) :
    exec (.engineCommandComplete tile e) s =
      .next ((s.updTask tile fun k => k.finish e c).updStrand (8 * tile + c.issuer) (engineReport e c)) := by
  have hcopy : copyHalf e c = false := by
    rw [copyHalf, beq_eq_false_iff_ne.mpr ho, Bool.and_false, Bool.false_and]
  show Host.Outcome.next (s.completeCmd tile e) = _
  simp only [State.completeCmd, hk, hq, hd, hr, hes, hcopy, hp, Bool.not_true, bne_self_eq_false,
    Bool.false_eq_true, if_false, if_true]

end

/-- Settles O40: each event by the lemma for what it leaves, the copy engine's by the accesses of its unit. -/
theorem enginesRun : Obligations.EnginesRun := by
  intro s tile k hk
  have htask : ∀ {s : State} {k : Task} (g : Task → Task), s.task? tile = some k →
      (s.updTask tile g).task? tile = some (g k) := fun g h => by rw [task?_updTask, h, Option.map_some]
  refine ⟨fun c rest hq hm hw => ⟨copyUnits_of_canMove hk hq hm hw, copyData s _⟩, fun e c rest hq hs => ?_,
    fun c rest hq hw => ⟨fun hm ho => ?_, fun a b s1 s2 k2 hm ho hmiss ha hb hp hk2 => ?_,
      fun line ps s1 k1 hl hmem hr hk1 => ?_⟩,
    fun e c rest hq hd hes ho hr hp => ?_⟩
  · obtain ⟨hf, hsl, hacc⟩ := putQueue_frame { k with fifo := popAll k.fifo (headPops e c), acc := startAcc k e c } e
      ({ c with phase := 1, index := 0 } :: rest)
    refine ⟨_, _, engineCommandStart_starts hk hq hs, htask _ hk, queueOf_putQueue .., hf, hsl, rfl, rfl,
      fun he ho hi i j hi64 hj64 => ?_⟩
    rw [hacc]
    exact accPair_startAcc he ho hi hi64 hj64
  · refine ⟨_, _, mePanelFold_unit hk hq hm hw (.inl ho) (meUnit_accz ho _ s), htask _ (htask _ hk), ?_, rfl, rfl,
      fun n => accPair_zeroed ..⟩
    show _ :: k.meq.drop 1 = _
    rw [hq]
    rfl
  · obtain ⟨l, hl⟩ := countFold_eq s2 tile
    have hk2' : (s2.countFold tile).task? tile = some k2 := by rw [hl]; exact hk2
    have hmem : (s2.countFold tile).mem = s2.mem := by rw [hl]
    exact ⟨_, _, mePanelFold_unit hk hq hm hw (.inr hmiss) (meUnit_panel ho ha hb hp), htask _ (htask _ hk2'), hmem,
      rfl, rfl⟩
  · exact ⟨_, _, operandLineArrive_notes hk hq hl hmem hr, htask _ hk1, rfl, rfl, rfl⟩
  · obtain ⟨hq', hf, hacc, hquiet, hslot⟩ := Task.finish_frame (e := e) ho k
    exact ⟨_, _, engineCommandComplete_finishes hk hq hd hes ho hr hp, htask _ hk, by rw [hq', hq]; rfl, hf, rfl,
      hacc, hquiet, hslot⟩

end Sys2Proof.Machine
end

section
namespace Sys2Proof.Machine

open Decode

/-! ### Operations of a unit (13 R358) -/

/-- The sequence of two operations, run on a state. -/
theorem hm_bind {α β : Type} (m : Hm α) (k : α → Hm β) (s : State) :
    (m >>= k).run s = m.run s >>= fun r => (k r.1).run r.2 := rfl

theorem hm_pure {α : Type} (a : α) (s : State) : (pure a : Hm α).run s = .ok (a, s) := rfl

theorem hm_get (s : State) : (get : Hm State).run s = .ok (s, s) := rfl

theorem hm_set (s s' : State) : (set s' : Hm PUnit).run s = .ok (⟨⟩, s') := rfl

theorem hm_modify (g : State → State) (s : State) : (modify g : Hm PUnit).run s = .ok (⟨⟩, g s) := rfl

theorem hm_halt {α : Type} (h : Halt) (s : State) : (haltWith h : Hm α).run s = .error (.halt h) := rfl

theorem ok_bind {ε α β : Type} (a : α) (k : α → Except ε β) : (Except.ok a >>= k) = k a := rfl

theorem needH_ok {b : Bool} (hb : b = true) (h : Halt) (s : State) : (needH b h).run s = .ok ((), s) := by
  rw [needH, if_pos hb]
  rfl

/-! ### Home-path instructions (13 R358 to R361) -/

/-- The state in which a home-path instruction has completed with the response `w`: its operation has left `s2`. -/
def homeDone (h : HomeSpec) (fl : FormQ) (sid : Nat) (u : Strand) (w : Word) (s2 : State) : State :=
  let e := homeEnt h fl u (if fl.d = .x 0 then 0 else w)
  ((h.post (s2.updStrand sid fun q => { q with home := .none })).logTask sid e).updStrand sid fun q =>
    ({ q with held := none }.logSeq e).putD fl.d w

/-- A strand with nothing to replay performs its operation anew (13 R361). -/
theorem replayHome_afresh {u : Strand} (ha : Afresh u) (e : SeqEnt) : replayHome u e = (none, u) := by
  obtain ⟨-, -, -, hrep, hlog⟩ := ha
  have hu : ({ u with replaying := false, relog := [] } : Strand) = u := by rw [← hrep, ← hlog]
  simp only [replayHome, hrep, hlog, hu]

theorem staleLog_afresh {u : Strand} (ha : Afresh u) : staleLog u = 0 := by
  obtain ⟨-, -, -, hrep, hlog⟩ := ha
  simp [staleLog, hrep, hlog]

theorem cutLog_zero (s : State) (sid : Nat) : s.cutLog sid 0 = s := rfl

theorem runHm_ok {α : Type} {m : Hm α} {s s1 : State} {a : α} (h : m.run s = .ok (a, s1)) (pasid : BitVec 20)
    (agent : FaultAgent) (sid : Nat) :
    runHm pasid agent sid m s = .ok (a, s1.updStrand sid fun t => { t with home := .none }) := by
  have h' : m s = .ok (a, s1) := h
  rw [runHm, h']

/-- The body of a home-path instruction whose checks pass and whose operation its unit performs. -/
theorem homeBody_ok {h : HomeSpec} {fl : FormQ} {op : State → Strand → Hm Word} {o o2 s2 : State} {sid : Nat} {u : Strand}
    {w : Word} (hs : o.sid = sid) (hu : o.strand? sid = some u) (ha : Afresh u) (hm : Unmarked u (homeReads h fl))
    (hp : h.pre o u = .ok o2) (hop : (op o2 u).run (o2.setStrand sid u) = .ok (w, s2)) :
    homeBody h fl op o = .ok (homeDone h fl sid u w s2) := by
  have hmarks := noMarks_ok hm
  have ⟨hhome, hans, hch, _, _⟩ := ha
  have hpass : verdict o2 sid u = .pass := by rw [verdict, hch]
  have hrun := runHm_ok hop (o2.pasidOf sid) h.agent sid
  simp only [homeReads] at hmarks
  rw [homeBody, withFocus_eq hs hu]
  simp only [hs, hmarks, hans, hp, hpass, replayHome_afresh ha, staleLog_afresh ha, cutLog_zero, hrun, bind, Except.bind]
  cases hh : u.home with
  | on p sub va => exact absurd hh (hhome p sub va)
  | _ => rfl

/-- Each row is one call of the body that all share, with its own fields and operation. -/
theorem exec_homeRow : ∀ row ∈ boltRows ++ streamRows, ∀ (fl : FormQ) (s : State),
    exec (row.make fl) s = issue (row.make fl) .normal anyLevel (homeBody (row.spec fl) fl (row.op fl)) s := by
  simp only [boltRows, streamRows, List.cons_append, List.nil_append, List.forall_mem_cons, List.not_mem_nil, false_imp_iff,
    implies_true, and_true]
  and_intros <;> exact fun _ _ => rfl

/-- BADDR on the headstock is performed at the home too (13 R371). -/
theorem exec_baddrHead {fl : FormQ} {s o s2 : State} {f : Focus} {r : Raw} {t u : Strand}
    (hf : Finds (.baddr fl) .normal s f r t o u) (hh : isHead f.sid = true)
    (hb : homeBody (baddrHeadRow.spec fl) fl (baddrHeadRow.op fl) o = .ok s2) : Completes (.baddr fl) s f r t s2 := by
  refine hf.ok rfl ?_ (rfl : _ = execBaddr fl s)
  rw [hf.sid, if_pos hh]
  exact hb

/-- A home-path instruction that issues, whose checks pass and whose operation its unit performs, completes. -/
theorem home_completes {row : HomeRow} {fl : FormQ} {s o o2 s2 : State} {f : Focus} {r : Raw} {t u : Strand} {w : Word}
    (hr : row ∈ boltRows ++ streamRows ∨ (isHead f.sid = true ∧ row = baddrHeadRow))
    (hf : Finds (row.make fl) .normal s f r t o u) (ha : Afresh u)
    (hm : Unmarked u (homeReads (row.spec fl) fl)) (hp : (row.spec fl).pre o u = .ok o2)
    (hop : (row.op fl o2 u).run (o2.setStrand f.sid u) = .ok (w, s2)) : HomeAnswers row fl s f r t u w s2 := by
  have hb := homeBody_ok hf.sid hf.strand ha hm hp hop
  rcases hr with hr | ⟨hh, rfl⟩
  · exact hf.ok rfl hb (exec_homeRow row hr fl s)
  · exact exec_baddrHead hf hh hb

/-- An operation looks at the state for the strand in focus, its context and the time only. -/
theorem op_setStrand : ∀ row ∈ baddrHeadRow :: (boltRows ++ streamRows), ∀ (fl : FormQ) (s : State) (k : Nat) (u : Strand),
    row.op fl (s.setStrand k u) = row.op fl s := by
  simp only [boltRows, streamRows, List.cons_append, List.nil_append, List.forall_mem_cons, List.not_mem_nil, false_imp_iff,
    implies_true, and_true]
  and_intros <;> exact fun _ _ _ _ => rfl

/-- The same from the state in which the operation is performed. -/
theorem home_answers {row : HomeRow} {fl : FormQ} {s q s2 : State} {f : Focus} {r : Raw} {t u : Strand} {w : Word}
    (h : HomeStarts row fl s f r t u q) (hr : row ∈ boltRows ++ streamRows) (hop : (row.op fl q u).run q = .ok (w, s2)) :
    HomeAnswers row fl s f r t u w s2 := by
  obtain ⟨o, o2, hf, ha, hm, hp, rfl⟩ := h
  rw [op_setStrand row (.tail _ hr)] at hop
  exact home_completes (.inl hr) hf ha hm hp hop

theorem baddrHead_answers {fl : FormQ} {s q s2 : State} {f : Focus} {r : Raw} {t u : Strand} {w : Word}
    (h : HomeStarts baddrHeadRow fl s f r t u q) (hh : isHead q.sid = true)
    (hop : (baddrHeadRow.op fl q u).run q = .ok (w, s2)) : HomeAnswers baddrHeadRow fl s f r t u w s2 := by
  obtain ⟨o, o2, hf, ha, hm, hp, rfl⟩ := h
  rw [op_setStrand _ (.head _)] at hop
  have hsid : o2.sid = f.sid := by
    cases hp
    exact hf.sid
  exact home_completes (.inr ⟨hsid ▸ hh, rfl⟩) hf ha hm hp hop

end Sys2Proof.Machine
end

section
namespace Sys2Proof.Machine

open Decode

/-! ### The waits that end at their time (13 R365; 14 R409) -/

theorem noteHints_waitA (t : Strand) (pc : Word) (n : Nat) (hs : List Hint) : (noteHints t pc n hs).waitA = t.waitA := by
  have hc : (countHints t hs).waitA = t.waitA := by
    unfold countHints
    split <;> rfl
  simp only [noteHints]
  split <;> exact hc

theorem opened_waitA (s : State) (f : Focus) (r : Raw) (t : Strand) : (opened s f r t).waitA = t.waitA := by
  have hsettle : (settle s.cycle t).waitA = t.waitA := by
    obtain ⟨p, q, a, e, h⟩ := settle_eq s.cycle t
    rw [h]
  have hmark : ∀ (q : Strand) sl, (markCounted q sl).waitA = q.waitA := fun q sl => by cases sl <;> rfl
  simp only [opened, hmark]
  split
  · exact hsettle
  · exact (noteHints_waitA _ _ _ _).trans hsettle

/-- Issue leaves the wait of the access slice and PC as they were. -/
theorem openedStrand_wait (s : State) (f : Focus) (r : Raw) (t : Strand) :
    (openedStrand s f r t).waitA = t.waitA ∧ (openedStrand s f r t).pc = t.pc := by
  obtain ⟨-, hpc⟩ := opened_loops s f r t
  unfold openedStrand readReuse
  split <;> exact ⟨opened_waitA s f r t, hpc⟩

/-- A strand that waits in the instruction at PC, which has issued: whether its time is up, and when it issued. -/
theorem timed_of_wait {u : Strand} {wt : Wait} (hw : u.waitA = some wt) (hpc : wt.pc = u.pc) (he : wt.entered = true)
    (cycle : Nat) : timedOut u cycle = wt.ended cycle ∧ issuedAt u cycle = wt.since := by
  simp only [timedOut, issuedAt, hw, Option.any_some, he, hpc, beq_self_eq_true, Bool.and_self, Bool.true_and, if_true,
    and_self]

/-- The strand that an instruction at a strand's PC finds, while it waits there. -/
theorem timed_of_finds {i : Instr} {ord : Order} {s o : State} {sid : Nat} {f : Focus} {r : Raw} {t u : Strand} {wt : Wait}
    (hf : Finds i ord (s.at sid) f r t o u) (hw : (s.strand? sid).bind (·.waitA) = some wt) (hpc : wt.pc = t.pc)
    (he : wt.entered = true) (hend : wt.ended s.cycle = true) :
    timedOut u o.cycle = true ∧ issuedAt u o.cycle = wt.since := by
  obtain ⟨hiss, rfl, rfl⟩ := hf
  have hsid : f.sid = sid := (congrArg Focus.sid (Option.some.inj hiss.focus)).symm
  have ht : s.strand? sid = some t := hsid ▸ hiss.strand
  rw [ht] at hw
  obtain ⟨hwait, hpc'⟩ := openedStrand_wait (s.at sid) f r t
  obtain ⟨hto, hia⟩ := timed_of_wait (hwait.trans hw) (hpc.trans hpc'.symm) he s.cycle
  exact ⟨hto.trans hend, hia⟩

theorem waits_of_bwaiting {s : State} {sid : Nat} {fl : FormQ} {wt : Wait} (h : bwaiting s sid = some (fl, wt)) :
    (s.strand? sid).bind (·.waitA) = some wt := by
  unfold bwaiting at h
  split at h
  · split at h
    · simp_all
    · cases h
  · cases h

theorem waits_of_feedwaiting {s : State} {sid : Nat} {fl : FormQ} {wt : Wait} (h : feedwaiting s sid = some (fl, wt)) :
    (s.strand? sid).bind (·.waitA) = some wt := by
  unfold feedwaiting at h
  split at h
  · split at h
    · simp_all
    · cases h
  · cases h

theorem exec_bwaitTimeout {s : State} {sid : Nat} {fl : FormQ} {wt : Wait} (h : bwaiting s sid = some (fl, wt))
    (he : wt.ended s.cycle = true) :
    exec (.bwaitTimeout sid) s = issue (.bwait fl) .normal anyLevel (bwaitBody fl) (s.at sid) := by
  refine (rfl : _ = execBwaitTimeout sid s).trans ?_
  simp only [execBwaitTimeout, h, he, if_true, execBwait]

theorem exec_feedwaitTimeout {s : State} {sid : Nat} {fl : FormQ} {wt : Wait} (h : feedwaiting s sid = some (fl, wt))
    (he : wt.ended s.cycle = true) :
    exec (.feedwaitTimeout sid) s = issue (.feedwait fl) .normal anyLevel (feedwaitBody fl) (s.at sid) := by
  refine (rfl : _ = execFeedwaitTimeout sid s).trans ?_
  simp only [execFeedwaitTimeout, h, he, if_true, execFeedwait]

theorem acquirePre_eq {o o2 : State} {u : Strand} (h : acquirePre o u = .ok o2) : o2 = o := by
  unfold acquirePre at h
  split at h
  · cases h
  · cases h
    rfl

/-- The feed a strand names (14 R398). -/
theorem needFeed_ok {s : State} {sid n : Nat} {a : Word} {fd : Feed} (hn : a.toNat = n) (hlt : n < 4096)
    (hfd : s.feed? n = some fd) (hp : fd.pasid = s.pasidOf sid) : (needFeed sid a).run s = .ok ((n, fd), s) := by
  have hmod : a.toNat % 4096 = n := by omega
  simp only [needFeed, hm_bind, hm_get, ok_bind, hmod, hfd]
  simp only [needH_ok (show (decide (a.toNat < 4096) && fd.pasid == s.pasidOf sid) = true by simp [hn, hlt, hp]), ok_bind]
  rfl

/-- Settles O42: the wait that the strand keeps says that its time is up, and the operation is performed once more. -/
theorem timedWaitsComplete : Obligations.TimedWaitsComplete := by
  intro fl sid wt s o o2 s2 f r t u w
  dsimp only
  intro hend hent hpc ha
  refine ⟨?_, ?_, ?_⟩
  · rintro _ rfl hw hf hm hp hop
    obtain ⟨hto, hia⟩ := timed_of_finds hf (waits_of_bwaiting hw) hpc hent hend
    have hb : bwaitBody fl o = .ok (homeDone (bwaitRow.spec fl) fl f.sid u w s2) := by
      refine homeBody_ok hf.sid hf.strand ha hm hp ?_
      rw [acquirePre_eq hp] at hop ⊢
      simp only [hto, hia]
      exact hop
    obtain ⟨hiss, rfl, rfl⟩ := hf
    exact (exec_bwaitTimeout hw hend).trans (issue_ok hiss rfl hb)
  · rintro _ rfl hw hf hm hop
    obtain ⟨hto, hia⟩ := timed_of_finds hf (waits_of_feedwaiting hw) hpc hent hend
    have hb : feedwaitBody fl o = .ok (homeDone (feedwaitRow.spec fl) fl f.sid u w s2) := by
      refine homeBody_ok hf.sid hf.strand ha hm rfl ?_
      simp only [hto, hia]
      exact hop
    obtain ⟨hiss, rfl, rfl⟩ := hf
    exact (exec_feedwaitTimeout hw hend).trans (issue_ok hiss rfl hb)
  · intro n fd hfd hp hn hlt
    simp only [feedwaitOp, hm_bind, needFeed_ok hn hlt hfd hp, ok_bind]
    split <;> rfl

end Sys2Proof.Machine
end

section
namespace Sys2Proof.Machine

open Decode

/-! ### What the check of a bolt area leaves alone (13 R359; 20 R469) -/

/-- An operation that leaves the focus where it is. -/
def KeepsFocus {α : Type} (m : Hm α) : Prop := ∀ s a s1, m.run s = .ok (a, s1) → s1.focus = s.focus

theorem keepsFocus_pure {α : Type} (a : α) : KeepsFocus (pure a : Hm α) := by
  rintro s _ _ ⟨⟩
  rfl

theorem keepsFocus_halt {α : Type} (h : Halt) : KeepsFocus (haltWith h : Hm α) := by
  intro s a s1 h1
  rw [hm_halt] at h1
  cases h1

theorem keepsFocus_bind {α β : Type} {m : Hm α} {k : α → Hm β} (hm : KeepsFocus m) (hk : ∀ a, KeepsFocus (k a)) :
    KeepsFocus (m >>= k) := by
  intro s b s2 h
  rw [hm_bind] at h
  cases hr : m.run s with
  | error e => rw [hr] at h; cases h
  | ok r =>
    rw [hr] at h
    exact (hk _ _ _ _ h).trans (hm _ _ _ hr)

theorem keepsFocus_unitParts (pasid : BitVec 20) (acc : Acc) (va len : Nat) : KeepsFocus (unitParts pasid acc va len) := by
  intro s ps s1 h
  have hf : (unitAccess s (unitAgent pasid false) acc va len).2.focus = s.focus := unitPieces_focus _ _ _ _ _ _ _
  simp only [unitParts, hm_bind, hm_get, ok_bind] at h
  split at h
  next hu =>
    rw [hu] at hf
    cases h
    exact hf
  · cases h
  · cases h

theorem keepsFocus_areaGet (ar : Area) (h : Nat) (f : RecField) : KeepsFocus (ar.get h f) :=
  keepsFocus_bind (keepsFocus_bind (keepsFocus_unitParts _ _ _ _) fun _ => by rintro s _ _ ⟨⟩; rfl)
    fun _ => keepsFocus_pure _

theorem keepsFocus_checkArea (ar : Area) : KeepsFocus (checkArea ar) := by
  refine keepsFocus_bind (keepsFocus_areaGet _ _ _) fun _ => keepsFocus_bind (keepsFocus_areaGet _ _ _) fun _ =>
    keepsFocus_bind (keepsFocus_areaGet _ _ _) fun _ => ?_
  split
  · exact keepsFocus_pure _
  · exact keepsFocus_bind (keepsFocus_areaGet _ _ _) fun _ => keepsFocus_bind (keepsFocus_unitParts _ _ _ _) fun _ =>
      keepsFocus_pure _

theorem keepsFocus_areaOf (pasid : BitVec 20) : KeepsFocus (areaOf pasid) := by
  refine keepsFocus_bind (by rintro s _ _ ⟨⟩; rfl) fun s => ?_
  dsimp only
  split
  · exact keepsFocus_pure _
  · split
    · exact keepsFocus_pure _
    · exact keepsFocus_bind (keepsFocus_checkArea _) fun _ => keepsFocus_bind (by rintro s _ _ ⟨⟩; rfl) fun _ =>
        keepsFocus_pure _

theorem keepsFocus_needArea (pasid : BitVec 20) (slot : Nat) (h : Word) : KeepsFocus (needArea pasid slot h) := by
  refine keepsFocus_bind (keepsFocus_areaOf pasid) fun a => ?_
  cases a with
  | none => exact keepsFocus_halt _
  | some ar => exact keepsFocus_pure ar

/-- What an operation run for a strand has done, when it answers. -/
theorem runHm_inv {α : Type} {m : Hm α} {pasid : BitVec 20} {agent : FaultAgent} {sid : Nat} {s : State} {q : α × State}
    (h : runHm pasid agent sid m s = .ok q) :
    ∃ s1, m.run s = .ok (q.1, s1) ∧ q.2 = s1.updStrand sid fun t => { t with home := .none } := by
  unfold runHm at h
  split at h
  next r hr =>
    cases h
    exact ⟨r.2, hr, rfl⟩
  · cases h
  · split at h <;> cases h

theorem tileArea_sid {o o2 : State} {slot : Nat} {a : Word} (h : tileArea o slot a = .ok o2) : o2.sid = o.sid := by
  simp only [tileArea, bind, Except.bind] at h
  split at h
  · cases h
  next q hq =>
    obtain ⟨s1, hm, hs⟩ := runHm_inv hq
    cases h
    rw [hs]
    exact (sid_congr (updStrand_focus _ _ _)).trans (sid_congr (keepsFocus_needArea _ _ _ _ _ _ hm))

/-! ### The translation memory at a tile (13 R355, R371, R373, R374) -/

/-- A handle and a slot in range pass the checks of the translation memory. -/
theorem tmOperands_ok {a b : Word} (ha : a.toNat < 2 ^ 24) (hb : b.toNat < 2 ^ 32) (useSlot : Bool) :
    tmOperands useSlot a b = .ok () := by
  simp only [tmOperands, need_ok (decide_eq_true ha), decide_eq_true hb, Bool.or_true, need_ok, bind, Except.bind]

/-- Settles O43: the checks pass, and what is left of each body is what it makes of the entry that the slot hits. -/
theorem translationMemory : Obligations.TranslationMemory := by
  intro fl s o o2 f r t u
  dsimp only
  intro hh hm ha hb
  have hmarks : ∀ ds, noMarks u ds = .ok () := fun ds => noMarks_ok fun d _ => hm d
  have hbody : ∀ {i ord} (g : State → Strand → Res State), Finds i ord s f r t o u → withFocus g o = g o u :=
    fun g hf => withFocus_eq hf.sid hf.strand
  have hsid : ∀ {i slot a}, Finds i .normal s f r t o u → tileArea o slot a = .ok o2 → o2.sid = f.sid :=
    fun hf h => (tileArea_sid h).trans hf.sid
  refine ⟨fun harea => ⟨fun e hit hf => hf.ok rfl ?_ (rfl : _ = execBaddr fl s),
      fun e hit hf => hf.ok rfl ?_ (rfl : _ = execTmlock fl s),
      fun e hit hf => hf.ok rfl ?_ (rfl : _ = execTmunlk fl s),
      fun hit hf => hf.ok rfl ?_ (rfl : _ = execTmunlk fl s)⟩,
    fun s3 harea hhome hf hdrop => hf.ok rfl ?_ (rfl : _ = execTminv fl s)⟩
  · rw [hf.sid, hh, if_neg Bool.false_ne_true, baddrTile, hbody _ hf]
    simp only [hmarks, harea, tmOperands_ok ha hb, hsid hf harea, hit, bind, Except.bind]
  · rw [tmLockBody, hbody _ hf]
    simp only [hmarks, harea, tmOperands_ok ha hb, hsid hf harea, hit, bind, Except.bind]
  · rw [tmLockBody, hbody _ hf]
    simp only [hmarks, harea, tmOperands_ok ha hb, hsid hf harea, hit, bind, Except.bind]
  · rw [tmLockBody, hbody _ hf]
    simp only [hmarks, harea, tmOperands_ok ha hb, hsid hf harea, hit, bind, Except.bind, Bool.false_eq_true, if_false]
  · have ha' : (if fl.aux = 2 then 0 else u.xa fl.a).toNat < 2 ^ 24 := by
      split
      · decide
      · exact ha
    have hrun := runHm_ok hdrop (o2.pasidOf o2.sid) .sequence f.sid
    rw [hsid hf harea] at hrun
    rw [tminvBody, hbody _ hf]
    simp only [hmarks, harea, tmOperands_ok ha' hb, hsid hf harea, hrun, ite_self, bind, Except.bind]

end Sys2Proof.Machine
end

section
namespace Sys2Proof.Machine

/-! ### Fields of records, read and written in order (13 R346 to R348) -/

section
variable {ar : Area} {s s' : State}

theorem holdsFields_nil : holdsFields ar [] s = some s' ↔ s = s' := Option.some_inj

theorem holdsFields_cons {h v : Nat} {k : RecField} {l : List (Nat × RecField × Nat)} :
    holdsFields ar ((h, k, v) :: l) s = some s' ↔
      ∃ s1, (ar.get h k).run s = .ok (v, s1) ∧ holdsFields ar l s1 = some s' := by
  rw [holdsFields]
  split
  next w s1 hr =>
    rw [hr]
    split
    next hw => simp [hw]
    next hw => simp [hw]
  next hr => simp [hr]

theorem writesFields_nil : writesFields ar [] s = some s' ↔ s = s' := Option.some_inj

theorem writesFields_cons {h v : Nat} {k : RecField} {l : List (Nat × RecField × Nat)} :
    writesFields ar ((h, k, v) :: l) s = some s' ↔
      ∃ s1, (ar.put h k v).run s = .ok ((), s1) ∧ writesFields ar l s1 = some s' := by
  rw [writesFields]
  split
  next hr => simp [hr]
  next hr => simp [hr]

theorem writesFields_append {l₁ l₂ : List (Nat × RecField × Nat)} :
    writesFields ar (l₁ ++ l₂) s = some s' ↔
      ∃ s1, writesFields ar l₁ s = some s1 ∧ writesFields ar l₂ s1 = some s' := by
  induction l₁ generalizing s with
  | nil => simp [writesFields_nil]
  | cons p l₁ ih =>
    obtain ⟨h, k, v⟩ := p
    simp only [List.cons_append, writesFields_cons, ih]
    grind

/-- One value written to a list of fields of a record. -/
theorem writesFields_map {n v : Nat} {field : Nat → RecField} {ds : List Nat}
    (h : writesFields ar (ds.map fun d => (n, field d, v)) s = some s') :
    (ds.forM fun d => ar.put n (field d) v).run s = .ok ((), s') := by
  induction ds generalizing s with
  | nil =>
    cases h
    rfl
  | cons d ds ih =>
    obtain ⟨s1, hput, hrest⟩ := writesFields_cons.mp h
    simp only [List.forM, hm_bind, hput, ok_bind, ih hrest]

end

/-! ### Checks of class 5 (13 R359) -/

section
variable {pasid : BitVec 20} {slot h : Nat} {a b : Word} {s : State}

theorem need32_ok (hb : b.toNat < 2 ^ 32) : (need32 b slot a).run s = .ok (b.toNat, s) := by
  simp only [need32, hm_bind, needH_ok (decide_eq_true hb), ok_bind, hm_pure]

theorem needCount_ok (h1 : 1 ≤ b.toNat) (h2 : b.toNat ≤ 4096) : (needCount b slot a).run s = .ok (b.toNat, s) := by
  have hne : b ≠ 0 := by
    rintro rfl
    exact absurd h1 (by decide)
  have hc : (b != 0 && decide (b.toNat ≤ 4096)) = true := by
    rw [bne_iff_ne.mpr hne, decide_eq_true h2, Bool.and_self]
  simp only [needCount, hm_bind, needH_ok hc, ok_bind, hm_pure]

theorem needLanded_ok (hc : copying pasid h s = false) : (needLanded pasid h).run s = .ok ((), s) := by
  have hn : (!copying pasid h s) = true := by rw [hc]; rfl
  simp only [needLanded, hm_bind, hm_get, ok_bind, needH_ok hn]

end

/-! ### BNEW (13 R362) -/

section
variable {pasid : BitVec 20} {ar : Area} {b : Word} {n next : Nat} {q s s1 s2 s3 s4 s5 : State}

theorem takeHandle_none (hf : holdsFields ar [(0, hHfree, 0)] s = some s1) : ar.takeHandle.run s = .ok (0, s1) := by
  simp only [holdsFields_cons, holdsFields_nil, exists_eq_right] at hf
  simp only [Area.takeHandle, hm_bind, hf, ok_bind, ne_eq, not_true_eq_false, if_false, hm_pure]

theorem takeHandle_some (hn : n ≠ 0) (hf : holdsFields ar [(0, hHfree, n), (n, bNext, next)] s = some s1)
    (hw : writesFields ar [(0, hHfree, next)] s1 = some s2) : ar.takeHandle.run s = .ok (n, s2) := by
  simp only [holdsFields_cons, holdsFields_nil, exists_eq_right] at hf
  simp only [writesFields_cons, writesFields_nil, exists_eq_right] at hw
  obtain ⟨u1, hfree, hnext⟩ := hf
  simp only [Area.takeHandle, hm_bind, hfree, hnext, hw, ok_bind, ne_eq, hn, not_false_eq_true, if_true, hm_pure]

theorem initRecord_run {slog : Nat} (hz : (uZero ar.pasid (ar.base + 1024 * n) 1024).run s = .ok ((), s1))
    (hw : writesFields ar ([(n, bState, 1), (n, bSlog, slog), (n, bHcnt, 1)] ++
      (List.range 8).map (fun d => (n, bDir d, noPage)) ++ [(n, bCowpg, noPage)]) s1 = some s2) :
    (ar.initRecord n slog).run s = .ok ((), s2) := by
  obtain ⟨u2, hw, hcow⟩ := writesFields_append.mp hw
  obtain ⟨u1, hw, hdirs⟩ := writesFields_append.mp hw
  simp only [writesFields_cons, writesFields_nil, exists_eq_right] at hw hcow
  obtain ⟨v1, hstate, v2, hslog, hhcnt⟩ := hw
  simp only [Area.initRecord, hm_bind, hz, hstate, hslog, hhcnt, writesFields_map hdirs, hcow, ok_bind]

theorem bnewOp_none (h4 : 4 ≤ b.toNat) (h16 : b.toNat ≤ 16) (ha : (needArea pasid 0 0).run q = .ok (ar, s1))
    (hf : holdsFields ar [(0, hHfree, 0)] s1 = some s2) : (bnewOp b pasid).run q = .ok (withStatus 5 0, s2) := by
  have hc : (decide (4 ≤ b.toNat) && decide (b.toNat ≤ 16)) = true := by simp [h4, h16]
  simp only [bnewOp, hm_bind, ha, needH_ok hc, takeHandle_none hf, ok_bind, if_true, hm_pure]

theorem bnewOp_made (h4 : 4 ≤ b.toNat) (h16 : b.toNat ≤ 16) (ha : (needArea pasid 0 0).run q = .ok (ar, s1)) (hn : n ≠ 0)
    (htake : ar.takeHandle.run s1 = .ok (n, s2)) (hinit : (ar.initRecord n b.toNat).run s2 = .ok ((), s3)) :
    (bnewOp b pasid).run q = .ok (withStatus 0 n, s3) := by
  have hc : (decide (4 ≤ b.toNat) && decide (b.toNat ≤ 16)) = true := by simp [h4, h16]
  simp only [bnewOp, hm_bind, ha, needH_ok hc, htake, hinit, ok_bind, hn, if_false, hm_pure]

end

/-! ### BRSV (13 R363) -/

section
variable {pasid : BitVec 20} {ar : Area} {a b : Word} {sid h st first : Nat} {q s1 s2 : State}

section
variable {k : Task} {slot : Nat}

theorem brsvTile_noCopy (hn : (needBolt pasid 0 a).run q = .ok ((ar, h), s1)) (h1 : 1 ≤ b.toNat) (h2 : b.toNat ≤ 4096)
    (hk : s1.task? (tileOf sid) = some k) (hs : k.freeSlot = some slot)
    (hr : (reserve ar h b.toNat).run s1 = .ok ((st, first, none), s2)) :
    (brsvTile sid a b pasid).run q = .ok (
      BitVec.ofNat 64 (st * 2 ^ 56 + ((k.takeSlot slot (numberOf sid) .sequence 0).slotId slot).toNat * 2 ^ 40 + first),
      s2.updTask (tileOf sid) fun _ => (k.takeSlot slot (numberOf sid) .sequence 0).endSlot slot false) := by
  simp only [brsvTile, hm_bind, hn, needCount_ok h1 h2, hm_get, hk, hs, hr, hm_modify, ok_bind, hm_pure]

theorem brsvTile_copy {src dst len : Nat} (hn : (needBolt pasid 0 a).run q = .ok ((ar, h), s1)) (h1 : 1 ≤ b.toNat)
    (h2 : b.toNat ≤ 4096) (hk : s1.task? (tileOf sid) = some k) (hs : k.freeSlot = some slot)
    (hr : (reserve ar h b.toNat).run s1 = .ok ((st, first, some (src, dst, len)), s2)) :
    let k' := k.takeSlot slot (numberOf sid) .sequence 0
    let cw : Cow := { pasid, handle := h, src, dst, len, sid, task := (k'.launch, k'.index),
                      slot := some (slot, (k'.slot slot).gen), first, landed := none, wait := .none }
    (brsvTile sid a b pasid).run q = .ok (
      BitVec.ofNat 64 (st * 2 ^ 56 + (k'.slotId slot).toNat * 2 ^ 40 + first),
      { (s2.updTask (tileOf sid) fun _ => k') with cows := FMap.set s2.cows s2.own cw }) := by
  simp only [brsvTile, hm_bind, hn, needCount_ok h1 h2, hm_get, hk, hs, hr, hm_modify, ok_bind, hm_pure]

end

theorem brsvHead_noCopy (hc : headCow q sid = none) (hn : (needBolt pasid 0 a).run q = .ok ((ar, h), s1)) (h1 : 1 ≤ b.toNat)
    (h2 : b.toNat ≤ 4096) (hr : (reserve ar h b.toNat).run s1 = .ok ((st, first, none), s2)) :
    (brsvHead sid a b pasid).run q = .ok (withStatus st first, s2) := by
  simp only [brsvHead, hm_bind, hm_get, hc, hn, needCount_ok h1 h2, hr, ok_bind, hm_pure]

theorem brsvHead_landed {key : Nat} {cw : Cow} {ok : Bool} (hc : headCow q sid = some (key, cw)) (hl : cw.landed = some ok) :
    (brsvHead sid a b pasid).run q =
      .ok (withStatus (if ok then 0 else 7) cw.first, { q with cows := FMap.erase q.cows key }) := by
  simp only [brsvHead, hm_bind, hm_get, hc, hl, hm_modify, ok_bind, hm_pure]

end

section
variable {ar : Area} {h n rsv fell slog free : Nat} {dirs : Nat} {ents : List (Nat × Nat)} {s1 s2 s3 s4 s5 s6 s7 s8 : State}

/-- A run that would leave the hole window behind. -/
theorem reserve_beyond (hf : holdsFields ar [(h, bRsv, rsv), (h, bFell, fell), (h, bSlog, slog)] s1 = some s2)
    (hlt : fell + 4096 < rsv + n) : (reserve ar h n).run s1 = .ok ((1, rsv, none), s2) := by
  simp only [holdsFields_cons, holdsFields_nil, exists_eq_right] at hf
  obtain ⟨u1, hrsv, u2, hfell, hslog⟩ := hf
  simp only [reserve, hm_bind, hrsv, hfell, hslog, ok_bind, hlt, if_true, hm_pure]

/-- A run beyond the bolt's last slot. -/
theorem reserve_full (hf : holdsFields ar [(h, bRsv, rsv), (h, bFell, fell), (h, bSlog, slog)] s1 = some s2)
    (hle : rsv + n ≤ fell + 4096) (hlt : maxsOf slog < rsv + n) :
    (reserve ar h n).run s1 = .ok ((4, rsv, none), s2) := by
  simp only [holdsFields_cons, holdsFields_nil, exists_eq_right] at hf
  obtain ⟨u1, hrsv, u2, hfell, hslog⟩ := hf
  simp only [reserve, hm_bind, hrsv, hfell, hslog, ok_bind, Nat.not_lt.mpr hle, hlt, if_false, if_true, hm_pure]

/-- The pages of a run of `n` slots from `rsv` on. -/
def runPages (rsv n slog : Nat) : List Nat :=
  (List.range ((rsv + n - 1) / sppOf slog - rsv / sppOf slog + 1)).map (rsv / sppOf slog + ·)

/-- The entries of those pages for which the run needs a page of its own. -/
def runNeeds (ents : List (Nat × Nat)) : List (Nat × Nat) := ents.filter fun e => !entV e.2 || entCow e.2

section
variable (hf : holdsFields ar [(h, bRsv, rsv), (h, bFell, fell), (h, bSlog, slog)] s1 = some s2)
  (hle : rsv + n ≤ fell + 4096) (hmax : rsv + n ≤ maxsOf slog)
  (hents : (ar.entries h (runPages rsv n slog)).run s2 = .ok (ents, s3))
  (hdirs : (ar.absentDirs h ((runNeeds ents).map (·.1))).run s3 = .ok (dirs, s4))
  (hfree : holdsFields ar [(0, hNfree, free)] s4 = some s5)
include hf hle hmax hents hdirs hfree

/-- A run within its bounds: too few pages are free, or it gets its pages and the bolt its new RSV. -/
theorem reserve_pages :
    (free < (runNeeds ents).length + dirs → (reserve ar h n).run s1 = .ok ((2, rsv, none), s5)) ∧
    ((runNeeds ents).length + dirs ≤ free → ((runNeeds ents).forM (ar.ownPage h)).run s5 = .ok ((), s6) →
      writesFields ar [(h, bRsv, rsv + n)] s6 = some s7 →
      ((runNeeds ents).find? (fun e => entCow e.2) = none → (reserve ar h n).run s1 = .ok ((0, rsv, none), s7)) ∧
      (∀ e own, (runNeeds ents).find? (fun e => entCow e.2) = some e → (ar.entry h e.1).run s7 = .ok (own, s8) →
        (reserve ar h n).run s1 = .ok ((0, rsv, some (entPage e.2, entPage own, entCowlim e.2 * 2 ^ slog)), s8))) := by
  simp only [holdsFields_cons, holdsFields_nil, writesFields_cons, writesFields_nil, exists_eq_right] at hf hfree ⊢
  obtain ⟨u1, hrsv, u2, hfell, hslog⟩ := hf
  simp only [runPages] at hents
  simp only [runNeeds] at hdirs ⊢
  have hle := Nat.not_lt.mpr hle
  have hmax := Nat.not_lt.mpr hmax
  refine ⟨fun hlt => ?_, fun hroom hown hput => ⟨fun hnone => ?_, fun e own hsome hent => ?_⟩⟩
  · simp only [reserve, hm_bind, hrsv, hfell, hslog, hents, hdirs, hfree, ok_bind, hle, hmax, hlt, if_false, if_true, hm_pure]
  · simp only [reserve, hm_bind, hrsv, hfell, hslog, hents, hdirs, hfree, hown, hput, hnone, ok_bind, hle, hmax,
      Nat.not_lt.mpr hroom, if_false, hm_pure]
  · simp only [reserve, hm_bind, hrsv, hfell, hslog, hents, hdirs, hfree, hown, hput, hsome, hent, ok_bind, hle, hmax,
      Nat.not_lt.mpr hroom, if_false, hm_pure]

end
end

/-! ### BCMT and BVOID (13 R353, R364) -/

/-- A slot of a run closed, and counted when it was open. -/
def closeStep (x : Nat × Nat × Nat) (s : Nat) : Nat × Nat × Nat :=
  if isClosed x.1 x.2.1 s then x else ((closeSlot x.1 x.2.1 s).1, (closeSlot x.1 x.2.1 s).2, x.2.2 + 1)

section
variable {pasid : BitVec 20} {ar : Area} {a b c : Word} {h rsv slog hole fell : Nat} {q s s1 s2 s3 s4 : State}

/-- Without headers to write, closing touches no memory. -/
theorem closeRun_none (l : List Nat) (x : Nat × Nat × Nat) :
    (closeRun ar h slog none l x).run s = .ok (l.foldl closeStep x, s) := by
  induction l generalizing x with
  | nil => rfl
  | cons i l ih =>
    obtain ⟨hole, fell, new⟩ := x
    rw [closeRun, List.foldl_cons, closeStep]
    split
    · exact ih _
    · exact ih _

theorem closeOp_run {void : Option Nat} {x : Nat × Nat × Nat} (hn : (needBolt pasid b.toNat a).run q = .ok ((ar, h), s1))
    (hb : b.toNat < 2 ^ 32) (h1 : 1 ≤ c.toNat) (h2 : c.toNat ≤ 4096)
    (hf : holdsFields ar [(h, bRsv, rsv), (h, bSlog, slog), (h, bHole, hole), (h, bFell, fell)] s1 = some s2)
    (hle : b.toNat + c.toNat ≤ rsv)
    (hx : (closeRun ar h slog void ((List.range c.toNat).map (b.toNat + ·)) (hole, fell, 0)).run s2 = .ok (x, s3))
    (hw : writesFields ar [(h, bHole, x.1), (h, bFell, x.2.1)] s3 = some s4) :
    (closeOp void a b c pasid).run q = .ok (withStatus (if x.2.2 < c.toNat then 3 else 0) x.2.2, s4) := by
  simp only [holdsFields_cons, holdsFields_nil, writesFields_cons, writesFields_nil, exists_eq_right] at hf hw
  obtain ⟨u1, hrsv, u2, hslog, u3, hhole, hfell⟩ := hf
  obtain ⟨u4, hphole, hpfell⟩ := hw
  simp only [closeOp, hm_bind, hn, need32_ok hb, needCount_ok h1 h2, hrsv, needH_ok (decide_eq_true hle), hslog, hhole, hfell,
    hx, hphole, hpfell, ok_bind, hm_pure]

end

/-! ### BFELL and BWAIT (13 R365) -/

section
variable {pasid : BitVec 20} {ar : Area} {a b c : Word} {h fell : Nat} {q s1 s2 : State}
  (hn : (needBolt pasid 0 a).run q = .ok ((ar, h), s1)) (hf : holdsFields ar [(h, bFell, fell)] s1 = some s2)
include hn hf

theorem bfellOp_run : (bfellOp a pasid).run q = .ok (BitVec.ofNat 64 fell, s2) := by
  simp only [holdsFields_cons, holdsFields_nil, exists_eq_right] at hf
  simp only [bfellOp, hm_bind, hn, hf, ok_bind, hm_pure]

theorem bwaitOp_reached (hb : b.toNat < 2 ^ 32) (hle : b.toNat ≤ fell) (timeUp : Bool) (cycle : Nat) :
    (bwaitOp a b c timeUp cycle pasid).run q = .ok (withStatus 0 fell, s2) := by
  simp only [holdsFields_cons, holdsFields_nil, exists_eq_right] at hf
  simp only [bwaitOp, hm_bind, hn, need32_ok hb, hf, ok_bind, hle, if_true, hm_pure]

theorem bwaitOp_below (hb : b.toNat < 2 ^ 32) (hlt : fell < b.toNat) (cycle : Nat) :
    (bwaitOp a b c true cycle pasid).run q = .ok (withStatus 6 fell, s2) ∧
      (bwaitOp a b c false cycle pasid).run q =
        .error (.halt (.hold s2 .bwait (if c = 0 then none else some (cycle + c.toNat)))) := by
  simp only [holdsFields_cons, holdsFields_nil, exists_eq_right] at hf
  simp only [bwaitOp, hm_bind, hn, need32_ok hb, hf, ok_bind, Nat.not_le.mpr hlt, if_false, if_true, hm_pure, hm_get, hm_halt,
    Bool.false_eq_true, and_self]

end

/-! ### Forks and references (13 R366 to R368) -/

section
variable {pasid : BitVec 20} {ar : Area} {a b : Word} {h n : Nat} {q s1 s2 s3 s4 s5 s6 s7 s8 : State}

/-- A fork whose checks pass answers what becomes of it. -/
theorem bforkOp_run {floor fell st child : Nat} (hn : (needBolt pasid 0 a).run q = .ok ((ar, h), s1))
    (hb : b.toNat < 2 ^ 32) (hf : holdsFields ar [(h, bFloor, floor), (h, bFell, fell)] s1 = some s2)
    (hlo : floor ≤ b.toNat) (hhi : b.toNat ≤ fell) (hc : copying pasid h s2 = false)
    (hx : (forkBolt ar h b.toNat).run s2 = .ok ((st, child), s3)) :
    (bforkOp a b pasid).run q = .ok (withStatus st child, s3) := by
  simp only [holdsFields_cons, holdsFields_nil, exists_eq_right] at hf
  obtain ⟨u1, hfloor, hfell⟩ := hf
  simp only [bforkOp, needFork, hm_bind, hn, need32_ok hb, hfloor, needH_ok (decide_eq_true hlo), hfell,
    needH_ok (decide_eq_true hhi), needLanded_ok hc, hx, ok_bind, hm_pure]

theorem forkBolt_noHandle {k : Nat} (hf : holdsFields ar [(0, hHfree, 0)] s2 = some s3) :
    (forkBolt ar h k).run s2 = .ok ((5, 0), s3) := by
  simp only [holdsFields_cons, holdsFields_nil, exists_eq_right] at hf
  simp only [forkBolt, hm_bind, hf, ok_bind, if_true, hm_pure]

/-- How many directories a fork's pages need. -/
def forkDirs (ps : List (Nat × Nat)) : Nat := ((List.range 8).filter fun d => ps.any fun e => e.1 / 16384 == d).length

section
variable {k slog free : Nat} {ps : List (Nat × Nat)} (h0 : n ≠ 0)
  (hf : holdsFields ar [(0, hHfree, n), (h, bSlog, slog)] s2 = some s3)
  (hps : (ar.validEntries h ((k + sppOf slog - 1) / sppOf slog)).run s3 = .ok (ps, s4))
  (hfree : holdsFields ar [(0, hNfree, free)] s4 = some s5)
include h0 hf hps hfree

theorem forkBolt_noPages (hlt : free < forkDirs ps) : (forkBolt ar h k).run s2 = .ok ((2, 0), s5) := by
  simp only [holdsFields_cons, holdsFields_nil, exists_eq_right] at hf hfree
  obtain ⟨u1, hhandle, hslog⟩ := hf
  simp only [forkDirs] at hlt
  simp only [forkBolt, hm_bind, hhandle, h0, hslog, hps, hfree, ok_bind, hlt, if_false, if_true, hm_pure]

theorem forkBolt_made {floor next : Nat} (hroom : forkDirs ps ≤ free)
    (hg : holdsFields ar [(h, bFloor, floor), (0, hHfree, n), (n, bNext, next)] s5 = some s6)
    (hw : writesFields ar [(0, hHfree, next)] s6 = some s7) (hc : (ar.fillChild n slog floor k ps).run s7 = .ok ((), s8)) :
    (forkBolt ar h k).run s2 = .ok ((0, n), s8) := by
  obtain ⟨u2, hfloor, hg⟩ := holdsFields_cons.mp hg
  simp only [holdsFields_cons, holdsFields_nil, exists_eq_right] at hf hfree
  obtain ⟨u1, hhandle, hslog⟩ := hf
  simp only [forkDirs] at hroom
  simp only [forkBolt, hm_bind, hhandle, h0, hslog, hps, hfree, hfloor, takeHandle_some h0 hg hw, hc, ok_bind,
    Nat.not_lt.mpr hroom, if_false, hm_pure]

end

theorem bholdOp_run (hn : (needBolt pasid 0 a).run q = .ok ((ar, h), s1)) (hf : holdsFields ar [(h, bHcnt, n)] s1 = some s2)
    (hlt : n < 0xFFFFFFFF) (hw : writesFields ar [(h, bHcnt, n + 1)] s2 = some s3) : (bholdOp a pasid).run q = .ok (0, s3) := by
  simp only [holdsFields_cons, holdsFields_nil, writesFields_cons, writesFields_nil, exists_eq_right] at hf hw
  simp only [bholdOp, holdBolt, hm_bind, hn, hf, needH_ok (decide_eq_true hlt), hw, ok_bind, hm_pure]

section
variable (hn : (needBolt pasid 0 a).run q = .ok ((ar, h), s1)) (hf : holdsFields ar [(h, bHcnt, n)] s1 = some s2)
  (hc : copying pasid h s1 = false) (hw : writesFields ar [(h, bHcnt, n - 1)] s2 = some s3)
include hn hf hc hw

theorem brelOp_counts (hne : n - 1 ≠ 0) : (brelOp a pasid).run q = .ok (BitVec.ofNat 64 (n - 1), s3) := by
  simp only [holdsFields_cons, holdsFields_nil, writesFields_cons, writesFields_nil, exists_eq_right] at hf hw
  simp only [brelOp, releaseBolt, hm_bind, hn, needLanded_ok hc, hf, hw, ok_bind, hne, if_false, hm_pure]

/-- The last handle's release destroys the bolt. -/
theorem brelOp_destroys (h0 : n - 1 = 0) (hd : (ar.destroy h).run s3 = .ok ((), s4)) :
    (brelOp a pasid).run q = .ok (0, s4) := by
  simp only [holdsFields_cons, holdsFields_nil, writesFields_cons, writesFields_nil, exists_eq_right, h0] at hf hw
  simp only [brelOp, releaseBolt, hm_bind, hn, needLanded_ok hc, hf, h0, hw, hd, ok_bind, if_true, hm_pure]
  rfl

end
end

/-! ### BSTAT (13 R353, R372) -/

section
variable {pasid : BitVec 20} {ar : Area} {a b : Word} {h : Nat} {q s s1 s2 s3 s4 s5 : State}

/-- The fields that BSTAT reads, by their codes. -/
theorem bstatOp_field {aux : BitVec 4} {v : Nat} {k : RecField}
    (hk : (aux, k) ∈ [((0 : BitVec 4), bRsv), (1, bFell), (2, bFloor), (3, bHcnt), (4, bNpages), (6, bSlog)])
    (hn : (needBolt pasid 0 a).run q = .ok ((ar, h), s1)) (hf : holdsFields ar [(h, k, v)] s1 = some s2) :
    (bstatOp aux a b pasid).run q = .ok (BitVec.ofNat 64 v, s2) := by
  simp only [holdsFields_cons, holdsFields_nil, exists_eq_right] at hf
  simp only [List.mem_cons, Prod.mk.injEq, List.not_mem_nil, or_false] at hk
  rcases hk with ⟨rfl, rfl⟩ | ⟨rfl, rfl⟩ | ⟨rfl, rfl⟩ | ⟨rfl, rfl⟩ | ⟨rfl, rfl⟩ | ⟨rfl, rfl⟩
  all_goals
    simp [bstatOp, hn, hf, ok_bind]

theorem bstatOp_slot {v : Nat} (hn : (needBolt pasid b.toNat a).run q = .ok ((ar, h), s1)) (hb : b.toNat < 2 ^ 32)
    (hc : (slotCode ar h b.toNat).run s1 = .ok (v, s2)) : (bstatOp 5 a b pasid).run q = .ok (BitVec.ofNat 64 v, s2) := by
  simp only [bstatOp, if_true, hm_bind, hn, ok_bind]
  simp [need32_ok hb, hc, ok_bind]

section
variable {fell rsv slot : Nat} (hf : holdsFields ar [(h, bFell, fell), (h, bRsv, rsv)] s1 = some s2)
include hf

theorem slotCode_free (hle : rsv ≤ slot) : (slotCode ar h slot).run s1 = .ok (0, s2) := by
  simp only [holdsFields_cons, holdsFields_nil, exists_eq_right] at hf
  obtain ⟨u1, hfell, hrsv⟩ := hf
  simp only [slotCode, hm_bind, hfell, hrsv, ok_bind, hle, if_true, hm_pure]

variable (hlt : slot < rsv)
include hlt

theorem slotCode_open {hole : Nat} (hle : fell ≤ slot) (hg : holdsFields ar [(h, bHole, hole)] s2 = some s3) :
    (slotCode ar h slot).run s1 = .ok (if hole.testBit (slot - fell) then 2 else 1, s3) := by
  simp only [holdsFields_cons, holdsFields_nil, exists_eq_right] at hf hg
  obtain ⟨u1, hfell, hrsv⟩ := hf
  simp only [slotCode, hm_bind, hfell, hrsv, hg, ok_bind, Nat.not_le.mpr hlt, hle, if_false, if_true, hm_pure]

variable {floor : Nat} (hfl : slot < fell) (hg : holdsFields ar [(h, bFloor, floor)] s2 = some s3)
include hfl hg

theorem slotCode_felled (hle : floor ≤ slot) : (slotCode ar h slot).run s1 = .ok (3, s3) := by
  simp only [holdsFields_cons, holdsFields_nil, exists_eq_right] at hf hg
  obtain ⟨u1, hfell, hrsv⟩ := hf
  simp only [slotCode, hm_bind, hfell, hrsv, hg, ok_bind, Nat.not_le.mpr hlt, Nat.not_le.mpr hfl, hle, if_false, if_true,
    hm_pure]

theorem slotCode_retired {slog e : Nat} (hr : slot < floor) (hs : holdsFields ar [(h, bSlog, slog)] s3 = some s4)
    (he : (ar.entry h (slot / sppOf slog)).run s4 = .ok (e, s5)) :
    (slotCode ar h slot).run s1 = .ok (if entPin e then 4 else 5, s5) := by
  simp only [holdsFields_cons, holdsFields_nil, exists_eq_right] at hf hg hs
  obtain ⟨u1, hfell, hrsv⟩ := hf
  simp only [slotCode, hm_bind, hfell, hrsv, hg, hs, he, ok_bind, Nat.not_le.mpr hlt, Nat.not_le.mpr hfl, Nat.not_le.mpr hr,
    if_false, hm_pure]

end
end

/-! ### Retirement and anchors (13 R369, R370) -/

section
variable {pasid : BitVec 20} {ar : Area} {a b : Word} {h : Nat} {q s1 s2 s3 s4 s5 s6 s7 s8 s9 s10 : State}

section
variable {fell floor : Nat} (hn : (needBolt pasid 0 a).run q = .ok ((ar, h), s1)) (hb : b.toNat < 2 ^ 32)
  (hf : holdsFields ar [(h, bFell, fell), (h, bFloor, floor)] s1 = some s2) (hle : b.toNat ≤ fell)
include hn hb hf hle

theorem bretireOp_below (hfl : b.toNat ≤ floor) : (bretireOp a b pasid).run q = .ok (0, s2) := by
  simp only [holdsFields_cons, holdsFields_nil, exists_eq_right] at hf
  obtain ⟨u1, hfell, hfloor⟩ := hf
  simp only [bretireOp, hm_bind, hn, need32_ok hb, hfell, needH_ok (decide_eq_true hle), hfloor, ok_bind, hfl, if_true, hm_pure]

theorem bretireOp_raises {slog n : Nat} {ents : List (Nat × Nat)} (hfl : floor < b.toNat)
    (hw : writesFields ar [(h, bFloor, b.toNat)] s2 = some s3) (hs : holdsFields ar [(h, bSlog, slog)] s3 = some s4)
    (he : (ar.validEntries h (b.toNat / sppOf slog)).run s4 = .ok (ents, s5))
    (hr : (ar.retire h (ents.filter fun e => !entPin e.2)).run s5 = .ok ((), s6))
    (hg : holdsFields ar [(h, bNpages, n)] s6 = some s7)
    (hp : writesFields ar [(h, bNpages, n - (ents.filter fun e => !entPin e.2).length)] s7 = some s8) :
    (bretireOp a b pasid).run q = .ok (BitVec.ofNat 64 (ents.filter fun e => !entPin e.2).length, s8) := by
  simp only [holdsFields_cons, holdsFields_nil, writesFields_cons, writesFields_nil, exists_eq_right] at hf hw hs hg hp
  obtain ⟨u1, hfell, hfloor⟩ := hf
  simp only [bretireOp, hm_bind, hn, need32_ok hb, hfell, needH_ok (decide_eq_true hle), hfloor, hw, hs, he, hr, hg, hp, ok_bind,
    Nat.not_le.mpr hfl, if_false, hm_pure]

end

section
variable {rsv slog e : Nat}

/-- The page of a slot that may be pinned. -/
theorem pinPage_run (hn : (needBolt pasid b.toNat a).run q = .ok ((ar, h), s1)) (hb : b.toNat < 2 ^ 32)
    (hf : holdsFields ar [(h, bRsv, rsv), (h, bSlog, slog)] s1 = some s2) (hlt : b.toNat < rsv)
    (he : (ar.entry h (b.toNat / sppOf slog)).run s2 = .ok (e, s3)) (hv : entV e = true) :
    (pinPage a b pasid).run q = .ok ((ar, h, b.toNat / sppOf slog, e), s3) := by
  simp only [holdsFields_cons, holdsFields_nil, exists_eq_right] at hf
  obtain ⟨u1, hrsv, hslog⟩ := hf
  simp only [pinPage, hm_bind, hn, need32_ok hb, hrsv, needH_ok (decide_eq_true hlt), hslog, he, needH_ok hv, ok_bind, hm_pure]

variable {p : Nat} (hpage : (pinPage a b pasid).run q = .ok ((ar, h, p, e), s3))
include hpage

theorem pinOp_pinned (hp : entPin e = true) : (pinOp a b pasid).run q = .ok (0, s3) := by
  simp only [pinOp, hm_bind, hpage, hp, ok_bind, Bool.not_true, Bool.false_eq_true, if_false, hm_pure]

theorem pinOp_pins {n : Nat} (hp : entPin e = false) (hf : holdsFields ar [(h, bNpins, n)] s3 = some s4) (hlt : n < 64)
    (hw : writesFields ar [(h, bNpins, n + 1)] s4 = some s5) (he : (ar.putEntry h p (e + 2)).run s5 = .ok ((), s6)) :
    (pinOp a b pasid).run q = .ok (0, s6) := by
  simp only [holdsFields_cons, holdsFields_nil, writesFields_cons, writesFields_nil, exists_eq_right] at hf hw
  simp only [pinOp, hm_bind, hpage, hp, hf, needH_ok (decide_eq_true hlt), hw, he, ok_bind, Bool.not_false, if_true, hm_pure]

theorem unpinOp_unpinned (hp : entPin e = false) : (unpinOp a b pasid).run q = .ok (0, s3) := by
  simp only [unpinOp, hm_bind, hpage, hp, ok_bind, Bool.false_eq_true, if_false, hm_pure]

section
variable {n floor : Nat} (hp : entPin e = true) (hf : holdsFields ar [(h, bNpins, n)] s3 = some s4)
  (hw : writesFields ar [(h, bNpins, n - 1)] s4 = some s5)
  (hg : holdsFields ar [(h, bSlog, slog), (h, bFloor, floor)] s5 = some s6)
include hp hf hw hg

theorem unpinOp_keeps (hlt : floor < (p + 1) * sppOf slog) (he : (ar.putEntry h p (e - 2)).run s6 = .ok ((), s7)) :
    (unpinOp a b pasid).run q = .ok (0, s7) := by
  simp only [holdsFields_cons, holdsFields_nil, writesFields_cons, writesFields_nil, exists_eq_right] at hf hw hg
  obtain ⟨u1, hslog, hfloor⟩ := hg
  simp only [unpinOp, hm_bind, hpage, hp, hf, hw, hslog, hfloor, he, ok_bind, Nat.not_le.mpr hlt, if_true, if_false, hm_pure]

theorem unpinOp_releases {m : Nat} (hle : (p + 1) * sppOf slog ≤ floor) (hr : (ar.release (entPage e)).run s6 = .ok ((), s7))
    (he : (ar.putEntry h p 0).run s7 = .ok ((), s8)) (hm : holdsFields ar [(h, bNpages, m)] s8 = some s9)
    (hv : writesFields ar [(h, bNpages, m - 1)] s9 = some s10) : (unpinOp a b pasid).run q = .ok (0, s10) := by
  simp only [holdsFields_cons, holdsFields_nil, writesFields_cons, writesFields_nil, exists_eq_right] at hf hw hg hm hv
  obtain ⟨u1, hslog, hfloor⟩ := hg
  simp only [unpinOp, hm_bind, hpage, hp, hf, hw, hslog, hfloor, hr, he, hm, hv, ok_bind, hle, if_true, hm_pure]

end
end
end

/-! ### TMLOAD, and BADDR on the headstock (13 R371, R373) -/

section
variable {pasid : BitVec 20} {ar : Area} {a b : Word} {h rsv slog e floor va sid : Nat} {u : Strand}
  {q s1 s2 s3 s4 s5 s6 s7 s8 : State}

theorem tmPage_run (hn : (needBolt pasid b.toNat a).run q = .ok ((ar, h), s1)) (hb : b.toNat < 2 ^ 32)
    (hf : holdsFields ar [(h, bRsv, rsv), (h, bSlog, slog)] s1 = some s2) (hlt : b.toNat < rsv)
    (he : (ar.entry h (b.toNat / sppOf slog)).run s2 = .ok (e, s3)) (hg : holdsFields ar [(h, bFloor, floor)] s3 = some s4)
    (hlive : floor ≤ b.toNat ∨ entPin e = true) (hc : copying pasid h s4 = false)
    (hva : (ar.pageVa (entPage e)).run s4 = .ok (va, s5)) :
    (tmPage a b pasid).run q = .ok ({ ar, h, slog, s := b.toNat, b := b.toNat / sppOf slog, e, rsv, va }, s5) := by
  have hlive' : (decide (floor ≤ b.toNat) || entPin e) = true := by simpa using hlive
  simp only [holdsFields_cons, holdsFields_nil, exists_eq_right] at hf hg
  obtain ⟨u1, hrsv, hslog⟩ := hf
  simp only [tmPage, hm_bind, hn, need32_ok hb, hrsv, needH_ok (decide_eq_true hlt), hslog, he, hg, needH_ok hlive',
    needLanded_ok hc, hva, ok_bind, hm_pure]

theorem tmTranslate_run {x : TlbEnt} (hx : translate s5 (agentOf s5 sid u) va .load = (.ok x, s6)) :
    (tmTranslate sid u va).run s5 = .ok ((), s6) := by
  simp only [tmTranslate, hm_bind, hm_get, ok_bind, hx, hm_set]

/-- BADDR on the headstock answers the address of its slot in the page. -/
theorem baddrHeadOp_run {p : TmPage} (hp : (tmPage a b pasid).run q = .ok (p, s5))
    (ht : (tmTranslate sid u p.va).run s5 = .ok ((), s6)) :
    (baddrHeadOp sid u a b pasid).run q = .ok (BitVec.ofNat 64 (p.va + p.s % sppOf p.slog * 2 ^ p.slog), s6) := by
  simp only [baddrHeadOp, hm_bind, hp, ht, ok_bind, hm_pure]

section
variable {p : TmPage} {lock : Bool} (hp : (tmPage a b pasid).run q = .ok (p, s5))
  (ht : (tmTranslate sid u p.va).run s5 = .ok ((), s6)) (href : (p.ar.reference (entPage p.e)).run s6 = .ok ((), s7))
include hp ht href

theorem tmloadOp_adds (hv : tmVictim (tmOf s6 sid) (tmEntry p lock) = some none) :
    (tmloadOp sid u lock a b pasid).run q =
      .ok (BitVec.ofNat 64 p.va, s7.setTm sid (tmOf s6 sid ++ [tmEntry p lock])) := by
  simp only [tmloadOp, hm_bind, hp, ht, hm_get, hv, href, hm_modify, ok_bind, hm_pure]

theorem tmloadOp_replaces {v : TmEnt} (hv : tmVictim (tmOf s6 sid) (tmEntry p lock) = some (some v))
    (hr : (tmRelease p.ar v).run s7 = .ok ((), s8)) :
    (tmloadOp sid u lock a b pasid).run q = .ok (BitVec.ofNat 64 p.va, s8.setTm sid ((tmOf s6 sid).erase v ++
      [{ tmEntry p lock with lock :=
          lock || (v.handle == (tmEntry p lock).handle && v.base == (tmEntry p lock).base && v.lock) }])) := by
  simp only [tmloadOp, hm_bind, hp, ht, hm_get, hv, href, hr, hm_modify, ok_bind, hm_pure]

end
end

/-! ### The landing of a copy (13 R363) -/

section
variable {s u1 u2 u3 : State} {key : Nat} {k : Cow} {ar : Area}

theorem runEvent_ok {m : Hm Unit} (h : m.run s = .ok ((), u1)) (pasid : BitVec 20) (agent : FaultAgent)
    (wait : FaultWait → State → State) : runEvent pasid agent wait m s = u1 := by
  have h' : m s = .ok ((), u1) := h
  rw [runEvent, h']

theorem exec_cowCopyLand (hk : FMap.get? s.cows key = some k) (hl : k.landed = none) (hw : k.wait = .none)
    (ha : (needArea k.pasid 0 0).run s = .ok (ar, u1)) (hm : (cowMove ar k).run u1 = .ok ((), u2))
    (hf : (cowFinish key k none).run u2 = .ok ((), u3)) : exec (.cowCopyLand key) s = .next u3 := by
  refine (rfl : _ = execCowCopyLand key s).trans ?_
  simp only [execCowCopyLand, hk, hl, hw]
  rw [runEvent_ok]
  simp only [hm_bind, ha, hm, ok_bind, hf]

/-- What two operations in sequence have done, when they answer. -/
theorem hm_bind_inv {α β : Type} {m : Hm α} {g : α → Hm β} {q q' : State} {b : β} (h : (m >>= g).run q = .ok (b, q')) :
    ∃ a q1, m.run q = .ok (a, q1) ∧ (g a).run q1 = .ok (b, q') := by
  rw [hm_bind] at h
  cases hr : m.run q with
  | error e => rw [hr] at h; cases h
  | ok r => rw [hr] at h; exact ⟨r.1, r.2, rfl, h⟩

theorem modify_last {m : Hm Unit} {g : State → State} {q q' : State}
    (h : (m >>= fun _ => modify g).run q = .ok ((), q')) : ∃ q1, g q1 = q' := by
  obtain ⟨_, q1, -, h⟩ := hm_bind_inv h
  cases h
  exact ⟨q1, rfl⟩

/-- A copy with a completion object is gone once it has ended. -/
theorem cowFinish_erases {sl : Nat × BitVec 8} {failed : Option Word} (hs : k.slot = some sl)
    (hf : (cowFinish key k failed).run u2 = .ok ((), u3)) : FMap.get? u3.cows key = none := by
  unfold cowFinish at hf
  rw [hs] at hf
  obtain ⟨area, q1, -, hf⟩ := hm_bind_inv hf
  cases area with
  | none =>
    obtain ⟨q, rfl⟩ := modify_last (m := cowEnd k failed) hf
    exact FMap.get?_erase_self _ _
  | some ar =>
    obtain ⟨_, q2, -, hf⟩ := hm_bind_inv hf
    obtain ⟨q, rfl⟩ := modify_last (m := cowEnd k failed) hf
    exact FMap.get?_erase_self _ _

end

end Sys2Proof.Machine
end

section
namespace Sys2Proof.Machine

theorem brsvRow_tile {fl : FormQ} {q : State} {u : Strand} (hh : isHead q.sid = false) :
    brsvRow.op fl q u = brsvTile q.sid (u.xa fl.a) (u.xa fl.b) (q.pasidOf q.sid) := if_neg (Bool.not_eq_true _ ▸ hh)

theorem brsvRow_head {fl : FormQ} {q : State} {u : Strand} (hh : isHead q.sid = true) :
    brsvRow.op fl q u = brsvHead q.sid (u.xa fl.a) (u.xa fl.b) (q.pasidOf q.sid) := if_pos hh

/-- Settles O44: each row answers what its operation answers when it is run, case by case. -/
theorem boltOperations : Obligations.BoltOperations := by
  intro fl s q s1 s2 s3 s4 s5 s6 s7 s8 s9 s10 f r t u ar h pasid sid a b c starts answers named count
  have rows : ∀ row ∈ boltRows, ∀ {w : Word} {s' : State}, starts row → (row.op fl q u).run q = .ok (w, s') →
      answers row w s' :=
    fun row hr _ _ hs => home_answers hs (List.mem_append_left _ hr)
  simp only [boltRows, List.forall_mem_cons] at rows
  obtain ⟨bnew, brsv, bcmt, bvoid, bfell, bwait, bfork, bhold, brel, bstat, bretire, bpin, bunpin, tmload, -⟩ := rows
  refine ⟨?_, ?_, ?_, ?_, ?_, ?_, ?_, ?_, ?_, ?_, ?_, ?_⟩
  · exact fun hs h4 h16 ha => ⟨fun hf => bnew hs (bnewOp_none h4 h16 ha hf), fun n next hn hf hw hz hi =>
      bnew hs (bnewOp_made h4 h16 ha hn (takeHandle_some hn hf hw) (initRecord_run hz hi))⟩
  · intro hs hn h1 h2 st first copy hr
    refine ⟨fun k slot hh hk hslot => ⟨?_, ?_⟩, ?_⟩
    · rintro rfl
      refine brsv hs ?_
      rw [brsvRow_tile hh]
      exact brsvTile_noCopy hn h1 h2 hk hslot hr
    · rintro src dst len rfl
      refine brsv hs ?_
      rw [brsvRow_tile hh]
      exact brsvTile_copy hn h1 h2 hk hslot hr
    · rintro hh hc rfl
      refine brsv hs ?_
      rw [brsvRow_head hh]
      exact brsvHead_noCopy hc hn h1 h2 hr
  · intro key cw ok hs hh hc hl
    refine brsv hs ?_
    rw [brsvRow_head hh]
    exact brsvHead_landed hc hl
  · exact fun n rsv fell slog hf => ⟨reserve_beyond hf, reserve_full hf, fun ents dirs free hle hmax hents hdirs hfree =>
      reserve_pages hf hle hmax hents hdirs hfree⟩
  · intro rsv slog hole fell hn hb h1 h2 hf hle
    refine ⟨fun hs hw => bcmt hs ?_, fun x hs hx hw => bvoid hs (closeOp_run hn hb h1 h2 hf hle hx hw)⟩
    have hfold := closeRun_none (ar := ar) (h := h) (slog := slog) (s := s2) ((List.range c).map (b + ·)) (hole, fell, 0)
    rw [List.foldl_map] at hfold
    exact closeOp_run hn hb h1 h2 hf hle hfold hw
  · exact fun fell hn hf => ⟨fun hs => bfell hs (bfellOp_run hn hf),
      fun hs hb hle => bwait hs (bwaitOp_reached hn hf hb hle _ _), fun hb hlt => bwaitOp_below hn hf hb hlt⟩
  · exact fun floor fell hs hn hb hf hlo hhi hc =>
      ⟨fun hg => bfork hs (bforkOp_run hn hb hf hlo hhi hc (forkBolt_noHandle hg)),
        fun n slog ps free h0 hg hps hfree =>
          ⟨fun hlt => bfork hs (bforkOp_run hn hb hf hlo hhi hc (forkBolt_noPages h0 hg hps hfree hlt)),
            fun next hroom hg2 hw hchild =>
              bfork hs (bforkOp_run hn hb hf hlo hhi hc (forkBolt_made h0 hg hps hfree hroom hg2 hw hchild))⟩⟩
  · exact fun n hn hf => ⟨fun hs hlt hw => bhold hs (bholdOp_run hn hf hlt hw), fun hs hc hw =>
      ⟨fun hne => brel hs (brelOp_counts hn hf hc hw hne), fun h0 hd => brel hs (brelOp_destroys hn hf hc hw h0 hd)⟩⟩
  · intro hs
    refine ⟨fun p hp v haux hn hf => ?_, fun fell rsv haux hn hb hf => ?_⟩
    · refine bstat hs (bstatOp_field ?_ hn hf)
      rw [haux]
      exact hp
    · have slot : ∀ {code : Nat} {s' : State}, (slotCode ar h b).run s1 = .ok (code, s') →
          answers bstatRow (count code) s' := by
        intro code s' hc
        refine bstat hs ?_
        have h5 := bstatOp_slot hn hb hc
        rw [← haux] at h5
        exact h5
      refine ⟨fun hle => slot (slotCode_free hf hle), fun hole hlt hle hg => ?_, fun floor hlt hfl hg =>
        ⟨fun hle => slot (slotCode_felled hf hlt hfl hg hle), fun slog e hr hg2 he => ?_⟩⟩
      · have hcode := slot (slotCode_open hf hlt hle hg)
        rw [apply_ite count] at hcode
        exact hcode
      · have hcode := slot (slotCode_retired hf hlt hfl hg hr hg2 he)
        rw [apply_ite count] at hcode
        exact hcode
  · exact fun fell floor hs hn hb hf hle => ⟨fun hfl => bretire hs (bretireOp_below hn hb hf hle hfl),
      fun slog ents n hfl hw hg he hr hg2 hp => bretire hs (bretireOp_raises hn hb hf hle hfl hw hg he hr hg2 hp)⟩
  · intro rsv slog e hn hb hf hlt p he
    refine ⟨fun hv => ?_, fun floor va x hg hlive hc hva hx => ?_⟩
    · have hpage := pinPage_run hn hb hf hlt he hv
      exact ⟨fun hs => ⟨fun hp => bpin hs (pinOp_pinned hpage hp),
          fun n hp hg hlt hw he => bpin hs (pinOp_pins hpage hp hg hlt hw he)⟩,
        fun hs => ⟨fun hp => bunpin hs (unpinOp_unpinned hpage hp), fun n floor hp hg hw hg2 =>
          ⟨fun hlt he => bunpin hs (unpinOp_keeps hpage hp hg hw hg2 hlt he),
            fun m hle hr he hg3 hw2 => bunpin hs (unpinOp_releases hpage hp hg hw hg2 hle hr he hg3 hw2)⟩⟩⟩
    · have hpage := tmPage_run hn hb hf hlt he hg hlive hc hva
      have ht := tmTranslate_run hx
      exact ⟨fun hs hh => baddrHead_answers hs hh (baddrHeadOp_run hpage ht), fun hs href =>
        ⟨fun hv => tmload hs (tmloadOp_adds hpage ht href hv),
          fun v hv hr => tmload hs (tmloadOp_replaces hpage ht href hv hr)⟩⟩
  · exact fun key k ar2 u1 u2 u3 hk hl hw ha hm hf =>
      ⟨exec_cowCopyLand hk hl hw ha hm hf, fun sl hs => cowFinish_erases hs hf⟩

end Sys2Proof.Machine
end

section
namespace Sys2Proof.Machine

/-! ### Class 6 on a stream (14 R397, R403 to R408) -/

theorem stream_of_live {s : State} {n : Nat} {st : Stream} (h : s.liveStream n = some st) : s.stream? n = some st :=
  (Option.filter_eq_some_iff.mp h).1

theorem updStream_eq {s : State} {n : Nat} {st : Stream} (h : s.stream? n = some st) (g : Stream → Stream) :
    s.updStream n g = s.setStream n (g st) := by
  have h' : FMap.get? s.su.streams n = some st := h
  simp only [State.updStream, State.setStream, FMap.update, h']

theorem streamArea_run (pasid : BitVec 20) (s : State) :
    (streamArea pasid).run s = .ok ({ pasid, base := ccbRecbase s pasid }, s) := rfl

section
variable {q s1 s2 s3 : State} {u : Strand} {a b : Word} {n : Nat} {st : Stream}

theorem needStream_ok (hs : OnStream q u a n st) : (needStream q.sid (!u.pl) a).run q = .ok ((n, st), q) := by
  obtain ⟨hn, hlt, hlive, hown⟩ := hs
  have hmod : a.toNat % 1024 = n := by omega
  have hc : (decide (a.toNat < 1024) && (st.pasid == q.pasidOf q.sid || (isHead q.sid && !!u.pl))) = true := by
    simpa [hn, hlt] using hown
  simp only [needStream, hm_bind, hm_get, ok_bind, hmod, hlive]
  simp only [needH_ok hc, ok_bind, hm_pure]

theorem idle_of_inbox (hi : st.inbox = []) : st.idle = true := by
  rw [Stream.idle, hi]
  rfl

section
variable (hs : OnStream q u a n st) (hi : st.inbox = [])
include hs hi

theorem needTurn_ok : (needTurn q.sid (!u.pl) a).run q = .ok ((n, st), q) := by
  simp only [needTurn, hm_bind, needStream_ok hs, needH_ok (idle_of_inbox hi), ok_bind, hm_pure]

/-- The fields that SHEAD reads, by their codes. -/
theorem sheadOp_field {aux : BitVec 4} {k : RecField} (hk : (aux, k) ∈ [((2 : BitVec 4), cSetgen), (4, cTake), (5, cIput)]) :
    (sheadOp q.sid (!u.pl) aux a b).run q = .ok (BitVec.ofNat 64 (st.get k), q) := by
  simp only [List.mem_cons, Prod.mk.injEq, List.not_mem_nil, or_false] at hk
  rcases hk with ⟨rfl, rfl⟩ | ⟨rfl, rfl⟩ | ⟨rfl, rfl⟩
  all_goals simp [sheadOp, needTurn_ok hs hi]

theorem sheadOp_gen {g : Nat} (hg : (genOf st).run q = .ok (g, s1)) :
    (sheadOp q.sid (!u.pl) 3 a b).run q = .ok (BitVec.ofNat 64 g, s1) := by
  simp [sheadOp, needTurn_ok hs hi, hg, ok_bind]

section
variable {e : HeadEnt} (he : st.heads[b.toNat]? = some e)
include he

theorem sheadOp_head : (sheadOp q.sid (!u.pl) 0 a b).run q =
    .ok (BitVec.ofNat 64 (st.get cSetgen * 2 ^ 24 + e.h), q) := by
  simp [sheadOp, needTurn_ok hs hi, he, ok_bind]
  rfl

theorem sheadOp_hold {state hc : Nat} (hne : state ≠ 0)
    (hf : holdsFields { pasid := st.pasid, base := ccbRecbase q st.pasid } [(e.h, bState, state), (e.h, bHcnt, hc)] q = some s1)
    (hlt : hc < 0xFFFFFFFF)
    (hw : writesFields { pasid := st.pasid, base := ccbRecbase q st.pasid } [(e.h, bHcnt, hc + 1)] s1 = some s2) :
    (sheadOp q.sid (!u.pl) 1 a b).run q = .ok (BitVec.ofNat 64 (st.get cSetgen * 2 ^ 24 + e.h), s2) := by
  simp only [holdsFields_cons, holdsFields_nil, writesFields_cons, writesFields_nil, exists_eq_right] at hf hw
  obtain ⟨u1, hstate, hhcnt⟩ := hf
  simp [sheadOp, holdBolt, needTurn_ok hs hi, he, streamArea_run, hstate, hhcnt, needH_ok (bne_iff_ne.mpr hne),
    needH_ok (decide_eq_true hlt), hw, ok_bind]

end

theorem stakeOp_run {g : Nat} (hb : b.toNat < 2 ^ 32) (hg : (genOf st).run q = .ok (g, s1)) (hle : b.toNat ≤ g) :
    (stakeOp q.sid (!u.pl) a b).run q = .ok (BitVec.ofNat 64 (Nat.max (st.get cTake) b.toNat),
      s1.updStream n (·.put cTake (Nat.max (st.get cTake) b.toNat))) := by
  simp only [stakeOp, hm_bind, needTurn_ok hs hi, needH_ok (decide_eq_true hb), hg, needH_ok (decide_eq_true hle), hm_modify,
    ok_bind, hm_pure]

theorem srungOp_forced {force : Bool} (hf : force = true) (hb : b.toNat < st.get cNrung) :
    let st2 := (st.put cRung b.toNat).put cUprun 0
    (srungOp q.sid (!u.pl) force a b).run q = .ok (
      BitVec.ofNat 64 (st2.get cRung * 2 ^ 56 + st2.get (cRungWord (st2.get cRung)) % 2 ^ 44), q.setStream n st2) := by
  have hc : (!true || decide (b.toNat < st.get cNrung)) = true := decide_eq_true hb
  simp only [srungOp, hm_bind, needTurn_ok hs hi, hf, needH_ok hc, hm_modify, ok_bind, if_true, hm_pure]

theorem srungOp_read {force : Bool} (hf : force = false) : (srungOp q.sid (!u.pl) force a b).run q = .ok (
    BitVec.ofNat 64 (st.get cRung * 2 ^ 56 + st.get (cRungWord (st.get cRung)) % 2 ^ 44), q.setStream n st) := by
  have hc : (!false || decide (b.toNat < st.get cNrung)) = true := rfl
  simp only [srungOp, hm_bind, needTurn_ok hs hi, hf, needH_ok hc, hm_modify, ok_bind, Bool.false_eq_true, if_false, hm_pure]

section
variable (hl : st.late = none ∨ st.handledBy (taskidOf q q.sid) (numberOf q.sid) = false)
include hl

theorem sevtOp_event {nb : Bool} {e : Word} {es : List Word} (he : st.events = e :: es) :
    (sevtOp q.sid (!u.pl) nb a).run q = .ok (e, q.setStream n { st with events := es }) := by
  simp only [sevtOp, hm_bind, needTurn_ok hs hi, hm_get, ok_bind]
  split
  next hlate hby => simp [hlate, hby] at hl
  · rw [he]
    rfl

theorem sevtOp_empty {nb : Bool} (hnb : nb = true) (he : st.events = []) :
    (sevtOp q.sid (!u.pl) nb a).run q = .ok (withStatus 9 0, q) := by
  simp only [sevtOp, hm_bind, needTurn_ok hs hi, hm_get, ok_bind]
  split
  next hlate hby => simp [hlate, hby] at hl
  · rw [he, hnb]
    rfl

end

theorem sevtAttachOp_run : (sevtAttachOp q.sid (!u.pl) a).run q = .ok (0,
    q.setStream n (((st.put cHtask (taskidOf q q.sid)).put cHsid (numberOf q.sid)).put cHvalid 1)) := by
  simp only [sevtAttachOp, hm_bind, needTurn_ok hs hi, hm_get, hm_set, ok_bind, hm_pure]

/-- An unpick that is made, or fails, answers its status and the generation of the set. -/
theorem unpickOp_run {code : Nat} {st2 : Stream} (hr : (unpickStream n []).run q = .ok (code, s1))
    (h2 : s1.stream? n = some st2) :
    (unpickOp q.sid (!u.pl) a).run q = .ok (withStatus code (st2.get cSetgen), s1) := by
  have hrun : (do
      let (n, _) ← needTurn q.sid (!u.pl) a
      let st ← unpickStream n []
      match (← get).stream? n with
      | some t => pure (withStatus st (t.get cSetgen))
      | none => pure 0 : Hm Word).run q = .ok (withStatus code (st2.get cSetgen), s1) := by
    simp only [hm_bind, needTurn_ok hs hi, hr, hm_get, h2, ok_bind, hm_pure]
  change unpickOp q.sid (!u.pl) a q = _
  unfold unpickOp
  split
  next r h => exact h.symm.trans hrun
  all_goals
    next h => cases h.symm.trans hrun

end

section
variable {code : Nat} {new : List HeadEnt} {made : List Nat} (hst : q.stream? n = some st)
  (hf : (forkHeads { pasid := st.pasid, base := ccbRecbase q st.pasid } (st.get cTake) st.heads [] []).run q =
    .ok ((code, new, made), s1))
include hst hf

/-- An unpick that a fork stops gives its children back and posts the event. -/
theorem unpickStream_fails (hc : code ≠ 0) (hg : (made.forM fun c =>
      giveBack { pasid := st.pasid, base := ccbRecbase q st.pasid } c).run s1 = .ok ((), s2)) (h2 : s2.stream? n = some st) :
    (unpickStream n []).run q =
      .ok (code, s2.setStream n (st.post 0x04 (code + st.get cTake % 2 ^ 24 * 2 ^ 32))) := by
  simp only [unpickStream, hm_bind, hm_get, hst, streamArea_run, hf, ok_bind, ne_eq, hc, not_false_eq_true, if_true, hg,
    hm_modify, hm_pure, updStream_eq h2]

/-- An unpick that forks every head writes the other table, releases the old heads and posts the event. -/
theorem unpickStream_made (hc : code = 0) (hp : (putUnless st.pasid (st.get (if st.get cHeadsel = 0 then cSetb else cSeta))
      (new.flatMap headBytes) []).run s1 = .ok (true, s2))
    (hg : ((st.heads.filter (·.q != 0)).forM fun e =>
      giveBack { pasid := st.pasid, base := ccbRecbase q st.pasid } e.h).run s2 = .ok ((), s3)) (h3 : s3.stream? n = some st) :
    let st2 := ({ st with heads := new }.put cHeadsel (1 - st.get cHeadsel)).bump cSetgen
    (unpickStream n []).run q =
      .ok (0, s3.setStream n (st2.post 0x03 (st2.get cSetgen + st.get cTake % 2 ^ 24 * 2 ^ 32))) := by
  simp only [unpickStream, hm_bind, hm_get, hst, streamArea_run, hf, ok_bind, ne_eq, hc, not_true_eq_false, if_false, hp, hg,
    hm_modify, hm_pure, updStream_eq h3, Bool.not_true, Bool.false_eq_true]

end
end

end Sys2Proof.Machine
end

section
namespace Sys2Proof.Machine

/-! ### Rings and feeds (14 R398, R406, R409) -/

section
variable {q s1 s2 : State} {u : Strand} {a b : Word} {base : Desig} {n : Nat} {st : Stream}
  (hs : OnStream q u a n st) (hi : st.inbox = [])
include hs hi

section
variable {d : List Byte} {enc : Bool} (hd : (operandLoad q.sid u base b 32 (alignTrap 1 b)).run q = .ok (d, s1))
  (hok : descOk s1 d enc = true)
include hd hok

theorem sframeOp_pushes {nb : Bool} {ring : Nat × Nat × RecField × RecField} (hring : ringOf st enc = ring)
    (hlt : ringCount st ring.2.2.1 ring.2.2.2 < ring.2.1) :
    (sframeOp q.sid u enc nb base a b).run q = .ok (BitVec.ofNat 64 (st.get ring.2.2.1),
      (s1.writeLoc (ringLoc (ring.1 + 32 * (st.get ring.2.2.1 % ring.2.1))) d).updStream n (·.bump ring.2.2.1)) := by
  obtain ⟨start, slots, put, getF⟩ := ring
  simp only [sframeOp, hm_bind, needStream_ok hs, hd, hm_get, needH_ok hok, idle_of_inbox hi, hring, ok_bind, Bool.not_true,
    Bool.false_eq_true, Nat.not_le.mpr hlt, if_false, hm_modify, hm_pure]

theorem sframeOp_full {nb : Bool} {ring : Nat × Nat × RecField × RecField} (hnb : nb = true) (hring : ringOf st enc = ring)
    (hle : ring.2.1 ≤ ringCount st ring.2.2.1 ring.2.2.2) :
    (sframeOp q.sid u enc nb base a b).run q = .ok (withStatus 8 0, s1) := by
  obtain ⟨start, slots, put, getF⟩ := ring
  simp only [sframeOp, hm_bind, needStream_ok hs, hd, hm_get, needH_ok hok, idle_of_inbox hi, hring, hle, hnb, ok_bind,
    Bool.not_true, Bool.false_eq_true, if_false, if_true, hm_pure]

end

section
variable {ps : List Part} (hp : (operandParts q.sid u base .store b 32 (alignTrap 1 b)).run q = .ok (ps, s1))
include hp

/-- The steps are rewritten one by one: comparing the count with 0 by evaluation would unfold its 2^32. -/
theorem sfrpopOp_pops {nb : Bool} (hne : ringCount st cLput cLget ≠ 0) :
    let d := ringRead s1 (st.get cLring + 32 * (st.get cLget % 4))
    (sfrpopOp q.sid u nb base a b).run q = .ok (BitVec.ofNat 64 (st.get cLget),
      storeParts (s1.updStream n (·.bump cLget)) (unitOf q.sid) q.sid .default ps d.1 d.2) := by
  rw [sfrpopOp, hm_bind, needStream_ok hs, ok_bind, hm_bind, hp, ok_bind, hm_bind, needH_ok (idle_of_inbox hi), ok_bind,
    if_neg hne]
  rfl

theorem sfrpopOp_empty {nb : Bool} (hnb : nb = true) (h0 : ringCount st cLput cLget = 0) :
    (sfrpopOp q.sid u nb base a b).run q = .ok (withStatus 9 0, s1) := by
  rw [sfrpopOp, hm_bind, needStream_ok hs, ok_bind, hm_bind, hp, ok_bind, hm_bind, needH_ok (idle_of_inbox hi), ok_bind,
    if_pos h0, if_pos hnb]
  rfl

end
end

section
variable {q s1 s2 : State} {u : Strand} {a b : Word} {base : Desig} {n : Nat} {fd : Feed} (hfd : OnFeed q a n fd)
include hfd

theorem needFeed_onFeed : (needFeed q.sid a).run q = .ok ((n, fd), q) := by
  obtain ⟨hn, hlt, hget, hp⟩ := hfd
  exact needFeed_ok hn hlt hget hp

section
variable {ps : List Part} (hp : (operandParts q.sid u base .store b 64 (feedTrap 2 n)).run q = .ok (ps, s1))
include hp

theorem feedpopOp_pops {src : List Part} (hne : fd.get ≠ fd.put)
    (hsrc : (unitParts fd.pasid .load (fd.recordVa fd.get) 64).run s1 = .ok (src, s2)) :
    (feedpopOp q.sid u base a b).run q = .ok (BitVec.ofNat 64 (fd.get % 2 ^ 48),
      storeParts (s2.setFeed n { fd with get := fd.get + 1 }) (unitOf q.sid) q.sid .default ps (readParts s2 src).1
        (readParts s2 src).2) := by
  simp only [feedpopOp, hm_bind, needFeed_onFeed hfd, hp, hne, hsrc, hm_get, hm_modify, operandStore, ok_bind, if_false, hm_pure]

theorem feedpopOp_empty (h0 : fd.get = fd.put) : (feedpopOp q.sid u base a b).run q = .ok (withStatus 9 0, s1) := by
  simp only [feedpopOp, hm_bind, needFeed_onFeed hfd, hp, h0, ok_bind, if_true, hm_pure]

end

theorem feedwaitOp_ready {c : Word} (hlt : fd.get < fd.put) (timeUp : Bool) (cycle : Nat) :
    (feedwaitOp q.sid a c timeUp cycle).run q = .ok (withStatus 0 0, q) := by
  simp only [feedwaitOp, hm_bind, needFeed_onFeed hfd, hlt, ok_bind, if_true, hm_pure]

section
variable {bs : List Byte} (hb : (operandLoad q.sid u base b 64 (feedTrap 2 n)).run q = .ok (bs, s1))
include hb

theorem feedpushOp_pushes {nb : Bool} {ps : List Part} (hf : fd.full = false)
    (hp : (unitParts fd.pasid .store (fd.recordVa fd.put) bs.length).run s1 = .ok (ps, s2)) :
    (feedpushOp q.sid u nb base a b).run q = .ok (BitVec.ofNat 64 fd.put,
      (writeParts s2 ps bs false).setFeed n { fd with put := fd.put + 1 }) := by
  simp only [feedpushOp, uWrite, hm_bind, needFeed_onFeed hfd, hb, hf, hp, hm_modify, ok_bind, Bool.false_eq_true,
    if_false, hm_pure]

theorem feedpushOp_full {nb : Bool} (hnb : nb = true) (hf : fd.full = true) :
    (feedpushOp q.sid u nb base a b).run q = .ok (withStatus 8 0, s1) := by
  simp only [feedpushOp, hm_bind, needFeed_onFeed hfd, hb, hf, hnb, ok_bind, if_true, hm_pure]

end
end

/-- Settles O41: every row shares the body of a home-path instruction, and each row of class 6 answers what its operation
answers when it is run. -/
theorem homePathCompletes : Obligations.HomePathCompletes := by
  intro fl s q s1 s2 s3 f r t u a b sid starts answers
  have rows : ∀ row ∈ streamRows, ∀ {w : Word} {s' : State}, starts row → (row.op fl q u).run q = .ok (w, s') →
      answers row w s' :=
    fun row hr _ _ hs => home_answers hs (List.mem_append_right _ hr)
  simp only [streamRows, List.forall_mem_cons] at rows
  obtain ⟨shead, stake, unpick, sframe, sfrpop, srung, sevt, attach, feedpop, feedwait, feedpush, -⟩ := rows
  refine ⟨fun row o o2 w hr hf ha hm hp hop => home_completes hr hf ha hm hp hop, fun n st hon hi => ?_, fun n fd hfd => ?_⟩
  · refine ⟨fun hs => ?_, ?_, ?_, ?_, ?_, ?_, ?_, ?_, ?_⟩
    · have head : ∀ {aux : BitVec 4} {w : Word} {s' : State}, fl.aux = aux →
          (sheadOp q.sid (!u.pl) aux a b).run q = .ok (w, s') → answers sheadRow w s' := by
        rintro _ w s' rfl hop
        exact shead hs hop
      exact ⟨fun h2 => head h2 (sheadOp_field hon hi (by simp)), fun g h3 hg => head h3 (sheadOp_gen hon hi hg),
        fun h4 => head h4 (sheadOp_field hon hi (by simp)), fun h5 => head h5 (sheadOp_field hon hi (by simp)),
        fun e he => ⟨fun h0 => head h0 (sheadOp_head hon hi he),
          fun state hc h1 hne hf hlt hw => head h1 (sheadOp_hold hon hi he hne hf hlt hw)⟩⟩
    · exact fun g hs hb hg hle => stake hs (stakeOp_run hon hi hb hg hle)
    · intro code new made hs ar took hf
      have hst : q.stream? n = some st := by
        obtain ⟨-, -, hlive, -⟩ := hon
        exact stream_of_live hlive
      exact ⟨fun hc hg h2 => unpick hs (unpickOp_run hon hi (unpickStream_fails hst hf hc hg h2) (stream?_setStream _ _ _)),
        fun hc hp hg h3 => unpick hs (unpickOp_run hon hi (unpickStream_made hst hf hc hp hg h3) (stream?_setStream _ _ _))⟩
    · exact fun d hs hd hok => ⟨fun hlt => sframe hs (sframeOp_pushes hon hi hd hok rfl hlt),
        fun hle hnb => sframe hs (sframeOp_full hon hi hd hok hnb rfl hle)⟩
    · exact fun ps hs hp => ⟨fun hne => sfrpop hs (sfrpopOp_pops hon hi hp hne),
        fun h0 hnb => sfrpop hs (sfrpopOp_empty hon hi hp hnb h0)⟩
    · exact fun hs haux hb => srung hs (srungOp_forced hon hi (beq_iff_eq.mpr haux) hb)
    · exact fun hs haux => srung hs (srungOp_read hon hi (beq_false_of_ne haux))
    · exact fun hs hl => ⟨fun e es he => sevt hs (sevtOp_event hon hi hl he),
        fun he hnb => sevt hs (sevtOp_empty hon hi hl hnb he)⟩
    · exact fun hs => attach hs (sevtAttachOp_run hon hi)
  · exact ⟨fun ps hs hp => ⟨fun src hne hsrc => feedpop hs (feedpopOp_pops hfd hp hne hsrc),
        fun h0 => feedpop hs (feedpopOp_empty hfd hp h0)⟩,
      fun hs hlt => feedwait hs (feedwaitOp_ready hfd hlt _ _),
      fun bs ps hs hb => ⟨fun hf hp => feedpush hs (feedpushOp_pushes hfd hb hf hp),
        fun hf hnb => feedpush hs (feedpushOp_full hfd hb hnb hf)⟩⟩

end Sys2Proof.Machine
end
